-- ==== Sys2Proof/Word.lean ====
section
/-!
DEFINITION. Word.lean: the words of the device. Registers, plane words and table words are 32-bit bit vectors (R4, R89);
the Plain and the retained store are addressed by bytes (R6). `Sparse` is the one shape in which the model holds memories
and indexed tables: pairs of key and value in rising key order, from which entries at their reset value are left out.
-/

namespace Sys2Proof.Machine

/-- A 32-bit word: a register or a plane word. -/
abbrev Word := BitVec 32

/-- One byte of the Plain, of the retained store or of a variable memory. -/
abbrev Byte := BitVec 8

/-- A memory or table held as the entries that differ from what an unlisted key reads as. -/
abbrev Sparse (α : Type) := List (Nat × α)

end Sys2Proof.Machine
end

