-- ==== Sys2Proof/Machine/Sparse.lean ====
section
/-!
DEFINITION. Machine/Sparse.lean: reading and writing a memory or table held as a sorted list of the entries that differ
from what an unlisted key reads as, and the number helpers (sign, saturation, rounding) the chapters share.
-/

namespace Sys2Proof.Machine

/-- The value at key `k`; `d` says what an unlisted key reads as. -/
def Sparse.get {α : Type} (d : Nat → α) : Sparse α → Nat → α
  | [], k => d k
  | (a, v) :: t, k => if a = k then v else Sparse.get d t k

/-- Writing `v` at key `k`: an entry that would hold its unlisted value is left out, so equal contents are equal lists. -/
def Sparse.set {α : Type} [DecidableEq α] (d : Nat → α) : Sparse α → Nat → α → Sparse α
  | [], k, v => if v = d k then [] else [(k, v)]
  | (a, w) :: t, k, v =>
    if k < a then (if v = d k then (a, w) :: t else (k, v) :: (a, w) :: t)
    else if k = a then (if v = d k then t else (k, v) :: t)
    else (a, w) :: Sparse.set d t k v

/-- Every key of `m` is above `k`. -/
def Sparse.above {α : Type} (k : Nat) (m : Sparse α) : Bool := m.all fun p => k < p.1

/-- The canonical form: keys strictly rising, no entry equal to what an unlisted key reads as. -/
def Sparse.wf {α : Type} [DecidableEq α] (d : Nat → α) : Sparse α → Bool
  | [] => true
  | (a, v) :: t => Sparse.above a t && decide (v ≠ d a) && Sparse.wf d t

/-- Changing the value at key `k`. -/
def Sparse.mod {α : Type} [DecidableEq α] (d : Nat → α) (m : Sparse α) (k : Nat) (f : α → α) : Sparse α :=
  Sparse.set d m k (f (Sparse.get d m k))

/-- The number that the low `n` bits of `x` spell in two's complement. -/
def sext (n x : Nat) : Int :=
  if x % 2 ^ n < 2 ^ (n - 1) then (x % 2 ^ n : Nat) else (x % 2 ^ n : Nat) - (2 ^ n : Nat)

/-- The low `n` bits of the integer `x`. -/
def trunc (n : Nat) (x : Int) : Nat := (x % (2 ^ n : Nat)).toNat

/-- `x` kept within `lo` to `hi`. -/
def clampInt (lo hi x : Int) : Int := if x < lo then lo else if hi < x then hi else x

/-- `x` saturated to `n`-bit two's complement. -/
def satInt (n : Nat) (x : Int) : Int := clampInt (-(2 ^ (n - 1) : Nat)) ((2 ^ (n - 1) : Nat) - 1) x

/-- The word that holds the integer `x` in two's complement. -/
def intWord (x : Int) : Word := BitVec.ofInt 32 x

/-- Shift right by `k`, rounding to nearest with ties upward. -/
def shrRound (x : Int) (k : Nat) : Int := if k = 0 then x else (x + (2 ^ (k - 1) : Nat)) / (2 ^ k : Nat)

/-- Quotient rounded to the nearest integer, ties away from zero; `d` is positive. -/
def divRoundAway (x : Int) (d : Nat) : Int :=
  if x < 0 then -((-x * 2 + d) / (2 * d)) else (x * 2 + d) / (2 * d)

/-- Bit `k` of `x`. -/
def bitOf (x k : Nat) : Bool := x / 2 ^ k % 2 = 1

/-- Bits `lo` upward, `w` of them, of `x`. -/
def bitsOf (x lo w : Nat) : Nat := x / 2 ^ lo % 2 ^ w

/-- `x` with its `w` bits from `lo` replaced by `v`. -/
def putBits (x lo w v : Nat) : Nat := x - bitsOf x lo w * 2 ^ lo + v % 2 ^ w * 2 ^ lo

/-- A Boolean as a bit. -/
def b2n (b : Bool) : Nat := if b then 1 else 0

/-- Counting up to a maximum. -/
def satAdd (m x k : Nat) : Nat := min m (x + k)

/-- The smallest element that satisfies `p`, of the numbers below `n`. -/
def firstBelow (n : Nat) (p : Nat → Bool) : Option Nat := (List.range n).find? p

end Sys2Proof.Machine
end

