-- ==== Sys2Proof/Machine/Float.lean ====
section
/-!
DEFINITION. Machine/Float.lean: IEEE 754-2019 binary32 and binary64 arithmetic with round to nearest, ties to even, as
R91, R92, R207, R231 and R232 use it. A finite number is held exactly, as a sign, a natural number and a power of two;
every operation computes exactly and rounds once.
-/

namespace Sys2Proof.Machine

/-- A floating-point value. -/
inductive FVal where
  | nan
  | inf (neg : Bool)
  /-- (-1)^neg × m × 2^e. -/
  | fin (neg : Bool) (m : Nat) (e : Int)
deriving DecidableEq, Repr

/-- A format: bits of the stored significand, and the exponent of its smallest unit. -/
structure FloatFmt where
  mbits : Nat
  emin : Int
  emax : Int
deriving DecidableEq, Repr

/-- binary32 and binary64. -/
def binary32 : FloatFmt := { mbits := 23, emin := -126, emax := 127 }
def binary64 : FloatFmt := { mbits := 52, emin := -1022, emax := 1023 }

/-- `num / den` rounded to the nearest natural number, ties to even; `den` is positive. -/
def divRne (num den : Nat) : Nat :=
  let q := num / den
  let r := num % den
  if 2 * r < den then q else if den < 2 * r then q + 1 else if q % 2 = 0 then q else q + 1

/-- `num × 2^e` and `den` scaled so that the power of two is gone. -/
def scaleFrac (num den : Nat) (e : Int) : Nat × Nat :=
  if 0 ≤ e then (num * 2 ^ e.toNat, den) else (num, den * 2 ^ (-e).toNat)

/-- floor(log2 (num / den)) of a positive fraction. -/
def fracLog2 (num den : Nat) : Int :=
  let l : Int := (Nat.log2 num : Int) - (Nat.log2 den : Int)
  let p := scaleFrac 1 1 l
  if num * p.2 < den * p.1 then l - 1 else l

/-- The fraction `num × 2^e / den`, with its sign, rounded to a format: overflow gives infinity. -/
def roundFrac (f : FloatFmt) (neg : Bool) (num den : Nat) (e : Int) : FVal :=
  if num = 0 then .fin neg 0 0
  else
    let p := scaleFrac num den e
    let l := max (fracLog2 p.1 p.2) f.emin
    let q := l - f.mbits
    let r := scaleFrac p.1 p.2 (-q)
    let m := divRne r.1 r.2
    let top : Int := if m = 2 ^ (f.mbits + 1) then l + 1 else l
    if f.emax < top then .inf neg else .fin neg m q

/-- A sum in format `f`; an exact zero sum is +0 unless both operands are -0. -/
def fAdd (f : FloatFmt) : FVal → FVal → FVal
  | .nan, _ => .nan
  | _, .nan => .nan
  | .inf a, .inf b => if a = b then .inf a else .nan
  | .inf a, .fin _ _ _ => .inf a
  | .fin _ _ _, .inf b => .inf b
  | .fin a m e, .fin b n g =>
    let lo := min e g
    let x : Int := (m * 2 ^ (e - lo).toNat : Nat)
    let y : Int := (n * 2 ^ (g - lo).toNat : Nat)
    let t := (if a then -x else x) + (if b then -y else y)
    if t = 0 then (if m = 0 ∧ n = 0 ∧ a = true ∧ b = true then .fin true 0 0 else .fin false 0 0)
    else roundFrac f (t < 0) t.natAbs 1 lo

/-- Negation. -/
def fNeg : FVal → FVal
  | .nan => .nan
  | .inf a => .inf (!a)
  | .fin a m e => .fin (!a) m e

/-- A difference in format `f`. -/
def fSub (f : FloatFmt) (x y : FVal) : FVal := fAdd f x (fNeg y)

/-- A product in format `f`. -/
def fMul (f : FloatFmt) : FVal → FVal → FVal
  | .nan, _ => .nan
  | _, .nan => .nan
  | .inf a, .inf b => .inf (a != b)
  | .inf a, .fin b m _ => if m = 0 then .nan else .inf (a != b)
  | .fin a m _, .inf b => if m = 0 then .nan else .inf (a != b)
  | .fin a m e, .fin b n g => roundFrac f (a != b) (m * n) 1 (e + g)

/-- A quotient in format `f`: a finite number by zero is an infinity, zero by zero is not a number. -/
def fDiv (f : FloatFmt) : FVal → FVal → FVal
  | .nan, _ => .nan
  | _, .nan => .nan
  | .inf _, .inf _ => .nan
  | .inf a, .fin b _ _ => .inf (a != b)
  | .fin a _ _, .inf b => .fin (a != b) 0 0
  | .fin a m e, .fin b n g =>
    if n = 0 then (if m = 0 then .nan else .inf (a != b))
    else roundFrac f (a != b) m n (e - g)

/-- The value a binary32 word spells. -/
def f32 (w : Nat) : FVal :=
  let s := bitOf w 31
  let e := bitsOf w 23 8
  let m := bitsOf w 0 23
  if e = 255 then (if m = 0 then .inf s else .nan)
  else if e = 0 then .fin s m (-149)
  else .fin s (m + 2 ^ 23) ((e : Int) - 150)

/-- The binary32 word of a value rounded to binary32; a result that is not a number is the quiet NaN 0x7FC0_0000. -/
def f32Word (v : FVal) : Nat :=
  match v with
  | .nan => 0x7FC00000
  | .inf s => b2n s * 2 ^ 31 + 0x7F800000
  | .fin s m e =>
    match roundFrac binary32 s m 1 e with
    | .fin _ m2 q =>
      if m2 = 0 then b2n s * 2 ^ 31
      else b2n s * 2 ^ 31 + ((q + 149).toNat * 2 ^ 23 + m2)
    | .inf _ => b2n s * 2 ^ 31 + 0x7F800000
    | .nan => 0x7FC00000

/-- The value of an integer. -/
def fInt (x : Int) : FVal := .fin (x < 0) x.natAbs 0

/-- A value rounded to a format. -/
def fRound (f : FloatFmt) : FVal → FVal
  | .fin s m e => roundFrac f s m 1 e
  | v => v

/-- `a` is less than `b`; false where either is not a number. -/
def fLess : FVal → FVal → Bool
  | .nan, _ => false
  | _, .nan => false
  | .inf a, .inf b => a && !b
  | .inf a, .fin _ _ _ => a
  | .fin _ _ _, .inf b => !b
  | .fin a m e, .fin b n g =>
    let lo := min e g
    let x : Int := (m * 2 ^ (e - lo).toNat : Nat)
    let y : Int := (n * 2 ^ (g - lo).toNat : Nat)
    (if a then -x else x) < (if b then -y else y)

/-- The two values are equal numbers; -0 equals 0. -/
def fEq (a b : FVal) : Bool := !fLess a b && !fLess b a && a != .nan && b != .nan

/-- The nearest integer, ties away from zero; 0 for a value that is no number. -/
def fToIntAway : FVal → Int
  | .fin s m e =>
    let p := scaleFrac m 1 e
    let q := divRoundAway (p.1 : Int) p.2
    if s then -q else q
  | _ => 0

/-- The nearest integer, ties to even. -/
def fToIntEven : FVal → Int
  | .fin s m e =>
    let p := scaleFrac m 1 e
    let q : Int := (divRne p.1 p.2 : Nat)
    if s then -q else q
  | _ => 0

/-- The integer part, toward zero. -/
def fToIntZero : FVal → Int
  | .fin s m e =>
    let p := scaleFrac m 1 e
    let q : Int := (p.1 / p.2 : Nat)
    if s then -q else q
  | _ => 0

/-- The engineering value of a plane word, as a binary32 word (R91): three roundings. TIME32 words are not scaled. -/
def engValue (ty w span offset : Nat) : Nat :=
  let v : FVal := match ty with
    | 1 => fRound binary32 (.fin (sext 16 w < 0) (sext 16 w).natAbs (-15))
    | 2 => fRound binary32 (.fin (sext 32 w < 0) (sext 32 w).natAbs (-31))
    | 3 => fInt ((w % 2 : Nat) : Int)
    | 5 => fRound binary32 (fInt (sext 32 w))
    | _ => fRound binary32 (fInt ((w % 2 ^ 32 : Nat) : Int))
  f32Word (fAdd binary32 (f32 offset) (fMul binary32 (f32 span) v))

/-- What an engineering value of the host becomes (R92). -/
inductive PlaneConv where
  | word (w : Nat)
  | badScale
  | badArg
deriving DecidableEq, Repr

/-- The plane word of engineering value `e` (a binary32 word) for an entry of TYPE `ty` (R92). -/
def planeOfEng (ty e span offset : Nat) : PlaneConv :=
  match ty, f32 e with
  | _, .nan => .badArg
  | 3, v => .word (if fEq v (fInt 0) then 0 else 1)
  | 6, .inf _ => .badArg
  | 6, v => .word (trunc 32 (fToIntAway v))
  | _, v =>
    if fEq (f32 span) (fInt 0) then .badScale
    else
      let sc : Int := if ty = 1 then 2 ^ 15 else if ty = 2 then 2 ^ 31 else 1
      let q := fMul binary64 (fDiv binary64 (fSub binary64 v (f32 offset)) (f32 span)) (fInt sc)
      let lo : Int := if ty = 1 then -(2 ^ 15) else if ty = 4 then 0 else -(2 ^ 31)
      let hi : Int := if ty = 1 then 2 ^ 15 - 1 else if ty = 4 then 2 ^ 32 - 1 else 2 ^ 31 - 1
      match q with
      | .nan => .badArg
      | .inf neg => .word (trunc 32 (if neg then lo else hi))
      | .fin _ _ _ => .word (trunc 32 (clampInt lo hi (fToIntAway q)))

end Sys2Proof.Machine
end

