-- ==== Sys2Proof/Syntax.lean ====
section
/-!
DEFINITION. Syntax.lean: the commands the block takes, one constructor per row of the opcode table, in the table's order,
with the operands the environment decides: addresses, values, received frames, sampled levels, engine numbers.
A row that needs none has none. The types of structured operands stand first.
-/

namespace Sys2Proof

namespace Machine

/-- The output units that prefetch bound entries (R29). -/
inductive OutUnit where
  | dac | pwm | gpio | rio | can
deriving DecidableEq, Repr

/-- How a CAN attempt or frame ends in an error: a bit error in the data or CRC field, a missing acknowledgement, another
error (R403, R404). -/
inductive CanErr where
  | dataBit | ack | other
deriving DecidableEq, Repr

/-- A job as its source releases it (R63). -/
structure JobReq where
  deadline : Nat
  cls : Nat
  logic : Bool
  inf : Bool
  onMiss : Nat
  flow : Option Nat
  engine : Nat
  pin : Bool
  entry : Nat
  source : Nat
  arg0 : Nat
  extend : Nat
  /-- Released at EXPIRY instead of at once (R79). -/
  delayed : Bool
  /-- Waits for this event before it is ready (R64). -/
  event : Option Nat
  timed : Bool
  expiry : Nat
deriving DecidableEq, Repr

/-- A queued event (R414, R417). -/
structure EventRec where
  code : Nat
  source : Nat
  fault : Bool
  ns : Nat
  sec : Nat
  epoch : Nat
  last : Nat
  data : List Nat
  node : Nat
  pos : Nat
  remote : Bool
  rep : Nat
deriving DecidableEq, Repr

/-- What a RECORD frame carries (R422): a request of `n` records of a class from a serial on, an answer, a routed record. -/
inductive RecMsg where
  | request (fault : Bool) (serial n : Nat)
  | answer (records : List EventRec)
  | routed (record : EventRec)
deriving DecidableEq, Repr

/-- A trace frame (R426): its words are its rows, or its summaries, one after another. -/
structure TraceFrame where
  kind : Nat
  sub : Nat
  fseq : Nat
  epoch : Nat
  nSig : Nat
  first : Nat
  nRow : Nat
  tick : Nat
  div : Nat
  lost : Nat
  body : List Nat
deriving DecidableEq, Repr

/-- An entry of an exchange table (R211): `kind` 0 variable, 1 timer, 2 counter, 3 edge. -/
structure ExchEntry where
  key : Nat
  kind : Nat
  addr : Nat
  task : Nat
  matched : Bool
  /-- Initial contents of a new variable, PV of a new counter (4 bytes). -/
  init : List Byte
deriving DecidableEq, Repr

/-- Task configuration registers of a program. -/
structure TaskCfg where
  cfg : Word
  entry : Word
  phase : Word
deriving DecidableEq, Repr

/-- A program of the cyclic tasks: its length, page table (0 none, task + 1), lists, initialisation list and exchange
table. -/
structure LogProg where
  len : Nat
  pages : Sparse Nat
  inputs : Sparse (List Nat)
  outputs : Sparse (List Nat)
  init : List (Nat × Nat)
  table : List ExchEntry
  tasks : Sparse TaskCfg
deriving DecidableEq, Repr

/-- A remote record route (R422). -/
structure RecRoute where
  fault : Bool
  source : Nat
  code : Nat
  node : Nat
  pos : Nat
deriving DecidableEq, Repr

/-- What SECDED finds in a word read (R40). -/
inductive EccEvent where
  | clean | corrected | uncorrectable
deriving DecidableEq, Repr

/-- What a 64-byte mailbox message says (R324): a safe frame received on a path, a piece of an offered block, a
confirmation with a CRC, a discard, or a type that is none of these or a malformed message. -/
inductive MboxMsg where
  | safeFrame (path : Nat) (bytes : List Byte)
  | offer (off : Nat) (bytes : List Byte)
  | confirm (crc : Nat)
  | discard
  | other (ty : Nat)
deriving DecidableEq, Repr

/-- A step change or pass commit that is fixed and not yet applied (R126, R127, R134): `kind` 0 STEP, 1 START, 2 HOLD,
3 CONTINUE, 4 ABORT, 5 STOP, 6 RESUME; `target` is a word of R113; `start` is the tick number of the boundary at which it
takes effect; `hold` makes the step start HELD (R138). -/
structure SeqChange where
  kind : Nat
  target : Nat
  cause : Nat
  start : Nat
  hold : Bool
deriving DecidableEq, Repr

/-- A pass commit as posted, held or sent (R134, R349). -/
structure PassMsg where
  kind : Nat
  spanSeq : Nat
  from_ : Nat
  target : Nat
  /-- Tick number of the commit boundary. -/
  start : Nat
  attempt : Nat
  arg : Nat
  /-- Cascade positions addressed; a member holds none. -/
  members : List Nat
deriving DecidableEq, Repr

/-- A commit the master has posted and whose answers it awaits (R136). -/
structure PassOut where
  msg : PassMsg
  acked : List Nat
  /-- PASS_POLICY, PASS_RETRIES and PASS_PATH of the step at the post. -/
  policy : Nat
  retries : Nat
  path : Nat
deriving DecidableEq, Repr

/-- A sequence context (R109). -/
structure SeqCtx where
  state : Nat
  /-- The state before RESTORED (R141). -/
  former : Nat
  step : Nat
  elapsed : Nat
  cause : Nat
  /-- The copy of the step entry, 32 words, taken at step start. -/
  entry : List Nat
  /-- Dwell counts and edge memories, by condition slot (R117, R118). -/
  dwell : Sparse Nat
  edge : Sparse (Option Nat)
  /-- The change whose actions phase 3 of an evaluation still has to write. -/
  pend : Option SeqChange
  /-- Pass commits held for their boundaries, with the cause each gives its change. -/
  commits : List SeqChange
  /-- The messages of those commits, as received by a member. -/
  rx : List PassMsg
  /-- The first tick in which phases 2 and 4 take the sequence. -/
  since : Nat
  /-- The internal START slot (R138). -/
  startSlot : Option Nat
  /-- The master's posts (R136), and the commit entry of the link engine (R57). -/
  posts : List PassOut
  send : Option PassMsg
  /-- State and step at the end of the last evaluation (R119). -/
  seenState : Nat
  seenStep : Nat
deriving DecidableEq, Repr

/-- A ramp slot (R124, R125). -/
structure RampSlot where
  seq : Nat
  target : Nat
  s : Int
  t : Int
  len : Nat
  k : Nat
deriving DecidableEq, Repr

/-- The staging line of an axis (R275). -/
structure AxisSnap where
  p : Int
  q : Int
  u : Int
  s : Int
  t : Int
  stat : Nat
  i : Int
  ofs : Int
deriving DecidableEq, Repr

/-- What a staging half holds (R219): sequence contexts, ramp slots, ACTIVE bits and axis lines. -/
structure StageSnap where
  ctx : Sparse SeqCtx
  ramps : Sparse (Option RampSlot)
  active : Sparse Bool
  axes : Sparse (Option AxisSnap)
deriving DecidableEq, Repr

/-- A sequence in a tick record: state, step, elapsed ticks and deferred flag (R332). -/
structure SeqLine where
  seq : Nat
  st : Nat
  step : Nat
  elapsed : Nat
  deferred : Bool
deriving DecidableEq, Repr

/-- The tick record of boundary `tick` (R332): the words of the bound entries, the sequences that are not IDLE, the pass
commits not yet applied, the strobe count, and the force requests accepted (none: released). -/
structure TickRec where
  tick : Nat
  words : List (Nat × Word)
  seqs : List SeqLine
  commits : List PassMsg
  strobes : Nat
  forces : List (Nat × Option Word)
deriving DecidableEq, Repr

/-- A cascade frame (R345): `words` are the payload words, or, where the spec does not lay the payload out, the values it
carries in order; `len` is LENGTH and `seq` SEQ. -/
structure CasFrame where
  ty : Nat
  cls : Nat
  terrace : Nat
  dest : Nat
  src : Nat
  len : Nat
  seq : Nat
  words : List Nat
deriving DecidableEq, Repr

/-- A route of the image's route table (R342, R352): position, ports and node number. -/
structure Route where
  pos : Nat
  primary : Nat
  alternate : Nat
  node : Nat
deriving DecidableEq, Repr

/-- What a PTP message says (R364 to R366): a Sync with originTimestamp and correction in ns, a Follow_Up, a path delay that
an exchange has measured in ns, an Announce that does or does not make its sender the best master, or a message that is
malformed or of another domain. -/
inductive PtpMsg where
  | sync (origin : Nat) (correction : Int) (twoStep : Bool) (rx : Nat)
  | followUp (origin : Nat) (correction : Int)
  | delay (ns : Int)
  | announce (best : Bool)
  | bad
deriving DecidableEq, Repr

/-- An Ethernet frame at the switch: addresses, the 802.1Q tag (VID, PCP) if any, octets from the destination address to the
FCS, and whether its FCS is good. -/
structure EthFrame where
  dst : Nat
  src : Nat
  tag : Option (Nat × Nat)
  len : Nat
  ok : Bool
  /-- A request to the station of its port: ARP, IPv6 neighbour discovery or ICMP echo (R376). -/
  asks : Bool
  /-- A PTP event message: it is a Sync whose twoStepFlag is 1; its correctionField, in 2^-16 ns (R366). -/
  ptp : Option (Bool × Int)
deriving DecidableEq, Repr

/-- A module's identity record (R383). -/
structure RioId where
  ty : Nat
  vmin : Nat
  vmax : Nat
  outMax : Nat
  inMax : Nat
  lead : Nat
deriving DecidableEq, Repr

/-- A returned segment of a CYCLE frame (R381): `left` is the short time at which its first byte left the port. -/
structure RioSeg where
  addr : Nat
  proc : Bool
  err : Bool
  unconf : Bool
  diag : Bool
  lead : Nat
  left : Nat
  bytes : List Byte
deriving DecidableEq, Repr

/-- A module of the image's ring table (R383): its type, segment lengths and the CYCLE frame that holds its segment. -/
structure RioEntry where
  ty : Nat
  outLen : Nat
  inLen : Nat
  frame : Nat
deriving DecidableEq, Repr

/-- What the sections of an image hold whose layout the spec does not give (R434): flow declarations, the order held and the
orders waited for (R60); the lists, page table and exchange table of a cyclic program (R199, R202, R203, R211); cascade
routes and exports; VLANs and station addresses; ring tables; remote record routes. -/
structure ImgExtra where
  flows : List (Nat × List Nat)
  logic : Option LogProg
  routes : List Route
  exports : List (Nat × List Nat)
  vlans : List (Nat × Nat)
  mac0 : Nat
  mac1 : Nat
  rio : Sparse RioEntry
  recRoutes : List RecRoute
deriving DecidableEq, Repr

/-- A copy in the external memory as a pass reads it: the base container, and each change of its change area with the tick in
its applied line, none where the line is erased (R436, R444). -/
structure CopyBytes where
  base : List Byte
  chain : List (List Byte × Option Nat)
deriving DecidableEq, Repr

/-- An SHP request: sender, header fields and payload (R446). LENGTH is the number of payload bytes. -/
structure ShpReq where
  /-- Address and UDP port of the sender, as one number. -/
  client : Nat
  ver : Nat
  session : Nat
  seq : Nat
  payload : List Byte
deriving DecidableEq, Repr

/-- A message the SHP engine sends: a reply, or a notification (R446). -/
structure ShpMsg where
  client : Nat
  ver : Nat
  ty : Nat
  session : Nat
  notify : Bool
  seq : Nat
  status : Nat
  result : Nat
  payload : List Byte
deriving DecidableEq, Repr

/-- An access through the vendor debug port: a read or write of a bus address, or, at FULL, of word `addr` of memory `mem` of
engine `unit` (R461): 0 lane program, 1 lane data, 2 lane coefficient, 3 and 4 logic program banks 0 and 1, 5 logic variable
memory, by byte. -/
inductive DebugAccess where
  | bus (addr : Nat) (write : Option Word)
  | localMem (unit mem addr : Nat) (write : Option Word)
deriving DecidableEq, Repr

end Machine

open Machine

/-- A command of the block: an operation or event of the opcode table. -/
inductive Instr where
  /-- POR (R33). A supply monitor asserts power-on reset, which resets every vale except the safety vale while keeping the retained store. -/
  | por
  /-- PIN_RESET (R34). NRESET held low for more than 10 µs puts the device into a PIN reset that lasts while the pin stays low. -/
  | pinReset
  /-- SOFT_RESET (R33). A privileged write of 0xA50F to SYS_RST_CTL.KEY starts a SOFT reset. -/
  | softReset
  /-- CLOCK_RESET (R13). CPLL or HPLL out of lock for more than 1 µs enters a CLOCK reset, which lasts until both PLLs lock again. -/
  | clockReset
  /-- XIN_STOP (R13). XIN stops: the device is held in reset and the time counter stops. -/
  | xinStop
  /-- XIN_RETURN (R13). XIN returns: the time counter resumes from its held value, lagging domain time. -/
  | xinReturn
  /-- SERDES_PLL_LOSS (R14). SREFCLK is lost or SPLL_E, SPLL_L or SPLL_P loses lock: only the vales and ports it feeds stay down, and CLK_PLL_LOSS records it. `lost` has the bits of CLK_PLL_LOSS. -/
  | serdesPllLoss (lost : Nat)
  /-- RESET_RELEASE (R35). Reset is released once NRESET is high for more than 10 µs or the internal cause has cleared. The straps as sampled. -/
  | resetRelease (bootSel : Nat) (cascPos : Nat) (pairRole : Bool)
  /-- PLL_LOCK (R35). CPLL and HPLL lock: the fabric, boot and host vales are released and their cols open. -/
  | pllLock
  /-- COL_STALL (R19). A col entry that has waited more than 10 µs for its acknowledge is recorded in CLK_COL_STALL. -/
  | colStall (pair : Nat) (dir : Bool)
  /-- COL_STALL_CLEAR (R19). Writing 1 to CLK_COL_STALL.STALL clears it and releases DIR and PAIR to record the next stall. -/
  | colStallClear
  /-- TICK_STROBE (R22). The time counter reaches a tick boundary and raises the tick strobe. -/
  | tickStrobe
  /-- STROBE_ARRIVAL (R24). The strobe arrives in a vale: outputs take their held values, inputs latch, and the turn engine copies the frozen turn set into the current-value plane. `lines` are the input lines that changed; `late` the entries and ports of latch and turn writes that will not complete by input close. -/
  | strobeArrival (lines : List (Nat × Bool)) (late : List (Nat × Nat))
  /-- INPUT_CLOSE (R23). 4 µs after strobe arrival the current-value plane is closed for the tick, and late latch and turn writes are discarded. `skips` are signals whose folds do not complete in the tick, `missed` subscriptions whose rows do not. -/
  | inputClose (skips : List Nat) (missed : List Nat)
  /-- OUTPUT_CLOSE (R23). The output-close edge at t0 + 48 µs freezes the output plane and the turn sets and starts parking output-plane writes. -/
  | outputClose
  /-- OUTPUT_PREFETCH (R29). The DAC, PWM, GPIO and remote I/O output units read the frozen output plane into their holding registers. -/
  | outputPrefetch (unit : OutUnit)
  /-- TICK_CLR (R25). Writing 1 to SYS_TICK_CLR.CLR clears both SYS_TICK_STAT counters and resets SYS_LATE_SRC. -/
  | tickClr
  /-- REGISTER_WRITE (R4). A write to a register that has no row of its own takes effect according to the Type of each field. `priv`: the writer is privileged. -/
  | registerWrite (addr : Nat) (data : Word) (priv : Bool)
  /-- PLAIN_TRANSACTION (R37). A requester presents a fabric transaction of 1 to 64 bytes within one line at its port. -/
  | plainTransaction (port : Nat) (requester : Nat) (addr : Nat) (isWrite : Bool) (data : List Byte) (len : Nat)
  /-- GRANT (R46). The arbiter grants one transaction per fabric-vale cycle, by reserved slot for port 0 and by weighted deficit round robin for classes 1 to 5. -/
  | grant (ecc : EccEvent)
  /-- RETAINED_STORE_ACCESS (R217). The retained-store controller completes a queued line read or persistent write. -/
  | retainedStoreAccess
  /-- PLN_CLR_WAIT (R50). Writing 1 to PLN_CLR.WAIT clears PLN_WAITMAX0 to PLN_WAITMAX23. -/
  | plnClrWait
  /-- PLN_CLR_ECC (R40). Writing 1 to PLN_CLR.ECC clears PLN_ECC_STAT and PLN_ECC_ADDR. -/
  | plnClrEcc
  /-- PLN_CLR_WIN (R42). Writing 1 to PLN_CLR.WIN clears PLN_WIN_VIOL. -/
  | plnClrWin
  /-- JOB_RELEASE (R65). A source releases a job to the scheduler, which accepts it against its class quota or refuses it. -/
  | jobRelease (job : JobReq)
  /-- RUN_LIMIT (R71). A lane job still running 1.0 µs after its start is stopped and reported RUN_LIMIT. `issued`: a vendor kernel has made its last PUT, PUTW or FST and only END is left. -/
  | runLimit (lane : Nat) (issued : Bool)
  /-- JOB_COMPLETE (R183). An engine reports a job complete, and the scheduler frees its descriptor or holds it for its flow. Engines 0 to 7 are lanes, 8 to 11 logic cores. -/
  | jobComplete (engine : Nat)
  /-- DEADLINE_PASS (R75). A job's deadline passes, and ON_MISS either terminates it or extends it. `job` is the descriptor; `issued` as for RUN_LIMIT. -/
  | deadlinePass (job : Nat) (issued : Bool)
  /-- EXPIRY (R79). At the end of a scheduler tick, delay-list expiries are processed in EXPIRY order, up to 400 per tick, and the rest are carried. -/
  | expiry
  /-- WAIT_EVENT (R81). An awaited event reaches the scheduler and completes its wait, or is discarded as late. -/
  | waitEvent (event : Nat)
  /-- LOAD_INTERVAL_END (R83). At the end of each interval of 20,000 strobes, SCH_LOAD takes a new value. The busy fractions measured. -/
  | loadIntervalEnd (lane : Nat) (logic : Nat)
  /-- SCH_CLR_COUNTS (R75). Writing 1 to SCH_CLR.COUNTS clears the refusal, miss, run-limit and late-event counters. -/
  | schClrCounts
  /-- SCH_CLR_PEAKS (R74). Writing 1 to SCH_CLR.PEAKS clears every occupancy peak and SCH_DLAT_MAX. -/
  | schClrPeaks
  /-- FORCE_SET (R104). SIG_FORCE_CMD SET enters a force for the entry, or is refused with REFUSED or FULL. -/
  | forceSet
  /-- FORCE_RELEASE (R106). SIG_FORCE_CMD RELEASE removes the entry's force at the next boundary after output close. -/
  | forceRelease
  /-- FORCE_RELEASE_ALL (R104). SIG_FORCE_CMD RELEASE every force removes every force. -/
  | forceReleaseAll
  /-- SIG_CLR_STATS (R96). Writing 1 to SIG_CLR.STATS clears SIG_TURN_STAT.MAX and SIG_PARK_STAT. -/
  | sigClrStats
  /-- SEQ_EVALUATION (R126). Input close reaches the sequencer, which runs the six phases of the tick's evaluation. -/
  | seqEvaluation (cut : Nat) (cycles : Nat)
  /-- SEQ_NOP (R138). The NOP command does nothing. -/
  | seqNop (seq : Nat) (arg : Nat)
  /-- SEQ_LOAD (R138). The LOAD command reads the header and makes an IDLE sequence READY. -/
  | seqLoad (seq : Nat) (arg : Nat)
  /-- SEQ_START (R139). The START command starts a READY sequence at FIRST or at step ARG, or is refused NOT_ARMED. -/
  | seqStart (seq : Nat) (arg : Nat)
  /-- SEQ_HOLD (R138). The HOLD command makes a RUNNING sequence HELD in a step with HOLD_OK set. -/
  | seqHold (seq : Nat) (arg : Nat)
  /-- SEQ_CONTINUE (R138). The CONTINUE command returns a HELD sequence to RUNNING. -/
  | seqContinue (seq : Nat) (arg : Nat)
  /-- SEQ_SKIP (R138). The SKIP command ends the step to the target of group ARG or of the timer. -/
  | seqSkip (seq : Nat) (arg : Nat)
  /-- SEQ_ABORT (R138). The ABORT command enters abort path ARG. -/
  | seqAbort (seq : Nat) (arg : Nat)
  /-- SEQ_STOP (R138). The STOP command returns the sequence to IDLE at once, with no actions. -/
  | seqStop (seq : Nat) (arg : Nat)
  /-- SEQ_RESUME_COMMIT (R138). The RESUME_COMMIT command commits resumption of one RESTORED sequence, or of all of them with ARG 0xFFFF. -/
  | seqResumeCommit (seq : Nat) (arg : Nat)
  /-- SEQ_CLEAR (R138). The CLEAR command returns a DONE, ABORTED or FAULTED sequence to IDLE. -/
  | seqClear (seq : Nat) (arg : Nat)
  /-- PASS_COMMIT (R135). A member receives a PASS_COMMIT frame, arms its time-out and answers PASS_ACK or PASS_MISMATCH. -/
  | passCommit (kind : Nat) (spanSeq : Nat) (from_ : Nat) (target : Nat) (atSec : Nat) (atNs : Nat) (attempt : Nat) (arg : Nat)
  /-- PASS_ANSWER (R136). The master receives PASS_ACK, PASS_MISS or PASS_MISMATCH from a member. -/
  | passAnswer (spanSeq : Nat) (pos : Nat) (code : Nat) (attempt : Nat)
  /-- PASS_MISS (R135). A member's time-out fires before the commit arrives: it keeps its step and sends PASS_MISS. -/
  | passMiss (seq : Nat) (start : Nat)
  /-- PASS_ACK_DEADLINE (R136). At the master's ack deadline, each missed member is retried or the span is aborted to PASS_PATH. -/
  | passAckDeadline (seq : Nat)
  /-- SEQ_CLR_COUNTS (R127). Writing 1 to SEQ_CLR.COUNTS clears SEQ_LATE, SEQ_PASS_STAT and SEQ_RAMP_FULL. -/
  | seqClrCounts
  /-- SEQ_CLR_PEAKS (R128). Writing 1 to SEQ_CLR.PEAKS clears SEQ_EVAL.MAX and SEQ_RAMP_STAT.PEAK. -/
  | seqClrPeaks
  /-- LOOP_MODE (R156). LOOP_CMD MODE requests a mode for a slot. -/
  | loopMode (slot : Nat) (mode : Nat)
  /-- LOOP_LIMIT_LO (R159). LOOP_CMD LIMIT_LO requests a new lower output limit. -/
  | loopLimitLo (slot : Nat) (value : Nat)
  /-- LOOP_LIMIT_HI (R159). LOOP_CMD LIMIT_HI requests a new upper output limit. -/
  | loopLimitHi (slot : Nat) (value : Nat)
  /-- LOOP_CLEAR_FAULT (R164). LOOP_CMD CLEAR_FAULT re-enables a stopped loop and clears FAULT and CONSEC. -/
  | loopClearFault (slot : Nat)
  /-- LOOP_CLR_COUNTS (R163). Writing 1 to LOOP_CLR.COUNTS clears LOOP_OVR, LOOP_REQ and every slot's overrun count. -/
  | loopClrCounts
  /-- LOOP_CLR_PEAKS (R150). Writing 1 to LOOP_CLR.PEAKS clears LOOP_DUE.MAX. -/
  | loopClrPeaks
  /-- LANE_JOB_START (R182). A dispatch arrives at a lane, which initialises a register set and starts the job. `dlat` is the dispatch latency in scheduler-vale cycles. -/
  | laneJobStart (lane : Nat) (dlat : Nat)
  /-- LANE_NOP (R177). The lane executes NOP. -/
  | laneNop (lane : Nat)
  /-- LANE_END (R183). END ends the job once its reads have returned, and the lane reports itself free. -/
  | laneEnd (lane : Nat)
  /-- LANE_JMP (R177). The lane jumps to tgt. -/
  | laneJmp (lane : Nat) (tgt : Nat)
  /-- LANE_BR (R178). The lane branches when cc holds. -/
  | laneBr (lane : Nat) (cc : Nat) (tgt : Nat)
  /-- LANE_CALL (R177). The lane pushes PC + 1 and jumps to tgt. -/
  | laneCall (lane : Nat) (tgt : Nat)
  /-- LANE_RET (R177). The lane pops the PC. -/
  | laneRet (lane : Nat)
  /-- LANE_LOOP (R177). The lane runs a zero-overhead loop body count times. `x` is count where `i` is true, the register s otherwise. -/
  | laneLoop (lane : Nat) (i : Bool) (x : Nat) (last : Nat)
  /-- LANE_WAITS (R177). The lane stalls until the stream FIFO holds n samples. -/
  | laneWaits (lane : Nat) (n : Nat)
  /-- LANE_INH (R188). INH sets the lane's inhibit request line when INH_EN is 1. -/
  | laneInh (lane : Nat) (v : Bool)
  /-- LANE_EVT (R177). The lane posts an event to Meadow. -/
  | laneEvt (lane : Nat) (c : Bool) (code : Nat)
  /-- LANE_LDI (R177). The lane loads an immediate into Dd. -/
  | laneLdi (lane : Nat) (d : Nat) (imm : Nat)
  /-- LANE_LDP (R177). The lane loads a pointer. -/
  | laneLdp (lane : Nat) (p : Nat) (imm : Nat)
  /-- LANE_LDM (R177). The lane loads a post-modify amount. -/
  | laneLdm (lane : Nat) (p : Nat) (imm : Nat)
  /-- LANE_LDZ (R175). The lane loads a circular exponent. -/
  | laneLdz (lane : Nat) (p : Nat) (k : Nat)
  /-- LANE_MOVX (R177). The lane moves between a data register and a special register. -/
  | laneMovx (lane : Nat) (d : Nat) (sp : Nat) (dir : Bool)
  /-- LANE_SETM (R177). The lane sets SR.SAT, SR.RND and SR.MSH. -/
  | laneSetm (lane : Nat) (sat : Bool) (rnd : Bool) (msh : Nat)
  /-- LANE_LD (R175). The lane loads a word of local memory through a pointer. -/
  | laneLd (lane : Nat) (d : Nat) (p : Nat) (m : Nat)
  /-- LANE_ST (R175). The lane stores a word to local memory through a pointer. -/
  | laneSt (lane : Nat) (r : Nat) (p : Nat) (m : Nat)
  /-- LANE_LD2 (R177). The lane loads a data word and a coefficient word together. -/
  | laneLd2 (lane : Nat) (d : Nat) (x : Nat) (mx : Nat) (y : Nat) (my : Nat)
  /-- LANE_LIM (R177). The lane clamps Dd between Ds and Dt. -/
  | laneLim (lane : Nat) (d : Nat) (r : Nat) (t : Nat)
  /-- LANE_GET (R180). The lane reads a current-value word. `x` is sig, or the register t where `ind` is true. -/
  | laneGet (lane : Nat) (d : Nat) (ind : Bool) (x : Nat)
  /-- LANE_GETW (R180). The lane reads a whole current-value word into a register pair. -/
  | laneGetw (lane : Nat) (d : Nat) (ind : Bool) (x : Nat)
  /-- LANE_PUT (R180). The lane writes an output-plane word, sign-extended. -/
  | lanePut (lane : Nat) (r : Nat) (ind : Bool) (x : Nat)
  /-- LANE_PUTW (R180). The lane writes an output-plane word from a register pair. -/
  | lanePutw (lane : Nat) (r : Nat) (ind : Bool) (x : Nat)
  /-- LANE_FLD (R180). The lane reads the Plain word at FB + 4 × disp. -/
  | laneFld (lane : Nat) (d : Nat) (disp : Nat)
  /-- LANE_FST (R180). The lane writes the Plain word at FB + 4 × disp. -/
  | laneFst (lane : Nat) (r : Nat) (disp : Nat)
  /-- LANE_POP (R187). The lane takes the oldest stream sample. -/
  | lanePop (lane : Nat) (d : Nat)
  /-- LANE_MPY_REG (R171). The lane multiplies two data registers into an accumulator. -/
  | laneMpyReg (lane : Nat) (a : Bool) (r : Nat) (t : Nat)
  /-- LANE_MPY_MEM (R171). The lane multiplies a register by a memory word. -/
  | laneMpyMem (lane : Nat) (a : Bool) (r : Nat) (p : Nat) (m : Nat)
  /-- LANE_MPY_DUAL (R171). The lane multiplies a data word by a coefficient word. -/
  | laneMpyDual (lane : Nat) (a : Bool) (x : Nat) (mx : Nat) (y : Nat) (my : Nat)
  /-- LANE_MAC_REG (R171). The lane accumulates the product of two registers. -/
  | laneMacReg (lane : Nat) (a : Bool) (r : Nat) (t : Nat)
  /-- LANE_MAC_MEM (R171). The lane accumulates the product of a register and a memory word. -/
  | laneMacMem (lane : Nat) (a : Bool) (r : Nat) (p : Nat) (m : Nat)
  /-- LANE_MAC_DUAL (R171). The lane accumulates the product of a data word and a coefficient word. -/
  | laneMacDual (lane : Nat) (a : Bool) (x : Nat) (mx : Nat) (y : Nat) (my : Nat)
  /-- LANE_MSU_REG (R171). The lane subtracts the product of two registers. -/
  | laneMsuReg (lane : Nat) (a : Bool) (r : Nat) (t : Nat)
  /-- LANE_MSU_MEM (R171). The lane subtracts the product of a register and a memory word. -/
  | laneMsuMem (lane : Nat) (a : Bool) (r : Nat) (p : Nat) (m : Nat)
  /-- LANE_MSU_DUAL (R171). The lane subtracts the product of a data word and a coefficient word. -/
  | laneMsuDual (lane : Nat) (a : Bool) (x : Nat) (mx : Nat) (y : Nat) (my : Nat)
  /-- LANE_MPYU (R171). The lane multiplies unsigned Ds by signed Dt. -/
  | laneMpyu (lane : Nat) (a : Bool) (r : Nat) (t : Nat)
  /-- LANE_ADD (R173). The lane adds two registers with saturation. -/
  | laneAdd (lane : Nat) (d : Nat) (r : Nat) (t : Nat)
  /-- LANE_SUB (R173). The lane subtracts two registers with saturation. -/
  | laneSub (lane : Nat) (d : Nat) (r : Nat) (t : Nat)
  /-- LANE_MINMAX (R177). The lane takes the minimum or maximum of two registers. -/
  | laneMinmax (lane : Nat) (d : Nat) (r : Nat) (t : Nat) (f : Bool)
  /-- LANE_LOG (R177). The lane performs a bitwise logical operation. -/
  | laneLog (lane : Nat) (d : Nat) (r : Nat) (t : Nat) (f : Nat)
  /-- LANE_SHD (R177). The lane shifts a data register. -/
  | laneShd (lane : Nat) (d : Nat) (r : Nat) (k : Bool) (n : Nat)
  /-- LANE_CMP (R173). The lane sets N and Z from Ds − Dt. -/
  | laneCmp (lane : Nat) (r : Nat) (t : Nat)
  /-- LANE_ACC (R177). The lane performs an accumulator operation selected by f. -/
  | laneAcc (lane : Nat) (a : Bool) (f : Nat)
  /-- LANE_SHA (R172). The lane shifts an accumulator. `x` is the register t where `v` is true, the field n otherwise. -/
  | laneSha (lane : Nat) (a : Bool) (v : Bool) (x : Nat)
  /-- LANE_MVA (R172). The lane moves an accumulator to a data register with shift, rounding and saturation. -/
  | laneMva (lane : Nat) (a : Bool) (d : Nat) (r : Bool) (o : Bool) (sh : Nat)
  /-- LANE_MVD (R172). The lane moves a data register into an accumulator, shifted left. -/
  | laneMvd (lane : Nat) (a : Bool) (r : Nat) (o : Bool) (sh : Nat)
  /-- LANE_NORM (R174). The lane normalises an accumulator and returns its exponent. -/
  | laneNorm (lane : Nat) (a : Bool) (d : Nat) (e : Bool)
  /-- LANE_DATA_ERROR (R181). A fabric read returns an error response: the lane stops the job, and the stop counts as a run-limit stop. -/
  | laneDataError (lane : Nat)
  /-- STREAM_SAMPLE (R187). A converter sample arrives in the stream FIFO of a lane, or is dropped when the FIFO is full. -/
  | streamSample (lane : Nat) (sample : Nat)
  /-- LANE_MEM_ACCESS (R168). An access to LANE_MEM_DATA reads or writes the selected lane memory word, and the address increments. -/
  | laneMemAccess (isWrite : Bool) (data : Nat)
  /-- LANE_CLR_COUNTS (R181). Writing 1 to LANE_CLR.COUNTS clears every LANE_ERRn and LANE_STRMn.DROP. -/
  | laneClrCounts
  /-- LANE_CLR_PEAKS (R187). Writing 1 to LANE_CLR.PEAKS clears every LANE_STRMn.PEAK. -/
  | laneClrPeaks
  /-- CYCLE_START (R198). A logic core starts a task cycle, loading W28 to W31 and reading the input image. `whole` says that the image read ends before the next strobe; `dlat` is the dispatch latency in scheduler-vale cycles. -/
  | cycleStart (core : Nat) (whole : Bool) (dlat : Nat)
  /-- CYCLE_COMPLETE (R198). The cycle completes when its selector write is acknowledged, after the output flush and retain flush. -/
  | cycleComplete (core : Nat)
  /-- LOGIC_NOP (R205). The logic core executes NOP. -/
  | logicNop (core : Nat)
  /-- LOGIC_END (R205). END ends the program, and the flushes follow. -/
  | logicEnd (core : Nat)
  /-- LOGIC_JMP (R205). The logic core jumps to tgt. -/
  | logicJmp (core : Nat) (tgt : Nat)
  /-- LOGIC_BR (R206). The logic core branches when cc holds. -/
  | logicBr (core : Nat) (cc : Nat) (tgt : Nat)
  /-- LOGIC_CALL (R205). The logic core calls tgt. -/
  | logicCall (core : Nat) (tgt : Nat)
  /-- LOGIC_RET (R205). The logic core returns. -/
  | logicRet (core : Nat)
  /-- LOGIC_BRB (R205). The logic core branches on bit 0 of Ws. -/
  | logicBrb (core : Nat) (r : Nat) (v : Bool) (tgt : Nat)
  /-- LOGIC_LDW (R205). The logic core loads a word. -/
  | logicLdw (core : Nat) (d : Nat) (r : Nat) (off : Nat)
  /-- LOGIC_LDH (R205). The logic core loads a sign-extended half-word. -/
  | logicLdh (core : Nat) (d : Nat) (r : Nat) (off : Nat)
  /-- LOGIC_LDB (R205). The logic core loads a zero-extended byte. -/
  | logicLdb (core : Nat) (d : Nat) (r : Nat) (off : Nat)
  /-- LOGIC_STW (R195). The logic core stores a word, which is discarded on a page the task does not own. -/
  | logicStw (core : Nat) (d : Nat) (r : Nat) (off : Nat)
  /-- LOGIC_STH (R205). The logic core stores a half-word. -/
  | logicSth (core : Nat) (d : Nat) (r : Nat) (off : Nat)
  /-- LOGIC_STB (R205). The logic core stores a byte. -/
  | logicStb (core : Nat) (d : Nat) (r : Nat) (off : Nat)
  /-- LOGIC_LDX (R205). The logic core loads one bit. -/
  | logicLdx (core : Nat) (d : Nat) (r : Nat) (off : Nat) (b : Nat)
  /-- LOGIC_STX (R205). The logic core stores one bit. -/
  | logicStx (core : Nat) (d : Nat) (r : Nat) (off : Nat) (b : Nat)
  /-- LOGIC_LDI (R205). The logic core loads an immediate. -/
  | logicLdi (core : Nat) (d : Nat) (imm : Nat)
  /-- LOGIC_LDIH (R205). The logic core loads an immediate into the upper half of Wd. -/
  | logicLdih (core : Nat) (d : Nat) (imm : Nat)
  /-- LOGIC_MOV (R205). The logic core copies a register. -/
  | logicMov (core : Nat) (d : Nat) (r : Nat)
  /-- LOGIC_ADD (R205). The logic core adds modulo 2^32. -/
  | logicAdd (core : Nat) (d : Nat) (r : Nat) (t : Nat)
  /-- LOGIC_SUB (R205). The logic core subtracts modulo 2^32. -/
  | logicSub (core : Nat) (d : Nat) (r : Nat) (t : Nat)
  /-- LOGIC_MUL (R205). The logic core multiplies, keeping the low 32 bits. -/
  | logicMul (core : Nat) (d : Nat) (r : Nat) (t : Nat)
  /-- LOGIC_DIV (R207). The logic core divides signed toward zero, giving 0 on division by 0. -/
  | logicDiv (core : Nat) (d : Nat) (r : Nat) (t : Nat)
  /-- LOGIC_MOD (R207). The logic core forms the signed remainder. -/
  | logicMod (core : Nat) (d : Nat) (r : Nat) (t : Nat)
  /-- LOGIC_ADDI (R205). The logic core adds an immediate. -/
  | logicAddi (core : Nat) (d : Nat) (r : Nat) (imm : Nat)
  /-- LOGIC_ADDS (R205). The logic core adds with saturation. -/
  | logicAdds (core : Nat) (d : Nat) (r : Nat) (t : Nat)
  /-- LOGIC_SUBS (R205). The logic core subtracts with saturation. -/
  | logicSubs (core : Nat) (d : Nat) (r : Nat) (t : Nat)
  /-- LOGIC_LGC (R205). The logic core performs a bitwise logical operation. -/
  | logicLgc (core : Nat) (d : Nat) (r : Nat) (t : Nat) (f : Nat)
  /-- LOGIC_NOT (R205). The logic core inverts every bit of Ws. -/
  | logicNot (core : Nat) (d : Nat) (r : Nat)
  /-- LOGIC_SHF (R205). The logic core shifts by a register. -/
  | logicShf (core : Nat) (d : Nat) (r : Nat) (t : Nat) (f : Nat)
  /-- LOGIC_SHFI (R205). The logic core shifts by an immediate. -/
  | logicShfi (core : Nat) (d : Nat) (r : Nat) (n : Nat) (f : Nat)
  /-- LOGIC_MINMAX (R205). The logic core takes the signed minimum or maximum. -/
  | logicMinmax (core : Nat) (d : Nat) (r : Nat) (t : Nat) (f : Bool)
  /-- LOGIC_LIMIT (R205). The logic core clamps Wd between Ws and Wt. -/
  | logicLimit (core : Nat) (d : Nat) (r : Nat) (t : Nat)
  /-- LOGIC_ABSNEG (R205). The logic core takes the absolute value or the negation, saturated. -/
  | logicAbsneg (core : Nat) (d : Nat) (r : Nat) (f : Bool)
  /-- LOGIC_CMP (R206). The logic core sets the flags from two registers. -/
  | logicCmp (core : Nat) (r : Nat) (t : Nat)
  /-- LOGIC_CMPI (R206). The logic core sets the flags from a register and an immediate. -/
  | logicCmpi (core : Nat) (r : Nat) (imm : Nat)
  /-- LOGIC_SETC (R206). The logic core writes 1 to Wd when cc holds, else 0. -/
  | logicSetc (core : Nat) (d : Nat) (cc : Nat)
  /-- LOGIC_SEL (R205). The logic core selects Ws or Wt by bit 0 of Wd. -/
  | logicSel (core : Nat) (d : Nat) (r : Nat) (t : Nat)
  /-- LOGIC_BOP (R205). The logic core combines two Boolean bits. -/
  | logicBop (core : Nat) (d : Nat) (r : Nat) (t : Nat) (f : Nat) (ns : Bool) (nt : Bool)
  /-- LOGIC_QMUL (R205). The logic core multiplies two Q15 values. -/
  | logicQmul (core : Nat) (d : Nat) (r : Nat) (t : Nat)
  /-- LOGIC_FADD (R207). The logic core adds in binary32. -/
  | logicFadd (core : Nat) (d : Nat) (r : Nat) (t : Nat)
  /-- LOGIC_FSUB (R207). The logic core subtracts in binary32. -/
  | logicFsub (core : Nat) (d : Nat) (r : Nat) (t : Nat)
  /-- LOGIC_FMUL (R207). The logic core multiplies in binary32. -/
  | logicFmul (core : Nat) (d : Nat) (r : Nat) (t : Nat)
  /-- LOGIC_FDIV (R207). The logic core divides in binary32. -/
  | logicFdiv (core : Nat) (d : Nat) (r : Nat) (t : Nat)
  /-- LOGIC_FCMP (R206). The logic core sets the flags from a binary32 comparison. -/
  | logicFcmp (core : Nat) (r : Nat) (t : Nat)
  /-- LOGIC_FCVT (R207). The logic core converts between S32, Q15 and binary32. -/
  | logicFcvt (core : Nat) (d : Nat) (r : Nat) (f : Nat)
  /-- LOGIC_GETD (R200). The logic core reads a live current-value word. `x` is sig, or the register t where `ind` is true. -/
  | logicGetd (core : Nat) (d : Nat) (ind : Bool) (x : Nat)
  /-- LOGIC_PUTD (R200). The logic core writes a live output-plane word. -/
  | logicPutd (core : Nat) (d : Nat) (ind : Bool) (x : Nat)
  /-- LOGIC_GRP (R201). The logic core reads a consistency-group word pair. -/
  | logicGrp (core : Nat) (d : Nat) (g : Nat)
  /-- LOGIC_TMR (R208). The logic core evaluates a TON, TOF or TP timer instance. -/
  | logicTmr (core : Nat) (d : Nat) (r : Nat) (f : Nat) (i : Nat)
  /-- LOGIC_TPT (R205). The logic core sets PT of a timer. -/
  | logicTpt (core : Nat) (r : Nat) (i : Nat)
  /-- LOGIC_TRD (R205). The logic core reads ET of a timer. -/
  | logicTrd (core : Nat) (d : Nat) (i : Nat)
  /-- LOGIC_CNT (R209). The logic core evaluates a counter instance. -/
  | logicCnt (core : Nat) (d : Nat) (r : Nat) (f : Nat) (i : Nat)
  /-- LOGIC_CPV (R205). The logic core sets PV of a counter. -/
  | logicCpv (core : Nat) (r : Nat) (i : Nat)
  /-- LOGIC_CRD (R205). The logic core reads CV of a counter. -/
  | logicCrd (core : Nat) (d : Nat) (i : Nat)
  /-- LOGIC_EDGE (R210). The logic core evaluates an edge instance. -/
  | logicEdge (core : Nat) (d : Nat) (r : Nat) (f : Bool) (i : Nat)
  /-- LOGIC_EVT (R205). The logic core posts an event to Meadow. -/
  | logicEvt (core : Nat) (c : Bool) (code : Nat)
  /-- EXCH_REQUEST (R211). LOG_EXCH_CMD REQUEST starts the exchange-table check. -/
  | exchRequest
  /-- EXCH_CHECK_DONE (R211). The exchange check ends, passing or refusing with EXCH_MISMATCH. -/
  | exchCheckDone
  /-- EXCH_WINDOW_OPEN (R212). The engine opens the exchange at the first eligible boundary X and makes exchange releases. -/
  | exchWindowOpen
  /-- EXCH_TIMEOUT (R212). No window opens within LOG_EXCH_TMO, and the exchange is refused with EXCH_TIMEOUT. -/
  | exchTimeout
  /-- EXCH_CANCEL (R212). LOG_EXCH_CMD CANCEL refuses the exchange before X. -/
  | exchCancel
  /-- TASK_START (R197). LOG_TASK_CMD START restarts a stopped task at its next due boundary. -/
  | taskStart (task : Nat)
  /-- TASK_STOP (R197). LOG_TASK_CMD STOP stops a task as the watchdog does. -/
  | taskStop (task : Nat)
  /-- LOG_CLR_COUNTS (R197). Writing 1 to LOG_CLR.COUNTS clears LOG_STAT, LOG_DIV0 and every LOG_TASKn_OVR. -/
  | logClrCounts
  /-- LOG_CLR_PEAKS (R198). Writing 1 to LOG_CLR.PEAKS clears every LOG_TASKn_TIME.MAX. -/
  | logClrPeaks
  /-- JOURNAL_RECORD_DONE (R225). The record's MARK is written and acknowledged, making the record valid. `unstable` are the tasks whose capture and its repeat both failed. -/
  | journalRecordDone (unstable : List Nat)
  /-- HOLDUP_TEST_START (R230). The power manager starts a hold-up test and takes the V0 samples. The 16 codes of the hold-up monitor converter. -/
  | holdupTestStart (samples : List Nat)
  /-- HOLD_LOAD_ON (R231). 16 µs into the test, HOLD_LOAD is driven high. -/
  | holdLoadOn
  /-- HOLDUP_TEST_END (R232). The V1 samples end, HOLD_LOAD goes low, and C, E and the result are computed. The 16 codes at the end of the test. -/
  | holdupTestEnd (samples : List Nat)
  /-- IDLE_RETEST (R230). After 2 s idle, and every JRN_TEST_IVL seconds while idle, a test falls due. -/
  | idleRetest
  /-- JRN_TEST (R230). JRN_CMD TEST runs a hold-up test when the device is idle. -/
  | jrnTest
  /-- JRN_SELECT (R228). JRN_CMD SELECT picks an intact header copy in CONFLICT. -/
  | jrnSelect (copy : Nat)
  /-- JRN_DISCARD (R228). JRN_CMD DISCARD makes a fresh start in CONFLICT. -/
  | jrnDiscard
  /-- PFAIL_ACCEPT (R234). PFAIL_N low for 200 ns is accepted: POWER_FAIL is raised, outputs take their PF modes, and the record in progress is finished. -/
  | pfailAccept
  /-- PFAIL_RELEASE (R235). 10 ms after PFAIL_N returns high, the power-fail reset ends. The straps as sampled. -/
  | pfailRelease (bootSel : Nat) (cascPos : Nat) (pairRole : Bool)
  /-- RESTORE_END (R237). The restore completes, and HOLDING begins. -/
  | restoreEnd
  /-- AUTO_RESUME (R239). At the first boundary after JRN_AUTO.DELAY at which the conditions hold, resumption is committed automatically. -/
  | autoResume
  /-- JRN_CLR_COUNTS (R222). Writing 1 to JRN_CLR.COUNTS clears JRN_STAT.CARRIED and SKIP. -/
  | jrnClrCounts
  /-- JRN_CLR_PEAKS (R226). Writing 1 to JRN_CLR.PEAKS clears JRN_DUR.MAX. -/
  | jrnClrPeaks
  /-- ADC_RESULT (R247). A conversion's corrected Q15 result completes. -/
  | adcResult (group : Nat) (slice : Nat) (raw : Nat)
  /-- TRIGGER_TIMER (R249). A trigger timer reaches PERIOD, emits a trigger and restarts. -/
  | triggerTimer (group : Nat) (timer : Nat)
  /-- ADC_TRIGGER (R250). A trigger arrives at a slice and starts its delay count, or is dropped. -/
  | adcTrigger (group : Nat) (slice : Nat)
  /-- CONVERSION_DUE (R250). A triggered conversion becomes due and begins, waits, or aborts an ordinary conversion. `ended` says that the slice's running conversion ends at this edge or has ended. -/
  | conversionDue (group : Nat) (slice : Nat) (ended : Bool)
  /-- ADC_CALIBRATE (R248). Writing a group's bit in ADC_CAL requests calibration. -/
  | adcCalibrate (groups : Nat)
  /-- CALIBRATION_START (R248). Calibration begins at the first converter edge after the next strobe arrival. -/
  | calibrationStart (group : Nat)
  /-- CALIBRATION_END (R248). Calibration ends, writes passing coefficients, and conversions resume. `lo` and `hi` are the sums of the 256 raw codes of each slice at the two references. -/
  | calibrationEnd (group : Nat) (lo : List Nat) (hi : List Nat)
  /-- ADC_SUPPLY_FAULT (R252). VDDA_18 leaves its range, and the converter groups report FAULT. -/
  | adcSupplyFault
  /-- ADC_CLR_COUNTS (R250). Writing 1 to ADC_CLR.COUNTS clears every ADC_GnCNT and ADC_GnABT. -/
  | adcClrCounts
  /-- PROFILE_INTERVAL (R263). At each 10 µs interval an axis samples its limits and home input and updates its profile. interval `k` of the tick; `lines` are the line levels that have changed. -/
  | profileInterval (k : Nat) (lines : List (Nat × Bool))
  /-- MOVE_ABS (R267). MOT_CMD MOVE_ABS sets an absolute target, or is refused. -/
  | moveAbs (axis : Nat) (arg : Nat)
  /-- MOVE_REL (R267). MOT_CMD MOVE_REL sets a relative target, or is refused. -/
  | moveRel (axis : Nat) (arg : Nat)
  /-- STOP_RAMPED (R266). MOT_CMD STOP ramped starts a ramped stop. -/
  | stopRamped (axis : Nat)
  /-- STOP_HARD (R266). MOT_CMD STOP hard stops the axis at once. -/
  | stopHard (axis : Nat)
  /-- HOME (R272). MOT_CMD HOME starts a homing seek, or is refused. -/
  | motHome (axis : Nat)
  /-- MOT_CLEAR_FAULT (R282). MOT_CMD CLEAR_FAULT releases a faulted axis. -/
  | motClearFault (axis : Nat)
  /-- PWM_VALLEY (R270). At a valley, a current-drive axis regulates its phase currents and loads the new CMP. -/
  | pwmValley (channel : Nat)
  /-- PWM_CONVERTER_TRIGGER (R279). A PWM channel sends a converter trigger at its selected event. -/
  | pwmConverterTrigger (channel : Nat)
  /-- PWM_INHIBIT (R280). An inhibit request arrives and forces the masked channels to INH_LVL. -/
  | pwmInhibit (input : Nat)
  /-- STANDSTILL_REDUCE (R270). After SS_DLY at rest, the current steps toward I_HOLD. -/
  | standstillReduce (axis : Nat)
  /-- MOT_SIGNAL_WRITE (R274). 5 µs after strobe arrival, MOT writes its turned signals. -/
  | motSignalWrite
  /-- SDM_OUTPUT (R281). A sigma-delta sinc3 filter produces an output. -/
  | sdmOutput (input : Nat) (output : Int)
  /-- OVER_CURRENT (R282). The fast filter exceeds OC_TH: the fault is raised, and an axis input forces the gates low. `output` of the N = 16 filter. -/
  | overCurrent (input : Nat) (output : Int)
  /-- DATA_STUCK (R282). SDDn keeps one level for 1,024 clocks, and DATA_STUCK is raised. -/
  | dataStuck (input : Nat)
  /-- QUADRATURE_TRANSITION (R285). An accepted A/B transition counts, or an illegal one is counted. `ab` is the accepted pair of levels, A in bit 1. -/
  | quadratureTransition (channel : Nat) (ab : Nat)
  /-- Z_CAPTURE (R289). A rising Z edge captures the count per ZMODE. -/
  | zCapture (channel : Nat)
  /-- WIRE_FAULT (R287). A line disagrees for WIRE_T + 1 cycles, and WIRE_FAULT is raised. `lines` are the lines that have disagreed long enough: bit 0 A, 1 B, 2 Z; 0 when all agree again. -/
  | wireFault (channel : Nat) (lines : Nat)
  /-- SSI_FRAME (R293). An SSI frame completes and is decoded, or is discarded with an error. `ready` says that DAT was high before the first edge; `bits` are the LEN data bits and `parity` the bit after them. -/
  | ssiFrame (channel : Nat) (ready : Bool) (bits : Nat) (parity : Bool)
  /-- COMPARE_PULSE_END (R296). A compare pulse ends after PW cycles. -/
  | comparePulseEnd (unit : Nat)
  /-- COMPARE_ENTRY_WRITE (R297). A write to a compare list entry takes effect, and a current entry found behind sets COMPARE_BEHIND. -/
  | compareEntryWrite (unit : Nat) (entry : Nat) (value : Nat)
  /-- ARM_Z (R289). POS_CMD ARM_Z arms a one-time Z capture. -/
  | armZ (channel : Nat)
  /-- POS_CLEAR (R288). POS_CMD CLEAR clears a channel's faults and LOST. -/
  | posClear (channel : Nat)
  /-- CMP_ARM (R295). POS_CMD CMP_ARM arms a compare unit. -/
  | cmpArm (unit : Nat)
  /-- CMP_DISARM (R295). POS_CMD CMP_DISARM disarms a compare unit. -/
  | cmpDisarm (unit : Nat)
  /-- LOAD_COUNT (R290). POS_CMD LOAD_COUNT sets an encoder count. -/
  | loadCount (channel : Nat) (arg : Nat)
  /-- CLEAR_SSI (R293). POS_CMD CLEAR_SSI clears an SSI error count. -/
  | clearSsi (channel : Nat)
  /-- ISLAND_POR (R303). The VDD_SAFE monitor resets the island into START. -/
  | islandPor
  /-- SELF_TEST_DONE (R303). The island self-test passes, and the island loads its configuration and goes to RUN or NO_CONFIG. -/
  | selfTestDone
  /-- SCAN (R304). The island runs a 250 µs scan: it samples, takes messages, evaluates functions, commands outputs and writes the window. `inputs` are the levels of SIN0 to SIN23, `emo` those of EMO_A (bit 0) and EMO_B, `readback` those of SRB0 to SRB15; `clockOk` is the verdict of the clock cross-check. -/
  | islandScan (inputs : Nat) (emo : Nat) (readback : Nat) (clockOk : Bool)
  /-- INPUT_TEST_PULSE (R306). A test-pulse source starts an off-pulse, or postpones it. `offset` is in safety-vale cycles from the start of the present scan. -/
  | inputTestPulse (source : Nat) (offset : Nat)
  /-- INPUT_TEST_SAMPLE (R306). 25 µs before the pulse ends, the inputs are checked, and INPUT_FAULT is raised on a failure. `inputs` and `emo` are the levels sampled. -/
  | inputTestSample (source : Nat) (inputs : Nat) (emo : Nat)
  /-- OUTPUT_TEST_PULSE (R310). An energised output starts an off-pulse. `offset` is in safety-vale cycles from the start of the present scan. -/
  | outputTestPulse (output : Nat) (offset : Nat)
  /-- OUTPUT_PULSE_CHECK (R310). 25 µs before the pulse ends, readback must show de-energised, or OUTPUT_FAULT stuck on is raised. `energised` is what SRBn reads. -/
  | outputPulseCheck (output : Nat) (energised : Bool)
  /-- OUTPUT_FAULT (R311). A readback disagreement beyond RB_T raises OUTPUT_FAULT and de-energises the fault group. `energised` is what SRBn reads, `offset` cycles after the start of the present scan. -/
  | outputFault (output : Nat) (energised : Bool) (offset : Nat)
  /-- KEEPALIVE_EXPIRY (R301). A driver without refresh for 100 µs de-energises its output and latches the fact. -/
  | keepaliveExpiry (output : Nat)
  /-- LOCKSTEP_FAULT (R300). An evaluator mismatch puts the island in SAFE_STATE. -/
  | lockstepFault
  /-- MEMORY_FAULT (R300). An uncorrectable or march error puts the island in SAFE_STATE. -/
  | memoryFault
  /-- CONFIG_CRC_CHECK (R300). The once-per-second CRC of the running configuration is checked. `crc` is the CRC recomputed over the configuration in the island SRAM. -/
  | configCrcCheck (crc : Nat)
  /-- SAFE_SUPPLY_FAULT (R300). VDD_SAFE leaves its window, or Tj exceeds 125 °C, and the island enters SAFE_STATE. `temp` says that it is the temperature. -/
  | safeSupplyFault (temp : Bool)
  /-- EMO_DISCREPANCY (R315). The EMO channels differ for more than 500 ms. -/
  | emoDiscrepancy
  /-- DISCREPANCY (R317). OP0 and OP1 of a DUAL function differ for more than DISC. -/
  | discrepancy (function : Nat)
  /-- FUNCTION_DELAY_EXPIRY (R317). A function's DELAY elapses, and its OUT_MASK outputs de-energise. -/
  | functionDelayExpiry (function : Nat)
  /-- SAFE_FRAME_SEND (R320). Every 2 ms the island writes cyclic safe frames to its transmit slots. -/
  | safeFrameSend
  /-- MAILBOX_MESSAGE (R324). A 64-byte message reaches the mailbox gate, or is refused when the gate is full. `sender` is 0 for the net and link engines, 1 for the SHP engine, 2 for the boot loader. -/
  | mailboxMessage (sender : Nat) (msg : MboxMsg)
  /-- PATH_SILENT (R321). A path that has accepted no frame for 4 ms sets every bit of the connection to 0. -/
  | pathSilent (connection : Nat) (path : Nat)
  /-- FRAME_MISMATCH (R321). A disagreement between the paths that stands for 4 ms sets the bit to 0. -/
  | frameMismatch (connection : Nat)
  /-- CONFIG_DROPPED (R325). A pending block is dropped 60 s after its offer. -/
  | configDropped
  /-- ISLAND_PFAIL (R313). The island accepts PFAIL_N low, and PF_OFF outputs de-energise at the next scan. -/
  | islandPfail
  /-- ISLAND_PFAIL_RETURN (R313). The island accepts PFAIL_N high again. -/
  | islandPfailReturn
  /-- ELECTION (R330). After commit, a pair unit elects its role within ELECT × 100 ms. -/
  | pairElection
  /-- TICK_REC (R332). The standby receives the active unit's tick record. -/
  | tickRec (record : TickRec)
  /-- JOURNAL_FRAME (R333). The standby receives journal record lines and applies a record once its valid MARK arrives. `mirror` is the line of the sequencer tables that a mirror line belongs to; otherwise `line` is the next line of the record, whose staging section says `stage`. -/
  | journalFrame (mirror : Option Nat) (line : List Byte) (stage : StageSnap)
  /-- COMPARE (R334). A unit receives its partner's COMPARE frame. `fails` are the directory entries whose output failed the check. -/
  | pairCompare (fails : List Nat) (fatal : Bool)
  /-- PAIR_DECISION (R335). With both COMPARE frames in hand, both units apply the A_BAD, S_BAD, COMMON decision. `standbyReady` says whether the standby is READY. -/
  | pairDecision (standbyReady : Bool)
  /-- TAKEOVER (R337). At boundary T the new active unit starts from the last tick record and drives its outputs per R338. -/
  | pairTakeover
  /-- SWITCH (R336). PAIR_CMD SWITCH requests a switch-over, or is refused NOT_READY. -/
  | pairSwitch (standbyReady : Bool)
  /-- RESYNC (R340). PAIR_CMD RESYNC starts resynchronisation of a NOT_READY unit. -/
  | pairResync
  /-- RELEASE (R338). PAIR_CMD RELEASE ends the holding of SAFE or RESET outputs. -/
  | pairRelease
  /-- PAIR_CLR_COUNTS (R335). Writing 1 to PAIR_CLR.COUNTS clears PAIR_CNT. -/
  | pairClrCounts
  /-- LINK_SIGNAL_DETECT (R343). Signal is detected on a link's receive lanes, and the link enters LOCKING. -/
  | linkSignalDetect (port : Nat)
  /-- BLOCK_LOCK (R343). Block lock held for 64 blocks takes the link to HELLO. -/
  | blockLock (port : Nat)
  /-- HELLO_SEND (R343). A HELLO is sent every 100 µs, or every 100 ms in NO_COMMON_VERSION. -/
  | helloSend (port : Nat)
  /-- HELLO (R343). A received HELLO fixes the version and takes the link to UP, NO_COMMON_VERSION or POSITION_CONFLICT. `role` is 0 member, 1 active, 2 standby; on a pair link `strap` is the partner's PAIR_ROLE, `image` its IMAGE_ID and `since` the boundary from which it is active. -/
  | linkHello (port : Nat) (vmin : Nat) (vmax : Nat) (pos : Nat) (node : Nat) (uid : Nat) (role : Nat) (strap : Bool) (image : List Byte) (since : Nat)
  /-- BLOCK_LOCK_LOSS (R343). Block lock lost for 1 µs returns the link to DOWN and discards the frames in flight. -/
  | blockLockLoss (port : Nat)
  /-- CREDIT (R348). A CREDIT frame returns receive credit. -/
  | creditFrame (port : Nat) (cls : Nat) (terrace : Nat) (lines : Nat)
  /-- LINK_TRANSMIT (R347). A transmitter sends the next frame that has credit, class 1 first. -/
  | linkTransmit (port : Nat)
  /-- CAS_FRAME_TRANSIT (R342). A frame for another position is forwarded with its terrace raised, or discarded at terrace 64. -/
  | casFrameTransit (port : Nat) (frame : CasFrame)
  /-- CAS_FRAME_BAD (R346). A frame with a reserved TYPE or bad CRC is discarded and counted. -/
  | casFrameBad (port : Nat)
  /-- BEACON (R350). A member receives the master's BEACON. -/
  | beacon (uid : Nat)
  /-- MASTER_LOST (R350). MASTER_TMO missed beacons post MASTER_LOST. -/
  | masterLost
  /-- MASTER_LOST_ABORT (R350). ABORT_TMO further frames send span shares to their PASS_PATH. -/
  | masterLostAbort
  /-- SAFE (R346). A SAFE frame is handed to the mailbox gate. -/
  | safeFrame (path : Nat) (bytes : List Byte)
  /-- SIGNAL (R351). A SIGNAL frame writes imported values to LINK entries. `values` are LINK entries and their words, from position `pos`. -/
  | signalFrame (pos : Nat) (values : List (Nat × Word))
  /-- SYNC_REC (R346). A SYNC_REC frame arrives on the pair link. -/
  | syncRec (lines : List (List Byte)) (stage : StageSnap)
  /-- RECORD (R422). A RECORD frame carries a remote record request, answer or routed record. `src` is the position it comes from. -/
  | recordFrame (src : Nat) (msg : RecMsg)
  /-- SHP_FWD (R328). An SHP_FWD frame carries a forwarded host request. -/
  | shpFwd (request : List Byte)
  /-- RESYNC_FRAME (R340). A RESYNC frame delivers the active unit's tables to a resynchronising unit. `region` is 0 header table, 1 step table, 2 action pool, 3 loop table, 4 staging area, 5 retained logic region; `last` marks the last frame. -/
  | resyncFrame (region : Nat) (off : Nat) (bytes : List Byte) (forces : List (Nat × Word)) (last : Bool)
  /-- CAS_CLR_COUNTS (R346). Writing 1 to CAS_CLR.COUNTS clears CAS_DROP, CAS_LATE, LOST and every RETRAIN. -/
  | casClrCounts
  /-- TIM_NOW_READ (R355). A read of TIM_NOW_NS latches the seconds and short time. -/
  | timNowRead
  /-- TIME (R361). A TIME frame provides time-stamps for delay and offset. `sent` is the peer's transmit instant, `peerRx` and `ourTx` the receive and transmit instants of this device's last TIME frame, in ns; `valid` is the peer's VALID. -/
  | timeFrame (port : Nat) (sent : Nat) (peerRx : Nat) (ourTx : Nat) (valid : Bool)
  /-- PTP_MESSAGE (R365). A PTP message is received and time-stamped. -/
  | ptpMessage (port : Nat) (msg : PtpMsg)
  /-- PTP_SEND (R364). A PTP event message is sent, one-step. `next` is the short time of the next event message sent or Sync expected. -/
  | ptpSend (port : Nat) (next : Nat)
  /-- SERVO_UPDATE (R368). The servo job settles the offset by slew or requests a step. -/
  | servoUpdate
  /-- HOLDOVER (R359). No update for 4 expected intervals enters HOLDOVER. -/
  | holdover
  /-- STEP_APPLY (R369). A pending step is applied in the cycle after the strobe rise, incrementing the epoch and posting TIME_STEP. -/
  | stepApply
  /-- SET (R368). TIM_CMD SET requests a step to the TIM_SET values. -/
  | timeSet
  /-- FRAME_INGRESS (R373). A frame enters a switch port and is forwarded or discarded NOBUF. -/
  | frameIngress (port : Nat) (frame : EthFrame)
  /-- FRAME_EGRESS (R374). A queued frame is transmitted under the gate list. -/
  | frameEgress (port : Nat)
  /-- FRAME_AGED (R375). A frame that has waited a gate-list cycle is discarded. -/
  | frameAged (port : Nat) (queue : Nat)
  /-- GATE_LIST_ENTRY (R374). The gate list moves to its next entry. -/
  | gateListEntry (port : Nat)
  /-- SWAP (R374). NET_GCL_SEL.SWAP makes the written gate list take effect at the next cycle. -/
  | gclSwap (port : Nat)
  /-- GCL_ENTRY_ACCESS (R374). An access to NET_GCL_ENTRY reads or writes the entry, and ENTRY increments. `write` is the word written, or none for a read. -/
  | gclEntryAccess (write : Option Word)
  /-- ADDRESS_AGE (R373). An address-table entry ages out. -/
  | addressAge (mac : Nat) (vid : Nat)
  /-- DOMAIN_FRAME (R378). A domain frame is received and served as a class-3 job. `node` and `pos` are the destination, `ty` the TYPE of the cascade frame carried. -/
  | domainFrame (node : Nat) (pos : Nat) (ty : Nat)
  /-- NET_CLR_COUNTS (R375). Writing 1 to NET_CLR.COUNTS clears every NET_PORTn_CNT. -/
  | netClrCounts
  /-- RING_CYCLE_START (R382). 2 µs after the frame-boundary strobe, the ring engine starts its CYCLE frames. -/
  | ringCycleStart (ring : Nat)
  /-- CYCLE (R385). A CYCLE frame returns complete, and its segments are judged. -/
  | rioCycle (ring : Nat) (frame : Nat) (fcsOk : Bool) (segs : List RioSeg)
  /-- ENUM (R383). ENUM frames enumerate the modules. `upper` says that the frame covers positions 64 to 127. -/
  | rioEnum (ring : Nat) (upper : Bool) (ids : List RioId)
  /-- PROBE (R383). A PROBE measures a module's forward delay. `trip` is the round trip in 100 ns units. -/
  | rioProbe (ring : Nat) (module : Nat) (trip : Nat)
  /-- CONFIG (R383). A CONFIG frame configures a module. -/
  | rioConfig (ring : Nat) (module : Nat)
  /-- DIAG (R384). A DIAG frame carries diagnostic data. -/
  | rioDiag (ring : Nat) (module : Nat) (bytes : List Byte)
  /-- RING_SYNC_LOSS (R383). Loss of SGMII synchronisation returns the ring to DOWN. -/
  | ringSyncLoss (ring : Nat)
  /-- RIO_CLR_COUNTS (R382). Writing 1 to RIO_CLR.COUNTS clears every RIO_RINGn_CNT. -/
  | rioClrCounts
  /-- CAN_FRAME_RECEIVE (R396). A received CAN frame goes to an object, a FIFO or is discarded. `id` is word 0 of R395 as received, `sof` the short time of the start-of-frame bit, `lost` an object whose attempt lost the arbitration to this frame. -/
  | canFrameReceive (ctrl : Nat) (id : Nat) (dlc : Nat) (esi : Bool) (rtr : Bool) (data : List Byte) (sof : Nat) (lost : Option Nat)
  /-- CAN_FRAME_SENT (R400). A pending transmit frame completes on the bus. `age` is how many strobes have passed since the frame's transmission reached the arbitration field. -/
  | canFrameSent (ctrl : Nat) (obj : Nat) (age : Nat)
  /-- CAN_ERROR (R403). A bus error updates the counters and may enter error passive or bus-off. `obj` is the object whose attempt ended, or none; `tecUp` and `recUp` are the standard's increments. -/
  | canError (ctrl : Nat) (obj : Option Nat) (kind : CanErr) (tecUp : Nat) (recUp : Nat)
  /-- BUS_OFF_RECOVERY (R403). After 128 × 11 recessive bits the controller leaves bus-off. -/
  | busOffRecovery (ctrl : Nat)
  /-- SEND (R400). CANc_TXCMD SEND makes a frame pending. `started` says that an earlier frame of the object has reached the arbitration field. -/
  | canSend (ctrl : Nat) (obj : Nat) (started : Bool)
  /-- CANCEL (R401). CANc_TXCMD CANCEL cancels a pending frame, or is refused TOO_LATE. `tooLate` says that the frame has reached the arbitration field. -/
  | canCancel (ctrl : Nat) (obj : Nat) (tooLate : Bool)
  /-- CAN_FIFO_READ_ADVANCE (R398). A write of RD consumes FIFO entries. -/
  | canFifoReadAdvance (ctrl : Nat) (fifo : Nat) (rd : Nat)
  /-- CAN_CLR_COUNTS (R398). Writing 1 to CAN_CLR.COUNTS clears every CANc_CNT. -/
  | canClrCounts
  /-- RECORD_WRITE (R417). Meadow writes a queued record line and then its MARK. -/
  | recordWrite
  /-- MDW_CLEAR_FAULT (R418). MDW_CMD CLEAR_FAULT empties the FAULT class. -/
  | mdwClearFault
  /-- CLEAR_PROCESS (R418). MDW_CMD CLEAR_PROCESS empties the PROCESS class. -/
  | clearProcess
  /-- CLOSE_FREE (R410). MDW_CMD CLOSE_FREE closes free summaries at the next boundary. -/
  | closeFree
  /-- MDW_RD_SERIAL_WRITE (R421). A write of MDW_RD_SERIAL starts loading the record window. -/
  | mdwRdSerialWrite (serial : Nat)
  /-- ADV (R421). MDW_RD_ADV advances the serial and reloads the window. -/
  | mdwAdv
  /-- MDW_RD_LOAD_DONE (R421). The window copy completes and MDW_RD_STAT leaves LOADING. -/
  | mdwRdLoadDone
  /-- TRACE_FRAME_SEND (R426). A trace frame of consecutive rows or summaries is sent. -/
  | traceFrameSend (sub : Nat)
  /-- MDW_CLR_COUNTS (R425). Writing 1 to MDW_CLR.COUNTS clears MDW_LOST, MDW_FOLD and MDW_TRC_LOST. -/
  | mdwClrCounts
  /-- MDW_CLR_PEAKS (R417). Writing 1 to MDW_CLR.PEAKS clears MDW_QUEUE.PEAK. -/
  | mdwClrPeaks
  /-- DIRECTORY_READ (R431). The boot directory read completes, and mode entry begins, or the loader stops NO_DIRECTORY. The 64 bytes at 0x0000_0000 and at 0x0000_1000. -/
  | directoryRead (first : List Byte) (second : List Byte)
  /-- COPY_VERIFY (R436). A copy's verify pass completes and judges it intact or not. -/
  | copyVerify (copy : Nat) (data : CopyBytes)
  /-- LOAD_PASS (R439). The load pass completes, having checked and written every section. What the load pass reads, for the host's image its bytes in the Plain; `extra` stands for the base and each change in order. -/
  | loadPass (data : CopyBytes) (extra : List ImgExtra)
  /-- SELECT (R438). BOOT_CMD SELECT takes an intact copy in STOPPED. -/
  | bootSelect (copy : Nat)
  /-- LOAD_HOST (R438). BOOT_CMD LOAD_HOST takes a host-written image. -/
  | bootLoadHost
  /-- RETRY (R438). BOOT_CMD RETRY reruns the load sequence. -/
  | bootRetry
  /-- APPLY (R444). BOOT_CMD APPLY starts applying a staged change. -/
  | bootApply (extra : ImgExtra)
  /-- CHANGE_PERSIST (R444). The change is written to the copies and tested for persistence. Every present copy as it stands after the write and read-back. -/
  | changePersist (copies : List (Nat × CopyBytes))
  /-- SHP_HELLO (R447). HELLO negotiates the version and returns a challenge. `rand` are the 32 bytes drawn for the challenge. -/
  | shpHello (req : ShpReq) (rand : List Byte)
  /-- OPEN (R447). OPEN creates a session, privileged when signed. -/
  | shpOpen (req : ShpReq)
  /-- CLOSE (R447). CLOSE ends a session. -/
  | shpClose (req : ShpReq)
  /-- KEEPALIVE (R447). KEEPALIVE keeps a session open. -/
  | shpKeepalive (req : ShpReq)
  /-- SESSION_IDLE (R447). A session closes after HST_CFG.IDLE seconds without a message. -/
  | sessionIdle (session : Nat)
  /-- REG_READ (R451). REG_READ returns register values. -/
  | regRead (req : ShpReq)
  /-- REG_WRITE (R451). REG_WRITE applies register writes after checking every pair. -/
  | regWrite (req : ShpReq)
  /-- PLAIN_READ (R451). PLAIN_READ returns Plain bytes. -/
  | plainRead (req : ShpReq)
  /-- SIG_READ (R452). SIG_READ returns one tick's values, or MIXED. `mixed`: the fourth attempt met a strobe, and the tick of its first read; `remote`: status and word of each handle answered by another device, in request order. -/
  | sigRead (req : ShpReq) (mixed : Option Nat) (remote : List (Nat × Nat))
  /-- SIG_WRITE (R451). SIG_WRITE writes HOST entries. -/
  | sigWrite (req : ShpReq)
  /-- FORCE (R451). FORCE sets or releases forces. -/
  | shpForce (req : ShpReq)
  /-- SHP_SEQ (R451). An SHP SEQ request carries a sequencer command. -/
  | shpSeq (req : ShpReq)
  /-- SHP_LOOP (R451). An SHP LOOP request carries a loop command. -/
  | shpLoop (req : ShpReq)
  /-- AXIS (R451). An SHP AXIS request carries an axis command. -/
  | shpAxis (req : ShpReq)
  /-- REC_READ (R451). REC_READ returns records with their statuses. -/
  | recRead (req : ShpReq)
  /-- TRACE (R451). TRACE writes a subscription list or entry. -/
  | shpTrace (req : ShpReq)
  /-- SAFETY (R451). SAFETY sends a mailbox message and returns its acknowledgement. `msg` is what the payload says. -/
  | shpSafety (req : ShpReq) (msg : MboxMsg)
  /-- IMAGE_PUT (R449). IMAGE_PUT writes bytes into the staging region. -/
  | imagePut (req : ShpReq)
  /-- IMAGE_APPLY (R449). IMAGE_APPLY accepts a staged change for application. -/
  | imageApply (req : ShpReq) (extra : ImgExtra)
  /-- COPY_WRITE (R451). COPY_WRITE writes staged bytes into a copy area. -/
  | copyWrite (req : ShpReq)
  /-- TEST_RECORD (R451). TEST_RECORD returns the X2 unit test record. -/
  | testRecord (req : ShpReq)
  /-- SHP_TIMEOUT (R448). A host-transaction unit fires, and the request is answered TIMEOUT. -/
  | shpTimeout (session : Nat)
  /-- MAILBOX_TIMEOUT (R324). A safety mailbox sender's time-out unit fires. `unit` is the hardware time-out unit, 72 to 79. -/
  | mailboxTimeout (unit : Nat)
  /-- BAR0_ACCESS (R453). A BAR0 access reaches a register. -/
  | bar0Access (off : Nat) (size : Nat) (write : Option Word)
  /-- BAR2_ACCESS (R453). A BAR2 access reaches the Plain or the retained store. -/
  | bar2Access (off : Nat) (write : Option (List Byte)) (len : Nat)
  /-- PROVISION (R457). SEC_CMD PROVISION moves OPEN to PROVISIONED. -/
  | secProvision (priv : Bool)
  /-- LOCK (R457). SEC_CMD LOCK moves PROVISIONED to LOCKED. -/
  | secLock (priv : Bool)
  /-- RETIRE (R457). SEC_CMD RETIRE moves to RETIRED. -/
  | secRetire (priv : Bool)
  /-- RAISE_SVN (R459). SEC_CMD RAISE_SVN raises the SVN floor. -/
  | secRaiseSvn (priv : Bool)
  /-- KEY_WRITE (R458). SEC_CMD KEY_WRITE fills an empty key slot. -/
  | secKeyWrite (priv : Bool)
  /-- KEY_DATA_WRITE (R458). A write of SEC_KEY_DATA stores a key word and advances WORD. -/
  | keyDataWrite (data : Word)
  /-- CHALLENGE (R462). DBG_CMD CHALLENGE requests a debug challenge. -/
  | dbgChallenge
  /-- CHALLENGE_READY (R462). The challenge is loaded into DBG_CHAL0 to DBG_CHAL11. The 32 random bytes N. -/
  | challengeReady (rand : List Byte)
  /-- VERIFY (R462). DBG_CMD VERIFY starts signature verification. -/
  | dbgVerify
  /-- VERIFY_RESULT (R463). Verification ends: AUTH on success, or a failure counted toward LOCKOUT. -/
  | verifyResult
  /-- CHALLENGE_EXPIRY (R462). A challenge expires 60 s after issue. -/
  | challengeExpiry
  /-- REQUEST_FULL (R461). DBG_CMD REQUEST_FULL grants FULL in OPEN. -/
  | dbgRequestFull
  /-- HALT (R471). DBG_CMD HALT requests a halt at the next strobe, or is refused. -/
  | dbgHalt
  /-- RESUME (R472). DBG_CMD RESUME ends the halt at the next boundary. -/
  | dbgResume
  /-- DROP (R463). DBG_CMD DROP returns the level to OFF. -/
  | dbgDrop
  /-- WAKE_TIMER (R467). The timed wake begins at E − 1.2 × L. -/
  | wakeTimer
  /-- WAKE_LINE (R467). An edge on a PWR_WAKE line begins a wake. -/
  | wakeLine (line : Nat)
  /-- WAKE_COMPLETE (R467). A wake completes to RUN, and R466 runs again. -/
  | wakeComplete
  /-- HIB_WAKE (R469). The wake from HIBERNATE loads and commits the snapshot. For the base and each change of the snapshot. -/
  | hibWake (extra : List ImgExtra)
  /-- HOLD (R466). PWR_CMD HOLD keeps the device in RUN. -/
  | pwrHold (hold : Bool)
  /-- SNAP (R475). PMC_CTL.SNAP copies all counters into the snapshot. -/
  | pmcSnap
  /-- CLEAR (R477). PMC_CTL.CLEAR zeroes the counters, the histograms and PMC_PS_STAT. -/
  | pmcClear
  /-- DEBUG_RESET (R33). A system reset through the debug port, where the debug level permits it, resets the die as a PIN reset does. -/
  | debugReset
  /-- DEBUG_PORT_ACCESS (R461). The vendor debug port makes a register, Plain or retained-store access through fabric port 23, or a FULL-level local-memory access, and wakes the device from DOZE or NAP. -/
  | debugPortAccess (access : DebugAccess)
  /-- SPLL_LOCK (R14). SREFCLK returns or SPLL_E, SPLL_L or SPLL_P regains lock, and the vales and ports it feeds come back up. `good` has the bits of CLK_PLL_STAT. -/
  | spllLock (good : Nat)
  /-- ISLAND_POR_RELEASE (R491). 1 ms after VDD_SAFE exceeds 0.74 V the island's POR is released and the island starts in START. -/
  | islandPorRelease
  /-- ADC_SUPPLY_GOOD (R252). VDDA_18 returns within 1.71 V to 1.89 V, ADC_STAT.SUPPLY clears and the converter groups leave FAULT. -/
  | adcSupplyGood
  /-- SGMII_SYNCHRONISATION (R383). An IOP ring port gains SGMII synchronisation, and the ring leaves DOWN to begin bring-up at ENUM. -/
  | sgmiiSynchronisation (ring : Nat)
  /-- PCIE_L1_EXIT (R467). The PCIe link exits L1 while the device is in NAP, beginning a wake with CAUSE PCIE. -/
  | pcieL1Exit
  /-- UNKNOWN_TYPE (R450). An SHP message of a TYPE that R449 does not list is answered UNKNOWN_TYPE. -/
  | unknownType (ty : Nat) (req : ShpReq)
deriving DecidableEq, Repr

end Sys2Proof
end

