-- ==== Sys2Proof/WellFormed.lean ====
section
/-!
DEFINITION. WellFormed.lean: which commands name things the block has: engine numbers in range, and instruction fields
within the widths that the encodings of R177 and R205 give them.
-/

namespace Sys2Proof

open Machine

/-- Every value of a list fits its width. -/
def fits (fs : List (Nat × Nat)) : Bool := fs.all fun f => f.1 < 2 ^ f.2

/-- The fields of a lane or logic instruction fit their encoding; every other command is well formed. -/
def Instr.wf : Instr → Bool
  | .por => true
  | .pinReset => true
  | .softReset => true
  | .clockReset => true
  | .xinStop => true
  | .xinReturn => true
  | .serdesPllLoss _ => true
  | .resetRelease _ _ _ => true
  | .pllLock => true
  | .colStall _ _ => true
  | .colStallClear => true
  | .tickStrobe => true
  | .strobeArrival _ _ => true
  | .inputClose _ _ => true
  | .outputClose => true
  | .outputPrefetch _ => true
  | .tickClr => true
  | .registerWrite _ _ _ => true
  | .plainTransaction _ _ _ _ _ _ => true
  | .grant _ => true
  | .retainedStoreAccess => true
  | .plnClrWait => true
  | .plnClrEcc => true
  | .plnClrWin => true
  | .jobRelease _ => true
  | .runLimit _ _ => true
  | .jobComplete _ => true
  | .deadlinePass _ _ => true
  | .expiry => true
  | .waitEvent _ => true
  | .loadIntervalEnd _ _ => true
  | .schClrCounts => true
  | .schClrPeaks => true
  | .forceSet => true
  | .forceRelease => true
  | .forceReleaseAll => true
  | .sigClrStats => true
  | .seqEvaluation _ _ => true
  | .seqNop _ _ => true
  | .seqLoad _ _ => true
  | .seqStart _ _ => true
  | .seqHold _ _ => true
  | .seqContinue _ _ => true
  | .seqSkip _ _ => true
  | .seqAbort _ _ => true
  | .seqStop _ _ => true
  | .seqResumeCommit _ _ => true
  | .seqClear _ _ => true
  | .passCommit _ _ _ _ _ _ _ _ => true
  | .passAnswer _ _ _ _ => true
  | .passMiss _ _ => true
  | .passAckDeadline _ => true
  | .seqClrCounts => true
  | .seqClrPeaks => true
  | .loopMode _ _ => true
  | .loopLimitLo _ _ => true
  | .loopLimitHi _ _ => true
  | .loopClearFault _ => true
  | .loopClrCounts => true
  | .loopClrPeaks => true
  | .laneJobStart _ _ => true
  | .laneNop u => fits [(u, 3)]
  | .laneEnd u => fits [(u, 3)]
  | .laneJmp u tgt => fits [(u, 3), (tgt, 12)]
  | .laneBr u cc tgt => fits [(u, 3), (cc, 4), (tgt, 12)]
  | .laneCall u tgt => fits [(u, 3), (tgt, 12)]
  | .laneRet u => fits [(u, 3)]
  | .laneLoop u i x last => fits [(u, 3), (x, if i then 13 else 4), (last, 12)]
  | .laneWaits u n => fits [(u, 3), (n, 7)]
  | .laneInh u _ => fits [(u, 3)]
  | .laneEvt u _ code => fits [(u, 3), (code, 16)]
  | .laneLdi u d imm => fits [(u, 3), (d, 4), (imm, 16)]
  | .laneLdp u p imm => fits [(u, 3), (p, 3), (imm, 16)]
  | .laneLdm u p imm => fits [(u, 3), (p, 3), (imm, 16)]
  | .laneLdz u p k => fits [(u, 3), (p, 3), (k, 4)]
  | .laneMovx u d sp _ => fits [(u, 3), (d, 4), (sp, 5)]
  | .laneSetm u _ _ msh => fits [(u, 3), (msh, 5)]
  | .laneLd u d p m => fits [(u, 3), (d, 4), (p, 3), (m, 2)]
  | .laneSt u r p m => fits [(u, 3), (r, 4), (p, 3), (m, 2)]
  | .laneLd2 u d x mx y my => fits [(u, 3), (d, 4), (x, 2), (mx, 2), (y, 2), (my, 2)]
  | .laneLim u d r t => fits [(u, 3), (d, 4), (r, 4), (t, 4)]
  | .laneGet u d ind x => fits [(u, 3), (d, 4), (x, if ind then 4 else 14)]
  | .laneGetw u d ind x => fits [(u, 3), (d, 4), (x, if ind then 4 else 14)]
  | .lanePut u r ind x => fits [(u, 3), (r, 4), (x, if ind then 4 else 14)]
  | .lanePutw u r ind x => fits [(u, 3), (r, 4), (x, if ind then 4 else 14)]
  | .laneFld u d disp => fits [(u, 3), (d, 4), (disp, 12)]
  | .laneFst u r disp => fits [(u, 3), (r, 4), (disp, 12)]
  | .lanePop u d => fits [(u, 3), (d, 4)]
  | .laneMpyReg u _ r t => fits [(u, 3), (r, 4), (t, 4)]
  | .laneMpyMem u _ r p m => fits [(u, 3), (r, 4), (p, 3), (m, 2)]
  | .laneMpyDual u _ x mx y my => fits [(u, 3), (x, 2), (mx, 2), (y, 2), (my, 2)]
  | .laneMacReg u _ r t => fits [(u, 3), (r, 4), (t, 4)]
  | .laneMacMem u _ r p m => fits [(u, 3), (r, 4), (p, 3), (m, 2)]
  | .laneMacDual u _ x mx y my => fits [(u, 3), (x, 2), (mx, 2), (y, 2), (my, 2)]
  | .laneMsuReg u _ r t => fits [(u, 3), (r, 4), (t, 4)]
  | .laneMsuMem u _ r p m => fits [(u, 3), (r, 4), (p, 3), (m, 2)]
  | .laneMsuDual u _ x mx y my => fits [(u, 3), (x, 2), (mx, 2), (y, 2), (my, 2)]
  | .laneMpyu u _ r t => fits [(u, 3), (r, 4), (t, 4)]
  | .laneAdd u d r t => fits [(u, 3), (d, 4), (r, 4), (t, 4)]
  | .laneSub u d r t => fits [(u, 3), (d, 4), (r, 4), (t, 4)]
  | .laneMinmax u d r t _ => fits [(u, 3), (d, 4), (r, 4), (t, 4)]
  | .laneLog u d r t f => fits [(u, 3), (d, 4), (r, 4), (t, 4), (f, 2)]
  | .laneShd u d r _ n => fits [(u, 3), (d, 4), (r, 4), (n, 5)]
  | .laneCmp u r t => fits [(u, 3), (r, 4), (t, 4)]
  | .laneAcc u _ f => fits [(u, 3), (f, 3)]
  | .laneSha u _ v x => fits [(u, 3), (x, if v then 4 else 6)]
  | .laneMva u _ d _ _ sh => fits [(u, 3), (d, 4), (sh, 5)]
  | .laneMvd u _ r _ sh => fits [(u, 3), (r, 4), (sh, 5)]
  | .laneNorm u _ d _ => fits [(u, 3), (d, 4)]
  | .laneDataError _ => true
  | .streamSample _ _ => true
  | .laneMemAccess _ _ => true
  | .laneClrCounts => true
  | .laneClrPeaks => true
  | .cycleStart _ _ _ => true
  | .cycleComplete _ => true
  | .logicNop u => fits [(u, 2)]
  | .logicEnd u => fits [(u, 2)]
  | .logicJmp u tgt => fits [(u, 2), (tgt, 19)]
  | .logicBr u cc tgt => fits [(u, 2), (cc, 4), (tgt, 19)]
  | .logicCall u tgt => fits [(u, 2), (tgt, 19)]
  | .logicRet u => fits [(u, 2)]
  | .logicBrb u r _ tgt => fits [(u, 2), (r, 5), (tgt, 19)]
  | .logicLdw u d r off => fits [(u, 2), (d, 5), (r, 5), (off, 16)]
  | .logicLdh u d r off => fits [(u, 2), (d, 5), (r, 5), (off, 16)]
  | .logicLdb u d r off => fits [(u, 2), (d, 5), (r, 5), (off, 16)]
  | .logicStw u d r off => fits [(u, 2), (d, 5), (r, 5), (off, 16)]
  | .logicSth u d r off => fits [(u, 2), (d, 5), (r, 5), (off, 16)]
  | .logicStb u d r off => fits [(u, 2), (d, 5), (r, 5), (off, 16)]
  | .logicLdx u d r off b => fits [(u, 2), (d, 5), (r, 5), (off, 13), (b, 3)]
  | .logicStx u d r off b => fits [(u, 2), (d, 5), (r, 5), (off, 13), (b, 3)]
  | .logicLdi u d imm => fits [(u, 2), (d, 5), (imm, 16)]
  | .logicLdih u d imm => fits [(u, 2), (d, 5), (imm, 16)]
  | .logicMov u d r => fits [(u, 2), (d, 5), (r, 5)]
  | .logicAdd u d r t => fits [(u, 2), (d, 5), (r, 5), (t, 5)]
  | .logicSub u d r t => fits [(u, 2), (d, 5), (r, 5), (t, 5)]
  | .logicMul u d r t => fits [(u, 2), (d, 5), (r, 5), (t, 5)]
  | .logicDiv u d r t => fits [(u, 2), (d, 5), (r, 5), (t, 5)]
  | .logicMod u d r t => fits [(u, 2), (d, 5), (r, 5), (t, 5)]
  | .logicAddi u d r imm => fits [(u, 2), (d, 5), (r, 5), (imm, 16)]
  | .logicAdds u d r t => fits [(u, 2), (d, 5), (r, 5), (t, 5)]
  | .logicSubs u d r t => fits [(u, 2), (d, 5), (r, 5), (t, 5)]
  | .logicLgc u d r t f => fits [(u, 2), (d, 5), (r, 5), (t, 5), (f, 2)]
  | .logicNot u d r => fits [(u, 2), (d, 5), (r, 5)]
  | .logicShf u d r t f => fits [(u, 2), (d, 5), (r, 5), (t, 5), (f, 2)]
  | .logicShfi u d r n f => fits [(u, 2), (d, 5), (r, 5), (n, 5), (f, 2)]
  | .logicMinmax u d r t _ => fits [(u, 2), (d, 5), (r, 5), (t, 5)]
  | .logicLimit u d r t => fits [(u, 2), (d, 5), (r, 5), (t, 5)]
  | .logicAbsneg u d r _ => fits [(u, 2), (d, 5), (r, 5)]
  | .logicCmp u r t => fits [(u, 2), (r, 5), (t, 5)]
  | .logicCmpi u r imm => fits [(u, 2), (r, 5), (imm, 16)]
  | .logicSetc u d cc => fits [(u, 2), (d, 5), (cc, 4)]
  | .logicSel u d r t => fits [(u, 2), (d, 5), (r, 5), (t, 5)]
  | .logicBop u d r t f _ _ => fits [(u, 2), (d, 5), (r, 5), (t, 5), (f, 3)]
  | .logicQmul u d r t => fits [(u, 2), (d, 5), (r, 5), (t, 5)]
  | .logicFadd u d r t => fits [(u, 2), (d, 5), (r, 5), (t, 5)]
  | .logicFsub u d r t => fits [(u, 2), (d, 5), (r, 5), (t, 5)]
  | .logicFmul u d r t => fits [(u, 2), (d, 5), (r, 5), (t, 5)]
  | .logicFdiv u d r t => fits [(u, 2), (d, 5), (r, 5), (t, 5)]
  | .logicFcmp u r t => fits [(u, 2), (r, 5), (t, 5)]
  | .logicFcvt u d r f => fits [(u, 2), (d, 5), (r, 5), (f, 2)]
  | .logicGetd u d ind x => fits [(u, 2), (d, 5), (x, if ind then 5 else 14)] && (!ind || bitOf x 3)
  | .logicPutd u d ind x => fits [(u, 2), (d, 5), (x, if ind then 5 else 14)] && (!ind || bitOf x 3)
  | .logicGrp u d g => fits [(u, 2), (d, 5), (g, 10)]
  | .logicTmr u d r f i => fits [(u, 2), (d, 5), (r, 5), (f, 2), (i, 12)]
  | .logicTpt u r i => fits [(u, 2), (r, 5), (i, 12)]
  | .logicTrd u d i => fits [(u, 2), (d, 5), (i, 12)]
  | .logicCnt u d r f i => fits [(u, 2), (d, 5), (r, 5), (f, 2), (i, 12)]
  | .logicCpv u r i => fits [(u, 2), (r, 5), (i, 12)]
  | .logicCrd u d i => fits [(u, 2), (d, 5), (i, 12)]
  | .logicEdge u d r _ i => fits [(u, 2), (d, 5), (r, 5), (i, 13)]
  | .logicEvt u _ code => fits [(u, 2), (code, 16)]
  | .exchRequest => true
  | .exchCheckDone => true
  | .exchWindowOpen => true
  | .exchTimeout => true
  | .exchCancel => true
  | .taskStart _ => true
  | .taskStop _ => true
  | .logClrCounts => true
  | .logClrPeaks => true
  | .journalRecordDone _ => true
  | .holdupTestStart _ => true
  | .holdLoadOn => true
  | .holdupTestEnd _ => true
  | .idleRetest => true
  | .jrnTest => true
  | .jrnSelect _ => true
  | .jrnDiscard => true
  | .pfailAccept => true
  | .pfailRelease _ _ _ => true
  | .restoreEnd => true
  | .autoResume => true
  | .jrnClrCounts => true
  | .jrnClrPeaks => true
  | .adcResult _ _ _ => true
  | .triggerTimer _ _ => true
  | .adcTrigger _ _ => true
  | .conversionDue _ _ _ => true
  | .adcCalibrate _ => true
  | .calibrationStart _ => true
  | .calibrationEnd _ _ _ => true
  | .adcSupplyFault => true
  | .adcClrCounts => true
  | .profileInterval _ _ => true
  | .moveAbs _ _ => true
  | .moveRel _ _ => true
  | .stopRamped _ => true
  | .stopHard _ => true
  | .motHome _ => true
  | .motClearFault _ => true
  | .pwmValley _ => true
  | .pwmConverterTrigger _ => true
  | .pwmInhibit _ => true
  | .standstillReduce _ => true
  | .motSignalWrite => true
  | .sdmOutput _ _ => true
  | .overCurrent _ _ => true
  | .dataStuck _ => true
  | .quadratureTransition _ _ => true
  | .zCapture _ => true
  | .wireFault _ _ => true
  | .ssiFrame _ _ _ _ => true
  | .comparePulseEnd _ => true
  | .compareEntryWrite _ _ _ => true
  | .armZ _ => true
  | .posClear _ => true
  | .cmpArm _ => true
  | .cmpDisarm _ => true
  | .loadCount _ _ => true
  | .clearSsi _ => true
  | .islandPor => true
  | .selfTestDone => true
  | .islandScan _ _ _ _ => true
  | .inputTestPulse _ _ => true
  | .inputTestSample _ _ _ => true
  | .outputTestPulse _ _ => true
  | .outputPulseCheck _ _ => true
  | .outputFault _ _ _ => true
  | .keepaliveExpiry _ => true
  | .lockstepFault => true
  | .memoryFault => true
  | .configCrcCheck _ => true
  | .safeSupplyFault _ => true
  | .emoDiscrepancy => true
  | .discrepancy _ => true
  | .functionDelayExpiry _ => true
  | .safeFrameSend => true
  | .mailboxMessage _ _ => true
  | .pathSilent _ _ => true
  | .frameMismatch _ => true
  | .configDropped => true
  | .islandPfail => true
  | .islandPfailReturn => true
  | .pairElection => true
  | .tickRec _ => true
  | .journalFrame _ _ _ => true
  | .pairCompare _ _ => true
  | .pairDecision _ => true
  | .pairTakeover => true
  | .pairSwitch _ => true
  | .pairResync => true
  | .pairRelease => true
  | .pairClrCounts => true
  | .linkSignalDetect _ => true
  | .blockLock _ => true
  | .helloSend _ => true
  | .linkHello _ _ _ _ _ _ _ _ _ _ => true
  | .blockLockLoss _ => true
  | .creditFrame _ _ _ _ => true
  | .linkTransmit _ => true
  | .casFrameTransit _ _ => true
  | .casFrameBad _ => true
  | .beacon _ => true
  | .masterLost => true
  | .masterLostAbort => true
  | .safeFrame _ _ => true
  | .signalFrame _ _ => true
  | .syncRec _ _ => true
  | .recordFrame _ _ => true
  | .shpFwd _ => true
  | .resyncFrame _ _ _ _ _ => true
  | .casClrCounts => true
  | .timNowRead => true
  | .timeFrame _ _ _ _ _ => true
  | .ptpMessage _ _ => true
  | .ptpSend _ _ => true
  | .servoUpdate => true
  | .holdover => true
  | .stepApply => true
  | .timeSet => true
  | .frameIngress _ _ => true
  | .frameEgress _ => true
  | .frameAged _ _ => true
  | .gateListEntry _ => true
  | .gclSwap _ => true
  | .gclEntryAccess _ => true
  | .addressAge _ _ => true
  | .domainFrame _ _ _ => true
  | .netClrCounts => true
  | .ringCycleStart _ => true
  | .rioCycle _ _ _ _ => true
  | .rioEnum _ _ _ => true
  | .rioProbe _ _ _ => true
  | .rioConfig _ _ => true
  | .rioDiag _ _ _ => true
  | .ringSyncLoss _ => true
  | .rioClrCounts => true
  | .canFrameReceive _ _ _ _ _ _ _ _ => true
  | .canFrameSent _ _ _ => true
  | .canError _ _ _ _ _ => true
  | .busOffRecovery _ => true
  | .canSend _ _ _ => true
  | .canCancel _ _ _ => true
  | .canFifoReadAdvance _ _ _ => true
  | .canClrCounts => true
  | .recordWrite => true
  | .mdwClearFault => true
  | .clearProcess => true
  | .closeFree => true
  | .mdwRdSerialWrite _ => true
  | .mdwAdv => true
  | .mdwRdLoadDone => true
  | .traceFrameSend _ => true
  | .mdwClrCounts => true
  | .mdwClrPeaks => true
  | .directoryRead _ _ => true
  | .copyVerify _ _ => true
  | .loadPass _ _ => true
  | .bootSelect _ => true
  | .bootLoadHost => true
  | .bootRetry => true
  | .bootApply _ => true
  | .changePersist _ => true
  | .shpHello _ _ => true
  | .shpOpen _ => true
  | .shpClose _ => true
  | .shpKeepalive _ => true
  | .sessionIdle _ => true
  | .regRead _ => true
  | .regWrite _ => true
  | .plainRead _ => true
  | .sigRead _ _ _ => true
  | .sigWrite _ => true
  | .shpForce _ => true
  | .shpSeq _ => true
  | .shpLoop _ => true
  | .shpAxis _ => true
  | .recRead _ => true
  | .shpTrace _ => true
  | .shpSafety _ _ => true
  | .imagePut _ => true
  | .imageApply _ _ => true
  | .copyWrite _ => true
  | .testRecord _ => true
  | .shpTimeout _ => true
  | .mailboxTimeout _ => true
  | .bar0Access _ _ _ => true
  | .bar2Access _ _ _ => true
  | .secProvision _ => true
  | .secLock _ => true
  | .secRetire _ => true
  | .secRaiseSvn _ => true
  | .secKeyWrite _ => true
  | .keyDataWrite _ => true
  | .dbgChallenge => true
  | .challengeReady _ => true
  | .dbgVerify => true
  | .verifyResult => true
  | .challengeExpiry => true
  | .dbgRequestFull => true
  | .dbgHalt => true
  | .dbgResume => true
  | .dbgDrop => true
  | .wakeTimer => true
  | .wakeLine _ => true
  | .wakeComplete => true
  | .hibWake _ => true
  | .pwrHold _ => true
  | .pmcSnap => true
  | .pmcClear => true
  | .debugReset => true
  | .debugPortAccess _ => true
  | .spllLock _ => true
  | .islandPorRelease => true
  | .adcSupplyGood => true
  | .sgmiiSynchronisation _ => true
  | .pcieL1Exit => true
  | .unknownType _ _ => true

end Sys2Proof
end

