-- ==== Sys2Proof/Decode.lean ====
section
/-!
DEFINITION. Decode.lean: the words of the two instruction sets the block holds: a lane's program words (R176, R177) and a
core's logic words (R204, R205). A word is decoded by its opcode in bits [31:26]; a word with a reserved bit set or a
reserved opcode decodes to no instruction. The opcode table of the block gives its commands no bits.
-/

namespace Sys2Proof

open Machine

/-- A word with opcode `op` and values placed at bit positions. -/
def placed (op : Nat) (fs : List (Nat × Nat)) : Option Nat := some (op * 2 ^ 26 + (fs.map fun f => f.2 * 2 ^ f.1).sum)

/-- The word of a lane instruction (R177) or of a logic instruction (R205); other commands have none. -/
def instrWord : Instr → Option Nat
  | .por => none
  | .pinReset => none
  | .softReset => none
  | .clockReset => none
  | .xinStop => none
  | .xinReturn => none
  | .serdesPllLoss _ => none
  | .resetRelease _ _ _ => none
  | .pllLock => none
  | .colStall _ _ => none
  | .colStallClear => none
  | .tickStrobe => none
  | .strobeArrival _ _ => none
  | .inputClose _ _ => none
  | .outputClose => none
  | .outputPrefetch _ => none
  | .tickClr => none
  | .registerWrite _ _ _ => none
  | .plainTransaction _ _ _ _ _ _ => none
  | .grant _ => none
  | .retainedStoreAccess => none
  | .plnClrWait => none
  | .plnClrEcc => none
  | .plnClrWin => none
  | .jobRelease _ => none
  | .runLimit _ _ => none
  | .jobComplete _ => none
  | .deadlinePass _ _ => none
  | .expiry => none
  | .waitEvent _ => none
  | .loadIntervalEnd _ _ => none
  | .schClrCounts => none
  | .schClrPeaks => none
  | .forceSet => none
  | .forceRelease => none
  | .forceReleaseAll => none
  | .sigClrStats => none
  | .seqEvaluation _ _ => none
  | .seqNop _ _ => none
  | .seqLoad _ _ => none
  | .seqStart _ _ => none
  | .seqHold _ _ => none
  | .seqContinue _ _ => none
  | .seqSkip _ _ => none
  | .seqAbort _ _ => none
  | .seqStop _ _ => none
  | .seqResumeCommit _ _ => none
  | .seqClear _ _ => none
  | .passCommit _ _ _ _ _ _ _ _ => none
  | .passAnswer _ _ _ _ => none
  | .passMiss _ _ => none
  | .passAckDeadline _ => none
  | .seqClrCounts => none
  | .seqClrPeaks => none
  | .loopMode _ _ => none
  | .loopLimitLo _ _ => none
  | .loopLimitHi _ _ => none
  | .loopClearFault _ => none
  | .loopClrCounts => none
  | .loopClrPeaks => none
  | .laneJobStart _ _ => none
  | .laneNop _ => placed 0x00 []
  | .laneEnd _ => placed 0x01 []
  | .laneJmp _ tgt => placed 0x02 [(0, tgt)]
  | .laneBr _ cc tgt => placed 0x03 [(22, cc), (0, tgt)]
  | .laneCall _ tgt => placed 0x04 [(0, tgt)]
  | .laneRet _ => placed 0x05 []
  | .laneLoop _ i x last => placed 0x06 [(25, b2n i), (12, x), (0, last)]
  | .laneWaits _ n => placed 0x07 [(0, n)]
  | .laneInh _ v => placed 0x08 [(0, b2n v)]
  | .laneEvt _ c code => placed 0x09 [(16, b2n c), (0, code)]
  | .laneLdi _ d imm => placed 0x0A [(22, d), (0, imm)]
  | .laneLdp _ p imm => placed 0x0B [(22, p), (0, imm)]
  | .laneLdm _ p imm => placed 0x0C [(22, p), (0, imm)]
  | .laneLdz _ p k => placed 0x0D [(22, p), (0, k)]
  | .laneMovx _ d sp dir => placed 0x0E [(22, d), (17, sp), (16, b2n dir)]
  | .laneSetm _ sat rnd msh => placed 0x0F [(9, b2n sat), (8, b2n rnd), (0, msh)]
  | .laneLd _ d p m => placed 0x10 [(22, d), (19, p), (17, m)]
  | .laneSt _ r p m => placed 0x11 [(22, r), (19, p), (17, m)]
  | .laneLd2 _ d x mx y my => placed 0x12 [(22, d), (20, x), (18, mx), (16, y), (14, my)]
  | .laneLim _ d r t => placed 0x13 [(22, d), (18, r), (14, t)]
  | .laneGet _ d ind x => placed 0x14 [(22, d), (14, b2n ind), (0, x)]
  | .laneGetw _ d ind x => placed 0x15 [(22, d), (14, b2n ind), (0, x)]
  | .lanePut _ r ind x => placed 0x16 [(22, r), (14, b2n ind), (0, x)]
  | .lanePutw _ r ind x => placed 0x17 [(22, r), (14, b2n ind), (0, x)]
  | .laneFld _ d disp => placed 0x18 [(22, d), (0, disp)]
  | .laneFst _ r disp => placed 0x19 [(22, r), (0, disp)]
  | .lanePop _ d => placed 0x1A [(22, d)]
  | .laneMpyReg _ a r t => placed 0x1B [(25, b2n a), (18, r), (14, t)]
  | .laneMpyMem _ a r p m => placed 0x1C [(25, b2n a), (18, r), (15, p), (13, m)]
  | .laneMpyDual _ a x mx y my => placed 0x1D [(25, b2n a), (23, x), (21, mx), (19, y), (17, my)]
  | .laneMacReg _ a r t => placed 0x1E [(25, b2n a), (18, r), (14, t)]
  | .laneMacMem _ a r p m => placed 0x1F [(25, b2n a), (18, r), (15, p), (13, m)]
  | .laneMacDual _ a x mx y my => placed 0x20 [(25, b2n a), (23, x), (21, mx), (19, y), (17, my)]
  | .laneMsuReg _ a r t => placed 0x21 [(25, b2n a), (18, r), (14, t)]
  | .laneMsuMem _ a r p m => placed 0x22 [(25, b2n a), (18, r), (15, p), (13, m)]
  | .laneMsuDual _ a x mx y my => placed 0x23 [(25, b2n a), (23, x), (21, mx), (19, y), (17, my)]
  | .laneMpyu _ a r t => placed 0x24 [(25, b2n a), (18, r), (14, t)]
  | .laneAdd _ d r t => placed 0x25 [(22, d), (18, r), (14, t)]
  | .laneSub _ d r t => placed 0x26 [(22, d), (18, r), (14, t)]
  | .laneMinmax _ d r t f => placed 0x27 [(22, d), (18, r), (14, t), (0, b2n f)]
  | .laneLog _ d r t f => placed 0x28 [(22, d), (18, r), (14, t), (0, f)]
  | .laneShd _ d r k n => placed 0x29 [(22, d), (18, r), (5, b2n k), (0, n)]
  | .laneCmp _ r t => placed 0x2A [(18, r), (14, t)]
  | .laneAcc _ a f => placed 0x2B [(25, b2n a), (0, f)]
  | .laneSha _ a v x => placed 0x2C [(25, b2n a), (6, b2n v), (if v then 8 else 0, x)]
  | .laneMva _ a d r o sh => placed 0x2D [(25, b2n a), (18, d), (7, b2n r), (6, b2n o), (0, sh)]
  | .laneMvd _ a r o sh => placed 0x2E [(25, b2n a), (18, r), (6, b2n o), (0, sh)]
  | .laneNorm _ a d e => placed 0x2F [(25, b2n a), (18, d), (0, b2n e)]
  | .laneDataError _ => none
  | .streamSample _ _ => none
  | .laneMemAccess _ _ => none
  | .laneClrCounts => none
  | .laneClrPeaks => none
  | .cycleStart _ _ _ => none
  | .cycleComplete _ => none
  | .logicNop _ => placed 0x00 []
  | .logicEnd _ => placed 0x01 []
  | .logicJmp _ tgt => placed 0x02 [(0, tgt)]
  | .logicBr _ cc tgt => placed 0x03 [(22, cc), (0, tgt)]
  | .logicCall _ tgt => placed 0x04 [(0, tgt)]
  | .logicRet _ => placed 0x05 []
  | .logicBrb _ r v tgt => placed 0x06 [(21, r), (19, b2n v), (0, tgt)]
  | .logicLdw _ d r off => placed 0x07 [(21, d), (16, r), (0, off)]
  | .logicLdh _ d r off => placed 0x08 [(21, d), (16, r), (0, off)]
  | .logicLdb _ d r off => placed 0x09 [(21, d), (16, r), (0, off)]
  | .logicStw _ d r off => placed 0x0A [(21, d), (16, r), (0, off)]
  | .logicSth _ d r off => placed 0x0B [(21, d), (16, r), (0, off)]
  | .logicStb _ d r off => placed 0x0C [(21, d), (16, r), (0, off)]
  | .logicLdx _ d r off b => placed 0x0D [(21, d), (16, r), (3, off), (0, b)]
  | .logicStx _ d r off b => placed 0x0E [(21, d), (16, r), (3, off), (0, b)]
  | .logicLdi _ d imm => placed 0x0F [(21, d), (0, imm)]
  | .logicLdih _ d imm => placed 0x10 [(21, d), (0, imm)]
  | .logicMov _ d r => placed 0x11 [(21, d), (16, r)]
  | .logicAdd _ d r t => placed 0x12 [(21, d), (16, r), (11, t)]
  | .logicSub _ d r t => placed 0x13 [(21, d), (16, r), (11, t)]
  | .logicMul _ d r t => placed 0x14 [(21, d), (16, r), (11, t)]
  | .logicDiv _ d r t => placed 0x15 [(21, d), (16, r), (11, t)]
  | .logicMod _ d r t => placed 0x16 [(21, d), (16, r), (11, t)]
  | .logicAddi _ d r imm => placed 0x17 [(21, d), (16, r), (0, imm)]
  | .logicAdds _ d r t => placed 0x18 [(21, d), (16, r), (11, t)]
  | .logicSubs _ d r t => placed 0x19 [(21, d), (16, r), (11, t)]
  | .logicLgc _ d r t f => placed 0x1A [(21, d), (16, r), (11, t), (0, f)]
  | .logicNot _ d r => placed 0x1B [(21, d), (16, r)]
  | .logicShf _ d r t f => placed 0x1C [(21, d), (16, r), (11, t), (0, f)]
  | .logicShfi _ d r n f => placed 0x1D [(21, d), (16, r), (0, n), (5, f)]
  | .logicMinmax _ d r t f => placed 0x1E [(21, d), (16, r), (11, t), (0, b2n f)]
  | .logicLimit _ d r t => placed 0x1F [(21, d), (16, r), (11, t)]
  | .logicAbsneg _ d r f => placed 0x20 [(21, d), (16, r), (0, b2n f)]
  | .logicCmp _ r t => placed 0x21 [(16, r), (11, t)]
  | .logicCmpi _ r imm => placed 0x22 [(16, r), (0, imm)]
  | .logicSetc _ d cc => placed 0x23 [(21, d), (17, cc)]
  | .logicSel _ d r t => placed 0x24 [(21, d), (16, r), (11, t)]
  | .logicBop _ d r t f ns nt => placed 0x25 [(21, d), (16, r), (11, t), (0, f), (4, b2n ns), (3, b2n nt)]
  | .logicQmul _ d r t => placed 0x26 [(21, d), (16, r), (11, t)]
  | .logicFadd _ d r t => placed 0x27 [(21, d), (16, r), (11, t)]
  | .logicFsub _ d r t => placed 0x28 [(21, d), (16, r), (11, t)]
  | .logicFmul _ d r t => placed 0x29 [(21, d), (16, r), (11, t)]
  | .logicFdiv _ d r t => placed 0x2A [(21, d), (16, r), (11, t)]
  | .logicFcmp _ r t => placed 0x2B [(16, r), (11, t)]
  | .logicFcvt _ d r f => placed 0x2C [(21, d), (16, r), (0, f)]
  | .logicGetd _ d ind x => placed 0x2D [(21, d), (if ind then 11 else 0, x)]
  | .logicPutd _ d ind x => placed 0x2E [(21, d), (if ind then 11 else 0, x)]
  | .logicGrp _ d g => placed 0x2F [(21, d), (0, g)]
  | .logicTmr _ d r f i => placed 0x30 [(21, d), (16, r), (12, f), (0, i)]
  | .logicTpt _ r i => placed 0x31 [(16, r), (0, i)]
  | .logicTrd _ d i => placed 0x32 [(21, d), (0, i)]
  | .logicCnt _ d r f i => placed 0x33 [(21, d), (16, r), (12, f), (0, i)]
  | .logicCpv _ r i => placed 0x34 [(16, r), (0, i)]
  | .logicCrd _ d i => placed 0x35 [(21, d), (0, i)]
  | .logicEdge _ d r f i => placed 0x36 [(21, d), (16, r), (13, b2n f), (0, i)]
  | .logicEvt _ c code => placed 0x37 [(16, b2n c), (0, code)]
  | .exchRequest => none
  | .exchCheckDone => none
  | .exchWindowOpen => none
  | .exchTimeout => none
  | .exchCancel => none
  | .taskStart _ => none
  | .taskStop _ => none
  | .logClrCounts => none
  | .logClrPeaks => none
  | .journalRecordDone _ => none
  | .holdupTestStart _ => none
  | .holdLoadOn => none
  | .holdupTestEnd _ => none
  | .idleRetest => none
  | .jrnTest => none
  | .jrnSelect _ => none
  | .jrnDiscard => none
  | .pfailAccept => none
  | .pfailRelease _ _ _ => none
  | .restoreEnd => none
  | .autoResume => none
  | .jrnClrCounts => none
  | .jrnClrPeaks => none
  | .adcResult _ _ _ => none
  | .triggerTimer _ _ => none
  | .adcTrigger _ _ => none
  | .conversionDue _ _ _ => none
  | .adcCalibrate _ => none
  | .calibrationStart _ => none
  | .calibrationEnd _ _ _ => none
  | .adcSupplyFault => none
  | .adcClrCounts => none
  | .profileInterval _ _ => none
  | .moveAbs _ _ => none
  | .moveRel _ _ => none
  | .stopRamped _ => none
  | .stopHard _ => none
  | .motHome _ => none
  | .motClearFault _ => none
  | .pwmValley _ => none
  | .pwmConverterTrigger _ => none
  | .pwmInhibit _ => none
  | .standstillReduce _ => none
  | .motSignalWrite => none
  | .sdmOutput _ _ => none
  | .overCurrent _ _ => none
  | .dataStuck _ => none
  | .quadratureTransition _ _ => none
  | .zCapture _ => none
  | .wireFault _ _ => none
  | .ssiFrame _ _ _ _ => none
  | .comparePulseEnd _ => none
  | .compareEntryWrite _ _ _ => none
  | .armZ _ => none
  | .posClear _ => none
  | .cmpArm _ => none
  | .cmpDisarm _ => none
  | .loadCount _ _ => none
  | .clearSsi _ => none
  | .islandPor => none
  | .selfTestDone => none
  | .islandScan _ _ _ _ => none
  | .inputTestPulse _ _ => none
  | .inputTestSample _ _ _ => none
  | .outputTestPulse _ _ => none
  | .outputPulseCheck _ _ => none
  | .outputFault _ _ _ => none
  | .keepaliveExpiry _ => none
  | .lockstepFault => none
  | .memoryFault => none
  | .configCrcCheck _ => none
  | .safeSupplyFault _ => none
  | .emoDiscrepancy => none
  | .discrepancy _ => none
  | .functionDelayExpiry _ => none
  | .safeFrameSend => none
  | .mailboxMessage _ _ => none
  | .pathSilent _ _ => none
  | .frameMismatch _ => none
  | .configDropped => none
  | .islandPfail => none
  | .islandPfailReturn => none
  | .pairElection => none
  | .tickRec _ => none
  | .journalFrame _ _ _ => none
  | .pairCompare _ _ => none
  | .pairDecision _ => none
  | .pairTakeover => none
  | .pairSwitch _ => none
  | .pairResync => none
  | .pairRelease => none
  | .pairClrCounts => none
  | .linkSignalDetect _ => none
  | .blockLock _ => none
  | .helloSend _ => none
  | .linkHello _ _ _ _ _ _ _ _ _ _ => none
  | .blockLockLoss _ => none
  | .creditFrame _ _ _ _ => none
  | .linkTransmit _ => none
  | .casFrameTransit _ _ => none
  | .casFrameBad _ => none
  | .beacon _ => none
  | .masterLost => none
  | .masterLostAbort => none
  | .safeFrame _ _ => none
  | .signalFrame _ _ => none
  | .syncRec _ _ => none
  | .recordFrame _ _ => none
  | .shpFwd _ => none
  | .resyncFrame _ _ _ _ _ => none
  | .casClrCounts => none
  | .timNowRead => none
  | .timeFrame _ _ _ _ _ => none
  | .ptpMessage _ _ => none
  | .ptpSend _ _ => none
  | .servoUpdate => none
  | .holdover => none
  | .stepApply => none
  | .timeSet => none
  | .frameIngress _ _ => none
  | .frameEgress _ => none
  | .frameAged _ _ => none
  | .gateListEntry _ => none
  | .gclSwap _ => none
  | .gclEntryAccess _ => none
  | .addressAge _ _ => none
  | .domainFrame _ _ _ => none
  | .netClrCounts => none
  | .ringCycleStart _ => none
  | .rioCycle _ _ _ _ => none
  | .rioEnum _ _ _ => none
  | .rioProbe _ _ _ => none
  | .rioConfig _ _ => none
  | .rioDiag _ _ _ => none
  | .ringSyncLoss _ => none
  | .rioClrCounts => none
  | .canFrameReceive _ _ _ _ _ _ _ _ => none
  | .canFrameSent _ _ _ => none
  | .canError _ _ _ _ _ => none
  | .busOffRecovery _ => none
  | .canSend _ _ _ => none
  | .canCancel _ _ _ => none
  | .canFifoReadAdvance _ _ _ => none
  | .canClrCounts => none
  | .recordWrite => none
  | .mdwClearFault => none
  | .clearProcess => none
  | .closeFree => none
  | .mdwRdSerialWrite _ => none
  | .mdwAdv => none
  | .mdwRdLoadDone => none
  | .traceFrameSend _ => none
  | .mdwClrCounts => none
  | .mdwClrPeaks => none
  | .directoryRead _ _ => none
  | .copyVerify _ _ => none
  | .loadPass _ _ => none
  | .bootSelect _ => none
  | .bootLoadHost => none
  | .bootRetry => none
  | .bootApply _ => none
  | .changePersist _ => none
  | .shpHello _ _ => none
  | .shpOpen _ => none
  | .shpClose _ => none
  | .shpKeepalive _ => none
  | .sessionIdle _ => none
  | .regRead _ => none
  | .regWrite _ => none
  | .plainRead _ => none
  | .sigRead _ _ _ => none
  | .sigWrite _ => none
  | .shpForce _ => none
  | .shpSeq _ => none
  | .shpLoop _ => none
  | .shpAxis _ => none
  | .recRead _ => none
  | .shpTrace _ => none
  | .shpSafety _ _ => none
  | .imagePut _ => none
  | .imageApply _ _ => none
  | .copyWrite _ => none
  | .testRecord _ => none
  | .shpTimeout _ => none
  | .mailboxTimeout _ => none
  | .bar0Access _ _ _ => none
  | .bar2Access _ _ _ => none
  | .secProvision _ => none
  | .secLock _ => none
  | .secRetire _ => none
  | .secRaiseSvn _ => none
  | .secKeyWrite _ => none
  | .keyDataWrite _ => none
  | .dbgChallenge => none
  | .challengeReady _ => none
  | .dbgVerify => none
  | .verifyResult => none
  | .challengeExpiry => none
  | .dbgRequestFull => none
  | .dbgHalt => none
  | .dbgResume => none
  | .dbgDrop => none
  | .wakeTimer => none
  | .wakeLine _ => none
  | .wakeComplete => none
  | .hibWake _ => none
  | .pwrHold _ => none
  | .pmcSnap => none
  | .pmcClear => none
  | .debugReset => none
  | .debugPortAccess _ => none
  | .spllLock _ => none
  | .islandPorRelease => none
  | .adcSupplyGood => none
  | .sgmiiSynchronisation _ => none
  | .pcieL1Exit => none
  | .unknownType _ _ => none

/-- The lane instruction whose fields stand in word `w`, whatever its reserved bits. -/
def laneFields (u w : Nat) : Option Instr :=
  match bitsOf w 26 6 with
  | 0x00 => some (.laneNop u)
  | 0x01 => some (.laneEnd u)
  | 0x02 => some (.laneJmp u (bitsOf w 0 12))
  | 0x03 => some (.laneBr u (bitsOf w 22 4) (bitsOf w 0 12))
  | 0x04 => some (.laneCall u (bitsOf w 0 12))
  | 0x05 => some (.laneRet u)
  | 0x06 => some (.laneLoop u (bitOf w 25) (if bitOf w 25 then bitsOf w 12 13 else bitsOf w 12 4) (bitsOf w 0 12))
  | 0x07 => some (.laneWaits u (bitsOf w 0 7))
  | 0x08 => some (.laneInh u (bitOf w 0))
  | 0x09 => some (.laneEvt u (bitOf w 16) (bitsOf w 0 16))
  | 0x0A => some (.laneLdi u (bitsOf w 22 4) (bitsOf w 0 16))
  | 0x0B => some (.laneLdp u (bitsOf w 22 3) (bitsOf w 0 16))
  | 0x0C => some (.laneLdm u (bitsOf w 22 3) (bitsOf w 0 16))
  | 0x0D => some (.laneLdz u (bitsOf w 22 3) (bitsOf w 0 4))
  | 0x0E => some (.laneMovx u (bitsOf w 22 4) (bitsOf w 17 5) (bitOf w 16))
  | 0x0F => some (.laneSetm u (bitOf w 9) (bitOf w 8) (bitsOf w 0 5))
  | 0x10 => some (.laneLd u (bitsOf w 22 4) (bitsOf w 19 3) (bitsOf w 17 2))
  | 0x11 => some (.laneSt u (bitsOf w 22 4) (bitsOf w 19 3) (bitsOf w 17 2))
  | 0x12 => some (.laneLd2 u (bitsOf w 22 4) (bitsOf w 20 2) (bitsOf w 18 2) (bitsOf w 16 2) (bitsOf w 14 2))
  | 0x13 => some (.laneLim u (bitsOf w 22 4) (bitsOf w 18 4) (bitsOf w 14 4))
  | 0x14 => some (.laneGet u (bitsOf w 22 4) (bitOf w 14) (if bitOf w 14 then bitsOf w 0 4 else bitsOf w 0 14))
  | 0x15 => some (.laneGetw u (bitsOf w 22 4) (bitOf w 14) (if bitOf w 14 then bitsOf w 0 4 else bitsOf w 0 14))
  | 0x16 => some (.lanePut u (bitsOf w 22 4) (bitOf w 14) (if bitOf w 14 then bitsOf w 0 4 else bitsOf w 0 14))
  | 0x17 => some (.lanePutw u (bitsOf w 22 4) (bitOf w 14) (if bitOf w 14 then bitsOf w 0 4 else bitsOf w 0 14))
  | 0x18 => some (.laneFld u (bitsOf w 22 4) (bitsOf w 0 12))
  | 0x19 => some (.laneFst u (bitsOf w 22 4) (bitsOf w 0 12))
  | 0x1A => some (.lanePop u (bitsOf w 22 4))
  | 0x1B => some (.laneMpyReg u (bitOf w 25) (bitsOf w 18 4) (bitsOf w 14 4))
  | 0x1C => some (.laneMpyMem u (bitOf w 25) (bitsOf w 18 4) (bitsOf w 15 3) (bitsOf w 13 2))
  | 0x1D => some (.laneMpyDual u (bitOf w 25) (bitsOf w 23 2) (bitsOf w 21 2) (bitsOf w 19 2) (bitsOf w 17 2))
  | 0x1E => some (.laneMacReg u (bitOf w 25) (bitsOf w 18 4) (bitsOf w 14 4))
  | 0x1F => some (.laneMacMem u (bitOf w 25) (bitsOf w 18 4) (bitsOf w 15 3) (bitsOf w 13 2))
  | 0x20 => some (.laneMacDual u (bitOf w 25) (bitsOf w 23 2) (bitsOf w 21 2) (bitsOf w 19 2) (bitsOf w 17 2))
  | 0x21 => some (.laneMsuReg u (bitOf w 25) (bitsOf w 18 4) (bitsOf w 14 4))
  | 0x22 => some (.laneMsuMem u (bitOf w 25) (bitsOf w 18 4) (bitsOf w 15 3) (bitsOf w 13 2))
  | 0x23 => some (.laneMsuDual u (bitOf w 25) (bitsOf w 23 2) (bitsOf w 21 2) (bitsOf w 19 2) (bitsOf w 17 2))
  | 0x24 => some (.laneMpyu u (bitOf w 25) (bitsOf w 18 4) (bitsOf w 14 4))
  | 0x25 => some (.laneAdd u (bitsOf w 22 4) (bitsOf w 18 4) (bitsOf w 14 4))
  | 0x26 => some (.laneSub u (bitsOf w 22 4) (bitsOf w 18 4) (bitsOf w 14 4))
  | 0x27 => some (.laneMinmax u (bitsOf w 22 4) (bitsOf w 18 4) (bitsOf w 14 4) (bitOf w 0))
  | 0x28 => some (.laneLog u (bitsOf w 22 4) (bitsOf w 18 4) (bitsOf w 14 4) (bitsOf w 0 2))
  | 0x29 => some (.laneShd u (bitsOf w 22 4) (bitsOf w 18 4) (bitOf w 5) (bitsOf w 0 5))
  | 0x2A => some (.laneCmp u (bitsOf w 18 4) (bitsOf w 14 4))
  | 0x2B => some (.laneAcc u (bitOf w 25) (bitsOf w 0 3))
  | 0x2C => some (.laneSha u (bitOf w 25) (bitOf w 6) (if bitOf w 6 then bitsOf w 8 4 else bitsOf w 0 6))
  | 0x2D => some (.laneMva u (bitOf w 25) (bitsOf w 18 4) (bitOf w 7) (bitOf w 6) (bitsOf w 0 5))
  | 0x2E => some (.laneMvd u (bitOf w 25) (bitsOf w 18 4) (bitOf w 6) (bitsOf w 0 5))
  | 0x2F => some (.laneNorm u (bitOf w 25) (bitsOf w 18 4) (bitOf w 0))
  | _ => none

/-- The logic instruction whose fields stand in word `w`, whatever its reserved bits. -/
def logicFields (u w : Nat) : Option Instr :=
  match bitsOf w 26 6 with
  | 0x00 => some (.logicNop u)
  | 0x01 => some (.logicEnd u)
  | 0x02 => some (.logicJmp u (bitsOf w 0 19))
  | 0x03 => some (.logicBr u (bitsOf w 22 4) (bitsOf w 0 19))
  | 0x04 => some (.logicCall u (bitsOf w 0 19))
  | 0x05 => some (.logicRet u)
  | 0x06 => some (.logicBrb u (bitsOf w 21 5) (bitOf w 19) (bitsOf w 0 19))
  | 0x07 => some (.logicLdw u (bitsOf w 21 5) (bitsOf w 16 5) (bitsOf w 0 16))
  | 0x08 => some (.logicLdh u (bitsOf w 21 5) (bitsOf w 16 5) (bitsOf w 0 16))
  | 0x09 => some (.logicLdb u (bitsOf w 21 5) (bitsOf w 16 5) (bitsOf w 0 16))
  | 0x0A => some (.logicStw u (bitsOf w 21 5) (bitsOf w 16 5) (bitsOf w 0 16))
  | 0x0B => some (.logicSth u (bitsOf w 21 5) (bitsOf w 16 5) (bitsOf w 0 16))
  | 0x0C => some (.logicStb u (bitsOf w 21 5) (bitsOf w 16 5) (bitsOf w 0 16))
  | 0x0D => some (.logicLdx u (bitsOf w 21 5) (bitsOf w 16 5) (bitsOf w 3 13) (bitsOf w 0 3))
  | 0x0E => some (.logicStx u (bitsOf w 21 5) (bitsOf w 16 5) (bitsOf w 3 13) (bitsOf w 0 3))
  | 0x0F => some (.logicLdi u (bitsOf w 21 5) (bitsOf w 0 16))
  | 0x10 => some (.logicLdih u (bitsOf w 21 5) (bitsOf w 0 16))
  | 0x11 => some (.logicMov u (bitsOf w 21 5) (bitsOf w 16 5))
  | 0x12 => some (.logicAdd u (bitsOf w 21 5) (bitsOf w 16 5) (bitsOf w 11 5))
  | 0x13 => some (.logicSub u (bitsOf w 21 5) (bitsOf w 16 5) (bitsOf w 11 5))
  | 0x14 => some (.logicMul u (bitsOf w 21 5) (bitsOf w 16 5) (bitsOf w 11 5))
  | 0x15 => some (.logicDiv u (bitsOf w 21 5) (bitsOf w 16 5) (bitsOf w 11 5))
  | 0x16 => some (.logicMod u (bitsOf w 21 5) (bitsOf w 16 5) (bitsOf w 11 5))
  | 0x17 => some (.logicAddi u (bitsOf w 21 5) (bitsOf w 16 5) (bitsOf w 0 16))
  | 0x18 => some (.logicAdds u (bitsOf w 21 5) (bitsOf w 16 5) (bitsOf w 11 5))
  | 0x19 => some (.logicSubs u (bitsOf w 21 5) (bitsOf w 16 5) (bitsOf w 11 5))
  | 0x1A => some (.logicLgc u (bitsOf w 21 5) (bitsOf w 16 5) (bitsOf w 11 5) (bitsOf w 0 2))
  | 0x1B => some (.logicNot u (bitsOf w 21 5) (bitsOf w 16 5))
  | 0x1C => some (.logicShf u (bitsOf w 21 5) (bitsOf w 16 5) (bitsOf w 11 5) (bitsOf w 0 2))
  | 0x1D => some (.logicShfi u (bitsOf w 21 5) (bitsOf w 16 5) (bitsOf w 0 5) (bitsOf w 5 2))
  | 0x1E => some (.logicMinmax u (bitsOf w 21 5) (bitsOf w 16 5) (bitsOf w 11 5) (bitOf w 0))
  | 0x1F => some (.logicLimit u (bitsOf w 21 5) (bitsOf w 16 5) (bitsOf w 11 5))
  | 0x20 => some (.logicAbsneg u (bitsOf w 21 5) (bitsOf w 16 5) (bitOf w 0))
  | 0x21 => some (.logicCmp u (bitsOf w 16 5) (bitsOf w 11 5))
  | 0x22 => some (.logicCmpi u (bitsOf w 16 5) (bitsOf w 0 16))
  | 0x23 => some (.logicSetc u (bitsOf w 21 5) (bitsOf w 17 4))
  | 0x24 => some (.logicSel u (bitsOf w 21 5) (bitsOf w 16 5) (bitsOf w 11 5))
  | 0x25 => some (.logicBop u (bitsOf w 21 5) (bitsOf w 16 5) (bitsOf w 11 5) (bitsOf w 0 3) (bitOf w 4) (bitOf w 3))
  | 0x26 => some (.logicQmul u (bitsOf w 21 5) (bitsOf w 16 5) (bitsOf w 11 5))
  | 0x27 => some (.logicFadd u (bitsOf w 21 5) (bitsOf w 16 5) (bitsOf w 11 5))
  | 0x28 => some (.logicFsub u (bitsOf w 21 5) (bitsOf w 16 5) (bitsOf w 11 5))
  | 0x29 => some (.logicFmul u (bitsOf w 21 5) (bitsOf w 16 5) (bitsOf w 11 5))
  | 0x2A => some (.logicFdiv u (bitsOf w 21 5) (bitsOf w 16 5) (bitsOf w 11 5))
  | 0x2B => some (.logicFcmp u (bitsOf w 16 5) (bitsOf w 11 5))
  | 0x2C => some (.logicFcvt u (bitsOf w 21 5) (bitsOf w 16 5) (bitsOf w 0 2))
  | 0x2D => some (.logicGetd u (bitsOf w 21 5) (bitOf w 14) (if bitOf w 14 then bitsOf w 11 5 else bitsOf w 0 14))
  | 0x2E => some (.logicPutd u (bitsOf w 21 5) (bitOf w 14) (if bitOf w 14 then bitsOf w 11 5 else bitsOf w 0 14))
  | 0x2F => some (.logicGrp u (bitsOf w 21 5) (bitsOf w 0 10))
  | 0x30 => some (.logicTmr u (bitsOf w 21 5) (bitsOf w 16 5) (bitsOf w 12 2) (bitsOf w 0 12))
  | 0x31 => some (.logicTpt u (bitsOf w 16 5) (bitsOf w 0 12))
  | 0x32 => some (.logicTrd u (bitsOf w 21 5) (bitsOf w 0 12))
  | 0x33 => some (.logicCnt u (bitsOf w 21 5) (bitsOf w 16 5) (bitsOf w 12 2) (bitsOf w 0 12))
  | 0x34 => some (.logicCpv u (bitsOf w 16 5) (bitsOf w 0 12))
  | 0x35 => some (.logicCrd u (bitsOf w 21 5) (bitsOf w 0 12))
  | 0x36 => some (.logicEdge u (bitsOf w 21 5) (bitsOf w 16 5) (bitOf w 13) (bitsOf w 0 13))
  | 0x37 => some (.logicEvt u (bitOf w 16) (bitsOf w 0 16))
  | _ => none

/-- The instruction that lane `u` decodes from program word `w`. -/
def laneDecode (u w : Nat) : Option Instr :=
  match laneFields u w with
  | some i => if instrWord i = some w then some i else none
  | none => none

/-- The instruction that core `u` decodes from logic word `w`. -/
def logicDecode (u w : Nat) : Option Instr :=
  match logicFields u w with
  | some i => if instrWord i = some w then some i else none
  | none => none

/-- The command a word of the opcode table spells: the table gives no row any bits. -/
def decodeTableWord (_nbits _w : Nat) : Option Instr := none

end Sys2Proof
end

