-- ==== Sys2Proof/Config.lean ====
section
/-!
DEFINITION. Config.lean: the values the spec leaves open. Each is a constant with no body: nothing can evaluate it and no
proof can rest on what it is, so a statement that holds, holds for every choice the device may make.
-/

namespace Sys2Proof.Machine

/-- The `n`-th open value that a run meets. -/
opaque Config.freeWord : Nat → Word

/-- CRC-32K of a safe frame: the spec names its polynomial and says that it is seeded with CONN and both node numbers
(R319), not how. Arguments: CONN, the sender's and the destination's node words, the covered bytes. -/
opaque Config.safeCrc : Nat → Nat → Nat → List Byte → Word

end Sys2Proof.Machine
end

