-- ==== Sys2Proof/Machine/RegMap.lean ====
section
/-!
DEFINITION. Machine/RegMap.lean: the registers of R480, block by block: the address of each register (R6), the place
of each field in it, and for each field its Type (R4) and reset value, as the register tables of the chapters give them.
A register that the chapter indexes is a function of its index. A field the chapters leave reserved has no name here;
it reads 0 and ignores writes (R5).
-/

namespace Sys2Proof.Machine

/-- The Type column of a field (R4). -/
inductive RegType where
  | ro | rw | wo | w1c | w1s | rwl | rwp
deriving DecidableEq, Repr

/-- The place of a field: its register's address, its lowest bit and its width. -/
structure Fld where
  addr : Nat
  lo : Nat
  width : Nat
deriving DecidableEq, Repr

/-- A field as a register table gives it: lowest bit, width, Type and reset value. -/
structure FieldDesc where
  lo : Nat
  width : Nat
  typ : RegType
  reset : Nat
deriving DecidableEq, Repr

/-- A register, or an array of them with one or two indices: first address, counts and strides, fields. -/
structure RegDesc where
  base : Nat
  n1 : Nat
  s1 : Nat
  n2 : Nat
  s2 : Nat
  fields : List FieldDesc
deriving DecidableEq, Repr

/-- SYS_ID: Identity (01). -/
def SYS_ID : Nat := 0x40000000
def SYS_ID.ORDER : Fld := ⟨SYS_ID, 4, 4⟩
def SYS_ID.STEP_NUM : Fld := ⟨SYS_ID, 8, 4⟩
def SYS_ID.STEP_LETTER : Fld := ⟨SYS_ID, 12, 4⟩
def SYS_ID.PART : Fld := ⟨SYS_ID, 16, 16⟩
/-- SYS_UID0: Unique identifier, low and high (01). -/
def SYS_UID0 : Nat := 0x40000004
def SYS_UID0.UID : Fld := ⟨SYS_UID0, 0, 32⟩
/-- SYS_UID1: Unique identifier, low and high (01). -/
def SYS_UID1 : Nat := 0x40000008
def SYS_UID1.UID : Fld := ⟨SYS_UID1, 0, 32⟩
/-- SYS_RST_CAUSE: Reset cause (01). -/
def SYS_RST_CAUSE : Nat := 0x40000010
def SYS_RST_CAUSE.POR : Fld := ⟨SYS_RST_CAUSE, 0, 1⟩
def SYS_RST_CAUSE.PIN : Fld := ⟨SYS_RST_CAUSE, 1, 1⟩
def SYS_RST_CAUSE.SOFT : Fld := ⟨SYS_RST_CAUSE, 2, 1⟩
def SYS_RST_CAUSE.CLOCK : Fld := ⟨SYS_RST_CAUSE, 3, 1⟩
def SYS_RST_CAUSE.DEBUG : Fld := ⟨SYS_RST_CAUSE, 4, 1⟩
def SYS_RST_CAUSE.HIB : Fld := ⟨SYS_RST_CAUSE, 5, 1⟩
/-- SYS_RST_CTL: Reset control (01). -/
def SYS_RST_CTL : Nat := 0x40000014
def SYS_RST_CTL.KEY : Fld := ⟨SYS_RST_CTL, 0, 16⟩
/-- SYS_TICK_COUNT: Tick count (01). -/
def SYS_TICK_COUNT : Nat := 0x40000020
def SYS_TICK_COUNT.COUNT : Fld := ⟨SYS_TICK_COUNT, 0, 32⟩
/-- SYS_TICK_STAT: Tick lateness (01). -/
def SYS_TICK_STAT : Nat := 0x40000024
def SYS_TICK_STAT.LATCH_LATE : Fld := ⟨SYS_TICK_STAT, 0, 16⟩
def SYS_TICK_STAT.OUT_LATE : Fld := ⟨SYS_TICK_STAT, 16, 16⟩
/-- SYS_TICK_CLR: Tick lateness clear (01). -/
def SYS_TICK_CLR : Nat := 0x40000028
def SYS_TICK_CLR.CLR : Fld := ⟨SYS_TICK_CLR, 0, 1⟩
/-- SYS_LATE_SRC: Late source (01). -/
def SYS_LATE_SRC : Nat := 0x4000002C
def SYS_LATE_SRC.LATCH_PORT : Fld := ⟨SYS_LATE_SRC, 0, 5⟩
def SYS_LATE_SRC.OUT_PORT : Fld := ⟨SYS_LATE_SRC, 8, 5⟩
/-- SYS_STATE: System state (01). -/
def SYS_STATE : Nat := 0x40000030
def SYS_STATE.IMAGE_COMMITTED : Fld := ⟨SYS_STATE, 0, 1⟩
def SYS_STATE.TICK_RUN : Fld := ⟨SYS_STATE, 1, 1⟩
/-- CLK_PLL_STAT: PLL status (01). -/
def CLK_PLL_STAT : Nat := 0x40100000
def CLK_PLL_STAT.CPLL_LOCK : Fld := ⟨CLK_PLL_STAT, 0, 1⟩
def CLK_PLL_STAT.HPLL_LOCK : Fld := ⟨CLK_PLL_STAT, 1, 1⟩
def CLK_PLL_STAT.SPLL_E_LOCK : Fld := ⟨CLK_PLL_STAT, 2, 1⟩
def CLK_PLL_STAT.SPLL_L_LOCK : Fld := ⟨CLK_PLL_STAT, 3, 1⟩
def CLK_PLL_STAT.SPLL_P_LOCK : Fld := ⟨CLK_PLL_STAT, 4, 1⟩
def CLK_PLL_STAT.SREF_OK : Fld := ⟨CLK_PLL_STAT, 5, 1⟩
/-- CLK_PLL_LOSS: PLL loss record (01). -/
def CLK_PLL_LOSS : Nat := 0x40100004
def CLK_PLL_LOSS.SPLL_E_LOST : Fld := ⟨CLK_PLL_LOSS, 2, 1⟩
def CLK_PLL_LOSS.SPLL_L_LOST : Fld := ⟨CLK_PLL_LOSS, 3, 1⟩
def CLK_PLL_LOSS.SPLL_P_LOST : Fld := ⟨CLK_PLL_LOSS, 4, 1⟩
def CLK_PLL_LOSS.SREF_LOST : Fld := ⟨CLK_PLL_LOSS, 5, 1⟩
/-- CLK_VALE_EN: Optional vale enable (01). -/
def CLK_VALE_EN : Nat := 0x40100010
def CLK_VALE_EN.NET : Fld := ⟨CLK_VALE_EN, 7, 1⟩
def CLK_VALE_EN.LINK : Fld := ⟨CLK_VALE_EN, 8, 1⟩
def CLK_VALE_EN.CAN : Fld := ⟨CLK_VALE_EN, 11, 1⟩
/-- CLK_VALE_STAT: Vale run status (01). -/
def CLK_VALE_STAT : Nat := 0x40100014
def CLK_VALE_STAT.RUN : Fld := ⟨CLK_VALE_STAT, 0, 15⟩
/-- CLK_COL_STALL: Col stall record (01). -/
def CLK_COL_STALL : Nat := 0x40100020
def CLK_COL_STALL.STALL : Fld := ⟨CLK_COL_STALL, 0, 1⟩
def CLK_COL_STALL.DIR : Fld := ⟨CLK_COL_STALL, 1, 1⟩
def CLK_COL_STALL.PAIR : Fld := ⟨CLK_COL_STALL, 8, 5⟩
/-- PLN_WEIGHT0: Class weights 1 to 4 (02). -/
def PLN_WEIGHT0 : Nat := 0x40200000
def PLN_WEIGHT0.W1 : Fld := ⟨PLN_WEIGHT0, 0, 8⟩
def PLN_WEIGHT0.W2 : Fld := ⟨PLN_WEIGHT0, 8, 8⟩
def PLN_WEIGHT0.W3 : Fld := ⟨PLN_WEIGHT0, 16, 8⟩
def PLN_WEIGHT0.W4 : Fld := ⟨PLN_WEIGHT0, 24, 8⟩
/-- PLN_WEIGHT1: Class weight 5 (02). -/
def PLN_WEIGHT1 : Nat := 0x40200004
def PLN_WEIGHT1.W5 : Fld := ⟨PLN_WEIGHT1, 0, 8⟩
/-- PLN_BOUNDn: Grant bound of class 0 to 5. -/
def PLN_BOUND (n : Nat) : Nat := 0x40200010 + 4 * n
def PLN_BOUND.CYCLES (n : Nat) : Fld := ⟨PLN_BOUND n, 0, 16⟩
/-- PLN_BOUND_EXC: Bound exceeded (02). -/
def PLN_BOUND_EXC : Nat := 0x40200030
def PLN_BOUND_EXC.PORT : Fld := ⟨PLN_BOUND_EXC, 0, 24⟩
/-- PLN_CLR: Statistics clear (02). -/
def PLN_CLR : Nat := 0x40200034
def PLN_CLR.WAIT : Fld := ⟨PLN_CLR, 0, 1⟩
def PLN_CLR.ECC : Fld := ⟨PLN_CLR, 1, 1⟩
def PLN_CLR.WIN : Fld := ⟨PLN_CLR, 2, 1⟩
/-- PLN_ECC_STAT: Plain error counts (02). -/
def PLN_ECC_STAT : Nat := 0x40200040
def PLN_ECC_STAT.CORR : Fld := ⟨PLN_ECC_STAT, 0, 16⟩
def PLN_ECC_STAT.UNCORR : Fld := ⟨PLN_ECC_STAT, 16, 8⟩
/-- PLN_ECC_ADDR: Last uncorrectable line (02). -/
def PLN_ECC_ADDR : Nat := 0x40200044
def PLN_ECC_ADDR.OFFSET : Fld := ⟨PLN_ECC_ADDR, 0, 25⟩
/-- PLN_WIN_VIOL: Safety window write refusals (02). -/
def PLN_WIN_VIOL : Nat := 0x40200050
def PLN_WIN_VIOL.COUNT : Fld := ⟨PLN_WIN_VIOL, 0, 16⟩
def PLN_WIN_VIOL.PORT : Fld := ⟨PLN_WIN_VIOL, 16, 5⟩
/-- PLN_WAITMAXn: Longest grant wait of port 0 to 23 (02). -/
def PLN_WAITMAX (n : Nat) : Nat := 0x40200100 + 0x4 * n
def PLN_WAITMAX.MAX (n : Nat) : Fld := ⟨PLN_WAITMAX n, 0, 16⟩
/-- SCH_DESC_BASE: Descriptor store base (03). -/
def SCH_DESC_BASE : Nat := 0x40300000
def SCH_DESC_BASE.BASE : Fld := ⟨SCH_DESC_BASE, 17, 8⟩
/-- SCH_FLOW_BASE: Flow table base (03). -/
def SCH_FLOW_BASE : Nat := 0x40300004
def SCH_FLOW_BASE.BASE : Fld := ⟨SCH_FLOW_BASE, 12, 13⟩
/-- SCH_QUOTA0: Class quotas (03). -/
def SCH_QUOTA0 : Nat := 0x40300010
def SCH_QUOTA0.QA : Fld := ⟨SCH_QUOTA0, 0, 13⟩
def SCH_QUOTA0.QB : Fld := ⟨SCH_QUOTA0, 16, 13⟩
/-- SCH_QUOTA1: Class quotas (03). -/
def SCH_QUOTA1 : Nat := 0x40300014
def SCH_QUOTA1.QA : Fld := ⟨SCH_QUOTA1, 0, 13⟩
def SCH_QUOTA1.QB : Fld := ⟨SCH_QUOTA1, 16, 13⟩
/-- SCH_QUOTA2: Class quotas (03). -/
def SCH_QUOTA2 : Nat := 0x40300018
def SCH_QUOTA2.QA : Fld := ⟨SCH_QUOTA2, 0, 13⟩
def SCH_QUOTA2.QB : Fld := ⟨SCH_QUOTA2, 16, 13⟩
/-- SCH_RESERVE: Reserved engines (03). -/
def SCH_RESERVE : Nat := 0x40300020
def SCH_RESERVE.LANE : Fld := ⟨SCH_RESERVE, 0, 8⟩
def SCH_RESERVE.LOGIC : Fld := ⟨SCH_RESERVE, 8, 4⟩
/-- SCH_OCCn: Class occupancy (03). -/
def SCH_OCC (n : Nat) : Nat := 0x4030002C + 0x4 * n
def SCH_OCC.NOW (n : Nat) : Fld := ⟨SCH_OCC n, 0, 13⟩
def SCH_OCC.PEAK (n : Nat) : Fld := ⟨SCH_OCC n, 16, 13⟩
/-- SCH_REFUSEn: Refused releases (03). -/
def SCH_REFUSE (n : Nat) : Nat := 0x4030004C + 0x4 * n
def SCH_REFUSE.COUNT (n : Nat) : Fld := ⟨SCH_REFUSE n, 0, 16⟩
/-- SCH_MISS: Deadline misses (03). -/
def SCH_MISS : Nat := 0x40300070
def SCH_MISS.LANE : Fld := ⟨SCH_MISS, 0, 16⟩
def SCH_MISS.LOGIC : Fld := ⟨SCH_MISS, 16, 16⟩
/-- SCH_RUNLIM: Run-limit stops (03). -/
def SCH_RUNLIM : Nat := 0x40300074
def SCH_RUNLIM.COUNT : Fld := ⟨SCH_RUNLIM, 0, 16⟩
/-- SCH_LOAD: Pool load (03). -/
def SCH_LOAD : Nat := 0x40300078
def SCH_LOAD.LANE : Fld := ⟨SCH_LOAD, 0, 16⟩
def SCH_LOAD.LOGIC : Fld := ⟨SCH_LOAD, 16, 16⟩
/-- SCH_DLAT_MAX: Longest earliest-job dispatch latency (03). -/
def SCH_DLAT_MAX : Nat := 0x4030007C
def SCH_DLAT_MAX.LANE : Fld := ⟨SCH_DLAT_MAX, 0, 16⟩
def SCH_DLAT_MAX.LOGIC : Fld := ⟨SCH_DLAT_MAX, 16, 16⟩
/-- SCH_BOUND_EXC: Dispatch bound exceeded (03). -/
def SCH_BOUND_EXC : Nat := 0x40300080
def SCH_BOUND_EXC.LANE : Fld := ⟨SCH_BOUND_EXC, 0, 1⟩
def SCH_BOUND_EXC.LOGIC : Fld := ⟨SCH_BOUND_EXC, 1, 1⟩
/-- SCH_EVT_LATE: Late events and carried expiries (03). -/
def SCH_EVT_LATE : Nat := 0x40300084
def SCH_EVT_LATE.LATE_EVENT : Fld := ⟨SCH_EVT_LATE, 0, 16⟩
def SCH_EVT_LATE.CARRIED : Fld := ⟨SCH_EVT_LATE, 16, 16⟩
/-- SCH_NEXT: Next event (03). -/
def SCH_NEXT : Nat := 0x40300090
def SCH_NEXT.TIME : Fld := ⟨SCH_NEXT, 0, 32⟩
/-- SCH_NEXT_STAT: Next event kind (03). -/
def SCH_NEXT_STAT : Nat := 0x40300094
def SCH_NEXT_STAT.KIND : Fld := ⟨SCH_NEXT_STAT, 0, 2⟩
def SCH_NEXT_STAT.SOURCE : Fld := ⟨SCH_NEXT_STAT, 2, 2⟩
/-- SCH_CLR: Statistics clear (03). -/
def SCH_CLR : Nat := 0x403000A0
def SCH_CLR.COUNTS : Fld := ⟨SCH_CLR, 0, 1⟩
def SCH_CLR.PEAKS : Fld := ⟨SCH_CLR, 1, 1⟩
/-- SIG_DIR_BASE: Directory base (04). -/
def SIG_DIR_BASE : Nat := 0x40400000
def SIG_DIR_BASE.BASE : Fld := ⟨SIG_DIR_BASE, 20, 5⟩
/-- SIG_CUR_BASE: Plane bases (04). -/
def SIG_CUR_BASE : Nat := 0x40400004
def SIG_CUR_BASE.BASE : Fld := ⟨SIG_CUR_BASE, 16, 9⟩
/-- SIG_OUT_BASE: Plane bases (04). -/
def SIG_OUT_BASE : Nat := 0x40400008
def SIG_OUT_BASE.BASE : Fld := ⟨SIG_OUT_BASE, 16, 9⟩
/-- SIG_GRP_BASE: Consistency-group table base (04). -/
def SIG_GRP_BASE : Nat := 0x4040000C
def SIG_GRP_BASE.BASE : Fld := ⟨SIG_GRP_BASE, 14, 11⟩
/-- SIG_COUNT: Entries in use (04). -/
def SIG_COUNT : Nat := 0x40400010
def SIG_COUNT.COUNT : Fld := ⟨SIG_COUNT, 0, 15⟩
/-- SIG_NODE: Own node and position (04). -/
def SIG_NODE : Nat := 0x40400014
def SIG_NODE.NODE : Fld := ⟨SIG_NODE, 0, 18⟩
def SIG_NODE.POS : Fld := ⟨SIG_NODE, 18, 6⟩
/-- SIG_FORCE_IDX: Force entry (04). -/
def SIG_FORCE_IDX : Nat := 0x40400020
def SIG_FORCE_IDX.INDEX : Fld := ⟨SIG_FORCE_IDX, 0, 14⟩
/-- SIG_FORCE_VAL: Force value (04). -/
def SIG_FORCE_VAL : Nat := 0x40400024
def SIG_FORCE_VAL.VALUE : Fld := ⟨SIG_FORCE_VAL, 0, 32⟩
/-- SIG_FORCE_CMD: Force command (04). -/
def SIG_FORCE_CMD : Nat := 0x40400028
def SIG_FORCE_CMD.CMD : Fld := ⟨SIG_FORCE_CMD, 0, 2⟩
/-- SIG_FORCE_STAT: Force status (04). -/
def SIG_FORCE_STAT : Nat := 0x4040002C
def SIG_FORCE_STAT.RESULT : Fld := ⟨SIG_FORCE_STAT, 0, 2⟩
def SIG_FORCE_STAT.COUNT : Fld := ⟨SIG_FORCE_STAT, 16, 9⟩
/-- SIG_FORCE_SEL: Force slot select (04). -/
def SIG_FORCE_SEL : Nat := 0x40400030
def SIG_FORCE_SEL.SLOT : Fld := ⟨SIG_FORCE_SEL, 0, 8⟩
/-- SIG_FORCE_SLOT: Force slot entry (04). -/
def SIG_FORCE_SLOT : Nat := 0x40400034
def SIG_FORCE_SLOT.INDEX : Fld := ⟨SIG_FORCE_SLOT, 0, 14⟩
def SIG_FORCE_SLOT.USED : Fld := ⟨SIG_FORCE_SLOT, 31, 1⟩
/-- SIG_FORCE_SLOTVAL: Force slot value (04). -/
def SIG_FORCE_SLOTVAL : Nat := 0x40400038
def SIG_FORCE_SLOTVAL.VALUE : Fld := ⟨SIG_FORCE_SLOTVAL, 0, 32⟩
/-- SIG_TURN_STAT: Turn volume (04). -/
def SIG_TURN_STAT : Nat := 0x40400040
def SIG_TURN_STAT.LAST : Fld := ⟨SIG_TURN_STAT, 0, 15⟩
def SIG_TURN_STAT.MAX : Fld := ⟨SIG_TURN_STAT, 16, 15⟩
/-- SIG_PARK_STAT: Parking buffer (04). -/
def SIG_PARK_STAT : Nat := 0x40400044
def SIG_PARK_STAT.PEAK : Fld := ⟨SIG_PARK_STAT, 0, 9⟩
def SIG_PARK_STAT.FULL : Fld := ⟨SIG_PARK_STAT, 16, 16⟩
/-- SIG_CLR: Statistics clear (04). -/
def SIG_CLR : Nat := 0x40400050
def SIG_CLR.STATS : Fld := ⟨SIG_CLR, 0, 1⟩
/-- SEQ_CTL: Sequencer control (05). -/
def SEQ_CTL : Nat := 0x40500000
def SEQ_CTL.ARM : Fld := ⟨SEQ_CTL, 0, 1⟩
def SEQ_CTL.MASTER : Fld := ⟨SEQ_CTL, 1, 1⟩
/-- SEQ_HDR_BASE: Header table base (05). -/
def SEQ_HDR_BASE : Nat := 0x40500004
def SEQ_HDR_BASE.BASE : Fld := ⟨SEQ_HDR_BASE, 12, 13⟩
/-- SEQ_STEP_BASE: Step table base (05). -/
def SEQ_STEP_BASE : Nat := 0x40500008
def SEQ_STEP_BASE.BASE : Fld := ⟨SEQ_STEP_BASE, 20, 5⟩
/-- SEQ_ACT_BASE: Action pool base (05). -/
def SEQ_ACT_BASE : Nat := 0x4050000C
def SEQ_ACT_BASE.BASE : Fld := ⟨SEQ_ACT_BASE, 19, 6⟩
/-- SEQ_PASS_LEAD: Pass-commit lead (05). -/
def SEQ_PASS_LEAD : Nat := 0x40500010
def SEQ_PASS_LEAD.LEAD : Fld := ⟨SEQ_PASS_LEAD, 0, 4⟩
/-- SEQ_CUTOFF: Step-change cut-off (05). -/
def SEQ_CUTOFF : Nat := 0x40500014
def SEQ_CUTOFF.CYCLES : Fld := ⟨SEQ_CUTOFF, 0, 14⟩
/-- SEQ_CMD: Command (05). -/
def SEQ_CMD : Nat := 0x40500020
def SEQ_CMD.SEQ : Fld := ⟨SEQ_CMD, 0, 6⟩
def SEQ_CMD.CMD : Fld := ⟨SEQ_CMD, 8, 4⟩
def SEQ_CMD.ARG : Fld := ⟨SEQ_CMD, 16, 16⟩
/-- SEQ_CMD_STAT: Command status (05). -/
def SEQ_CMD_STAT : Nat := 0x40500024
def SEQ_CMD_STAT.BUSY : Fld := ⟨SEQ_CMD_STAT, 0, 1⟩
def SEQ_CMD_STAT.DROPPED : Fld := ⟨SEQ_CMD_STAT, 1, 1⟩
def SEQ_CMD_STAT.RESULT : Fld := ⟨SEQ_CMD_STAT, 4, 4⟩
def SEQ_CMD_STAT.SEQ : Fld := ⟨SEQ_CMD_STAT, 8, 6⟩
/-- SEQ_ACTIVE_LO: Active sequences (05). -/
def SEQ_ACTIVE_LO : Nat := 0x40500030
def SEQ_ACTIVE_LO.ACTIVE : Fld := ⟨SEQ_ACTIVE_LO, 0, 32⟩
/-- SEQ_ACTIVE_HI: Active sequences (05). -/
def SEQ_ACTIVE_HI : Nat := 0x40500034
def SEQ_ACTIVE_HI.ACTIVE : Fld := ⟨SEQ_ACTIVE_HI, 0, 32⟩
/-- SEQ_VIEW_SEL: Context view select (05). -/
def SEQ_VIEW_SEL : Nat := 0x40500040
def SEQ_VIEW_SEL.SEQ : Fld := ⟨SEQ_VIEW_SEL, 0, 6⟩
/-- SEQ_VIEW_STATE: Context state (05). -/
def SEQ_VIEW_STATE : Nat := 0x40500044
def SEQ_VIEW_STATE.STATE : Fld := ⟨SEQ_VIEW_STATE, 0, 4⟩
def SEQ_VIEW_STATE.CAUSE : Fld := ⟨SEQ_VIEW_STATE, 4, 4⟩
def SEQ_VIEW_STATE.STEP : Fld := ⟨SEQ_VIEW_STATE, 8, 13⟩
def SEQ_VIEW_STATE.ELAPSED_HI : Fld := ⟨SEQ_VIEW_STATE, 21, 1⟩
def SEQ_VIEW_STATE.DEFERRED : Fld := ⟨SEQ_VIEW_STATE, 22, 1⟩
def SEQ_VIEW_STATE.PASS_PENDING : Fld := ⟨SEQ_VIEW_STATE, 23, 1⟩
/-- SEQ_VIEW_ELAPSED: Context elapsed ticks (05). -/
def SEQ_VIEW_ELAPSED : Nat := 0x40500048
def SEQ_VIEW_ELAPSED.ELAPSED : Fld := ⟨SEQ_VIEW_ELAPSED, 0, 32⟩
/-- SEQ_LATE: Lateness (05). -/
def SEQ_LATE : Nat := 0x40500050
def SEQ_LATE.DEFER : Fld := ⟨SEQ_LATE, 0, 16⟩
def SEQ_LATE.RAMP_LATE : Fld := ⟨SEQ_LATE, 16, 16⟩
/-- SEQ_PASS_STAT: Pass-commit statistics (05). -/
def SEQ_PASS_STAT : Nat := 0x40500054
def SEQ_PASS_STAT.MISS : Fld := ⟨SEQ_PASS_STAT, 0, 16⟩
def SEQ_PASS_STAT.ABORT : Fld := ⟨SEQ_PASS_STAT, 16, 16⟩
/-- SEQ_EVAL: Evaluation duration (05). -/
def SEQ_EVAL : Nat := 0x40500058
def SEQ_EVAL.LAST : Fld := ⟨SEQ_EVAL, 0, 16⟩
def SEQ_EVAL.MAX : Fld := ⟨SEQ_EVAL, 16, 16⟩
/-- SEQ_RAMP_STAT: Ramp slots (05). -/
def SEQ_RAMP_STAT : Nat := 0x4050005C
def SEQ_RAMP_STAT.USED : Fld := ⟨SEQ_RAMP_STAT, 0, 9⟩
def SEQ_RAMP_STAT.PEAK : Fld := ⟨SEQ_RAMP_STAT, 16, 9⟩
/-- SEQ_RAMP_FULL: Ramps without a slot (05). -/
def SEQ_RAMP_FULL : Nat := 0x40500060
def SEQ_RAMP_FULL.COUNT : Fld := ⟨SEQ_RAMP_FULL, 0, 16⟩
/-- SEQ_CLR: Statistics clear (05). -/
def SEQ_CLR : Nat := 0x40500070
def SEQ_CLR.COUNTS : Fld := ⟨SEQ_CLR, 0, 1⟩
def SEQ_CLR.PEAKS : Fld := ⟨SEQ_CLR, 1, 1⟩
/-- LOOP_TBL_BASE: Loop table base (06). -/
def LOOP_TBL_BASE : Nat := 0x40600000
def LOOP_TBL_BASE.BASE : Fld := ⟨LOOP_TBL_BASE, 17, 8⟩
/-- LOOP_COUNT: Slots in use (06). -/
def LOOP_COUNT : Nat := 0x40600004
def LOOP_COUNT.COUNT : Fld := ⟨LOOP_COUNT, 0, 11⟩
/-- LOOP_CMD: Loop command (06). -/
def LOOP_CMD : Nat := 0x40600010
def LOOP_CMD.SLOT : Fld := ⟨LOOP_CMD, 0, 10⟩
def LOOP_CMD.OP : Fld := ⟨LOOP_CMD, 12, 3⟩
def LOOP_CMD.VALUE : Fld := ⟨LOOP_CMD, 16, 16⟩
/-- LOOP_CMD_STAT: Command status (06). -/
def LOOP_CMD_STAT : Nat := 0x40600014
def LOOP_CMD_STAT.BUSY : Fld := ⟨LOOP_CMD_STAT, 0, 1⟩
def LOOP_CMD_STAT.DROPPED : Fld := ⟨LOOP_CMD_STAT, 1, 1⟩
def LOOP_CMD_STAT.RESULT : Fld := ⟨LOOP_CMD_STAT, 4, 3⟩
def LOOP_CMD_STAT.SLOT : Fld := ⟨LOOP_CMD_STAT, 16, 10⟩
/-- LOOP_VIEW_SEL: Slot view select (06). -/
def LOOP_VIEW_SEL : Nat := 0x40600020
def LOOP_VIEW_SEL.SLOT : Fld := ⟨LOOP_VIEW_SEL, 0, 10⟩
/-- LOOP_VIEW: Slot state (06). -/
def LOOP_VIEW : Nat := 0x40600024
def LOOP_VIEW.MODE : Fld := ⟨LOOP_VIEW, 0, 3⟩
def LOOP_VIEW.REQ : Fld := ⟨LOOP_VIEW, 3, 3⟩
def LOOP_VIEW.PEND : Fld := ⟨LOOP_VIEW, 6, 1⟩
def LOOP_VIEW.SADDLE : Fld := ⟨LOOP_VIEW, 7, 1⟩
def LOOP_VIEW.SEL : Fld := ⟨LOOP_VIEW, 8, 1⟩
def LOOP_VIEW.FAULT : Fld := ⟨LOOP_VIEW, 9, 1⟩
def LOOP_VIEW.STOPPED : Fld := ⟨LOOP_VIEW, 10, 1⟩
def LOOP_VIEW.CONSEC : Fld := ⟨LOOP_VIEW, 11, 2⟩
def LOOP_VIEW.ACTIVE : Fld := ⟨LOOP_VIEW, 13, 1⟩
/-- LOOP_VIEW_OVR: Slot overruns (06). -/
def LOOP_VIEW_OVR : Nat := 0x40600028
def LOOP_VIEW_OVR.COUNT : Fld := ⟨LOOP_VIEW_OVR, 0, 16⟩
/-- LOOP_OVR: Overruns (06). -/
def LOOP_OVR : Nat := 0x40600030
def LOOP_OVR.REFUSED : Fld := ⟨LOOP_OVR, 0, 16⟩
def LOOP_OVR.STOPPED : Fld := ⟨LOOP_OVR, 16, 16⟩
/-- LOOP_FAULT: Fault summary (06). -/
def LOOP_FAULT : Nat := 0x40600034
def LOOP_FAULT.COUNT : Fld := ⟨LOOP_FAULT, 0, 11⟩
def LOOP_FAULT.FIRST : Fld := ⟨LOOP_FAULT, 16, 10⟩
def LOOP_FAULT.VALID : Fld := ⟨LOOP_FAULT, 26, 1⟩
/-- LOOP_DUE: Releases per boundary (06). -/
def LOOP_DUE : Nat := 0x40600038
def LOOP_DUE.LAST : Fld := ⟨LOOP_DUE, 0, 10⟩
def LOOP_DUE.MAX : Fld := ⟨LOOP_DUE, 16, 10⟩
/-- LOOP_REQ: Request statistics (06). -/
def LOOP_REQ : Nat := 0x4060003C
def LOOP_REQ.REFUSED : Fld := ⟨LOOP_REQ, 0, 16⟩
def LOOP_REQ.CARRIED : Fld := ⟨LOOP_REQ, 16, 16⟩
/-- LOOP_CLR: Statistics clear (06). -/
def LOOP_CLR : Nat := 0x40600040
def LOOP_CLR.COUNTS : Fld := ⟨LOOP_CLR, 0, 1⟩
def LOOP_CLR.PEAKS : Fld := ⟨LOOP_CLR, 1, 1⟩
/-- LANE_VKER: Vendor kernel revision (07). -/
def LANE_VKER : Nat := 0x40700000
def LANE_VKER.REV : Fld := ⟨LANE_VKER, 0, 16⟩
/-- LANE_MEM_SEL: Memory window select (07). -/
def LANE_MEM_SEL : Nat := 0x40700010
def LANE_MEM_SEL.LANE : Fld := ⟨LANE_MEM_SEL, 0, 3⟩
def LANE_MEM_SEL.MEM : Fld := ⟨LANE_MEM_SEL, 4, 2⟩
/-- LANE_MEM_ADDR: Memory window address (07). -/
def LANE_MEM_ADDR : Nat := 0x40700014
def LANE_MEM_ADDR.ADDR : Fld := ⟨LANE_MEM_ADDR, 0, 15⟩
/-- LANE_MEM_DATA: Memory window data (07). -/
def LANE_MEM_DATA : Nat := 0x40700018
def LANE_MEM_DATA.DATA : Fld := ⟨LANE_MEM_DATA, 0, 32⟩
/-- LANE_INH: Inhibit requests (07). -/
def LANE_INH : Nat := 0x40700020
def LANE_INH.REQ : Fld := ⟨LANE_INH, 0, 8⟩
/-- LANE_CLR: Statistics clear (07). -/
def LANE_CLR : Nat := 0x40700030
def LANE_CLR.COUNTS : Fld := ⟨LANE_CLR, 0, 1⟩
def LANE_CLR.PEAKS : Fld := ⟨LANE_CLR, 1, 1⟩
/-- LANE_CFGn: Lane configuration (07). -/
def LANE_CFG (n : Nat) : Nat := 0x40700100 + 0x20 * n
def LANE_CFG.RES_EN (n : Nat) : Fld := ⟨LANE_CFG n, 0, 1⟩
def LANE_CFG.STREAM_EN (n : Nat) : Fld := ⟨LANE_CFG n, 1, 1⟩
def LANE_CFG.GROUP (n : Nat) : Fld := ⟨LANE_CFG n, 2, 2⟩
def LANE_CFG.INH_EN (n : Nat) : Fld := ⟨LANE_CFG n, 4, 1⟩
def LANE_CFG.RES_ENTRY (n : Nat) : Fld := ⟨LANE_CFG n, 16, 12⟩
/-- LANE_STATn: Lane state (07). -/
def LANE_STAT (n : Nat) : Nat := 0x40700104 + 0x20 * n
def LANE_STAT.STATE (n : Nat) : Fld := ⟨LANE_STAT n, 0, 2⟩
def LANE_STAT.SET (n : Nat) : Fld := ⟨LANE_STAT n, 2, 1⟩
def LANE_STAT.PC (n : Nat) : Fld := ⟨LANE_STAT n, 4, 12⟩
def LANE_STAT.LAST_END (n : Nat) : Fld := ⟨LANE_STAT n, 16, 2⟩
/-- LANE_STRMn: Stream FIFO (07). -/
def LANE_STRM (n : Nat) : Nat := 0x40700108 + 0x20 * n
def LANE_STRM.LEVEL (n : Nat) : Fld := ⟨LANE_STRM n, 0, 7⟩
def LANE_STRM.PEAK (n : Nat) : Fld := ⟨LANE_STRM n, 8, 7⟩
def LANE_STRM.DROP (n : Nat) : Fld := ⟨LANE_STRM n, 16, 16⟩
/-- LANE_ERRn: Lane errors (07). -/
def LANE_ERR (n : Nat) : Nat := 0x4070010C + 0x20 * n
def LANE_ERR.DATA (n : Nat) : Fld := ⟨LANE_ERR n, 0, 16⟩
def LANE_ERR.RESTART (n : Nat) : Fld := ⟨LANE_ERR n, 16, 16⟩
/-- LOG_RET_BASE: Retained copy base (08). -/
def LOG_RET_BASE : Nat := 0x40800000
def LOG_RET_BASE.BASE : Fld := ⟨LOG_RET_BASE, 21, 4⟩
/-- LOG_BANK: Program banks (08). -/
def LOG_BANK : Nat := 0x40800004
def LOG_BANK.ACTIVE : Fld := ⟨LOG_BANK, 0, 1⟩
def LOG_BANK.LOADED : Fld := ⟨LOG_BANK, 1, 1⟩
/-- LOG_EXCH_CMD: Exchange command (08). -/
def LOG_EXCH_CMD : Nat := 0x40800008
def LOG_EXCH_CMD.CMD : Fld := ⟨LOG_EXCH_CMD, 0, 2⟩
/-- LOG_EXCH_STAT: Exchange status (08). -/
def LOG_EXCH_STAT : Nat := 0x4080000C
def LOG_EXCH_STAT.STATE : Fld := ⟨LOG_EXCH_STAT, 0, 3⟩
def LOG_EXCH_STAT.REASON : Fld := ⟨LOG_EXCH_STAT, 4, 2⟩
def LOG_EXCH_STAT.X_LO : Fld := ⟨LOG_EXCH_STAT, 16, 16⟩
/-- LOG_EXCH_TMO: Exchange time-out (08). -/
def LOG_EXCH_TMO : Nat := 0x40800010
def LOG_EXCH_TMO.MS : Fld := ⟨LOG_EXCH_TMO, 0, 16⟩
/-- LOG_TASK_CMD: Task command (08). -/
def LOG_TASK_CMD : Nat := 0x40800014
def LOG_TASK_CMD.TASK : Fld := ⟨LOG_TASK_CMD, 0, 3⟩
def LOG_TASK_CMD.OP : Fld := ⟨LOG_TASK_CMD, 4, 2⟩
/-- LOG_STAT: Logic statistics (08). -/
def LOG_STAT : Nat := 0x40800020
def LOG_STAT.STORE_REF : Fld := ⟨LOG_STAT, 0, 16⟩
def LOG_STAT.REREAD : Fld := ⟨LOG_STAT, 16, 16⟩
/-- LOG_DIV0: Division by zero (08). -/
def LOG_DIV0 : Nat := 0x40800024
def LOG_DIV0.COUNT : Fld := ⟨LOG_DIV0, 0, 16⟩
/-- LOG_CLR: Statistics clear (08). -/
def LOG_CLR : Nat := 0x40800030
def LOG_CLR.COUNTS : Fld := ⟨LOG_CLR, 0, 1⟩
def LOG_CLR.PEAKS : Fld := ⟨LOG_CLR, 1, 1⟩
/-- LOG_TASKn_CFG: Task configuration (08). -/
def LOG_TASK_CFG (n : Nat) : Nat := 0x40800100 + 0x20 * n
def LOG_TASK_CFG.ENABLE (n : Nat) : Fld := ⟨LOG_TASK_CFG n, 0, 1⟩
def LOG_TASK_CFG.PIN (n : Nat) : Fld := ⟨LOG_TASK_CFG n, 1, 1⟩
def LOG_TASK_CFG.CORE (n : Nat) : Fld := ⟨LOG_TASK_CFG n, 2, 2⟩
def LOG_TASK_CFG.PERIOD (n : Nat) : Fld := ⟨LOG_TASK_CFG n, 4, 12⟩
def LOG_TASK_CFG.WDOG (n : Nat) : Fld := ⟨LOG_TASK_CFG n, 16, 8⟩
/-- LOG_TASKn_ENTRY: Task entry (08). -/
def LOG_TASK_ENTRY (n : Nat) : Nat := 0x40800104 + 0x20 * n
def LOG_TASK_ENTRY.ENTRY (n : Nat) : Fld := ⟨LOG_TASK_ENTRY n, 0, 19⟩
/-- LOG_TASKn_PHASE: Task phase (08). -/
def LOG_TASK_PHASE (n : Nat) : Nat := 0x40800108 + 0x20 * n
def LOG_TASK_PHASE.PHASE (n : Nat) : Fld := ⟨LOG_TASK_PHASE n, 0, 15⟩
/-- LOG_TASKn_STAT: Task state (08). -/
def LOG_TASK_STAT (n : Nat) : Nat := 0x4080010C + 0x20 * n
def LOG_TASK_STAT.STATE (n : Nat) : Fld := ⟨LOG_TASK_STAT n, 0, 2⟩
def LOG_TASK_STAT.STOPPED (n : Nat) : Fld := ⟨LOG_TASK_STAT n, 2, 1⟩
def LOG_TASK_STAT.EXCHANGED (n : Nat) : Fld := ⟨LOG_TASK_STAT n, 3, 1⟩
def LOG_TASK_STAT.SKIPRUN (n : Nat) : Fld := ⟨LOG_TASK_STAT n, 8, 8⟩
/-- LOG_TASKn_TIME: Cycle duration (08). -/
def LOG_TASK_TIME (n : Nat) : Nat := 0x40800110 + 0x20 * n
def LOG_TASK_TIME.LAST (n : Nat) : Fld := ⟨LOG_TASK_TIME n, 0, 16⟩
def LOG_TASK_TIME.MAX (n : Nat) : Fld := ⟨LOG_TASK_TIME n, 16, 16⟩
/-- LOG_TASKn_OVR: Task overruns (08). -/
def LOG_TASK_OVR (n : Nat) : Nat := 0x40800114 + 0x20 * n
def LOG_TASK_OVR.SKIP (n : Nat) : Fld := ⟨LOG_TASK_OVR n, 0, 16⟩
def LOG_TASK_OVR.LATE (n : Nat) : Fld := ⟨LOG_TASK_OVR n, 16, 16⟩
/-- JRN_CFG: Journal configuration (09). -/
def JRN_CFG : Nat := 0x40900000
def JRN_CFG.EN : Fld := ⟨JRN_CFG, 0, 1⟩
def JRN_CFG.PERIOD : Fld := ⟨JRN_CFG, 4, 4⟩
def JRN_CFG.AUTO : Fld := ⟨JRN_CFG, 8, 1⟩
/-- JRN_REC_MAX: Record limit (09). -/
def JRN_REC_MAX : Nat := 0x40900004
def JRN_REC_MAX.LINES : Fld := ⟨JRN_REC_MAX, 0, 13⟩
/-- JRN_STAGE_BASE: Staging area base (09). -/
def JRN_STAGE_BASE : Nat := 0x40900008
def JRN_STAGE_BASE.BASE : Fld := ⟨JRN_STAGE_BASE, 16, 9⟩
/-- JRN_HU_R: Hold-up parameters (09). -/
def JRN_HU_R : Nat := 0x40900010
def JRN_HU_R.VALUE : Fld := ⟨JRN_HU_R, 0, 32⟩
/-- JRN_HU_K: Hold-up parameters (09). -/
def JRN_HU_K : Nat := 0x40900014
def JRN_HU_K.VALUE : Fld := ⟨JRN_HU_K, 0, 32⟩
/-- JRN_HU_VMIN: Hold-up parameters (09). -/
def JRN_HU_VMIN : Nat := 0x40900018
def JRN_HU_VMIN.VALUE : Fld := ⟨JRN_HU_VMIN, 0, 32⟩
/-- JRN_HU_EFF: Hold-up parameters (09). -/
def JRN_HU_EFF : Nat := 0x4090001C
def JRN_HU_EFF.VALUE : Fld := ⟨JRN_HU_EFF, 0, 32⟩
/-- JRN_EFIN: Finishing energy (09). -/
def JRN_EFIN : Nat := 0x40900020
def JRN_EFIN.UJ : Fld := ⟨JRN_EFIN, 0, 32⟩
/-- JRN_AUTO: Automatic resumption (09). -/
def JRN_AUTO : Nat := 0x40900024
def JRN_AUTO.DELAY : Fld := ⟨JRN_AUTO, 0, 16⟩
def JRN_AUTO.MAXDOWN : Fld := ⟨JRN_AUTO, 16, 16⟩
/-- JRN_TEST_IVL: Idle retest interval (09). -/
def JRN_TEST_IVL : Nat := 0x40900028
def JRN_TEST_IVL.S : Fld := ⟨JRN_TEST_IVL, 0, 16⟩
/-- JRN_CMD: Journal command (09). -/
def JRN_CMD : Nat := 0x40900030
def JRN_CMD.CMD : Fld := ⟨JRN_CMD, 0, 2⟩
def JRN_CMD.COPY : Fld := ⟨JRN_CMD, 2, 2⟩
/-- JRN_STATE: Journal state (09). -/
def JRN_STATE : Nat := 0x40900040
def JRN_STATE.STATE : Fld := ⟨JRN_STATE, 0, 3⟩
def JRN_STATE.ARMING : Fld := ⟨JRN_STATE, 4, 2⟩
def JRN_STATE.MIRROR_CLEAN : Fld := ⟨JRN_STATE, 6, 1⟩
def JRN_STATE.IN_FORCE : Fld := ⟨JRN_STATE, 7, 1⟩
def JRN_STATE.OUTCOME : Fld := ⟨JRN_STATE, 8, 3⟩
def JRN_STATE.COPY : Fld := ⟨JRN_STATE, 11, 2⟩
/-- JRN_GEN: Generation and last valid record (09). -/
def JRN_GEN : Nat := 0x40900044
def JRN_GEN.VALUE : Fld := ⟨JRN_GEN, 0, 32⟩
/-- JRN_SEQ: Generation and last valid record (09). -/
def JRN_SEQ : Nat := 0x40900048
def JRN_SEQ.VALUE : Fld := ⟨JRN_SEQ, 0, 32⟩
/-- JRN_POS: Ring position (09). -/
def JRN_POS : Nat := 0x4090004C
def JRN_POS.LINE : Fld := ⟨JRN_POS, 0, 17⟩
def JRN_POS.SLOT : Fld := ⟨JRN_POS, 24, 8⟩
/-- JRN_TEST: Last hold-up test (09). -/
def JRN_TEST : Nat := 0x40900050
def JRN_TEST.RESULT : Fld := ⟨JRN_TEST, 0, 3⟩
def JRN_TEST.COUNT : Fld := ⟨JRN_TEST, 16, 16⟩
/-- JRN_TEST_V0: Test figures (09). -/
def JRN_TEST_V0 : Nat := 0x40900054
def JRN_TEST_V0.VALUE : Fld := ⟨JRN_TEST_V0, 0, 32⟩
/-- JRN_TEST_V1: Test figures (09). -/
def JRN_TEST_V1 : Nat := 0x40900058
def JRN_TEST_V1.VALUE : Fld := ⟨JRN_TEST_V1, 0, 32⟩
/-- JRN_TEST_C: Test figures (09). -/
def JRN_TEST_C : Nat := 0x4090005C
def JRN_TEST_C.VALUE : Fld := ⟨JRN_TEST_C, 0, 32⟩
/-- JRN_TEST_E: Test figures (09). -/
def JRN_TEST_E : Nat := 0x40900060
def JRN_TEST_E.VALUE : Fld := ⟨JRN_TEST_E, 0, 32⟩
/-- JRN_DUR: Record duration (09). -/
def JRN_DUR : Nat := 0x40900070
def JRN_DUR.LAST : Fld := ⟨JRN_DUR, 0, 16⟩
def JRN_DUR.MAX : Fld := ⟨JRN_DUR, 16, 16⟩
/-- JRN_STAT: Journal statistics (09). -/
def JRN_STAT : Nat := 0x40900074
def JRN_STAT.CARRIED : Fld := ⟨JRN_STAT, 0, 12⟩
def JRN_STAT.SKIP : Fld := ⟨JRN_STAT, 12, 12⟩
def JRN_STAT.PF : Fld := ⟨JRN_STAT, 24, 8⟩
/-- JRN_DOWN: Downtime (09). -/
def JRN_DOWN : Nat := 0x40900078
def JRN_DOWN.S : Fld := ⟨JRN_DOWN, 0, 32⟩
/-- JRN_CLR: Statistics clear (09). -/
def JRN_CLR : Nat := 0x40900080
def JRN_CLR.COUNTS : Fld := ⟨JRN_CLR, 0, 1⟩
def JRN_CLR.PEAKS : Fld := ⟨JRN_CLR, 1, 1⟩
/-- ADC_CAL: Calibration command (10). -/
def ADC_CAL : Nat := 0x40A00000
def ADC_CAL.START : Fld := ⟨ADC_CAL, 0, 4⟩
/-- ADC_STAT: Converter status (10). -/
def ADC_STAT : Nat := 0x40A00004
def ADC_STAT.BUSY : Fld := ⟨ADC_STAT, 0, 4⟩
def ADC_STAT.FAIL : Fld := ⟨ADC_STAT, 4, 4⟩
def ADC_STAT.SUPPLY : Fld := ⟨ADC_STAT, 8, 1⟩
/-- ADC_CLR: Statistics clear (10). -/
def ADC_CLR : Nat := 0x40A00010
def ADC_CLR.COUNTS : Fld := ⟨ADC_CLR, 0, 1⟩
/-- ADC_GnCFG: Group configuration (10). -/
def ADC_GCFG (n : Nat) : Nat := 0x40A00100 + 0x100 * n
def ADC_GCFG.MODE (n : Nat) : Fld := ⟨ADC_GCFG n, 0, 2⟩
def ADC_GCFG.INPUT (n : Nat) : Fld := ⟨ADC_GCFG n, 2, 4⟩
def ADC_GCFG.SKEW_EN (n : Nat) : Fld := ⟨ADC_GCFG n, 6, 1⟩
def ADC_GCFG.MEAN (n : Nat) : Fld := ⟨ADC_GCFG n, 7, 1⟩
def ADC_GCFG.MEANK (n : Nat) : Fld := ⟨ADC_GCFG n, 8, 4⟩
def ADC_GCFG.SKEW_IMG (n : Nat) : Fld := ⟨ADC_GCFG n, 12, 1⟩
/-- ADC_GnJOB: Triggered job entry (10). -/
def ADC_GJOB (n : Nat) : Nat := 0x40A00108 + 0x100 * n
def ADC_GJOB.ENTRY (n : Nat) : Fld := ⟨ADC_GJOB n, 0, 16⟩
/-- ADC_GnTMRn: Trigger timers (10). -/
def ADC_GTMR (n i : Nat) : Nat := 0x40A00110 + 0x100 * n + 0x4 * i
def ADC_GTMR.PERIOD (n i : Nat) : Fld := ⟨ADC_GTMR n i, 0, 24⟩
def ADC_GTMR.SYNC (n i : Nat) : Fld := ⟨ADC_GTMR n i, 24, 1⟩
/-- ADC_GnSLn: Slice configuration (10). -/
def ADC_GSL (n i : Nat) : Nat := 0x40A00120 + 0x100 * n + 0x4 * i
def ADC_GSL.SEL0 (n i : Nat) : Fld := ⟨ADC_GSL n i, 0, 4⟩
def ADC_GSL.SEL1 (n i : Nat) : Fld := ⟨ADC_GSL n i, 4, 4⟩
def ADC_GSL.LIST2 (n i : Nat) : Fld := ⟨ADC_GSL n i, 8, 1⟩
def ADC_GSL.CONT (n i : Nat) : Fld := ⟨ADC_GSL n i, 9, 1⟩
def ADC_GSL.TSEL (n i : Nat) : Fld := ⟨ADC_GSL n i, 10, 4⟩
def ADC_GSL.URGENT (n i : Nat) : Fld := ⟨ADC_GSL n i, 14, 1⟩
def ADC_GSL.JOB (n i : Nat) : Fld := ⟨ADC_GSL n i, 15, 1⟩
def ADC_GSL.TRIG (n i : Nat) : Fld := ⟨ADC_GSL n i, 16, 8⟩
/-- ADC_GnDLYn: Trigger delay (10). -/
def ADC_GDLY (n i : Nat) : Nat := 0x40A00140 + 0x100 * n + 0x4 * i
def ADC_GDLY.DELAY (n i : Nat) : Fld := ⟨ADC_GDLY n i, 0, 16⟩
/-- ADC_GnCORn: Slice correction (10). -/
def ADC_GCOR (n i : Nat) : Nat := 0x40A00160 + 0x100 * n + 0x4 * i
def ADC_GCOR.OFF (n i : Nat) : Fld := ⟨ADC_GCOR n i, 0, 16⟩
def ADC_GCOR.GAIN (n i : Nat) : Fld := ⟨ADC_GCOR n i, 16, 16⟩
/-- ADC_GnSKEWn: Slice skew (10). -/
def ADC_GSKEW (n i : Nat) : Nat := 0x40A00180 + 0x100 * n + 0x4 * i
def ADC_GSKEW.SKEW (n i : Nat) : Fld := ⟨ADC_GSKEW n i, 0, 16⟩
/-- ADC_GnCNT: Group counts (10). -/
def ADC_GCNT (n : Nat) : Nat := 0x40A001C0 + 0x100 * n
def ADC_GCNT.CLIP (n : Nat) : Fld := ⟨ADC_GCNT n, 0, 16⟩
def ADC_GCNT.TRIG_OVF (n : Nat) : Fld := ⟨ADC_GCNT n, 16, 16⟩
/-- ADC_GnABT: Urgent aborts (10). -/
def ADC_GABT (n : Nat) : Nat := 0x40A001C4 + 0x100 * n
def ADC_GABT.ABORT (n : Nat) : Fld := ⟨ADC_GABT n, 0, 16⟩
/-- DAC_EN: Channel enable (10). -/
def DAC_EN : Nat := 0x40B00000
def DAC_EN.EN : Fld := ⟨DAC_EN, 0, 32⟩
/-- DAC_MODE: Hold and power-fail drive (10). -/
def DAC_MODE : Nat := 0x40B00004
def DAC_MODE.HELD : Fld := ⟨DAC_MODE, 0, 32⟩
/-- DAC_CODEn: Driven code (10). -/
def DAC_CODE (n : Nat) : Nat := 0x40B00100 + 0x4 * n
def DAC_CODE.CODE (n : Nat) : Fld := ⟨DAC_CODE n, 0, 16⟩
/-- MOT_TBL_BASE: Axis table base (11). -/
def MOT_TBL_BASE : Nat := 0x40C00000
def MOT_TBL_BASE.BASE : Fld := ⟨MOT_TBL_BASE, 11, 14⟩
/-- MOT_CMD: Axis command (11). -/
def MOT_CMD : Nat := 0x40C00010
def MOT_CMD.AXIS : Fld := ⟨MOT_CMD, 0, 5⟩
def MOT_CMD.OP : Fld := ⟨MOT_CMD, 8, 3⟩
/-- MOT_CMD_ARG: Command argument (11). -/
def MOT_CMD_ARG : Nat := 0x40C00014
def MOT_CMD_ARG.ARG : Fld := ⟨MOT_CMD_ARG, 0, 32⟩
/-- MOT_CMD_STAT: Command status (11). -/
def MOT_CMD_STAT : Nat := 0x40C00018
def MOT_CMD_STAT.BUSY : Fld := ⟨MOT_CMD_STAT, 0, 1⟩
def MOT_CMD_STAT.DROPPED : Fld := ⟨MOT_CMD_STAT, 1, 1⟩
def MOT_CMD_STAT.RESULT : Fld := ⟨MOT_CMD_STAT, 4, 4⟩
def MOT_CMD_STAT.AXIS : Fld := ⟨MOT_CMD_STAT, 8, 5⟩
/-- MOT_AXn_STAT: Axis state (11). -/
def MOT_AX_STAT (n : Nat) : Nat := 0x40C00100 + 0x10 * n
def MOT_AX_STAT.STATE (n : Nat) : Fld := ⟨MOT_AX_STAT n, 0, 3⟩
def MOT_AX_STAT.HOMED (n : Nat) : Fld := ⟨MOT_AX_STAT n, 3, 1⟩
def MOT_AX_STAT.LNEG_HELD (n : Nat) : Fld := ⟨MOT_AX_STAT n, 4, 1⟩
def MOT_AX_STAT.LPOS_HELD (n : Nat) : Fld := ⟨MOT_AX_STAT n, 5, 1⟩
def MOT_AX_STAT.STALL (n : Nat) : Fld := ⟨MOT_AX_STAT n, 6, 1⟩
def MOT_AX_STAT.RAISED (n : Nat) : Fld := ⟨MOT_AX_STAT n, 7, 1⟩
def MOT_AX_STAT.REDUCED (n : Nat) : Fld := ⟨MOT_AX_STAT n, 8, 1⟩
def MOT_AX_STAT.HSTATE (n : Nat) : Fld := ⟨MOT_AX_STAT n, 9, 3⟩
def MOT_AX_STAT.FCAUSE (n : Nat) : Fld := ⟨MOT_AX_STAT n, 12, 2⟩
def MOT_AX_STAT.LOAD (n : Nat) : Fld := ⟨MOT_AX_STAT n, 16, 16⟩
/-- MOT_AXn_POS: Step position (11). -/
def MOT_AX_POS (n : Nat) : Nat := 0x40C00104 + 0x10 * n
def MOT_AX_POS.X (n : Nat) : Fld := ⟨MOT_AX_POS n, 0, 32⟩
/-- MOT_AXn_TGT: Target in force (11). -/
def MOT_AX_TGT (n : Nat) : Nat := 0x40C00108 + 0x10 * n
def MOT_AX_TGT.T (n : Nat) : Fld := ⟨MOT_AX_TGT n, 0, 32⟩
/-- PWM_INH_STAT: Inhibit inputs (11). -/
def PWM_INH_STAT : Nat := 0x41E00000
def PWM_INH_STAT.ACTIVE : Fld := ⟨PWM_INH_STAT, 0, 8⟩
/-- PWM_INHn_LO: Inhibit masks (11). -/
def PWM_INH_LO (n : Nat) : Nat := 0x41E00010 + 0x8 * n
def PWM_INH_LO.MASK (n : Nat) : Fld := ⟨PWM_INH_LO n, 0, 32⟩
/-- PWM_INHn_HI: Inhibit masks (11). -/
def PWM_INH_HI (n : Nat) : Nat := 0x41E00014 + 0x8 * n
def PWM_INH_HI.MASK (n : Nat) : Fld := ⟨PWM_INH_HI n, 0, 32⟩
/-- PWM_CHn_CFG: Channel configuration (11). -/
def PWM_CH_CFG (n : Nat) : Nat := 0x41E00100 + 0x8 * n
def PWM_CH_CFG.MODE (n : Nat) : Fld := ⟨PWM_CH_CFG n, 0, 2⟩
def PWM_CH_CFG.PERIOD (n : Nat) : Fld := ⟨PWM_CH_CFG n, 2, 14⟩
def PWM_CH_CFG.DT (n : Nat) : Fld := ⟨PWM_CH_CFG n, 16, 8⟩
def PWM_CH_CFG.TRG (n : Nat) : Fld := ⟨PWM_CH_CFG n, 24, 2⟩
def PWM_CH_CFG.INH_LVL (n : Nat) : Fld := ⟨PWM_CH_CFG n, 26, 2⟩
/-- PWM_CHn_CMP: Channel state (11). -/
def PWM_CH_CMP (n : Nat) : Nat := 0x41E00104 + 0x8 * n
def PWM_CH_CMP.CMP (n : Nat) : Fld := ⟨PWM_CH_CMP n, 0, 14⟩
def PWM_CH_CMP.INHIBITED (n : Nat) : Fld := ⟨PWM_CH_CMP n, 14, 1⟩
def PWM_CH_CMP.HELD (n : Nat) : Fld := ⟨PWM_CH_CMP n, 15, 1⟩
/-- SDM_STAT: Input faults (11). -/
def SDM_STAT : Nat := 0x41D00000
def SDM_STAT.FAULT : Fld := ⟨SDM_STAT, 0, 32⟩
/-- SDM_CHn_CFG: Input configuration (11). -/
def SDM_CH_CFG (n : Nat) : Nat := 0x41D00100 + 0x8 * n
def SDM_CH_CFG.EN (n : Nat) : Fld := ⟨SDM_CH_CFG n, 0, 1⟩
def SDM_CH_CFG.CLK_EXT (n : Nat) : Fld := ⟨SDM_CH_CFG n, 1, 1⟩
def SDM_CH_CFG.DIV (n : Nat) : Fld := ⟨SDM_CH_CFG n, 2, 6⟩
def SDM_CH_CFG.OSR (n : Nat) : Fld := ⟨SDM_CH_CFG n, 8, 2⟩
def SDM_CH_CFG.OC_TH (n : Nat) : Fld := ⟨SDM_CH_CFG n, 16, 16⟩
/-- SDM_CHn_VAL: Input value (11). -/
def SDM_CH_VAL (n : Nat) : Nat := 0x41D00104 + 0x8 * n
def SDM_CH_VAL.VALUE (n : Nat) : Fld := ⟨SDM_CH_VAL n, 0, 16⟩
def SDM_CH_VAL.STUCK (n : Nat) : Fld := ⟨SDM_CH_VAL n, 16, 1⟩
def SDM_CH_VAL.OC (n : Nat) : Fld := ⟨SDM_CH_VAL n, 17, 1⟩
/-- POS_CMD: Command (12). -/
def POS_CMD : Nat := 0x40D00000
def POS_CMD.TARGET : Fld := ⟨POS_CMD, 0, 4⟩
def POS_CMD.OP : Fld := ⟨POS_CMD, 4, 3⟩
/-- POS_CMD_ARG: Command argument (12). -/
def POS_CMD_ARG : Nat := 0x40D00004
def POS_CMD_ARG.ARG : Fld := ⟨POS_CMD_ARG, 0, 32⟩
/-- POS_STAT: Channel faults (12). -/
def POS_STAT : Nat := 0x40D00008
def POS_STAT.ENC : Fld := ⟨POS_STAT, 0, 16⟩
def POS_STAT.WIRE : Fld := ⟨POS_STAT, 16, 16⟩
/-- POS_ENCn_CFG: Encoder configuration (12). -/
def POS_ENC_CFG (n : Nat) : Nat := 0x40D00100 + 0x10 * n
def POS_ENC_CFG.EN (n : Nat) : Fld := ⟨POS_ENC_CFG n, 0, 1⟩
def POS_ENC_CFG.FILT (n : Nat) : Fld := ⟨POS_ENC_CFG n, 1, 4⟩
def POS_ENC_CFG.DIR_INV (n : Nat) : Fld := ⟨POS_ENC_CFG n, 5, 1⟩
def POS_ENC_CFG.ZMODE (n : Nat) : Fld := ⟨POS_ENC_CFG n, 6, 2⟩
def POS_ENC_CFG.ZGATE (n : Nat) : Fld := ⟨POS_ENC_CFG n, 8, 1⟩
def POS_ENC_CFG.ILL_MAX (n : Nat) : Fld := ⟨POS_ENC_CFG n, 9, 7⟩
def POS_ENC_CFG.WIRE_T (n : Nat) : Fld := ⟨POS_ENC_CFG n, 16, 8⟩
/-- POS_ENCn_CNT: Count and Z capture (12). -/
def POS_ENC_CNT (n : Nat) : Nat := 0x40D00104 + 0x10 * n
def POS_ENC_CNT.VALUE (n : Nat) : Fld := ⟨POS_ENC_CNT n, 0, 32⟩
/-- POS_ENCn_ZCAP: Count and Z capture (12). -/
def POS_ENC_ZCAP (n : Nat) : Nat := 0x40D00108 + 0x10 * n
def POS_ENC_ZCAP.VALUE (n : Nat) : Fld := ⟨POS_ENC_ZCAP n, 0, 32⟩
/-- POS_ENCn_STAT: Encoder status (12). -/
def POS_ENC_STAT (n : Nat) : Nat := 0x40D0010C + 0x10 * n
def POS_ENC_STAT.ILLEGAL (n : Nat) : Fld := ⟨POS_ENC_STAT n, 0, 16⟩
def POS_ENC_STAT.ZSEEN (n : Nat) : Fld := ⟨POS_ENC_STAT n, 16, 1⟩
def POS_ENC_STAT.ZARMED (n : Nat) : Fld := ⟨POS_ENC_STAT n, 17, 1⟩
def POS_ENC_STAT.ENC_FAULT (n : Nat) : Fld := ⟨POS_ENC_STAT n, 18, 1⟩
def POS_ENC_STAT.WIRE_FAULT (n : Nat) : Fld := ⟨POS_ENC_STAT n, 19, 1⟩
def POS_ENC_STAT.WLINE (n : Nat) : Fld := ⟨POS_ENC_STAT n, 20, 3⟩
def POS_ENC_STAT.LOST (n : Nat) : Fld := ⟨POS_ENC_STAT n, 23, 1⟩
/-- POS_SSIn_CFG: SSI frame (12). -/
def POS_SSI_CFG (n : Nat) : Nat := 0x40D00200 + 0x10 * n
def POS_SSI_CFG.EN (n : Nat) : Fld := ⟨POS_SSI_CFG n, 0, 1⟩
def POS_SSI_CFG.GRAY (n : Nat) : Fld := ⟨POS_SSI_CFG n, 1, 1⟩
def POS_SSI_CFG.SIGN (n : Nat) : Fld := ⟨POS_SSI_CFG n, 2, 1⟩
def POS_SSI_CFG.PAR (n : Nat) : Fld := ⟨POS_SSI_CFG n, 3, 1⟩
def POS_SSI_CFG.ERR_EN (n : Nat) : Fld := ⟨POS_SSI_CFG n, 4, 1⟩
def POS_SSI_CFG.ERR_POL (n : Nat) : Fld := ⟨POS_SSI_CFG n, 5, 1⟩
def POS_SSI_CFG.LEN (n : Nat) : Fld := ⟨POS_SSI_CFG n, 6, 6⟩
def POS_SSI_CFG.POS_SHIFT (n : Nat) : Fld := ⟨POS_SSI_CFG n, 12, 6⟩
def POS_SSI_CFG.POS_BITS (n : Nat) : Fld := ⟨POS_SSI_CFG n, 18, 6⟩
def POS_SSI_CFG.ERR_BIT (n : Nat) : Fld := ⟨POS_SSI_CFG n, 24, 6⟩
/-- POS_SSIn_TIM: SSI timing (12). -/
def POS_SSI_TIM (n : Nat) : Nat := 0x40D00204 + 0x10 * n
def POS_SSI_TIM.DIV (n : Nat) : Fld := ⟨POS_SSI_TIM n, 0, 10⟩
def POS_SSI_TIM.TM (n : Nat) : Fld := ⟨POS_SSI_TIM n, 10, 6⟩
def POS_SSI_TIM.LDLY (n : Nat) : Fld := ⟨POS_SSI_TIM n, 16, 8⟩
def POS_SSI_TIM.TDIV (n : Nat) : Fld := ⟨POS_SSI_TIM n, 24, 8⟩
/-- POS_SSIn_POS: SSI position (12). -/
def POS_SSI_POS (n : Nat) : Nat := 0x40D00208 + 0x10 * n
def POS_SSI_POS.POS (n : Nat) : Fld := ⟨POS_SSI_POS n, 0, 32⟩
/-- POS_SSIn_STAT: SSI status (12). -/
def POS_SSI_STAT (n : Nat) : Nat := 0x40D0020C + 0x10 * n
def POS_SSI_STAT.ERR (n : Nat) : Fld := ⟨POS_SSI_STAT n, 0, 16⟩
def POS_SSI_STAT.LAST_ERR (n : Nat) : Fld := ⟨POS_SSI_STAT n, 16, 3⟩
def POS_SSI_STAT.FAULT (n : Nat) : Fld := ⟨POS_SSI_STAT n, 19, 1⟩
/-- POS_CMPu_CFG: Compare configuration (12). -/
def POS_CMP_CFG (n : Nat) : Nat := 0x40D00400 + 0x10 * n
def POS_CMP_CFG.SRC_KIND (n : Nat) : Fld := ⟨POS_CMP_CFG n, 0, 1⟩
def POS_CMP_CFG.SRC (n : Nat) : Fld := ⟨POS_CMP_CFG n, 1, 5⟩
def POS_CMP_CFG.DIR (n : Nat) : Fld := ⟨POS_CMP_CFG n, 6, 1⟩
def POS_CMP_CFG.CYCLIC (n : Nat) : Fld := ⟨POS_CMP_CFG n, 7, 1⟩
def POS_CMP_CFG.LEN (n : Nat) : Fld := ⟨POS_CMP_CFG n, 8, 7⟩
def POS_CMP_CFG.OUT (n : Nat) : Fld := ⟨POS_CMP_CFG n, 15, 8⟩
def POS_CMP_CFG.POL (n : Nat) : Fld := ⟨POS_CMP_CFG n, 23, 1⟩
def POS_CMP_CFG.EVT (n : Nat) : Fld := ⟨POS_CMP_CFG n, 24, 1⟩
def POS_CMP_CFG.START (n : Nat) : Fld := ⟨POS_CMP_CFG n, 25, 6⟩
/-- POS_CMPu_PW: Pulse width (12). -/
def POS_CMP_PW (n : Nat) : Nat := 0x40D00404 + 0x10 * n
def POS_CMP_PW.PW (n : Nat) : Fld := ⟨POS_CMP_PW n, 0, 16⟩
/-- POS_CMPu_STAT: Compare status (12). -/
def POS_CMP_STAT (n : Nat) : Nat := 0x40D00408 + 0x10 * n
def POS_CMP_STAT.IDX (n : Nat) : Fld := ⟨POS_CMP_STAT n, 0, 6⟩
def POS_CMP_STAT.ARMED (n : Nat) : Fld := ⟨POS_CMP_STAT n, 6, 1⟩
def POS_CMP_STAT.DONE (n : Nat) : Fld := ⟨POS_CMP_STAT n, 7, 1⟩
def POS_CMP_STAT.BEHIND (n : Nat) : Fld := ⟨POS_CMP_STAT n, 8, 1⟩
def POS_CMP_STAT.FIRES (n : Nat) : Fld := ⟨POS_CMP_STAT n, 16, 16⟩
/-- POS_CMPu_POSi: Compare list (12). -/
def POS_CMP_POS (n i : Nat) : Nat := 0x40D01000 + 0x100 * n + 0x4 * i
def POS_CMP_POS.POS (n i : Nat) : Fld := ⟨POS_CMP_POS n i, 0, 32⟩
/-- SAF_STATE: Island state (13). -/
def SAF_STATE : Nat := 0x40E00000
def SAF_STATE.STATE : Fld := ⟨SAF_STATE, 0, 3⟩
def SAF_STATE.PENDING : Fld := ⟨SAF_STATE, 3, 1⟩
def SAF_STATE.EMO : Fld := ⟨SAF_STATE, 4, 1⟩
def SAF_STATE.PF : Fld := ⟨SAF_STATE, 5, 1⟩
/-- SAF_FAULT: Latched faults (13). -/
def SAF_FAULT : Nat := 0x40E00004
def SAF_FAULT.CLOCK : Fld := ⟨SAF_FAULT, 0, 1⟩
def SAF_FAULT.LOCKSTEP : Fld := ⟨SAF_FAULT, 1, 1⟩
def SAF_FAULT.MEMORY : Fld := ⟨SAF_FAULT, 2, 1⟩
def SAF_FAULT.CONFIG_CRC : Fld := ⟨SAF_FAULT, 3, 1⟩
def SAF_FAULT.SUPPLY : Fld := ⟨SAF_FAULT, 4, 1⟩
def SAF_FAULT.TEMP : Fld := ⟨SAF_FAULT, 5, 1⟩
def SAF_FAULT.INPUT : Fld := ⟨SAF_FAULT, 8, 1⟩
def SAF_FAULT.OUTPUT : Fld := ⟨SAF_FAULT, 9, 1⟩
def SAF_FAULT.EMO_DISC : Fld := ⟨SAF_FAULT, 10, 1⟩
def SAF_FAULT.DISC : Fld := ⟨SAF_FAULT, 11, 1⟩
def SAF_FAULT.PATH : Fld := ⟨SAF_FAULT, 12, 1⟩
/-- SAF_CFG_CRC: Configuration CRCs (13). -/
def SAF_CFG_CRC : Nat := 0x40E00008
def SAF_CFG_CRC.CRC : Fld := ⟨SAF_CFG_CRC, 0, 32⟩
/-- SAF_PEND_CRC: Configuration CRCs (13). -/
def SAF_PEND_CRC : Nat := 0x40E0000C
def SAF_PEND_CRC.CRC : Fld := ⟨SAF_PEND_CRC, 0, 32⟩
/-- SAF_SCAN: Scan count (13). -/
def SAF_SCAN : Nat := 0x40E00010
def SAF_SCAN.COUNT : Fld := ⟨SAF_SCAN, 0, 32⟩
/-- SAF_SIN: Safe inputs (13). -/
def SAF_SIN : Nat := 0x40E00020
def SAF_SIN.LEVEL : Fld := ⟨SAF_SIN, 0, 24⟩
def SAF_SIN.SRC : Fld := ⟨SAF_SIN, 24, 4⟩
def SAF_SIN.EMO : Fld := ⟨SAF_SIN, 28, 2⟩
/-- SAF_SOUT: Safe outputs (13). -/
def SAF_SOUT : Nat := 0x40E00024
def SAF_SOUT.CMD : Fld := ⟨SAF_SOUT, 0, 16⟩
def SAF_SOUT.RB : Fld := ⟨SAF_SOUT, 16, 16⟩
/-- SAF_FNn: Function results (13). -/
def SAF_FN (n : Nat) : Nat := 0x40E00040 + 0x4 * n
def SAF_FN.RESULT (n : Nat) : Fld := ⟨SAF_FN n, 0, 32⟩
/-- SAF_CONN: Receive connections (13). -/
def SAF_CONN : Nat := 0x40E00060
def SAF_CONN.GOOD : Fld := ⟨SAF_CONN, 0, 32⟩
/-- SAF_MBOX: Mailbox gate (13). -/
def SAF_MBOX : Nat := 0x40E00070
def SAF_MBOX.REFUSED : Fld := ⟨SAF_MBOX, 0, 16⟩
def SAF_MBOX.REJECTED : Fld := ⟨SAF_MBOX, 16, 16⟩
/-- PAIR_CFG: Pair configuration (14). -/
def PAIR_CFG : Nat := 0x40F00000
def PAIR_CFG.EN : Fld := ⟨PAIR_CFG, 0, 1⟩
def PAIR_CFG.LINK : Fld := ⟨PAIR_CFG, 1, 2⟩
def PAIR_CFG.SILENT : Fld := ⟨PAIR_CFG, 3, 4⟩
def PAIR_CFG.PERSIST : Fld := ⟨PAIR_CFG, 7, 4⟩
def PAIR_CFG.AUTO : Fld := ⟨PAIR_CFG, 11, 1⟩
def PAIR_CFG.SHADOW : Fld := ⟨PAIR_CFG, 12, 1⟩
def PAIR_CFG.ELECT : Fld := ⟨PAIR_CFG, 13, 3⟩
def PAIR_CFG.ACT_OUT : Fld := ⟨PAIR_CFG, 16, 8⟩
def PAIR_CFG.ACT_IN : Fld := ⟨PAIR_CFG, 24, 8⟩
/-- PAIR_FATAL: Fatal event selection (14). -/
def PAIR_FATAL : Nat := 0x40F00004
def PAIR_FATAL.PLN_UNCORR : Fld := ⟨PAIR_FATAL, 0, 1⟩
def PAIR_FATAL.PLN_BOUND : Fld := ⟨PAIR_FATAL, 1, 1⟩
def PAIR_FATAL.SCH_BOUND : Fld := ⟨PAIR_FATAL, 2, 1⟩
def PAIR_FATAL.LANE_DATA : Fld := ⟨PAIR_FATAL, 3, 1⟩
def PAIR_FATAL.SAF_SAFE : Fld := ⟨PAIR_FATAL, 4, 1⟩
def PAIR_FATAL.LOOP_FAULT : Fld := ⟨PAIR_FATAL, 5, 1⟩
/-- PAIR_STAT: Pair state (14). -/
def PAIR_STAT : Nat := 0x40F00010
def PAIR_STAT.ROLE : Fld := ⟨PAIR_STAT, 0, 3⟩
def PAIR_STAT.LINK_UP : Fld := ⟨PAIR_STAT, 3, 1⟩
def PAIR_STAT.ACT_SEEN : Fld := ⟨PAIR_STAT, 4, 1⟩
def PAIR_STAT.IMAGE_MISMATCH : Fld := ⟨PAIR_STAT, 5, 1⟩
def PAIR_STAT.HELD : Fld := ⟨PAIR_STAT, 6, 1⟩
def PAIR_STAT.CAUSE : Fld := ⟨PAIR_STAT, 8, 3⟩
def PAIR_STAT.A_BAD : Fld := ⟨PAIR_STAT, 11, 1⟩
def PAIR_STAT.S_BAD : Fld := ⟨PAIR_STAT, 12, 1⟩
def PAIR_STAT.COMMON : Fld := ⟨PAIR_STAT, 13, 1⟩
def PAIR_STAT.RESULT : Fld := ⟨PAIR_STAT, 14, 2⟩
/-- PAIR_CMD: Pair command (14). -/
def PAIR_CMD : Nat := 0x40F00014
def PAIR_CMD.OP : Fld := ⟨PAIR_CMD, 0, 2⟩
/-- PAIR_CNT: Pair counts (14). -/
def PAIR_CNT : Nat := 0x40F00018
def PAIR_CNT.SWITCHES : Fld := ⟨PAIR_CNT, 0, 16⟩
def PAIR_CNT.DISAGREE : Fld := ⟨PAIR_CNT, 16, 16⟩
/-- PAIR_CLR: Statistics clear (14). -/
def PAIR_CLR : Nat := 0x40F00020
def PAIR_CLR.COUNTS : Fld := ⟨PAIR_CLR, 0, 1⟩
/-- CAS_CFG: Cascade configuration (14). -/
def CAS_CFG : Nat := 0x41000000
def CAS_CFG.PORT_EN : Fld := ⟨CAS_CFG, 0, 4⟩
def CAS_CFG.VMIN : Fld := ⟨CAS_CFG, 4, 2⟩
def CAS_CFG.VMAX : Fld := ⟨CAS_CFG, 6, 2⟩
def CAS_CFG.MASTER_TMO : Fld := ⟨CAS_CFG, 8, 8⟩
def CAS_CFG.ABORT_TMO : Fld := ⟨CAS_CFG, 16, 8⟩
/-- CAS_PORTn_STAT: Port state (14). -/
def CAS_PORT_STAT (n : Nat) : Nat := 0x41000010 + 0x4 * n
def CAS_PORT_STAT.STATE (n : Nat) : Fld := ⟨CAS_PORT_STAT n, 0, 3⟩
def CAS_PORT_STAT.VERSION (n : Nat) : Fld := ⟨CAS_PORT_STAT n, 3, 2⟩
def CAS_PORT_STAT.PAIR (n : Nat) : Fld := ⟨CAS_PORT_STAT n, 5, 1⟩
def CAS_PORT_STAT.PEER_POS (n : Nat) : Fld := ⟨CAS_PORT_STAT n, 6, 6⟩
def CAS_PORT_STAT.PEER_ROLE (n : Nat) : Fld := ⟨CAS_PORT_STAT n, 12, 2⟩
def CAS_PORT_STAT.RETRAIN (n : Nat) : Fld := ⟨CAS_PORT_STAT n, 16, 16⟩
/-- CAS_MASTER: Master presence (14). -/
def CAS_MASTER : Nat := 0x41000020
def CAS_MASTER.PRESENT : Fld := ⟨CAS_MASTER, 0, 1⟩
def CAS_MASTER.SELF : Fld := ⟨CAS_MASTER, 1, 1⟩
def CAS_MASTER.MISSED : Fld := ⟨CAS_MASTER, 8, 8⟩
def CAS_MASTER.LOST : Fld := ⟨CAS_MASTER, 16, 16⟩
/-- CAS_REACH_LO: Reachable positions (14). -/
def CAS_REACH_LO : Nat := 0x41000024
def CAS_REACH_LO.REACH : Fld := ⟨CAS_REACH_LO, 0, 32⟩
/-- CAS_REACH_HI: Reachable positions (14). -/
def CAS_REACH_HI : Nat := 0x41000028
def CAS_REACH_HI.REACH : Fld := ⟨CAS_REACH_HI, 0, 32⟩
/-- CAS_DROP: Discarded frames (14). -/
def CAS_DROP : Nat := 0x41000030
def CAS_DROP.TERRACE : Fld := ⟨CAS_DROP, 0, 16⟩
def CAS_DROP.BAD : Fld := ⟨CAS_DROP, 16, 16⟩
/-- CAS_LATE: Late signal values (14). -/
def CAS_LATE : Nat := 0x41000034
def CAS_LATE.COUNT : Fld := ⟨CAS_LATE, 0, 16⟩
/-- CAS_CLR: Statistics clear (14). -/
def CAS_CLR : Nat := 0x41000040
def CAS_CLR.COUNTS : Fld := ⟨CAS_CLR, 0, 1⟩
/-- TIM_CFG: Time configuration (15). -/
def TIM_CFG : Nat := 0x41100000
def TIM_CFG.SRC : Fld := ⟨TIM_CFG, 0, 2⟩
def TIM_CFG.PORT : Fld := ⟨TIM_CFG, 2, 1⟩
def TIM_CFG.SLEW : Fld := ⟨TIM_CFG, 4, 4⟩
def TIM_CFG.LOCK : Fld := ⟨TIM_CFG, 8, 8⟩
/-- TIM_PTP_CFG: PTP configuration (15). -/
def TIM_PTP_CFG : Nat := 0x41100004
def TIM_PTP_CFG.ROLE0 : Fld := ⟨TIM_PTP_CFG, 0, 2⟩
def TIM_PTP_CFG.ROLE1 : Fld := ⟨TIM_PTP_CFG, 2, 2⟩
def TIM_PTP_CFG.TC : Fld := ⟨TIM_PTP_CFG, 4, 1⟩
def TIM_PTP_CFG.DELAY : Fld := ⟨TIM_PTP_CFG, 5, 1⟩
def TIM_PTP_CFG.TRANSPORT : Fld := ⟨TIM_PTP_CFG, 6, 2⟩
def TIM_PTP_CFG.DOMAIN : Fld := ⟨TIM_PTP_CFG, 8, 8⟩
/-- TIM_STAT: Time status (15). -/
def TIM_STAT : Nat := 0x41100010
def TIM_STAT.STATE : Fld := ⟨TIM_STAT, 0, 3⟩
def TIM_STAT.VALID : Fld := ⟨TIM_STAT, 3, 1⟩
def TIM_STAT.PS0 : Fld := ⟨TIM_STAT, 4, 3⟩
def TIM_STAT.PS1 : Fld := ⟨TIM_STAT, 7, 3⟩
def TIM_STAT.STEP_PEND : Fld := ⟨TIM_STAT, 10, 1⟩
def TIM_STAT.NEXT_VALID : Fld := ⟨TIM_STAT, 11, 1⟩
/-- TIM_NOW_NS: Time, nanoseconds (15). -/
def TIM_NOW_NS : Nat := 0x41100014
def TIM_NOW_NS.NS : Fld := ⟨TIM_NOW_NS, 0, 30⟩
/-- TIM_NOW_SEC_LO: Time, seconds (15). -/
def TIM_NOW_SEC_LO : Nat := 0x41100018
def TIM_NOW_SEC_LO.SEC : Fld := ⟨TIM_NOW_SEC_LO, 0, 32⟩
/-- TIM_NOW_SEC_HI: Time, seconds (15). -/
def TIM_NOW_SEC_HI : Nat := 0x4110001C
def TIM_NOW_SEC_HI.SEC : Fld := ⟨TIM_NOW_SEC_HI, 0, 32⟩
/-- TIM_SHORT: Short time (15). -/
def TIM_SHORT : Nat := 0x41100020
def TIM_SHORT.SHORT : Fld := ⟨TIM_SHORT, 0, 32⟩
/-- TIM_EPOCH: Epoch (15). -/
def TIM_EPOCH : Nat := 0x41100024
def TIM_EPOCH.EPOCH : Fld := ⟨TIM_EPOCH, 0, 16⟩
def TIM_EPOCH.STEPS : Fld := ⟨TIM_EPOCH, 16, 16⟩
/-- TIM_RATE: Rate correction (15). -/
def TIM_RATE : Nat := 0x41100028
def TIM_RATE.RATE : Fld := ⟨TIM_RATE, 0, 32⟩
/-- TIM_OFFSET: Last offset (15). -/
def TIM_OFFSET : Nat := 0x4110002C
def TIM_OFFSET.NS : Fld := ⟨TIM_OFFSET, 0, 32⟩
/-- TIM_CMD: Time command (15). -/
def TIM_CMD : Nat := 0x41100030
def TIM_CMD.OP : Fld := ⟨TIM_CMD, 0, 2⟩
/-- TIM_SET_NS: Set value (15). -/
def TIM_SET_NS : Nat := 0x41100034
def TIM_SET_NS.VALUE : Fld := ⟨TIM_SET_NS, 0, 32⟩
/-- TIM_SET_SEC_LO: Set value (15). -/
def TIM_SET_SEC_LO : Nat := 0x41100038
def TIM_SET_SEC_LO.VALUE : Fld := ⟨TIM_SET_SEC_LO, 0, 32⟩
/-- TIM_SET_SEC_HI: Set value (15). -/
def TIM_SET_SEC_HI : Nat := 0x4110003C
def TIM_SET_SEC_HI.VALUE : Fld := ⟨TIM_SET_SEC_HI, 0, 32⟩
/-- TIM_NEXT: Next PTP event (15). -/
def TIM_NEXT : Nat := 0x41100040
def TIM_NEXT.TIME : Fld := ⟨TIM_NEXT, 0, 32⟩
/-- TIM_PTP_CNT: PTP counts (15). -/
def TIM_PTP_CNT : Nat := 0x41100044
def TIM_PTP_CNT.TWO_STEP : Fld := ⟨TIM_PTP_CNT, 0, 16⟩
def TIM_PTP_CNT.RX_BAD : Fld := ⟨TIM_PTP_CNT, 16, 16⟩
/-- NET_CFG: Switch configuration (16). -/
def NET_CFG : Nat := 0x41200000
def NET_CFG.DOM_AF : Fld := ⟨NET_CFG, 0, 2⟩
def NET_CFG.AGE : Fld := ⟨NET_CFG, 8, 8⟩
/-- NET_BUF_BASE: Buffer region base (16). -/
def NET_BUF_BASE : Nat := 0x41200004
def NET_BUF_BASE.BASE : Fld := ⟨NET_BUF_BASE, 21, 4⟩
/-- NET_GCL_SEL: Gate list select (16). -/
def NET_GCL_SEL : Nat := 0x41200010
def NET_GCL_SEL.PORT : Fld := ⟨NET_GCL_SEL, 0, 3⟩
def NET_GCL_SEL.ENTRY : Fld := ⟨NET_GCL_SEL, 3, 6⟩
def NET_GCL_SEL.SWAP : Fld := ⟨NET_GCL_SEL, 9, 1⟩
/-- NET_GCL_ENTRY: Gate list entry (16). -/
def NET_GCL_ENTRY : Nat := 0x41200014
def NET_GCL_ENTRY.GATES : Fld := ⟨NET_GCL_ENTRY, 0, 8⟩
def NET_GCL_ENTRY.INTERVAL : Fld := ⟨NET_GCL_ENTRY, 8, 24⟩
/-- NET_CLR: Statistics clear (16). -/
def NET_CLR : Nat := 0x41200020
def NET_CLR.COUNTS : Fld := ⟨NET_CLR, 0, 1⟩
/-- NET_PORTn_CFG: Port configuration (16). -/
def NET_PORT_CFG (n : Nat) : Nat := 0x41200100 + 0x20 * n
def NET_PORT_CFG.EN (n : Nat) : Fld := ⟨NET_PORT_CFG n, 0, 1⟩
def NET_PORT_CFG.GCL_EN (n : Nat) : Fld := ⟨NET_PORT_CFG n, 1, 1⟩
def NET_PORT_CFG.RING (n : Nat) : Fld := ⟨NET_PORT_CFG n, 2, 1⟩
def NET_PORT_CFG.PVID (n : Nat) : Fld := ⟨NET_PORT_CFG n, 4, 12⟩
/-- NET_PORTn_GCT: Gate-list cycle (16). -/
def NET_PORT_GCT (n : Nat) : Nat := 0x41200104 + 0x20 * n
def NET_PORT_GCT.NS (n : Nat) : Fld := ⟨NET_PORT_GCT n, 0, 32⟩
/-- NET_PORTn_CNT: Port discards (16). -/
def NET_PORT_CNT (n : Nat) : Nat := 0x41200108 + 0x20 * n
def NET_PORT_CNT.AGED (n : Nat) : Fld := ⟨NET_PORT_CNT n, 0, 16⟩
def NET_PORT_CNT.NOBUF (n : Nat) : Fld := ⟨NET_PORT_CNT n, 16, 16⟩
/-- RIO_CFG: Protocol versions (16). -/
def RIO_CFG : Nat := 0x41300000
def RIO_CFG.VMIN : Fld := ⟨RIO_CFG, 0, 3⟩
def RIO_CFG.VMAX : Fld := ⟨RIO_CFG, 3, 3⟩
/-- RIO_MOD_SEL: Module view select (16). -/
def RIO_MOD_SEL : Nat := 0x41300010
def RIO_MOD_SEL.RING : Fld := ⟨RIO_MOD_SEL, 0, 2⟩
def RIO_MOD_SEL.MOD : Fld := ⟨RIO_MOD_SEL, 2, 7⟩
/-- RIO_MOD_STAT: Module state (16). -/
def RIO_MOD_STAT : Nat := 0x41300014
def RIO_MOD_STAT.STATE : Fld := ⟨RIO_MOD_STAT, 0, 3⟩
def RIO_MOD_STAT.VER : Fld := ⟨RIO_MOD_STAT, 3, 3⟩
def RIO_MOD_STAT.FWD : Fld := ⟨RIO_MOD_STAT, 8, 12⟩
def RIO_MOD_STAT.MISSRUN : Fld := ⟨RIO_MOD_STAT, 20, 4⟩
/-- RIO_CLR: Statistics clear (16). -/
def RIO_CLR : Nat := 0x41300020
def RIO_CLR.COUNTS : Fld := ⟨RIO_CLR, 0, 1⟩
/-- RIO_RINGn_CFG: Ring configuration (16). -/
def RIO_RING_CFG (n : Nat) : Nat := 0x41300100 + 0x40 * n
def RIO_RING_CFG.EN (n : Nat) : Fld := ⟨RIO_RING_CFG n, 0, 1⟩
def RIO_RING_CFG.PAIR_END (n : Nat) : Fld := ⟨RIO_RING_CFG n, 1, 1⟩
def RIO_RING_CFG.NMOD (n : Nat) : Fld := ⟨RIO_RING_CFG n, 2, 8⟩
def RIO_RING_CFG.MISS_MAX (n : Nat) : Fld := ⟨RIO_RING_CFG n, 10, 4⟩
def RIO_RING_CFG.DMAX (n : Nat) : Fld := ⟨RIO_RING_CFG n, 14, 12⟩
/-- RIO_RINGn_STAT: Ring state (16). -/
def RIO_RING_STAT (n : Nat) : Nat := 0x41300104 + 0x40 * n
def RIO_RING_STAT.STATE (n : Nat) : Fld := ⟨RIO_RING_STAT n, 0, 3⟩
def RIO_RING_STAT.DEGRADED (n : Nat) : Fld := ⟨RIO_RING_STAT n, 3, 1⟩
def RIO_RING_STAT.FOUND (n : Nat) : Fld := ⟨RIO_RING_STAT n, 4, 8⟩
def RIO_RING_STAT.D_RING (n : Nat) : Fld := ⟨RIO_RING_STAT n, 16, 12⟩
/-- RIO_RINGn_CNT: Ring frame errors (16). -/
def RIO_RING_CNT (n : Nat) : Nat := 0x41300108 + 0x40 * n
def RIO_RING_CNT.LOST (n : Nat) : Fld := ⟨RIO_RING_CNT n, 0, 16⟩
def RIO_RING_CNT.FCS (n : Nat) : Fld := ⟨RIO_RING_CNT n, 16, 16⟩
/-- CAN_TBL_BASE: Table and FIFO bases (17). -/
def CAN_TBL_BASE : Nat := 0x41400000
def CAN_TBL_BASE.BASE : Fld := ⟨CAN_TBL_BASE, 14, 11⟩
/-- CAN_FIFO_BASE: Table and FIFO bases (17). -/
def CAN_FIFO_BASE : Nat := 0x41400004
def CAN_FIFO_BASE.BASE : Fld := ⟨CAN_FIFO_BASE, 17, 8⟩
/-- CAN_CLR: Statistics clear (17). -/
def CAN_CLR : Nat := 0x41400010
def CAN_CLR.COUNTS : Fld := ⟨CAN_CLR, 0, 1⟩
/-- CAN_CTL: Controller control (17). -/
def CAN_CTL (n : Nat) : Nat := 0x41400100 + 0x40 * n
def CAN_CTL.EN (n : Nat) : Fld := ⟨CAN_CTL n, 0, 1⟩
def CAN_CTL.FD_EN (n : Nat) : Fld := ⟨CAN_CTL n, 1, 1⟩
/-- CAN_NBT: Nominal bit timing (17). -/
def CAN_NBT (n : Nat) : Nat := 0x41400104 + 0x40 * n
def CAN_NBT.BRP (n : Nat) : Fld := ⟨CAN_NBT n, 0, 8⟩
def CAN_NBT.TSEG1 (n : Nat) : Fld := ⟨CAN_NBT n, 8, 9⟩
def CAN_NBT.TSEG2 (n : Nat) : Fld := ⟨CAN_NBT n, 17, 7⟩
def CAN_NBT.SJW (n : Nat) : Fld := ⟨CAN_NBT n, 24, 7⟩
/-- CAN_DBT: Data bit timing (17). -/
def CAN_DBT (n : Nat) : Nat := 0x41400108 + 0x40 * n
def CAN_DBT.BRP (n : Nat) : Fld := ⟨CAN_DBT n, 0, 5⟩
def CAN_DBT.TSEG1 (n : Nat) : Fld := ⟨CAN_DBT n, 5, 5⟩
def CAN_DBT.TSEG2 (n : Nat) : Fld := ⟨CAN_DBT n, 10, 4⟩
def CAN_DBT.SJW (n : Nat) : Fld := ⟨CAN_DBT n, 14, 4⟩
def CAN_DBT.TDCO (n : Nat) : Fld := ⟨CAN_DBT n, 18, 7⟩
def CAN_DBT.TDC_EN (n : Nat) : Fld := ⟨CAN_DBT n, 25, 1⟩
/-- CAN_STAT: Controller state (17). -/
def CAN_STAT (n : Nat) : Nat := 0x4140010C + 0x40 * n
def CAN_STAT.STATE (n : Nat) : Fld := ⟨CAN_STAT n, 0, 2⟩
def CAN_STAT.ALONE (n : Nat) : Fld := ⟨CAN_STAT n, 2, 1⟩
def CAN_STAT.TEC (n : Nat) : Fld := ⟨CAN_STAT n, 8, 8⟩
def CAN_STAT.REC (n : Nat) : Fld := ⟨CAN_STAT n, 16, 8⟩
/-- CAN_COLL: Last collision identifier (17). -/
def CAN_COLL (n : Nat) : Nat := 0x41400110 + 0x40 * n
def CAN_COLL.ID (n : Nat) : Fld := ⟨CAN_COLL n, 0, 29⟩
def CAN_COLL.IDE (n : Nat) : Fld := ⟨CAN_COLL n, 29, 1⟩
def CAN_COLL.SEEN (n : Nat) : Fld := ⟨CAN_COLL n, 31, 1⟩
/-- CAN_TXCMD: Transmit command (17). -/
def CAN_TXCMD (n : Nat) : Nat := 0x41400114 + 0x40 * n
def CAN_TXCMD.OBJ (n : Nat) : Fld := ⟨CAN_TXCMD n, 0, 6⟩
def CAN_TXCMD.OP (n : Nat) : Fld := ⟨CAN_TXCMD n, 6, 2⟩
def CAN_TXCMD.RESULT (n : Nat) : Fld := ⟨CAN_TXCMD n, 8, 3⟩
/-- CAN_FIFO0: FIFO indices (17). -/
def CAN_FIFO0 (n : Nat) : Nat := 0x41400118 + 0x40 * n
def CAN_FIFO0.RD (n : Nat) : Fld := ⟨CAN_FIFO0 n, 0, 7⟩
def CAN_FIFO0.DIR_EN (n : Nat) : Fld := ⟨CAN_FIFO0 n, 7, 1⟩
def CAN_FIFO0.WR (n : Nat) : Fld := ⟨CAN_FIFO0 n, 8, 7⟩
/-- CAN_FIFO1: FIFO indices (17). -/
def CAN_FIFO1 (n : Nat) : Nat := 0x4140011C + 0x40 * n
def CAN_FIFO1.RD (n : Nat) : Fld := ⟨CAN_FIFO1 n, 0, 7⟩
def CAN_FIFO1.DIR_EN (n : Nat) : Fld := ⟨CAN_FIFO1 n, 7, 1⟩
def CAN_FIFO1.WR (n : Nat) : Fld := ⟨CAN_FIFO1 n, 8, 7⟩
/-- CAN_CNT: Controller counts (17). -/
def CAN_CNT (n : Nat) : Nat := 0x41400120 + 0x40 * n
def CAN_CNT.NOMATCH (n : Nat) : Fld := ⟨CAN_CNT n, 0, 8⟩
def CAN_CNT.OVF (n : Nat) : Fld := ⟨CAN_CNT n, 8, 8⟩
def CAN_CNT.RTR (n : Nat) : Fld := ⟨CAN_CNT n, 16, 8⟩
def CAN_CNT.BUSOFF (n : Nat) : Fld := ⟨CAN_CNT n, 24, 8⟩
/-- MDW_CFG: Meadow configuration (18). -/
def MDW_CFG : Nat := 0x41500000
def MDW_CFG.EN : Fld := ⟨MDW_CFG, 0, 1⟩
def MDW_CFG.TRACE_EN : Fld := ⟨MDW_CFG, 1, 1⟩
def MDW_CFG.FREE_S : Fld := ⟨MDW_CFG, 16, 16⟩
/-- MDW_SIG_BASE: Signal table base (18). -/
def MDW_SIG_BASE : Nat := 0x41500004
def MDW_SIG_BASE.BASE : Fld := ⟨MDW_SIG_BASE, 16, 9⟩
/-- MDW_SUM_BASE: Region bases (18). -/
def MDW_SUM_BASE : Nat := 0x41500008
def MDW_SUM_BASE.BASE : Fld := ⟨MDW_SUM_BASE, 21, 4⟩
/-- MDW_REC_BASE: Region bases (18). -/
def MDW_REC_BASE : Nat := 0x4150000C
def MDW_REC_BASE.BASE : Fld := ⟨MDW_REC_BASE, 21, 4⟩
/-- MDW_TRC_BASE: Region bases (18). -/
def MDW_TRC_BASE : Nat := 0x41500010
def MDW_TRC_BASE.BASE : Fld := ⟨MDW_TRC_BASE, 21, 4⟩
/-- MDW_CMD: Meadow command (18). -/
def MDW_CMD : Nat := 0x41500014
def MDW_CMD.OP : Fld := ⟨MDW_CMD, 0, 2⟩
/-- MDW_QUEUE: Staging queue (18). -/
def MDW_QUEUE : Nat := 0x41500020
def MDW_QUEUE.LEVEL : Fld := ⟨MDW_QUEUE, 0, 7⟩
def MDW_QUEUE.PEAK : Fld := ⟨MDW_QUEUE, 8, 7⟩
/-- MDW_LOST: Lost records (18). -/
def MDW_LOST : Nat := 0x41500024
def MDW_LOST.LOST_EVENTS : Fld := ⟨MDW_LOST, 0, 16⟩
def MDW_LOST.FAULT_DROPPED : Fld := ⟨MDW_LOST, 16, 16⟩
/-- MDW_SERIAL_F: Next serials (18). -/
def MDW_SERIAL_F : Nat := 0x41500028
def MDW_SERIAL_F.SERIAL : Fld := ⟨MDW_SERIAL_F, 0, 32⟩
/-- MDW_SERIAL_P: Next serials (18). -/
def MDW_SERIAL_P : Nat := 0x4150002C
def MDW_SERIAL_P.SERIAL : Fld := ⟨MDW_SERIAL_P, 0, 32⟩
/-- MDW_BASE_F: Serial bases (18). -/
def MDW_BASE_F : Nat := 0x41500030
def MDW_BASE_F.BASE : Fld := ⟨MDW_BASE_F, 0, 32⟩
/-- MDW_BASE_P: Serial bases (18). -/
def MDW_BASE_P : Nat := 0x41500034
def MDW_BASE_P.BASE : Fld := ⟨MDW_BASE_P, 0, 32⟩
/-- MDW_FOLD: Fold losses (18). -/
def MDW_FOLD : Nat := 0x41500040
def MDW_FOLD.SKIP : Fld := ⟨MDW_FOLD, 0, 16⟩
def MDW_FOLD.SUM_LOST : Fld := ⟨MDW_FOLD, 16, 16⟩
/-- MDW_TRC_LOST: Trace samples lost (18). -/
def MDW_TRC_LOST : Nat := 0x41500044
def MDW_TRC_LOST.COUNT : Fld := ⟨MDW_TRC_LOST, 0, 32⟩
/-- MDW_TRC_FRAMES: Trace frames (18). -/
def MDW_TRC_FRAMES : Nat := 0x41500048
def MDW_TRC_FRAMES.COUNT : Fld := ⟨MDW_TRC_FRAMES, 0, 32⟩
/-- MDW_CLR: Statistics clear (18). -/
def MDW_CLR : Nat := 0x41500050
def MDW_CLR.COUNTS : Fld := ⟨MDW_CLR, 0, 1⟩
def MDW_CLR.PEAKS : Fld := ⟨MDW_CLR, 1, 1⟩
/-- MDW_RD_SEL: Reader class (18). -/
def MDW_RD_SEL : Nat := 0x41500060
def MDW_RD_SEL.CLASS : Fld := ⟨MDW_RD_SEL, 0, 1⟩
/-- MDW_RD_SERIAL: Reader cursor (18). -/
def MDW_RD_SERIAL : Nat := 0x41500064
def MDW_RD_SERIAL.SERIAL : Fld := ⟨MDW_RD_SERIAL, 0, 32⟩
/-- MDW_RD_STAT: Reader status (18). -/
def MDW_RD_STAT : Nat := 0x41500068
def MDW_RD_STAT.STATUS : Fld := ⟨MDW_RD_STAT, 0, 2⟩
/-- MDW_RD_ADV: Reader advance (18). -/
def MDW_RD_ADV : Nat := 0x4150006C
def MDW_RD_ADV.ADV : Fld := ⟨MDW_RD_ADV, 0, 1⟩
/-- MDW_RD_WINn: Reader window (18). -/
def MDW_RD_WIN (n : Nat) : Nat := 0x41500080 + 0x4 * n
def MDW_RD_WIN.WORD (n : Nat) : Fld := ⟨MDW_RD_WIN n, 0, 32⟩
/-- BOOT_STAT: Loader state (19). -/
def BOOT_STAT : Nat := 0x41600000
def BOOT_STAT.STATE : Fld := ⟨BOOT_STAT, 0, 3⟩
def BOOT_STAT.MODE : Fld := ⟨BOOT_STAT, 3, 2⟩
def BOOT_STAT.COPY : Fld := ⟨BOOT_STAT, 5, 2⟩
def BOOT_STAT.CHAIN : Fld := ⟨BOOT_STAT, 7, 4⟩
/-- BOOT_ERR: Loader error (19). -/
def BOOT_ERR : Nat := 0x41600004
def BOOT_ERR.CODE : Fld := ⟨BOOT_ERR, 0, 5⟩
def BOOT_ERR.ITEM : Fld := ⟨BOOT_ERR, 16, 16⟩
/-- BOOT_COPYn: Copy results (19). -/
def BOOT_COPY (n : Nat) : Nat := 0x41600010 + 0x4 * n
def BOOT_COPY.RESULT (n : Nat) : Fld := ⟨BOOT_COPY n, 0, 5⟩
def BOOT_COPY.CHAIN (n : Nat) : Fld := ⟨BOOT_COPY n, 5, 4⟩
def BOOT_COPY.GEN (n : Nat) : Fld := ⟨BOOT_COPY n, 16, 16⟩
/-- BOOT_CMD: Loader command (19). -/
def BOOT_CMD : Nat := 0x41600020
def BOOT_CMD.OP : Fld := ⟨BOOT_CMD, 0, 3⟩
def BOOT_CMD.COPY : Fld := ⟨BOOT_CMD, 3, 2⟩
/-- BOOT_STAGE_BASE: Staging region base (19). -/
def BOOT_STAGE_BASE : Nat := 0x41600024
def BOOT_STAGE_BASE.BASE : Fld := ⟨BOOT_STAGE_BASE, 22, 3⟩
/-- BOOT_CHG: Change state (19). -/
def BOOT_CHG : Nat := 0x41600028
def BOOT_CHG.BUSY : Fld := ⟨BOOT_CHG, 0, 1⟩
def BOOT_CHG.APPLIED : Fld := ⟨BOOT_CHG, 1, 4⟩
def BOOT_CHG.X_LO : Fld := ⟨BOOT_CHG, 16, 16⟩
/-- BOOT_IDn: Image identity (19). -/
def BOOT_ID (n : Nat) : Nat := 0x41600040 + 0x4 * n
def BOOT_ID.ID (n : Nat) : Fld := ⟨BOOT_ID n, 0, 32⟩
/-- BOOT_TIME: Load duration (19). -/
def BOOT_TIME : Nat := 0x41600060
def BOOT_TIME.US : Fld := ⟨BOOT_TIME, 0, 32⟩
/-- HST_CFG: Host configuration (19). -/
def HST_CFG : Nat := 0x41700000
def HST_CFG.SHP_EN : Fld := ⟨HST_CFG, 0, 1⟩
def HST_CFG.PCIE_PRIV : Fld := ⟨HST_CFG, 1, 1⟩
def HST_CFG.IDLE : Fld := ⟨HST_CFG, 8, 8⟩
def HST_CFG.TMO : Fld := ⟨HST_CFG, 16, 16⟩
/-- HST_SESS: Sessions (19). -/
def HST_SESS : Nat := 0x41700010
def HST_SESS.OPEN : Fld := ⟨HST_SESS, 0, 16⟩
def HST_SESS.PRIV : Fld := ⟨HST_SESS, 16, 16⟩
/-- HST_CNT: Request counts (19). -/
def HST_CNT : Nat := 0x41700014
def HST_CNT.BUSY : Fld := ⟨HST_CNT, 0, 16⟩
def HST_CNT.REFUSED : Fld := ⟨HST_CNT, 16, 16⟩
/-- HST_MSIXn_MAP: Vector sources (19). -/
def HST_MSIX_MAP (n : Nat) : Nat := 0x41700100 + 0x4 * n
def HST_MSIX_MAP.SRC (n : Nat) : Fld := ⟨HST_MSIX_MAP n, 0, 4⟩
def HST_MSIX_MAP.ARG (n : Nat) : Fld := ⟨HST_MSIX_MAP n, 8, 6⟩
/-- SEC_STAT: Lifecycle status (20). -/
def SEC_STAT : Nat := 0x41800000
def SEC_STAT.LIFE : Fld := ⟨SEC_STAT, 0, 2⟩
def SEC_STAT.NEXT : Fld := ⟨SEC_STAT, 2, 2⟩
def SEC_STAT.PEND : Fld := ⟨SEC_STAT, 4, 1⟩
def SEC_STAT.RESULT : Fld := ⟨SEC_STAT, 5, 3⟩
def SEC_STAT.SVN_FLOOR : Fld := ⟨SEC_STAT, 16, 16⟩
/-- SEC_SLOTS: Filled slots (20). -/
def SEC_SLOTS : Nat := 0x41800004
def SEC_SLOTS.PUB : Fld := ⟨SEC_SLOTS, 0, 14⟩
def SEC_SLOTS.AES : Fld := ⟨SEC_SLOTS, 16, 4⟩
/-- SEC_CMD: Security command (20). -/
def SEC_CMD : Nat := 0x41800010
def SEC_CMD.OP : Fld := ⟨SEC_CMD, 0, 3⟩
def SEC_CMD.KEY : Fld := ⟨SEC_CMD, 16, 16⟩
/-- SEC_ARG: SVN argument (20). -/
def SEC_ARG : Nat := 0x41800014
def SEC_ARG.SVN : Fld := ⟨SEC_ARG, 0, 16⟩
/-- SEC_KEY_SEL: Key slot select (20). -/
def SEC_KEY_SEL : Nat := 0x41800020
def SEC_KEY_SEL.SLOT : Fld := ⟨SEC_KEY_SEL, 0, 4⟩
def SEC_KEY_SEL.AES : Fld := ⟨SEC_KEY_SEL, 4, 1⟩
def SEC_KEY_SEL.WORD : Fld := ⟨SEC_KEY_SEL, 5, 5⟩
/-- SEC_KEY_DATA: Key data (20). -/
def SEC_KEY_DATA : Nat := 0x41800024
def SEC_KEY_DATA.DATA : Fld := ⟨SEC_KEY_DATA, 0, 32⟩
/-- DBG_STAT: Debug state (20). -/
def DBG_STAT : Nat := 0x41900000
def DBG_STAT.LEVEL : Fld := ⟨DBG_STAT, 0, 2⟩
def DBG_STAT.HALTED : Fld := ⟨DBG_STAT, 2, 1⟩
def DBG_STAT.LOCKOUT : Fld := ⟨DBG_STAT, 3, 1⟩
def DBG_STAT.FAILS : Fld := ⟨DBG_STAT, 4, 2⟩
def DBG_STAT.RESULT : Fld := ⟨DBG_STAT, 6, 3⟩
/-- DBG_CMD: Debug command (20). -/
def DBG_CMD : Nat := 0x41900004
def DBG_CMD.OP : Fld := ⟨DBG_CMD, 0, 3⟩
/-- DBG_HALT: Last halt (20). -/
def DBG_HALT : Nat := 0x41900008
def DBG_HALT.TICKS : Fld := ⟨DBG_HALT, 0, 32⟩
/-- DBG_CHALn: Challenge (20). -/
def DBG_CHAL (n : Nat) : Nat := 0x41900040 + 0x4 * n
def DBG_CHAL.C (n : Nat) : Fld := ⟨DBG_CHAL n, 0, 32⟩
/-- DBG_RESPn: Response (20). -/
def DBG_RESP (n : Nat) : Nat := 0x41900080 + 0x4 * n
def DBG_RESP.SIG (n : Nat) : Fld := ⟨DBG_RESP n, 0, 32⟩
/-- PWR_CFG: Power configuration (20). -/
def PWR_CFG : Nat := 0x41A00000
def PWR_CFG.DEEPEST : Fld := ⟨PWR_CFG, 0, 3⟩
/-- PWR_WAKE: Wake lines (20). -/
def PWR_WAKE : Nat := 0x41A00004
def PWR_WAKE.LINE (k : Nat) : Fld := ⟨PWR_WAKE, 8 * k, 8⟩
/-- PWR_CMD: Power command (20). -/
def PWR_CMD : Nat := 0x41A00010
def PWR_CMD.HOLD : Fld := ⟨PWR_CMD, 0, 1⟩
/-- PWR_STAT: Power state (20). -/
def PWR_STAT : Nat := 0x41A00020
def PWR_STAT.STATE : Fld := ⟨PWR_STAT, 0, 3⟩
def PWR_STAT.LIMIT : Fld := ⟨PWR_STAT, 3, 3⟩
def PWR_STAT.LIVE : Fld := ⟨PWR_STAT, 6, 1⟩
def PWR_STAT.HIB_OK : Fld := ⟨PWR_STAT, 7, 1⟩
def PWR_STAT.CAUSE : Fld := ⟨PWR_STAT, 8, 3⟩
/-- PWR_NEXT: Next known event (20). -/
def PWR_NEXT : Nat := 0x41A00024
def PWR_NEXT.E : Fld := ⟨PWR_NEXT, 0, 32⟩
/-- PMC_CTL: Counter control (20). -/
def PMC_CTL : Nat := 0x41B00000
def PMC_CTL.EN : Fld := ⟨PMC_CTL, 0, 1⟩
def PMC_CTL.FREEZE : Fld := ⟨PMC_CTL, 1, 1⟩
def PMC_CTL.SNAP : Fld := ⟨PMC_CTL, 2, 1⟩
def PMC_CTL.CLEAR : Fld := ⟨PMC_CTL, 3, 1⟩
/-- PMC_OVF0: Wraps (20). -/
def PMC_OVF0 : Nat := 0x41B00008
def PMC_OVF0.OVF : Fld := ⟨PMC_OVF0, 0, 32⟩
/-- PMC_OVF1: Wraps (20). -/
def PMC_OVF1 : Nat := 0x41B0000C
def PMC_OVF1.OVF : Fld := ⟨PMC_OVF1, 0, 32⟩
/-- PMC_HCFG: Histogram configuration (20). -/
def PMC_HCFG : Nat := 0x41B00010
def PMC_HCFG.POOL : Fld := ⟨PMC_HCFG, 0, 1⟩
def PMC_HCFG.DSHIFT : Fld := ⟨PMC_HCFG, 1, 5⟩
def PMC_HCFG.PORT : Fld := ⟨PMC_HCFG, 8, 5⟩
def PMC_HCFG.GSHIFT : Fld := ⟨PMC_HCFG, 16, 5⟩
/-- PMC_PS_CFG: Precise sampling (20). -/
def PMC_PS_CFG : Nat := 0x41B00020
def PMC_PS_CFG.EN : Fld := ⟨PMC_PS_CFG, 0, 1⟩
def PMC_PS_CFG.WRAP : Fld := ⟨PMC_PS_CFG, 1, 1⟩
def PMC_PS_CFG.ENG : Fld := ⟨PMC_PS_CFG, 2, 12⟩
def PMC_PS_CFG.PERIOD : Fld := ⟨PMC_PS_CFG, 16, 16⟩
/-- PMC_PS_BASE: Sample buffer base (20). -/
def PMC_PS_BASE : Nat := 0x41B00024
def PMC_PS_BASE.BASE : Fld := ⟨PMC_PS_BASE, 12, 13⟩
/-- PMC_PS_STAT: Sampling status (20). -/
def PMC_PS_STAT : Nat := 0x41B00028
def PMC_PS_STAT.COUNT : Fld := ⟨PMC_PS_STAT, 0, 9⟩
def PMC_PS_STAT.NEXT : Fld := ⟨PMC_PS_STAT, 9, 7⟩
def PMC_PS_STAT.DROPPED : Fld := ⟨PMC_PS_STAT, 16, 16⟩
/-- PMC_EVTn: Event select (20). -/
def PMC_EVT (n : Nat) : Nat := 0x41B00100 + 0x4 * n
def PMC_EVT.EVENT (n : Nat) : Fld := ⟨PMC_EVT n, 0, 8⟩
def PMC_EVT.ARG (n : Nat) : Fld := ⟨PMC_EVT n, 8, 8⟩
def PMC_EVT.CHAIN (n : Nat) : Fld := ⟨PMC_EVT n, 16, 1⟩
/-- PMC_CNTn: Counters (20). -/
def PMC_CNT (n : Nat) : Nat := 0x41B00200 + 0x4 * n
def PMC_CNT.COUNT (n : Nat) : Fld := ⟨PMC_CNT n, 0, 32⟩
/-- PMC_SNAPn: Snapshot (20). -/
def PMC_SNAP (n : Nat) : Nat := 0x41B00300 + 0x4 * n
def PMC_SNAP.COUNT (n : Nat) : Fld := ⟨PMC_SNAP n, 0, 32⟩
/-- PMC_HDISPn: Histogram bins (20). -/
def PMC_HDISP (n : Nat) : Nat := 0x41B00400 + 0x4 * n
def PMC_HDISP.BIN (n : Nat) : Fld := ⟨PMC_HDISP n, 0, 32⟩
/-- PMC_HGRANTn: Histogram bins (20). -/
def PMC_HGRANT (n : Nat) : Nat := 0x41B00440 + 0x4 * n
def PMC_HGRANT.BIN (n : Nat) : Fld := ⟨PMC_HGRANT n, 0, 32⟩
/-- GPIO_DIRn: Line direction (21). -/
def GPIO_DIR (n : Nat) : Nat := 0x41C00000 + 0x4 * n
def GPIO_DIR.OUT (n : Nat) : Fld := ⟨GPIO_DIR n, 0, 32⟩
/-- GPIO_INn: Pin level (21). -/
def GPIO_IN (n : Nat) : Nat := 0x41C00020 + 0x4 * n
def GPIO_IN.LEVEL (n : Nat) : Fld := ⟨GPIO_IN n, 0, 32⟩
/-- GPIO_OUTn: Commanded level (21). -/
def GPIO_OUT (n : Nat) : Nat := 0x41C00040 + 0x4 * n
def GPIO_OUT.LEVEL (n : Nat) : Fld := ⟨GPIO_OUT n, 0, 32⟩
/-- MSI-X table word w of vector v (19, R454): four words to a vector. -/
def HST_MSIX_TAB (n i : Nat) : Nat := 0x41700800 + 0x10 * n + 4 * i
def HST_MSIX_TAB.WORD (n i : Nat) : Fld := ⟨HST_MSIX_TAB n i, 0, 32⟩
/-- MSI-X vector control of vector n, word 3 of its entry (19, R454); the Mask bit resets to 1 as the PCI Express standard that R453 names has it (PRESUMED). -/
def HST_MSIX_VCTL (n : Nat) : Nat := 0x4170080C + 0x10 * n
def HST_MSIX_VCTL.MASK (n : Nat) : Fld := ⟨HST_MSIX_VCTL n, 0, 1⟩
/-- MSI-X pending-bit array, two words (19, R454). -/
def HST_MSIX_PBA (n : Nat) : Nat := 0x41700C00 + 4 * n
def HST_MSIX_PBA.BITS (n : Nat) : Fld := ⟨HST_MSIX_PBA n, 0, 32⟩

/-- The registers of block SYS, at 0x40000000. -/
def regsSYS : List RegDesc := [
  ⟨0x40000000, 1, 0x0, 1, 0x0, [⟨4, 4, .ro, 0x0⟩, ⟨8, 4, .ro, 0x1⟩, ⟨12, 4, .ro, 0x2⟩, ⟨16, 16, .ro, 0x7400⟩]⟩,
  ⟨0x40000004, 1, 0x0, 1, 0x0, [⟨0, 32, .ro, 0x0⟩]⟩,
  ⟨0x40000008, 1, 0x0, 1, 0x0, [⟨0, 32, .ro, 0x0⟩]⟩,
  ⟨0x40000010, 1, 0x0, 1, 0x0, [⟨0, 1, .w1c, 0x1⟩, ⟨1, 1, .w1c, 0x0⟩, ⟨2, 1, .w1c, 0x0⟩, ⟨3, 1, .w1c, 0x0⟩, ⟨4, 1, .w1c, 0x0⟩, ⟨5, 1, .w1c, 0x0⟩]⟩,
  ⟨0x40000014, 1, 0x0, 1, 0x0, [⟨0, 16, .rwp, 0x0⟩]⟩,
  ⟨0x40000020, 1, 0x0, 1, 0x0, [⟨0, 32, .ro, 0x0⟩]⟩,
  ⟨0x40000024, 1, 0x0, 1, 0x0, [⟨0, 16, .ro, 0x0⟩, ⟨16, 16, .ro, 0x0⟩]⟩,
  ⟨0x40000028, 1, 0x0, 1, 0x0, [⟨0, 1, .w1s, 0x0⟩]⟩,
  ⟨0x4000002C, 1, 0x0, 1, 0x0, [⟨0, 5, .ro, 0x1F⟩, ⟨8, 5, .ro, 0x1F⟩]⟩,
  ⟨0x40000030, 1, 0x0, 1, 0x0, [⟨0, 1, .ro, 0x0⟩, ⟨1, 1, .ro, 0x0⟩]⟩]

/-- The registers of block CLK, at 0x40100000. -/
def regsCLK : List RegDesc := [
  ⟨0x40100000, 1, 0x0, 1, 0x0, [⟨0, 1, .ro, 0x0⟩, ⟨1, 1, .ro, 0x0⟩, ⟨2, 1, .ro, 0x0⟩, ⟨3, 1, .ro, 0x0⟩, ⟨4, 1, .ro, 0x0⟩, ⟨5, 1, .ro, 0x0⟩]⟩,
  ⟨0x40100004, 1, 0x0, 1, 0x0, [⟨2, 1, .w1c, 0x0⟩, ⟨3, 1, .w1c, 0x0⟩, ⟨4, 1, .w1c, 0x0⟩, ⟨5, 1, .w1c, 0x0⟩]⟩,
  ⟨0x40100010, 1, 0x0, 1, 0x0, [⟨7, 1, .rwl, 0x0⟩, ⟨8, 1, .rwl, 0x0⟩, ⟨11, 1, .rwl, 0x0⟩]⟩,
  ⟨0x40100014, 1, 0x0, 1, 0x0, [⟨0, 15, .ro, 0x6000⟩]⟩,
  ⟨0x40100020, 1, 0x0, 1, 0x0, [⟨0, 1, .w1c, 0x0⟩, ⟨1, 1, .ro, 0x0⟩, ⟨8, 5, .ro, 0x0⟩]⟩]

/-- The registers of block PLN, at 0x40200000. -/
def regsPLN : List RegDesc := [
  ⟨0x40200000, 1, 0x0, 1, 0x0, [⟨0, 8, .rwl, 0x72⟩, ⟨8, 8, .rwl, 0x2⟩, ⟨16, 8, .rwl, 0x2⟩, ⟨24, 8, .rwl, 0x1⟩]⟩,
  ⟨0x40200004, 1, 0x0, 1, 0x0, [⟨0, 8, .rwl, 0x1⟩]⟩,
  ⟨0x40200010, 1, 0x0, 1, 0x0, [⟨0, 16, .ro, 0x10⟩]⟩,
  ⟨0x40200014, 1, 0x0, 1, 0x0, [⟨0, 16, .ro, 0x30⟩]⟩,
  ⟨0x40200018, 1, 0x0, 1, 0x0, [⟨0, 16, .ro, 0x180⟩]⟩,
  ⟨0x4020001C, 1, 0x0, 1, 0x0, [⟨0, 16, .ro, 0x480⟩]⟩,
  ⟨0x40200020, 1, 0x0, 1, 0x0, [⟨0, 16, .ro, 0x300⟩]⟩,
  ⟨0x40200024, 1, 0x0, 1, 0x0, [⟨0, 16, .ro, 0x600⟩]⟩,
  ⟨0x40200030, 1, 0x0, 1, 0x0, [⟨0, 24, .w1c, 0x0⟩]⟩,
  ⟨0x40200034, 1, 0x0, 1, 0x0, [⟨0, 1, .w1s, 0x0⟩, ⟨1, 1, .w1s, 0x0⟩, ⟨2, 1, .w1s, 0x0⟩]⟩,
  ⟨0x40200040, 1, 0x0, 1, 0x0, [⟨0, 16, .ro, 0x0⟩, ⟨16, 8, .ro, 0x0⟩]⟩,
  ⟨0x40200044, 1, 0x0, 1, 0x0, [⟨0, 25, .ro, 0x0⟩]⟩,
  ⟨0x40200050, 1, 0x0, 1, 0x0, [⟨0, 16, .ro, 0x0⟩, ⟨16, 5, .ro, 0x1F⟩]⟩,
  ⟨0x40200100, 24, 0x4, 1, 0x0, [⟨0, 16, .ro, 0x0⟩]⟩]

/-- The registers of block SCH, at 0x40300000. -/
def regsSCH : List RegDesc := [
  ⟨0x40300000, 1, 0x0, 1, 0x0, [⟨17, 8, .rwl, 0x0⟩]⟩,
  ⟨0x40300004, 1, 0x0, 1, 0x0, [⟨12, 13, .rwl, 0x20⟩]⟩,
  ⟨0x40300010, 1, 0x0, 1, 0x0, [⟨0, 13, .rwl, 0x800⟩, ⟨16, 13, .rwl, 0x40⟩]⟩,
  ⟨0x40300014, 1, 0x0, 1, 0x0, [⟨0, 13, .rwl, 0x200⟩, ⟨16, 13, .rwl, 0x200⟩]⟩,
  ⟨0x40300018, 1, 0x0, 1, 0x0, [⟨0, 13, .rwl, 0x3C0⟩, ⟨16, 13, .rwl, 0x0⟩]⟩,
  ⟨0x40300020, 1, 0x0, 1, 0x0, [⟨0, 8, .rwl, 0x0⟩, ⟨8, 4, .rwl, 0x0⟩]⟩,
  ⟨0x40300030, 5, 0x4, 1, 0x0, [⟨0, 13, .ro, 0x0⟩, ⟨16, 13, .ro, 0x0⟩]⟩,
  ⟨0x40300050, 5, 0x4, 1, 0x0, [⟨0, 16, .ro, 0x0⟩]⟩,
  ⟨0x40300070, 1, 0x0, 1, 0x0, [⟨0, 16, .ro, 0x0⟩, ⟨16, 16, .ro, 0x0⟩]⟩,
  ⟨0x40300074, 1, 0x0, 1, 0x0, [⟨0, 16, .ro, 0x0⟩]⟩,
  ⟨0x40300078, 1, 0x0, 1, 0x0, [⟨0, 16, .ro, 0x0⟩, ⟨16, 16, .ro, 0x0⟩]⟩,
  ⟨0x4030007C, 1, 0x0, 1, 0x0, [⟨0, 16, .ro, 0x0⟩, ⟨16, 16, .ro, 0x0⟩]⟩,
  ⟨0x40300080, 1, 0x0, 1, 0x0, [⟨0, 1, .w1c, 0x0⟩, ⟨1, 1, .w1c, 0x0⟩]⟩,
  ⟨0x40300084, 1, 0x0, 1, 0x0, [⟨0, 16, .ro, 0x0⟩, ⟨16, 16, .ro, 0x0⟩]⟩,
  ⟨0x40300090, 1, 0x0, 1, 0x0, [⟨0, 32, .ro, 0x0⟩]⟩,
  ⟨0x40300094, 1, 0x0, 1, 0x0, [⟨0, 2, .ro, 0x0⟩, ⟨2, 2, .ro, 0x0⟩]⟩,
  ⟨0x403000A0, 1, 0x0, 1, 0x0, [⟨0, 1, .w1s, 0x0⟩, ⟨1, 1, .w1s, 0x0⟩]⟩]

/-- The registers of block SIG, at 0x40400000. -/
def regsSIG : List RegDesc := [
  ⟨0x40400000, 1, 0x0, 1, 0x0, [⟨20, 5, .rwl, 0x1⟩]⟩,
  ⟨0x40400004, 1, 0x0, 1, 0x0, [⟨16, 9, .rwl, 0x3⟩]⟩,
  ⟨0x40400008, 1, 0x0, 1, 0x0, [⟨16, 9, .rwl, 0x4⟩]⟩,
  ⟨0x4040000C, 1, 0x0, 1, 0x0, [⟨14, 11, .rwl, 0x14⟩]⟩,
  ⟨0x40400010, 1, 0x0, 1, 0x0, [⟨0, 15, .rwl, 0x0⟩]⟩,
  ⟨0x40400014, 1, 0x0, 1, 0x0, [⟨0, 18, .rwl, 0x0⟩, ⟨18, 6, .ro, 0x0⟩]⟩,
  ⟨0x40400020, 1, 0x0, 1, 0x0, [⟨0, 14, .rwp, 0x0⟩]⟩,
  ⟨0x40400024, 1, 0x0, 1, 0x0, [⟨0, 32, .rwp, 0x0⟩]⟩,
  ⟨0x40400028, 1, 0x0, 1, 0x0, [⟨0, 2, .rwp, 0x0⟩]⟩,
  ⟨0x4040002C, 1, 0x0, 1, 0x0, [⟨0, 2, .ro, 0x0⟩, ⟨16, 9, .ro, 0x0⟩]⟩,
  ⟨0x40400030, 1, 0x0, 1, 0x0, [⟨0, 8, .rw, 0x0⟩]⟩,
  ⟨0x40400034, 1, 0x0, 1, 0x0, [⟨0, 14, .ro, 0x0⟩, ⟨31, 1, .ro, 0x0⟩]⟩,
  ⟨0x40400038, 1, 0x0, 1, 0x0, [⟨0, 32, .ro, 0x0⟩]⟩,
  ⟨0x40400040, 1, 0x0, 1, 0x0, [⟨0, 15, .ro, 0x0⟩, ⟨16, 15, .ro, 0x0⟩]⟩,
  ⟨0x40400044, 1, 0x0, 1, 0x0, [⟨0, 9, .ro, 0x0⟩, ⟨16, 16, .ro, 0x0⟩]⟩,
  ⟨0x40400050, 1, 0x0, 1, 0x0, [⟨0, 1, .w1s, 0x0⟩]⟩]

/-- The registers of block SEQ, at 0x40500000. -/
def regsSEQ : List RegDesc := [
  ⟨0x40500000, 1, 0x0, 1, 0x0, [⟨0, 1, .ro, 0x0⟩, ⟨1, 1, .ro, 0x0⟩]⟩,
  ⟨0x40500004, 1, 0x0, 1, 0x0, [⟨12, 13, .rwl, 0x21⟩]⟩,
  ⟨0x40500008, 1, 0x0, 1, 0x0, [⟨20, 5, .rwl, 0x2⟩]⟩,
  ⟨0x4050000C, 1, 0x0, 1, 0x0, [⟨19, 6, .rwl, 0x6⟩]⟩,
  ⟨0x40500010, 1, 0x0, 1, 0x0, [⟨0, 4, .rwl, 0x5⟩]⟩,
  ⟨0x40500014, 1, 0x0, 1, 0x0, [⟨0, 14, .rwl, 0x1DB0⟩]⟩,
  ⟨0x40500020, 1, 0x0, 1, 0x0, [⟨0, 6, .rwp, 0x0⟩, ⟨8, 4, .rwp, 0x0⟩, ⟨16, 16, .rwp, 0x0⟩]⟩,
  ⟨0x40500024, 1, 0x0, 1, 0x0, [⟨0, 1, .ro, 0x0⟩, ⟨1, 1, .w1c, 0x0⟩, ⟨4, 4, .ro, 0x0⟩, ⟨8, 6, .ro, 0x0⟩]⟩,
  ⟨0x40500030, 1, 0x0, 1, 0x0, [⟨0, 32, .ro, 0x0⟩]⟩,
  ⟨0x40500034, 1, 0x0, 1, 0x0, [⟨0, 32, .ro, 0x0⟩]⟩,
  ⟨0x40500040, 1, 0x0, 1, 0x0, [⟨0, 6, .rw, 0x0⟩]⟩,
  ⟨0x40500044, 1, 0x0, 1, 0x0, [⟨0, 4, .ro, 0x0⟩, ⟨4, 4, .ro, 0x0⟩, ⟨8, 13, .ro, 0x0⟩, ⟨21, 1, .ro, 0x0⟩, ⟨22, 1, .ro, 0x0⟩, ⟨23, 1, .ro, 0x0⟩]⟩,
  ⟨0x40500048, 1, 0x0, 1, 0x0, [⟨0, 32, .ro, 0x0⟩]⟩,
  ⟨0x40500050, 1, 0x0, 1, 0x0, [⟨0, 16, .ro, 0x0⟩, ⟨16, 16, .ro, 0x0⟩]⟩,
  ⟨0x40500054, 1, 0x0, 1, 0x0, [⟨0, 16, .ro, 0x0⟩, ⟨16, 16, .ro, 0x0⟩]⟩,
  ⟨0x40500058, 1, 0x0, 1, 0x0, [⟨0, 16, .ro, 0x0⟩, ⟨16, 16, .ro, 0x0⟩]⟩,
  ⟨0x4050005C, 1, 0x0, 1, 0x0, [⟨0, 9, .ro, 0x0⟩, ⟨16, 9, .ro, 0x0⟩]⟩,
  ⟨0x40500060, 1, 0x0, 1, 0x0, [⟨0, 16, .ro, 0x0⟩]⟩,
  ⟨0x40500070, 1, 0x0, 1, 0x0, [⟨0, 1, .w1s, 0x0⟩, ⟨1, 1, .w1s, 0x0⟩]⟩]

/-- The registers of block LOOP, at 0x40600000. -/
def regsLOOP : List RegDesc := [
  ⟨0x40600000, 1, 0x0, 1, 0x0, [⟨17, 8, .rwl, 0x3⟩]⟩,
  ⟨0x40600004, 1, 0x0, 1, 0x0, [⟨0, 11, .rwl, 0x0⟩]⟩,
  ⟨0x40600010, 1, 0x0, 1, 0x0, [⟨0, 10, .rwp, 0x0⟩, ⟨12, 3, .rwp, 0x0⟩, ⟨16, 16, .rwp, 0x0⟩]⟩,
  ⟨0x40600014, 1, 0x0, 1, 0x0, [⟨0, 1, .ro, 0x0⟩, ⟨1, 1, .w1c, 0x0⟩, ⟨4, 3, .ro, 0x0⟩, ⟨16, 10, .ro, 0x0⟩]⟩,
  ⟨0x40600020, 1, 0x0, 1, 0x0, [⟨0, 10, .rw, 0x0⟩]⟩,
  ⟨0x40600024, 1, 0x0, 1, 0x0, [⟨0, 3, .ro, 0x0⟩, ⟨3, 3, .ro, 0x0⟩, ⟨6, 1, .ro, 0x0⟩, ⟨7, 1, .ro, 0x0⟩, ⟨8, 1, .ro, 0x0⟩, ⟨9, 1, .ro, 0x0⟩, ⟨10, 1, .ro, 0x0⟩, ⟨11, 2, .ro, 0x0⟩, ⟨13, 1, .ro, 0x0⟩]⟩,
  ⟨0x40600028, 1, 0x0, 1, 0x0, [⟨0, 16, .ro, 0x0⟩]⟩,
  ⟨0x40600030, 1, 0x0, 1, 0x0, [⟨0, 16, .ro, 0x0⟩, ⟨16, 16, .ro, 0x0⟩]⟩,
  ⟨0x40600034, 1, 0x0, 1, 0x0, [⟨0, 11, .ro, 0x0⟩, ⟨16, 10, .ro, 0x0⟩, ⟨26, 1, .ro, 0x0⟩]⟩,
  ⟨0x40600038, 1, 0x0, 1, 0x0, [⟨0, 10, .ro, 0x0⟩, ⟨16, 10, .ro, 0x0⟩]⟩,
  ⟨0x4060003C, 1, 0x0, 1, 0x0, [⟨0, 16, .ro, 0x0⟩, ⟨16, 16, .ro, 0x0⟩]⟩,
  ⟨0x40600040, 1, 0x0, 1, 0x0, [⟨0, 1, .w1s, 0x0⟩, ⟨1, 1, .w1s, 0x0⟩]⟩]

/-- The registers of block LANE, at 0x40700000. -/
def regsLANE : List RegDesc := [
  ⟨0x40700000, 1, 0x0, 1, 0x0, [⟨0, 16, .ro, 0x0⟩]⟩,
  ⟨0x40700010, 1, 0x0, 1, 0x0, [⟨0, 3, .rwp, 0x0⟩, ⟨4, 2, .rwp, 0x0⟩]⟩,
  ⟨0x40700014, 1, 0x0, 1, 0x0, [⟨0, 15, .rwp, 0x0⟩]⟩,
  ⟨0x40700018, 1, 0x0, 1, 0x0, [⟨0, 32, .rwp, 0x0⟩]⟩,
  ⟨0x40700020, 1, 0x0, 1, 0x0, [⟨0, 8, .ro, 0x0⟩]⟩,
  ⟨0x40700030, 1, 0x0, 1, 0x0, [⟨0, 1, .w1s, 0x0⟩, ⟨1, 1, .w1s, 0x0⟩]⟩,
  ⟨0x40700100, 8, 0x20, 1, 0x0, [⟨0, 1, .rwl, 0x0⟩, ⟨1, 1, .rwl, 0x0⟩, ⟨2, 2, .rwl, 0x0⟩, ⟨4, 1, .rwl, 0x0⟩, ⟨16, 12, .rwl, 0x0⟩]⟩,
  ⟨0x40700104, 8, 0x20, 1, 0x0, [⟨0, 2, .ro, 0x0⟩, ⟨2, 1, .ro, 0x0⟩, ⟨4, 12, .ro, 0x0⟩, ⟨16, 2, .ro, 0x0⟩]⟩,
  ⟨0x40700108, 8, 0x20, 1, 0x0, [⟨0, 7, .ro, 0x0⟩, ⟨8, 7, .ro, 0x0⟩, ⟨16, 16, .ro, 0x0⟩]⟩,
  ⟨0x4070010C, 8, 0x20, 1, 0x0, [⟨0, 16, .ro, 0x0⟩, ⟨16, 16, .ro, 0x0⟩]⟩]

/-- The registers of block LOG, at 0x40800000. -/
def regsLOG : List RegDesc := [
  ⟨0x40800000, 1, 0x0, 1, 0x0, [⟨21, 4, .rwl, 0x8⟩]⟩,
  ⟨0x40800004, 1, 0x0, 1, 0x0, [⟨0, 1, .ro, 0x0⟩, ⟨1, 1, .ro, 0x0⟩]⟩,
  ⟨0x40800008, 1, 0x0, 1, 0x0, [⟨0, 2, .rwp, 0x0⟩]⟩,
  ⟨0x4080000C, 1, 0x0, 1, 0x0, [⟨0, 3, .ro, 0x0⟩, ⟨4, 2, .ro, 0x0⟩, ⟨16, 16, .ro, 0x0⟩]⟩,
  ⟨0x40800010, 1, 0x0, 1, 0x0, [⟨0, 16, .rwp, 0x2710⟩]⟩,
  ⟨0x40800014, 1, 0x0, 1, 0x0, [⟨0, 3, .rwp, 0x0⟩, ⟨4, 2, .rwp, 0x0⟩]⟩,
  ⟨0x40800020, 1, 0x0, 1, 0x0, [⟨0, 16, .ro, 0x0⟩, ⟨16, 16, .ro, 0x0⟩]⟩,
  ⟨0x40800024, 1, 0x0, 1, 0x0, [⟨0, 16, .ro, 0x0⟩]⟩,
  ⟨0x40800030, 1, 0x0, 1, 0x0, [⟨0, 1, .w1s, 0x0⟩, ⟨1, 1, .w1s, 0x0⟩]⟩,
  ⟨0x40800100, 8, 0x20, 1, 0x0, [⟨0, 1, .rwl, 0x0⟩, ⟨1, 1, .rwl, 0x0⟩, ⟨2, 2, .rwl, 0x0⟩, ⟨4, 12, .rwl, 0x1⟩, ⟨16, 8, .rwl, 0x0⟩]⟩,
  ⟨0x40800104, 8, 0x20, 1, 0x0, [⟨0, 19, .rwl, 0x0⟩]⟩,
  ⟨0x40800108, 8, 0x20, 1, 0x0, [⟨0, 15, .rwl, 0x0⟩]⟩,
  ⟨0x4080010C, 8, 0x20, 1, 0x0, [⟨0, 2, .ro, 0x0⟩, ⟨2, 1, .ro, 0x0⟩, ⟨3, 1, .ro, 0x0⟩, ⟨8, 8, .ro, 0x0⟩]⟩,
  ⟨0x40800110, 8, 0x20, 1, 0x0, [⟨0, 16, .ro, 0x0⟩, ⟨16, 16, .ro, 0x0⟩]⟩,
  ⟨0x40800114, 8, 0x20, 1, 0x0, [⟨0, 16, .ro, 0x0⟩, ⟨16, 16, .ro, 0x0⟩]⟩]

/-- The registers of block JRN, at 0x40900000. -/
def regsJRN : List RegDesc := [
  ⟨0x40900000, 1, 0x0, 1, 0x0, [⟨0, 1, .rwl, 0x0⟩, ⟨4, 4, .rwl, 0x1⟩, ⟨8, 1, .rwl, 0x0⟩]⟩,
  ⟨0x40900004, 1, 0x0, 1, 0x0, [⟨0, 13, .rwl, 0x1800⟩]⟩,
  ⟨0x40900008, 1, 0x0, 1, 0x0, [⟨16, 9, .rwl, 0x8⟩]⟩,
  ⟨0x40900010, 1, 0x0, 1, 0x0, [⟨0, 32, .rwl, 0x0⟩]⟩,
  ⟨0x40900014, 1, 0x0, 1, 0x0, [⟨0, 32, .rwl, 0x0⟩]⟩,
  ⟨0x40900018, 1, 0x0, 1, 0x0, [⟨0, 32, .rwl, 0x0⟩]⟩,
  ⟨0x4090001C, 1, 0x0, 1, 0x0, [⟨0, 32, .rwl, 0x0⟩]⟩,
  ⟨0x40900020, 1, 0x0, 1, 0x0, [⟨0, 32, .rwl, 0x0⟩]⟩,
  ⟨0x40900024, 1, 0x0, 1, 0x0, [⟨0, 16, .rwl, 0x3E8⟩, ⟨16, 16, .rwl, 0x0⟩]⟩,
  ⟨0x40900028, 1, 0x0, 1, 0x0, [⟨0, 16, .rwl, 0x258⟩]⟩,
  ⟨0x40900030, 1, 0x0, 1, 0x0, [⟨0, 2, .rwp, 0x0⟩, ⟨2, 2, .rwp, 0x0⟩]⟩,
  ⟨0x40900040, 1, 0x0, 1, 0x0, [⟨0, 3, .ro, 0x0⟩, ⟨4, 2, .ro, 0x0⟩, ⟨6, 1, .ro, 0x0⟩, ⟨7, 1, .ro, 0x0⟩, ⟨8, 3, .ro, 0x0⟩, ⟨11, 2, .ro, 0x0⟩]⟩,
  ⟨0x40900044, 1, 0x0, 1, 0x0, [⟨0, 32, .ro, 0x0⟩]⟩,
  ⟨0x40900048, 1, 0x0, 1, 0x0, [⟨0, 32, .ro, 0x0⟩]⟩,
  ⟨0x4090004C, 1, 0x0, 1, 0x0, [⟨0, 17, .ro, 0x0⟩, ⟨24, 8, .ro, 0x0⟩]⟩,
  ⟨0x40900050, 1, 0x0, 1, 0x0, [⟨0, 3, .ro, 0x0⟩, ⟨16, 16, .ro, 0x0⟩]⟩,
  ⟨0x40900054, 1, 0x0, 1, 0x0, [⟨0, 32, .ro, 0x0⟩]⟩,
  ⟨0x40900058, 1, 0x0, 1, 0x0, [⟨0, 32, .ro, 0x0⟩]⟩,
  ⟨0x4090005C, 1, 0x0, 1, 0x0, [⟨0, 32, .ro, 0x0⟩]⟩,
  ⟨0x40900060, 1, 0x0, 1, 0x0, [⟨0, 32, .ro, 0x0⟩]⟩,
  ⟨0x40900070, 1, 0x0, 1, 0x0, [⟨0, 16, .ro, 0x0⟩, ⟨16, 16, .ro, 0x0⟩]⟩,
  ⟨0x40900074, 1, 0x0, 1, 0x0, [⟨0, 12, .ro, 0x0⟩, ⟨12, 12, .ro, 0x0⟩, ⟨24, 8, .ro, 0x0⟩]⟩,
  ⟨0x40900078, 1, 0x0, 1, 0x0, [⟨0, 32, .ro, 0x0⟩]⟩,
  ⟨0x40900080, 1, 0x0, 1, 0x0, [⟨0, 1, .w1s, 0x0⟩, ⟨1, 1, .w1s, 0x0⟩]⟩]

/-- The registers of block ADC, at 0x40A00000. -/
def regsADC : List RegDesc := [
  ⟨0x40A00000, 1, 0x0, 1, 0x0, [⟨0, 4, .w1s, 0x0⟩]⟩,
  ⟨0x40A00004, 1, 0x0, 1, 0x0, [⟨0, 4, .ro, 0x0⟩, ⟨4, 4, .w1c, 0x0⟩, ⟨8, 1, .ro, 0x0⟩]⟩,
  ⟨0x40A00010, 1, 0x0, 1, 0x0, [⟨0, 1, .w1s, 0x0⟩]⟩,
  ⟨0x40A00100, 4, 0x100, 1, 0x0, [⟨0, 2, .rwl, 0x0⟩, ⟨2, 4, .rwl, 0x0⟩, ⟨6, 1, .rwl, 0x0⟩, ⟨7, 1, .rwl, 0x0⟩, ⟨8, 4, .rwl, 0x0⟩, ⟨12, 1, .rwl, 0x0⟩]⟩,
  ⟨0x40A00108, 4, 0x100, 1, 0x0, [⟨0, 16, .rwl, 0x0⟩]⟩,
  ⟨0x40A00110, 4, 0x100, 4, 0x4, [⟨0, 24, .rwl, 0x0⟩, ⟨24, 1, .rwl, 0x0⟩]⟩,
  ⟨0x40A00120, 4, 0x100, 8, 0x4, [⟨0, 4, .rwl, 0x0⟩, ⟨4, 4, .rwl, 0x0⟩, ⟨8, 1, .rwl, 0x0⟩, ⟨9, 1, .rwl, 0x0⟩, ⟨10, 4, .rwl, 0x0⟩, ⟨14, 1, .rwl, 0x0⟩, ⟨15, 1, .rwl, 0x0⟩, ⟨16, 8, .rwl, 0x0⟩]⟩,
  ⟨0x40A00140, 4, 0x100, 8, 0x4, [⟨0, 16, .rwl, 0x0⟩]⟩,
  ⟨0x40A00160, 4, 0x100, 8, 0x4, [⟨0, 16, .rwp, 0x0⟩, ⟨16, 16, .rwp, 0x8000⟩]⟩,
  ⟨0x40A00180, 4, 0x100, 8, 0x4, [⟨0, 16, .rwl, 0x0⟩]⟩,
  ⟨0x40A001C0, 4, 0x100, 1, 0x0, [⟨0, 16, .ro, 0x0⟩, ⟨16, 16, .ro, 0x0⟩]⟩,
  ⟨0x40A001C4, 4, 0x100, 1, 0x0, [⟨0, 16, .ro, 0x0⟩]⟩]

/-- The registers of block DAC, at 0x40B00000. -/
def regsDAC : List RegDesc := [
  ⟨0x40B00000, 1, 0x0, 1, 0x0, [⟨0, 32, .rwl, 0x0⟩]⟩,
  ⟨0x40B00004, 1, 0x0, 1, 0x0, [⟨0, 32, .ro, 0x0⟩]⟩,
  ⟨0x40B00100, 32, 0x4, 1, 0x0, [⟨0, 16, .ro, 0x0⟩]⟩]

/-- The registers of block MOT, at 0x40C00000. -/
def regsMOT : List RegDesc := [
  ⟨0x40C00000, 1, 0x0, 1, 0x0, [⟨11, 14, .rwl, 0x44⟩]⟩,
  ⟨0x40C00010, 1, 0x0, 1, 0x0, [⟨0, 5, .rwp, 0x0⟩, ⟨8, 3, .rwp, 0x0⟩]⟩,
  ⟨0x40C00014, 1, 0x0, 1, 0x0, [⟨0, 32, .rwp, 0x0⟩]⟩,
  ⟨0x40C00018, 1, 0x0, 1, 0x0, [⟨0, 1, .ro, 0x0⟩, ⟨1, 1, .w1c, 0x0⟩, ⟨4, 4, .ro, 0x0⟩, ⟨8, 5, .ro, 0x0⟩]⟩,
  ⟨0x40C00100, 32, 0x10, 1, 0x0, [⟨0, 3, .ro, 0x0⟩, ⟨3, 1, .ro, 0x0⟩, ⟨4, 1, .ro, 0x0⟩, ⟨5, 1, .ro, 0x0⟩, ⟨6, 1, .ro, 0x0⟩, ⟨7, 1, .ro, 0x0⟩, ⟨8, 1, .ro, 0x0⟩, ⟨9, 3, .ro, 0x0⟩, ⟨12, 2, .ro, 0x0⟩, ⟨16, 16, .ro, 0x0⟩]⟩,
  ⟨0x40C00104, 32, 0x10, 1, 0x0, [⟨0, 32, .ro, 0x0⟩]⟩,
  ⟨0x40C00108, 32, 0x10, 1, 0x0, [⟨0, 32, .ro, 0x0⟩]⟩]

/-- The registers of block POS, at 0x40D00000. -/
def regsPOS : List RegDesc := [
  ⟨0x40D00000, 1, 0x0, 1, 0x0, [⟨0, 4, .rwp, 0x0⟩, ⟨4, 3, .rwp, 0x0⟩]⟩,
  ⟨0x40D00004, 1, 0x0, 1, 0x0, [⟨0, 32, .rwp, 0x0⟩]⟩,
  ⟨0x40D00008, 1, 0x0, 1, 0x0, [⟨0, 16, .w1c, 0x0⟩, ⟨16, 16, .w1c, 0x0⟩]⟩,
  ⟨0x40D00100, 16, 0x10, 1, 0x0, [⟨0, 1, .rwl, 0x0⟩, ⟨1, 4, .rwl, 0x3⟩, ⟨5, 1, .rwl, 0x0⟩, ⟨6, 2, .rwl, 0x0⟩, ⟨8, 1, .rwl, 0x0⟩, ⟨9, 7, .rwl, 0x4⟩, ⟨16, 8, .rwl, 0x14⟩]⟩,
  ⟨0x40D00104, 16, 0x10, 1, 0x0, [⟨0, 32, .ro, 0x0⟩]⟩,
  ⟨0x40D00108, 16, 0x10, 1, 0x0, [⟨0, 32, .ro, 0x0⟩]⟩,
  ⟨0x40D0010C, 16, 0x10, 1, 0x0, [⟨0, 16, .ro, 0x0⟩, ⟨16, 1, .ro, 0x0⟩, ⟨17, 1, .ro, 0x0⟩, ⟨18, 1, .ro, 0x0⟩, ⟨19, 1, .ro, 0x0⟩, ⟨20, 3, .ro, 0x0⟩, ⟨23, 1, .ro, 0x1⟩]⟩,
  ⟨0x40D00200, 8, 0x10, 1, 0x0, [⟨0, 1, .rwl, 0x0⟩, ⟨1, 1, .rwl, 0x0⟩, ⟨2, 1, .rwl, 0x0⟩, ⟨3, 1, .rwl, 0x0⟩, ⟨4, 1, .rwl, 0x0⟩, ⟨5, 1, .rwl, 0x0⟩, ⟨6, 6, .rwl, 0x19⟩, ⟨12, 6, .rwl, 0x0⟩, ⟨18, 6, .rwl, 0x19⟩, ⟨24, 6, .rwl, 0x0⟩]⟩,
  ⟨0x40D00204, 8, 0x10, 1, 0x0, [⟨0, 10, .rwl, 0x64⟩, ⟨10, 6, .rwl, 0x14⟩, ⟨16, 8, .rwl, 0x0⟩, ⟨24, 8, .rwl, 0x1⟩]⟩,
  ⟨0x40D00208, 8, 0x10, 1, 0x0, [⟨0, 32, .ro, 0x0⟩]⟩,
  ⟨0x40D0020C, 8, 0x10, 1, 0x0, [⟨0, 16, .ro, 0x0⟩, ⟨16, 3, .ro, 0x0⟩, ⟨19, 1, .ro, 0x0⟩]⟩,
  ⟨0x40D00400, 16, 0x10, 1, 0x0, [⟨0, 1, .rwl, 0x0⟩, ⟨1, 5, .rwl, 0x0⟩, ⟨6, 1, .rwl, 0x0⟩, ⟨7, 1, .rwl, 0x0⟩, ⟨8, 7, .rwl, 0x1⟩, ⟨15, 8, .rwl, 0xFF⟩, ⟨23, 1, .rwl, 0x0⟩, ⟨24, 1, .rwl, 0x0⟩, ⟨25, 6, .rwl, 0x0⟩]⟩,
  ⟨0x40D00404, 16, 0x10, 1, 0x0, [⟨0, 16, .rwl, 0xC8⟩]⟩,
  ⟨0x40D00408, 16, 0x10, 1, 0x0, [⟨0, 6, .ro, 0x0⟩, ⟨6, 1, .ro, 0x0⟩, ⟨7, 1, .ro, 0x0⟩, ⟨8, 1, .ro, 0x0⟩, ⟨16, 16, .ro, 0x0⟩]⟩,
  ⟨0x40D01000, 16, 0x100, 64, 0x4, [⟨0, 32, .rwp, 0x0⟩]⟩]

/-- The registers of block SAF, at 0x40E00000. -/
def regsSAF : List RegDesc := [
  ⟨0x40E00000, 1, 0x0, 1, 0x0, [⟨0, 3, .ro, 0x0⟩, ⟨3, 1, .ro, 0x0⟩, ⟨4, 1, .ro, 0x0⟩, ⟨5, 1, .ro, 0x0⟩]⟩,
  ⟨0x40E00004, 1, 0x0, 1, 0x0, [⟨0, 1, .ro, 0x0⟩, ⟨1, 1, .ro, 0x0⟩, ⟨2, 1, .ro, 0x0⟩, ⟨3, 1, .ro, 0x0⟩, ⟨4, 1, .ro, 0x0⟩, ⟨5, 1, .ro, 0x0⟩, ⟨8, 1, .ro, 0x0⟩, ⟨9, 1, .ro, 0x0⟩, ⟨10, 1, .ro, 0x0⟩, ⟨11, 1, .ro, 0x0⟩, ⟨12, 1, .ro, 0x0⟩]⟩,
  ⟨0x40E00008, 1, 0x0, 1, 0x0, [⟨0, 32, .ro, 0x0⟩]⟩,
  ⟨0x40E0000C, 1, 0x0, 1, 0x0, [⟨0, 32, .ro, 0x0⟩]⟩,
  ⟨0x40E00010, 1, 0x0, 1, 0x0, [⟨0, 32, .ro, 0x0⟩]⟩,
  ⟨0x40E00020, 1, 0x0, 1, 0x0, [⟨0, 24, .ro, 0x0⟩, ⟨24, 4, .ro, 0x0⟩, ⟨28, 2, .ro, 0x0⟩]⟩,
  ⟨0x40E00024, 1, 0x0, 1, 0x0, [⟨0, 16, .ro, 0x0⟩, ⟨16, 16, .ro, 0x0⟩]⟩,
  ⟨0x40E00040, 8, 0x4, 1, 0x0, [⟨0, 32, .ro, 0x0⟩]⟩,
  ⟨0x40E00060, 1, 0x0, 1, 0x0, [⟨0, 32, .ro, 0x0⟩]⟩,
  ⟨0x40E00070, 1, 0x0, 1, 0x0, [⟨0, 16, .ro, 0x0⟩, ⟨16, 16, .ro, 0x0⟩]⟩]

/-- The registers of block PAIR, at 0x40F00000. -/
def regsPAIR : List RegDesc := [
  ⟨0x40F00000, 1, 0x0, 1, 0x0, [⟨0, 1, .rwl, 0x0⟩, ⟨1, 2, .rwl, 0x3⟩, ⟨3, 4, .rwl, 0x2⟩, ⟨7, 4, .rwl, 0x2⟩, ⟨11, 1, .rwl, 0x0⟩, ⟨12, 1, .rwl, 0x0⟩, ⟨13, 3, .rwl, 0x2⟩, ⟨16, 8, .rwl, 0xFF⟩, ⟨24, 8, .rwl, 0xFF⟩]⟩,
  ⟨0x40F00004, 1, 0x0, 1, 0x0, [⟨0, 1, .rwl, 0x1⟩, ⟨1, 1, .rwl, 0x1⟩, ⟨2, 1, .rwl, 0x1⟩, ⟨3, 1, .rwl, 0x1⟩, ⟨4, 1, .rwl, 0x0⟩, ⟨5, 1, .rwl, 0x0⟩]⟩,
  ⟨0x40F00010, 1, 0x0, 1, 0x0, [⟨0, 3, .ro, 0x0⟩, ⟨3, 1, .ro, 0x0⟩, ⟨4, 1, .ro, 0x0⟩, ⟨5, 1, .ro, 0x0⟩, ⟨6, 1, .ro, 0x0⟩, ⟨8, 3, .ro, 0x0⟩, ⟨11, 1, .ro, 0x0⟩, ⟨12, 1, .ro, 0x0⟩, ⟨13, 1, .ro, 0x0⟩, ⟨14, 2, .ro, 0x0⟩]⟩,
  ⟨0x40F00014, 1, 0x0, 1, 0x0, [⟨0, 2, .rwp, 0x0⟩]⟩,
  ⟨0x40F00018, 1, 0x0, 1, 0x0, [⟨0, 16, .ro, 0x0⟩, ⟨16, 16, .ro, 0x0⟩]⟩,
  ⟨0x40F00020, 1, 0x0, 1, 0x0, [⟨0, 1, .w1s, 0x0⟩]⟩]

/-- The registers of block CAS, at 0x41000000. -/
def regsCAS : List RegDesc := [
  ⟨0x41000000, 1, 0x0, 1, 0x0, [⟨0, 4, .rwl, 0x0⟩, ⟨4, 2, .rwl, 0x1⟩, ⟨6, 2, .rwl, 0x3⟩, ⟨8, 8, .rwl, 0x4⟩, ⟨16, 8, .rwl, 0x28⟩]⟩,
  ⟨0x41000010, 4, 0x4, 1, 0x0, [⟨0, 3, .ro, 0x0⟩, ⟨3, 2, .ro, 0x0⟩, ⟨5, 1, .ro, 0x0⟩, ⟨6, 6, .ro, 0x0⟩, ⟨12, 2, .ro, 0x0⟩, ⟨16, 16, .ro, 0x0⟩]⟩,
  ⟨0x41000020, 1, 0x0, 1, 0x0, [⟨0, 1, .ro, 0x0⟩, ⟨1, 1, .ro, 0x0⟩, ⟨8, 8, .ro, 0x0⟩, ⟨16, 16, .ro, 0x0⟩]⟩,
  ⟨0x41000024, 1, 0x0, 1, 0x0, [⟨0, 32, .ro, 0x0⟩]⟩,
  ⟨0x41000028, 1, 0x0, 1, 0x0, [⟨0, 32, .ro, 0x0⟩]⟩,
  ⟨0x41000030, 1, 0x0, 1, 0x0, [⟨0, 16, .ro, 0x0⟩, ⟨16, 16, .ro, 0x0⟩]⟩,
  ⟨0x41000034, 1, 0x0, 1, 0x0, [⟨0, 16, .ro, 0x0⟩]⟩,
  ⟨0x41000040, 1, 0x0, 1, 0x0, [⟨0, 1, .w1s, 0x0⟩]⟩]

/-- The registers of block TIM, at 0x41100000. -/
def regsTIM : List RegDesc := [
  ⟨0x41100000, 1, 0x0, 1, 0x0, [⟨0, 2, .rwl, 0x0⟩, ⟨2, 1, .rwl, 0x0⟩, ⟨4, 4, .rwl, 0x5⟩, ⟨8, 8, .rwl, 0xA⟩]⟩,
  ⟨0x41100004, 1, 0x0, 1, 0x0, [⟨0, 2, .rwl, 0x0⟩, ⟨2, 2, .rwl, 0x0⟩, ⟨4, 1, .rwl, 0x0⟩, ⟨5, 1, .rwl, 0x0⟩, ⟨6, 2, .rwl, 0x0⟩, ⟨8, 8, .rwl, 0x0⟩]⟩,
  ⟨0x41100010, 1, 0x0, 1, 0x0, [⟨0, 3, .ro, 0x0⟩, ⟨3, 1, .ro, 0x0⟩, ⟨4, 3, .ro, 0x0⟩, ⟨7, 3, .ro, 0x0⟩, ⟨10, 1, .ro, 0x0⟩, ⟨11, 1, .ro, 0x0⟩]⟩,
  ⟨0x41100014, 1, 0x0, 1, 0x0, [⟨0, 30, .ro, 0x0⟩]⟩,
  ⟨0x41100018, 1, 0x0, 1, 0x0, [⟨0, 32, .ro, 0x0⟩]⟩,
  ⟨0x4110001C, 1, 0x0, 1, 0x0, [⟨0, 32, .ro, 0x0⟩]⟩,
  ⟨0x41100020, 1, 0x0, 1, 0x0, [⟨0, 32, .ro, 0x0⟩]⟩,
  ⟨0x41100024, 1, 0x0, 1, 0x0, [⟨0, 16, .ro, 0x0⟩, ⟨16, 16, .ro, 0x0⟩]⟩,
  ⟨0x41100028, 1, 0x0, 1, 0x0, [⟨0, 32, .ro, 0x0⟩]⟩,
  ⟨0x4110002C, 1, 0x0, 1, 0x0, [⟨0, 32, .ro, 0x0⟩]⟩,
  ⟨0x41100030, 1, 0x0, 1, 0x0, [⟨0, 2, .rwp, 0x0⟩]⟩,
  ⟨0x41100034, 1, 0x0, 1, 0x0, [⟨0, 32, .rwp, 0x0⟩]⟩,
  ⟨0x41100038, 1, 0x0, 1, 0x0, [⟨0, 32, .rwp, 0x0⟩]⟩,
  ⟨0x4110003C, 1, 0x0, 1, 0x0, [⟨0, 32, .rwp, 0x0⟩]⟩,
  ⟨0x41100040, 1, 0x0, 1, 0x0, [⟨0, 32, .ro, 0x0⟩]⟩,
  ⟨0x41100044, 1, 0x0, 1, 0x0, [⟨0, 16, .ro, 0x0⟩, ⟨16, 16, .ro, 0x0⟩]⟩]

/-- The registers of block NET, at 0x41200000. -/
def regsNET : List RegDesc := [
  ⟨0x41200000, 1, 0x0, 1, 0x0, [⟨0, 2, .rwl, 0x0⟩, ⟨8, 8, .rwl, 0x1E⟩]⟩,
  ⟨0x41200004, 1, 0x0, 1, 0x0, [⟨21, 4, .rwl, 0xA⟩]⟩,
  ⟨0x41200010, 1, 0x0, 1, 0x0, [⟨0, 3, .rwp, 0x0⟩, ⟨3, 6, .rwp, 0x0⟩, ⟨9, 1, .rwp, 0x0⟩]⟩,
  ⟨0x41200014, 1, 0x0, 1, 0x0, [⟨0, 8, .rwp, 0xFF⟩, ⟨8, 24, .rwp, 0x0⟩]⟩,
  ⟨0x41200020, 1, 0x0, 1, 0x0, [⟨0, 1, .w1s, 0x0⟩]⟩,
  ⟨0x41200100, 6, 0x20, 1, 0x0, [⟨0, 1, .rwl, 0x0⟩, ⟨1, 1, .rwl, 0x0⟩, ⟨2, 1, .rwl, 0x0⟩, ⟨4, 12, .rwl, 0x1⟩]⟩,
  ⟨0x41200104, 6, 0x20, 1, 0x0, [⟨0, 32, .rwl, 0xF4240⟩]⟩,
  ⟨0x41200108, 6, 0x20, 1, 0x0, [⟨0, 16, .ro, 0x0⟩, ⟨16, 16, .ro, 0x0⟩]⟩]

/-- The registers of block RIO, at 0x41300000. -/
def regsRIO : List RegDesc := [
  ⟨0x41300000, 1, 0x0, 1, 0x0, [⟨0, 3, .rwl, 0x2⟩, ⟨3, 3, .rwl, 0x4⟩]⟩,
  ⟨0x41300010, 1, 0x0, 1, 0x0, [⟨0, 2, .rw, 0x0⟩, ⟨2, 7, .rw, 0x0⟩]⟩,
  ⟨0x41300014, 1, 0x0, 1, 0x0, [⟨0, 3, .ro, 0x0⟩, ⟨3, 3, .ro, 0x0⟩, ⟨8, 12, .ro, 0x0⟩, ⟨20, 4, .ro, 0x0⟩]⟩,
  ⟨0x41300020, 1, 0x0, 1, 0x0, [⟨0, 1, .w1s, 0x0⟩]⟩,
  ⟨0x41300100, 4, 0x40, 1, 0x0, [⟨0, 1, .rwl, 0x0⟩, ⟨1, 1, .rwl, 0x0⟩, ⟨2, 8, .rwl, 0x0⟩, ⟨10, 4, .rwl, 0x3⟩, ⟨14, 12, .rwl, 0x258⟩]⟩,
  ⟨0x41300104, 4, 0x40, 1, 0x0, [⟨0, 3, .ro, 0x0⟩, ⟨3, 1, .ro, 0x0⟩, ⟨4, 8, .ro, 0x0⟩, ⟨16, 12, .ro, 0x0⟩]⟩,
  ⟨0x41300108, 4, 0x40, 1, 0x0, [⟨0, 16, .ro, 0x0⟩, ⟨16, 16, .ro, 0x0⟩]⟩]

/-- The registers of block CAN, at 0x41400000. -/
def regsCAN : List RegDesc := [
  ⟨0x41400000, 1, 0x0, 1, 0x0, [⟨14, 11, .rwl, 0x1B0⟩]⟩,
  ⟨0x41400004, 1, 0x0, 1, 0x0, [⟨17, 8, .rwl, 0x58⟩]⟩,
  ⟨0x41400010, 1, 0x0, 1, 0x0, [⟨0, 1, .w1s, 0x0⟩]⟩,
  ⟨0x41400100, 8, 0x40, 1, 0x0, [⟨0, 1, .rwp, 0x0⟩, ⟨1, 1, .rwp, 0x0⟩]⟩,
  ⟨0x41400104, 8, 0x40, 1, 0x0, [⟨0, 8, .rwp, 0x0⟩, ⟨8, 9, .rwp, 0x0⟩, ⟨17, 7, .rwp, 0x0⟩, ⟨24, 7, .rwp, 0x0⟩]⟩,
  ⟨0x41400108, 8, 0x40, 1, 0x0, [⟨0, 5, .rwp, 0x0⟩, ⟨5, 5, .rwp, 0x0⟩, ⟨10, 4, .rwp, 0x0⟩, ⟨14, 4, .rwp, 0x0⟩, ⟨18, 7, .rwp, 0x0⟩, ⟨25, 1, .rwp, 0x0⟩]⟩,
  ⟨0x4140010C, 8, 0x40, 1, 0x0, [⟨0, 2, .ro, 0x0⟩, ⟨2, 1, .ro, 0x0⟩, ⟨8, 8, .ro, 0x0⟩, ⟨16, 8, .ro, 0x0⟩]⟩,
  ⟨0x41400110, 8, 0x40, 1, 0x0, [⟨0, 29, .ro, 0x0⟩, ⟨29, 1, .ro, 0x0⟩, ⟨31, 1, .w1c, 0x0⟩]⟩,
  ⟨0x41400114, 8, 0x40, 1, 0x0, [⟨0, 6, .rwp, 0x0⟩, ⟨6, 2, .rwp, 0x0⟩, ⟨8, 3, .ro, 0x0⟩]⟩,
  ⟨0x41400118, 8, 0x40, 1, 0x0, [⟨0, 7, .rw, 0x0⟩, ⟨7, 1, .rw, 0x0⟩, ⟨8, 7, .ro, 0x0⟩]⟩,
  ⟨0x4140011C, 8, 0x40, 1, 0x0, [⟨0, 7, .rw, 0x0⟩, ⟨7, 1, .rw, 0x0⟩, ⟨8, 7, .ro, 0x0⟩]⟩,
  ⟨0x41400120, 8, 0x40, 1, 0x0, [⟨0, 8, .ro, 0x0⟩, ⟨8, 8, .ro, 0x0⟩, ⟨16, 8, .ro, 0x0⟩, ⟨24, 8, .ro, 0x0⟩]⟩]

/-- The registers of block MDW, at 0x41500000. -/
def regsMDW : List RegDesc := [
  ⟨0x41500000, 1, 0x0, 1, 0x0, [⟨0, 1, .rwl, 0x0⟩, ⟨1, 1, .rwl, 0x0⟩, ⟨16, 16, .rwl, 0x0⟩]⟩,
  ⟨0x41500004, 1, 0x0, 1, 0x0, [⟨16, 9, .rwl, 0x9⟩]⟩,
  ⟨0x41500008, 1, 0x0, 1, 0x0, [⟨21, 4, .rwl, 0xC⟩]⟩,
  ⟨0x4150000C, 1, 0x0, 1, 0x0, [⟨21, 4, .rwl, 0xD⟩]⟩,
  ⟨0x41500010, 1, 0x0, 1, 0x0, [⟨21, 4, .rwl, 0xE⟩]⟩,
  ⟨0x41500014, 1, 0x0, 1, 0x0, [⟨0, 2, .rwp, 0x0⟩]⟩,
  ⟨0x41500020, 1, 0x0, 1, 0x0, [⟨0, 7, .ro, 0x0⟩, ⟨8, 7, .ro, 0x0⟩]⟩,
  ⟨0x41500024, 1, 0x0, 1, 0x0, [⟨0, 16, .ro, 0x0⟩, ⟨16, 16, .ro, 0x0⟩]⟩,
  ⟨0x41500028, 1, 0x0, 1, 0x0, [⟨0, 32, .ro, 0x0⟩]⟩,
  ⟨0x4150002C, 1, 0x0, 1, 0x0, [⟨0, 32, .ro, 0x0⟩]⟩,
  ⟨0x41500030, 1, 0x0, 1, 0x0, [⟨0, 32, .ro, 0x0⟩]⟩,
  ⟨0x41500034, 1, 0x0, 1, 0x0, [⟨0, 32, .ro, 0x0⟩]⟩,
  ⟨0x41500040, 1, 0x0, 1, 0x0, [⟨0, 16, .ro, 0x0⟩, ⟨16, 16, .ro, 0x0⟩]⟩,
  ⟨0x41500044, 1, 0x0, 1, 0x0, [⟨0, 32, .ro, 0x0⟩]⟩,
  ⟨0x41500048, 1, 0x0, 1, 0x0, [⟨0, 32, .ro, 0x0⟩]⟩,
  ⟨0x41500050, 1, 0x0, 1, 0x0, [⟨0, 1, .w1s, 0x0⟩, ⟨1, 1, .w1s, 0x0⟩]⟩,
  ⟨0x41500060, 1, 0x0, 1, 0x0, [⟨0, 1, .rw, 0x0⟩]⟩,
  ⟨0x41500064, 1, 0x0, 1, 0x0, [⟨0, 32, .rw, 0x0⟩]⟩,
  ⟨0x41500068, 1, 0x0, 1, 0x0, [⟨0, 2, .ro, 0x2⟩]⟩,
  ⟨0x4150006C, 1, 0x0, 1, 0x0, [⟨0, 1, .w1s, 0x0⟩]⟩,
  ⟨0x41500080, 16, 0x4, 1, 0x0, [⟨0, 32, .ro, 0x0⟩]⟩]

/-- The registers of block BOOT, at 0x41600000. -/
def regsBOOT : List RegDesc := [
  ⟨0x41600000, 1, 0x0, 1, 0x0, [⟨0, 3, .ro, 0x0⟩, ⟨3, 2, .ro, 0x0⟩, ⟨5, 2, .ro, 0x3⟩, ⟨7, 4, .ro, 0x0⟩]⟩,
  ⟨0x41600004, 1, 0x0, 1, 0x0, [⟨0, 5, .ro, 0x0⟩, ⟨16, 16, .ro, 0x0⟩]⟩,
  ⟨0x41600010, 3, 0x4, 1, 0x0, [⟨0, 5, .ro, 0x2⟩, ⟨5, 4, .ro, 0x0⟩, ⟨16, 16, .ro, 0x0⟩]⟩,
  ⟨0x41600020, 1, 0x0, 1, 0x0, [⟨0, 3, .rwp, 0x0⟩, ⟨3, 2, .rwp, 0x0⟩]⟩,
  ⟨0x41600024, 1, 0x0, 1, 0x0, [⟨22, 3, .rwl, 0x3⟩]⟩,
  ⟨0x41600028, 1, 0x0, 1, 0x0, [⟨0, 1, .ro, 0x0⟩, ⟨1, 4, .ro, 0x0⟩, ⟨16, 16, .ro, 0x0⟩]⟩,
  ⟨0x41600040, 8, 0x4, 1, 0x0, [⟨0, 32, .ro, 0x0⟩]⟩,
  ⟨0x41600060, 1, 0x0, 1, 0x0, [⟨0, 32, .ro, 0x0⟩]⟩]

/-- The registers of block HST, at 0x41700000. -/
def regsHST : List RegDesc := [
  ⟨0x41700000, 1, 0x0, 1, 0x0, [⟨0, 1, .rwl, 0x0⟩, ⟨1, 1, .rwl, 0x0⟩, ⟨8, 8, .rwl, 0x3C⟩, ⟨16, 16, .rwl, 0x3E8⟩]⟩,
  ⟨0x41700010, 1, 0x0, 1, 0x0, [⟨0, 16, .ro, 0x0⟩, ⟨16, 16, .ro, 0x0⟩]⟩,
  ⟨0x41700014, 1, 0x0, 1, 0x0, [⟨0, 16, .ro, 0x0⟩, ⟨16, 16, .ro, 0x0⟩]⟩,
  ⟨0x41700100, 64, 0x4, 1, 0x0, [⟨0, 4, .rw, 0x0⟩, ⟨8, 6, .rw, 0x0⟩]⟩,
  ⟨0x41700800, 64, 0x10, 3, 0x4, [⟨0, 32, .rw, 0x0⟩]⟩,
  ⟨0x4170080C, 64, 0x10, 1, 0x0, [⟨0, 1, .rw, 0x1⟩]⟩,
  ⟨0x41700C00, 2, 0x4, 1, 0x0, [⟨0, 32, .ro, 0x0⟩]⟩]

/-- The registers of block SEC, at 0x41800000. -/
def regsSEC : List RegDesc := [
  ⟨0x41800000, 1, 0x0, 1, 0x0, [⟨0, 2, .ro, 0x0⟩, ⟨2, 2, .ro, 0x0⟩, ⟨4, 1, .ro, 0x0⟩, ⟨5, 3, .ro, 0x0⟩, ⟨16, 16, .ro, 0x0⟩]⟩,
  ⟨0x41800004, 1, 0x0, 1, 0x0, [⟨0, 14, .ro, 0x0⟩, ⟨16, 4, .ro, 0x0⟩]⟩,
  ⟨0x41800010, 1, 0x0, 1, 0x0, [⟨0, 3, .rwp, 0x0⟩, ⟨16, 16, .rwp, 0x0⟩]⟩,
  ⟨0x41800014, 1, 0x0, 1, 0x0, [⟨0, 16, .rwp, 0x0⟩]⟩,
  ⟨0x41800020, 1, 0x0, 1, 0x0, [⟨0, 4, .rwp, 0x0⟩, ⟨4, 1, .rwp, 0x0⟩, ⟨5, 5, .rwp, 0x0⟩]⟩,
  ⟨0x41800024, 1, 0x0, 1, 0x0, [⟨0, 32, .wo, 0x0⟩]⟩]

/-- The registers of block DBG, at 0x41900000. -/
def regsDBG : List RegDesc := [
  ⟨0x41900000, 1, 0x0, 1, 0x0, [⟨0, 2, .ro, 0x0⟩, ⟨2, 1, .ro, 0x0⟩, ⟨3, 1, .ro, 0x0⟩, ⟨4, 2, .ro, 0x0⟩, ⟨6, 3, .ro, 0x0⟩]⟩,
  ⟨0x41900004, 1, 0x0, 1, 0x0, [⟨0, 3, .rwp, 0x0⟩]⟩,
  ⟨0x41900008, 1, 0x0, 1, 0x0, [⟨0, 32, .ro, 0x0⟩]⟩,
  ⟨0x41900040, 12, 0x4, 1, 0x0, [⟨0, 32, .ro, 0x0⟩]⟩,
  ⟨0x41900080, 24, 0x4, 1, 0x0, [⟨0, 32, .wo, 0x0⟩]⟩]

/-- The registers of block PWR, at 0x41A00000. -/
def regsPWR : List RegDesc := [
  ⟨0x41A00000, 1, 0x0, 1, 0x0, [⟨0, 3, .rwl, 0x1⟩]⟩,
  ⟨0x41A00004, 1, 0x0, 1, 0x0, [⟨0, 32, .rwl, 0xFFFFFFFF⟩]⟩,
  ⟨0x41A00010, 1, 0x0, 1, 0x0, [⟨0, 1, .rwp, 0x0⟩]⟩,
  ⟨0x41A00020, 1, 0x0, 1, 0x0, [⟨0, 3, .ro, 0x0⟩, ⟨3, 3, .ro, 0x0⟩, ⟨6, 1, .ro, 0x0⟩, ⟨7, 1, .ro, 0x0⟩, ⟨8, 3, .ro, 0x0⟩]⟩,
  ⟨0x41A00024, 1, 0x0, 1, 0x0, [⟨0, 32, .ro, 0x0⟩]⟩]

/-- The registers of block PMC, at 0x41B00000. -/
def regsPMC : List RegDesc := [
  ⟨0x41B00000, 1, 0x0, 1, 0x0, [⟨0, 1, .rwp, 0x0⟩, ⟨1, 1, .rwp, 0x0⟩, ⟨2, 1, .rwp, 0x0⟩, ⟨3, 1, .rwp, 0x0⟩]⟩,
  ⟨0x41B00008, 1, 0x0, 1, 0x0, [⟨0, 32, .w1c, 0x0⟩]⟩,
  ⟨0x41B0000C, 1, 0x0, 1, 0x0, [⟨0, 32, .w1c, 0x0⟩]⟩,
  ⟨0x41B00010, 1, 0x0, 1, 0x0, [⟨0, 1, .rwp, 0x0⟩, ⟨1, 5, .rwp, 0x5⟩, ⟨8, 5, .rwp, 0x3⟩, ⟨16, 5, .rwp, 0x2⟩]⟩,
  ⟨0x41B00020, 1, 0x0, 1, 0x0, [⟨0, 1, .rwp, 0x0⟩, ⟨1, 1, .rwp, 0x0⟩, ⟨2, 12, .rwp, 0x0⟩, ⟨16, 16, .rwp, 0x400⟩]⟩,
  ⟨0x41B00024, 1, 0x0, 1, 0x0, [⟨12, 13, .rwl, 0x23⟩]⟩,
  ⟨0x41B00028, 1, 0x0, 1, 0x0, [⟨0, 9, .ro, 0x0⟩, ⟨9, 7, .ro, 0x0⟩, ⟨16, 16, .ro, 0x0⟩]⟩,
  ⟨0x41B00100, 64, 0x4, 1, 0x0, [⟨0, 8, .rwp, 0x0⟩, ⟨8, 8, .rwp, 0x0⟩, ⟨16, 1, .rwp, 0x0⟩]⟩,
  ⟨0x41B00200, 64, 0x4, 1, 0x0, [⟨0, 32, .rwp, 0x0⟩]⟩,
  ⟨0x41B00300, 64, 0x4, 1, 0x0, [⟨0, 32, .ro, 0x0⟩]⟩,
  ⟨0x41B00400, 16, 0x4, 1, 0x0, [⟨0, 32, .ro, 0x0⟩]⟩,
  ⟨0x41B00440, 16, 0x4, 1, 0x0, [⟨0, 32, .ro, 0x0⟩]⟩]

/-- The registers of block GPIO, at 0x41C00000. -/
def regsGPIO : List RegDesc := [
  ⟨0x41C00000, 5, 0x4, 1, 0x0, [⟨0, 32, .rwl, 0x0⟩]⟩,
  ⟨0x41C00020, 5, 0x4, 1, 0x0, [⟨0, 32, .ro, 0x0⟩]⟩,
  ⟨0x41C00040, 5, 0x4, 1, 0x0, [⟨0, 32, .ro, 0x0⟩]⟩]

/-- The registers of block SDM, at 0x41D00000. -/
def regsSDM : List RegDesc := [
  ⟨0x41D00000, 1, 0x0, 1, 0x0, [⟨0, 32, .w1c, 0x0⟩]⟩,
  ⟨0x41D00100, 32, 0x8, 1, 0x0, [⟨0, 1, .rwl, 0x0⟩, ⟨1, 1, .rwl, 0x0⟩, ⟨2, 6, .rwl, 0xA⟩, ⟨8, 2, .rwl, 0x1⟩, ⟨16, 16, .rwl, 0x7FFF⟩]⟩,
  ⟨0x41D00104, 32, 0x8, 1, 0x0, [⟨0, 16, .ro, 0x0⟩, ⟨16, 1, .ro, 0x0⟩, ⟨17, 1, .ro, 0x0⟩]⟩]

/-- The registers of block PWM, at 0x41E00000. -/
def regsPWM : List RegDesc := [
  ⟨0x41E00000, 1, 0x0, 1, 0x0, [⟨0, 8, .ro, 0x0⟩]⟩,
  ⟨0x41E00010, 8, 0x8, 1, 0x0, [⟨0, 32, .rwl, 0x0⟩]⟩,
  ⟨0x41E00014, 8, 0x8, 1, 0x0, [⟨0, 32, .rwl, 0x0⟩]⟩,
  ⟨0x41E00100, 64, 0x8, 1, 0x0, [⟨0, 2, .rwl, 0x0⟩, ⟨2, 14, .rwl, 0x2710⟩, ⟨16, 8, .rwl, 0x0⟩, ⟨24, 2, .rwl, 0x0⟩, ⟨26, 2, .rwl, 0x0⟩]⟩,
  ⟨0x41E00104, 64, 0x8, 1, 0x0, [⟨0, 14, .ro, 0x0⟩, ⟨14, 1, .ro, 0x0⟩, ⟨15, 1, .ro, 0x0⟩]⟩]

/-- The registers of the block of index `b` in the order of R480. -/
def blockRegs : Nat → List RegDesc
  | 0 => regsSYS
  | 1 => regsCLK
  | 2 => regsPLN
  | 3 => regsSCH
  | 4 => regsSIG
  | 5 => regsSEQ
  | 6 => regsLOOP
  | 7 => regsLANE
  | 8 => regsLOG
  | 9 => regsJRN
  | 10 => regsADC
  | 11 => regsDAC
  | 12 => regsMOT
  | 13 => regsPOS
  | 14 => regsSAF
  | 15 => regsPAIR
  | 16 => regsCAS
  | 17 => regsTIM
  | 18 => regsNET
  | 19 => regsRIO
  | 20 => regsCAN
  | 21 => regsMDW
  | 22 => regsBOOT
  | 23 => regsHST
  | 24 => regsSEC
  | 25 => regsDBG
  | 26 => regsPWR
  | 27 => regsPMC
  | 28 => regsGPIO
  | 29 => regsSDM
  | 30 => regsPWM
  | _ => []

/-- Whether the register array `d` has a register at address `a`. -/
def RegDesc.covers (d : RegDesc) (a : Nat) : Bool :=
  d.base ≤ a &&
    (let o := a - d.base
     if d.n1 = 1 then o = 0
     else if d.n2 = 1 then o % d.s1 = 0 && o / d.s1 < d.n1
     else o / d.s1 < d.n1 && o % d.s1 % d.s2 = 0 && o % d.s1 / d.s2 < d.n2)

/-- The block index of an address in the register windows (R6). -/
def blockOf (a : Nat) : Nat := (a - 0x40000000) / 0x100000

/-- The register at address `a`, if R480 lists one there. -/
def regAt (a : Nat) : Option RegDesc :=
  if a < 0x40000000 then none else (blockRegs (blockOf a)).find? fun d => d.covers a

/-- The reset value that a register's fields make up. -/
def fieldsReset : List FieldDesc → Nat
  | [] => 0
  | f :: fs => f.reset * 2 ^ f.lo + fieldsReset fs

/-- What the register at `a` holds after reset; an address with no register reads 0 (R6). -/
def resetValue (a : Nat) : Word :=
  match regAt a with
  | some d => BitVec.ofNat 32 (fieldsReset d.fields)
  | none => 0

end Sys2Proof.Machine
end

