-- ==== Sys2Proof/Machine/State.lean ====
section
/-!
DEFINITION. Machine/State.lean: the state of the block as plain data. The registers of R480 are one table keyed by
address; every other piece of state the chapters name stands in a structure of its own, one per chapter, and the
commands that wait stand in `pending`, first in, first out.
-/

namespace Sys2Proof.Machine

/-- Why a command stops. -/
inductive Fault where
  /-- Raised where the spec lists the case as undefined (R7, R482) and gives it no effect; `rule` is the list's rule.
  Safe: the model stops where the device may do anything. -/
  | undefinedCase (rule : Nat)
  /-- Raised by an access to an address that no memory of R6 holds. Safe: the model stops. -/
  | noSuchAddress
deriving DecidableEq, Repr

/-- Why a command has no meaning. -/
inductive Refusal where
  /-- Raised by `exec` for a row that has no meaning yet. Safe: the model stops. -/
  | notModelled (mnemonic : String)
deriving DecidableEq, Repr

/-- The marks of the control tick that have passed (R23). -/
inductive TickPhase where
  /-- No strobe has risen since the reset. -/
  | none
  /-- The strobe has risen and has not arrived (R22). -/
  | risen
  /-- The strobe has arrived; the latch window is open (R24, R26). -/
  | arrived
  /-- Input close has passed (R23). -/
  | inputClosed
  /-- Output close has passed (R23). -/
  | outputClosed
deriving DecidableEq, Repr

/-- The steps of a release from reset (R35). -/
inductive ResetPhase where
  /-- A reset cause stands. -/
  | held
  /-- Released; CPLL and HPLL not both locked. -/
  | released
  /-- CPLL and HPLL locked; fabric, boot and host vales run. -/
  | running
deriving DecidableEq, Repr

/-- Clocks, cols and resets (chapter 01). -/
structure ValesState where
  /-- Where the reset sequence stands (R35). -/
  phase : ResetPhase
  /-- The reset causes that stand now: NRESET low, XIN stopped, PLL unlocked, POR asserted (R33, R34). -/
  nresetLow : Bool
  xinStopped : Bool
  pllUnlocked : Bool
  porHeld : Bool
  /-- Col requests answered RESET_DROP, newest kind only (R18): pair and direction. -/
  lastDrop : Option (Nat × Nat)
  /-- Entries waiting in cols towards vales in reset are dropped here: how many so far (R18). -/
  drops : Nat
  /-- VDD_SAFE is good (R491). -/
  vddSafe : Bool
deriving DecidableEq, Repr

/-- Time counter and control tick (chapters 01 and 15). -/
structure TimeState where
  /-- SEC, NS and FRAC as one number in units of 2^-32 ns (R354). -/
  now : Nat
  /-- Marks passed in the present tick (R23). -/
  phase : TickPhase
  /-- Tick number of the present tick (R148). -/
  tick : Nat
  /-- Tick number of the boundary whose strobe rises next (R22, R369). -/
  nextTick : Nat
  /-- Always-on-vale cycles since the last strobe rise (R369). -/
  sinceRise : Nat
  /-- Offset still to be removed by slewing, in 2^-32 ns, signed (R368). -/
  slew : Int
  /-- A servo step requested and not applied, in ns (R368). -/
  step : Option Int
  /-- A SET requested and not applied: the set time in ns (R368). -/
  set : Option Nat
  /-- Consecutive updates within LOCK (R359). -/
  inLock : Nat
  /-- A step applied since the scheduler last realigned, in ns (R369). -/
  shift : Int
  /-- Path delay of each PTP port and delay of each cascade link, in ns (R361, R364). -/
  delays : Sparse Int
  /-- The last two-step Sync of each PTP port that awaits its Follow_Up: receive instant and correction. -/
  twoStep : Sparse (Option (Nat × Int))
  /-- Receive and transmit instants of the last TIME frame from the peer of each cascade link (R361). -/
  heard : Sparse (Nat × Nat)
  /-- Transmit instant of the last event message of each PTP port. -/
  sent : Sparse Nat
  /-- An offset measured and not yet settled by the servo, and whether its source is valid (R359, R368). -/
  meas : Option (Int × Bool)
deriving DecidableEq, Repr

/-- One fabric transaction (R37). -/
structure Txn where
  port : Nat
  requester : Nat
  addr : Nat
  isWrite : Bool
  bytes : List Byte
  len : Nat
deriving DecidableEq, Repr

/-- The answer to a transaction: read data or acknowledgement, with the error response of R40. -/
structure Resp where
  port : Nat
  requester : Nat
  bytes : List Byte
  error : Bool
deriving DecidableEq, Repr

/-- One fabric port: the transaction at its head and those it holds (R45). -/
structure PortState where
  head : Option Txn
  /-- Fabric-vale cycle in which the head became head, or last found the retained store's queue full (R44, R49). -/
  since : Nat
  waiting : List Txn
  /-- Requester last presented (R45). -/
  last : Nat
deriving DecidableEq, Repr

/-- The arbiter of the Plain (R46). -/
structure ArbState where
  /-- The free-running cycle counter c. -/
  cyc : Nat
  k : Nat
  deficit : Sparse Nat
  /-- Last port served, per class; 24 is none. -/
  rr : Sparse Nat
  held : Option Nat
  /-- First cycle in which the bank is free again, per bank; the window bank is 64 (R39, R41). -/
  bankFree : Sparse Nat
  ports : Sparse PortState
  /-- The retained-store controller's queue (R44). -/
  retQueue : List Txn
  /-- The last answers, one per port. -/
  resp : Sparse (Option Resp)
deriving DecidableEq, Repr

/-- A job that an engine has ended: `how` 0 END, 1 run limit, 2 deadline, 3 data error. -/
structure EndedJob where
  engine : Nat
  job : Nat
  how : Nat
deriving DecidableEq, Repr

/-- The scheduler (chapter 03). Descriptors and flow entries stand in the Plain. -/
structure SchState where
  /-- The release counter (R66). -/
  relSeq : Nat
  /-- Descriptors that are not FREE, in order of acceptance. -/
  jobs : List Nat
  /-- Accepted in the latch window and not yet made ready (R26). -/
  latched : List Nat
  /-- The descriptor each engine runs: engines 0 to 7 are lanes, 8 to 11 logic cores. -/
  running : Sparse (Option Nat)
  /-- Jobs that no other ready or running job of their pool came before when they became ready (R72). -/
  first : List Nat
  /-- HELD jobs that a TERMINATE or a run limit ended (R77). -/
  missMarks : List Nat
  /-- Jobs that have ended and whose reports are under way, in the order in which they ended (R183). -/
  ended : List EndedJob
  /-- Strobes in the present load interval (R83). -/
  loadStrobes : Nat
  /-- Events posted to the destinations of ordered flows: destination, event, FLOW_SEQ, MISS mark (R77). -/
  flowPosts : List (Nat × Nat × Nat × Bool)
  /-- Hardware time-outs in use: unit and expiry (R80). -/
  timeouts : Sparse (Option Nat)
  /-- Releases the sources hold back to the next tick (R62): sequencer kernels and reductions. -/
  retry : List JobReq
deriving DecidableEq, Repr

/-- A force-table slot (R104): the entry forced, the value shown now, and requests with the boundaries they still wait. -/
structure ForceSlot where
  index : Nat
  value : Word
  shown : Option Word
  pend : List (Option Word × Nat)
deriving DecidableEq, Repr

/-- Signals (chapter 04). Directory, planes and group table stand in the Plain. -/
structure SigState where
  /-- The two entry turn sets (R95). -/
  openSet : Sparse Bool
  frozenSet : Sparse Bool
  /-- The two group turn sets (R101). -/
  openGrp : Sparse Bool
  frozenGrp : Sparse Bool
  /-- The parking buffer: entry, or 16,384 + 2 g and 16,384 + 2 g + 1 for the words of group pair g, and word (R96). -/
  parked : Sparse (Option Word)
  /-- Writes that wait because the parking buffer is full, oldest first (R96). -/
  parkWait : List (Nat × Word)
  /-- The parking window in force has found the buffer full. -/
  parkFull : Bool
  /-- Force table, by slot (R104). -/
  forces : Sparse (Option ForceSlot)
  /-- Words prefetched for the output units, by entry (R29). -/
  prefetched : Sparse (Option Word)
  /-- Units whose prefetch is complete in this tick (R29). -/
  prefetchDone : List OutUnit
  /-- Words the output units drive or send, by entry: the holding registers as taken at the last strobe (R29). -/
  taken : Sparse (Option Word)
  /-- Entries whose output is held at its HOLD or PF value (R90, R234, R238, R338). -/
  held : Sparse Bool
  /-- Latch and turn writes of this tick that do not complete by input close: entry and port (R25). -/
  late : List (Nat × Nat)
deriving DecidableEq, Repr

/-- A running summary of the fold store (R409, R410). -/
structure Fold where
  minV : Int
  maxV : Int
  /-- 64 bits. -/
  sum : Nat
  count : Nat
  bins : Sparse Nat
  scale : Nat
  forced : Bool
  isPartial : Bool
  under : Bool
  above : Bool
  /-- First tick of the summary. -/
  start : Nat
  /-- STEP_ID and RECIPE_ID of the step the summary belongs to. -/
  stepId : Nat
  recipeId : Nat
  /-- Closes of this index so far (MARK, R412). -/
  closes : Nat
  /-- A reduction has not yet written MARK (R411). -/
  reducing : Bool
deriving DecidableEq, Repr

/-- A reduction of closed summaries: its job, or none while it waits to be released again, and the indices not yet
overwritten (R411). -/
structure Reduction where
  job : Option Nat
  first : Nat
  n : Nat
  idx : List Nat
deriving DecidableEq, Repr

/-- A trace subscription's running state (R425, R426). -/
structure TraceState where
  /-- Rows collected and not yet in a frame: tick number, epoch and words. -/
  rows : List (Nat × Nat × List Nat)
  /-- Frames that wait to be sent, oldest first. -/
  out : List TraceFrame
  fseq : Nat
  lost : Nat
  /-- Closed summaries to send, by directory index (R427). -/
  sums : List Nat
deriving DecidableEq, Repr

/-- Meadow (chapter 18). -/
structure MdwState where
  /-- The staging queue, oldest first (R417). -/
  queue : List EventRec
  /-- The fold store (R406). -/
  folds : Sparse Fold
  /-- Folding has begun since the last start (R413). -/
  folding : Bool
  /-- CLOSE_FREE waits for the next boundary (R410). -/
  closeFree : Bool
  /-- Reductions not complete (R411). -/
  reductions : List Reduction
  /-- The window copy is under way (R421). -/
  loading : Bool
  /-- POWER_FAIL has stopped Meadow (R423). -/
  stopped : Bool
  trace : Sparse TraceState
  /-- Remote record routes: class, source, code, node, position (R422). -/
  routes : List RecRoute
  /-- The last trace frame sent. -/
  lastFrame : Option TraceFrame
  /-- Serial of the last island event-ring entry taken (R501); none after a reset. -/
  ringTaken : Option Nat
  /-- The last remote record request was answered BUSY, and the last answer received (R422). -/
  busy : Bool
  answer : List EventRec
deriving DecidableEq, Repr

/-- Meadow's state as a reset leaves it. -/
def Fold.zero : Fold :=
  { minV := 0, maxV := 0, sum := 0, count := 0, bins := [], scale := 0, forced := false, isPartial := false, under := false,
    above := false, start := 0, stepId := 0xFFFFFFFF, recipeId := 0, closes := 0, reducing := false }
def TraceState.zero : TraceState := { rows := [], out := [], fseq := 0, lost := 0, sums := [] }
def MdwState.zero : MdwState :=
  { queue := [], folds := [], folding := false, closeFree := false, reductions := [], loading := false, stopped := false,
    trace := [], routes := [], lastFrame := none, ringTaken := none, busy := false, answer := [] }

/-- A host command that waits (R138). -/
structure SeqCmd where
  seq : Nat
  cmd : Nat
  arg : Nat
  /-- The SHP session that sent it; none where it was written through SEQ_CMD. -/
  sess : Option Nat
deriving DecidableEq, Repr

/-- A step change to be recorded in phase 6 (R129). -/
structure SeqNote where
  seq : Nat
  cause : Nat
  old : Nat
  new : Nat
  step : Nat
  leaves : Bool
  start : Nat
deriving DecidableEq, Repr

/-- The recipe sequencer (chapter 05). -/
structure SeqState where
  ctx : Sparse SeqCtx
  ramps : Sparse (Option RampSlot)
  /-- The host queue (R138). -/
  queue : List SeqCmd
  /-- The internal slot of the automatic resumption (R138, R239). -/
  resumeSlot : Bool
  /-- Tick of the last evaluation. -/
  lastEval : Option Nat
  /-- Step changes of the evaluation under way. -/
  changes : List SeqNote
  /-- Boundary at which resumption is committed (R239). -/
  commitAt : Option Nat
  /-- Step summaries to close: sequence, boundary, STEP_ID and RECIPE_ID that follow (R129, R410). -/
  closes : List (Nat × Nat × Nat × Nat)
  /-- Answers a member has to send: sequence, code of R349, attempt. -/
  answers : List (Nat × Nat × Nat)
deriving DecidableEq, Repr


/-- A mode or limit request accepted by the loop engine (R156): `op` 0 mode, 1 low limit, 2 high limit; `wait` counts the
boundaries it still waits. -/
structure LoopReq where
  slot : Nat
  op : Nat
  value : Nat
  wait : Nat
deriving DecidableEq, Repr

/-- The loop engine (chapter 06). The loop table stands in the Plain. -/
structure LoopState where
  /-- ACTIVE bit of every slot: false half A, true half B (R147). -/
  active : Sparse Bool
  /-- Overrun count of every slot (R163). -/
  ovr : Sparse Nat
  /-- Accepted requests, in order of acceptance (R156). -/
  queue : List LoopReq
  /-- The slots have been started since commit (R166). -/
  started : Bool
  /-- The slots came back from a valid journal (R166). -/
  restored : Bool
  /-- Slots whose group the engine marked FAULT (R164). -/
  marked : Sparse Bool
deriving DecidableEq, Repr


/-- A loop frame of the loop stack: first and last words of the body (R177 LOOP). -/
structure LoopFrame where
  first : Nat
  last : Nat
deriving DecidableEq, Repr

/-- A lane register set (R169). -/
structure RegSet where
  d : Sparse (BitVec 16)
  a0 : BitVec 40
  a1 : BitVec 40
  p : Sparse (BitVec 16)
  m : Sparse (BitVec 16)
  z : Sparse (BitVec 4)
  lc0 : BitVec 13
  lc1 : BitVec 13
  fb : BitVec 25
  sr : BitVec 16
  pc : BitVec 12
  calls : List (BitVec 12)
  loops : List LoopFrame
deriving DecidableEq, Repr

/-- The arc detector's variables (R190). -/
structure ArcState where
  b : Int
  cnt : Nat
  arcs : Nat
  hold : Nat
  learn : Nat
  poll : Nat
  latch : Bool
deriving DecidableEq, Repr

/-- One lane (R168, R169). -/
structure LaneSt where
  set0 : RegSet
  set1 : RegSet
  /-- The register set in use. -/
  cur : Bool
  /-- A job runs. -/
  busy : Bool
  /-- ENTRY and ARG0 of the job, and its descriptor. -/
  entry : Nat
  arg0 : Nat
  job : Option Nat
  /-- Stalled on the stream (R177 WAITS, POP). -/
  stalled : Bool
  /-- The last instruction retired was PUT, PUTW or FST (R183). -/
  lastPut : Bool
  /-- How the last job ended: 0 END, 1 run limit, 2 deadline, 3 data error. -/
  lastEnd : Nat
  /-- Program words 0x600 to 0xFFF, data and coefficient memories. -/
  prog : Sparse (BitVec 32)
  data : Sparse (BitVec 16)
  coef : Sparse (BitVec 16)
  /-- The stream FIFO, oldest first (R187). -/
  fifo : List (BitVec 16)
  /-- The resident kernel has been released since commit (R186). -/
  resident : Bool
  /-- The inhibit request line (R188). -/
  inh : Bool
  arc : ArcState
deriving DecidableEq, Repr


/-- A task context and its cycle (R194, R198). -/
structure TaskCtx where
  w : Sparse Word
  n : Bool
  z : Bool
  c : Bool
  v : Bool
  pc : Nat
  calls : List Nat
  /-- 0 idle, 1 released, 2 reading the image, 3 running the program, 4 ended, awaiting its flushes. -/
  phase : Nat
  job : Option Nat
  /-- Release boundary: tick number, strobe count and ns. -/
  relTick : Nat
  strobe : Nat
  relNs : Nat
  /-- Conditions for W28 of the next cycle: first after commit, first after resumption, previous release skipped. -/
  first : Bool
  resumed : Bool
  skipped : Bool
  cycles : Nat
  /-- The program bank the task's code runs from. -/
  bank : Bool
  /-- The present cycle is an exchange cycle. -/
  exch : Bool
deriving DecidableEq, Repr

/-- The logic engine (chapter 08). -/
structure LogState where
  bank0 : Sparse Word
  bank1 : Sparse Word
  vmem : List Host.Cell
  dirtyA : Sparse Bool
  dirtyB : Sparse Bool
  tasks : Sparse TaskCtx
  /-- The programs of banks 0 and 1 (R193). -/
  prog0 : LogProg
  prog1 : LogProg
  /-- Owner of each page now: 0 none, task + 1. -/
  pages : Sparse Nat
  /-- Strobe count (R194). -/
  strobes : Nat
  /-- Kind with which each timer instance has been evaluated: 0 none, kind + 1 (R215). -/
  timerKinds : Sparse Nat
  /-- Acceptance of the exchange request in ns, X, and the tasks still to exchange. -/
  reqNs : Option Nat
  x : Option Nat
  toExch : List Nat
deriving DecidableEq, Repr

/-- A program of no length. -/
def LogProg.empty : LogProg :=
  { len := 0, pages := [], inputs := [], outputs := [], init := [], table := [], tasks := [] }

/-- The logic engine after reset. -/
def LogState.zero : LogState :=
  { bank0 := [], bank1 := [], vmem := [], dirtyA := [], dirtyB := [], tasks := [], prog0 := LogProg.empty,
    prog1 := LogProg.empty,
    pages := [], strobes := 0, timerKinds := [], reqNs := none, x := none, toExch := [] }


/-- A record in progress (R220). -/
structure JrnRec where
  tick : Nat
  epoch : Nat
  /-- Bytes of the loop section, read from the output close of the capture on. -/
  loops : List Byte
  nLoop : Nat
  half : Nat
  stage : StageSnap
  /-- Bytes of the output section, read at input close of the next tick (R220). -/
  outs : Option (List Byte)
deriving DecidableEq, Repr

/-- A hold-up test under way (R231). -/
structure HoldTest where
  start : Nat
  v0 : Option Nat
deriving DecidableEq, Repr

/-- The journal writer and the hold-up check (chapter 09). -/
structure JrnState where
  /-- Captures taken so far: half k mod 2 of the staging area is capture k's (R219). -/
  captures : Nat
  cur : Option JrnRec
  /-- Sweep pointer r (R222). -/
  sweep : Nat
  /-- Journal marks of the LOG_RET region and of the sequencer tables, by line (R221). -/
  logMarks : Sparse Bool
  seqMarks : Sparse Bool
  /-- The staging halves, and the staging content of the records in the ring, by head line. -/
  stage : Sparse (Option StageSnap)
  kept : Sparse (Option StageSnap)
  /-- PREV of the next record: head line of the last record. -/
  prev : Nat
  test : Option HoldTest
  /-- The HOLD_LOAD pin. -/
  load : Bool
  /-- The arming state in force: 0 UNTESTED, 1 ARMED, 2 NOT_ARMED (R232). -/
  force : Nat
  /-- A test has fallen due (R230), and one has run since the device became idle. -/
  due : Bool
  idleTested : Bool
  /-- A test was called for at the first strobe after commit. -/
  first : Bool
  /-- IMAGE_ID of the committed image: 32 bytes of its digest (R227). -/
  imageId : List Byte
  /-- Head line of the record chosen for a restore (R236). -/
  chosen : Option Nat
  /-- End of the restore, in ns (R239). -/
  restoredAt : Option Nat
  /-- PFAIL_N is low. -/
  pfail : Bool
deriving DecidableEq, Repr



/-- A conversion of a slice (R244, R250): `kind` as KIND of R251. -/
structure AdcConv where
  kind : Nat
  urgent : Bool
deriving DecidableEq, Repr

/-- The newest complete result of an input: Q15 result, corrected code, sampling instant in 2^-32 ns, and whether it is
new since the last strobe (R251, R252). -/
structure AdcResult where
  q : Nat
  y : Nat
  at_ : Nat
  fresh : Bool
deriving DecidableEq, Repr

/-- A slice (R244, R250). -/
structure AdcSlice where
  /-- The conversion running, and those ended whose results are not complete. -/
  run : Option AdcConv
  flight : List AdcConv
  /-- The urgent slot, the aborted conversion, the ordinary slot. -/
  urgent : Bool
  restart : Option AdcConv
  ordinary : Bool
  /-- A trigger's delay is counting. -/
  counting : Bool
  /-- The next continuous conversion is of SEL1. -/
  next1 : Bool
  /-- Newest results and mean windows, by KIND. -/
  res : Sparse (Option AdcResult)
  window : Sparse (List Nat)
deriving DecidableEq, Repr

/-- A converter group. -/
structure AdcGroup where
  slices : Sparse AdcSlice
  /-- y_prev of R245. -/
  yPrev : Option Nat
  /-- Last restart of each trigger timer, in ns (R249). -/
  timers : Sparse Nat
  /-- A calibration is requested. -/
  calReq : Bool
  /-- The commit calibration has ended: the group converts (R248). -/
  started : Bool
  /-- The output stage towards col pair 20 (R247). -/
  stage : List Nat
deriving DecidableEq, Repr

/-- Converters and analog outputs (chapter 10). -/
structure AdcState where
  groups : Sparse AdcGroup
  /-- The first strobe since commit has passed: enabled channels have left their hardware reset state (R255). -/
  dacLive : Bool
deriving DecidableEq, Repr



/-- A profile generator (R264 to R266): P and T in 2^-32 step, signed 64 bits; u, s; the window, newest first; a ramped stop
runs. -/
structure Prof where
  p : Int
  u : Nat
  dir : Int
  t : Int
  win : List Int
  ramp : Bool
deriving DecidableEq, Repr

/-- A limit or home input (R271): samples of the run, x at its first sample, armed, level and samples at that level. -/
structure LimIn where
  run : Nat
  cand : Int
  armed : Bool
  level : Bool
  steady : Nat
deriving DecidableEq, Repr

/-- An axis (chapter 11). -/
structure AxisSt where
  prof : Prof
  ins : Sparse LimIn
  /-- L of R272. -/
  refL : Option Int
  ofs : Int
  /-- Current level I, regulator states, duty words of the four channels that the next valley loads. -/
  cur : Int
  regA : Int
  regB : Int
  duty : List Nat
  /-- Load figure: sum and number of values of the present full step, its number, and sc (R270). -/
  emf : Int
  emfN : Nat
  full : Int
  sc : Nat
  /-- A move is under way. -/
  moving : Bool
  /-- The axis follows its group's path. -/
  grouped : Bool
  /-- Steps made in the last interval, and the direction of the last step: true negative (R268). -/
  dx : Int
  dirNeg : Bool
  /-- The target word read at the last strobe, and the value last refused (R267). -/
  tgt : Nat
  refused : Option Nat
  /-- The journalled T, until resumption (R275). -/
  tJrn : Option Int
  /-- A fault or the power fail keeps both gates of its channels low. -/
  low : Bool
deriving DecidableEq, Repr

/-- The path of an interpolation group (R273): the members with X_i and d_i. -/
structure MotGroup where
  prof : Prof
  active : Bool
  leader : Nat
  dist : Nat
  members : List (Nat × Int × Int)
deriving DecidableEq, Repr

/-- The values of an axis as of a strobe (R274). -/
structure AxisView where
  x : Nat
  speed : Nat
  stat : Nat
  load : Nat
  cur : Nat
deriving DecidableEq, Repr

/-- A sigma-delta input: a new output since the last strobe, and its short time. -/
structure SdmIn where
  fresh : Bool
  at_ : Nat
deriving DecidableEq, Repr

/-- Motion (chapter 11). -/
structure MotState where
  /-- The copy of the axis table, 16 words per axis (R262). -/
  table : Sparse (List Nat)
  axes : Sparse AxisSt
  groups : Sparse MotGroup
  snap : Sparse (Option AxisView)
  sdm : Sparse SdmIn
  /-- Standalone channels in their hardware reset state: both gates low. -/
  pwmOn : Sparse Bool
deriving DecidableEq, Repr



/-- An encoder channel (R285 to R287): accepted levels AB, illegal transitions of the 20 most recent tick intervals, newest
first, and the lines that disagree. -/
structure EncSt where
  ab : Nat
  ill : List Nat
  wire : Nat
deriving DecidableEq, Repr

/-- An SSI channel (R293): since the last strobe a frame was good, the last frame failed; SAMPLED of the last good frame. -/
structure SsiSt where
  good : Bool
  failed : Bool
  at_ : Nat
deriving DecidableEq, Repr

/-- A compare unit (R295): L, and whether its pulse runs. -/
structure CmpUnit where
  l : Int
  pulse : Bool
deriving DecidableEq, Repr

/-- Position feedback and compare (chapter 12). -/
structure PosState where
  enc : Sparse EncSt
  ssi : Sparse SsiSt
  cmp : Sparse CmpUnit
deriving DecidableEq, Repr


/-- A safe input, or an EMO channel, of the island (R305 to R308). -/
structure SafeIn where
  /-- Accepted level. -/
  level : Bool
  /-- First unmasked sample of a pending change, in safety-vale cycles. -/
  pend : Option Nat
  /-- INPUT_FAULT and TEST_OVERDUE, latched. -/
  fault : Bool
  overdue : Bool
  /-- The last test sample failed. -/
  bad : Bool
  /-- Instant at which the input last began to read 1; none while it reads 0. -/
  press : Option Nat
deriving DecidableEq, Repr

/-- A test-pulse source (R306). -/
structure SafeSrc where
  /-- Start of the last pulse. -/
  start : Option Nat
  /-- Instant at which the next pulse falls due. -/
  due : Nat
  postponed : Bool
deriving DecidableEq, Repr

/-- A safe output (R309 to R312). -/
structure SafeOut where
  /-- Commanded energised. -/
  cmd : Bool
  /-- Instant of the last change of the command. -/
  cmdAt : Nat
  /-- Start of the last off-pulse since the output energised, and when the next falls due. -/
  pulse : Option Nat
  due : Nat
  fault : Bool
  /-- The fault has been cleared and the output has not energised since (R312). -/
  cleared : Bool
  /-- SRBn has read de-energised since this instant. -/
  rbOff : Option Nat
  /-- The driver has de-energised its output on its own (R301). -/
  latch : Bool
deriving DecidableEq, Repr

/-- A function of the safety matrix (R317). -/
structure SafeFn where
  result : Bool
  /-- What the outputs follow: the result after its DELAY. -/
  permit : Bool
  /-- The raw result has been 1 since this instant. -/
  rawAt : Option Nat
  /-- Instant at which the running DELAY began. -/
  delay : Option Nat
  /-- The DUAL operands have differed since this instant. -/
  differ : Option Nat
  /-- DISCREPANCY is latched; both operands have read 0 since. -/
  disc : Bool
  zeroed : Bool
deriving DecidableEq, Repr

/-- One path of a receive connection (R321). -/
structure SafePath where
  counter : Nat
  data : Nat
  /-- Instant of the last accepted frame; none before the first. -/
  accepted : Option Nat
  /-- It has been accepted within 4 ms. -/
  live : Bool
  late : Bool
  /-- Round trip in microseconds. -/
  trip : Nat
deriving DecidableEq, Repr

/-- A receive connection (R321). -/
structure SafeRx where
  p0 : SafePath
  p1 : SafePath
  bits : Nat
  /-- Instant from which the paths disagree on a bit. -/
  differ : Sparse (Option Nat)
deriving DecidableEq, Repr

/-- A transmit connection (R319, R320): the last COUNTER, the bits last sent and the instants of the last frames. -/
structure SafeTx where
  counter : Nat
  bits : Nat
  sent : List (Nat × Nat)
deriving DecidableEq, Repr

/-- The safety island (chapter 13). Instants are in safety-vale cycles since island POR. -/
structure SafState where
  /-- The island's POR stands (R491). -/
  por : Bool
  /-- State of R303. -/
  st : Nat
  /-- SAF_FAULT [5:0], the internal faults. -/
  faults : Nat
  scan : Nat
  /-- First cycle of the present scan. -/
  cyc : Nat
  /-- The running configuration in the island SRAM, the island store and the pending block: bytes, empty for none. -/
  cfg : List Byte
  store : List Byte
  pend : List Byte
  pendAt : Nat
  /-- The pieces of an offer so far. -/
  offer : List Byte
  ins : Sparse SafeIn
  srcs : Sparse SafeSrc
  outs : Sparse SafeOut
  fns : Sparse SafeFn
  rx : Sparse SafeRx
  tx : Sparse SafeTx
  /-- EMO demand stands; both channels have read 1 since; the channels have differed since; EMO_DISCREPANCY and whether both
  have read 0 since (R315). -/
  emo : Bool
  emoAt : Option Nat
  emoDiffer : Option Nat
  emoDisc : Bool
  emoZeroed : Bool
  /-- PFAIL_N as the island has accepted it. -/
  pf : Bool
  /-- Readback levels at the last scan. -/
  srb : Nat
  /-- Serial of the newest event-ring entry; entries overwritten (R501). -/
  serial : Nat
  overwrites : Nat
  /-- Messages in the mailbox gate with the time-out unit of their sender (R324). -/
  gate : List (Option Nat × MboxMsg)
  /-- Messages acknowledged so far; the next slot of the acknowledgement ring. -/
  acks : Nat
  /-- The last acknowledgement carried an error code. -/
  ackError : Bool
deriving DecidableEq, Repr

/-- An input, a source, an output, a function, a path and the connections as island POR leaves them. -/
def SafeIn.zero : SafeIn := { level := false, pend := none, fault := false, overdue := false, bad := false, press := none }
def SafeSrc.zero : SafeSrc := { start := none, due := 0, postponed := false }
def SafeOut.zero : SafeOut :=
  { cmd := false, cmdAt := 0, pulse := none, due := 0, fault := false, cleared := false, rbOff := none, latch := false }
def SafeFn.zero : SafeFn :=
  { result := false, permit := false, rawAt := none, delay := none, differ := none, disc := false, zeroed := false }
def SafePath.zero : SafePath := { counter := 0, data := 0, accepted := none, live := false, late := false, trip := 0 }
def SafeRx.zero : SafeRx := { p0 := SafePath.zero, p1 := SafePath.zero, bits := 0, differ := [] }
def SafeTx.zero : SafeTx := { counter := 0, bits := 0, sent := [] }

/-- The island right after its POR: START, nothing accepted, nothing energised (R299, R303). The store keeps its contents. -/
def SafState.zero (store : List Byte) : SafState :=
  { por := false, st := 0, faults := 0, scan := 0, cyc := 0, cfg := [], store := store, pend := [], pendAt := 0, offer := [],
    ins := [], srcs := [], outs := [], fns := [], rx := [], tx := [], emo := false, emoAt := none, emoDiffer := none,
    emoDisc := false, emoZeroed := false, pf := false, srb := 0, serial := 0, overwrites := 0, gate := [], acks := 0,
    ackError := false }


/-- What the partner announced in its last HELLO (R330, R343). -/
structure PairPeer where
  /-- Role: 0 member, 1 active, 2 standby. -/
  role : Nat
  strap : Bool
  uid : Nat
  image : List Byte
  /-- Boundary from which it is active. -/
  since : Nat
deriving DecidableEq, Repr

/-- A redundant pair (chapter 14). The role and the flags stand in PAIR_STAT. -/
structure PairState where
  /-- PAIR_ROLE as sampled at reset release: preferred active (R328). -/
  strap : Bool
  peer : Option PairPeer
  /-- Boundary from which this unit is active. -/
  since : Nat
  /-- ACT_IN at the last strobe, and the level this unit drives on ACT_OUT (R329). -/
  actIn : Bool
  actOut : Bool
  /-- Ticks of the tick records held, newest first; the newest; the one to load at the next strobe (R331, R332). -/
  recs : List Nat
  last : Option TickRec
  load : Option TickRec
  /-- Strobes in a row with a missing record, and without a toggle (R336). -/
  missRun : Nat
  quietRun : Nat
  /-- A takeover decided: boundary and cause; a step-down decided (R337, R339). -/
  takeAt : Option (Nat × Nat)
  stepAt : Option Nat
  /-- Frame boundary at which a commanded switch-over is decided (R336). -/
  switchAt : Option Nat
  /-- The standby, seen from the active unit, is READY. -/
  peerReady : Bool
  /-- Entries that failed the check since the last frame, the two frames in hand, and runs of failing frames (R334, R335). -/
  fails : List Nat
  own : Option (List Nat × Bool)
  theirs : Option (List Nat × Bool)
  ownRun : Sparse Nat
  theirRun : Sparse Nat
  /-- Fatal event figures at the last frame. -/
  fatalWas : List Nat
  /-- PAIR_NO_TAKEOVER has been posted in this run. -/
  noTake : Bool
  /-- Resynchronisation is under way or called for; valid records applied in a row (R340). -/
  resync : Bool
  good : Nat
  /-- Lines of the journal record under way; the last applied record: tick and staging content (R333). -/
  lines : List (List Byte)
  applied : Option (Nat × StageSnap)
  /-- Requests forwarded by the partner, newest only (R328). -/
  fwd : List Byte
  /-- Force requests accepted in this tick. -/
  forces : List (Nat × Option Word)
  /-- The last tick record sent. -/
  sent : Option TickRec
deriving DecidableEq, Repr

/-- One cascade port (R345 to R348). -/
structure CasPort where
  /-- Frames that wait, in order. -/
  queue : List CasFrame
  /-- Lines of each credit pool spent: key class × 64 + terrace. -/
  spent : Sparse Nat
  /-- Class served last of 2 to 5. -/
  rr : Nat
  seq : Sparse Nat
  /-- The last frame sent. -/
  wire : Option CasFrame
deriving DecidableEq, Repr

/-- The cascade (chapter 14). -/
structure CasState where
  ports : Sparse CasPort
  /-- The image's route table and export list: entry and positions that consume it (R342, R351). -/
  routes : List Route
  exports : List (Nat × List Nat)
  /-- SYS_UID of the last beacon; one has arrived since the last frame boundary (R350). -/
  master : Option Nat
  beacon : Bool
  /-- MASTER_LOST stands, for so many frames; the abort has been made. -/
  lost : Bool
  lostFrames : Nat
  aborted : Bool
  /-- Source positions whose SIGNAL frame arrived in this tick (R351). -/
  got : List Nat
deriving DecidableEq, Repr

/-- A unit, a port and the cascade as a reset leaves them. -/
def PairState.zero : PairState :=
  { strap := false, peer := none, since := 0, actIn := false, actOut := false, recs := [], last := none, load := none, missRun := 0,
    quietRun := 0, takeAt := none, stepAt := none, switchAt := none, peerReady := false, fails := [], own := none,
    theirs := none, ownRun := [], theirRun := [], fatalWas := [], noTake := false, resync := false, good := 0, lines := [],
    applied := none, fwd := [], forces := [], sent := none }
def CasPort.zero : CasPort := { queue := [], spent := [], rr := 5, seq := [], wire := none }
def CasState.zero : CasState :=
  { ports := [], routes := [], exports := [], master := none, beacon := false, lost := false, lostFrames := 0, aborted := false,
    got := [] }

/-- A learned address (R373). -/
structure NetAddr where
  mac : Nat
  vid : Nat
  port : Nat
  /-- Instant at which it was last seen, in ns. -/
  seen : Nat
deriving DecidableEq, Repr

/-- A frame in an egress queue: a frame for several ports keeps one identity and one set of buffer cells. -/
structure NetQueued where
  id : Nat
  len : Nat
  queue : Nat
  /-- Instant of entry, in ns. -/
  entered : Nat
  /-- The correctionField of a PTP event message that a transparent clock corrects (R366). -/
  corr : Option Int
deriving DecidableEq, Repr

/-- One switch port: queued frames in order, gate lists in force, due at the next cycle and written, and the token bucket of queue 1 (R374, R377). -/
structure NetPort where
  queued : List NetQueued
  gcl : Sparse Word
  due : Sparse Word
  written : Sparse Word
  /-- SWAP has been written: the number of the gate-list cycle in which it was. -/
  swap : Option Nat
  /-- Entry of the gate list in force. -/
  entry : Nat
  tokens : Nat
  tokensAt : Nat
  /-- Identity of the last frame sent. -/
  sent : Option Nat
  /-- The correctionField with which it left, where it was a corrected PTP event message. -/
  sentCorr : Option Int
deriving DecidableEq, Repr

/-- The switch (chapter 16). -/
structure NetState where
  ports : Sparse NetPort
  table : List NetAddr
  /-- VLANs of the image: VID and member ports (R373). -/
  vlans : List (Nat × Nat)
  /-- Station MAC addresses of XE0 and XE1, from the image's network block (R376). -/
  mac0 : Nat
  mac1 : Nat
  nextId : Nat
  /-- The last domain frame was answered BUSY (R378). -/
  busy : Bool
deriving DecidableEq, Repr

/-- A remote I/O module as its ring engine sees it (R383 to R386). -/
structure RioMod where
  st : Nat
  ver : Nat
  fwd : Nat
  miss : Nat
  configured : Bool
  /-- Input image of the last GOOD segment, and its SAMPLED; `fresh` until it is latched. -/
  image : List Byte
  sampled : Nat
  fresh : Bool
  diagPend : Bool
deriving DecidableEq, Repr

/-- A ring (R379 to R391). Its state, counts and round trip stand in registers. -/
structure RioRing where
  mods : Sparse RioMod
  cyc : Nat
  /-- CYCLE frames sent and not returned in the present cycle. -/
  out : List Nat
  /-- Output bytes and DISABLE of each segment of the present cycle. -/
  segs : Sparse (List Byte × Bool)
  /-- The last diagnostic data: module and bytes. -/
  diag : Option (Nat × List Byte)
deriving DecidableEq, Repr

/-- The remote I/O engines. -/
structure RioState where
  rings : Sparse RioRing
  /-- The image's ring tables: key ring × 128 + module. -/
  table : Sparse RioEntry
  /-- POWER_FAIL has silenced the rings (R390). -/
  silent : Bool
deriving DecidableEq, Repr

/-- A port, a module, a ring and the two units as a reset leaves them. -/
def NetPort.zero : NetPort :=
  { queued := [], gcl := [], due := [], written := [], swap := none, entry := 0, tokens := 16384, tokensAt := 0, sent := none, sentCorr := none }
def NetState.zero : NetState :=
  { ports := [], table := [], vlans := [], mac0 := 0, mac1 := 0, nextId := 0, busy := false }
def RioMod.zero : RioMod :=
  { st := 0, ver := 0, fwd := 0, miss := 0, configured := false, image := [], sampled := 0, fresh := false, diagPend := false }
def RioRing.zero : RioRing := { mods := [], cyc := 0, out := [], segs := [], diag := none }
def RioState.zero : RioState := { rings := [], table := [], silent := false }
def RioEntry.zero : RioEntry := { ty := 0, outLen := 0, inLen := 0, frame := 0 }


/-- A CAN message object's running state (R397, R400 to R404). -/
structure CanObj where
  /-- A transmit frame is pending, and another is to follow it. -/
  pend : Bool
  again : Bool
  /-- Pending at POWER_FAIL: a frame of it in progress completes (R402). -/
  ending : Bool
  /-- Words taken at the last strobes, newest first: those since the frame became pending, at least one. -/
  taken : List (List Word)
  /-- Strobes at which a PERIODIC frame was due, of the same strobes. -/
  due : List Bool
  /-- Words of the last frame sent. -/
  sent : Option (List Word)
  /-- Strobes since the last PERIODIC frame fell due. -/
  since : Nat
  /-- Consecutive attempts that ended in a data or CRC bit error. -/
  errRun : Nat
  /-- The newest frame received: word 0, DLC, start-of-frame short time; frames received; one since the last output close;
  LOST as shown. -/
  newId : Nat
  newDlc : Nat
  sof : Nat
  count : Nat
  got : Bool
  lost : Bool
deriving DecidableEq, Repr

/-- A CAN controller (chapter 17). -/
structure CanCtl where
  /-- Words 0 and 1 of its 64 objects and of its 32 filters, as committed: keys 0 to 127 and 128 to 191 (R395). -/
  table : Sparse Nat
  objs : Sparse CanObj
  /-- Consecutive ACK errors (R404). -/
  ackRun : Nat
  /-- Frames put into each FIFO, and entries delivered in this tick. -/
  fifoCount : Sparse Nat
  fifoValid : Sparse Bool
  /-- The last frame sent: object, word 0, DLC and data bytes. -/
  sent : Option (Nat × Nat × Nat × List Byte)
deriving DecidableEq, Repr

/-- The CAN controllers; `off` after POWER_FAIL (R402). -/
structure CanState where
  ctls : Sparse CanCtl
  off : Bool
deriving DecidableEq, Repr

/-- The controllers as a reset leaves them. -/
def CanObj.zero : CanObj :=
  { pend := false, again := false, ending := false, taken := [], due := [], sent := none, since := 0, errRun := 0, newId := 0, newDlc := 0,
    sof := 0, count := 0, got := false, lost := false }
def CanCtl.zero : CanCtl := { table := [], objs := [], ackRun := 0, fifoCount := [], fifoValid := [], sent := none }
def CanState.zero : CanState := { ctls := [], off := false }



/-- A container of the running image: its digest, the tick in its applied line, and its exchange table (R444, R445). -/
structure ImgItem where
  digest : List Byte
  applied : Option Nat
  exch : List ExchEntry
deriving DecidableEq, Repr

/-- What the verify pass found in a copy (R436): RESULT as BOOT_COPYn codes it, and, where it is intact, GEN, KEY_ID, SVN,
LENGTH, the digest of the base and the digests and applied ticks of the intact changes. -/
structure CopyInfo where
  result : Nat
  gen : Nat
  keyId : Nat
  svn : Nat
  length : Nat
  digest : List Byte
  chain : List (List Byte × Option Nat)
deriving DecidableEq, Repr

/-- A change that has been accepted for R444: its container, what its sections hold, and whether it is persistent. -/
structure Change where
  image : List Byte
  extra : ImgExtra
  staged : Bool
deriving DecidableEq, Repr

/-- The loader (chapter 19). -/
structure BootState where
  /-- BOOT_SEL as sampled at reset release (R430). -/
  sel : Nat
  /-- The quad pass of BOOT_SEL 0b00 is under way (R431). -/
  quad : Bool
  /-- The boot directory in use: 64 bytes, none before it is read (R432). -/
  dir : List Byte
  /-- Copies judged in this pass. -/
  copies : Sparse (Option CopyInfo)
  /-- The content the load pass reads, and whether it came from the host or from the snapshot. -/
  pick : Option CopyInfo
  host : Bool
  hib : Bool
  /-- The committed image: base digest, KEY_ID, SVN, GEN, bytes of the chain with its applied lines, and the chain (R442). -/
  digest : List Byte
  keyId : Nat
  svn : Nat
  gen : Nat
  bytes : Nat
  chain : List ImgItem
  /-- Instant of reset release, in ns. -/
  relNs : Nat
  change : Option Change
  /-- The last write to the external memory: copy, offset, erased before, bytes (R451). -/
  wrote : Option (Nat × Nat × Bool × List Byte)
deriving DecidableEq, Repr

/-- Security and authenticated debug (chapter 20). The key store survives every reset. -/
structure SecState where
  /-- Lifecycle state in force, and the one the next reset applies (R456, R457). -/
  life : Nat
  next : Nat
  floor : Nat
  /-- Keys by slot; an empty list is an empty slot (R458). -/
  pub : Sparse (List Byte)
  aes : Sparse (List Byte)
  /-- Words written to SEC_KEY_DATA since the last KEY_WRITE. -/
  keyBuf : Sparse Word
  /-- The erasure of R460 has been made. -/
  erased : Bool
  /-- A CHALLENGE is being drawn; the instant of issue of the challenge that stands; VERIFY is in progress (R462). -/
  drawing : Bool
  issued : Option Nat
  verifying : Bool
  /-- A halt is requested; tick H of the halt in force; its end is requested (R471, R472). -/
  haltReq : Bool
  haltAt : Option Nat
  resumeReq : Bool
deriving DecidableEq, Repr

/-- Where the capture stands that goes before DOZE and deeper states (R468): none called for, called for, in progress,
complete. -/
inductive SleepCapture where
  | none | wanted | taken | complete
deriving DecidableEq, Repr

/-- The power manager (R464 to R468). -/
structure PwrState where
  /-- Vales whose clocks the present state has stopped, as bits of CLK_VALE_STAT. -/
  stopped : Nat
  /-- CAUSE of the wake under way. -/
  waking : Option Nat
  /-- Instant at which the timed wake begins, in ns. -/
  wakeAt : Option Nat
  /-- The capture that goes before DOZE and deeper states (R468). -/
  capture : SleepCapture
deriving DecidableEq, Repr

/-- A request that waits on another block: its TYPE, and the island's acknowledgement number where it waits for one. -/
structure ShpWait where
  req : ShpReq
  ty : Nat
  serial : Nat
  remote : List (Nat × Nat)
deriving DecidableEq, Repr

/-- A session of the SHP engine (R447, R448). -/
structure ShpSess where
  priv : Bool
  client : Nat
  ver : Nat
  /-- Instant of the last message, in ns. -/
  last : Nat
  /-- The stored reply. -/
  reply : Option ShpMsg
  wait : Option ShpWait
  /-- Notifications asked for: FAULT records, PROCESS records, change and pair events; their SEQ; next serials. -/
  noteF : Bool
  noteP : Bool
  noteX : Bool
  noteSeq : Nat
  nextF : Nat
  nextP : Nat
deriving DecidableEq, Repr

/-- The SHP engine and the PCIe endpoint (chapter 19). -/
structure HstState where
  sessions : Sparse (Option ShpSess)
  /-- The latest challenge of each client, with the session offered (R447). -/
  offers : List (Nat × Nat × List Byte)
  /-- The last reply, and the notifications of the last strobe. -/
  wire : Option ShpMsg
  notes : List ShpMsg
  /-- MSI-X vectors sent at the last strobe (R454). -/
  msixSent : List Nat
  /-- Subscription entries in force from the next tick (R451). -/
  subs : List (Nat × List Byte)
  /-- Figures that MSI-X and NOTIFY watch, as they stood at the last strobe. -/
  seen : List Nat
  /-- Sequences that have changed step since the last strobe (R454). -/
  stepped : List Nat
  /-- What the last BAR or debug-port read returned. -/
  barData : List Byte
  debugData : Option Word
deriving DecidableEq, Repr

/-- Loader, power manager and host engine as a reset leaves them. -/
def BootState.zero : BootState :=
  { sel := 0, quad := false, dir := [], copies := [], pick := none, host := false, hib := false, digest := [], keyId := 0,
    svn := 0, gen := 0, bytes := 0, chain := [], relNs := 0, change := none, wrote := none }
def PwrState.zero : PwrState := { stopped := 0, waking := none, wakeAt := none, capture := .none }
def HstState.zero : HstState :=
  { sessions := [], offers := [], wire := none, notes := [], msixSent := [], subs := [], seen := [], stepped := [],
    barData := [], debugData := none }

/-- The security engine on an OPEN device whose key store holds the vendor image key only. -/
def SecState.zero : SecState :=
  { life := 0, next := 0, floor := 0, pub := [(0, List.replicate 96 0)], aes := [], keyBuf := [], erased := false,
    drawing := false, issued := none, verifying := false, haltReq := false, haltAt := none, resumeReq := false }

/-- What is fixed for one unit on one board: identity, straps and stepping data (R2, R103, R430). -/
structure UnitState where
  order : Nat
  uid0 : Nat
  uid1 : Nat
  vker : Nat
  cascPos : Nat
  /-- The unit test record of an SK7400-X2 (R449). -/
  record : List Byte
deriving DecidableEq, Repr

/-- The state of the block. -/
structure State where
  /-- Every register of R480, by address; an unlisted address holds its reset value. -/
  regs : Sparse Word
  /-- The Plain, by byte offset from 0x8000_0000, the safety window bank included; an unlisted byte reads 0 (R6, R41). -/
  plain : List Host.Cell
  /-- The retained store, by byte offset from 0x9000_0000; an unlisted byte reads 0 (R6, R216). -/
  retained : List Host.Cell
  unitc : UnitState
  vales : ValesState
  time : TimeState
  arb : ArbState
  sch : SchState
  sig : SigState
  seq : SeqState
  loop : LoopState
  lanes : Sparse LaneSt
  log : LogState
  /-- Precise sampling: instructions retired per engine since its last sample, and the next entry (R478). -/
  psRetired : Sparse Nat
  psNext : Nat
  jrn : JrnState
  mdw : MdwState
  adc : AdcState
  mot : MotState
  pos : PosState
  /-- The safety island (chapter 13). -/
  saf : SafState
  /-- The redundant pair and the cascade (chapter 14). -/
  pair : PairState
  cas : CasState
  /-- The Ethernet switch and the remote I/O rings (chapter 16). -/
  net : NetState
  rio : RioState
  /-- The CAN controllers (chapter 17). -/
  can : CanState
  /-- Loader, security, power and host (chapters 19 and 20). -/
  boot : BootState
  sec : SecState
  pwr : PwrState
  hst : HstState
  /-- The model's own: the next free value, and the undefined case met by the command under way. -/
  free : Nat
  trap : Option Nat
  /-- The commands that wait, first in, first out. -/
  pending : List Instr
deriving DecidableEq, Repr

/-- The state right after a power-on reset whose supplies have come up: reset held, waiting for its release (R33, R35). -/
def State.reset : State :=
  { regs := []
    plain := []
    retained := []
    unitc := { order := 1, uid0 := 0, uid1 := 0, vker := 0, cascPos := 0, record := [] }
    vales := { phase := .held, nresetLow := false, xinStopped := false, pllUnlocked := false, porHeld := false,
               lastDrop := none, drops := 0, vddSafe := true }
    time := { now := 0, phase := .none, tick := 0, nextTick := 0, sinceRise := 0, slew := 0, step := none, set := none,
              inLock := 0, shift := 0, delays := [], twoStep := [], heard := [], sent := [], meas := none }
    arb := { cyc := 1, k := 1, deficit := [(1, 0x72)], rr := [], held := none, bankFree := [], ports := [],
             retQueue := [], resp := [] }
    sch := { relSeq := 0, jobs := [], latched := [], running := [], first := [], missMarks := [], ended := [], loadStrobes := 0,
             flowPosts := [], timeouts := [], retry := [] }
    sig := { openSet := [], frozenSet := [], openGrp := [], frozenGrp := [], parked := [], parkWait := [],
             parkFull := false, forces := [], prefetched := [], prefetchDone := [], taken := [], held := [], late := [] }
    mdw := MdwState.zero
    seq := { ctx := [], ramps := [], queue := [], resumeSlot := false, lastEval := none, changes := [], commitAt := none,
             closes := [], answers := [] }
    jrn := { captures := 0, cur := none, sweep := 0, logMarks := [], seqMarks := [], stage := [], kept := [], prev := 0,
             test := none, load := false, force := 0, due := false, idleTested := false, first := false, imageId := [],
             chosen := none, restoredAt := none, pfail := false }
    lanes := []
    log := LogState.zero
    psRetired := []
    psNext := 0
    adc := { groups := [], dacLive := false }
    mot := { table := [], axes := [], groups := [], snap := [], sdm := [], pwmOn := [] }
    pos := { enc := [], ssi := [], cmp := [] }
    saf := SafState.zero []
    pair := PairState.zero
    cas := CasState.zero
    net := NetState.zero
    rio := RioState.zero
    can := CanState.zero
    boot := BootState.zero
    sec := SecState.zero
    pwr := PwrState.zero
    hst := HstState.zero
    free := 0
    trap := none
    loop := { active := [], ovr := [], queue := [], started := false, restored := false, marked := [] }
    pending := [] }

end Sys2Proof.Machine
end

