-- ==== Sys2Proof/Machine/Ops.lean ====
section
/-!
DEFINITION. Machine/Ops.lean: the named operations every chapter uses: reading and writing registers and their fields,
the Plain and the retained store, the time counter, event posts, performance counts and hardware time-outs.
-/

namespace Sys2Proof.Machine

/-- What an exec answers. -/
abbrev Res := Host.Outcome State Fault Refusal

/-- The command meets a case that the spec lists as undefined (R7, R482). -/
def State.undef (s : State) (rule : Nat) : State := { s with trap := some rule }

/-- The outcome of a command whose state is `s`: a fault where it met an undefined case. -/
def State.done (s : State) : Res :=
  match s.trap with
  | none => .next s
  | some r => .fault (.undefinedCase r)

/-- The next free value: a number nothing constrains. -/
def State.freeNat (s : State) : Nat := (Config.freeWord s.free).toNat

/-- The state with the next free value used up. -/
def State.useFree (s : State) : State := { s with free := s.free + 1 }

/-! ## Registers -/

/-- The word a register holds. -/
def State.reg (s : State) (a : Nat) : Word := Sparse.get resetValue s.regs a

/-- The state with word `w` in register `a`. -/
def State.setReg (s : State) (a : Nat) (w : Word) : State := { s with regs := Sparse.set resetValue s.regs a w }

/-- The value of field `f`. -/
def State.fld (s : State) (f : Fld) : Nat := bitsOf (s.reg f.addr).toNat f.lo f.width

/-- The state with the low bits of `v` in field `f`. -/
def State.setFld (s : State) (f : Fld) (v : Nat) : State :=
  s.setReg f.addr (BitVec.ofNat 32 (putBits (s.reg f.addr).toNat f.lo f.width v))

/-- Whether field `f` is not 0. -/
def State.flag (s : State) (f : Fld) : Bool := s.fld f != 0

/-- The state with field `f` raised by `k`, saturating at the field's highest value. -/
def State.incFld (s : State) (f : Fld) (k : Nat := 1) : State :=
  s.setFld f (satAdd (2 ^ f.width - 1) (s.fld f) k)

/-- The state with field `f` raised by `k`, wrapping. -/
def State.wrapFld (s : State) (f : Fld) (k : Nat := 1) : State := s.setFld f (s.fld f + k)

/-- The state with field `f` at least `v`: a peak. -/
def State.peakFld (s : State) (f : Fld) (v : Nat) : State := if s.fld f < v then s.setFld f v else s

/-- The state with bit `k` of field `f` set. -/
def State.setBit (s : State) (f : Fld) (k : Nat) : State := s.setFld f (putBits (s.fld f) k 1 1)

/-- The state with bit `k` of field `f` clear. -/
def State.clrBit (s : State) (f : Fld) (k : Nat) : State := s.setFld f (putBits (s.fld f) k 1 0)

/-- Bit `k` of field `f`. -/
def State.bit (s : State) (f : Fld) (k : Nat) : Bool := bitOf (s.fld f) k

/-- The Plain offset a base register names: its field at its own bit position. -/
def State.base (s : State) (f : Fld) : Nat := s.fld f * 2 ^ f.lo

/-- The state with register `a` at its reset value. -/
def State.clrReg (s : State) (a : Nat) : State := s.setReg a (resetValue a)

/-- The state with each register of a list at its reset value. -/
def State.clrRegs (s : State) (as : List Nat) : State := as.foldl State.clrReg s

/-- Applying a state change for each of a list. -/
def State.each {α : Type} (s : State) (l : List α) (f : State → α → State) : State := l.foldl f s

/-! ## Vales (R9) -/

/-- The index of each vale, its bit in CLK_VALE_STAT. -/
def Vale.fabric : Nat := 0
def Vale.lane : Nat := 1
def Vale.logic : Nat := 2
def Vale.scheduler : Nat := 3
def Vale.sequencer : Nat := 4
def Vale.motion : Nat := 5
def Vale.converter : Nat := 6
def Vale.net : Nat := 7
def Vale.link : Nat := 8
def Vale.host : Nat := 9
def Vale.record : Nat := 10
def Vale.can : Nat := 11
def Vale.boot : Nat := 12
def Vale.alwaysOn : Nat := 13
def Vale.safety : Nat := 14

/-- Whether the vale of index `v` runs (CLK_VALE_STAT). -/
def State.runs (s : State) (v : Nat) : Bool := s.bit CLK_VALE_STAT.RUN v

/-- A unit of a pair that is not active releases no work, evaluates no sequence and takes no outputs of its own (R331); a
unit that has not elected its role holds like one that waits (R330). -/
def State.pairHolds (s : State) : Bool :=
  s.flag PAIR_CFG.EN && !(s.fld PAIR_STAT.ROLE = 1 || s.fld PAIR_STAT.ROLE = 2)

/-- The unit is a standby: READY, SYNCING or NOT_READY. -/
def State.pairStandby (s : State) : Bool :=
  s.flag PAIR_CFG.EN && (s.fld PAIR_STAT.ROLE = 3 || s.fld PAIR_STAT.ROLE = 4 || s.fld PAIR_STAT.ROLE = 5)

/-- The output pins stay in their hardware reset states: a unit that is not active, unless it is a standby with SHADOW
(R331). -/
def State.pinsOff (s : State) : Bool := s.pairHolds && !(s.pairStandby && s.flag PAIR_CFG.SHADOW)

/-- Whether an image is committed (SYS_STATE). -/
def State.committed (s : State) : Bool := s.flag SYS_STATE.IMAGE_COMMITTED

/-- A debug halt is in force (R471). -/
def State.halted (s : State) : Bool := s.flag DBG_STAT.HALTED

/-- POWER_FAIL stands (R234): register commands are refused. -/
def State.powerFail (s : State) : Bool := s.fld JRN_STATE.STATE = 5

/-- A register command: nothing in POWER_FAIL (R234). -/
def State.regCommand (s : State) (f : State → State) : Res := if s.powerFail then .next s else .next (f s)

/-! ## The Plain and the retained store -/

/-- What a byte of the Plain reads as that nothing has written (R41). -/
def plainInit (_ : Nat) : Byte := 0

/-- What a byte of the retained store reads as that nothing has written. -/
def retainedInit (_ : Nat) : Byte := 0

/-- Size of the Plain in bytes (R6). -/
def plainSize : Nat := 0x2000000

/-- Size of the retained store in bytes (R6). -/
def retainedSize : Nat := 0x1000000

/-- The canonical form of a memory: addresses strictly rising, no byte listed that reads as unlisted. -/
def Memory.wf (m : List Host.Cell) : Bool := Sparse.wf plainInit m

/-- The little-endian number that the bytes of a list spell. -/
def bytesNat : List Byte → Nat
  | [] => 0
  | b :: t => b.toNat + 256 * bytesNat t

/-- The `n` bytes of a number, least significant first. -/
def natBytes : Nat → Nat → List Byte
  | 0, _ => []
  | n + 1, v => BitVec.ofNat 8 v :: natBytes n (v / 256)

/-- `n` bytes of a memory from address `a`. -/
def Memory.bytes (m : List Host.Cell) (a : Nat) : Nat → List Byte
  | 0 => []
  | n + 1 => Sparse.get plainInit m a :: Memory.bytes m (a + 1) n

/-- A memory with the bytes of a list stored from address `a`. -/
def Memory.store (m : List Host.Cell) (a : Nat) : List Byte → List Host.Cell
  | [] => m
  | b :: t => Memory.store (Sparse.set plainInit m a b) (a + 1) t

/-- The number held in `n` bytes of the Plain at offset `o`. -/
def State.plainNat (s : State) (o n : Nat) : Nat := bytesNat (Memory.bytes s.plain o n)

/-- The word of the Plain at offset `o`. -/
def State.pw (s : State) (o : Nat) : Nat := s.plainNat o 4

/-- Bits of a word of the Plain. -/
def State.pbits (s : State) (o lo w : Nat) : Nat := bitsOf (s.pw o) lo w

/-- The state with bytes stored into the Plain at offset `o`. -/
def State.setPlain (s : State) (o : Nat) (bs : List Byte) : State := { s with plain := Memory.store s.plain o bs }

/-- The state with the word `v` stored into the Plain at offset `o`. -/
def State.setPw (s : State) (o v : Nat) : State := s.setPlain o (natBytes 4 v)

/-- The state with bits of a word of the Plain replaced. -/
def State.setPbits (s : State) (o lo w v : Nat) : State := s.setPw o (putBits (s.pw o) lo w v)

/-- The number held in `n` bytes of the retained store at offset `o`. -/
def State.retNat (s : State) (o n : Nat) : Nat := bytesNat (Memory.bytes s.retained o n)

/-- The word of the retained store at offset `o`. -/
def State.rw (s : State) (o : Nat) : Nat := s.retNat o 4

/-- The state with bytes stored into the retained store at offset `o`. -/
def State.setRet (s : State) (o : Nat) (bs : List Byte) : State := { s with retained := Memory.store s.retained o bs }

/-- The state with the word `v` stored into the retained store at offset `o`. -/
def State.setRw (s : State) (o v : Nat) : State := s.setRet o (natBytes 4 v)

/-! ## Time (R354 to R356) -/

/-- The time in whole nanoseconds. -/
def State.ns (s : State) : Nat := s.time.now / 2 ^ 32

/-- SEC, NS of an instant given in nanoseconds. -/
def secOf (t : Nat) : Nat := t / 1000000000 % 2 ^ 48
def nsOf (t : Nat) : Nat := t % 1000000000

/-- The short time of an instant in nanoseconds (R356). -/
def shortOf (t : Nat) : Nat := t % 2 ^ 32

/-- The short time now. -/
def State.short (s : State) : Nat := shortOf s.ns

/-- Short time `a` is earlier than `b` (R67, R356). -/
def earlier (a b : Nat) : Bool := sext 32 (a + 2 ^ 32 - b % 2 ^ 32) < 0

/-- The epoch in force (R370). -/
def State.epoch (s : State) : Nat := s.fld TIM_EPOCH.EPOCH

/-- Nanoseconds of a tick (R22). -/
def tickNs : Nat := 50000

/-- The instant of the boundary of tick `n`, in ns. -/
def boundaryNs (n : Nat) : Nat := n * tickNs

/-! ## Performance counts (R475, R477) -/

/-- Counter `k` raised by `n`; on a wrap the OVF bit is set and a chained upper counter counts. -/
def State.pmcBump (s : State) (k n : Nat) : State :=
  let v := s.fld (PMC_CNT.COUNT k) + n
  let s1 := s.setFld (PMC_CNT.COUNT k) v
  if v < 2 ^ 32 then s1
  else
    let s2 := if k < 32 then s1.setBit PMC_OVF0.OVF k else s1.setBit PMC_OVF1.OVF (k - 32)
    if k % 2 = 0 ∧ s2.flag (PMC_EVT.CHAIN (k + 1)) then
      let v1 := s2.fld (PMC_CNT.COUNT (k + 1)) + 1
      let s3 := s2.setFld (PMC_CNT.COUNT (k + 1)) v1
      if v1 < 2 ^ 32 then s3
      else if k + 1 < 32 then s3.setBit PMC_OVF0.OVF (k + 1) else s3.setBit PMC_OVF1.OVF (k + 1 - 32)
    else s2

/-- Whether the counters count now (R475): EN, no FREEZE, no halt in force. -/
def State.pmcOn (s : State) : Bool :=
  s.flag PMC_CTL.EN && !s.flag PMC_CTL.FREEZE && !s.flag DBG_STAT.HALTED

/-- `n` occurrences of event `ev` with argument `arg` reach the counters. -/
def State.pmc (s : State) (ev arg : Nat) (n : Nat := 1) : State :=
  if s.pmcOn then
    s.each (List.range 64) fun t k =>
      if t.fld (PMC_EVT.EVENT k) = ev ∧ t.fld (PMC_EVT.ARG k) = arg ∧ ¬ (k % 2 = 1 ∧ t.flag (PMC_EVT.CHAIN k))
      then t.pmcBump k n else t
  else s

/-- A latency of `v` cycles enters the histogram whose bins are `bin`, of shift `sh` (R477). -/
def State.pmcHist (s : State) (bin : Nat → Fld) (sh v : Nat) : State :=
  if s.pmcOn then s.incFld (bin (min 15 (v / 2 ^ sh))) else s

/-! ## Events (R58, R417) -/

/-- A post to Meadow's staging queue: it never waits; at a full queue an identical event raises the newest entry's
repeat count and any other is lost. -/
def State.postRec (s : State) (e : EventRec) : State :=
  if !s.flag MDW_CFG.EN || s.mdw.stopped || !s.runs Vale.record then s
  else
    let s := s.pmc 0x0E 0
    if s.mdw.queue.length < 64 then
      let q := s.mdw.queue ++ [e]
      let s := { s with mdw := { s.mdw with queue := q } }
      (s.setFld MDW_QUEUE.LEVEL q.length).peakFld MDW_QUEUE.PEAK q.length
    else
      let s := s.pmc 0x0E 1
      match s.mdw.queue.getLast? with
      | some l =>
        if l.source = e.source ∧ l.code = e.code ∧ l.fault = e.fault then
          { s with mdw := { s.mdw with queue := s.mdw.queue.dropLast ++
              [{ l with rep := min 65535 (l.rep + 1), last := e.last }] } }
        else s.incFld MDW_LOST.LOST_EVENTS
      | none => s

/-- The event a subsystem posts now: source and code of R415, class, DATA words of R416. -/
def State.eventNow (s : State) (source code : Nat) (fault : Bool) (data : List Nat) : EventRec :=
  { code := code, source := source, fault := fault, ns := nsOf s.ns, sec := secOf s.ns, epoch := s.epoch,
    last := s.short, data := data, node := 0, pos := 0, remote := false, rep := 1 }

/-- A subsystem's post. -/
def State.post (s : State) (source code : Nat) (fault : Bool) (data : List Nat) : State :=
  s.postRec (s.eventNow source code fault data)

/-! ## Hardware time-outs (R80) -/

/-- Units 0 to 63 are pass commits, 64 to 71 journal commits, 72 to 79 mailbox transactions, 80 to 95 host transactions. -/
def State.timeout (s : State) (u : Nat) : Option Nat := Sparse.get (fun _ => none) s.sch.timeouts u

/-- The state with time-out unit `u` armed for short time `e`, or idle. -/
def State.setTimeout (s : State) (u : Nat) (e : Option Nat) : State :=
  { s with sch := { s.sch with timeouts := Sparse.set (fun _ => none) s.sch.timeouts u e } }

/-! ## Waking (R17, R467) -/

/-- Something that needs a vale which the power state has stopped wakes the device: the state is RUN, and CAUSE names the
source. Nothing happens while no vale is stopped. -/
def State.wakeUp (s : State) (cause : Nat) : State :=
  if s.pwr.stopped = 0 then s
  else
    let r := s.fld CLK_VALE_STAT.RUN
    let t := { s with pwr := { s.pwr with stopped := 0, wakeAt := none } }
    ((t.setFld CLK_VALE_STAT.RUN (r ||| s.pwr.stopped)).setFld PWR_STAT.STATE 0).setFld PWR_STAT.CAUSE cause

/-! ## SHP answers (R446 to R450) -/

/-- Session `k`, where it is open. -/
def State.sess (s : State) (k : Nat) : Option ShpSess := Sparse.get (fun _ => none) s.hst.sessions k

/-- The state with session `k` set. -/
def State.setSess (s : State) (k : Nat) (v : Option ShpSess) : State :=
  { s with hst := { s.hst with sessions := Sparse.set (fun _ => none) s.hst.sessions k v } }

/-- The SHP engine sends a reply. A reply that is not OK carries no payload, but for MIXED (R451). -/
def State.shpSend (s : State) (r : ShpReq) (ty status result : Nat) (payload : List Byte) : State :=
  let m : ShpMsg := { client := r.client, ver := r.ver, ty := ty, session := r.session, notify := false, seq := r.seq,
                      status := status, result := result,
                      payload := if status = 0 || status = 0x0D then payload else [] }
  let s := if status = 1 then s.incFld HST_CNT.BUSY else if status = 3 then s.incFld HST_CNT.REFUSED else s
  { s with hst := { s.hst with wire := some m } }

/-- The answer to a request of an open session: the reply is sent and stored (R448); BUSY is not stored, since the request may
be sent again. -/
def State.shpReply (s : State) (r : ShpReq) (ty status result : Nat) (payload : List Byte) : State :=
  let s := s.shpSend r ty status result payload
  match s.sess r.session with
  | some v => s.setSess r.session (some { v with reply := if status = 1 then v.reply else s.hst.wire, wait := none })
  | none => s

/-- The answer to the request that session `k` waits for, whose host-transaction unit is cancelled; an answer that comes after
the time-out is late (R81). -/
def State.shpAnswer (s : State) (k status result : Nat) (payload : List Byte) : State :=
  match s.sess k with
  | some v =>
    match v.wait with
    | some w => (s.setTimeout (80 + k) none).shpReply w.req w.ty status result payload
    | none => s.incFld SCH_EVT_LATE.LATE_EVENT
  | none => s.incFld SCH_EVT_LATE.LATE_EVENT

/-- The island's acknowledgement number `serial`, of a code the spec leaves open, answers the session that waits for it
(R449). -/
def State.shpIsland (s : State) (serial : Nat) : State :=
  match (List.range 16).find? fun k =>
      match s.sess k with
      | some v => (match v.wait with | some w => w.ty = 0x40 && w.serial = serial | none => false)
      | none => false with
  | some k => (s.shpAnswer k 0 0 (natBytes 4 (s.freeNat % 256))).useFree
  | none => s

end Sys2Proof.Machine
end

