-- ==== Sys2Proof/Machine/Signals.lean ====
section
/-!
DEFINITION. Machine/Signals.lean: the signal directory, the two planes, the turn, parking and forces (chapter 04), and
the commands FORCE_SET, FORCE_RELEASE, FORCE_RELEASE_ALL and SIG_CLR_STATS.
-/

namespace Sys2Proof.Machine

/-! ## Directory entries (R86 to R88) -/

/-- Entries in use: SIG_COUNT, a value above 16,384 acting as 16,384. -/
def State.sigCount (s : State) : Nat := min 16384 (s.fld SIG_COUNT.COUNT)

/-- Plain offset of byte `o` of directory entry `i`. -/
def State.dirAt (s : State) (i o : Nat) : Nat := s.base SIG_DIR_BASE.BASE + 64 * i + o

/-- Plain offset of entry `i` in the current-value plane and in the output plane. -/
def State.curAt (s : State) (i : Nat) : Nat := s.base SIG_CUR_BASE.BASE + 4 * i
def State.outAt (s : State) (i : Nat) : Nat := s.base SIG_OUT_BASE.BASE + 4 * i

/-- Plain offset of the word pair of group `g` in the current half and in the output half. -/
def State.grpCurAt (s : State) (g : Nat) : Nat := s.base SIG_GRP_BASE.BASE + 8 * g
def State.grpOutAt (s : State) (g : Nat) : Nat := s.base SIG_GRP_BASE.BASE + 0x2000 + 8 * g

/-- Fields of a directory entry (R88). -/
def State.sigType (s : State) (i : Nat) : Nat := s.pbits (s.dirAt i 0) 0 3
def State.sigSource (s : State) (i : Nat) : Nat := s.pbits (s.dirAt i 0) 3 5
def State.sigOutEn (s : State) (i : Nat) : Bool := s.pbits (s.dirAt i 0) 8 1 = 1
def State.sigRec (s : State) (i : Nat) : Bool := s.pbits (s.dirAt i 0) 9 1 = 1
def State.sigTrace (s : State) (i : Nat) : Bool := s.pbits (s.dirAt i 0) 10 1 = 1
def State.sigHold (s : State) (i : Nat) : Nat := s.pbits (s.dirAt i 0) 11 2
def State.sigPf (s : State) (i : Nat) : Nat := s.pbits (s.dirAt i 0) 13 2
def State.sigNoForce (s : State) (i : Nat) : Bool := s.pbits (s.dirAt i 0) 15 1 = 1
def State.sigSrcRef (s : State) (i : Nat) : Nat := s.pw (s.dirAt i 4)
def State.sigOutRef (s : State) (i : Nat) : Nat := s.pw (s.dirAt i 8)
def State.sigSpan (s : State) (i : Nat) : Nat := s.pw (s.dirAt i 0x0C)
def State.sigOffset (s : State) (i : Nat) : Nat := s.pw (s.dirAt i 0x10)
def State.sigHistLo (s : State) (i : Nat) : Nat := s.pw (s.dirAt i 0x14)
def State.sigHistHi (s : State) (i : Nat) : Nat := s.pw (s.dirAt i 0x18)
def State.sigSafeVal (s : State) (i : Nat) : Nat := s.pw (s.dirAt i 0x1C)
def State.sigGroup (s : State) (i : Nat) : Nat := s.pbits (s.dirAt i 0x20) 0 10
def State.sigKey (s : State) (i : Nat) : Nat := s.pw (s.dirAt i 0x24)
def State.sigOrigin (s : State) (i : Nat) : Nat := s.pw (s.dirAt i 0x2C) + 2 ^ 32 * s.pbits (s.dirAt i 0x30) 0 6

/-- Entry `i` is in use (R87). -/
def State.sigUsed (s : State) (i : Nat) : Bool := i < s.sigCount && s.sigType i != 0

/-- The entries in use. -/
def State.sigs (s : State) : List Nat := (List.range s.sigCount).filter fun i => s.sigType i != 0

/-- Sources whose values are turned: SEQ to HOST (R93). -/
def turnedSource (src : Nat) : Bool := 0x08 ≤ src && src ≤ 0x0F

/-- Sources that latch at the strobe: ADC to RIO (R93). -/
def latchedSource (src : Nat) : Bool := 0x01 ≤ src && src ≤ 0x06

/-- The current-value word of entry `i`. -/
def State.cur (s : State) (i : Nat) : Nat := s.pw (s.curAt i)

/-- The output-plane word of entry `i`. -/
def State.out (s : State) (i : Nat) : Nat := s.pw (s.outAt i)

/-- The signed value of a plane word in the encoding of its TYPE (R89). -/
def planeValue (ty w : Nat) : Int :=
  match ty with
  | 1 => sext 16 w
  | 2 => sext 32 w
  | 3 => ((w % 2 : Nat) : Int)
  | 5 => sext 32 w
  | _ => ((w % 2 ^ 32 : Nat) : Int)

/-! ## Output-plane writes (R95, R96, R101) -/

/-- Output-plane writes are parked now: from output close until strobe arrival in the fabric vale. -/
def State.parking (s : State) : Bool := s.time.phase == .outputClosed || s.time.phase == .risen

/-- The keys under which output-plane words and output-half words are parked: entry `i`, or 16,384 + 2 g + j. -/
def grpKey (g j : Nat) : Nat := 16384 + 2 * g + j

/-- Plain offset of a parked key. -/
def State.keyAt (s : State) (k : Nat) : Nat :=
  if k < 16384 then s.outAt k else s.grpOutAt ((k - 16384) / 2) + 4 * ((k - 16384) % 2)

/-- The state with the key marked in the open turn set. -/
def State.markOpen (s : State) (k : Nat) : State :=
  if k < 16384 then { s with sig := { s.sig with openSet := Sparse.set (fun _ => false) s.sig.openSet k true } }
  else { s with sig := { s.sig with openGrp := Sparse.set (fun _ => false) s.sig.openGrp ((k - 16384) / 2) true } }

/-- A write into the output plane or the output half outside the parking window. -/
def State.outNow (s : State) (k w : Nat) : State := (s.setPw (s.keyAt k) w).markOpen k

/-- A granted write of word `w` to an output-plane key: written and marked, or parked between output close and strobe
arrival, or kept waiting while the parking buffer is full. -/
def State.outWrite (s : State) (k w : Nat) : State :=
  if s.parking then
    let old := Sparse.get (fun _ => none) s.sig.parked k
    if old.isSome || s.sig.parked.length < 256 then
      let p := Sparse.set (fun _ => none) s.sig.parked k (some (BitVec.ofNat 32 w))
      let s := { s with sig := { s.sig with parked := p } }
      let s := s.peakFld SIG_PARK_STAT.PEAK p.length
      if p.length = 256 && !s.sig.parkFull then
        { s with sig := { s.sig with parkFull := true } }.incFld SIG_PARK_STAT.FULL
      else s
    else { s with sig := { s.sig with parkWait := (s.sig.parkWait.filter fun p => p.1 != k) ++ [(k, BitVec.ofNat 32 w)] } }
  else s.outNow k w

/-- A turned writer's write of entry `i`. -/
def State.putSig (s : State) (i w : Nat) : State := s.outWrite i w

/-- A turned writer's write of the pair of group `g` (R101). -/
def State.putGrp (s : State) (g w0 w1 : Nat) : State := (s.outWrite (grpKey g 0) w0).outWrite (grpKey g 1) w1

/-- The key of the output-plane or output-half word at Plain offset `o`, if it lies there. -/
def State.keyOf (s : State) (o : Nat) : Option Nat :=
  let ob := s.base SIG_OUT_BASE.BASE
  let gb := s.base SIG_GRP_BASE.BASE + 0x2000
  if ob ≤ o ∧ o < ob + 0x10000 then some ((o - ob) / 4)
  else if gb ≤ o ∧ o < gb + 0x2000 then some (16384 + (o - gb) / 4)
  else none

/-- A granted write sets the journal mark of its line in the LOG_RET region or in a sequencer table (R221): the lines of the
header table, the step table and the action pool count on from one another. -/
def State.markLine (s : State) (o : Nat) : State :=
  let lr := s.base LOG_RET_BASE.BASE
  let h := s.base SEQ_HDR_BASE.BASE
  let st := s.base SEQ_STEP_BASE.BASE
  let ac := s.base SEQ_ACT_BASE.BASE
  let seqMark (n : Nat) : State :=
    { s with jrn := { s.jrn with seqMarks := Sparse.set (fun _ => false) s.jrn.seqMarks n true } }.setFld
      JRN_STATE.MIRROR_CLEAN 0
  if lr ≤ o ∧ o < lr + 0x200000 then
    { s with jrn := { s.jrn with logMarks := Sparse.set (fun _ => false) s.jrn.logMarks ((o - lr) / 64) true } }
  else if h ≤ o ∧ o < h + 0x1000 then seqMark ((o - h) / 64)
  else if st ≤ o ∧ o < st + 0x100000 then seqMark (64 + (o - st) / 64)
  else if ac ≤ o ∧ o < ac + 0x80000 then seqMark (64 + 16384 + (o - ac) / 64)
  else s

/-- The word that a further write to key `k` merges into: the one parked or kept waiting for it, else the plane's. -/
def State.keyWord (s : State) (k : Nat) : Nat :=
  match Sparse.get (fun _ => none) s.sig.parked k, s.sig.parkWait.find? fun p => p.1 = k with
  | some w, _ => w.toNat
  | none, some p => p.2.toNat
  | none, none => s.pw (s.keyAt k)

/-- A granted write of one byte: a byte of the output plane or output half is merged into its word. -/
def State.storeByte (s : State) (o : Nat) (b : Byte) : State :=
  match s.keyOf o with
  | some k => s.outWrite k (putBits (s.keyWord k) (8 * (o % 4)) 8 b.toNat)
  | none => (s.setPlain o [b]).markLine o

/-- A granted write of the bytes of a list from offset `o`. -/
def State.storeBytes (s : State) (o : Nat) : List Byte → State
  | [] => s
  | b :: t => State.storeBytes (s.storeByte o b) (o + 1) t

/-- The safety window (R41). -/
def inWindow (o : Nat) : Bool := 0x1FF0000 ≤ o && o < 0x2000000

/-- A write that a fabric port makes: into the safety window from port 0 only; from any other port it is discarded and
counted (R42). -/
def State.busWrite (s : State) (port o : Nat) (bs : List Byte) : State :=
  if inWindow o then
    if port = 0 then s.setPlain o bs
    else (s.incFld PLN_WIN_VIOL.COUNT).setFld PLN_WIN_VIOL.PORT port
  else s.storeBytes o bs

/-- A word written by a fabric port. -/
def State.busWord (s : State) (port o w : Nat) : State := s.busWrite port o (natBytes 4 w)

/-! ## Precise sampling (R478) -/

/-- An instruction of engine `e` retires: every PERIOD-th one writes a sample entry through port 23. The issue-to-retire
figure is a free value. -/
def State.psRetire (s : State) (e pc word daddr : Nat) : State :=
  if !s.flag PMC_PS_CFG.EN || s.flag PMC_CTL.FREEZE || s.flag DBG_STAT.HALTED || !s.bit PMC_PS_CFG.ENG e then s
  else
    let n := Sparse.get (fun _ => 0) s.psRetired e + 1
    if n < max 1 (s.fld PMC_PS_CFG.PERIOD) then { s with psRetired := Sparse.set (fun _ => 0) s.psRetired e n }
    else
      let s := { s with psRetired := Sparse.set (fun _ => 0) s.psRetired e 0 }
      if !s.flag PMC_PS_CFG.WRAP && s.fld PMC_PS_STAT.COUNT = 256 then s
      else
        let a := s.base PMC_PS_BASE.BASE + 16 * s.psNext
        let w3 := s.freeNat % 65536 + 65536 * bitsOf s.short 10 16
        let s := s.useFree
        let s := (s.busWord 23 a (pc % 2 ^ 19 + 2 ^ 20 * e)).busWord 23 (a + 4) word
        let s := (s.busWord 23 (a + 8) daddr).busWord 23 (a + 12) w3
        let nx := (s.psNext + 1) % 256
        let s := { s with psNext := nx }
        (s.setFld PMC_PS_STAT.COUNT (min 256 (s.fld PMC_PS_STAT.COUNT + 1))).setFld PMC_PS_STAT.NEXT (nx % 128)

/-! ## Forces (R104 to R107) -/

/-- The slots in use. -/
def State.forceSlots (s : State) : List (Nat × ForceSlot) :=
  s.sig.forces.filterMap fun p => p.2.map fun f => (p.1, f)

/-- Forces in use. -/
def State.forceCount (s : State) : Nat := s.forceSlots.length

/-- The slot of the force on entry `i`. -/
def State.forceOf (s : State) (i : Nat) : Option (Nat × ForceSlot) := s.forceSlots.find? fun p => p.2.index = i

/-- The force value shown for entry `i` now. -/
def State.forced (s : State) (i : Nat) : Option Word :=
  match s.forceOf i with
  | some (_, f) => f.shown
  | none => none

/-- What a slot shows at the next boundary. -/
def ForceSlot.next (f : ForceSlot) : Option Word :=
  f.pend.foldl (fun a p => if p.2 ≤ 1 then p.1 else a) f.shown

/-- The force value that entry `i` shows at the next boundary (R105, R106). -/
def State.forcedNext (s : State) (i : Nat) : Option Word :=
  match s.forceOf i with
  | some (_, f) => f.next
  | none => none

/-- Writing a slot. -/
def State.setForce (s : State) (k : Nat) (f : Option ForceSlot) : State :=
  { s with sig := { s.sig with forces := Sparse.set (fun _ => none) s.sig.forces k f } }

/-- Boundaries that a request accepted now waits: one before output close, two after it (R106). -/
def State.forceWait (s : State) : Nat := if s.parking then 2 else 1

/-- A request accepted by an active unit of a pair also goes into the tick record (R332). -/
def State.noteForce (s : State) (i : Nat) (v : Option Word) : State :=
  if s.flag PAIR_CFG.EN && !s.pairHolds then { s with pair := { s.pair with forces := s.pair.forces ++ [(i, v)] } } else s

/-- A set request for entry `i`: the state and the result code of SIG_FORCE_STAT. -/
def State.forceSet (s : State) (i : Nat) (v : Word) : State × Nat :=
  if !s.sigUsed i || s.sigNoForce i || s.sigSource i = 0x07 then (s, 2)
  else
    match s.forceOf i with
    | some (k, f) => ((s.setForce k (some { f with value := v, pend := f.pend ++ [(some v, s.forceWait)] })).noteForce i (some v), 0)
    | none =>
      match firstBelow 256 (fun k => (Sparse.get (fun _ => none) s.sig.forces k).isNone) with
      | none => (s, 1)
      | some k =>
        ((s.setForce k (some { index := i, value := v, shown := none, pend := [(some v, s.forceWait)] })).noteForce i (some v), 0)

/-- A release request for entry `i`: pending sets go, and the release applies at its boundary. -/
def State.forceRelease (s : State) (i : Nat) : State × Nat :=
  match s.forceOf i with
  | some (k, f) => ((s.setForce k (some { f with pend := [(none, s.forceWait)] })).noteForce i none, 0)
  | none => (s, 3)

/-- A release request for every force. -/
def State.forceReleaseAll (s : State) : State :=
  s.each s.forceSlots fun t p => (t.setForce p.1 (some { p.2 with pend := [(none, t.forceWait)] })).noteForce p.2.index none

/-- A slot after one boundary: requests that have waited are applied; `none` when the force is gone. -/
def ForceSlot.boundary (f : ForceSlot) : Option ForceSlot :=
  let sh := f.next
  let rest := (f.pend.filter fun p => 1 < p.2).map fun p => (p.1, p.2 - 1)
  if sh.isNone && rest.isEmpty then none else some { f with shown := sh, pend := rest }

/-- The forces at a boundary: each slot applies its requests. -/
def State.forceBoundary (s : State) : State :=
  s.each s.forceSlots fun t p => t.setForce p.1 p.2.boundary

/-! ## The turn (R95, R101, R105) -/

/-- Writing a current-value word. -/
def State.setCur (s : State) (i w : Nat) : State := s.setPw (s.curAt i) w

/-- Copying one group pair from the output half to the current half: AGE in the current half is the turn engine's. -/
def State.turnGrp (s : State) (g : Nat) : State :=
  let w0 := putBits (s.pw (s.grpOutAt g)) 16 16 (s.pbits (s.grpCurAt g) 16 16)
  (s.setPw (s.grpCurAt g) w0).setPw (s.grpCurAt g + 4) (s.pw (s.grpOutAt g + 4))

/-- The groups that turned writers own. -/
def State.turnedGroups (s : State) : List Nat :=
  ((s.sigs.filter fun i => turnedSource (s.sigSource i) && s.sigGroup i != 0x3FF).map fun i => s.sigGroup i).eraseDups

/-- AGE of a turned group at a strobe: 0 while STATE is GOOD, one more otherwise (R101). -/
def State.ageGrp (s : State) (g : Nat) : State :=
  let o := s.grpCurAt g
  let a := if s.pbits o 0 2 = 0 then 0 else satAdd 0xFFFF (s.pbits o 16 16) 1
  s.setPbits o 16 16 a

/-- The pair a latching source writes at a strobe: STATE, AGE since the last GOOD latch, SAMPLED (R100). -/
def State.latchGrp (s : State) (g st : Nat) (sampled : Option Nat) : State :=
  let o := s.grpCurAt g
  let a := if st = 0 then 0 else satAdd 0xFFFF (s.pbits o 16 16) 1
  let s1 := s.setPw o (st + a * 65536)
  match sampled with
  | some t => s1.setPw (o + 4) t
  | none => s1

/-- Entry `i` is late in this tick: its latch or turn write does not complete by input close (R25). -/
def State.isLate (s : State) (i : Nat) : Bool := s.sig.late.any fun p => p.1 = i

/-- The turn at strobe arrival: the frozen entries, the forced entries and the entries just released, then the frozen
group pairs; then both frozen sets are clear. `released` are the entries whose force went at this boundary. -/
def State.turn (s : State) (released : List Nat) : State :=
  let frozen := s.sig.frozenSet.map fun p => p.1
  let plainCopy := (frozen ++ (released.filter fun i => turnedSource (s.sigSource i) && !frozen.contains i)).filter
    fun i => (s.forced i).isNone && !s.isLate i
  let s1 := s.each plainCopy fun t i => t.setCur i (t.out i)
  let held := s1.forceSlots.filterMap fun p => p.2.shown.map fun w => (p.2.index, w)
  let s2 := s1.each held fun t p => if t.isLate p.1 then t else t.setCur p.1 p.2.toNat
  let s3 := s2.each (s2.sig.frozenGrp.map fun p => p.1) fun t g => t.turnGrp g
  let s4 := { s3 with sig := { s3.sig with frozenSet := [], frozenGrp := [] } }
  let n := plainCopy.length + held.length
  let s5 := s4.each s4.turnedGroups fun t g => t.ageGrp g
  (s5.setFld SIG_TURN_STAT.LAST n).peakFld SIG_TURN_STAT.MAX n

/-- Strobe arrival in the fabric vale applies the parked writes, and those that waited, and marks them open (R96). -/
def State.applyParked (s : State) : State :=
  let ps := s.sig.parked.filterMap fun p => p.2.map fun w => (p.1, w)
  let s1 := s.each (ps ++ s.sig.parkWait) fun t p => t.outNow p.1 p.2.toNat
  { s1 with sig := { s1.sig with parked := [], parkWait := [], parkFull := false } }

/-- Output close freezes the turn sets (R95, R101). -/
def State.freezeSets (s : State) : State :=
  { s with sig := { s.sig with frozenSet := s.sig.openSet, openSet := [], frozenGrp := s.sig.openGrp, openGrp := [],
                               parkFull := false } }

/-- A force whose entry keeps its KEY moves to the new index; one whose KEY is gone is removed and FORCE_DROPPED posted
(R107). `keyed` gives the new index of a key. -/
def State.remapForces (s : State) (keys : List (Nat × Nat)) (keyed : Nat → Option Nat) : State :=
  s.each s.forceSlots fun t p =>
    match keys.find? (fun q => q.1 = p.2.index) with
    | none => t
    | some q =>
      match keyed q.2 with
      | some j => t.setForce p.1 (some { p.2 with index := j })
      | none => (t.setForce p.1 none).post 0x12 1 true [q.2, p.2.index]

/-! ## The commands -/

/-- FORCE_SET (R104): SIG_FORCE_IDX and SIG_FORCE_VAL name the entry and the value. -/
def execForceSet (s : State) : Res := s.regCommand fun s =>
  let r := s.forceSet (s.fld SIG_FORCE_IDX.INDEX) (s.reg SIG_FORCE_VAL)
  r.1.setFld SIG_FORCE_STAT.RESULT r.2

/-- FORCE_RELEASE (R106). -/
def execForceRelease (s : State) : Res := s.regCommand fun s =>
  let r := s.forceRelease (s.fld SIG_FORCE_IDX.INDEX)
  r.1.setFld SIG_FORCE_STAT.RESULT r.2

/-- FORCE_RELEASE_ALL (R104). -/
def execForceReleaseAll (s : State) : Res := s.regCommand fun s => s.forceReleaseAll.setFld SIG_FORCE_STAT.RESULT 0

/-- SIG_CLR_STATS (R96). -/
def execSigClrStats (s : State) : Res := .next ((s.setFld SIG_TURN_STAT.MAX 0).clrReg SIG_PARK_STAT)

end Sys2Proof.Machine
end

