-- ==== Sys2Proof/Machine/Sched.lean ====
section
/-!
DEFINITION. Machine/Sched.lean: job descriptors, ready lists, dispatch and ordered flows (chapter 03): the operations that
the releasing chapters and the scheduler's own commands share.
-/

namespace Sys2Proof.Machine

/-! ## Descriptors (R63, R64) -/

/-- Plain offset of byte `o` of descriptor `i`. -/
def State.descAt (s : State) (i o : Nat) : Nat := s.base SCH_DESC_BASE.BASE + 32 * i + o

/-- Fields of a descriptor. -/
def State.jDeadline (s : State) (i : Nat) : Nat := s.pw (s.descAt i 0)
def State.jRelSeq (s : State) (i : Nat) : Nat := s.pw (s.descAt i 4)
def State.jClass (s : State) (i : Nat) : Nat := s.pbits (s.descAt i 8) 0 3
def State.jLogic (s : State) (i : Nat) : Bool := s.pbits (s.descAt i 8) 3 1 = 1
def State.jInf (s : State) (i : Nat) : Bool := s.pbits (s.descAt i 8) 4 1 = 1
def State.jOnMiss (s : State) (i : Nat) : Nat := s.pbits (s.descAt i 8) 5 2
def State.jFlowEn (s : State) (i : Nat) : Bool := s.pbits (s.descAt i 8) 7 1 = 1
def State.jFlow (s : State) (i : Nat) : Nat := s.pbits (s.descAt i 8) 8 8
def State.jState (s : State) (i : Nat) : Nat := s.pbits (s.descAt i 8) 16 4
def State.jEngine (s : State) (i : Nat) : Nat := s.pbits (s.descAt i 8) 20 3
def State.jPin (s : State) (i : Nat) : Bool := s.pbits (s.descAt i 8) 23 1 = 1
def State.jEntry (s : State) (i : Nat) : Nat := s.pbits (s.descAt i 0xC) 0 16
def State.jSource (s : State) (i : Nat) : Nat := s.pbits (s.descAt i 0xC) 16 16
def State.jArg0 (s : State) (i : Nat) : Nat := s.pw (s.descAt i 0x10)
def State.jExtend (s : State) (i : Nat) : Nat := s.pbits (s.descAt i 0x14) 0 16
def State.jFlowSeq (s : State) (i : Nat) : Nat := s.pbits (s.descAt i 0x14) 16 16
def State.jEvent (s : State) (i : Nat) : Nat := s.pbits (s.descAt i 0x18) 0 16
def State.jTimed (s : State) (i : Nat) : Bool := s.pbits (s.descAt i 0x18) 16 1 = 1
def State.jExpiry (s : State) (i : Nat) : Nat := s.pw (s.descAt i 0x1C)

/-- STATE values (R64). -/
def jFree : Nat := 0
def jPending : Nat := 1
def jDelayed : Nat := 2
def jWaiting : Nat := 3
def jReady : Nat := 4
def jRunning : Nat := 5
def jHeld : Nat := 6

/-- Writing STATE. -/
def State.setJState (s : State) (i v : Nat) : State := s.setPbits (s.descAt i 8) 16 4 v

/-- Numbers of the releasing sources in SOURCE: the numbers of R415, and free numbers for the sources R415 does not list. -/
def srcAdc : Nat := 0x01
def srcSeq : Nat := 0x08
def srcLoop : Nat := 0x09
def srcLog : Nat := 0x0A
def srcMdw : Nat := 0x11
def srcHst : Nat := 0x13
def srcTim : Nat := 0x16
def srcRec : Nat := 0x17

/-- Quota of a class (R65). -/
def State.quota (s : State) (c : Nat) : Nat :=
  match c with
  | 1 => s.fld SCH_QUOTA0.QA
  | 2 => s.fld SCH_QUOTA0.QB
  | 3 => s.fld SCH_QUOTA1.QA
  | 4 => s.fld SCH_QUOTA1.QB
  | 5 => s.fld SCH_QUOTA2.QA
  | _ => 0

/-- Descriptors of class `c` that are not FREE. -/
def State.occupancy (s : State) (c : Nat) : Nat := (s.sch.jobs.filter fun i => s.jClass i = c).length

/-- SCH_OCCc follows the occupancy of its class. -/
def State.noteOcc (s : State) (c : Nat) : State :=
  (s.setFld (SCH_OCC.NOW c) (s.occupancy c)).peakFld (SCH_OCC.PEAK c) (s.occupancy c)

/-! ## Keys and ready lists (R67, R68) -/

/-- The key of job `i` comes before that of job `j`. -/
def State.keyBefore (s : State) (i j : Nat) : Bool :=
  if s.jInf i != s.jInf j then s.jInf j
  else if !s.jInf i && s.jDeadline i != s.jDeadline j then earlier (s.jDeadline i) (s.jDeadline j)
  else if s.jClass i != s.jClass j then s.jClass i < s.jClass j
  else earlier (s.jRelSeq i) (s.jRelSeq j)

/-- The job of a list whose key comes first. -/
def State.headOf (s : State) : List Nat → Option Nat
  | [] => none
  | i :: t =>
    match State.headOf s t with
    | none => some i
    | some j => if s.keyBefore j i then some j else some i

/-- The ready list of a pool: READY and not pinned. -/
def State.poolReady (s : State) (logic : Bool) : List Nat :=
  s.sch.jobs.filter fun i => s.jState i = jReady && s.jLogic i = logic && !s.jPin i

/-- The ready list of engine `e`, 0 to 7 lanes, 8 to 11 cores: READY and pinned to it. -/
def State.pinReady (s : State) (e : Nat) : List Nat :=
  s.sch.jobs.filter fun i =>
    s.jState i = jReady && s.jPin i && (if s.jLogic i then 8 + s.jEngine i = e else s.jEngine i = e)

/-- Engine `e` is reserved (R69). -/
def State.reserved (s : State) (e : Nat) : Bool :=
  if e < 8 then s.bit SCH_RESERVE.LANE e else s.bit SCH_RESERVE.LOGIC (e - 8)

/-- The descriptor engine `e` runs. -/
def State.running (s : State) (e : Nat) : Option Nat := Sparse.get (fun _ => none) s.sch.running e

/-- Writing what engine `e` runs. -/
def State.setRunning (s : State) (e : Nat) (j : Option Nat) : State :=
  { s with sch := { s.sch with running := Sparse.set (fun _ => none) s.sch.running e j } }

/-- The engine that runs job `i`. -/
def State.engineOf (s : State) (i : Nat) : Option Nat := (List.range 12).find? fun e => s.running e == some i

/-! ## Dispatch (R70) -/

/-- Giving job `i` to engine `e`: the dispatch leaves over col pair 13 or 14. -/
def State.assign (s : State) (i e : Nat) : State :=
  let s1 := (s.setJState i jRunning).setPbits (s.descAt i 8) 20 3 (e % 8)
  (s1.setRunning e (some i)).pmc 0x05 (if e < 8 then 0 else 1)

/-- An engine with nothing to run. -/
def State.idleEngine (s : State) (e : Nat) : Bool := (s.running e).isNone

/-- The job an idle engine takes: the head of its own list and, on an unreserved engine, of its pool's list. -/
def State.takes (s : State) (e : Nat) : Option Nat :=
  s.headOf (s.pinReady e ++ (if s.reserved e then [] else s.poolReady (8 ≤ e)))

/-- Each engine of a list that is idle takes its job, in ascending order. -/
def State.fillEngines (s : State) (es : List Nat) : State :=
  s.each es fun t e =>
    if t.idleEngine e then
      match t.takes e with
      | some i => t.assign i e
      | none => t
    else t

/-- The running job of an unreserved core whose key comes last, with its core. -/
def State.lastRunning (s : State) : Option (Nat × Nat) :=
  ((List.range 4).map fun k => k + 8).foldl (fun a e =>
    if s.reserved e then a
    else match s.running e, a with
      | some j, none => some (j, e)
      | some j, some (k, _) => if s.keyBefore k j then some (j, e) else a
      | none, _ => a) none

/-- A ready logic job whose key comes before that of the running job with the latest key preempts it. -/
def State.preempt (s : State) : State :=
  match s.headOf (s.poolReady true), s.lastRunning with
  | some i, some (j, e) =>
    if s.keyBefore i j then (((s.setJState j jReady).setRunning e none).assign i e).pmc 0x08 0 else s
  | _, _ => s

/-- Dispatch to the idle lanes and cores, then preemption on the cores: at most one per core. Jobs in the latch window
are not ready and wait (R26); a halt lets nothing be dispatched (R471). -/
def State.dispatch (s : State) : State :=
  if s.time.phase == .arrived || s.halted then s
  else
    let s1 := s.fillEngines (List.range 12)
    (((s1.preempt).preempt).preempt).preempt

/-! ## Release (R65 to R67, R77) -/

/-- A job becomes ready; one that no ready or running job of its pool comes before is one that R72 covers. -/
def State.makeReady (s : State) (i : Nat) : State :=
  let rivals := s.sch.jobs.filter fun j =>
    j != i && s.jLogic j = s.jLogic i && (s.jState j = jReady || s.jState j = jRunning) && s.keyBefore j i
  let s1 := s.setJState i jReady
  { s1 with sch := { s1.sch with latched := s1.sch.latched.erase i,
                                 first := if rivals.isEmpty then i :: s1.sch.first else s1.sch.first } }

/-- A job that may become ready: at once, or at input close when the latch window is open (R26), or after a halt (R471). -/
def State.readyOrLatch (s : State) (i : Nat) : State :=
  if s.time.phase == .arrived || s.halted then
    { s.setJState i jDelayed with sch := { (s.setJState i jDelayed).sch with latched := s.sch.latched ++ [i] } }
  else s.makeReady i

/-- Plain offset of byte `o` of flow-table entry `f` (R76). -/
def State.flowAt (s : State) (f o : Nat) : Nat := s.base SCH_FLOW_BASE.BASE + 16 * f + o

/-- Fields of a flow-table entry; a WINDOW of 0 acts as 1. -/
def State.flowNextRel (s : State) (f : Nat) : Nat := s.pbits (s.flowAt f 0) 0 16
def State.flowNextIss (s : State) (f : Nat) : Nat := s.pbits (s.flowAt f 0) 16 16
def State.flowWindow (s : State) (f : Nat) : Nat := max 1 (s.pbits (s.flowAt f 4) 0 7)
def State.flowEnabled (s : State) (f : Nat) : Bool := s.pbits (s.flowAt f 4) 11 1 = 1
def State.flowEvent (s : State) (f : Nat) : Nat := s.pbits (s.flowAt f 8) 0 16
def State.flowDest (s : State) (f : Nat) : Nat := s.pbits (s.flowAt f 8) 16 16

/-- A finite deadline more than 2 s after acceptance becomes 2 s after it (R67). -/
def State.clampDeadline (s : State) (d : Nat) : Nat :=
  if 2000000000 < sext 32 (d % 2 ^ 32 + 2 ^ 32 - s.short) then shortOf (s.short + 2000000000) else d % 2 ^ 32

/-- Writing the eight words of an accepted job's descriptor. -/
def State.writeDesc (s : State) (i : Nat) (r : JobReq) (rel fseq st : Nat) : State :=
  let w2 := r.cls % 8 + b2n r.logic * 8 + b2n r.inf * 16 + r.onMiss % 4 * 32 + b2n r.flow.isSome * 128 +
    (r.flow.getD 0) % 256 * 256 + st * 65536 + r.engine % 8 * 2 ^ 20 + b2n r.pin * 2 ^ 23
  let s := (s.setPw (s.descAt i 0) (s.clampDeadline r.deadline)).setPw (s.descAt i 4) rel
  let s := (s.setPw (s.descAt i 8) w2).setPw (s.descAt i 0xC) (r.entry % 65536 + r.source % 65536 * 65536)
  let s := (s.setPw (s.descAt i 0x10) r.arg0).setPw (s.descAt i 0x14) (r.extend % 65536 + fseq % 65536 * 65536)
  (s.setPw (s.descAt i 0x18) ((r.event.getD 0) % 65536 + b2n r.timed * 65536)).setPw (s.descAt i 0x1C) r.expiry

/-- A release: the state and the descriptor taken, or none where the class quota is full or the flow accepts no jobs. -/
def State.release (s : State) (r : JobReq) : State × Option Nat :=
  let open_ := match r.flow with | some f => s.flowEnabled f | none => true
  if s.quota r.cls ≤ s.occupancy r.cls then ((s.incFld (SCH_REFUSE.COUNT r.cls)).pmc 0x0A r.cls, none)
  else if !open_ then (s, none)
  else
    match firstBelow 4096 fun i => !s.sch.jobs.contains i with
    | none => ((s.incFld (SCH_REFUSE.COUNT r.cls)).pmc 0x0A r.cls, none)
    | some i =>
      let rel := s.sch.relSeq
      let fseq := match r.flow with | some f => s.flowNextIss f | none => 0
      let full := match r.flow with
        | some f => s.flowWindow f ≤ (fseq + 65536 - s.flowNextRel f) % 65536
        | none => false
      let st := if full then jPending else if r.event.isSome then jWaiting else jDelayed
      let s1 := s.writeDesc i r rel fseq st
      let s2 := { s1 with sch := { s1.sch with relSeq := (rel + 1) % 2 ^ 32, jobs := s1.sch.jobs ++ [i] } }
      let s3 := match r.flow with
        | some f => s2.setPbits (s2.flowAt f 0) 16 16 (fseq + 1)
        | none => s2
      let s4 := s3.noteOcc r.cls
      let s5 := if full || r.event.isSome || r.delayed then s4 else s4.readyOrLatch i
      (s5, some i)

/-! ## Completion (R77) -/

/-- Freeing descriptor `i`. -/
def State.freeDesc (s : State) (i : Nat) : State :=
  let c := s.jClass i
  let s1 := s.setJState i jFree
  let s2 := { s1 with sch := { s1.sch with jobs := s1.sch.jobs.erase i, latched := s1.sch.latched.erase i,
                                           first := s1.sch.first.erase i, missMarks := s1.sch.missMarks.erase i } }
  s2.noteOcc c

/-- Releasing job `i` of flow `f` in order: EVENT goes to DEST with its FLOW_SEQ, and NEXT_REL moves on. -/
def State.flowPost (s : State) (f i : Nat) (miss : Bool) : State :=
  let q := s.jFlowSeq i
  let s1 := { s with sch := { s.sch with flowPosts := s.sch.flowPosts ++ [(s.flowDest f, s.flowEvent f, q, miss)] } }
  (s1.freeDesc i).setPbits (s1.flowAt f 0) 0 16 (q + 1)

/-- HELD successors that are next in order are released too; `n` bounds how many. -/
def State.flowDrain (s : State) (f : Nat) : Nat → State
  | 0 => s
  | n + 1 =>
    match s.sch.jobs.find? fun i => s.jFlowEn i && s.jFlow i = f && s.jState i = jHeld && s.jFlowSeq i = s.flowNextRel f with
    | none => s
    | some i => State.flowDrain (s.flowPost f i (s.sch.missMarks.contains i)) f n

/-- PENDING jobs of flow `f` inside the window become ready, in FLOW_SEQ order. -/
def State.flowOpen (s : State) (f : Nat) : Nat → State
  | 0 => s
  | n + 1 =>
    let w := s.sch.jobs.filter fun i => s.jFlowEn i && s.jFlow i = f && s.jState i = jPending &&
      (s.jFlowSeq i + 65536 - s.flowNextRel f) % 65536 < s.flowWindow f
    match w with
    | [] => s
    | i :: _ => State.flowOpen (s.readyOrLatch i) f n

/-- Job `i` is complete, or ended by TERMINATE or a run limit (`miss`): its descriptor is freed, or held for its flow. -/
def State.completeJob (s : State) (i : Nat) (miss : Bool) : State :=
  let s0 := match s.engineOf i with
    | some e => s.setRunning e none
    | none => s
  if s0.jFlowEn i then
    let f := s0.jFlow i
    if s0.jFlowSeq i = s0.flowNextRel f then
      ((s0.flowPost f i miss).flowDrain f 64).flowOpen f 64
    else
      let s1 := s0.setJState i jHeld
      if miss then { s1 with sch := { s1.sch with missMarks := i :: s1.sch.missMarks } } else s1
  else s0.freeDesc i

/-- A release followed by the dispatch it may cause. -/
def State.releaseJob (s : State) (r : JobReq) : State × Option Nat :=
  let p := s.release r
  (p.1.dispatch, p.2)

/-- A class-`cls` job with no flow, wait or delay: what most sources release. -/
def simpleJob (cls : Nat) (logic inf : Bool) (deadline onMiss entry source arg0 : Nat) : JobReq :=
  { deadline := deadline, cls := cls, logic := logic, inf := inf, onMiss := onMiss, flow := none, engine := 0,
    pin := false, entry := entry, source := source, arg0 := arg0, extend := 0, delayed := false, event := none,
    timed := false, expiry := 0 }

end Sys2Proof.Machine
end

