-- ==== Sys2Proof/Machine/Loop.lean ====
section
/-!
DEFINITION. Machine/Loop.lean: the loop engine (chapter 06): the loop table, requests, releases, overruns and faults, and
what the vendor template kernels compute, with the commands LOOP_MODE to LOOP_CLR_PEAKS.
-/

namespace Sys2Proof.Machine

/-! ## The loop table (R144 to R147) -/

/-- Slots in use: LOOP_COUNT, a value above 1,024 acting as 1,024. -/
def State.loopCount (s : State) : Nat := min 1024 (s.fld LOOP_COUNT.COUNT)

/-- Plain offset of byte `o` of slot `i`. -/
def State.loopAt (s : State) (i o : Nat) : Nat := s.base LOOP_TBL_BASE.BASE + 128 * i + o

/-- Parameters of a slot (R145). -/
def State.lTemplate (s : State) (i : Nat) : Nat := s.pbits (s.loopAt i 0) 0 4
def State.lMode0 (s : State) (i : Nat) : Nat := s.pbits (s.loopAt i 0) 4 3
def State.lEnable (s : State) (i : Nat) : Bool := s.pbits (s.loopAt i 0) 7 1 = 1
def State.lDir (s : State) (i : Nat) : Bool := s.pbits (s.loopAt i 0) 8 1 = 1
def State.lRnd (s : State) (i : Nat) : Nat := s.pbits (s.loopAt i 0) 9 1
def State.lFaultAct (s : State) (i : Nat) : Nat := s.pbits (s.loopAt i 0) 10 2
def State.lStsEn (s : State) (i : Nat) : Bool := s.pbits (s.loopAt i 0) 12 1 = 1
def State.lNoOut (s : State) (i : Nat) : Bool := s.pbits (s.loopAt i 0) 13 1 = 1
def State.lPeriod (s : State) (i : Nat) : Nat := s.pbits (s.loopAt i 4) 0 15
def State.lPhase (s : State) (i : Nat) : Nat := s.pbits (s.loopAt i 4) 16 15
def State.lPvSig (s : State) (i : Nat) : Nat := s.pbits (s.loopAt i 8) 0 14
def State.lSpSig (s : State) (i : Nat) : Nat := s.pbits (s.loopAt i 8) 16 14
def State.lOutSig (s : State) (i : Nat) : Nat := s.pbits (s.loopAt i 0xC) 0 14
def State.lMoSig (s : State) (i : Nat) : Nat := s.pbits (s.loopAt i 0xC) 16 14
def State.lTrkSig (s : State) (i : Nat) : Nat := s.pbits (s.loopAt i 0x10) 0 14
def State.lCasSig (s : State) (i : Nat) : Nat := s.pbits (s.loopAt i 0x10) 16 14
def State.lAuxSig (s : State) (i : Nat) : Nat := s.pbits (s.loopAt i 0x14) 0 14
def State.lStsSig (s : State) (i : Nat) : Nat := s.pbits (s.loopAt i 0x14) 16 14
def State.lOutLo (s : State) (i : Nat) : Int := sext 16 (s.pbits (s.loopAt i 0x18) 0 16)
def State.lOutHi (s : State) (i : Nat) : Int := sext 16 (s.pbits (s.loopAt i 0x18) 16 16)
def State.lBand (s : State) (i : Nat) : Nat := s.pbits (s.loopAt i 0x1C) 0 16
def State.lRate (s : State) (i : Nat) : Nat := s.pbits (s.loopAt i 0x1C) 16 16
def State.lPar (s : State) (i k : Nat) : Nat := s.pw (s.loopAt i (0x20 + 4 * k))

/-- The engine word of a slot. -/
def State.lReq (s : State) (i : Nat) : Nat := s.pbits (s.loopAt i 0x3C) 0 3
def State.lGen (s : State) (i : Nat) : Nat := s.pbits (s.loopAt i 0x3C) 4 4
def State.lFault (s : State) (i : Nat) : Bool := s.pbits (s.loopAt i 0x3C) 8 1 = 1
def State.lStopped (s : State) (i : Nat) : Bool := s.pbits (s.loopAt i 0x3C) 9 1 = 1
def State.lPend (s : State) (i : Nat) : Bool := s.pbits (s.loopAt i 0x3C) 10 1 = 1
def State.lConsec (s : State) (i : Nat) : Nat := s.pbits (s.loopAt i 0x3C) 11 2

/-- A slot below LOOP_COUNT whose ENABLE is 1. -/
def State.isLoop (s : State) (i : Nat) : Bool := i < s.loopCount && s.lEnable i

/-- The enabled slots. -/
def State.loops (s : State) : List Nat := (List.range s.loopCount).filter fun i => s.lEnable i

/-- Member slots of an OVERRIDE slot, in list order (R153, R160). -/
def State.loopMembers (s : State) (i : Nat) : List Nat :=
  (List.range (min 8 (bitsOf (s.lPar i 4) 0 4))).map fun k => bitsOf (s.lPar i (k / 2)) (16 * (k % 2)) 10

/-- The inner slot of a CASCADE_PAIR slot (R162). -/
def State.loopInner (s : State) (i : Nat) : Nat := bitsOf (s.lPar i 4) 0 10

/-- The slots whose samples run in the job of slot `i`, besides `i`. -/
def State.loopParts (s : State) (i : Nat) : List Nat :=
  if s.lTemplate i = 5 then s.loopMembers i else if s.lTemplate i = 4 then [s.loopInner i] else []

/-- The enabled group or pair that names slot `i`, or `i` itself. -/
def State.loopOwner (s : State) (i : Nat) : Nat :=
  (s.loops.find? fun j => (s.loopParts j).contains i).getD i

/-- Slot `i` is a member of an enabled override group. -/
def State.loopMember (s : State) (i : Nat) : Bool :=
  s.loops.any fun j => s.lTemplate j = 5 && (s.loopMembers j).contains i

/-- The ACTIVE bit that selects slot `i`'s half: that of the slot that releases it. -/
def State.loopActive (s : State) (i : Nat) : Bool := Sparse.get (fun _ => false) s.loop.active (s.loopOwner i)

/-- A state half (R147). -/
structure LoopHalf where
  i : Int
  uLast : Int
  x1 : Int
  x2 : Int
  x3 : Int
  mode : Nat
  saddle : Bool
  sel : Bool
  on : Bool
  gen : Nat
deriving DecidableEq, Repr

/-- Plain offset of byte `o` of half `b` of slot `i`. -/
def State.halfAt (s : State) (i : Nat) (b : Bool) (o : Nat) : Nat := s.loopAt i (0x40 + 0x20 * b2n b + o)

/-- Reading a state half. -/
def State.loopHalf (s : State) (i : Nat) (b : Bool) : LoopHalf :=
  let w (o : Nat) := s.pw (s.halfAt i b o)
  { i := sext 32 (w 0), uLast := sext 16 (w 4), x1 := sext 16 (w 4 / 65536), x2 := sext 16 (w 8), x3 := sext 32 (w 0xC),
    mode := bitsOf (w 0x10) 0 3, saddle := bitOf (w 0x10) 3, sel := bitOf (w 0x10) 4, on := bitOf (w 0x10) 5,
    gen := bitsOf (w 0x10) 8 4 }

/-- Writing a state half. -/
def State.setLoopHalf (s : State) (i : Nat) (b : Bool) (h : LoopHalf) : State :=
  let put (t : State) (o v : Nat) := t.setPw (t.halfAt i b o) v
  let s := put s 0 (trunc 32 h.i)
  let s := put s 4 (trunc 16 h.uLast + 65536 * trunc 16 h.x1)
  let s := put s 8 (trunc 16 h.x2)
  let s := put s 0xC (trunc 32 h.x3)
  put s 0x10 (h.mode % 8 + 8 * b2n h.saddle + 16 * b2n h.sel + 32 * b2n h.on + 256 * (h.gen % 16))

/-- The Q15 value of signal `i` in the current-value plane. -/
def State.q15 (s : State) (i : Nat) : Int := sext 16 (s.cur i)

/-! ## Template arithmetic (R146, R152 to R162) -/

/-- sat16. -/
def sat16 (x : Int) : Int := satInt 16 x

/-- K·x of R146: the Q30 product of gain word `k` and `x`. -/
def gainMul (k : Nat) (x : Int) : Int := sext 16 k * x * (2 ^ bitsOf k 16 4 : Nat)

/-- An ENTER sample (R152): the mode requested or the generation differs from the half's. -/
def State.loopEnter (s : State) (i : Nat) (h : LoopHalf) : Bool := s.lReq i != h.mode || s.lGen i != h.gen

/-- What a PID or PI_FF sample computes: P, D, F, the integrator and ym. -/
structure PidOut where
  p : Int
  d : Int
  f : Int
  i : Int
  ym : Int
deriving DecidableEq, Repr

/-- uc of R152 turned into ym: rounded or truncated. -/
def State.loopRound (s : State) (i : Nat) (uc : Int) : Int := (uc + s.lRnd i * 2 ^ 14) / 2 ^ 15

/-- The output limits of R152, in Q30. -/
def State.loopClamp (s : State) (i : Nat) (u : Int) : Int := clampInt (s.lOutLo i * 2 ^ 15) (s.lOutHi i * 2 ^ 15) u

/-- R152 with the effective mode, the setpoint and the tracking value given; PI_FF has no derivative and adds F. -/
def State.loopPid (s : State) (i : Nat) (h : LoopHalf) (enter : Bool) (mode : Nat) (spx trk : Int) : PidOut :=
  let ff := s.lTemplate i == 1
  let sgn : Int := if s.lDir i then -1 else 1
  let pv := s.q15 (s.lPvSig i)
  let e := sat16 (sgn * (spx - pv))
  let p := gainMul (s.lPar i 0) e
  let r := sat16 (gainMul (s.lPar i 2) (sat16 (sgn * (h.x1 - pv))) / 2 ^ 15)
  let alpha : Int := (bitsOf (s.lPar i 3) 0 16 : Nat)
  let d := if ff then 0 else h.x2 + alpha * sat16 (r - h.x2) / 2 ^ 15
  let f := if ff then gainMul (s.lPar i 2) (s.q15 (s.lAuxSig i)) else 0
  let base := p + d * 2 ^ 15 + f
  let i1 := if enter then s.loopClamp i (h.uLast * 2 ^ 15 - base) else h.i + gainMul (s.lPar i 1) e
  let u := if mode = 0 then s.q15 (s.lMoSig i) * 2 ^ 15 else if mode = 3 then trk * 2 ^ 15 else base + i1
  let uc := s.loopClamp i u
  let i2 := if uc != u || mode = 0 || mode = 3 then uc - base else i1
  { p := p, d := d, f := f, i := s.loopClamp i i2, ym := s.loopRound i uc }

/-- The Saddle of R158: SADDLE and yo. -/
def State.loopSaddle (s : State) (i : Nat) (h : LoopHalf) (enter : Bool) (ym : Int) : Bool × Int :=
  let band : Int := (s.lBand i : Nat)
  let rate : Int := (s.lRate i : Nat)
  let sad := if enter then s.lRate i != 0 && band < (ym - h.uLast).natAbs else h.saddle
  let y1 := if sad then h.uLast + clampInt (-rate) rate (ym - h.uLast) else ym
  let done := sad && ((ym - y1).natAbs : Int) ≤ band
  (sad && !done, clampInt (s.lOutLo i) (s.lOutHi i) (if done then ym else y1))

/-- The setpoint the mode selects. -/
def State.loopSp (s : State) (i : Nat) : Int := if s.lReq i = 2 then s.q15 (s.lCasSig i) else s.q15 (s.lSpSig i)

/-- The half after a sample: the mode and generation requested stand in it. -/
def State.loopDone (s : State) (i : Nat) (h : LoopHalf) (sad : Bool) (yo : Int) : LoopHalf :=
  { h with uLast := yo, saddle := sad, mode := s.lReq i, gen := s.lGen i }

/-- Requests for slot `i` that wait. -/
def State.loopQueued (s : State) (i : Nat) : Bool := s.loop.queue.any fun q => q.slot = i

/-- The status word of R165 that the kernel writes with a completed sample. -/
def State.loopStatus (s : State) (i : Nat) (h : LoopHalf) (noCand : Bool) : Nat :=
  h.mode % 8 + 8 * b2n h.saddle + 16 * b2n h.sel + 32 * b2n (s.lFault i) + 64 * b2n (s.lStopped i) +
    128 * b2n (s.loopQueued i) + 1024 * b2n noCand

/-- Writing STS_SIG where STS_EN is 1. -/
def State.putLoopStatus (s : State) (i : Nat) (h : LoopHalf) (noCand : Bool) : State :=
  if s.lStsEn i then s.putSig (s.lStsSig i) (s.loopStatus i h noCand) else s

/-- Writing OUT_SIG unless NO_OUT. -/
def State.putLoopOut (s : State) (i : Nat) (y : Int) : State :=
  if s.lNoOut i then s else s.putSig (s.lOutSig i) (trunc 32 y)

/-- A sample of a slot whose template has one output and one state half. -/
def State.loopPlain (s : State) (i : Nat) (h : LoopHalf) (enter : Bool) : LoopHalf × Int × Bool :=
  let m := s.lReq i
  let man := m == 0 || m == 3
  let src := if m = 0 then s.q15 (s.lMoSig i) else s.q15 (s.lTrkSig i)
  let manYm := s.loopRound i (s.loopClamp i (src * 2 ^ 15))
  let pv := s.q15 (s.lPvSig i)
  match s.lTemplate i with
  | 2 =>
    let x1 := if enter then pv else h.x1
    let u := gainMul (s.lPar i 0) pv + gainMul (s.lPar i 1) x1 + gainMul (s.lPar i 2) h.uLast
    ({ h with x1 := pv }, if man then manYm else s.loopRound i (s.loopClamp i u), true)
  | 3 =>
    let k := if m = 2 then putBits (s.lPar i 0) 0 16 (trunc 16 (s.q15 (s.lCasSig i))) else s.lPar i 0
    let u := gainMul k pv + sext 16 (s.lPar i 1) * 2 ^ 15
    (h, if man then manYm else s.loopRound i (s.loopClamp i u), true)
  | 7 =>
    let sgn : Int := if s.lDir i then -1 else 1
    let e := sat16 (sgn * (s.loopSp i - pv))
    let on := if man then h.on
      else if (bitsOf (s.lPar i 0) 0 16 : Int) < e then true
      else if e < -(bitsOf (s.lPar i 0) 16 16 : Int) then false
      else h.on
    ({ h with on := on }, if man then manYm else if on then s.lOutHi i else s.lOutLo i, false)
  | 8 =>
    let y := h.uLast + clampInt (-(bitsOf (s.lPar i 0) 16 16 : Int)) (bitsOf (s.lPar i 0) 0 16 : Int) (s.loopSp i - h.uLast)
    (h, if man then manYm else y, true)
  | 9 =>
    let x := if enter then h.uLast * 2 ^ 15 else h.x3
    let x3 := x + (bitsOf (s.lPar i 0) 0 16 : Int) * sat16 (pv - x / 2 ^ 15)
    if man then ({ h with x3 := manYm * 2 ^ 15 }, manYm, true)
    else ({ h with x3 := x3 }, s.loopRound i (s.loopClamp i x3), true)
  | 6 => (h, if man then src else pv, true)
  | _ =>
    let o := s.loopPid i h enter m (s.loopSp i) (s.q15 (s.lTrkSig i))
    ({ h with i := o.i, x1 := pv, x2 := o.d }, o.ym, true)

/-- A sample of a slot that is neither a group nor a pair: the other half, the status word and the outputs. -/
def State.loopSample1 (s : State) (i : Nat) (b : Bool) : State :=
  let h := s.loopHalf i b
  let enter := s.loopEnter i h
  let r := s.loopPlain i h enter
  let sy := if r.2.2 then s.loopSaddle i h enter r.2.1 else (false, clampInt (s.lOutLo i) (s.lOutHi i) r.2.1)
  let h2 := s.loopDone i r.1 sy.1 sy.2
  let s1 := (s.setLoopHalf i (!b) h2).putLoopStatus i h2 false
  if s.lTemplate i = 6 then
    let bp := sext 16 (s.lPar i 2)
    let out (k : Nat) (x : Int) := s.loopRound i (s.loopClamp i (gainMul k (sat16 x)))
    (s1.putSig (s.lAuxSig i) (trunc 32 (out (s.lPar i 1) (sy.2 - bp)))).putLoopOut i (out (s.lPar i 0) (bp - sy.2))
  else s1.putLoopOut i sy.2

/-- A member's candidate: its half before the sample and what R152 computes as in AUTO. -/
def State.loopCand (s : State) (b : Bool) (m : Nat) : Nat × LoopHalf × PidOut :=
  let h := s.loopHalf m b
  (m, h, s.loopPid m h (s.loopEnter m h) 1 (s.q15 (s.lSpSig m)) 0)

/-- The lowest candidate of the members in OVR; of equal candidates, the earlier. -/
def State.loopSelect (s : State) (cs : List (Nat × LoopHalf × PidOut)) : Option (Nat × LoopHalf × PidOut) :=
  cs.foldl (fun a c =>
    if s.lReq c.1 != 4 then a
    else match a with
      | none => some c
      | some d => if c.2.2.ym < d.2.2.ym then some c else a) none

/-- A member after the group's sample: tracked unless it is the selected one and the output is its candidate (R160). -/
def State.loopMemberEnd (s : State) (b : Bool) (sel : Option Nat) (yo : Int) (c : Nat × LoopHalf × PidOut) : State :=
  let o := c.2.2
  let mine := sel == some c.1
  let iNew := if mine && yo == o.ym then o.i else s.loopClamp c.1 (yo * 2 ^ 15 - o.p - o.d * 2 ^ 15)
  let h := { s.loopDone c.1 c.2.1 false yo with i := iNew, x1 := s.q15 (s.lPvSig c.1), x2 := o.d, sel := mine }
  ((s.setLoopHalf c.1 (!b) h).putLoopStatus c.1 h false).putLoopOut c.1 o.ym

/-- A sample of an OVERRIDE slot (R160). -/
def State.loopOverride (s : State) (i : Nat) (b : Bool) : State :=
  let h := s.loopHalf i b
  let m := s.lReq i
  let cs := (s.loopMembers i).map (s.loopCand b)
  let sel := if m = 0 ∨ m = 3 then none else s.loopSelect cs
  let ym := if m = 0 then s.q15 (s.lMoSig i) else if m = 3 then s.q15 (s.lTrkSig i)
    else match sel with
      | some c => c.2.2.ym
      | none => h.uLast
  let sy := s.loopSaddle i h (s.loopEnter i h) ym
  let h2 := s.loopDone i h sy.1 sy.2
  let s1 := s.each cs fun t c => t.loopMemberEnd b (sel.map fun d => d.1) sy.2 c
  let s2 := (s1.setLoopHalf i (!b) h2).putLoopStatus i h2 (m != 0 && m != 3 && sel.isNone)
  s2.putLoopOut i sy.2

/-- A sample of a CASCADE_PAIR slot (R162). -/
def State.loopPair (s : State) (i : Nat) (b : Bool) : State :=
  let j := s.loopInner i
  let h := s.loopHalf i b
  let enter := s.loopEnter i h
  let inCas := s.lReq j == 2
  let o := if inCas then s.loopPid i h enter (s.lReq i) (s.loopSp i) (s.q15 (s.lTrkSig i))
    else s.loopPid i h enter 3 (s.loopSp i) (s.q15 (s.lSpSig j))
  let sy := s.loopSaddle i h enter o.ym
  let h2 := { s.loopDone i h sy.1 sy.2 with i := o.i, x1 := s.q15 (s.lPvSig i), x2 := o.d }
  let g := s.loopHalf j b
  let gEnter := s.loopEnter j g
  let sp := if inCas then sy.2 else s.q15 (s.lSpSig j)
  let q := s.loopPid j g gEnter (s.lReq j) sp (s.q15 (s.lTrkSig j))
  let sj := s.loopSaddle j g gEnter q.ym
  let g2 := { s.loopDone j g sj.1 sj.2 with i := q.i, x1 := s.q15 (s.lPvSig j), x2 := q.d }
  let s1 := ((s.setLoopHalf i (!b) h2).putLoopStatus i h2 false).putLoopOut i sy.2
  ((s1.setLoopHalf j (!b) g2).putLoopStatus j g2 false).putLoopOut j sj.2

/-- The sample that the template kernel of slot `i` computes from half `b` (R152 to R162). -/
def State.loopSample (s : State) (i : Nat) (b : Bool) : State :=
  match s.lTemplate i with
  | 4 => s.loopPair i b
  | 5 => s.loopOverride i b
  | _ => s.loopSample1 i b

/-- The kernel entry of a template. -/
def loopEntry (t : Nat) : Nat :=
  match t with
  | 0 => 0x000 | 1 => 0x060 | 2 => 0x0C0 | 3 => 0x100 | 4 => 0x140 | 5 => 0x200 | 6 => 0x280 | 7 => 0x2C0 | 8 => 0x300
  | _ => 0x340

/-! ## Undefined configurations (R167) -/

/-- The entry is in use and of the type given. -/
def State.sigIs (s : State) (i ty : Nat) : Bool := i < s.sigCount && s.sigType i == ty

/-- The signals that slot `i` reads are Q15 entries, its outputs entries of the loop engine. -/
def State.loopSigsOk (s : State) (i : Nat) : Bool :=
  let out (k : Nat) := s.sigIs k 1 && s.sigSource k == 0x09
  s.sigIs (s.lPvSig i) 1 && s.sigIs (s.lSpSig i) 1 && s.sigIs (s.lMoSig i) 1 && s.sigIs (s.lTrkSig i) 1 &&
    s.sigIs (s.lCasSig i) 1 && (!s.lStsEn i || s.sigIs (s.lStsSig i) 4) && (s.lNoOut i || out (s.lOutSig i)) &&
    (s.lTemplate i != 1 || s.sigIs (s.lAuxSig i) 1) && (s.lTemplate i != 6 || out (s.lAuxSig i))

/-- The gain words and coefficients of slot `i` are in range. -/
def State.loopParsOk (s : State) (i : Nat) : Bool :=
  let g (k : Nat) := bitsOf (s.lPar i k) 16 4 ≤ 8
  let a (k : Nat) := bitsOf (s.lPar i k) 0 16 ≤ 0x7FFF
  match s.lTemplate i with
  | 0 | 4 => g 0 && g 1 && g 2 && a 3
  | 1 | 2 => g 0 && g 1 && g 2
  | 3 => g 0
  | 5 => 1 ≤ bitsOf (s.lPar i 4) 0 4 && bitsOf (s.lPar i 4) 0 4 ≤ 8
  | 6 => g 0 && g 1
  | 9 => a 0
  | t => t < 10

/-- Slot `i` is configured outside what R167 defines. -/
def State.loopUndefined (s : State) (i : Nat) : Bool :=
  s.lPeriod i = 0 || 20000 < s.lPeriod i || s.lPeriod i ≤ s.lPhase i || s.lFaultAct i = 3 || !s.loopParsOk i ||
    !s.loopSigsOk i || (s.loopParts i).any (fun j => s.lTemplate j != 0 || !s.loopParsOk j || !s.loopSigsOk j) ||
    (s.loops.filter fun j => (s.loopParts j).contains i).length ≥ 2

/-! ## The engine word (R156, R163 to R165) -/

/-- PEND as the state now stands: a request waits, or the mode requested is not yet the half's. -/
def State.loopPendNow (s : State) (i : Nat) : Bool :=
  s.loopQueued i || s.lReq i != (s.loopHalf i (s.loopActive i)).mode

/-- After a change of the engine: PEND follows, and the status word is written where CONSEC, FAULT, STOPPED or PEND has
changed since `old` (the engine word before). -/
def State.loopTouch (s : State) (i old : Nat) : State :=
  let s1 := s.setPbits (s.loopAt i 0x3C) 10 1 (b2n (s.loopPendNow i))
  let w := s1.pw (s1.loopAt i 0x3C)
  if bitsOf w 8 5 = bitsOf old 8 5 ∨ !s1.lStsEn i then s1
  else
    let h := s1.loopHalf i (s1.loopActive i)
    let nc := bitOf (s1.out (s1.lStsSig i)) 10
    let v := h.mode % 8 + 8 * b2n h.saddle + 16 * b2n h.sel + 32 * bitsOf w 8 1 + 64 * bitsOf w 9 1 +
      128 * bitsOf w 10 1 + 256 * bitsOf w 11 2 + 1024 * b2n nc
    s1.putSig (s1.lStsSig i) v

/-- Changing the engine word's fields of slot `i`. -/
def State.loopEngine (s : State) (i : Nat) (f : State → State) : State :=
  let old := s.pw (s.loopAt i 0x3C)
  (f s).loopTouch i old

/-- Writing engine-word fields. -/
def State.setLReq (s : State) (i v : Nat) : State := s.setPbits (s.loopAt i 0x3C) 0 3 v
def State.setLGen (s : State) (i v : Nat) : State := s.setPbits (s.loopAt i 0x3C) 4 4 v
def State.setLFault (s : State) (i v : Nat) : State := s.setPbits (s.loopAt i 0x3C) 8 1 v
def State.setLStopped (s : State) (i v : Nat) : State := s.setPbits (s.loopAt i 0x3C) 9 1 v
def State.setLConsec (s : State) (i v : Nat) : State := s.setPbits (s.loopAt i 0x3C) 11 2 v

/-- A stopped loop is released again through an ENTER sample (R156, R164). -/
def State.loopReenable (s : State) (i : Nat) : State :=
  if s.lStopped i then (s.setLStopped i 0).setLGen i (s.lGen i + 1) else s

/-- FAULT_ACT at the third consecutive overrun (R164). -/
def State.loopFaultAct (s : State) (i cause : Nat) : State :=
  let s := (s.setLFault i 1).post 0x09 1 true [i, cause]
  let e := s.lOutSig i
  let g := s.sigGroup e
  let s := if s.lNoOut i || g == 0x3FF then s
    else
      let t := s.putGrp g 2 (s.pw (s.grpOutAt g + 4))
      { t with loop := { t.loop with marked := Sparse.set (fun _ => false) t.loop.marked i true } }
  match s.lFaultAct i with
  | 1 => s.setLStopped i 1
  | 2 =>
    let s := s.setLStopped i 1
    if s.lNoOut i then s
    else
      let b := s.loopActive i
      let t := s.putSig e (s.sigSafeVal e)
      t.setLoopHalf i b { t.loopHalf i b with uLast := sext 16 (s.sigSafeVal e) }
  | _ => s

/-- An overrun (R163): `cause` 0 refused release, 1 MISS, 2 RUN_LIMIT. -/
def State.loopOverrun (s : State) (i cause : Nat) : State :=
  let n := Sparse.get (fun _ => 0) s.loop.ovr i
  let s := { s with loop := { s.loop with ovr := Sparse.set (fun _ => 0) s.loop.ovr i (satAdd 0xFFFF n 1) } }
  let s := if cause = 0 then s.incFld LOOP_OVR.REFUSED else s.incFld LOOP_OVR.STOPPED
  s.loopEngine i fun t =>
    let c := t.lConsec i
    let t1 := t.setLConsec i (min 3 (c + 1))
    if c = 2 then t1.loopFaultAct i cause else t1

/-- A completed sample (R147, R163, R164): ACTIVE flips, CONSEC is 0, PEND follows in every slot of the job, and a group
marked FAULT is GOOD again. -/
def State.loopComplete (s : State) (i : Nat) : State :=
  let a := Sparse.get (fun _ => false) s.loop.active i
  let s := { s with loop := { s.loop with active := Sparse.set (fun _ => false) s.loop.active i (!a) } }
  let s := s.setLConsec i 0
  let s := s.each (i :: s.loopParts i) fun t j => t.setPbits (t.loopAt j 0x3C) 10 1 (b2n (t.loopPendNow j))
  if Sparse.get (fun _ => false) s.loop.marked i then
    let g := s.sigGroup (s.lOutSig i)
    let t := if g = 0x3FF then s else s.putGrp g 0 (s.pw (s.grpOutAt g + 4))
    { t with loop := { t.loop with marked := Sparse.set (fun _ => false) t.loop.marked i false } }
  else s

/-! ## Requests (R156, R159) -/

/-- The modes a template offers (R153); a PID slot offers OVR as a member only. -/
def templateModes (t : Nat) : List Nat :=
  match t with
  | 0 | 1 | 3 | 7 | 8 => [0, 1, 2, 3]
  | _ => [0, 1, 3]

/-- Mode `m` may be requested of slot `i`. -/
def State.loopModeOk (s : State) (i m : Nat) : Bool :=
  if s.loopMember i then m == 3 || m == 4 else (templateModes (s.lTemplate i)).contains m

/-- The limits as the requests accepted so far will leave them. -/
def State.loopLimitsAhead (s : State) (i : Nat) : Int × Int :=
  s.loop.queue.foldl (fun l q =>
    if q.slot != i then l
    else if q.op = 1 then (sext 16 q.value, l.2)
    else if q.op = 2 then (l.1, sext 16 q.value)
    else l) (s.lOutLo i, s.lOutHi i)

/-- Accepting a request: it waits one boundary before output close, two after it; a second mode request for a slot
replaces the first. -/
def State.loopAccept (s : State) (i op v : Nat) : State :=
  let q := if op = 0 then s.loop.queue.filter fun q => !(q.slot = i && q.op = 0) else s.loop.queue
  let r : LoopReq := { slot := i, op := op, value := v, wait := if s.parking then 2 else 1 }
  s.loopEngine i fun t => { t with loop := { t.loop with queue := q ++ [r] } }

/-- A mode (`op` 0) or limit (1 low, 2 high) request: the state and the RESULT of LOOP_CMD_STAT. -/
def State.loopRequest (s : State) (i op v : Nat) : State × Nat :=
  if !s.isLoop i then (s, 3)
  else if op = 0 then
    if s.loopModeOk i v then (s.loopAccept i 0 v, 0)
    else ((s.incFld LOOP_REQ.REFUSED).post 0x09 2 true [i], 1)
  else
    let l := s.loopLimitsAhead i
    let lo := if op = 1 then sext 16 v else l.1
    let hi := if op = 2 then sext 16 v else l.2
    if hi < lo then (s.incFld LOOP_REQ.REFUSED, 2) else (s.loopAccept i op (v % 65536), 0)

/-- CLEAR_FAULT (R164). -/
def State.loopClear (s : State) (i : Nat) : State × Nat :=
  if !s.isLoop i then (s, 3)
  else (s.loopEngine i fun t => ((t.loopReenable i).setLFault i 0).setLConsec i 0, 0)

/-- Applying one request at its boundary. -/
def State.loopApply (s : State) (q : LoopReq) : State :=
  s.loopEngine q.slot fun t =>
    match q.op with
    | 0 => (t.loopReenable q.slot).setLReq q.slot q.value
    | 1 => t.setPbits (t.loopAt q.slot 0x18) 0 16 q.value
    | _ => t.setPbits (t.loopAt q.slot 0x18) 16 16 q.value

/-- The requests of a boundary: up to 32 are applied in order of acceptance, further ones are carried (R156). -/
def State.loopApplyAll (s : State) : State :=
  let due := s.loop.queue.filter fun q => q.wait ≤ 1
  let rest := s.loop.queue.filter fun q => 1 < q.wait
  let carried := due.drop 32
  let s := { s with loop := { s.loop with queue := carried ++ rest.map (fun (q : LoopReq) => { q with wait := q.wait - 1 }) } }
  (s.each (due.take 32) State.loopApply).incFld LOOP_REQ.CARRIED carried.length

/-! ## Release at the strobe (R148 to R151, R166) -/

/-- Slot `i` is due at tick `n`. -/
def State.loopDue (s : State) (i n : Nat) : Bool :=
  s.isLoop i && !s.lStopped i && s.loopOwner i = i && (n + s.lPeriod i - s.lPhase i) % s.lPeriod i = 0

/-- The next boundary after tick `n` at which slot `i` is due. -/
def State.loopNext (s : State) (i n : Nat) : Nat :=
  n + s.lPeriod i - (n + s.lPeriod i - s.lPhase i) % s.lPeriod i

/-- The next boundary at which any slot is due, announced to the scheduler (R151). -/
def State.loopAnnounce (s : State) : Option Nat :=
  ((s.loops.filter fun i => !s.lStopped i && s.loopOwner i = i).map fun i => s.loopNext i s.time.tick).min?

/-- Releasing the sample of slot `i`; a refused release is an overrun. -/
def State.loopRelease (s : State) (i : Nat) : State :=
  let dl := shortOf (boundaryNs (s.time.tick + s.lPeriod i) - 2000)
  let arg := i + 1024 * b2n (Sparse.get (fun _ => false) s.loop.active i)
  let r := s.release (simpleJob 1 false false dl 0 (loopEntry (s.lTemplate i)) srcLoop arg)
  match r.2 with
  | some _ => r.1
  | none => r.1.loopOverrun i 0

/-- Without a valid journal every enabled slot starts at the first strobe after commit (R166). -/
def State.loopStart1 (s : State) (i : Nat) : State :=
  let m := s.lMode0 i
  let ok := s.loopModeOk i m
  let s := if ok then s else s.post 0x09 2 true [i]
  let u := sext 16 (s.out (s.lOutSig i))
  let z : LoopHalf := { i := 0, uLast := u, x1 := 0, x2 := 0, x3 := 0, mode := 0, saddle := false, sel := false,
                        on := false, gen := 0 }
  let s := (s.setLoopHalf i false z).setLoopHalf i true z
  let s := s.setPw (s.loopAt i 0x3C) (if ok then m else if s.loopMember i then 3 else 0)
  s.setPbits (s.loopAt i 0x3C) 10 1 (b2n (s.loopPendNow i))

/-- Starting the slots: fresh, or with every GEN one higher after a restore. -/
def State.loopStart (s : State) : State :=
  let s := if s.loop.restored then s.each (List.range s.loopCount) fun t i => t.setLGen i (t.lGen i + 1)
    else s.each s.loops State.loopStart1
  { s with loop := { s.loop with started := true } }

/-- Releases may leave: the journal is off or runs (R141, R228, R234), the unit is no standby (R331), no halt is in
force (R471). -/
def State.jrnReleases (s : State) : Bool :=
  (s.fld JRN_STATE.STATE = 0 || s.fld JRN_STATE.STATE = 4) && !s.pairHolds && !s.halted

/-- What the loop engine does at strobe arrival. -/
def State.loopStrobe (s : State) : State :=
  if !s.jrnReleases then s.loopApplyAll
  else
    let s := if s.loop.started then s else s.loopStart
    let modes := (s.loop.queue.filter fun q => q.wait ≤ 1 && q.op = 0).take 32 |>.map fun q => q.slot
    let s := s.loopApplyAll
    let due := s.loops.filter fun i => s.loopDue i s.time.tick
    let s := s.each due State.loopRelease
    let s := s.each modes fun t i => t.loopEngine i fun u => u.loopReenable i
    (s.setFld LOOP_DUE.LAST due.length).peakFld LOOP_DUE.MAX due.length

/-- The strobe meets a slot configured outside what R167 defines. -/
def State.loopStrobeUndefined (s : State) : Bool := s.jrnReleases && s.loops.any s.loopUndefined

/-- Shifting every GEN by one after a halt (R472). -/
def State.loopBumpGens (s : State) : State := s.each s.loops fun t i => t.setLGen i (t.lGen i + 1)

/-! ## The commands -/

/-- The status of a LOOP_CMD command (R156). -/
def State.loopCmdStat (s : State) (slot r : Nat) : State :=
  (s.setFld LOOP_CMD_STAT.RESULT r).setFld LOOP_CMD_STAT.SLOT slot

/-- LOOP_MODE (R156). -/
def execLoopMode (slot mode : Nat) (s : State) : Res := s.regCommand fun s =>
  let r := s.loopRequest slot 0 mode
  r.1.loopCmdStat slot r.2

/-- LOOP_LIMIT_LO (R159). -/
def execLoopLimitLo (slot value : Nat) (s : State) : Res := s.regCommand fun s =>
  let r := s.loopRequest slot 1 value
  r.1.loopCmdStat slot r.2

/-- LOOP_LIMIT_HI (R159). -/
def execLoopLimitHi (slot value : Nat) (s : State) : Res := s.regCommand fun s =>
  let r := s.loopRequest slot 2 value
  r.1.loopCmdStat slot r.2

/-- LOOP_CLEAR_FAULT (R164). -/
def execLoopClearFault (slot : Nat) (s : State) : Res := s.regCommand fun s =>
  let r := s.loopClear slot
  r.1.loopCmdStat slot r.2

/-- LOOP_CLR_COUNTS: LOOP_OVR, LOOP_REQ and every slot's overrun count. -/
def execLoopClrCounts (s : State) : Res :=
  let t := s.clrRegs [LOOP_OVR, LOOP_REQ]
  .next { t with loop := { t.loop with ovr := [] } }

/-- LOOP_CLR_PEAKS. -/
def execLoopClrPeaks (s : State) : Res := .next (s.setFld LOOP_DUE.MAX 0)

end Sys2Proof.Machine
end

