-- ==== Sys2Proof/Machine/Seq.lean ====
section
/-!
DEFINITION. Machine/Seq.lean: the recipe sequencer (chapter 05): tables and contexts, end conditions, actions and ramps, the
six phases of an evaluation, host commands and pass commits.
-/

namespace Sys2Proof.Machine

/-! ## The hold-up test as the sequencer meets it (R232) -/

/-- HOLD_LOAD goes low and a running test is ABANDONED; the arming state in force stays. -/
def State.abandonTest (s : State) : State :=
  match s.jrn.test with
  | none => s
  | some _ =>
    let t := { s with jrn := { s.jrn with test := none, load := false } }
    ((t.setFld JRN_STATE.ARMING t.jrn.force).setFld JRN_TEST.RESULT 5).incFld JRN_TEST.COUNT

/-- SEQ_CTL.ARM (R229). -/
def State.seqArm (s : State) : Bool :=
  s.fld JRN_STATE.STATE = 0 ||
    (s.fld JRN_STATE.STATE = 4 && s.jrn.force == 1 && s.flag JRN_STATE.MIRROR_CLEAN)

/-! ## Contexts and tables (R109 to R112) -/

/-- A context as reset leaves it: IDLE. -/
def SeqCtx.idle : SeqCtx :=
  { state := 0, former := 0, step := 0, elapsed := 0, cause := 0, entry := [], dwell := [], edge := [], pend := none,
    commits := [], rx := [], since := 0, startSlot := none, posts := [], send := none, seenState := 0, seenStep := 0 }

/-- The context of sequence `q`. -/
def State.ctx (s : State) (q : Nat) : SeqCtx := Sparse.get (fun _ => SeqCtx.idle) s.seq.ctx q

/-- Writing a context. -/
def State.setCtx (s : State) (q : Nat) (c : SeqCtx) : State :=
  { s with seq := { s.seq with ctx := Sparse.set (fun _ => SeqCtx.idle) s.seq.ctx q c } }

/-- Changing a context. -/
def State.modCtx (s : State) (q : Nat) (f : SeqCtx → SeqCtx) : State := s.setCtx q (f (s.ctx q))

/-- States of R110. -/
def seqIdle : Nat := 0
def seqReady : Nat := 1
def seqRunning : Nat := 2
def seqHeld : Nat := 3
def seqAborting : Nat := 4
def seqDone : Nat := 5
def seqAborted : Nat := 6
def seqFaulted : Nat := 7
def seqRestored : Nat := 8

/-- Plain offsets of byte `o` of header `q`, of step entry `i` and of action `i`. -/
def State.hdrAt (s : State) (q o : Nat) : Nat := s.base SEQ_HDR_BASE.BASE + 64 * q + o
def State.stepAt (s : State) (i o : Nat) : Nat := s.base SEQ_STEP_BASE.BASE + 128 * i + o
def State.actAt (s : State) (i o : Nat) : Nat := s.base SEQ_ACT_BASE.BASE + 16 * i + o

/-- Header fields (R111). -/
def State.hFirst (s : State) (q : Nat) : Nat := s.pbits (s.hdrAt q 0) 0 13
def State.hSpan (s : State) (q : Nat) : Bool := s.pbits (s.hdrAt q 0) 16 1 = 1
def State.hMaster (s : State) (q : Nat) : Bool := s.pbits (s.hdrAt q 0) 17 1 = 1
def State.hSpanSeq (s : State) (q : Nat) : Nat := s.pbits (s.hdrAt q 0) 18 6
def State.hRecipe (s : State) (q : Nat) : Nat := s.pw (s.hdrAt q 4)
def State.hMembers (s : State) (q : Nat) : List Nat :=
  (List.range 64).filter fun p => bitOf (s.pw (s.hdrAt q (8 + 4 * (p / 32)))) (p % 32)
def State.hAbort (s : State) (q p : Nat) : Nat := s.pbits (s.hdrAt q (0x10 + 4 * (p / 2))) (16 * (p % 2)) 16
def State.hStatusSig (s : State) (q : Nat) : Nat := s.pbits (s.hdrAt q 0x30) 0 14
def State.hStatusEn (s : State) (q : Nat) : Bool := s.pbits (s.hdrAt q 0x30) 14 1 = 1

/-- A member's share of a span, and the master's. -/
def State.seqMember (s : State) (q : Nat) : Bool := s.hSpan q && !s.hMaster q
def State.seqMaster (s : State) (q : Nat) : Bool := s.hSpan q && s.hMaster q

/-- Word `k` of a copied step entry. -/
def SeqCtx.word (c : SeqCtx) (k : Nat) : Nat := c.entry.getD k 0

/-- Fields of the copied step entry (R112). -/
def SeqCtx.tmoEn (c : SeqCtx) : Bool := bitOf (c.word 0) 1
def SeqCtx.resume (c : SeqCtx) : Nat := bitsOf (c.word 0) 2 2
def SeqCtx.resumePath (c : SeqCtx) : Nat := bitsOf (c.word 0) 4 4
def SeqCtx.holdOk (c : SeqCtx) : Bool := bitOf (c.word 0) 8
def SeqCtx.passPolicy (c : SeqCtx) : Nat := bitsOf (c.word 0) 9 2
def SeqCtx.passRetries (c : SeqCtx) : Nat := bitsOf (c.word 0) 11 2
def SeqCtx.passPath (c : SeqCtx) : Nat := bitsOf (c.word 0) 13 4
def SeqCtx.nCond (c : SeqCtx) : Nat := min 8 (bitsOf (c.word 0) 17 4)
def SeqCtx.timer (c : SeqCtx) : Nat := if bitsOf (c.word 1) 0 31 = 0 then 2 ^ 31 else bitsOf (c.word 1) 0 31
def SeqCtx.tNext (c : SeqCtx) : Nat := bitsOf (c.word 2) 0 16
def SeqCtx.stepId (c : SeqCtx) : Nat := c.word 6

/-- Target of condition group `g`. -/
def SeqCtx.gNext (c : SeqCtx) (g : Nat) : Nat :=
  match g with
  | 0 => bitsOf (c.word 2) 16 16
  | 1 => bitsOf (c.word 3) 0 16
  | 2 => bitsOf (c.word 3) 16 16
  | _ => bitsOf (c.word 4) 0 16

/-- The words of step entry `i`. -/
def State.stepWords (s : State) (i : Nat) : List Nat := (List.range 32).map fun k => s.pw (s.stepAt i (4 * k))

/-! ## Ramps (R124, R125) -/

/-- The ramp slots in use. -/
def State.rampList (s : State) : List (Nat × RampSlot) := s.seq.ramps.filterMap fun p => p.2.map fun r => (p.1, r)

/-- Writing a ramp slot. -/
def State.setRamp (s : State) (k : Nat) (r : Option RampSlot) : State :=
  let t := { s with seq := { s.seq with ramps := Sparse.set (fun _ => none) s.seq.ramps k r } }
  (t.setFld SEQ_RAMP_STAT.USED t.rampList.length).peakFld SEQ_RAMP_STAT.PEAK t.rampList.length

/-- Freeing the slots of ramps that satisfy `p`. -/
def State.dropRamps (s : State) (p : RampSlot → Bool) : State :=
  s.each (s.rampList.filter fun x => p x.2) fun t x => t.setRamp x.1 none

/-- v(k) of R124. -/
def rampValue (s t : Int) (len k : Nat) : Int :=
  let d := t - s
  let q : Int := ((d.natAbs * k + len) / (2 * len) : Nat)
  if d < 0 then s - q else s + q

/-- One ramp in one evaluation: k advances, v(k) is written, and the slot is freed once v is the target value. -/
def State.rampStep (s : State) (x : Nat × RampSlot) : State :=
  let r := x.2
  let k := r.k + 1
  let s := if s.parking then s.incFld SEQ_LATE.RAMP_LATE else s
  let s := s.putSig r.target (trunc 32 (rampValue r.s r.t r.len k))
  if k < 2 * r.len then s.setRamp x.1 (some { r with k := k }) else s.setRamp x.1 none

/-! ## Actions (R121, R123, R125) -/

/-- A SET of entry `i`. -/
def State.seqSet (s : State) (q i v : Nat) : State :=
  if s.sigSource i != 0x08 then s.undef 143
  else (s.dropRamps fun r => r.target = i && r.seq = q).putSig i v

/-- A PATTERN: each bit of `mask` writes the matching bit of `v`. -/
def State.seqPattern (s : State) (q i v mask : Nat) : State :=
  s.each ((List.range 32).filter fun b => bitOf mask b) fun t b =>
    if 16384 ≤ i + b then t.undef 143 else t.seqSet q (i + b) (bitsOf v b 1)

/-- A RAMP: it takes over the slot on its target, or a free slot, or acts as a SET. -/
def State.seqRamp (s : State) (q i v len : Nat) : State :=
  if s.sigSource i != 0x08 then s.undef 143
  else if len = 0 then s.seqSet q i v
  else
    let ty := s.sigType i
    let r : RampSlot := { seq := q, target := i, s := planeValue ty (s.out i), t := planeValue ty v, len := len, k := 0 }
    let at_ := match s.rampList.find? fun x => x.2.target = i with
      | some x => some x.1
      | none => firstBelow 256 fun k => (Sparse.get (fun _ => none) s.seq.ramps k).isNone
    match at_ with
    | some k => (s.putSig i (s.out i)).setRamp k (some r)
    | none => ((s.seqSet q i v).incFld SEQ_RAMP_FULL.COUNT).post 0x08 3 true [q]

/-- A KERNEL action's job; a refused one is released again at the next tick (R62). -/
def State.seqKernel (s : State) (r : JobReq) : State :=
  let p := s.releaseJob r
  match p.2 with
  | some _ => p.1
  | none => { p.1 with sch := { p.1.sch with retry := p.1.sch.retry ++ [r] } }

/-- One action of the pool. -/
def State.seqAction (s : State) (q i : Nat) : State :=
  let w := s.pw (s.actAt i 0)
  let tgt := bitsOf w 8 14
  let v := s.pw (s.actAt i 4)
  let a1 := s.pw (s.actAt i 8)
  let a2 := s.pw (s.actAt i 0xC)
  match bitsOf w 0 4 with
  | 0 => s
  | 1 => s.seqSet q tgt v
  | 2 => s.seqRamp q tgt v (bitsOf a1 0 31)
  | 3 => s.seqPattern q tgt v a1
  | 4 => (s.loopRequest (bitsOf a1 0 10) 0 (bitsOf v 0 3)).1
  | 5 => (s.loopRequest (bitsOf a1 0 10) (if bitOf a1 16 then 2 else 1) (bitsOf v 0 16)).1
  | 6 => s.seqKernel (simpleJob 1 false true 0 0 (bitsOf a1 0 16) srcSeq a2)
  | 7 => s.post 0x08 2 false [q, v]
  | 8 => (s.abandonTest).modCtx (bitsOf a1 0 6) fun c => { c with startSlot := some (bitsOf v 0 16) }
  | _ => s.undef 5

/-- Plane writes that an action makes. -/
def State.actWrites (s : State) (i : Nat) : Nat :=
  match s.pbits (s.actAt i 0) 0 4 with
  | 1 | 2 => 1
  | 3 => ((List.range 32).filter fun b => bitOf (s.pw (s.actAt i 8)) b).length
  | _ => 0

/-- The actions of a step, in list order. -/
def State.seqActions (s : State) (q : Nat) : State :=
  let c := s.ctx q
  let first := bitsOf (c.word 5) 0 15
  let n := bitsOf (c.word 0) 21 7
  let acts := (List.range n).map fun k => first + k
  if 32768 < first + n || 128 < (acts.map s.actWrites).sum then s.undef 143
  else s.each acts fun t i => t.seqAction q i

/-! ## Step changes (R113, R122, R129, R140) -/

/-- Noting a step change for phase 6. -/
def State.noteChange (s : State) (q cause old new step : Nat) (leaves : Bool) (start : Nat) : State :=
  { s with seq := { s.seq with changes := s.seq.changes ++
      [{ seq := q, cause := cause, old := old, new := new, step := step, leaves := leaves, start := start }] } }

/-- Sequence `q` leaves its steps for state `st`. -/
def State.seqLeave (s : State) (q st cause old start : Nat) : State :=
  let s := s.dropRamps fun r => r.seq = q
  let s := s.modCtx q fun c => { c with state := st, cause := cause, pend := none, dwell := [], edge := [] }
  s.noteChange q cause old 0xFFFFFFFF 0 true start

/-- Sequence `q` starts step `i` at boundary `start`: its entry is copied and its actions are written. -/
def State.seqEnter (s : State) (q i st cause old start : Nat) (hold : Bool) : State :=
  let ws := s.stepWords i
  if !bitOf (ws.getD 0 0) 0 then s.undef 143
  else
    let s := s.dropRamps fun r => r.seq = q
    let s := s.modCtx q fun c =>
      { c with state := if hold then seqHeld else st, step := i, elapsed := 0, cause := cause, entry := ws, dwell := [],
               edge := [], pend := none, since := start }
    (s.noteChange q cause old (ws.getD 6 0) i false start).seqActions q

/-- Applying a step change: its target is resolved and the step entered, or the steps left. -/
def State.seqChange (s : State) (q : Nat) (ch : SeqChange) : State :=
  let c := s.ctx q
  let old := if ch.kind = 1 then 0xFFFFFFFF else c.stepId
  match ch.target / 0x4000 with
  | 0 => s.seqEnter q (ch.target % 0x2000) (if c.state = seqAborting then seqAborting else seqRunning) ch.cause old
      ch.start ch.hold
  | 1 => s.seqLeave q (if c.state = seqAborting then seqAborted else seqDone) ch.cause old ch.start
  | 2 =>
    let a := s.hAbort q (ch.target % 16)
    if bitOf a 15 then (s.seqLeave q seqFaulted 13 old ch.start).post 0x08 5 true [q]
    else s.seqEnter q (a % 0x2000) seqAborting ch.cause old ch.start false
  | _ => s.undef 5

/-- Fixing a change for phase 3. -/
def State.seqPend (s : State) (q kind target cause start : Nat) (hold : Bool) : State :=
  s.modCtx q fun c =>
    { c with pend := some { kind := kind, target := target, cause := cause, start := start, hold := hold } }

/-- STOP: IDLE at once; ramps stop. -/
def State.seqStop (s : State) (q : Nat) : State :=
  (s.dropRamps fun r => r.seq = q).modCtx q fun c =>
    { SeqCtx.idle with step := c.step, cause := c.cause, startSlot := c.startSlot, posts := c.posts, send := c.send,
                       seenState := c.seenState, seenStep := c.seenStep, commits := c.commits, rx := c.rx }

/-- Committed resumption of a RESTORED sequence in tick `n` (R142). -/
def State.seqResume (s : State) (q n : Nat) : State :=
  let c := s.ctx q
  let s := { s with seq := { s.seq with commitAt := some (s.seq.commitAt.getD (n + 1)) } }
  match c.resume with
  | 0 => s.modCtx q fun c => { c with state := c.former, dwell := [], edge := [], since := n + 1 }
  | 1 =>
    let st := if c.former = seqAborting then seqAborting else seqRunning
    (s.modCtx q fun c => { c with state := st, since := n + 1 }).seqPend q 0 c.step 10 (n + 1) (c.former = seqHeld)
  | 2 => (s.modCtx q fun c => { c with state := seqAborting, since := n + 1 }).seqPend q 4 (0x8000 + c.resumePath) 11
      (n + 1) false
  | _ => s.undef 5

/-! ## Pass commits on the master (R133, R134, R136) -/

/-- Pass-commit lead; values 0 to 4 act as 5. -/
def State.passLead (s : State) : Nat := max 5 (s.fld SEQ_PASS_LEAD.LEAD)

/-- The tick whose evaluation comes next: this one until it has been made. -/
def State.evalTick (s : State) : Nat := if s.seq.lastEval = some s.time.tick then s.time.tick + 1 else s.time.tick

/-- Unit `q` is armed for the earliest ack deadline among the posts: 20 µs after boundary C − 1. -/
def State.armPass (s : State) (q : Nat) : State :=
  let es := (s.ctx q).posts.map fun p => p.msg.start
  s.setTimeout q (es.min?.map fun c => shortOf (boundaryNs (c - 1) + 20000))

/-- Posting a commit: it enters the link engine's commit entry, replacing an unsent one. -/
def State.passPost (s : State) (q : Nat) (m : PassMsg) (policy retries path : Nat) : State :=
  let o : PassOut := { msg := m, acked := [], policy := policy, retries := retries, path := path }
  (s.modCtx q fun c => { c with send := some m, posts := c.posts ++ [o] }).armPass q

/-- The master's post of a commit for its own share and every member, for the first boundary at least LEAD ticks after
tick `n` and after any commit already posted. -/
def State.passMaster (s : State) (q kind target cause arg n : Nat) : State :=
  let c := s.ctx q
  let ahead := (c.commits.map fun x => x.start + 1).max?.getD 0
  let start := max (n + s.passLead) ahead
  let ent := if kind = 1 then s.stepWords (target % 0x2000) else c.entry
  let e := { c with entry := ent }
  let m : PassMsg :=
    { kind := kind, spanSeq := q, from_ := if kind = 1 ∨ kind = 5 then 0xFFFF else c.step, target := target,
      start := start, attempt := 1, arg := arg, members := s.hMembers q }
  let s := s.passPost q m e.passPolicy e.passRetries e.passPath
  s.modCtx q fun c => { c with commits := c.commits ++
    [{ kind := kind, target := target, cause := cause, start := start, hold := false }] }

/-! ## Host commands (R138, R139) -/

/-- Result codes of SEQ_CMD_STAT. -/
def seqOk : Nat := 0
def seqRefused : Nat := 1
def seqNotArmed : Nat := 2
def seqNotMaster : Nat := 3
def seqNotHoldable : Nat := 4
def seqBadArg : Nat := 5

/-- HOLD_OK of the step that sequence `q` will be in once phase 3 of tick `n` has run; `none` where it will be in none. -/
def State.seqHoldOk (s : State) (q n : Nat) : Option Bool :=
  let c := s.ctx q
  let ch := match c.pend with
    | some p => if p.start = n + 1 then some p else none
    | none => c.commits.find? fun x => x.start = n + 1 && (x.kind ≤ 1 || x.kind = 4)
  match ch with
  | none => some c.holdOk
  | some p =>
    if p.target / 0x4000 = 0 then some (s.pbits (s.stepAt (p.target % 0x2000) 0) 8 1 = 1)
    else if p.target / 0x4000 = 2 ∧ !bitOf (s.hAbort q (p.target % 16)) 15 then
      some (s.pbits (s.stepAt (s.hAbort q (p.target % 16) % 0x2000) 0) 8 1 = 1)
    else none

/-- HOLD on a device's own sequence: HELD at once, or the step about to start starts HELD. -/
def State.seqHold (s : State) (q n : Nat) : State × Nat :=
  match s.seqHoldOk q n with
  | none => (s, seqRefused)
  | some false => (s, seqNotHoldable)
  | some true =>
    match (s.ctx q).pend with
    | some p => (s.modCtx q fun c => { c with pend := some { p with hold := true } }, seqOk)
    | none => (s.modCtx q fun c => { c with state := seqHeld }, seqOk)

/-- The target a SKIP with argument `arg` names. -/
def SeqCtx.skipTarget (c : SeqCtx) (arg : Nat) : Nat := if arg = 4 then c.tNext else c.gNext arg

/-- CONTINUE: dwell counts start at 0 and edge memories are stored anew. -/
def State.seqContinue (s : State) (q : Nat) : State :=
  s.modCtx q fun c => { c with state := seqRunning, dwell := [], edge := [] }

/-- The step a START with argument `arg` begins at. -/
def State.startStep (s : State) (q arg : Nat) : Nat := if arg = 0xFFFF then s.hFirst q else arg % 0x2000

/-- A command applied in phase 1 of the evaluation of tick `n`: the state and its result. -/
def State.seqCommand (s : State) (q cmd arg n : Nat) : State × Nat :=
  let c := s.ctx q
  let master := s.seqMaster q
  let st := c.state
  if cmd = 0 then (s, seqOk)
  else if 9 < cmd then (s, seqBadArg)
  else if cmd = 8 ∧ arg = 0xFFFF then
    (s.each ((List.range 64).filter fun r => (s.ctx r).state = seqRestored && !s.seqMember r) fun t r =>
      if t.seqMaster r then t.passMaster r 6 0 0 arg n else t.seqResume r n, seqOk)
  else if s.seqMember q ∧ cmd ≠ 1 ∧ cmd ≠ 9 then (s, seqNotMaster)
  else
    match cmd with
    | 1 => if st = seqIdle then (s.modCtx q fun c => { c with state := seqReady }, seqOk) else (s, seqRefused)
    | 2 =>
      if st != seqReady then (s, seqRefused)
      else if !s.seqArm then (s, seqNotArmed)
      else if master then (s.passMaster q 1 (s.startStep q arg) 12 arg n, seqOk)
      else
        ((s.modCtx q fun c => { c with state := seqRunning }).seqPend q 1 (s.startStep q arg) 12 (n + 1) false, seqOk)
    | 3 =>
      if st != seqRunning then (s, seqRefused)
      else if master then
        (if s.seqHoldOk q n = some true then (s.passMaster q 2 0 0 arg n, seqOk) else (s, seqNotHoldable))
      else s.seqHold q n
    | 4 =>
      if st != seqHeld then (s, seqRefused)
      else if master then (s.passMaster q 3 0 0 arg n, seqOk)
      else (s.seqContinue q, seqOk)
    | 5 =>
      if st != seqRunning then (s, seqRefused)
      else if 4 < arg then (s, seqBadArg)
      else if master then (s.passMaster q 0 (c.skipTarget arg) 6 arg n, seqOk)
      else (s.seqPend q 0 (c.skipTarget arg) 6 (n + 1) false, seqOk)
    | 6 =>
      if st != seqRunning && st != seqHeld && st != seqRestored then (s, seqRefused)
      else if master then (s.passMaster q 4 (0x8000 + arg % 16) 7 arg n, seqOk)
      else
        let since := if st = seqRunning then c.since else n + 1
        ((s.modCtx q fun c => { c with state := seqAborting, since := since }).seqPend q 4 (0x8000 + arg % 16) 7 (n + 1) false,
          seqOk)
    | 7 =>
      if !([seqReady, seqRunning, seqHeld, seqAborting, seqRestored].contains st) then (s, seqRefused)
      else if master then (s.passMaster q 5 0 0 arg n, seqOk)
      else (s.seqStop q, seqOk)
    | 8 =>
      if st != seqRestored then (s, seqRefused)
      else if master then (s.passMaster q 6 0 0 arg n, seqOk)
      else (s.seqResume q n, seqOk)
    | _ =>
      if !([seqDone, seqAborted, seqFaulted].contains st) then (s, seqRefused)
      else (s.modCtx q fun c => { c with state := seqIdle }, seqOk)

/-- A command from the host queue: one written through SEQ_CMD sets SEQ_CMD_STAT, one that came over SHP is answered. -/
def State.seqQueued (s : State) (c : SeqCmd) (n : Nat) : State :=
  let r := s.seqCommand c.seq c.cmd c.arg n
  match c.sess with
  | none => ((r.1.setFld SEQ_CMD_STAT.BUSY 0).setFld SEQ_CMD_STAT.RESULT r.2).setFld SEQ_CMD_STAT.SEQ c.seq
  | some k => r.1.shpAnswer k (if r.2 = 0 then 0 else 2) r.2 []

/-- Queueing a host command; false where the queue is full. A queued START abandons a running hold-up test (R232). -/
def State.seqEnqueue (s : State) (c : SeqCmd) : State × Bool :=
  if 16 ≤ s.seq.queue.length then (s, false)
  else
    let s := if c.cmd = 2 then s.abandonTest else s
    ({ s with seq := { s.seq with queue := s.seq.queue ++ [c] } }, true)

/-! ## End conditions (R114 to R120) -/

/-- A comparison in the encoding of TYPE `ty` (R116). -/
def seqCompare (ty op a b : Nat) : Bool :=
  let x : Int := if ty = 6 then sext 32 (a + 2 ^ 32 - b % 2 ^ 32) else planeValue ty a
  let y : Int := if ty = 6 then 0 else planeValue ty b
  match op with
  | 0 => x == y
  | 1 => x != y
  | 2 => x < y
  | 3 => x ≤ y
  | 4 => y < x
  | _ => y ≤ x

/-- What a condition slot tests: its raw result, and whether the slot uses a dwell. -/
def State.slotRaw (s : State) (q k : Nat) : Bool × Bool :=
  let c := s.ctx q
  let w := c.word (8 + 2 * k)
  let opd := c.word (9 + 2 * k)
  let a := bitsOf w 10 14
  let v := s.cur a
  let prev := Sparse.get (fun _ => none) c.edge k
  let neg := bitOf w 7
  match bitsOf w 0 4 with
  | 1 => (seqCompare (s.sigType a) (bitsOf w 4 3) v opd != neg, true)
  | 2 => (seqCompare (s.sigType a) (bitsOf w 4 3) v (s.cur (bitsOf opd 0 14)) != neg, true)
  | 3 => (match prev with | some p => (v % 2 == 1 && p % 2 == 0) != neg | none => false, false)
  | 4 => (match prev with | some p => (v % 2 == 0 && p % 2 == 1) != neg | none => false, false)
  | 5 => ((2 * bitsOf opd 0 31 ≤ c.elapsed) != neg, false)
  | 6 => (!earlier (shortOf (boundaryNs s.time.tick)) v != neg, false)
  | 7 => (((s.ctx (bitsOf opd 0 6)).seenState == bitsOf opd 8 4) != neg, true)
  | _ => (((s.ctx (bitsOf opd 0 6)).seenStep == bitsOf opd 16 13 &&
      [seqRunning, seqHeld, seqAborting, seqRestored].contains (s.ctx (bitsOf opd 0 6)).seenState) != neg, true)

/-- A slot's encoding or operands lie outside what the chapter defines: the rule that says so. -/
def State.slotUndefined (s : State) (q k : Nat) : Option Nat :=
  let c := s.ctx q
  let w := c.word (8 + 2 * k)
  let kind := bitsOf w 0 4
  let a := bitsOf w 10 14
  if 8 < kind then some 5
  else if (kind = 1 ∨ kind = 2) ∧ 5 < bitsOf w 4 3 then some 5
  else if kind = 2 ∧ s.sigType (bitsOf (c.word (9 + 2 * k)) 0 14) ≠ s.sigType a then some 143
  else if (kind = 3 ∨ kind = 4) ∧ s.sigType a ≠ 3 then some 143
  else none

/-- Evaluating slot `k`: dwell counts and edge memories advance; whether the slot is true. -/
def State.slotEval (s : State) (q k : Nat) : State × Bool :=
  let c := s.ctx q
  let w := c.word (8 + 2 * k)
  let r := s.slotRaw q k
  let s := if bitsOf w 0 4 = 3 ∨ bitsOf w 0 4 = 4 then
      s.modCtx q fun c => { c with edge := Sparse.set (fun _ => none) c.edge k (some (s.cur (bitsOf w 10 14))) }
    else s
  let s := match s.slotUndefined q k with
    | some u => s.undef u
    | none => s
  if r.2 then
    let d := if r.1 then min 256 (Sparse.get (fun _ => 0) c.dwell k + 1) else 0
    (s.modCtx q fun c => { c with dwell := Sparse.set (fun _ => 0) c.dwell k d }, bitsOf w 24 8 + 1 ≤ d)
  else (s, r.1)

/-- Evaluating the slots of a list: the slots in use, each with its group and whether it is true. -/
def State.slotsEval (s : State) (q : Nat) : List Nat → State × List (Nat × Bool)
  | [] => (s, [])
  | k :: t =>
    let w := (s.ctx q).word (8 + 2 * k)
    if bitsOf w 0 4 = 0 then State.slotsEval s q t
    else
      let r := s.slotEval q k
      let u := State.slotsEval r.1 q t
      (u.1, (bitsOf w 8 2, r.2) :: u.2)

/-- Phase 4 for one sequence in tick `n`: elapsed ticks advance, the slots are evaluated, and the target and cause of the
step's end are answered, if it ends. -/
def State.seqDecide (s : State) (q : Nat) : State × Option (Nat × Nat) :=
  let s := s.modCtx q fun c => { c with elapsed := (c.elapsed + 1) % 2 ^ 33 }
  let r := s.slotsEval q (List.range (s.ctx q).nCond)
  let c := r.1.ctx q
  let g := firstBelow 4 fun g => (r.2.any fun x => x.1 = g) && (r.2.all fun x => x.1 != g || x.2)
  let need := if s.seqMaster q then 2 * c.timer + 1 - s.passLead else 2 * c.timer
  match g with
  | some g => (r.1, some (c.gNext g, 1 + g))
  | none => if c.tmoEn && need ≤ c.elapsed then (r.1, some (c.tNext, 5)) else (r.1, none)

/-! ## The phases (R126, R127) -/

/-- Phase 1: the internal START slots, the resumption slot, then the queued host commands. -/
def State.seqPhase1 (s : State) (n : Nat) : State :=
  let s := s.each (List.range 64) fun t q =>
    match (t.ctx q).startSlot with
    | none => t
    | some a => ((t.modCtx q fun c => { c with startSlot := none }).seqCommand q 2 a n).1
  let s := if s.seq.resumeSlot then
      ({ s with seq := { s.seq with resumeSlot := false } }.seqCommand 0 8 0xFFFF n).1
    else s
  let cmds := s.seq.queue
  ({ s with seq := { s.seq with queue := [] } }).each cmds fun t c => t.seqQueued c n

/-- Phase 2: every active ramp writes v(k). -/
def State.seqPhase2 (s : State) (n : Nat) : State :=
  s.each (s.rampList.filter fun x => (s.ctx x.2.seq).state != seqHeld && (s.ctx x.2.seq).state != seqRestored &&
    (s.ctx x.2.seq).since ≤ n) State.rampStep

/-- A pass commit held for boundary `n` + 1 takes effect. -/
def State.seqCommit (s : State) (q n : Nat) (x : SeqChange) : State :=
  match x.kind with
  | 0 => s.modCtx q fun c => { c with pend := some x }
  | 1 => s.modCtx q fun c => { c with pend := some x, state := seqRunning }
  | 2 => s.modCtx q fun c => { c with state := seqHeld }
  | 3 => (s.seqContinue q).modCtx q fun c => { c with since := n + 1 }
  | 4 => s.modCtx q fun c => { c with pend := some x, state := seqAborting }
  | 5 => s.seqStop q
  | _ => if (s.ctx q).state = seqRestored then s.seqResume q n else s

/-- Phase 3 for one sequence: held commits for boundary `n` + 1, then the change that is fixed for it. -/
def State.seqPhase3One (s : State) (n q : Nat) : State :=
  let c := s.ctx q
  let due := c.commits.filter fun x => x.start = n + 1
  let s := if due.isEmpty then s
    else
      let s := s.modCtx q fun c => { c with commits := c.commits.filter fun x => n + 1 < x.start,
                                            rx := c.rx.filter fun m => n + 1 < m.start }
      let s := if s.seqMember q then s.setTimeout q none else s
      s.each due fun t x => t.seqCommit q n x
  match (s.ctx q).pend with
  | some p => if p.start = n + 1 then s.seqChange q p else s
  | none => s

/-- Phase 4 over the sequences of a list: the step changes decided, in ascending sequence; a master posts its commit. -/
def State.seqPhase4 (s : State) (n : Nat) : List Nat → State × List (Nat × Nat × Nat)
  | [] => (s, [])
  | q :: t =>
    let c := s.ctx q
    let takes := (c.state = seqRunning || c.state = seqAborting) && c.since ≤ n && c.pend.isNone && !s.seqMember q &&
      !(s.seqMaster q && !c.commits.isEmpty)
    if takes then
      let r := s.seqDecide q
      match r.2 with
      | none => State.seqPhase4 r.1 n t
      | some d =>
        if s.seqMaster q then State.seqPhase4 (r.1.passMaster q 0 d.1 d.2 0 n) n t
        else
          let u := State.seqPhase4 r.1 n t
          (u.1, (q, d.1, d.2) :: u.2)
    else State.seqPhase4 s n t

/-- Phase 5: the first `cut` changes are written, the others deferred to the next tick. -/
def State.seqPhase5 (s : State) (n cut : Nat) (ds : List (Nat × Nat × Nat)) : State :=
  let s := s.each (ds.take cut) fun t d =>
    t.seqChange d.1 { kind := 0, target := d.2.1, cause := d.2.2, start := n + 1, hold := false }
  s.each (ds.drop cut) fun t d =>
    let t := ((t.dropRamps fun r => r.seq = d.1).modCtx d.1 fun c => { c with cause := d.2.2 }).incFld SEQ_LATE.DEFER
    t.seqPend d.1 0 d.2.1 d.2.2 (n + 2) false

/-- The STEP_CHANGE record of a change, and the summaries it closes. -/
def State.seqPostChange (s : State) (x : SeqNote) : State :=
  let w0 := x.seq + 256 * x.cause + 4096 * x.step + 2 ^ 25 * b2n x.leaves
  let rid := s.hRecipe x.seq
  let s := s.post 0x08 1 false [w0, rid, x.old, x.new, x.start % 2 ^ 32, x.start / 2 ^ 32]
  let next := if x.leaves then (0xFFFFFFFF, 0) else (x.new, rid)
  { s with seq := { s.seq with closes := s.seq.closes ++ [(x.seq, x.start, next.1, next.2)] },
           hst := { s.hst with stepped := x.seq :: s.hst.stepped } }

/-- Phase 6: status signals and records; the contexts are shown as they now stand. -/
def State.seqPhase6 (s : State) : State :=
  let s := s.each ((List.range 64).filter fun q => s.hStatusEn q) fun t q =>
    let c := t.ctx q
    t.putSig (t.hStatusSig q) (c.state + 16 * c.cause + 256 * c.step)
  let byQ := (List.range 64).flatMap fun q => s.seq.changes.filter fun x => x.seq = q
  let s := s.each byQ State.seqPostChange
  let s := s.each (s.seq.ctx.map fun p => p.1) fun t q =>
    t.modCtx q fun c => { c with seenState := c.state, seenStep := c.step }
  { s with seq := { s.seq with changes := [] } }

/-- The evaluation of tick `n`. -/
def State.seqEvaluate (s : State) (n cut : Nat) : State :=
  let again := s.sch.retry.filter fun r => r.source = srcSeq
  let s := { s with sch := { s.sch with retry := s.sch.retry.filter fun r => r.source != srcSeq } }
  let s := s.each again State.seqKernel
  let s := ((s.seqPhase1 n).seqPhase2 n).each (List.range 64) fun t q => t.seqPhase3One n q
  let r := s.seqPhase4 n (List.range 64)
  let s := (r.1.seqPhase5 n cut r.2).seqPhase6
  { s with seq := { s.seq with lastEval := some n } }

/-- The sequencer works: its vale runs, an image is committed, no power fail stands, no halt is in force
and the unit is no standby (R331). -/
def State.seqWorks (s : State) : Bool :=
  s.runs Vale.sequencer && s.committed && s.fld JRN_STATE.STATE != 5 && !s.flag DBG_STAT.HALTED && !s.pairHolds

/-! ## The commands -/

/-- SEQ_EVALUATION (R126): `cut` is how many step changes of phase 5 begin before SEQ_CUTOFF, `cycles` the duration. -/
def execSeqEvaluation (cut cycles : Nat) (s : State) : Res :=
  if s.seqWorks && (s.time.phase == .inputClosed || s.time.phase == .outputClosed) &&
      s.seq.lastEval != some s.time.tick then
    let t := s.seqEvaluate s.time.tick cut
    ((t.setFld SEQ_EVAL.LAST (min cycles 0xFFFF)).peakFld SEQ_EVAL.MAX (min cycles 0xFFFF)).done
  else .next s

/-- A host command applied in phase 1 of the coming evaluation, after the internal slots and the commands queued before it
(R138); SEQ_CMD_STAT shows its result. -/
def State.seqHost (s : State) (q cmd arg : Nat) : Res :=
  if s.seqWorks then
    let r := (s.seqPhase1 s.evalTick).seqCommand (q % 64) cmd arg s.evalTick
    ((r.1.setFld SEQ_CMD_STAT.RESULT r.2).setFld SEQ_CMD_STAT.SEQ q).done
  else .next s

/-- SEQ_NOP (R138). -/
def execSeqNop (seq arg : Nat) (s : State) : Res := s.seqHost seq 0 arg
/-- SEQ_LOAD (R138). -/
def execSeqLoad (seq arg : Nat) (s : State) : Res := s.seqHost seq 1 arg
/-- SEQ_START (R138, R139, R232). -/
def execSeqStart (seq arg : Nat) (s : State) : Res := s.abandonTest.seqHost seq 2 arg
/-- SEQ_HOLD (R138). -/
def execSeqHold (seq arg : Nat) (s : State) : Res := s.seqHost seq 3 arg
/-- SEQ_CONTINUE (R138). -/
def execSeqContinue (seq arg : Nat) (s : State) : Res := s.seqHost seq 4 arg
/-- SEQ_SKIP (R138). -/
def execSeqSkip (seq arg : Nat) (s : State) : Res := s.seqHost seq 5 arg
/-- SEQ_ABORT (R138, R140). -/
def execSeqAbort (seq arg : Nat) (s : State) : Res := s.seqHost seq 6 arg
/-- SEQ_STOP (R138). -/
def execSeqStop (seq arg : Nat) (s : State) : Res := s.seqHost seq 7 arg
/-- SEQ_RESUME_COMMIT (R138, R142). -/
def execSeqResumeCommit (seq arg : Nat) (s : State) : Res := s.seqHost seq 8 arg
/-- SEQ_CLEAR (R138). -/
def execSeqClear (seq arg : Nat) (s : State) : Res := s.seqHost seq 9 arg

/-- The member sequence that takes a commit for span sequence `sp`: the lowest-numbered one (R132). -/
def State.passShare (s : State) (sp : Nat) : Option Nat :=
  (List.range 64).find? fun q => s.seqMember q && s.hSpanSeq q = sp

/-- The member is where the commit expects it (R135). -/
def State.passFits (s : State) (q : Nat) (m : PassMsg) : Bool :=
  let c := s.ctx q
  match m.kind with
  | 1 => c.state = seqReady
  | 5 => [seqReady, seqRunning, seqHeld, seqAborting, seqRestored].contains c.state
  | _ => [seqRunning, seqHeld, seqAborting, seqRestored].contains c.state && c.step = m.from_

/-- Cause that a commit gives a member's step change (R130). -/
def passCause (kind : Nat) : Nat := if kind = 1 then 12 else if kind = 4 then 9 else 8

/-- Holding a commit: a newer attempt replaces an older one, an older one is ignored. -/
def State.passHold (s : State) (q : Nat) (m : PassMsg) : State :=
  let c := s.ctx q
  let same (x : PassMsg) : Bool := x.kind = m.kind && x.from_ = m.from_ && x.target = m.target
  if c.rx.any fun x => same x && m.attempt < x.attempt then s
  else
    let old := (c.rx.filter same).map fun x => x.start
    let ch : SeqChange := { kind := m.kind, target := m.target, cause := passCause m.kind, start := m.start, hold := false }
    let s := s.modCtx q fun c => { c with rx := c.rx.filter (fun x => !same x) ++ [m],
                                          commits := c.commits.filter (fun x => !(x.kind = m.kind && old.contains x.start)) ++ [ch] }
    s.setTimeout q (some (shortOf (boundaryNs (m.start - 1))))

/-- An answer to the master. -/
def State.passAnswer (s : State) (q code attempt : Nat) : State :=
  { s with seq := { s.seq with answers := s.seq.answers ++ [(q, code, attempt)] } }

/-- PASS_COMMIT (R134, R135): a commit reaches a member; `atSec` and `atNs` are its AT. -/
def execPassCommit (kind spanSeq from_ target atSec atNs attempt arg : Nat) (s : State) : Res :=
  if !s.seqWorks then .next s
  else
    match s.passShare spanSeq with
    | none => .next s
    | some q =>
      let start := atSec * 20000 + atNs / 50000
      let m : PassMsg := { kind := kind, spanSeq := spanSeq, from_ := from_, target := target, start := start,
                           attempt := attempt, arg := arg, members := [] }
      if boundaryNs (start - 1) ≤ s.ns then .next (s.incFld SCH_EVT_LATE.LATE_EVENT)
      else if s.passFits q m then .next ((s.passHold q m).passAnswer q 0 attempt)
      else .next (s.passAnswer q 2 attempt)

/-- PASS_ANSWER (R136): an answer of position `pos` reaches the master of span sequence `spanSeq`: 0 PASS_ACK, 1 PASS_MISS,
2 PASS_MISMATCH. -/
def execPassAnswer (spanSeq pos code attempt : Nat) (s : State) : Res :=
  if !s.seqWorks || code != 0 then .next s
  else
    .next (s.modCtx spanSeq fun c => { c with posts := c.posts.map fun p =>
      if p.msg.attempt = attempt && p.msg.members.contains pos && !p.acked.contains pos then
        { p with acked := p.acked ++ [pos] } else p })

/-- PASS_MISS (R135): the unit of member sequence `seq` fires with no commit held for boundary `start`. -/
def execPassMiss (seq start : Nat) (s : State) : Res :=
  if s.seqWorks && s.seqMember seq && !(s.ctx seq).commits.any (fun x => x.start = start) then
    .next ((((s.setTimeout seq none).passAnswer seq 1 1).post 0x08 4 true [seq]).incFld SEQ_PASS_STAT.MISS)
  else .next s

/-- What the master does for members missed by post `p` of sequence `q`, decided in the present tick. -/
def State.passMissed (s : State) (q : Nat) (p : PassOut) (missed : List Nat) : State :=
  let m := { p.msg with attempt := p.msg.attempt + 1, start := p.msg.start + 1, members := missed }
  let s := s.incFld SEQ_PASS_STAT.MISS missed.length
  if p.msg.kind ≠ 4 ∧ 1 < p.policy then s.undef 5
  else if p.msg.kind = 4 ∨ (p.policy = 0 ∧ p.msg.attempt ≤ p.retries) then s.passPost q m p.policy p.retries p.path
  else (s.passMaster q 4 (0x8000 + p.path) 9 0 s.time.tick).incFld SEQ_PASS_STAT.ABORT

/-- PASS_ACK_DEADLINE (R136): the master's unit of sequence `seq` fires for its earliest post. -/
def execPassAckDeadline (seq : Nat) (s : State) : Res :=
  if !s.seqWorks then .next s
  else
    match (s.ctx seq).posts with
    | [] => .next s
    | p :: rest =>
      let s := (s.modCtx seq fun c => { c with posts := rest }).armPass seq
      let missed := p.msg.members.filter fun x => !p.acked.contains x
      if missed.isEmpty then .next s else (s.passMissed seq p missed).done

/-- SEQ_CLR_COUNTS. -/
def execSeqClrCounts (s : State) : Res := .next (s.clrRegs [SEQ_LATE, SEQ_PASS_STAT, SEQ_RAMP_FULL])

/-- SEQ_CLR_PEAKS. -/
def execSeqClrPeaks (s : State) : Res := .next ((s.setFld SEQ_EVAL.MAX 0).setFld SEQ_RAMP_STAT.PEAK 0)

end Sys2Proof.Machine
end

