-- ==== Sys2Proof/Machine/Operands.lean ====
section
/-!
DEFINITION. Machine/Operands.lean: the operand forms of the lane instructions (R169, R175): data registers, accumulators,
pointers with their post-modify, local memories and the special registers of MOVX.
-/

namespace Sys2Proof.Machine

/-- A register set with everything at 0. -/
def RegSet.zero : RegSet :=
  { d := [], a0 := 0, a1 := 0, p := [], m := [], z := [], lc0 := 0, lc1 := 0, fb := 0, sr := 0, pc := 0, calls := [],
    loops := [] }

/-- A lane as reset leaves it. -/
def LaneSt.zero : LaneSt :=
  { set0 := RegSet.zero, set1 := RegSet.zero, cur := false, busy := false, entry := 0, arg0 := 0, job := none,
    stalled := false, lastPut := false, lastEnd := 0, prog := [], data := [], coef := [], fifo := [], resident := false,
    inh := false, arc := { b := 0, cnt := 0, arcs := 0, hold := 0, learn := 0, poll := 0, latch := false } }

/-- Lane `l`. -/
def State.lane (s : State) (l : Nat) : LaneSt := Sparse.get (fun _ => LaneSt.zero) s.lanes l

/-- Writing lane `l`. -/
def State.setLane (s : State) (l : Nat) (v : LaneSt) : State :=
  { s with lanes := Sparse.set (fun _ => LaneSt.zero) s.lanes l v }

/-- Changing lane `l`. -/
def State.modLane (s : State) (l : Nat) (f : LaneSt → LaneSt) : State := s.setLane l (f (s.lane l))

/-- The register set in use. -/
def LaneSt.rs (v : LaneSt) : RegSet := if v.cur then v.set1 else v.set0

/-- Writing the register set in use. -/
def LaneSt.setRs (v : LaneSt) (r : RegSet) : LaneSt := if v.cur then { v with set1 := r } else { v with set0 := r }

/-- The register set in use on lane `l`. -/
def State.rset (s : State) (l : Nat) : RegSet := (s.lane l).rs

/-- Changing the register set in use on lane `l`. -/
def State.modRset (s : State) (l : Nat) (f : RegSet → RegSet) : State := s.modLane l fun v => v.setRs (f v.rs)

/-- Data register `n`, and its value. -/
def RegSet.reg (r : RegSet) (n : Nat) : BitVec 16 := Sparse.get (fun _ => 0) r.d n
def RegSet.val (r : RegSet) (n : Nat) : Int := (r.reg n).toInt

/-- Writing data register `n`. -/
def RegSet.setReg (r : RegSet) (n : Nat) (v : BitVec 16) : RegSet := { r with d := Sparse.set (fun _ => 0) r.d n v }

/-- Accumulator `a`, and its value. -/
def RegSet.accBits (r : RegSet) (a : Bool) : BitVec 40 := if a then r.a1 else r.a0
def RegSet.acc (r : RegSet) (a : Bool) : Int := (r.accBits a).toInt

/-- Bits of SR: N 0, Z 1, V 2, SV 3, RND 8, SAT 9, MSH 10 to 14. -/
def RegSet.srBit (r : RegSet) (k : Nat) : Bool := r.sr.getLsbD k
def RegSet.msh (r : RegSet) : Nat := bitsOf r.sr.toNat 10 5

/-- Writing bit `k` of SR. -/
def RegSet.setSr (r : RegSet) (k : Nat) (b : Bool) : RegSet :=
  { r with sr := BitVec.ofNat 16 (putBits r.sr.toNat k 1 (b2n b)) }

/-- Pointer `p`, its post-modify amount and its circular exponent. -/
def RegSet.ptr (r : RegSet) (p : Nat) : Nat := (Sparse.get (fun _ => (0 : BitVec 16)) r.p p).toNat
def RegSet.mod_ (r : RegSet) (p : Nat) : Int := (Sparse.get (fun _ => (0 : BitVec 16)) r.m p).toInt
def RegSet.circ (r : RegSet) (p : Nat) : Nat := (Sparse.get (fun _ => (0 : BitVec 4)) r.z p).toNat

/-- Writing a pointer. -/
def RegSet.setPtr (r : RegSet) (p v : Nat) : RegSet :=
  { r with p := Sparse.set (fun _ => 0) r.p p (BitVec.ofNat 16 v) }

/-- The pointer after an access in post-modify mode `m` (R175). -/
def RegSet.stepPtr (r : RegSet) (p m : Nat) : RegSet :=
  let step : Int := match m with | 0 => 0 | 1 => 1 | 2 => -1 | _ => r.mod_ p
  let v := r.ptr p
  let k := r.circ p
  if k = 0 then r.setPtr p (trunc 16 (v + step))
  else r.setPtr p (v / 2 ^ k * 2 ^ k + trunc k (v + step))

/-- An access through pointer `p` lies within its memory (R192). -/
def RegSet.ptrOk (r : RegSet) (p : Nat) : Bool :=
  if p < 4 then r.ptr p < 0x8000 else r.ptr p < 0x4000 && r.circ p != 15

/-- The word that pointer `p` names: data memory for P0 to P3, coefficient memory for P4 to P7. -/
def LaneSt.mem (v : LaneSt) (p : Nat) : BitVec 16 :=
  if p < 4 then Sparse.get (fun _ => 0) v.data (v.rs.ptr p) else Sparse.get (fun _ => 0) v.coef (v.rs.ptr p)

/-- Writing the word that pointer `p` names. -/
def LaneSt.setMem (v : LaneSt) (p : Nat) (w : BitVec 16) : LaneSt :=
  if p < 4 then { v with data := Sparse.set (fun _ => 0) v.data (v.rs.ptr p) w }
  else { v with coef := Sparse.set (fun _ => 0) v.coef (v.rs.ptr p) w }

/-- A pointer access in mode `m`: it meets R192, or it is made and the pointer moves on. -/
def State.ptrAccess (s : State) (l p m : Nat) (f : State → State) : State :=
  if (s.rset l).ptrOk p then (f s).modRset l fun r => r.stepPtr p m else s.undef 192

/-- Short time of the last tick boundary, as MOVX reads it. -/
def State.tickShort (s : State) : Nat := shortOf (boundaryNs s.time.tick)

/-- A special register as MOVX reads it. -/
def State.special (s : State) (l sp : Nat) : Nat :=
  let r := s.rset l
  match sp / 8 with
  | 0 => r.ptr sp
  | 1 => (Sparse.get (fun _ => (0 : BitVec 16)) r.m (sp % 8)).toNat
  | 2 => r.circ (sp % 8)
  | _ =>
    match sp % 8 with
    | 0 => r.sr.toNat
    | 1 => r.lc0.toNat
    | 2 => r.lc1.toNat
    | 3 => r.fb.toNat % 65536
    | 4 => r.fb.toNat / 65536
    | 5 => s.tickShort % 65536
    | _ => s.tickShort / 65536

/-- Writing a special register; reserved bits of SR and bits [1:0] of FB stay 0, and the short time is read only. -/
def RegSet.setSpecial (r : RegSet) (sp v : Nat) : RegSet :=
  match sp / 8 with
  | 0 => r.setPtr sp v
  | 1 => { r with m := Sparse.set (fun _ => 0) r.m (sp % 8) (BitVec.ofNat 16 v) }
  | 2 => { r with z := Sparse.set (fun _ => 0) r.z (sp % 8) (BitVec.ofNat 4 v) }
  | _ =>
    match sp % 8 with
    | 0 => { r with sr := BitVec.ofNat 16 (bitsOf v 0 4 + bitsOf v 8 7 * 256) }
    | 1 => { r with lc0 := BitVec.ofNat 13 v }
    | 2 => { r with lc1 := BitVec.ofNat 13 v }
    | 3 => { r with fb := BitVec.ofNat 25 (putBits r.fb.toNat 0 16 (v / 4 * 4)) }
    | 4 => { r with fb := BitVec.ofNat 25 (putBits r.fb.toNat 16 9 v) }
    | _ => r

/-- The signal index of a GET, GETW, PUT or PUTW: named, or in a register. -/
def RegSet.sigIndex (r : RegSet) (ind : Bool) (x : Nat) : Nat := if ind then (r.reg x).toNat % 16384 else x

/-- The Plain offset of FLD and FST. -/
def RegSet.fbAddr (r : RegSet) (disp : Nat) : Nat := r.fb.toNat + 4 * disp

/-- The fabric port of lane `l` (R21). -/
def lanePort (l : Nat) : Nat := if l < 4 then 3 else 4

end Sys2Proof.Machine
end

