-- ==== Sys2Proof/Machine/Flags.lean ====
section
/-!
DEFINITION. Machine/Flags.lean: the flag computations of the lanes (R171 to R174, R178) and of the logic cores (R206).
-/

namespace Sys2Proof.Machine

/-! ## Lanes -/

/-- N and Z from a value. -/
def RegSet.nz (r : RegSet) (x : Int) : RegSet := (r.setSr 0 (x < 0)).setSr 1 (x == 0)

/-- SV set where `b` holds; it stays set otherwise. -/
def RegSet.stickSv (r : RegSet) (b : Bool) : RegSet := if b then r.setSr 3 true else r

/-- The exact value lies outside the 40-bit two's complement range. -/
def over40 (x : Int) : Bool := x < -(2 ^ 39) || 2 ^ 39 ≤ x

/-- Accumulator `a` takes `x` modulo 2^40; V is set when `x` does not fit. -/
def RegSet.setAcc (r : RegSet) (a : Bool) (x : Int) : RegSet :=
  let v := BitVec.ofInt 40 x
  let r := if a then { r with a1 := v } else { r with a0 := v }
  if over40 x then r.setSr 2 true else r

/-- Data register `d` takes `x`; N and Z follow. -/
def RegSet.alu (r : RegSet) (d : Nat) (x : Int) : RegSet := (r.setReg d (BitVec.ofInt 16 x)).nz x

/-- Data register `d` takes sat16(x); SV is set when it saturates, N and Z follow. -/
def RegSet.aluSat (r : RegSet) (d : Nat) (x : Int) : RegSet := ((r.stickSv (sat16 x != x)).alu d (sat16 x))

/-- Condition `cc` of BR (R178); `fifo` says that the stream FIFO holds samples. -/
def RegSet.cond (r : RegSet) (fifo : Bool) (cc : Nat) : Bool :=
  let n := r.srBit 0
  let z := r.srBit 1
  match cc with
  | 0 => z
  | 1 => !z
  | 2 => n
  | 3 => !n
  | 4 => !n && !z
  | 5 => n || z
  | 6 => r.srBit 2
  | 7 => r.srBit 3
  | 8 => fifo
  | _ => !fifo

/-- The exponent of NORM: redundant sign bits less 8 (R174). -/
def normExp (a : BitVec 40) : Int :=
  let x := a.toInt
  let m : Nat := if x < 0 then (-x - 1).toNat else x.toNat
  if m = 0 then 31 else (38 - Nat.log2 m : Int) - 8

/-- MVA's value before saturation (R172). -/
def mvaShift (x : Int) (sh : Nat) (rnd : Bool) : Int :=
  (x + (if rnd && 0 < sh then 2 ^ (sh - 1) else 0)) / 2 ^ sh

/-! ## Logic cores (R206) -/

/-- Flags after CMP or CMPI: order of two words. -/
def TaskCtx.cmp (c : TaskCtx) (a b : Word) : TaskCtx :=
  { c with z := a == b, n := a.toInt < b.toInt, c := a.toNat < b.toNat, v := false }

/-- Flags after FCMP: order of two binary32 words; V where either is not a number. The spec states no C for ordered operands:
it is the free value `open_`. -/
def TaskCtx.fcmp (c : TaskCtx) (a b : Word) (open_ : Bool) : TaskCtx :=
  let x := f32 a.toNat
  let y := f32 b.toNat
  if x == .nan || y == .nan then { c with n := false, z := false, c := false, v := true }
  else { c with n := fLess x y, z := fEq x y, c := open_, v := false }

/-- Condition `cc` of R206. -/
def TaskCtx.cond (c : TaskCtx) (cc : Nat) : Bool :=
  match cc with
  | 0 => c.z
  | 1 => !c.z
  | 2 => c.n
  | 3 => !c.n
  | 4 => !c.n && !c.z
  | 5 => c.n || c.z
  | 6 => c.c
  | 7 => !c.c
  | 8 => !c.c && !c.z
  | 9 => c.c || c.z
  | 10 => c.v
  | _ => !c.v

end Sys2Proof.Machine
end

