-- ==== Sys2Proof/Machine/Plain.lean ====
section
/-!
DEFINITION. Machine/Plain.lean: the fabric ports, the arbiter of the Plain and its clear commands (chapter 02). A granted
transaction is carried out in the cycle of its grant; its answer stands in the port's response.
-/

namespace Sys2Proof.Machine

/-! ## Banks, ports and weights -/

/-- The bank of Plain offset `a`; the safety window's own bank is 64 (R38, R41). -/
def bankOf (a : Nat) : Nat :=
  if inWindow a then 64
  else bitsOf a 6 6 ^^^ bitsOf a 12 6 ^^^ bitsOf a 18 6 ^^^ bitsOf a 24 1

/-- The resource class of a fabric port (R21). -/
def portClass (p : Nat) : Nat :=
  if p = 0 then 0
  else if p ≤ 7 ∨ p = 10 ∨ p = 22 then 1
  else if p ≤ 9 then 2
  else if p ≤ 16 then 3
  else if p ≤ 18 then 4
  else 5

/-- The ports of a class, ascending. -/
def portsOf (c : Nat) : List Nat := (List.range 24).filter fun p => portClass p = c

/-- W[c] of R48; a weight of 0 acts as 1. -/
def State.weight (s : State) (c : Nat) : Nat :=
  max 1 (match c with
    | 1 => s.fld PLN_WEIGHT0.W1
    | 2 => s.fld PLN_WEIGHT0.W2
    | 3 => s.fld PLN_WEIGHT0.W3
    | 4 => s.fld PLN_WEIGHT0.W4
    | _ => s.fld PLN_WEIGHT1.W5)

/-- B_c of R49 for the weights in force. -/
def State.grantBound (s : State) (c : Nat) : Nat :=
  if c = 0 then 16
  else
    let k := (portsOf c).length
    let w := s.weight c
    let sum := s.weight 1 + s.weight 2 + s.weight 3 + s.weight 4 + s.weight 5
    let g := (k - 1) + (k + w - 1) / w * (sum - w)
    let m := 3 * (g + 1)
    m + (m + 14) / 15

/-- The port `p` as nothing has used it. -/
def PortState.idle : PortState := { head := none, since := 0, waiting := [], last := 0 }

/-- The state of port `p`. -/
def State.portSt (s : State) (p : Nat) : PortState := Sparse.get (fun _ => PortState.idle) s.arb.ports p

/-- Writing the state of port `p`. -/
def State.setPort (s : State) (p : Nat) (v : PortState) : State :=
  { s with arb := { s.arb with ports := Sparse.set (fun _ => PortState.idle) s.arb.ports p v } }

/-- Presenting the next transaction of a port whose head is free: round robin among the requesters with one among the
eight that the port holds, each requester's own in its order (R45). -/
def PortState.present (v : PortState) (c : Nat) : PortState :=
  match v.head with
  | some _ => v
  | none =>
    let held := v.waiting.take 8
    let ids := held.map fun t => t.requester
    let nxt := match ids.filter fun r => v.last < r with
      | [] => ids.min?
      | l => l.min?
    match nxt with
    | none => v
    | some r =>
      match held.find? fun t => t.requester = r with
      | none => v
      | some t => { head := some t, since := c, waiting := v.waiting.erase t, last := r }

/-- Address ranges of R6 that a fabric transaction may name. -/
def isPlainAddr (a : Nat) : Bool := 0x80000000 ≤ a && a < 0x82000000
def isRetAddr (a : Nat) : Bool := 0x90000000 ≤ a && a < 0x91000000

/-- A transaction that writes a new output-plane entry while the parking buffer is full (R96). -/
def State.parkBlocked (s : State) (t : Txn) : Bool :=
  t.isWrite && s.parking && s.sig.parked.length == 256 &&
    (match s.keyOf (t.addr - 0x80000000) with
     | some k => (Sparse.get (fun _ => none) s.sig.parked k).isNone
     | none => false)

/-- The port counts as waiting: it has a head, the retained store's queue has room for it (R44), and the parking buffer
has room for it (R96). -/
def State.isWaiting (s : State) (p : Nat) : Bool :=
  match (s.portSt p).head with
  | none => false
  | some t => !(isRetAddr t.addr && 32 ≤ s.arb.retQueue.length) && !s.parkBlocked t

/-- Some port of class `c` is waiting. -/
def State.classWaiting (s : State) (c : Nat) : Bool := (portsOf c).any fun p => s.isWaiting p

/-- The bank that a transaction occupies for 3 cycles (R39). A retained-store transaction occupies none, and neither does a write
to the safety window: port 0 has a port of that bank to itself, and other writes are discarded (R41, R42, R44). -/
def Txn.bank (t : Txn) : Option Nat :=
  let b := bankOf (t.addr - 0x80000000)
  if !isPlainAddr t.addr || (t.isWrite && b = 64) then none else some b

/-- The bank that the head of port `p` needs is free in this cycle. -/
def State.bankFree (s : State) (p : Nat) : Bool :=
  match (s.portSt p).head with
  | none => true
  | some t => match t.bank with
    | none => true
    | some b => Sparse.get (fun _ => 0) s.arb.bankFree b ≤ s.arb.cyc

/-! ## Carrying out a grant -/

/-- Counting what SECDED finds in a read (R40). -/
def State.eccCount (s : State) (e : EccEvent) (o : Nat) : State :=
  match e with
  | .clean => s
  | .corrected => s.incFld PLN_ECC_STAT.CORR
  | .uncorrectable => (s.incFld PLN_ECC_STAT.UNCORR).setReg PLN_ECC_ADDR (BitVec.ofNat 32 (o / 64 * 64))

/-- The access of a granted transaction. -/
def State.access (s : State) (t : Txn) (e : EccEvent) : State :=
  if isRetAddr t.addr then { s with arb := { s.arb with retQueue := s.arb.retQueue ++ [t] } }
  else
    let o := t.addr - 0x80000000
    let s := match t.bank with
      | some b => { s with arb := { s.arb with bankFree := Sparse.set (fun _ => 0) s.arb.bankFree b (s.arb.cyc + 3) } }
      | none => s
    let put (s : State) (r : Resp) : State :=
      { s with arb := { s.arb with resp := Sparse.set (fun _ => none) s.arb.resp t.port (some r) } }
    if t.isWrite then
      put (s.busWrite t.port o t.bytes) { port := t.port, requester := t.requester, bytes := [], error := false }
    else
      let s1 := s.eccCount e o
      put s1 { port := t.port, requester := t.requester, bytes := Memory.bytes s1.plain o t.len,
               error := e == .uncorrectable }

/-- Granting the head of port `p` in this cycle: its wait is measured, the access carried out and the next transaction
presented. -/
def State.grant (s : State) (p : Nat) (e : EccEvent) : State :=
  let v := s.portSt p
  match v.head with
  | none => s
  | some t =>
    let w := s.arb.cyc + 1 - v.since
    let s := s.peakFld (PLN_WAITMAX.MAX p) (min w 0xFFFF)
    let s := if s.grantBound (portClass p) < w then s.setBit PLN_BOUND_EXC.PORT p else s
    let s := s.pmc 0x02 p
    let s := if s.fld PMC_HCFG.PORT = p then s.pmcHist PMC_HGRANT.BIN (s.fld PMC_HCFG.GSHIFT) w else s
    let s := s.access t e
    s.setPort p (PortState.present { v with head := none } (s.arb.cyc + 1))

/-! ## One arbiter cycle (R46) -/

/-- The deficits after the rotation to the next class with credit: at most five steps reach a waiting class. -/
def State.rotate (s : State) : Nat → Nat → Sparse Nat → Nat × Sparse Nat
  | 0, k, d => (k, d)
  | n + 1, k, d =>
    if s.classWaiting k && 1 ≤ Sparse.get (fun _ => 0) d k then (k, d)
    else
      let d1 := if s.classWaiting k then d else Sparse.set (fun _ => 0) d k 0
      let k1 := if k = 5 then 1 else k + 1
      let d2 := if s.classWaiting k1 then Sparse.set (fun _ => 0) d1 k1 (Sparse.get (fun _ => 0) d1 k1 + s.weight k1)
        else d1
      State.rotate s n k1 d2

/-- The first waiting port of class `c` after port `r`, ascending and wrapping; 24 stands for no port yet. -/
def State.nextPort (s : State) (c r : Nat) : Nat :=
  let ps := (portsOf c).filter fun p => s.isWaiting p
  match ps.find? fun p => r < p with
  | some p => p
  | none => ps.headD 0

/-- The cycle's selection and grant. -/
def State.arbitrate (s : State) (e : EccEvent) : State :=
  if s.arb.cyc % 16 = 0 ∧ s.isWaiting 0 then s.grant 0 e
  else
    match s.arb.held with
    | some p =>
      if s.bankFree p then { s.grant p e with arb := { (s.grant p e).arb with held := none } }
      else s.pmc 0x04 0
    | none =>
      if (List.range 5).any fun c => s.classWaiting (c + 1) then
        let r := s.rotate 12 s.arb.k s.arb.deficit
        let k := r.1
        let p := s.nextPort k (Sparse.get (fun _ => 24) s.arb.rr k)
        let d := Sparse.set (fun _ => 0) r.2 k (Sparse.get (fun _ => 0) r.2 k - 1)
        let s := { s with arb := { s.arb with k := k, deficit := d, rr := Sparse.set (fun _ => 24) s.arb.rr k p } }
        if s.bankFree p then s.grant p e else { s with arb := { s.arb with held := some p } }
      else s

/-- A port whose head finds no room in the retained store's queue or the parking buffer measures its wait from the cycle
in which room comes (R44). -/
def State.restartBlocked (s : State) : State :=
  s.each (List.range 24) fun t p =>
    let v := t.portSt p
    if v.head.isSome && !t.isWaiting p then t.setPort p { v with since := t.arb.cyc + 1 } else t

/-- Counting the heads that wait in this cycle (R476). -/
def State.pmcWaits (s : State) : State :=
  if s.pmcOn then
    s.each (List.range 24) fun t p => if t.isWaiting p then t.pmc 0x03 p else t
  else s

/-! ## Presenting a transaction (R37, R45) -/

/-- A longer access as one transaction per line (R37); `fuel` bounds the number of lines. -/
def splitLines (port req : Nat) (wr : Bool) : Nat → Nat → List Byte → Nat → List Txn
  | 0, _, _, _ => []
  | f + 1, a, bs, n =>
    if n = 0 then []
    else
      let k := min n (64 - a % 64)
      { port := port, requester := req, addr := a, isWrite := wr, bytes := bs.take k, len := k } ::
        splitLines port req wr f (a + k) (bs.drop k) (n - k)

/-- Presenting transactions at a port. -/
def State.present (s : State) (p : Nat) (ts : List Txn) : State :=
  let v := s.portSt p
  s.setPort p (PortState.present { v with waiting := v.waiting ++ ts } s.arb.cyc)

/-! ## The commands -/

/-- PLN_CLR_WAIT (R50). -/
def execPlnClrWait (s : State) : Res := .next (s.clrRegs ((List.range 24).map PLN_WAITMAX))

/-- PLN_CLR_ECC (R40). -/
def execPlnClrEcc (s : State) : Res := .next (s.clrRegs [PLN_ECC_STAT, PLN_ECC_ADDR])

/-- PLN_CLR_WIN (R42). -/
def execPlnClrWin (s : State) : Res := .next (s.clrReg PLN_WIN_VIOL)

end Sys2Proof.Machine
end

