-- ==== Sys2Proof/Machine/Lane.lean ====
section
/-!
DEFINITION. Machine/Lane.lean: the lanes (chapter 07): jobs and register sets, the vendor kernels, the arc detector, the
stream FIFO, and the instruction set. A LANE command of an instruction retires it where the lane runs a job and its
program word at PC is that instruction's.
-/

namespace Sys2Proof.Machine

/-! ## Fetch and retire -/

/-- The program word at `pc` (R168, R184): words 0x480 to 0x5FF execute as END; the vendor kernels below them have no words
in the spec. -/
def LaneSt.word (v : LaneSt) (pc : Nat) : Option Nat :=
  if pc < 0x480 then none else if pc < 0x600 then some 0x04000000
  else some (Sparse.get (fun _ => (0 : BitVec 32)) v.prog pc).toNat

/-- The instruction at lane `l`'s PC. -/
def State.laneFetched (s : State) (l : Nat) : Option Instr :=
  match (s.lane l).word (s.rset l).pc.toNat with
  | some w => laneDecode l w
  | none => none

/-- Lane `l` runs a job whose next instruction is `i`. -/
def State.laneAt (s : State) (l : Nat) (i : Instr) : Bool :=
  l < 8 && s.runs Vale.lane && (s.lane l).busy && s.laneFetched l == some i

/-- Lane `l` runs a job whose program word has no meaning: a reserved opcode or bit (R192). -/
def State.laneBad (s : State) (l : Nat) : Bool :=
  l < 8 && s.runs Vale.lane && (s.lane l).busy && ((s.lane l).word (s.rset l).pc.toNat).isSome && (s.laneFetched l).isNone

/-- The loop frames and counters after the word at `pc` where it ends a body, and the next PC (R177 LOOP): LC0 counts the
outer loop, LC1 the inner. -/
def RegSet.loopNext (r : RegSet) (pc : Nat) : RegSet :=
  let go (r : RegSet) (n : Nat) : RegSet := { r with pc := BitVec.ofNat 12 n }
  match r.loops with
  | [] => go r (pc + 1)
  | [f] =>
    if f.last != pc then go r (pc + 1)
    else if 1 < r.lc0.toNat then go { r with lc0 := r.lc0 - 1 } f.first
    else go { r with lc0 := 0, loops := [] } (pc + 1)
  | g :: f :: _ =>
    if g.last != pc then go r (pc + 1)
    else if 1 < r.lc1.toNat then go { r with lc1 := r.lc1 - 1 } g.first
    else if f.last != pc then go { r with lc1 := 0, loops := [f] } (pc + 1)
    else if 1 < r.lc0.toNat then go { r with lc0 := r.lc0 - 1, lc1 := 0, loops := [f] } f.first
    else go { r with lc0 := 0, lc1 := 0, loops := [] } (pc + 1)

/-- PC moves past an instruction that does not jump. -/
def State.laneNext (s : State) (l : Nat) : State := s.modRset l fun r => r.loopNext r.pc.toNat

/-- A retired instruction: what R183 and R478 note of it; `put` for PUT, PUTW and FST. -/
def State.laneRetire (s : State) (l pc word daddr : Nat) (put : Bool) : State :=
  (s.modLane l fun v => { v with stalled := false, lastPut := put }).psRetire l pc word daddr

/-- Lane `l` retires instruction `i`, whose effect is `f`; it does not jump. -/
def State.laneOp (s : State) (l : Nat) (i : Instr) (daddr : Nat) (f : State → State) (put : Bool := false) : Res :=
  if s.laneAt l i then
    let pc := (s.rset l).pc.toNat
    let w := ((s.lane l).word pc).getD 0
    (((f s).laneNext l).laneRetire l pc w daddr put).done
  else if s.laneBad l then (s.undef 192).done
  else .next s

/-- As `laneOp`, for an instruction that changes only the register set. -/
def State.laneReg (s : State) (l : Nat) (i : Instr) (f : RegSet → RegSet) : Res := s.laneOp l i 0 fun t => t.modRset l f

/-- A jump target that R192 allows: inside vendor words only an entry, and not out of a LOOP body. -/
def RegSet.targetOk (r : RegSet) (tgt : Nat) : Bool :=
  (0x600 ≤ tgt || [0, 0x60, 0xC0, 0x100, 0x140, 0x200, 0x280, 0x2C0, 0x300, 0x340, 0x380, 0x400].contains tgt) &&
    (match r.loops with
     | [] => true
     | f :: _ => f.first ≤ tgt && tgt ≤ f.last)

/-- PC ← tgt. -/
def State.laneJump (s : State) (l tgt : Nat) : State :=
  if (s.rset l).targetOk tgt then s.modRset l fun r => { r with pc := BitVec.ofNat 12 tgt } else s.undef 192

/-- Lane `l` retires a jump `i`, whose effect is `f`, PC included. -/
def State.laneGo (s : State) (l : Nat) (i : Instr) (f : State → State) : Res :=
  if s.laneAt l i then
    let pc := (s.rset l).pc.toNat
    ((f s).laneRetire l pc (((s.lane l).word pc).getD 0) 0 false).done
  else if s.laneBad l then (s.undef 192).done
  else .next s

/-! ## Jobs (R170, R182, R183) -/

/-- The register set a job starts with (R170). -/
def RegSet.start (entry arg0 : Nat) : RegSet :=
  let r : RegSet := { RegSet.zero with sr := BitVec.ofNat 16 (0x200 + 15 * 1024), pc := BitVec.ofNat 12 entry }
  (r.setReg 0 (BitVec.ofNat 16 arg0)).setReg 1 (BitVec.ofNat 16 (arg0 / 65536))

/-- ARG0 as the set in use still holds it. -/
def State.laneArg (s : State) (l : Nat) : Nat := ((s.rset l).reg 0).toNat + 65536 * ((s.rset l).reg 1).toNat

/-- Lane `l`'s job ends: the lane is free, its report is under way and the lane may take the next job. -/
def State.laneEnd (s : State) (l how : Nat) : State :=
  let v := s.lane l
  let s := s.setLane l { v with busy := false, stalled := false, lastEnd := how, job := none }
  let s := s.setRunning l none
  let s := match v.job with
    | some j =>
      let e : EndedJob := { engine := l, job := j, how := how }
      { s with sch := { s.sch with ended := s.sch.ended ++ [e] } }
    | none => s
  s.dispatch

/-- Writing the inhibit request line: only where INH_EN is 1 (R188). -/
def State.laneInh (s : State) (l : Nat) (b : Bool) : State :=
  if s.flag (LANE_CFG.INH_EN l) then s.modLane l fun v => { v with inh := b } else s

/-! ## The arc detector (R189, R190) -/

/-- A parameter word of the detector. -/
def State.arcPar (s : State) (l k : Nat) : Nat := (Sparse.get (fun _ => (0 : BitVec 16)) (s.lane l).coef (0x3F00 + k)).toNat

/-- The parameters lie in their ranges. -/
def State.arcOk (s : State) (l : Nat) : Bool :=
  let p := s.arcPar l
  1 ≤ p 0 && p 0 ≤ 0x7FFF && 1 ≤ p 1 && p 1 ≤ 0x7FFF && p 2 ≤ 0x7FFF && 1 ≤ p 3 && p 3 ≤ 48 && 1 ≤ p 4 && 1 ≤ p 5 &&
    p 5 ≤ 255

/-- What the detector does on start. -/
def State.arcStart (s : State) (l : Nat) : State :=
  let latch := s.cur (s.arcPar l 8 % 16384) % 2 = 1
  let s := if s.arcOk l then s else s.undef 192
  let s := s.modLane l fun v =>
    { v with arc := { b := 0, cnt := 0, arcs := 0, hold := 0, learn := s.arcPar l 6, poll := 0, latch := latch } }
  if latch then s else s.laneInh l false

/-- Changing the detector's variables. -/
def State.modArc (s : State) (l : Nat) (f : ArcState → ArcState) : State := s.modLane l fun v => { v with arc := f v.arc }

/-- A confirmed arc. -/
def State.arcFound (s : State) (l : Nat) : State :=
  let s := (s.laneInh l true).post 0x1C (s.arcPar l 10) true [l]
  let n := (s.lane l).arc.arcs + 1
  let s := s.putSig (s.arcPar l 7 % 16384) n
  let s := s.modArc l fun a => { a with arcs := n, hold := s.arcPar l 4, cnt := 0 }
  if s.arcPar l 5 ≤ n then (s.modArc l fun a => { a with latch := true }).putSig (s.arcPar l 8 % 16384) 1 else s

/-- The detector's work on one sample. -/
def State.arcSample (s : State) (l : Nat) (x : Int) : State :=
  let a := (s.lane l).arc
  let bq := a.b / 2 ^ 15
  let s :=
    if 0 < a.hold then
      let s := s.modArc l fun a => { a with hold := a.hold - 1 }
      if a.hold = 1 && !a.latch then s.laneInh l false else s
    else
      let th := bq - bq * (s.arcPar l 0 : Int) / 2 ^ 15
      if a.learn = 0 ∧ (s.arcPar l 2 : Int) ≤ bq ∧ x < th then
        let s := s.modArc l fun a => { a with cnt := a.cnt + 1 }
        if a.cnt + 1 = s.arcPar l 3 then s.arcFound l else s
      else
        s.modArc l fun a =>
          { a with cnt := 0, learn := a.learn - 1,
                   b := sext 40 (trunc 40 (a.b + (s.arcPar l 1 : Int) * sat16 (x - bq))) }
  let p := a.poll + 1
  let s := s.modArc l fun a => { a with poll := if p = 2000 then 0 else p }
  let a := (s.lane l).arc
  if p = 2000 ∧ s.cur (s.arcPar l 9 % 16384) % 2 = 1 ∧ a.latch = true then
    let s := s.modArc l fun a => { a with latch := false, arcs := 0 }
    let s := (s.putSig (s.arcPar l 8 % 16384) 0).putSig (s.arcPar l 7 % 16384) 0
    if a.hold = 0 then s.laneInh l false else s
  else s

/-- Lane `l` runs the vendor arc detector. -/
def State.arcRuns (s : State) (l : Nat) : Bool :=
  l < 8 && s.runs Vale.lane && (s.lane l).busy && 0x400 ≤ (s.rset l).pc.toNat && (s.rset l).pc.toNat < 0x480

/-! ## Job commands -/

/-- The logic-pool figure of R72 is at or below 1.2 µs: 218.75 ns + 2 × B_2 × 1.25 ns. -/
def State.logicFigureOk (s : State) : Bool := s.grantBound 2 ≤ 392

/-- A dispatch latency of `d` scheduler-vale cycles of job `j` (R74, R477). -/
def State.noteDispatch (s : State) (j d : Nat) : State :=
  let logic := s.jLogic j
  let s := if s.flag PMC_HCFG.POOL = logic then s.pmcHist PMC_HDISP.BIN (s.fld PMC_HCFG.DSHIFT) d else s
  if !s.sch.first.contains j then s
  else
    let s := { s with sch := { s.sch with first := s.sch.first.erase j } }
    let s := if logic then s.peakFld SCH_DLAT_MAX.LOGIC (min d 0xFFFF) else s.peakFld SCH_DLAT_MAX.LANE (min d 0xFFFF)
    if 480 < d && s.logicFigureOk then (if logic then s.setFld SCH_BOUND_EXC.LOGIC 1 else s.setFld SCH_BOUND_EXC.LANE 1)
    else s

/-- LANE_JOB_START (R170, R182): lane `lane` starts the job dispatched to it in its other register set. -/
def execLaneJobStart (lane dlat : Nat) (s : State) : Res :=
  match s.running lane with
  | none => .next s
  | some j =>
    let v := s.lane lane
    if 8 ≤ lane || v.busy || !s.runs Vale.lane then .next s
    else
      let s := s.noteDispatch j dlat
      let e := s.jEntry j % 4096
      let v := { v with cur := !v.cur, busy := true, entry := e, arg0 := s.jArg0 j, job := some j, stalled := false,
                        lastPut := false }
      let s := s.setLane lane (v.setRs (RegSet.start e (s.jArg0 j)))
      if e = 0x400 then (s.arcStart lane).done else s.done

/-- The template whose kernel begins at `pc` (R184). -/
def kernelTemplate (pc : Nat) : Option Nat := (List.range 10).find? fun t => loopEntry t = pc

/-- The template kernel `k` computes a sample of slot `i` from half `b`; the slot's own TEMPLATE field stays as it is. -/
def State.templateSample (s : State) (k i : Nat) (b : Bool) : State :=
  if s.lTemplate i = k then (if s.loopUndefined i then s.undef 167 else s.loopSample i b)
  else
    let t := s.setPbits (s.loopAt i 0) 0 4 k
    if t.loopUndefined i then s.undef 167
    else (t.loopSample i b).setPbits (s.loopAt i 0) 0 4 (s.lTemplate i)

/-- The vendor kernel whose entry is `pc` computes its sample (R184): a loop template by ARG0; a reduction's words are written
when its report reaches Meadow. A vendor word that is no entry has no stated meaning (R192). -/
def State.vendorKernel (s : State) (l pc : Nat) : State :=
  let a := s.laneArg l
  match kernelTemplate pc with
  | some k => s.templateSample k (a % 1024) (bitOf a 10)
  | none => if pc = 0x380 then s else s.undef 192

/-- LANE_END (R177, R183): END retires, or a vendor template kernel has run to its END. -/
def execLaneEnd (lane : Nat) (s : State) : Res :=
  let pc := (s.rset lane).pc.toNat
  if lane < 8 && s.runs Vale.lane && (s.lane lane).busy && pc < 0x400 then
    (((s.vendorKernel lane pc).laneRetire lane pc 0x04000000 0 false).laneEnd lane 0).done
  else if s.laneAt lane (.laneEnd lane) then
    ((s.laneRetire lane pc 0x04000000 0 false).laneEnd lane 0).done
  else .next s

/-- LANE_DATA_ERROR (R181): a fabric read of lane `lane`'s job returns an error response. -/
def execLaneDataError (lane : Nat) (s : State) : Res :=
  if lane < 8 && (s.lane lane).busy then
    .next ((((s.incFld (LANE_ERR.DATA lane)).incFld SCH_RUNLIM.COUNT)).laneEnd lane 3)
  else .next s

/-- The oldest result leaves the output stage of converter group `g` (R247). -/
def State.leaveStage (s : State) (g : Nat) : State :=
  { s with adc := { s.adc with groups := s.adc.groups.map fun p =>
      if p.1 = g then (p.1, { p.2 with stage := p.2.stage.drop 1 }) else p } }

/-- STREAM_SAMPLE (R187): a corrected result arrives over col pair 20. -/
def execStreamSample (lane sample : Nat) (s : State) : Res :=
  if 8 ≤ lane || !s.flag (LANE_CFG.STREAM_EN lane) || !s.runs Vale.lane then .next s
  else
    let v := s.lane lane
    let s := s.leaveStage (s.fld (LANE_CFG.GROUP lane))
    if 64 ≤ v.fifo.length then .next (s.incFld (LANE_STRM.DROP lane))
    else
      let s := s.setLane lane { v with fifo := v.fifo ++ [BitVec.ofNat 16 sample] }
      .next (s.peakFld (LANE_STRM.PEAK lane) (v.fifo.length + 1))

/-- The word that the memory window shows (R168). -/
def State.laneMemRead (s : State) : Nat :=
  let v := s.lane (s.fld LANE_MEM_SEL.LANE)
  let a := s.fld LANE_MEM_ADDR.ADDR
  match s.fld LANE_MEM_SEL.MEM with
  | 0 => ((v.word (a % 4096)).getD s.freeNat)
  | 1 => (Sparse.get (fun _ => (0 : BitVec 16)) v.data a).toNat
  | 2 => (Sparse.get (fun _ => (0 : BitVec 16)) v.coef (a % 16384)).toNat
  | _ => 0

/-- A write through the memory window: taken before image commit only, and never to vendor words. -/
def State.laneMemWrite (s : State) (w : Nat) : State :=
  let l := s.fld LANE_MEM_SEL.LANE
  let a := s.fld LANE_MEM_ADDR.ADDR
  if s.committed then s
  else match s.fld LANE_MEM_SEL.MEM with
    | 0 => if a % 4096 < 0x600 then s
      else s.modLane l fun v => { v with prog := Sparse.set (fun _ => 0) v.prog (a % 4096) (BitVec.ofNat 32 w) }
    | 1 => s.modLane l fun v => { v with data := Sparse.set (fun _ => 0) v.data a (BitVec.ofNat 16 w) }
    | 2 => s.modLane l fun v => { v with coef := Sparse.set (fun _ => 0) v.coef (a % 16384) (BitVec.ofNat 16 w) }
    | _ => s

/-- LANE_MEM_ACCESS (R168): an access to LANE_MEM_DATA; a read leaves the word in the register. The address increments. -/
def execLaneMemAccess (isWrite : Bool) (data : Nat) (s : State) : Res :=
  let t := if isWrite then s.laneMemWrite data
    else
      let t := s.setReg LANE_MEM_DATA (BitVec.ofNat 32 s.laneMemRead)
      if s.fld LANE_MEM_SEL.MEM = 0 && s.fld LANE_MEM_ADDR.ADDR % 4096 < 0x480 then t.useFree else t
  .next (t.wrapFld LANE_MEM_ADDR.ADDR)

/-- LANE_CLR_COUNTS. -/
def execLaneClrCounts (s : State) : Res :=
  .next ((s.clrRegs ((List.range 8).map LANE_ERR)).each (List.range 8) fun t l => t.setFld (LANE_STRM.DROP l) 0)

/-- LANE_CLR_PEAKS. -/
def execLaneClrPeaks (s : State) : Res :=
  .next (s.each (List.range 8) fun t l => t.setFld (LANE_STRM.PEAK l) 0)

/-! ## Control instructions (R177, R178) -/

/-- NOP. -/
def execLaneNop (lane : Nat) (s : State) : Res := s.laneOp lane (.laneNop lane) 0 fun t => t

/-- JMP. -/
def execLaneJmp (lane tgt : Nat) (s : State) : Res := s.laneGo lane (.laneJmp lane tgt) fun t => t.laneJump lane tgt

/-- BR. -/
def execLaneBr (lane cc tgt : Nat) (s : State) : Res :=
  s.laneGo lane (.laneBr lane cc tgt) fun t =>
    if 9 < cc then t.undef 192
    else if (t.rset lane).cond (!(t.lane lane).fifo.isEmpty) cc then t.laneJump lane tgt
    else t.laneNext lane

/-- CALL. -/
def execLaneCall (lane tgt : Nat) (s : State) : Res :=
  s.laneGo lane (.laneCall lane tgt) fun t =>
    let r := t.rset lane
    if 8 ≤ r.calls.length then t.undef 192
    else (t.modRset lane fun r => { r with calls := (r.pc + 1) :: r.calls }).laneJump lane tgt

/-- RET. -/
def execLaneRet (lane : Nat) (s : State) : Res :=
  s.laneGo lane (.laneRet lane) fun t =>
    match (t.rset lane).calls with
    | [] => t.undef 192
    | a :: rest => (t.modRset lane fun r => { r with calls := rest }).laneJump lane a.toNat

/-- LOOP: a count above 8,191 in a register has no stated meaning and counts as a free value. -/
def execLaneLoop (lane : Nat) (i : Bool) (x last : Nat) (s : State) : Res :=
  s.laneGo lane (.laneLoop lane i x last) fun t =>
    let r := t.rset lane
    let pc := r.pc.toNat
    let raw := if i then x else (r.reg x).toNat
    let n := if raw < 8192 then raw else t.freeNat % 8192
    let t := if raw < 8192 then t else t.useFree
    let f : LoopFrame := { first := pc + 1, last := last }
    if 2 ≤ r.loops.length ∨ last ≤ pc then t.undef 192
    else if n = 0 then t.laneJump lane (last + 1)
    else
      t.modRset lane fun r =>
        let r := if r.loops.isEmpty then { r with lc0 := BitVec.ofNat 13 n } else { r with lc1 := BitVec.ofNat 13 n }
        { r with loops := f :: r.loops, pc := BitVec.ofNat 12 (pc + 1) }

/-- WAITS: the lane stalls until the FIFO holds `n` samples. -/
def execLaneWaits (lane n : Nat) (s : State) : Res :=
  if s.laneAt lane (.laneWaits lane n) && 1 ≤ n && n ≤ 64 && (s.lane lane).fifo.length < n then
    .next (s.modLane lane fun v => { v with stalled := true })
  else s.laneOp lane (.laneWaits lane n) 0 fun t => if n = 0 ∨ 64 < n then t.undef 192 else t

/-- INH. -/
def execLaneInh (lane : Nat) (v : Bool) (s : State) : Res :=
  s.laneOp lane (.laneInh lane v) 0 fun t => t.laneInh lane v

/-- EVT: the event's source is the lane kernels' (R415). -/
def execLaneEvt (lane : Nat) (c : Bool) (code : Nat) (s : State) : Res :=
  s.laneOp lane (.laneEvt lane c code) 0 fun t => t.post 0x1C code c [lane]

/-! ## Loads, stores and moves -/

/-- LDI. -/
def execLaneLdi (lane d imm : Nat) (s : State) : Res :=
  s.laneReg lane (.laneLdi lane d imm) fun r => r.setReg d (BitVec.ofNat 16 imm)

/-- LDP. -/
def execLaneLdp (lane p imm : Nat) (s : State) : Res :=
  s.laneReg lane (.laneLdp lane p imm) fun r => r.setPtr p imm

/-- LDM. -/
def execLaneLdm (lane p imm : Nat) (s : State) : Res :=
  s.laneReg lane (.laneLdm lane p imm) fun r => r.setSpecial (8 + p) imm

/-- LDZ. -/
def execLaneLdz (lane p k : Nat) (s : State) : Res :=
  s.laneReg lane (.laneLdz lane p k) fun r => r.setSpecial (16 + p) k

/-- MOVX. -/
def execLaneMovx (lane d sp : Nat) (dir : Bool) (s : State) : Res :=
  s.laneOp lane (.laneMovx lane d sp dir) 0 fun t =>
    if sp = 31 then t.undef 192
    else if dir then t.modRset lane fun r => r.setSpecial sp (r.reg d).toNat
    else t.modRset lane fun r => r.setReg d (BitVec.ofNat 16 (t.special lane sp))

/-- SETM. -/
def execLaneSetm (lane : Nat) (sat rnd : Bool) (msh : Nat) (s : State) : Res :=
  s.laneReg lane (.laneSetm lane sat rnd msh) fun r =>
    { r with sr := BitVec.ofNat 16 (putBits r.sr.toNat 8 7 (b2n rnd + 2 * b2n sat + 4 * msh)) }

/-- LD. -/
def execLaneLd (lane d p m : Nat) (s : State) : Res :=
  s.laneOp lane (.laneLd lane d p m) ((s.rset lane).ptr p) fun t =>
    t.ptrAccess lane p m fun u => u.modRset lane fun r => r.setReg d ((u.lane lane).mem p)

/-- ST. -/
def execLaneSt (lane r p m : Nat) (s : State) : Res :=
  s.laneOp lane (.laneSt lane r p m) ((s.rset lane).ptr p) fun t =>
    t.ptrAccess lane p m fun u => u.modLane lane fun v => v.setMem p (v.rs.reg r)

/-- LD2. -/
def execLaneLd2 (lane d x mx y my : Nat) (s : State) : Res :=
  s.laneOp lane (.laneLd2 lane d x mx y my) ((s.rset lane).ptr x) fun t =>
    if d % 2 = 1 then t.undef 192
    else
      (t.ptrAccess lane x mx fun u => u.modRset lane fun r => r.setReg d ((u.lane lane).mem x)).ptrAccess lane (4 + y) my
        fun u => u.modRset lane fun r => r.setReg (d + 1) ((u.lane lane).mem (4 + y))

/-- LIM: no result is stated where Ds exceeds Dt; the value is free. -/
def execLaneLim (lane d r t : Nat) (s : State) : Res :=
  s.laneOp lane (.laneLim lane d r t) 0 fun u =>
    let g := u.rset lane
    if g.val t < g.val r then (u.modRset lane fun g => g.alu d (sext 16 u.freeNat)).useFree
    else u.modRset lane fun g => g.alu d (clampInt (g.val r) (g.val t) (g.val d))

/-! ## Fabric access (R180) -/

/-- The entry of a plane access exists. -/
def State.lanePlaneOk (s : State) (i : Nat) : Bool := i < s.sigCount

/-- GET. -/
def execLaneGet (lane d : Nat) (ind : Bool) (x : Nat) (s : State) : Res :=
  let i := (s.rset lane).sigIndex ind x
  s.laneOp lane (.laneGet lane d ind x) (s.curAt i) fun t =>
    if t.lanePlaneOk i then t.modRset lane fun r => r.setReg d (BitVec.ofNat 16 (t.cur i)) else t.undef 192

/-- GETW. -/
def execLaneGetw (lane d : Nat) (ind : Bool) (x : Nat) (s : State) : Res :=
  let i := (s.rset lane).sigIndex ind x
  s.laneOp lane (.laneGetw lane d ind x) (s.curAt i) fun t =>
    if !t.lanePlaneOk i || d % 2 = 1 then t.undef 192
    else t.modRset lane fun r =>
      (r.setReg d (BitVec.ofNat 16 (t.cur i))).setReg (d + 1) (BitVec.ofNat 16 (t.cur i / 65536))

/-- A lane's write of output-plane word `i`: the entry's SOURCE must be LANE (R108). -/
def State.lanePut (s : State) (i w : Nat) : State :=
  if !s.lanePlaneOk i then s.undef 192 else if s.sigSource i != 0x0B then s.undef 108 else s.putSig i w

/-- PUT. -/
def execLanePut (lane r : Nat) (ind : Bool) (x : Nat) (s : State) : Res :=
  let i := (s.rset lane).sigIndex ind x
  s.laneOp lane (.lanePut lane r ind x) (s.outAt i) (fun t => t.lanePut i (trunc 32 ((t.rset lane).val r))) true

/-- PUTW. -/
def execLanePutw (lane r : Nat) (ind : Bool) (x : Nat) (s : State) : Res :=
  let i := (s.rset lane).sigIndex ind x
  s.laneOp lane (.lanePutw lane r ind x) (s.outAt i) (fun t =>
    let g := t.rset lane
    if r % 2 = 1 then t.undef 192 else t.lanePut i ((g.reg r).toNat + 65536 * (g.reg (r + 1)).toNat)) true

/-- FLD. -/
def execLaneFld (lane d disp : Nat) (s : State) : Res :=
  let a := (s.rset lane).fbAddr disp
  s.laneOp lane (.laneFld lane d disp) a fun t =>
    if d % 2 = 1 ∨ plainSize ≤ a then t.undef 192
    else t.modRset lane fun r =>
      (r.setReg d (BitVec.ofNat 16 (t.pw a))).setReg (d + 1) (BitVec.ofNat 16 (t.pw a / 65536))

/-- FST. -/
def execLaneFst (lane r disp : Nat) (s : State) : Res :=
  let a := (s.rset lane).fbAddr disp
  s.laneOp lane (.laneFst lane r disp) a (fun t =>
    let g := t.rset lane
    if r % 2 = 1 ∨ plainSize ≤ a then t.undef 192
    else t.busWord (lanePort lane) a ((g.reg r).toNat + 65536 * (g.reg (r + 1)).toNat)) true

/-- Taking the oldest sample of the stream FIFO. -/
def State.fifoPop (s : State) (l : Nat) : State := s.modLane l fun v => { v with fifo := v.fifo.drop 1 }

/-- POP: the lane stalls while the FIFO is empty; under the arc detector a POP carries the detector's work on the sample. -/
def execLanePop (lane d : Nat) (s : State) : Res :=
  let v := s.lane lane
  if s.arcRuns lane then
    match v.fifo with
    | [] => .next (s.modLane lane fun v => { v with stalled := true })
    | x :: _ => (((s.fifoPop lane).modLane lane fun v => { v with stalled := false }).arcSample lane x.toInt).done
  else if s.laneAt lane (.lanePop lane d) && v.fifo.isEmpty then
    .next (s.modLane lane fun v => { v with stalled := true })
  else
    s.laneOp lane (.lanePop lane d) 0 fun t =>
      (t.modRset lane fun r => r.setReg d (v.fifo.headD 0)).fifoPop lane

/-! ## Multiply class (R171) -/

/-- The product of two 16-bit words. -/
def mulWords (a b : BitVec 16) : Int := a.toInt * b.toInt

/-- How a multiply-class instruction folds its product into the accumulator: 0 MPY, 1 MAC, 2 MSU. -/
def RegSet.fold (r : RegSet) (a : Bool) (kind : Nat) (p : Int) : RegSet :=
  r.setAcc a (match kind with | 0 => p | 1 => r.acc a + p | _ => r.acc a - p)

/-- A register form. -/
def State.mulReg (s : State) (l : Nat) (i : Instr) (a : Bool) (kind r t : Nat) : Res :=
  s.laneReg l i fun g => g.fold a kind (mulWords (g.reg r) (g.reg t))

/-- A register and memory form. -/
def State.mulMem (s : State) (l : Nat) (i : Instr) (a : Bool) (kind r p m : Nat) : Res :=
  s.laneOp l i ((s.rset l).ptr p) fun t =>
    t.ptrAccess l p m fun u => u.modRset l fun g => g.fold a kind (mulWords (g.reg r) ((u.lane l).mem p))

/-- A form with two memory operands. -/
def State.mulDual (s : State) (l : Nat) (i : Instr) (a : Bool) (kind x mx y my : Nat) : Res :=
  s.laneOp l i ((s.rset l).ptr x) fun t =>
    let v := t.lane l
    let p := mulWords (v.mem x) (v.mem (4 + y))
    ((t.ptrAccess l x mx fun u => u).ptrAccess l (4 + y) my fun u => u).modRset l fun g => g.fold a kind p

/-- MPY, MAC and MSU in their three forms. -/
def execLaneMpyReg (lane : Nat) (a : Bool) (r t : Nat) (s : State) : Res := s.mulReg lane (.laneMpyReg lane a r t) a 0 r t
/-- MPY with a memory operand. -/
def execLaneMpyMem (lane : Nat) (a : Bool) (r p m : Nat) (s : State) : Res :=
  s.mulMem lane (.laneMpyMem lane a r p m) a 0 r p m
/-- MPY with two memory operands. -/
def execLaneMpyDual (lane : Nat) (a : Bool) (x mx y my : Nat) (s : State) : Res :=
  s.mulDual lane (.laneMpyDual lane a x mx y my) a 0 x mx y my
/-- MAC with registers. -/
def execLaneMacReg (lane : Nat) (a : Bool) (r t : Nat) (s : State) : Res := s.mulReg lane (.laneMacReg lane a r t) a 1 r t
/-- MAC with a memory operand. -/
def execLaneMacMem (lane : Nat) (a : Bool) (r p m : Nat) (s : State) : Res :=
  s.mulMem lane (.laneMacMem lane a r p m) a 1 r p m
/-- MAC with two memory operands. -/
def execLaneMacDual (lane : Nat) (a : Bool) (x mx y my : Nat) (s : State) : Res :=
  s.mulDual lane (.laneMacDual lane a x mx y my) a 1 x mx y my
/-- MSU with registers. -/
def execLaneMsuReg (lane : Nat) (a : Bool) (r t : Nat) (s : State) : Res := s.mulReg lane (.laneMsuReg lane a r t) a 2 r t
/-- MSU with a memory operand. -/
def execLaneMsuMem (lane : Nat) (a : Bool) (r p m : Nat) (s : State) : Res :=
  s.mulMem lane (.laneMsuMem lane a r p m) a 2 r p m
/-- MSU with two memory operands. -/
def execLaneMsuDual (lane : Nat) (a : Bool) (x mx y my : Nat) (s : State) : Res :=
  s.mulDual lane (.laneMsuDual lane a x mx y my) a 2 x mx y my

/-- MPYU: the first operand unsigned. -/
def execLaneMpyu (lane : Nat) (a : Bool) (r t : Nat) (s : State) : Res :=
  s.laneReg lane (.laneMpyu lane a r t) fun g => g.setAcc a (((g.reg r).toNat : Int) * g.val t)

/-! ## Data-register arithmetic (R173) -/

/-- ADD. -/
def execLaneAdd (lane d r t : Nat) (s : State) : Res :=
  s.laneReg lane (.laneAdd lane d r t) fun g => g.aluSat d (g.val r + g.val t)

/-- SUB. -/
def execLaneSub (lane d r t : Nat) (s : State) : Res :=
  s.laneReg lane (.laneSub lane d r t) fun g => g.aluSat d (g.val r - g.val t)

/-- MINMAX. -/
def execLaneMinmax (lane d r t : Nat) (f : Bool) (s : State) : Res :=
  s.laneReg lane (.laneMinmax lane d r t f) fun g =>
    g.alu d (if f then max (g.val r) (g.val t) else min (g.val r) (g.val t))

/-- LOG. -/
def execLaneLog (lane d r t f : Nat) (s : State) : Res :=
  s.laneReg lane (.laneLog lane d r t f) fun g =>
    let a := g.reg r
    let b := g.reg t
    g.alu d (match f with | 0 => a &&& b | 1 => a ||| b | 2 => a ^^^ b | _ => a &&& ~~~b).toInt

/-- SHD: `n` positive shifts left. -/
def execLaneShd (lane d r : Nat) (k : Bool) (n : Nat) (s : State) : Res :=
  s.laneReg lane (.laneShd lane d r k n) fun g =>
    let m := sext 5 n
    let x := g.val r
    let u : Int := ((g.reg r).toNat : Nat)
    if k then g.alu d (sext 16 (trunc 16 (if 0 ≤ m then u * 2 ^ m.toNat else u / 2 ^ (-m).toNat)))
    else g.alu d (if 0 ≤ m then sat16 (x * 2 ^ m.toNat) else x / 2 ^ (-m).toNat)

/-- CMP. -/
def execLaneCmp (lane r t : Nat) (s : State) : Res :=
  s.laneReg lane (.laneCmp lane r t) fun g => g.nz (g.val r - g.val t)

/-! ## Accumulator instructions (R171 to R174) -/

/-- ACC: `f` 0 clear, 1 add, 2 subtract, 3 negate, 4 absolute value, 5 saturate, 6 move, 7 compare. -/
def execLaneAcc (lane : Nat) (a : Bool) (f : Nat) (s : State) : Res :=
  s.laneReg lane (.laneAcc lane a f) fun g =>
    let x := g.acc a
    let y := g.acc (!a)
    match f with
    | 0 => g.setAcc a 0
    | 1 => g.setAcc a (x + y)
    | 2 => g.setAcc a (x - y)
    | 3 => g.setAcc a (-x)
    | 4 => g.setAcc a (if x < 0 then -x else x)
    | 5 => (g.stickSv (satInt 32 x != x)).setAcc a (satInt 32 x)
    | 6 => g.setAcc a y
    | _ => g.nz (x - y)

/-- A shift of an accumulator: left where positive, arithmetic right otherwise. -/
def RegSet.shiftAcc (g : RegSet) (a : Bool) (n : Int) : RegSet :=
  g.setAcc a (if 0 ≤ n then g.acc a * 2 ^ n.toNat else g.acc a / 2 ^ (-n).toNat)

/-- SHA. -/
def execLaneSha (lane : Nat) (a v : Bool) (x : Nat) (s : State) : Res :=
  s.laneReg lane (.laneSha lane a v x) fun g =>
    g.shiftAcc a (if v then sext 6 (g.reg x).toNat else sext 6 x)

/-- MVA (R172). -/
def execLaneMva (lane : Nat) (a : Bool) (d : Nat) (r o : Bool) (sh : Nat) (s : State) : Res :=
  s.laneReg lane (.laneMva lane a d r o sh) fun g =>
    let t := mvaShift (g.acc a) (if o then sh else g.msh) (g.srBit 8 || r)
    if g.srBit 9 then g.aluSat d t else g.alu d (sext 16 (trunc 16 t))

/-- MVD (R172). -/
def execLaneMvd (lane : Nat) (a : Bool) (r : Nat) (o : Bool) (sh : Nat) (s : State) : Res :=
  s.laneReg lane (.laneMvd lane a r o sh) fun g => g.setAcc a (g.val r * 2 ^ (if o then sh else g.msh))

/-- NORM (R174). -/
def execLaneNorm (lane : Nat) (a : Bool) (d : Nat) (e : Bool) (s : State) : Res :=
  s.laneReg lane (.laneNorm lane a d e) fun g =>
    let n := normExp (g.accBits a)
    (if e then g else g.shiftAcc a n).setReg d (BitVec.ofInt 16 n)

end Sys2Proof.Machine
end

