-- ==== Sys2Proof/Machine/Logic.lean ====
section
/-!
DEFINITION. Machine/Logic.lean: the logic engine (chapter 08): the cyclic tasks and their cycles, the instruction set of the
logic cores, timers, counters and edges, retained data, and the on-line exchange. A LOGIC command of an instruction retires
it on its core where the core runs a cycle and the program word at PC is that instruction's.
-/

namespace Sys2Proof.Machine

/-! ## Task contexts and variable memory -/

/-- A task that has not run. -/
def TaskCtx.zero : TaskCtx :=
  { w := [], n := false, z := false, c := false, v := false, pc := 0, calls := [], phase := 0, job := none, relTick := 0,
    strobe := 0, relNs := 0, first := false, resumed := false, skipped := false, cycles := 0, bank := false, exch := false }

/-- Task `n`'s context, and changing it. -/
def State.task (s : State) (n : Nat) : TaskCtx := Sparse.get (fun _ => TaskCtx.zero) s.log.tasks n
def State.setTask (s : State) (n : Nat) (c : TaskCtx) : State :=
  { s with log := { s.log with tasks := Sparse.set (fun _ => TaskCtx.zero) s.log.tasks n c } }
def State.modTask (s : State) (n : Nat) (f : TaskCtx → TaskCtx) : State := s.setTask n (f (s.task n))

/-- Working register `k`: W0 reads 0. -/
def TaskCtx.reg (c : TaskCtx) (k : Nat) : Word := if k = 0 then 0 else Sparse.get (fun _ => 0) c.w k

/-- Writing working register `k`: writes to W0 are ignored. -/
def TaskCtx.setReg (c : TaskCtx) (k : Nat) (v : Word) : TaskCtx :=
  if k = 0 then c else { c with w := Sparse.set (fun _ => 0) c.w k v }

/-- The program of a bank. -/
def State.bankProg (s : State) (b : Bool) : LogProg := if b then s.log.prog1 else s.log.prog0

/-- The program that task `n` runs. -/
def State.taskProg (s : State) (n : Nat) : LogProg := s.bankProg (s.task n).bank

/-- Owner of the page of variable-memory address `a`: 0 none, task + 1. -/
def State.pageOwner (s : State) (a : Nat) : Nat := Sparse.get (fun _ => 0) s.log.pages (a / 4096)

/-- The number held in `n` bytes of variable memory at `a`. -/
def State.vm (s : State) (a n : Nat) : Nat := bytesNat (Memory.bytes s.log.vmem a n)

/-- Variable memory changed at `a`; both dirty bits of the line are set. -/
def State.vmPut (s : State) (a : Nat) (bs : List Byte) : State :=
  { s with log := { s.log with vmem := Memory.store s.log.vmem a bs,
                               dirtyA := Sparse.set (fun _ => false) s.log.dirtyA (a / 64) true,
                               dirtyB := Sparse.set (fun _ => false) s.log.dirtyB (a / 64) true } }

/-- A store, or an instance-record write, of task `n` (R195): discarded and reported where the task does not own the page. -/
def State.vmStore (s : State) (n a : Nat) (bs : List Byte) : State :=
  if s.pageOwner a = n + 1 then s.vmPut a bs else (s.incFld LOG_STAT.STORE_REF).post 0x0A 2 true [n]

/-- Instance arrays (R193). -/
def edgeAt (i : Nat) : Nat := 0xDE000 + i
def counterAt (i : Nat) : Nat := 0xE0000 + 16 * i
def timerAt (i : Nat) : Nat := 0xF0000 + 16 * i

/-! ## Fetch and retire -/

/-- The task whose job core `k` runs. -/
def State.coreTask (s : State) (k : Nat) : Option Nat :=
  match s.running (8 + k) with
  | some j => if s.jSource j = srcLog then some (s.jEntry j % 8) else none
  | none => none

/-- The program word at task `n`'s PC. -/
def State.taskWord (s : State) (n : Nat) : Nat :=
  let c := s.task n
  (Sparse.get (fun _ => (0 : Word)) (if c.bank then s.log.bank1 else s.log.bank0) c.pc).toNat

/-- Core `k` runs the program of this task (step 4 of R198); a halt stops it (R471). -/
def State.coreRuns (s : State) (k : Nat) : Option Nat :=
  match s.coreTask k with
  | some n => if k < 4 && s.runs Vale.logic && !s.halted && (s.task n).phase = 3 then some n else none
  | none => none

/-- Core `k` retires a jump `i` with effect `f` on its task, PC included; a word without a meaning is undefined (R215). -/
def State.logicGo (s : State) (k : Nat) (i : Instr) (daddr : Nat) (f : Nat → State → State) : Res :=
  match s.coreRuns k with
  | none => .next s
  | some n =>
    match logicDecode k (s.taskWord n) with
    | none => (s.undef 215).done
    | some j => if j = i then ((f n s).psRetire (8 + k) (s.task n).pc (s.taskWord n) daddr).done else .next s

/-- As `logicGo`, for an instruction that does not jump: PC moves to the next word. -/
def State.logicOp (s : State) (k : Nat) (i : Instr) (daddr : Nat) (f : Nat → State → State) : Res :=
  s.logicGo k i daddr fun n t => (f n t).modTask n fun c => { c with pc := c.pc + 1 }

/-- As `logicOp`, for an instruction that changes only the context. -/
def State.logicReg (s : State) (k : Nat) (i : Instr) (f : TaskCtx → TaskCtx) : Res :=
  s.logicOp k i 0 fun n t => t.modTask n f

/-- PC ← tgt, inside the program (R215). -/
def State.logicJump (s : State) (n tgt : Nat) : State :=
  if tgt < (s.taskProg n).len then s.modTask n fun c => { c with pc := tgt } else s.undef 215

/-- The sign-extended low `n` bits of a field, as a word. -/
def sextWord (n x : Nat) : Word := intWord (sext n x)

/-- The address Ws + off (R204). -/
def State.logicAddr (s : State) (n r off bits : Nat) : Nat := ((s.task n).reg r + sextWord bits off).toNat

/-- The address as the core's data-address record shows it. -/
def State.coreAddr (s : State) (k r off bits : Nat) : Nat :=
  match s.coreTask k with
  | some n => s.logicAddr n r off bits
  | none => 0

/-- An access of `size` bytes at `a`: aligned and inside variable memory, or undefined (R215). -/
def State.logicAccess (s : State) (a size : Nat) (f : State → State) : State :=
  if a % size = 0 && a + size ≤ 0x100000 then f s else s.undef 215

/-! ## Control -/

/-- NOP. -/
def execLogicNop (core : Nat) (s : State) : Res := s.logicReg core (.logicNop core) fun c => c

/-- END: the flushes follow, and CYCLE_COMPLETE reports them. -/
def execLogicEnd (core : Nat) (s : State) : Res :=
  s.logicGo core (.logicEnd core) 0 fun n t => t.modTask n fun c => { c with phase := 4 }

/-- JMP. -/
def execLogicJmp (core tgt : Nat) (s : State) : Res :=
  s.logicGo core (.logicJmp core tgt) 0 fun n t => t.logicJump n tgt

/-- BR. -/
def execLogicBr (core cc tgt : Nat) (s : State) : Res :=
  s.logicGo core (.logicBr core cc tgt) 0 fun n t =>
    if 12 ≤ cc then t.undef 215
    else if (t.task n).cond cc then t.logicJump n tgt
    else t.modTask n fun c => { c with pc := c.pc + 1 }

/-- CALL. -/
def execLogicCall (core tgt : Nat) (s : State) : Res :=
  s.logicGo core (.logicCall core tgt) 0 fun n t =>
    if 16 ≤ (t.task n).calls.length then t.undef 215
    else (t.modTask n fun c => { c with calls := (c.pc + 1) :: c.calls }).logicJump n tgt

/-- RET. -/
def execLogicRet (core : Nat) (s : State) : Res :=
  s.logicGo core (.logicRet core) 0 fun n t =>
    match (t.task n).calls with
    | [] => t.undef 215
    | a :: rest => t.modTask n fun c => { c with calls := rest, pc := a }

/-- BRB. -/
def execLogicBrb (core r : Nat) (v : Bool) (tgt : Nat) (s : State) : Res :=
  s.logicGo core (.logicBrb core r v tgt) 0 fun n t =>
    if ((t.task n).reg r).getLsbD 0 = v then t.logicJump n tgt
    else t.modTask n fun c => { c with pc := c.pc + 1 }

/-! ## Loads and stores -/

/-- LDW. -/
def execLogicLdw (core d r off : Nat) (s : State) : Res :=
  s.logicOp core (.logicLdw core d r off) (s.coreAddr core r off 16) fun n t =>
    let a := t.logicAddr n r off 16
    t.logicAccess a 4 fun u => u.modTask n fun c => c.setReg d (BitVec.ofNat 32 (u.vm a 4))

/-- LDH. -/
def execLogicLdh (core d r off : Nat) (s : State) : Res :=
  s.logicOp core (.logicLdh core d r off) (s.coreAddr core r off 16) fun n t =>
    let a := t.logicAddr n r off 16
    t.logicAccess a 2 fun u => u.modTask n fun c => c.setReg d (sextWord 16 (u.vm a 2))

/-- LDB. -/
def execLogicLdb (core d r off : Nat) (s : State) : Res :=
  s.logicOp core (.logicLdb core d r off) (s.coreAddr core r off 16) fun n t =>
    let a := t.logicAddr n r off 16
    t.logicAccess a 1 fun u => u.modTask n fun c => c.setReg d (BitVec.ofNat 32 (u.vm a 1))

/-- STW. -/
def execLogicStw (core d r off : Nat) (s : State) : Res :=
  s.logicOp core (.logicStw core d r off) (s.coreAddr core r off 16) fun n t =>
    let a := t.logicAddr n r off 16
    t.logicAccess a 4 fun u => u.vmStore n a (natBytes 4 ((u.task n).reg d).toNat)

/-- STH. -/
def execLogicSth (core d r off : Nat) (s : State) : Res :=
  s.logicOp core (.logicSth core d r off) (s.coreAddr core r off 16) fun n t =>
    let a := t.logicAddr n r off 16
    t.logicAccess a 2 fun u => u.vmStore n a (natBytes 2 ((u.task n).reg d).toNat)

/-- STB. -/
def execLogicStb (core d r off : Nat) (s : State) : Res :=
  s.logicOp core (.logicStb core d r off) (s.coreAddr core r off 16) fun n t =>
    let a := t.logicAddr n r off 16
    t.logicAccess a 1 fun u => u.vmStore n a (natBytes 1 ((u.task n).reg d).toNat)

/-- LDX. -/
def execLogicLdx (core d r off b : Nat) (s : State) : Res :=
  s.logicOp core (.logicLdx core d r off b) (s.coreAddr core r off 13) fun n t =>
    let a := t.logicAddr n r off 13
    t.logicAccess a 1 fun u => u.modTask n fun c => c.setReg d (BitVec.ofNat 32 (b2n (bitOf (u.vm a 1) b)))

/-- STX. -/
def execLogicStx (core d r off b : Nat) (s : State) : Res :=
  s.logicOp core (.logicStx core d r off b) (s.coreAddr core r off 13) fun n t =>
    let a := t.logicAddr n r off 13
    t.logicAccess a 1 fun u =>
      u.vmStore n a [BitVec.ofNat 8 (putBits (u.vm a 1) b 1 (b2n (((u.task n).reg d).getLsbD 0)))]

/-! ## Moves, integer arithmetic and logic -/

/-- LDI. -/
def execLogicLdi (core d imm : Nat) (s : State) : Res :=
  s.logicReg core (.logicLdi core d imm) fun c => c.setReg d (sextWord 16 imm)

/-- LDIH. -/
def execLogicLdih (core d imm : Nat) (s : State) : Res :=
  s.logicReg core (.logicLdih core d imm) fun c => c.setReg d (BitVec.ofNat 32 (putBits (c.reg d).toNat 16 16 imm))

/-- MOV. -/
def execLogicMov (core d r : Nat) (s : State) : Res := s.logicReg core (.logicMov core d r) fun c => c.setReg d (c.reg r)

/-- ADD. -/
def execLogicAdd (core d r t : Nat) (s : State) : Res :=
  s.logicReg core (.logicAdd core d r t) fun c => c.setReg d (c.reg r + c.reg t)

/-- SUB. -/
def execLogicSub (core d r t : Nat) (s : State) : Res :=
  s.logicReg core (.logicSub core d r t) fun c => c.setReg d (c.reg r - c.reg t)

/-- MUL. -/
def execLogicMul (core d r t : Nat) (s : State) : Res :=
  s.logicReg core (.logicMul core d r t) fun c => c.setReg d (c.reg r * c.reg t)

/-- The signed quotient toward zero, and the remainder, of R207; division by 0 gives 0. -/
def logicDiv (a b : Int) : Int := satInt 32 (Int.tdiv a b)
def logicMod (a b : Int) : Int := if b = 0 then 0 else Int.tmod a b

/-- A division by 0 counts. -/
def State.noteDiv0 (s : State) (n t : Nat) : State :=
  if (s.task n).reg t = 0 then s.incFld LOG_DIV0.COUNT else s

/-- DIV. -/
def execLogicDiv (core d r t : Nat) (s : State) : Res :=
  s.logicOp core (.logicDiv core d r t) 0 fun n u =>
    (u.noteDiv0 n t).modTask n fun c => c.setReg d (intWord (logicDiv (c.reg r).toInt (c.reg t).toInt))

/-- MOD. -/
def execLogicMod (core d r t : Nat) (s : State) : Res :=
  s.logicOp core (.logicMod core d r t) 0 fun n u =>
    (u.noteDiv0 n t).modTask n fun c => c.setReg d (intWord (logicMod (c.reg r).toInt (c.reg t).toInt))

/-- ADDI. -/
def execLogicAddi (core d r imm : Nat) (s : State) : Res :=
  s.logicReg core (.logicAddi core d r imm) fun c => c.setReg d (c.reg r + sextWord 16 imm)

/-- ADDS. -/
def execLogicAdds (core d r t : Nat) (s : State) : Res :=
  s.logicReg core (.logicAdds core d r t) fun c => c.setReg d (intWord (satInt 32 ((c.reg r).toInt + (c.reg t).toInt)))

/-- SUBS. -/
def execLogicSubs (core d r t : Nat) (s : State) : Res :=
  s.logicReg core (.logicSubs core d r t) fun c => c.setReg d (intWord (satInt 32 ((c.reg r).toInt - (c.reg t).toInt)))

/-- The operation that f selects in LGC. -/
def lgcWord (f : Nat) (a b : Word) : Word :=
  match f with
  | 0 => a &&& b
  | 1 => a ||| b
  | 2 => a ^^^ b
  | _ => a &&& ~~~b

/-- LGC. -/
def execLogicLgc (core d r t f : Nat) (s : State) : Res :=
  s.logicReg core (.logicLgc core d r t f) fun c => c.setReg d (lgcWord f (c.reg r) (c.reg t))

/-- NOT. -/
def execLogicNot (core d r : Nat) (s : State) : Res :=
  s.logicReg core (.logicNot core d r) fun c => c.setReg d (~~~(c.reg r))

/-- The shift that f selects in SHF and SHFI. -/
def shfWord (f : Nat) (a : Word) (n : Nat) : Word :=
  match f with
  | 0 => a <<< n
  | 1 => a >>> n
  | 2 => a.sshiftRight n
  | _ => a.rotateLeft n

/-- SHF. -/
def execLogicShf (core d r t f : Nat) (s : State) : Res :=
  s.logicReg core (.logicShf core d r t f) fun c => c.setReg d (shfWord f (c.reg r) ((c.reg t).toNat % 32))

/-- SHFI. -/
def execLogicShfi (core d r n f : Nat) (s : State) : Res :=
  s.logicReg core (.logicShfi core d r n f) fun c => c.setReg d (shfWord f (c.reg r) n)

/-- MINMAX. -/
def execLogicMinmax (core d r t : Nat) (f : Bool) (s : State) : Res :=
  s.logicReg core (.logicMinmax core d r t f) fun c =>
    let a := (c.reg r).toInt
    let b := (c.reg t).toInt
    c.setReg d (intWord (if f then max a b else min a b))

/-- LIMIT: no result is stated where Ws exceeds Wt; the value is free. -/
def execLogicLimit (core d r t : Nat) (s : State) : Res :=
  s.logicOp core (.logicLimit core d r t) 0 fun n u =>
    let c := u.task n
    if (c.reg t).toInt < (c.reg r).toInt then (u.setTask n (c.setReg d (Config.freeWord u.free))).useFree
    else u.setTask n (c.setReg d (intWord (clampInt (c.reg r).toInt (c.reg t).toInt (c.reg d).toInt)))

/-- ABSNEG. -/
def execLogicAbsneg (core d r : Nat) (f : Bool) (s : State) : Res :=
  s.logicReg core (.logicAbsneg core d r f) fun c =>
    let a := (c.reg r).toInt
    c.setReg d (intWord (satInt 32 (if f then -a else (a.natAbs : Int))))

/-! ## Compares and single bits -/

/-- CMP. -/
def execLogicCmp (core r t : Nat) (s : State) : Res :=
  s.logicReg core (.logicCmp core r t) fun c => c.cmp (c.reg r) (c.reg t)

/-- CMPI. -/
def execLogicCmpi (core r imm : Nat) (s : State) : Res :=
  s.logicReg core (.logicCmpi core r imm) fun c => c.cmp (c.reg r) (sextWord 16 imm)

/-- SETC. -/
def execLogicSetc (core d cc : Nat) (s : State) : Res :=
  s.logicOp core (.logicSetc core d cc) 0 fun n t =>
    if 12 ≤ cc then t.undef 215 else t.modTask n fun c => c.setReg d (BitVec.ofNat 32 (b2n (c.cond cc)))

/-- SEL. -/
def execLogicSel (core d r t : Nat) (s : State) : Res :=
  s.logicReg core (.logicSel core d r t) fun c => c.setReg d (if (c.reg d).getLsbD 0 then c.reg t else c.reg r)

/-- BOP. -/
def execLogicBop (core d r t f : Nat) (ns nt : Bool) (s : State) : Res :=
  s.logicOp core (.logicBop core d r t f ns nt) 0 fun n u =>
    if 3 ≤ f then u.undef 215
    else u.modTask n fun c =>
      let a := (c.reg r).getLsbD 0 != ns
      let b := (c.reg t).getLsbD 0 != nt
      c.setReg d (BitVec.ofNat 32 (b2n (match f with | 0 => a && b | 1 => a || b | _ => a != b)))

/-- QMUL. -/
def execLogicQmul (core d r t : Nat) (s : State) : Res :=
  s.logicReg core (.logicQmul core d r t) fun c =>
    c.setReg d (intWord (sat16 (sext 16 (c.reg r).toNat * sext 16 (c.reg t).toNat / 2 ^ 15)))

/-! ## binary32 (R207) -/

/-- Wd takes a binary32 result. IEEE 754 leaves the payload and the sign of a NaN open: it is a quiet NaN with a free
payload and sign. -/
def State.setFloat (s : State) (n d : Nat) (v : FVal) : State :=
  match v with
  | .nan =>
    let x := bitsOf s.freeNat 0 22 + bitsOf s.freeNat 31 1 * 2 ^ 31
    (s.modTask n fun c => c.setReg d (BitVec.ofNat 32 (0x7FC00000 + x))).useFree
  | _ => s.modTask n fun c => c.setReg d (BitVec.ofNat 32 (f32Word v))

/-- The value of Wk as binary32. -/
def State.fReg (s : State) (n k : Nat) : FVal := f32 ((s.task n).reg k).toNat

/-- FADD. -/
def execLogicFadd (core d r t : Nat) (s : State) : Res :=
  s.logicOp core (.logicFadd core d r t) 0 fun n u => u.setFloat n d (fAdd binary32 (u.fReg n r) (u.fReg n t))

/-- FSUB. -/
def execLogicFsub (core d r t : Nat) (s : State) : Res :=
  s.logicOp core (.logicFsub core d r t) 0 fun n u => u.setFloat n d (fSub binary32 (u.fReg n r) (u.fReg n t))

/-- FMUL. -/
def execLogicFmul (core d r t : Nat) (s : State) : Res :=
  s.logicOp core (.logicFmul core d r t) 0 fun n u => u.setFloat n d (fMul binary32 (u.fReg n r) (u.fReg n t))

/-- FDIV. -/
def execLogicFdiv (core d r t : Nat) (s : State) : Res :=
  s.logicOp core (.logicFdiv core d r t) 0 fun n u => u.setFloat n d (fDiv binary32 (u.fReg n r) (u.fReg n t))

/-- FCMP: C of ordered operands is a free value. -/
def execLogicFcmp (core r t : Nat) (s : State) : Res :=
  s.logicOp core (.logicFcmp core r t) 0 fun n u =>
    (u.modTask n fun c => c.fcmp (c.reg r) (c.reg t) ((Config.freeWord u.free).getLsbD 0)).useFree

/-- A binary32 value rounded to nearest, ties to even, and saturated to `k` bits; a NaN gives 0. -/
def fToSat (k : Nat) (v : FVal) : Int :=
  match v with
  | .nan => 0
  | .inf neg => if neg then -(2 ^ (k - 1) : Nat) else (2 ^ (k - 1) : Nat) - 1
  | .fin _ _ _ => satInt k (fToIntEven v)

/-- A binary32 value times 2^15, exactly. -/
def fScale15 : FVal → FVal
  | .fin a m e => .fin a m (e + 15)
  | v => v

/-- FCVT; a Q15 result is sign-extended. -/
def execLogicFcvt (core d r f : Nat) (s : State) : Res :=
  s.logicReg core (.logicFcvt core d r f) fun c =>
    let w := c.reg r
    c.setReg d (match f with
      | 0 => BitVec.ofNat 32 (f32Word (fInt w.toInt))
      | 1 => intWord (fToSat 32 (f32 w.toNat))
      | 2 => BitVec.ofNat 32 (f32Word (.fin (sext 16 w.toNat < 0) (sext 16 w.toNat).natAbs (-15)))
      | _ => intWord (fToSat 16 (fScale15 (f32 w.toNat))))

/-! ## Planes (R200) -/

/-- The directory index of GETD and PUTD: named, or in a register. -/
def TaskCtx.sigIndex (c : TaskCtx) (ind : Bool) (x : Nat) : Nat := if ind then (c.reg x).toNat % 16384 else x

/-- GETD. -/
def execLogicGetd (core d : Nat) (ind : Bool) (x : Nat) (s : State) : Res :=
  s.logicOp core (.logicGetd core d ind x) 0 fun n t =>
    let i := (t.task n).sigIndex ind x
    if i < t.sigCount then t.modTask n fun c => c.setReg d (BitVec.ofNat 32 (t.cur i)) else t.undef 215

/-- A write of LOG into output-plane word `i`: the entry's SOURCE must be LOG (R215). -/
def State.logPut (s : State) (i w : Nat) : State :=
  if i < s.sigCount && s.sigSource i = 0x0A then s.putSig i w else s.undef 215

/-- PUTD. -/
def execLogicPutd (core d : Nat) (ind : Bool) (x : Nat) (s : State) : Res :=
  s.logicOp core (.logicPutd core d ind x) 0 fun n t => t.logPut ((t.task n).sigIndex ind x) ((t.task n).reg d).toNat

/-- GRP: the pair W31, W0 leaves its second word out, since W0 ignores writes. -/
def execLogicGrp (core d g : Nat) (s : State) : Res :=
  s.logicOp core (.logicGrp core d g) 0 fun n t =>
    if t.sigCount ≤ g then t.undef 215
    else t.modTask n fun c =>
      (c.setReg d (BitVec.ofNat 32 (t.pw (t.grpCurAt g)))).setReg ((d + 1) % 32) (BitVec.ofNat 32 (t.pw (t.grpCurAt g + 4)))

/-! ## Timers, counters and edges (R208 to R210) -/

/-- What TMR makes of a record: ET, RUN and Q; `f` 0 TON, 1 TOF, 2 TP. -/
def timerEval (f et pt dt : Nat) (run q prev inp : Bool) : Nat × Bool × Bool :=
  let up := min (et + dt) pt
  match f with
  | 0 => if inp then (up, true, up = pt) else (0, false, false)
  | 1 => if inp then (0, false, true) else if q then (up, up != pt, up != pt) else (et, run, q)
  | _ =>
    let p : Nat × Bool :=
      if run then (up, true) else if inp && !prev then (0, true) else if !inp then (0, false) else (et, false)
    let r := p.2 && p.1 != pt
    (p.1, r, r)

/-- TMR. -/
def execLogicTmr (core d r f i : Nat) (s : State) : Res :=
  s.logicOp core (.logicTmr core d r f i) (timerAt i) fun n t =>
    let k := Sparse.get (fun _ => 0) t.log.timerKinds i
    if 3 ≤ f || (k != 0 && k != f + 1) then t.undef 215
    else
      let c := t.task n
      let a := timerAt i
      let st := t.vm (a + 12) 4
      let now := c.strobe % 2 ^ 32
      let run := bitOf st 1
      let dt := if run then (now + 2 ^ 32 - t.vm (a + 8) 4) % 2 ^ 32 else 0
      let inp := (c.reg r).getLsbD 0
      let x := timerEval f (t.vm (a + 4) 4) (t.vm a 4) dt run (bitOf st 0) (bitOf st 2) inp
      let t := { t with log := { t.log with timerKinds := Sparse.set (fun _ => 0) t.log.timerKinds i (f + 1) } }
      let t := t.vmStore n (a + 4)
        (natBytes 4 x.1 ++ natBytes 4 now ++ natBytes 4 (b2n x.2.2 + 2 * b2n x.2.1 + 4 * b2n inp))
      t.modTask n fun c => c.setReg d (BitVec.ofNat 32 (b2n x.2.2))

/-- TPT. -/
def execLogicTpt (core r i : Nat) (s : State) : Res :=
  s.logicOp core (.logicTpt core r i) (timerAt i) fun n t => t.vmStore n (timerAt i) (natBytes 4 ((t.task n).reg r).toNat)

/-- TRD. -/
def execLogicTrd (core d i : Nat) (s : State) : Res :=
  s.logicOp core (.logicTrd core d i) (timerAt i) fun n t =>
    t.modTask n fun c => c.setReg d (BitVec.ofNat 32 (t.vm (timerAt i + 4) 4))

/-- What CNT makes of a record: CV; `f` 0 CTU, 1 CTD, 2 CTUD. -/
def counterEval (f : Nat) (cv pv : Int) (cu cd res ld : Bool) : Int :=
  if res then 0
  else if ld then pv
  else
    let v := if cu && f != 1 && cv < 2 ^ 31 - 1 then cv + 1 else cv
    if cd && f != 0 && -(2 ^ 31) < v then v - 1 else v

/-- CNT. -/
def execLogicCnt (core d r f i : Nat) (s : State) : Res :=
  s.logicOp core (.logicCnt core d r f i) (counterAt i) fun n t =>
    if 3 ≤ f then t.undef 215
    else
      let w := (t.task n).reg r
      let a := counterAt i
      let st := t.vm (a + 8) 4
      let init := bitOf st 2
      let cu := w.getLsbD 0
      let cd := w.getLsbD 1
      let cuP := if init then cu else bitOf st 0
      let cdP := if init then cd else bitOf st 1
      let pv := sext 32 (t.vm (a + 4) 4)
      let cv := counterEval f (sext 32 (t.vm a 4)) pv (cu && !cuP) (cd && !cdP) (w.getLsbD 2) (w.getLsbD 3)
      let st := putBits (putBits st 0 2 (b2n cu + 2 * b2n cd)) 2 1 0
      let t := t.vmStore n a (natBytes 4 (trunc 32 cv) ++ natBytes 4 (t.vm (a + 4) 4) ++ natBytes 4 st)
      t.modTask n fun c => c.setReg d (BitVec.ofNat 32 (b2n (pv ≤ cv) + 2 * b2n (cv ≤ 0)))

/-- CPV. -/
def execLogicCpv (core r i : Nat) (s : State) : Res :=
  s.logicOp core (.logicCpv core r i) (counterAt i) fun n t =>
    t.vmStore n (counterAt i + 4) (natBytes 4 ((t.task n).reg r).toNat)

/-- CRD. -/
def execLogicCrd (core d i : Nat) (s : State) : Res :=
  s.logicOp core (.logicCrd core d i) (counterAt i) fun n t =>
    t.modTask n fun c => c.setReg d (BitVec.ofNat 32 (t.vm (counterAt i) 4))

/-- EDGE. -/
def execLogicEdge (core d r : Nat) (f : Bool) (i : Nat) (s : State) : Res :=
  s.logicOp core (.logicEdge core d r f i) (edgeAt i) fun n t =>
    let inp := ((t.task n).reg r).getLsbD 0
    let b := t.vm (edgeAt i) 1
    let prev := bitOf b 0
    let y := !bitOf b 1 && (if f then prev && !inp else inp && !prev)
    let t := t.vmStore n (edgeAt i) [BitVec.ofNat 8 (putBits b 0 2 (b2n inp))]
    t.modTask n fun c => c.setReg d (BitVec.ofNat 32 (b2n y))

/-- EVT: the event's source is the cyclic program's (R415). -/
def execLogicEvt (core : Nat) (c : Bool) (code : Nat) (s : State) : Res :=
  s.logicOp core (.logicEvt core c code) 0 fun n t => t.post 0x1B code c [n]

/-! ## Cycles (R196 to R199) -/

/-- The configuration of task `n` that its releases follow: the registers, or the new program's from X on where only the new
program has the task (R213). -/
def State.taskCfg (s : State) (n : Nat) : TaskCfg :=
  if s.log.x.isSome && s.log.toExch.contains n && !s.flag (LOG_TASK_CFG.ENABLE n) then
    Sparse.get (fun _ => { cfg := 0, entry := 0, phase := 0 }) (s.bankProg (s.flag LOG_BANK.ACTIVE)).tasks n
  else { cfg := s.reg (LOG_TASK_CFG n), entry := s.reg (LOG_TASK_ENTRY n), phase := s.reg (LOG_TASK_PHASE n) }

/-- ENABLE, period in ticks and phase of a configuration. -/
def TaskCfg.enabled (c : TaskCfg) : Bool := bitOf c.cfg.toNat 0
def TaskCfg.ticks (c : TaskCfg) : Nat := 5 * max 1 (bitsOf c.cfg.toNat 4 12)
def TaskCfg.offset (c : TaskCfg) : Nat := bitsOf c.phase.toNat 0 15

/-- A regular release of the configuration falls on tick `n`. -/
def TaskCfg.at_ (c : TaskCfg) (n : Nat) : Bool := c.enabled && c.offset ≤ n && (n - c.offset) % c.ticks = 0

/-- Stopping task `n`'s cycle between instructions and the task with it (R197). -/
def State.taskStop (s : State) (n : Nat) : State :=
  let s1 := match (s.task n).job with
    | some j => s.completeJob j true
    | none => s
  ((s1.modTask n fun c => { c with phase := 0, job := none }).setFld (LOG_TASK_STAT.STOPPED n) 1).post 0x0A 3 true [n]

/-- Task `n` skips a release (R197). -/
def State.taskSkip (s : State) (n : Nat) : State :=
  let s1 := ((s.incFld (LOG_TASK_OVR.SKIP n)).incFld (LOG_TASK_STAT.SKIPRUN n)).post 0x0A 1 true [n]
  let s2 := s1.modTask n fun c => { c with skipped := true }
  let w := s2.fld (LOG_TASK_CFG.WDOG n)
  if w != 0 && w ≤ s2.fld (LOG_TASK_STAT.SKIPRUN n) then s2.taskStop n else s2

/-- The job of a task released at tick `t` (R196, R27). -/
def State.taskJob (s : State) (n t : Nat) : JobReq :=
  let c := s.taskCfg n
  let d := boundaryNs (t + c.ticks - 1) + 48000
  { simpleJob 2 true false d 1 n srcLog 0 with
    extend := c.ticks, pin := bitOf c.cfg.toNat 1, engine := bitsOf c.cfg.toNat 2 2 }

/-- Releasing task `n` at tick `t`; a refused release is skipped. -/
def State.taskRelease (s : State) (n t : Nat) : State :=
  let p := s.release (s.taskJob n t)
  match p.2 with
  | none => p.1.taskSkip n
  | some j =>
    let s1 := p.1.setFld (LOG_TASK_STAT.SKIPRUN n) 0
    s1.modTask n fun c =>
      { c with phase := 1, job := some j, relTick := t, strobe := s1.log.strobes, relNs := boundaryNs t }

/-- Task `n` takes releases: not stopped. -/
def State.taskTakes (s : State) (n : Nat) : Bool := !s.flag (LOG_TASK_STAT.STOPPED n)

/-- Exchange releases at X (R213): tasks of both programs without a regular release in the window. -/
def State.exchReleases (s : State) : State :=
  match s.log.x with
  | none => s
  | some x =>
    s.each (s.log.toExch.filter fun n => s.flag (LOG_TASK_CFG.ENABLE n) && s.taskTakes n &&
        !((List.range 5).any fun k => (s.taskCfg n).at_ (x + k))) fun t n => t.taskRelease n x

/-- The exchange is over once its window has closed and no task is left to exchange. -/
def State.exchFinish (s : State) (t : Nat) : State :=
  match s.log.x with
  | none => s
  | some x =>
    if x + 5 ≤ t then
      let late := s.log.toExch.any fun n => s.flag (LOG_TASK_CFG.ENABLE n) && s.taskTakes n
      let s1 := if s.fld LOG_EXCH_STAT.STATE = 3 then s.setFld LOG_EXCH_STAT.STATE (if late then 5 else 4) else s
      if s1.log.toExch.isEmpty then { s1 with log := { s1.log with x := none } } else s1
    else s

/-- What the engine does at strobe arrival of tick `t` in the logic vale. -/
def State.logStrobe (s : State) (t : Nat) : State :=
  if !s.runs Vale.logic then s
  else
    let s1 := { s with log := { s.log with strobes := (s.log.strobes + 1) % 2 ^ 32 } }
    let s2 := s1.each (List.range 8) fun u n => if (u.task n).phase = 2 then u.incFld LOG_STAT.REREAD else u
    if !s2.committed || !s2.jrnReleases then s2
    else
      let s3 := s2.exchFinish t
      let s4 := s3.each (List.range 8) fun u n =>
        if u.taskTakes n && (u.taskCfg n).at_ t then
          if (u.task n).phase = 0 then u.taskRelease n t else u.taskSkip n
        else u
      if s4.log.x = some t then s4.exchReleases else s4

/-- The image read of task `n` (R198 step 3, R199): every input-list entry into variable memory; then the program runs. -/
def State.taskRead (s : State) (n : Nat) : State :=
  let ws := Sparse.get (fun _ => []) (s.taskProg n).inputs n
  let s1 := s.each ws fun t w =>
    let i := bitsOf w 0 14
    if i < t.sigCount then t.vmPut (4 * bitsOf w 14 18 % 0x100000) (natBytes 4 (t.cur i)) else t.undef 215
  s1.modTask n fun c => { c with phase := 3 }

/-- Input close: the cores that wait read their whole list (R199). -/
def State.logInputClose (s : State) : State :=
  s.each (List.range 8) fun t n => if (t.task n).phase = 2 then t.taskRead n else t

/-- Setting the dirty bits of a page. -/
def State.dirtyPage (s : State) (p : Nat) : State :=
  s.each (List.range 64) fun t k =>
    { t with log := { t.log with dirtyA := Sparse.set (fun _ => false) t.log.dirtyA (64 * p + k) true,
                                 dirtyB := Sparse.set (fun _ => false) t.log.dirtyB (64 * p + k) true } }

/-- The action of R213 on one entry of the exchange table. -/
def State.exchEntry (s : State) (e : ExchEntry) : State :=
  match e.kind, e.matched with
  | _, true => s
  | 0, false => (s.vmPut e.addr e.init).dirtyPage (e.addr / 4096)
  | 1, false =>
    let s1 := { s with log := { s.log with timerKinds := Sparse.set (fun _ => 0) s.log.timerKinds ((e.addr - 0xF0000) / 16) 0 } }
    (s1.vmPut e.addr (natBytes 16 0)).dirtyPage (e.addr / 4096)
  | 2, false => (s.vmPut e.addr (natBytes 4 0 ++ e.init ++ natBytes 8 4)).dirtyPage (e.addr / 4096)
  | _, false => (s.vmPut e.addr [BitVec.ofNat 8 2]).dirtyPage (e.addr / 4096)

/-- Task `n` takes the configuration of the program in force (R213). -/
def State.taskConfig (s : State) (n : Nat) : State :=
  let p := s.bankProg (s.flag LOG_BANK.ACTIVE)
  let cfg := Sparse.get (fun _ => { cfg := 0, entry := 0, phase := 0 }) p.tasks n
  ((s.setReg (LOG_TASK_CFG n) cfg.cfg).setReg (LOG_TASK_ENTRY n) cfg.entry).setReg (LOG_TASK_PHASE n) cfg.phase

/-- The exchange cycle of task `n` begins (R213): code, lists, configuration, pages and instances. -/
def State.taskExchange (s : State) (n : Nat) : State :=
  let b := s.flag LOG_BANK.ACTIVE
  let p := s.bankProg b
  let s2 := (s.taskConfig n).setFld (LOG_TASK_STAT.EXCHANGED n) 1
  let s3 := s2.each (List.range 256) fun t q =>
    let o := Sparse.get (fun _ => 0) p.pages q
    if o = n + 1 || (o = 0 && Sparse.get (fun _ => 0) t.log.pages q = n + 1) then
      { t with log := { t.log with pages := Sparse.set (fun _ => 0) t.log.pages q o } }
    else t
  let s4 := { s3 with log := { s3.log with toExch := s3.log.toExch.erase n } }
  (s4.modTask n fun c => { c with bank := b, exch := true }).each (p.table.filter fun e => e.task = n) State.exchEntry

/-- The registers a cycle starts with (R194). -/
def TaskCtx.start (c : TaskCtx) (entry : Nat) : TaskCtx :=
  let c1 := { c with w := [], n := false, z := false, c := false, v := false, pc := entry, calls := [], first := false,
                     resumed := false, skipped := false, exch := false, phase := 2 }
  let w28 := b2n c.first + 2 * b2n c.resumed + 4 * b2n c.exch + 8 * b2n c.skipped
  let c2 := (c1.setReg 28 (BitVec.ofNat 32 w28)).setReg 29 (BitVec.ofNat 32 c.strobe)
  (c2.setReg 30 (BitVec.ofNat 32 (shortOf c.relNs))).setReg 31 (BitVec.ofNat 32 c.cycles)

/-- CYCLE_START (R198 steps 1 to 3): core `core` starts the cycle of the task dispatched to it. `whole` says that the image
read ends before the next strobe; where it does not, or the latch window is open, the read waits for input close. -/
def execCycleStart (core : Nat) (whole : Bool) (dlat : Nat) (s : State) : Res :=
  match s.running (8 + core), s.coreTask core with
  | some j, some n =>
    if 4 ≤ core || !s.runs Vale.logic || s.halted || (s.task n).phase != 1 then .next s
    else
      let s := s.noteDispatch j dlat
      let x := match s.log.x with | some x => s.log.toExch.contains n && x ≤ (s.task n).relTick | none => false
      let s := if x then s.taskExchange n else s
      let s := s.modTask n fun c => c.start (s.fld (LOG_TASK_ENTRY.ENTRY n))
      if whole && s.time.phase != .arrived then (s.taskRead n).done else s.done
  | _, _ => .next s

/-- The output flush (R198 step 5). -/
def State.taskFlush (s : State) (n : Nat) : State :=
  s.each (Sparse.get (fun _ => []) (s.taskProg n).outputs n) fun t w =>
    t.logPut (bitsOf w 0 14) (t.vm (4 * bitsOf w 14 18 % 0x100000) 4)

/-- Plain offset of task `n`'s selector word (R202). -/
def State.selectorAt (s : State) (n : Nat) : Nat := s.base LOG_RET_BASE.BASE + 0x200000 + 4 * n

/-- The retain flush (R202): the dirty owned lines into the copy that the selector does not name, then the selector. -/
def State.retainFlush (s : State) (n port : Nat) : State :=
  let sel := s.pw (s.selectorAt n)
  let toB := sel % 2 = 0
  let dirty := if toB then s.log.dirtyB else s.log.dirtyA
  let mine := (dirty.map fun p => p.1).filter fun l => s.pageOwner (64 * l) = n + 1
  let s1 := s.each mine fun t l =>
    let t := t.busWrite port (t.base LOG_RET_BASE.BASE + b2n toB * 0x100000 + 64 * l) (Memory.bytes t.log.vmem (64 * l) 64)
    if toB then { t with log := { t.log with dirtyB := Sparse.set (fun _ => false) t.log.dirtyB l false } }
    else { t with log := { t.log with dirtyA := Sparse.set (fun _ => false) t.log.dirtyA l false } }
  s1.busWord port (s1.selectorAt n) (b2n toB + 2 * ((sel / 2 + 1) % 2 ^ 31))

/-- CYCLE_COMPLETE (R198 steps 5 and 6): the flushes of the cycle on core `core`, whose END has retired, are done. -/
def execCycleComplete (core : Nat) (s : State) : Res :=
  match s.running (8 + core), s.coreTask core with
  | some j, some n =>
    if 4 ≤ core || !s.runs Vale.logic || (s.task n).phase != 4 then .next s
    else
      let s := (s.taskFlush n).retainFlush n (if core < 2 then 8 else 9)
      let us := min 0xFFFF ((s.ns - (s.task n).relNs) / 1000)
      let s := (s.setFld (LOG_TASK_TIME.LAST n) us).peakFld (LOG_TASK_TIME.MAX n) us
      let s := s.modTask n fun c => { c with phase := 0, job := none, cycles := (c.cycles + 1) % 2 ^ 32 }
      let e : EndedJob := { engine := 8 + core, job := j, how := 0 }
      let s := { s.setRunning (8 + core) none with sch := { (s.setRunning (8 + core) none).sch with ended := s.sch.ended ++ [e] } }
      s.dispatch.done
  | _, _ => .next s

/-! ## Task commands -/

/-- TASK_START (R197): a stopped task restarts at its next due boundary. -/
def execTaskStart (task : Nat) (s : State) : Res :=
  if task < 8 && !s.powerFail then .next ((s.setFld (LOG_TASK_STAT.STOPPED task) 0).setFld (LOG_TASK_STAT.SKIPRUN task) 0) else .next s

/-- TASK_STOP: as the watchdog stop of R197. -/
def execTaskStop (task : Nat) (s : State) : Res :=
  if task < 8 && !s.powerFail then .next (s.taskStop task).dispatch else .next s

/-- LOG_CLR_COUNTS. -/
def execLogClrCounts (s : State) : Res :=
  .next (s.clrRegs ([LOG_STAT, LOG_DIV0] ++ (List.range 8).map LOG_TASK_OVR))

/-- LOG_CLR_PEAKS. -/
def execLogClrPeaks (s : State) : Res := .next (s.each (List.range 8) fun t n => t.setFld (LOG_TASK_TIME.MAX n) 0)

/-! ## On-line exchange (R211 to R213) -/

/-- Refusing the exchange; the tables staged with it are discarded (R444). -/
def State.exchRefuse (s : State) (reason : Nat) : State :=
  let s := { s with log := { s.log with reqNs := none, toExch := [] }, boot := { s.boot with change := none } }.setFld BOOT_CHG.BUSY 0
  (s.setFld LOG_EXCH_STAT.STATE 6).setFld LOG_EXCH_STAT.REASON reason

/-- The exchange is being checked or awaits X. -/
def State.exchOpen (s : State) : Bool := s.fld LOG_EXCH_STAT.STATE = 1 || s.fld LOG_EXCH_STAT.STATE = 2

/-- An exchange has reached X and has tasks or a window left. -/
def State.exchRunning (s : State) : Bool := s.log.x.isSome

/-- An exchange request: accepted where none is under way and a new program is loaded. -/
def State.exchAsk (s : State) : State :=
  if s.exchOpen || s.exchRunning then s
  else if !s.flag LOG_BANK.LOADED then s.exchRefuse 3
  else
    let s := s.each (List.range 8) fun t n => t.setFld (LOG_TASK_STAT.EXCHANGED n) 0
    { s with log := { s.log with reqNs := some s.ns } }.setFld LOG_EXCH_STAT.STATE 1

/-- EXCH_REQUEST. -/
def execExchRequest (s : State) : Res := s.regCommand State.exchAsk

/-- The exchange table mismatches the active one (R211). -/
def State.exchMismatch (s : State) : Bool :=
  let b := s.flag LOG_BANK.ACTIVE
  let new := (s.bankProg (!b)).table
  let old := (s.bankProg b).table
  new.any fun e =>
    (new.filter fun f => f.key = e.key).length != 1 ||
      (e.matched && !old.any fun f => f.key = e.key && f.kind = e.kind && f.addr = e.addr)

/-- EXCH_CHECK_DONE. -/
def execExchCheckDone (s : State) : Res :=
  if s.fld LOG_EXCH_STAT.STATE != 1 then .next s
  else if s.exchMismatch then .next (s.exchRefuse 0)
  else .next (s.setFld LOG_EXCH_STAT.STATE 2)

/-- Tick `t` is eligible as X (R212). -/
def State.exchEligible (s : State) (t : Nat) : Bool :=
  t % 5 = 0 &&
    (match s.log.reqNs with | some r => r + 250000 ≤ boundaryNs t | none => false) &&
    (List.range 8).all fun n =>
      !s.flag (LOG_TASK_CFG.ENABLE n) || (List.range 5).any (fun k => (s.taskCfg n).at_ (t + k)) || (s.task n).phase = 0

/-- The window opens at the present tick: tasks that only the old program has leave at X. -/
def State.exchOpenAt (s : State) (t : Nat) : State :=
  let b := s.flag LOG_BANK.ACTIVE
  let p := s.bankProg (!b)
  let en (n : Nat) : Bool :=
    (Sparse.get (fun _ => ({ cfg := 0, entry := 0, phase := 0 } : TaskCfg)) p.tasks n).enabled
  let s1 := { s with log := { s.log with x := some t, reqNs := none, toExch := (List.range 8).filter en } }
  let s2 := (s1.setFld LOG_BANK.ACTIVE (b2n (!b))).setFld LOG_BANK.LOADED 0
  let s3 := s2.each ((List.range 8).filter fun n => !en n) fun u n => u.taskConfig n
  (s3.setFld LOG_EXCH_STAT.STATE 3).setFld LOG_EXCH_STAT.X_LO t

/-- EXCH_TIMEOUT. -/
def execExchTimeout (s : State) : Res := if s.exchOpen then .next (s.exchRefuse 1) else .next s

/-- EXCH_CANCEL: at any instant before X. -/
def execExchCancel (s : State) : Res := s.regCommand fun s => if s.exchOpen then s.exchRefuse 2 else s

/-! ## Commit and restore -/

/-- The tasks as a commit leaves them, with the first-cycle bit. -/
def State.logCommit (s : State) : State :=
  let b := s.flag LOG_BANK.ACTIVE
  { s with log := { s.log with pages := (s.bankProg b).pages, timerKinds := [], reqNs := none, x := none, toExch := [],
                               tasks := (List.range 8).map fun n => (n, { TaskCtx.zero with first := true, bank := b }) } }

/-- After the journal has restored variable memory (R203): initialisation list, timers, dirty lines, first cycle. -/
def State.logRestore (s : State) : State :=
  let p := s.bankProg (s.flag LOG_BANK.ACTIVE)
  let s1 := s.each p.init fun t e => t.vmPut e.1 (natBytes 4 e.2)
  let s2 := s1.each (List.range 4096) fun t i => t.vmPut (timerAt i + 8) (natBytes 4 t.log.strobes)
  let all := (List.range 16384).map fun l => (l, true)
  let s3 := { s2 with log := { s2.log with dirtyA := all, dirtyB := all } }
  s3.each (List.range 8) fun t n => t.modTask n fun c => { c with first := false, resumed := true }

/-- A job whose release the scheduler held back or ended because of its deadline is LATE (R75). -/
def State.taskLate (s : State) (j : Nat) : State :=
  if s.jSource j = srcLog then s.incFld (LOG_TASK_OVR.LATE (s.jEntry j % 8)) else s

end Sys2Proof.Machine
end

