-- ==== Sys2Proof/Machine/Outputs.lean ====
section
/-!
DEFINITION. Machine/Outputs.lean: what the input sources and the output units share (R24, R25, R29, R90): latching an entry
at the strobe, binding, prefetch, the words that the output units take, and holding them.
-/

namespace Sys2Proof.Machine

/-! ## Latching (R24, R25, R105) -/

/-- A latching source's word for entry `i`: discarded while the entry is forced, or where the write is late. -/
def State.latchSig (s : State) (i w : Nat) : State :=
  if (s.forced i).isSome || s.isLate i then s else s.setCur i w

/-- The entries in use of source `src`. -/
def State.sigsOf (s : State) (src : Nat) : List Nat := s.sigs.filter fun i => s.sigSource i = src

/-- The consistency groups of source `src`, each with its entries. -/
def State.groupsOf (s : State) (src : Nat) : List (Nat × List Nat) :=
  let es := (s.sigsOf src).filter fun i => s.sigGroup i != 0x3FF
  ((es.map fun i => s.sigGroup i).eraseDups).map fun g => (g, es.filter fun i => s.sigGroup i = g)

/-! ## Binding and prefetch (R29) -/

/-- The unit code of a binding: OUT_REF [31:24]. -/
def OutUnit.code : OutUnit → Nat
  | .dac => 0x0A
  | .pwm => 0x0B
  | .rio => 0x0C
  | .can => 0x0D
  | .gpio => 0x0E

/-- The fabric port of an output unit (R21). -/
def OutUnit.port : OutUnit → Nat
  | .dac => 6
  | .pwm => 7
  | .rio => 12
  | .can => 16
  | .gpio => 7

/-- The entries bound to an output unit. -/
def State.boundTo (s : State) (code : Nat) : List Nat :=
  s.sigs.filter fun i => s.sigOutEn i && s.sigOutRef i / 2 ^ 24 = code

/-- The entry bound with this OUT_REF. -/
def State.boundAt (s : State) (ref : Nat) : Option Nat := s.sigs.find? fun i => s.sigOutEn i && s.sigOutRef i = ref

/-- The word that an output unit takes from entry `i` at the next boundary: the force value while forced (R105). -/
def State.nextOut (s : State) (i : Nat) : Word := (s.forcedNext i).getD (BitVec.ofNat 32 (s.out i))

/-- OUTPUT_PREFETCH (R29): the unit's reads of the output plane into its holding registers complete. -/
def execOutputPrefetch (unit : OutUnit) (s : State) : Res :=
  if s.time.phase != .outputClosed && s.time.phase != .risen then .next s
  else
    let s := s.each (s.boundTo unit.code) fun t i =>
      { t with sig := { t.sig with prefetched := Sparse.set (fun _ => none) t.sig.prefetched i (some (t.nextOut i)) } }
    .next { s with sig := { s.sig with prefetchDone := unit :: s.sig.prefetchDone.erase unit } }

/-- The word that entry `i`'s unit drives; none is the unit's hardware reset state. -/
def State.driven (s : State) (i : Nat) : Option Word := Sparse.get (fun _ => none) s.sig.taken i

/-- Setting the word that entry `i`'s unit drives. -/
def State.setDriven (s : State) (i : Nat) (w : Option Word) : State :=
  { s with sig := { s.sig with taken := Sparse.set (fun _ => none) s.sig.taken i w } }

/-- Entry `i`'s output is held. -/
def State.isHeld (s : State) (i : Nat) : Bool := Sparse.get (fun _ => false) s.sig.held i

/-- Holding entry `i`'s output, or not. -/
def State.setHeld (s : State) (i : Nat) (b : Bool) : State :=
  { s with sig := { s.sig with held := Sparse.set (fun _ => false) s.sig.held i b } }

/-- A unit takes its holding registers at strobe arrival; where its prefetch is incomplete it keeps its values and the
strobe counts. -/
def State.takeUnit (s : State) (u : OutUnit) : State :=
  let es := s.boundTo u.code
  if s.sig.prefetchDone.contains u then
    s.each es fun t i =>
      if t.isHeld i then t else t.setDriven i (Sparse.get (fun _ => none) t.sig.prefetched i)
  else if es.isEmpty then s
  else (s.incFld SYS_TICK_STAT.OUT_LATE).setFld SYS_LATE_SRC.OUT_PORT u.port

/-- All output units take their held words at strobe arrival; a standby's are loaded from the tick records (R331). -/
def State.takeOutputs (s : State) : State :=
  let s1 := if s.pairHolds then s else s.each ([OutUnit.dac, .pwm, .gpio, .rio, .can].filter fun u => u != .can || s.runs Vale.can) State.takeUnit
  { s1 with sig := { s1.sig with prefetched := [], prefetchDone := [] } }

/-- Driving entry `i` in mode `mode` of R90; `last` is what LAST means. -/
def State.holdOut (s : State) (i mode : Nat) (last : Option Word) : State :=
  let s := s.setHeld i true
  match mode with
  | 0 => s.setDriven i last
  | 1 => s.setDriven i (some (BitVec.ofNat 32 (s.sigSafeVal i)))
  | 2 => s.setDriven i none
  | _ => s.undef 108

/-- The bound entries whose outputs take the modes of R90. -/
def State.heldUnits (s : State) : List Nat := s.sigs.filter fun i => s.sigOutEn i

end Sys2Proof.Machine
end

