-- ==== Sys2Proof/Machine/Adc.lean ====
section
/-!
DEFINITION. Machine/Adc.lean: the converters and the analog outputs (chapter 10).
-/

namespace Sys2Proof.Machine

/-! ## State of a slice and of a group -/

/-- A slice that has converted nothing. -/
def AdcSlice.zero : AdcSlice :=
  { run := none, flight := [], urgent := false, restart := none, ordinary := false, counting := false, next1 := false,
    res := [], window := [] }

/-- A group after reset. -/
def AdcGroup.zero : AdcGroup :=
  { slices := [], yPrev := none, timers := [], calReq := false, started := false, stage := [] }

def State.adcG (s : State) (g : Nat) : AdcGroup := Sparse.get (fun _ => AdcGroup.zero) s.adc.groups g
def State.setAdcG (s : State) (g : Nat) (v : AdcGroup) : State :=
  { s with adc := { s.adc with groups := Sparse.set (fun _ => AdcGroup.zero) s.adc.groups g v } }
def State.modAdcG (s : State) (g : Nat) (f : AdcGroup → AdcGroup) : State := s.setAdcG g (f (s.adcG g))
def State.slice (s : State) (g k : Nat) : AdcSlice := Sparse.get (fun _ => AdcSlice.zero) (s.adcG g).slices k
def State.setSlice (s : State) (g k : Nat) (v : AdcSlice) : State :=
  s.modAdcG g fun x => { x with slices := Sparse.set (fun _ => AdcSlice.zero) x.slices k v }
def State.modSlice (s : State) (g k : Nat) (f : AdcSlice → AdcSlice) : State := s.setSlice g k (f (s.slice g k))

/-- MODE of group `g`: 0 OFF, 1 INTERLEAVED, 2 SCAN, 3 PIPELINE. -/
def State.adcMode (s : State) (g : Nat) : Nat := s.fld (ADC_GCFG.MODE g)

/-- The group converts: its mode is not OFF, its commit calibration has ended and it is not calibrating (R248). -/
def State.adcOn (s : State) (g : Nat) : Bool :=
  g < 4 && s.runs Vale.converter && s.adcMode g != 0 && (s.adcG g).started && !s.bit ADC_STAT.BUSY g

/-! ## Correction (R245) -/

/-- Offset and gain. -/
def adcGain (x off gain : Int) : Int := clampInt 0 65535 ((x - off) * gain / 2 ^ 15)

/-- Skew correction against the group's previous sample. -/
def adcSkew (y prev skew : Int) : Int := clampInt 0 65535 (y - skew * (y - prev) / 2 ^ 15)

/-- The corrected code of raw code `x` of slice `k`; a PIPELINE code has 14 bits and takes slice 0's coefficients. -/
def State.adcCorrect (s : State) (g k raw : Nat) : Nat :=
  let m := s.adcMode g
  let c := if m = 3 then 0 else k
  let x : Int := if m = 3 then (raw * 4 : Nat) else (raw : Nat)
  let y := adcGain x (sext 16 (s.fld (ADC_GCOR.OFF g c))) (s.fld (ADC_GCOR.GAIN g c) : Nat)
  let y2 := if m = 1 && s.flag (ADC_GCFG.SKEW_EN g) then
      adcSkew y (match (s.adcG g).yPrev with | some p => (p : Int) | none => y) (sext 16 (s.fld (ADC_GSKEW.SKEW g k)))
    else y
  y2.toNat

/-- Sampling to complete result, in 2^-32 ns (R247). -/
def adcLatency (mode : Nat) : Nat :=
  match mode with
  | 1 => 23125 * 2 ^ 32 / 100
  | 3 => 25625 * 2 ^ 32 / 100
  | _ => 20625 * 2 ^ 32 / 100

/-! ## Conversions of a SCAN slice (R244, R250) -/

/-- The next continuous conversion of a slice. -/
def State.adcNextCont (s : State) (g k : Nat) : Option AdcConv :=
  if s.flag (ADC_GSL.CONT g k) then
    some { kind := if s.flag (ADC_GSL.LIST2 g k) && (s.slice g k).next1 then 1 else 0, urgent := false }
  else none

/-- A free slice takes its next conversion: urgent slot, restart, ordinary slot, continuous. -/
def State.adcTake (s : State) (g k : Nat) : State :=
  let v := s.slice g k
  if v.urgent then s.setSlice g k { v with urgent := false, run := some { kind := 2, urgent := true } }
  else match v.restart with
    | some c => s.setSlice g k { v with restart := none, run := some c }
    | none =>
      if v.ordinary then s.setSlice g k { v with ordinary := false, run := some { kind := 2, urgent := false } }
      else s.setSlice g k { v with run := s.adcNextCont g k, next1 := !v.next1 }

/-- The running conversion of a slice ends; its result is on its way. -/
def State.adcEnd (s : State) (g k : Nat) : State :=
  match (s.slice g k).run with
  | none => s
  | some c => (s.modSlice g k fun v => { v with run := none, flight := v.flight ++ [c] }).adcTake g k

/-- The trigger sources of TRIG (R249). -/
def trigDefined (t : Nat) : Bool := t = 0 || (1 ≤ t && t ≤ 4) || t = 8 || (0x40 ≤ t && t ≤ 0x7F)

/-- A trigger arrives at a slice. -/
def State.adcTrigger (s : State) (g k : Nat) : State :=
  let t := s.fld (ADC_GSL.TRIG g k)
  if s.adcMode g != 2 || t = 0 then s
  else if !trigDefined t then s.undef 259
  else if !s.adcOn g || (s.slice g k).counting then s.incFld (ADC_GCNT.TRIG_OVF g)
  else s.modSlice g k fun v => { v with counting := true }

/-- A source triggers the slices of a group that name it. -/
def State.adcFire (s : State) (g src : Nat) : State :=
  s.each ((List.range 8).filter fun k => s.fld (ADC_GSL.TRIG g k) = src) fun t k => t.adcTrigger g k

/-- A triggered conversion becomes due (R250). -/
def State.adcDue (s : State) (g k : Nat) : State :=
  let s := s.modSlice g k fun v => { v with counting := false }
  let v := s.slice g k
  let u := s.flag (ADC_GSL.URGENT g k)
  match v.run with
  | none => s.setSlice g k { v with run := some { kind := 2, urgent := u } }
  | some c =>
    if u then
      if c.urgent then
        if v.urgent then s.incFld (ADC_GCNT.TRIG_OVF g) else s.setSlice g k { v with urgent := true }
      else
        (s.setSlice g k { v with run := some { kind := 2, urgent := true }, restart := some c }).incFld (ADC_GABT.ABORT g)
    else if v.ordinary then s.incFld (ADC_GCNT.TRIG_OVF g)
    else s.setSlice g k { v with ordinary := true }

/-! ## Results (R246, R251, R254) -/

/-- Output close that a release now meets next. -/
def State.nextOutputClose (s : State) : Nat :=
  boundaryNs (if s.time.phase == .outputClosed then s.time.tick + 1 else s.time.tick) + 48000

/-- A triggered result of a slice with JOB releases a lane job. -/
def State.adcJob (s : State) (g k q at_ : Nat) : State :=
  let clk := (at_ / 2 ^ 32 - boundaryNs s.time.tick) / 25
  let arg := q + k * 2 ^ 16 + g * 2 ^ 19 + clk % 2048 * 2 ^ 21
  (s.releaseJob (simpleJob 1 false false s.nextOutputClose 0 (s.fld (ADC_GJOB.ENTRY g)) srcAdc arg)).1

/-- A result of input `kind` of slice `k` is complete. -/
def State.adcRecord (s : State) (g k kind y at_ : Nat) : State :=
  let n := 2 ^ min 10 (s.fld (ADC_GCFG.MEANK g))
  s.modSlice g k fun v =>
    { v with res := Sparse.set (fun _ => none) v.res kind (some { q := y / 2, y := y, at_ := at_, fresh := true }),
             window := Sparse.set (fun _ => []) v.window kind ((y :: Sparse.get (fun _ => []) v.window kind).take n) }

/-- A raw code clips (R246). -/
def adcClips (mode raw : Nat) : Bool := raw = 0 || raw = (if mode = 3 then 0x3FFF else 0xFFFF)

/-- The lanes that stream from group `g`. -/
def State.streams (s : State) (g : Nat) : Bool :=
  (List.range 8).any fun l => s.flag (LANE_CFG.STREAM_EN l) && s.fld (LANE_CFG.GROUP l) = g

/-- ADC_RESULT (R245 to R247, R254): raw code `raw` of slice `slice` has passed its correction. -/
def execAdcResult (group slice raw : Nat) (s : State) : Res :=
  if !s.adcOn group || 8 ≤ slice then .next s
  else
    let m := s.adcMode group
    let y := s.adcCorrect group slice raw
    let at_ := s.time.now - adcLatency m
    let clip (t : State) : State := if adcClips m raw then t.incFld (ADC_GCNT.CLIP group) else t
    if m = 2 then
      let s := if (s.slice group slice).flight.isEmpty then s.adcEnd group slice else s
      match (s.slice group slice).flight with
      | [] => .next s
      | c :: rest =>
        let s := s.modSlice group slice fun v => { v with flight := rest }
        let s := (clip s).adcRecord group slice c.kind y at_
        if c.kind = 2 && s.flag (ADC_GSL.JOB group slice) then (s.adcJob group slice (y / 2) at_).done else s.done
    else if m = 1 && s.flag (ADC_GCFG.SKEW_EN group) && 0x4000 < (sext 16 (s.fld (ADC_GSKEW.SKEW group slice))).natAbs then
      (s.undef 259).done
    else
      let s := (clip s).adcRecord group 0 0 y at_
      let s := s.modAdcG group fun x => { x with yPrev := some y }
      if s.streams group && (s.adcG group).stage.length < 8 then
        (s.modAdcG group fun x => { x with stage := x.stage ++ [y / 2] }).done
      else s.done

/-! ## Triggers -/

/-- TRIGGER_TIMER (R249): a trigger timer reaches PERIOD. -/
def execTriggerTimer (group timer : Nat) (s : State) : Res :=
  if 4 ≤ group || 4 ≤ timer || s.fld (ADC_GTMR.PERIOD group timer) = 0 || !s.runs Vale.converter then .next s
  else
    let s := s.modAdcG group fun x => { x with timers := Sparse.set (fun _ => 0) x.timers timer s.ns }
    (s.adcFire group (timer + 1)).done

/-- ADC_TRIGGER (R248 to R250). -/
def execAdcTrigger (group slice : Nat) (s : State) : Res :=
  if 4 ≤ group || 8 ≤ slice || !s.runs Vale.converter then .next s else (s.adcTrigger group slice).done

/-- CONVERSION_DUE (R250). -/
def execConversionDue (group slice : Nat) (ended : Bool) (s : State) : Res :=
  if !s.adcOn group || s.adcMode group != 2 || 8 ≤ slice || !(s.slice group slice).counting then .next s
  else if ended then
    match (s.slice group slice).run with
    | none => .next (s.adcDue group slice)
    | some c =>
      let s := s.modSlice group slice fun v => { v with run := none, flight := v.flight ++ [c] }
      let v := s.slice group slice
      if v.urgent || v.restart.isSome || v.ordinary then .next ((s.adcTake group slice).adcDue group slice)
      else .next (s.adcDue group slice)
  else .next (s.adcDue group slice)

/-! ## Calibration (R248) -/

/-- Requesting a calibration of group `g`. -/
def State.adcCalReq (s : State) (g : Nat) : State :=
  if s.adcMode g = 0 then s else s.modAdcG g fun x => { x with calReq := true }

/-- ADC_CALIBRATE: the START bits of ADC_CAL. -/
def execAdcCalibrate (groups : Nat) (s : State) : Res :=
  s.regCommand fun s => s.each ((List.range 4).filter fun g => bitOf groups g) State.adcCalReq

/-- CALIBRATION_START: conversions that have not ended are given up; windows empty. -/
def execCalibrationStart (group : Nat) (s : State) : Res :=
  if group < 4 && s.runs Vale.converter && (s.adcG group).calReq then
    let s := s.modAdcG group fun x =>
      { x with calReq := false, yPrev := none,
               slices := x.slices.map fun p =>
                 (p.1, { AdcSlice.zero with res := p.2.res, flight := [] }) }
    .next (s.setBit ADC_STAT.BUSY group)
  else .next s

/-- The coefficients of a slice from the sums of its codes at REF_LO and REF_HI; none where it fails. -/
def adcCoef (lo hi : Nat) : Option (Int × Nat) :=
  if hi ≤ lo then none
  else
    let gain := divRoundAway (57344 * 32768 * 256 : Nat) (hi - lo)
    let off := divRoundAway (57344 * (lo : Int) - 4096 * ((hi - lo : Nat) : Int)) (57344 * 256)
    if -2048 ≤ off && off ≤ 2048 && 0x7333 ≤ gain && gain ≤ 0x8CCD then some (off, gain.toNat) else none

/-- CALIBRATION_END: passing coefficients are written; continuous conversions run again. -/
def execCalibrationEnd (group : Nat) (lo hi : List Nat) (s : State) : Res :=
  if group < 4 && s.runs Vale.converter && s.bit ADC_STAT.BUSY group then
    let ks := List.range (if s.adcMode group = 3 then 1 else 8)
    let coef (k : Nat) : Option (Int × Nat) := adcCoef (lo.getD k 0) (hi.getD k 0)
    let s := s.each ks fun t k =>
      match coef k with
      | some p => (t.setFld (ADC_GCOR.OFF group k) (trunc 16 p.1)).setFld (ADC_GCOR.GAIN group k) p.2
      | none => t
    let s := if ks.any fun k => (coef k).isNone then (s.setBit ADC_STAT.FAIL group).post 0x01 1 true [group] else s
    let s := (s.clrBit ADC_STAT.BUSY group).modAdcG group fun x => { x with started := true }
    if s.adcMode group = 2 then .next (s.each (List.range 8) fun t k => t.adcTake group k) else .next s
  else .next s

/-! ## Supply and counts -/

/-- ADC_SUPPLY_FAULT (R252, R491). -/
def execAdcSupplyFault (s : State) : Res := .next (s.setFld ADC_STAT.SUPPLY 1)

/-- ADC_SUPPLY_GOOD. -/
def execAdcSupplyGood (s : State) : Res := .next (s.setFld ADC_STAT.SUPPLY 0)

/-- ADC_CLR_COUNTS. -/
def execAdcClrCounts (s : State) : Res := .next (s.clrRegs ((List.range 4).map ADC_GCNT ++ (List.range 4).map ADC_GABT))

/-! ## The strobe (R24, R249, R251, R252) -/

/-- A SRC_REF names a result that the group's mode and settings produce (R259). -/
def State.adcRefOk (s : State) (r : Nat) : Bool :=
  let g := bitsOf r 0 2
  let k := bitsOf r 2 3
  let kind := bitsOf r 5 2
  match s.adcMode g with
  | 0 => kind != 3
  | 2 =>
    (kind = 0 && s.flag (ADC_GSL.CONT g k)) || (kind = 1 && s.flag (ADC_GSL.CONT g k) && s.flag (ADC_GSL.LIST2 g k)) ||
      (kind = 2 && s.fld (ADC_GSL.TRIG g k) != 0)
  | _ => k = 0 && kind = 0

/-- The newest result that SRC_REF `r` names. -/
def State.adcRes (s : State) (r : Nat) : Option AdcResult :=
  Sparse.get (fun _ => none) (s.slice (bitsOf r 0 2) (bitsOf r 2 3)).res (bitsOf r 5 2)

/-- The word that entry `i` latches (R251). -/
def State.adcValue (s : State) (i : Nat) : Option Nat :=
  let r := s.sigSrcRef i
  let g := bitsOf r 0 2
  if s.flag (ADC_GCFG.MEAN g) then
    match Sparse.get (fun _ => []) (s.slice g (bitsOf r 2 3)).window (bitsOf r 5 2) with
    | [] => none
    | w => some (w.sum / w.length / 2)
  else (s.adcRes r).map fun x => x.q

/-- STATE of a consistency group of converter results (R252). -/
def State.adcGroupState (s : State) (es : List Nat) : Nat :=
  match es with
  | [] => 3
  | e :: _ =>
    if s.flag ADC_STAT.SUPPLY then 2
    else if s.adcMode (bitsOf (s.sigSrcRef e) 0 2) = 0 then 3
    else if es.any fun i => match s.adcRes (s.sigSrcRef i) with | some x => x.fresh | none => false then 0
    else 1

/-- SAMPLED of a group: the newest sampling instant of its results. -/
def State.adcSampled (s : State) (es : List Nat) : Option Nat :=
  match ((es.filterMap fun i => (s.adcRes (s.sigSrcRef i)).map fun x => x.at_)).max? with
  | some a => some (shortOf (a / 2 ^ 32))
  | none => none

/-- The converter groups at strobe arrival: entries latch, group pairs are written, timers with SYNC restart, and the strobe
triggers the slices that name it. -/
def State.adcStrobe (s : State) : State :=
  if !s.runs Vale.converter || !s.committed then s
  else
    let es := s.sigsOf 0x01
    if es.any fun i => !s.adcRefOk (s.sigSrcRef i) then s.undef 259
    else
      let s1 := if s.flag ADC_STAT.SUPPLY then s
        else s.each es fun t i => match s.adcValue i with | some w => t.latchSig i w | none => t
      let s2 := s1.each (s.groupsOf 0x01) fun t p => t.latchGrp p.1 (s.adcGroupState p.2) (s.adcSampled p.2)
      let old (r : Option AdcResult) : Option AdcResult := r.map fun x => { x with fresh := false }
      s2.each (List.range 4) fun t g =>
        let t := t.each (List.range 8) fun u k =>
          u.modSlice g k fun v => { v with res := v.res.map fun p => (p.1, old p.2) }
        let t := t.each (List.range 4) fun u k =>
          if u.flag (ADC_GTMR.SYNC g k) then
            u.modAdcG g fun x => { x with timers := Sparse.set (fun _ => 0) x.timers k u.ns }
          else u
        if t.adcMode g = 2 then t.adcFire g 8 else t

/-! ## Analog outputs (R255 to R257) -/

/-- The code of a plane word. -/
def dacCode (w : Nat) : Nat := if sext 16 w < 0 then 0 else 2 * (w % 0x8000)

/-- DAC_CODE and DAC_MODE follow what the channels drive: bound channels their word, unbound ones 0; code 0 in the hardware
reset state. -/
def State.dacDrive (s : State) : State :=
  s.each (List.range 32) fun t n =>
    let b := t.boundAt (0x0A000000 + n)
    let on := t.bit DAC_EN.EN n && t.adc.dacLive
    let w := match b with | some i => t.driven i | none => none
    let c := if on then (match w with | some w => dacCode w.toNat | none => 0) else 0
    let h := match b with | some i => t.bit DAC_EN.EN n && t.isHeld i | none => false
    let t := t.setFld (DAC_CODE.CODE n) c
    if h then t.setBit DAC_MODE.HELD n else t.clrBit DAC_MODE.HELD n

/-- The channels at strobe arrival: from the first strobe after commit on they drive. -/
def State.dacStrobe (s : State) : State :=
  if !s.runs Vale.converter || !s.committed then s
  else
    let s1 := { s with adc := { s.adc with dacLive := true } }
    if (s1.boundTo 0x0A).any fun i => s1.sigType i != 1 then s1.undef 259 else s1.dacDrive

/-- The converters at image commit: every group whose MODE is not OFF calibrates (R248). -/
def State.adcCommit (s : State) : State :=
  ({ s with adc := { groups := [], dacLive := false } }).each (List.range 4) State.adcCalReq

end Sys2Proof.Machine
end

