-- ==== Sys2Proof/Machine/Crypto.lean ====
section
/-!
DEFINITION. Machine/Crypto.lean: the standard functions that images, sessions and debug name: SHA-384 (FIPS 180-4), ECDSA
over P-384 (FIPS 186-5), AES-256-GCM (NIST SP 800-38D) (R435, R447, R458, R462).
-/

namespace Sys2Proof.Machine

/-! ## SHA-384 -/

/-- The 64-bit constants of the schedule. -/
def shaK : List (BitVec 64) := [
 0x428A2F98D728AE22, 0x7137449123EF65CD, 0xB5C0FBCFEC4D3B2F, 0xE9B5DBA58189DBBC,
 0x3956C25BF348B538, 0x59F111F1B605D019, 0x923F82A4AF194F9B, 0xAB1C5ED5DA6D8118,
 0xD807AA98A3030242, 0x12835B0145706FBE, 0x243185BE4EE4B28C, 0x550C7DC3D5FFB4E2,
 0x72BE5D74F27B896F, 0x80DEB1FE3B1696B1, 0x9BDC06A725C71235, 0xC19BF174CF692694,
 0xE49B69C19EF14AD2, 0xEFBE4786384F25E3, 0x0FC19DC68B8CD5B5, 0x240CA1CC77AC9C65,
 0x2DE92C6F592B0275, 0x4A7484AA6EA6E483, 0x5CB0A9DCBD41FBD4, 0x76F988DA831153B5,
 0x983E5152EE66DFAB, 0xA831C66D2DB43210, 0xB00327C898FB213F, 0xBF597FC7BEEF0EE4,
 0xC6E00BF33DA88FC2, 0xD5A79147930AA725, 0x06CA6351E003826F, 0x142929670A0E6E70,
 0x27B70A8546D22FFC, 0x2E1B21385C26C926, 0x4D2C6DFC5AC42AED, 0x53380D139D95B3DF,
 0x650A73548BAF63DE, 0x766A0ABB3C77B2A8, 0x81C2C92E47EDAEE6, 0x92722C851482353B,
 0xA2BFE8A14CF10364, 0xA81A664BBC423001, 0xC24B8B70D0F89791, 0xC76C51A30654BE30,
 0xD192E819D6EF5218, 0xD69906245565A910, 0xF40E35855771202A, 0x106AA07032BBD1B8,
 0x19A4C116B8D2D0C8, 0x1E376C085141AB53, 0x2748774CDF8EEB99, 0x34B0BCB5E19B48A8,
 0x391C0CB3C5C95A63, 0x4ED8AA4AE3418ACB, 0x5B9CCA4F7763E373, 0x682E6FF3D6B2B8A3,
 0x748F82EE5DEFB2FC, 0x78A5636F43172F60, 0x84C87814A1F0AB72, 0x8CC702081A6439EC,
 0x90BEFFFA23631E28, 0xA4506CEBDE82BDE9, 0xBEF9A3F7B2C67915, 0xC67178F2E372532B,
 0xCA273ECEEA26619C, 0xD186B8C721C0C207, 0xEADA7DD6CDE0EB1E, 0xF57D4F7FEE6ED178,
 0x06F067AA72176FBA, 0x0A637DC5A2C898A6, 0x113F9804BEF90DAE, 0x1B710B35131C471B,
 0x28DB77F523047D84, 0x32CAAB7B40C72493, 0x3C9EBE0A15C9BEBC, 0x431D67C49C100D4C,
 0x4CC5D4BECB3E42B6, 0x597F299CFC657E2A, 0x5FCB6FAB3AD6FAEC, 0x6C44198C4A475817]

/-- The initial hash value of SHA-384. -/
def shaInit : List (BitVec 64) :=
  [0xCBBB9D5DC1059ED8, 0x629A292A367CD507, 0x9159015A3070DD17, 0x152FECD8F70E5939,
   0x67332667FFC00B31, 0x8EB44A8768581511, 0xDB0C2E0D64F98FA7, 0x47B5481DBEFA4FA4]

/-- The number that bytes spell, most significant first. -/
def beNat (l : List Byte) : Nat := l.foldl (fun a b => 256 * a + b.toNat) 0

/-- The `n` bytes of a number, most significant first. -/
def beBytes (n v : Nat) : List Byte := (natBytes n v).reverse

/-- The padded message: a 1 bit, zeros to 112 modulo 128 bytes, and the length in bits. -/
def shaPad (m : List Byte) : List Byte :=
  m ++ (0x80 : Byte) :: List.replicate ((111 + 128 - m.length % 128) % 128) 0 ++ beBytes 16 (8 * m.length)

/-- Extending the schedule, held newest first. -/
def shaSchedule : Nat → List (BitVec 64) → List (BitVec 64)
  | 0, w => w
  | n + 1, w =>
    let x (k : Nat) : BitVec 64 := w.getD k 0
    let s0 := (x 14).rotateRight 1 ^^^ (x 14).rotateRight 8 ^^^ (x 14) >>> 7
    let s1 := (x 1).rotateRight 19 ^^^ (x 1).rotateRight 61 ^^^ (x 1) >>> 6
    shaSchedule n ((x 15 + s0 + x 6 + s1) :: w)

/-- One round. -/
def shaRound (v : List (BitVec 64)) (kw : BitVec 64 × BitVec 64) : List (BitVec 64) :=
  match v with
  | [a, b, c, d, e, f, g, h] =>
    let t1 := h + (e.rotateRight 14 ^^^ e.rotateRight 18 ^^^ e.rotateRight 41) + ((e &&& f) ^^^ (~~~e &&& g)) + kw.1 + kw.2
    let t2 := (a.rotateRight 28 ^^^ a.rotateRight 34 ^^^ a.rotateRight 39) + ((a &&& b) ^^^ (a &&& c) ^^^ (b &&& c))
    [t1 + t2, a, b, c, d + t1, e, f, g]
  | _ => v

/-- One block. -/
def shaBlock (h : List (BitVec 64)) (blk : List Byte) : List (BitVec 64) :=
  let w := (List.range 16).map fun k => BitVec.ofNat 64 (beNat ((blk.drop (8 * k)).take 8))
  let sched := (shaSchedule 64 w.reverse).reverse
  (h.zip ((shaK.zip sched).foldl shaRound h)).map fun p => p.1 + p.2

/-- The blocks of a padded message. -/
def shaBlocks : Nat → List (BitVec 64) → List Byte → List (BitVec 64)
  | 0, h, _ => h
  | n + 1, h, m => shaBlocks n (shaBlock h (m.take 128)) (m.drop 128)

/-- SHA-384 of a message: 48 bytes. -/
def sha384 (m : List Byte) : List Byte :=
  let p := shaPad m
  ((shaBlocks (p.length / 128) shaInit p).take 6).flatMap fun x => beBytes 8 x.toNat

/-! ## P-384 -/

/-- The prime of the field, the coefficient b, the order of the group, the generator. -/
def p384P : Nat := 2 ^ 384 - 2 ^ 128 - 2 ^ 96 + 2 ^ 32 - 1
def p384B : Nat := 0xB3312FA7E23EE7E4988E056BE3F82D19181D9C6EFE8141120314088F5013875AC656398D8A2ED19D2A85C8EDD3EC2AEF
def p384N : Nat := 0xFFFFFFFFFFFFFFFFFFFFFFFFFFFFFFFFFFFFFFFFFFFFFFFFC7634D81F4372DDF581A0DB248B0A77AECEC196ACCC52973
def p384G : Nat × Nat :=
  (0xAA87CA22BE8B05378EB1C71EF320AD746E1D3B628BA79B9859F741E082542A385502F25DBF55296C3A545E3872760AB7,
   0x3617DE4A96262C6F5D9E98BF9292DC29F8F41DBD289A147CE9DA3113B5F0B8C00A60B1CE1D7E819D7A431D7C90EA0E5F)

/-- `a` to the power of a number of `n` bits, modulo `m`. -/
def powMod (m : Nat) : Nat → Nat → Nat → Nat
  | 0, _, _ => 1 % m
  | n + 1, a, e =>
    let r := powMod m n (a * a % m) (e / 2)
    if e % 2 = 1 then a * r % m else r

/-- The inverse modulo a prime of 384 bits. -/
def invMod (m a : Nat) : Nat := powMod m 384 (a % m) (m - 2)

/-- A point; none is the point at infinity. -/
abbrev Point := Option (Nat × Nat)

/-- The sum of two points. -/
def pointAdd (a b : Point) : Point :=
  match a, b with
  | none, q => q
  | q, none => q
  | some (x1, y1), some (x2, y2) =>
    let p := p384P
    if x1 = x2 && (y1 + y2) % p = 0 then none
    else
      let l := if x1 = x2 then (3 * (x1 * x1) + (p - 3)) % p * invMod p (2 * y1) % p
        else (y2 + p - y1) % p * invMod p (x2 + p - x1) % p
      let x := (l * l + 2 * p - x1 - x2) % p
      some (x, (l * (x1 + p - x) + p - y1) % p)

/-- A multiple, by a number of `n` bits. -/
def pointMul : Nat → Nat → Point → Point
  | 0, _, _ => none
  | n + 1, k, q =>
    if k = 0 then none
    else if k = 1 then q
    else
      let r := pointMul n (k / 2) (pointAdd q q)
      if k % 2 = 1 then pointAdd q r else r

/-- A public key of 96 bytes, x then y, as a point. -/
def keyPoint (key : List Byte) : Nat × Nat := (beNat (key.take 48), beNat ((key.drop 48).take 48))

/-- The key is a point on the curve (R458). -/
def onCurve (key : List Byte) : Bool :=
  let q := keyPoint key
  let p := p384P
  q.1 < p && q.2 < p && q.2 * q.2 % p = (q.1 * q.1 % p * q.1 + (p - 3) * q.1 + p384B) % p

/-- ECDSA: the signature, r then s, over a digest verifies with the key. -/
def ecdsaVerify (key digest sig : List Byte) : Bool :=
  let n := p384N
  let r := beNat (sig.take 48)
  let s := beNat ((sig.drop 48).take 48)
  if r = 0 || n ≤ r || s = 0 || n ≤ s then false
  else
    let w := invMod n s
    let u1 := beNat digest % n * w % n
    let u2 := r * w % n
    match pointAdd (pointMul 384 u1 (some p384G)) (pointMul 384 u2 (some (keyPoint key))) with
    | none => false
    | some (x, _) => x % n = r

/-! ## AES-256-GCM -/

/-- Doubling in the field of AES. -/
def xtime (x : Nat) : Nat := if x < 128 then 2 * x else (2 * x % 256) ^^^ 0x1B

/-- The product in the field of AES; `n` counts the bits of the second factor. -/
def gmul8 : Nat → Nat → Nat → Nat
  | 0, _, _ => 0
  | n + 1, a, b => (if b % 2 = 1 then a else 0) ^^^ gmul8 n (xtime a) (b / 2)

/-- A power in the field of AES, by an exponent of `n` bits. -/
def gpow8 : Nat → Nat → Nat → Nat
  | 0, _, _ => 1
  | n + 1, a, e =>
    let r := gpow8 n (gmul8 8 a a) (e / 2)
    if e % 2 = 1 then gmul8 8 a r else r

/-- The S-box. -/
def sboxOf (x : Nat) : Nat :=
  let i := gpow8 8 x 254
  let rot (k : Nat) : Nat := (i * 2 ^ k) % 256 + i * 2 ^ k / 256
  i ^^^ rot 1 ^^^ rot 2 ^^^ rot 3 ^^^ rot 4 ^^^ 0x63

/-- The S-box as a table. -/
def sboxTable : List Nat := (List.range 256).map sboxOf

/-- The key schedule of AES-256: words of four bytes, newest first; `n` words still to make. -/
def aesExpand (sb : List Nat) : Nat → Nat → List (List Nat) → List (List Nat)
  | 0, _, w => w
  | n + 1, rcon, w =>
    let i := w.length
    let prev := w.headD []
    let sub (l : List Nat) : List Nat := l.map fun x => sb.getD x 0
    let t := if i % 8 = 0 then
        match sub (prev.drop 1 ++ prev.take 1) with
        | a :: r => (a ^^^ rcon) :: r
        | [] => []
      else if i % 8 = 4 then sub prev else prev
    let nw := (t.zip (w.getD 7 [])).map fun p => p.1 ^^^ p.2
    aesExpand sb n (if i % 8 = 0 then xtime rcon else rcon) (nw :: w)

/-- MixColumns of one column. -/
def mixColumn (c : List Nat) : List Nat :=
  (List.range 4).map fun k =>
    let x (j : Nat) : Nat := c.getD ((k + j) % 4) 0
    xtime (x 0) ^^^ (xtime (x 1) ^^^ x 1) ^^^ x 2 ^^^ x 3

/-- ShiftRows. -/
def shiftRows (s : List Nat) : List Nat := (List.range 16).map fun k => s.getD ((k + 4 * (k % 4)) % 16) 0

/-- The rounds after the first AddRoundKey; the last one has no MixColumns. -/
def aesRounds (sb : List Nat) : List (List Nat) → List Nat → List Nat
  | [], s => s
  | k :: ks, s =>
    let t := shiftRows (s.map fun x => sb.getD x 0)
    let u := if ks.isEmpty then t else (List.range 4).flatMap fun c => mixColumn ((t.drop (4 * c)).take 4)
    aesRounds sb ks ((u.zip k).map fun p => p.1 ^^^ p.2)

/-- The fifteen round keys. -/
def aesKeys (sb : List Nat) (key : List Byte) : List (List Nat) :=
  let k0 := (List.range 8).map fun k => ((key.drop (4 * k)).take 4).map fun b => b.toNat
  let w := (aesExpand sb 52 1 k0.reverse).reverse
  (List.range 15).map fun r => ((w.drop (4 * r)).take 4).flatMap id

/-- AES-256 of one block. -/
def aesBlock (sb : List Nat) (keys : List (List Nat)) (blk : List Nat) : List Nat :=
  match keys with
  | [] => blk
  | k0 :: ks => aesRounds sb ks ((blk.zip k0).map fun p => p.1 ^^^ p.2)

/-- The product in the field of GHASH, most significant bit first; `n` counts the bits of the first factor. -/
def ghashMul : Nat → Nat → Nat → Nat → Nat
  | 0, _, _, z => z
  | n + 1, x, v, z =>
    ghashMul n x (if v % 2 = 1 then (v / 2) ^^^ (0xE1 * 2 ^ 120) else v / 2) (if x / 2 ^ n % 2 = 1 then z ^^^ v else z)

/-- GHASH over the 16-byte blocks of a byte string; `n` bounds their number. -/
def ghash (h : Nat) : Nat → Nat → List Byte → Nat
  | 0, y, _ => y
  | n + 1, y, m => ghash h n (ghashMul 128 (y ^^^ beNat (m.take 16)) h 0) (m.drop 16)

/-- Zeros that fill the last block. -/
def padBlock (m : List Byte) : List Byte := m ++ List.replicate ((16 - m.length % 16) % 16) 0

/-- The key stream of counter mode, from counter `c`. -/
def ctrStream (sb : List Nat) (keys : List (List Nat)) (iv : List Byte) : Nat → Nat → List Nat
  | 0, _ => []
  | n + 1, c => aesBlock sb keys ((iv ++ beBytes 4 c).map fun b => b.toNat) ++ ctrStream sb keys iv n (c + 1)

/-- Opening AES-256-GCM with a 96-bit nonce: the plain bytes, or none where the tag does not match. -/
def gcmOpen (key iv aad ct tag : List Byte) : Option (List Byte) :=
  let sb := sboxTable
  let keys := aesKeys sb key
  let h := (aesBlock sb keys (List.replicate 16 0)).foldl (fun a b => 256 * a + b) 0
  let m := padBlock aad ++ padBlock ct ++ beBytes 8 (8 * aad.length) ++ beBytes 8 (8 * ct.length)
  let s := ghash h (m.length / 16) 0 m
  let e0 := (ctrStream sb keys iv 1 1).foldl (fun a b => 256 * a + b) 0
  if beBytes 16 (s ^^^ e0) = tag then
    some ((ct.zip (ctrStream sb keys iv ((ct.length + 15) / 16) 2)).map fun p => p.1 ^^^ BitVec.ofNat 8 p.2)
  else none

end Sys2Proof.Machine
end

