-- ==== Sys2Proof/Machine/Motion.lean ====
section
/-!
DEFINITION. Machine/Motion.lean: motion (chapter 11): profiles, limits, homing, interpolation, current drive, PWM channels and
sigma-delta inputs, and the general-purpose lines of R481.
-/

namespace Sys2Proof.Machine

/-! ## General-purpose lines (R481) -/

/-- The level sensed on line `n`, and a new level. -/
def State.line (s : State) (n : Nat) : Bool := s.bit (GPIO_IN.LEVEL (n / 32)) (n % 32)
def State.setLine (s : State) (n : Nat) (b : Bool) : State :=
  if b then s.setBit (GPIO_IN.LEVEL (n / 32)) (n % 32) else s.clrBit (GPIO_IN.LEVEL (n / 32)) (n % 32)

/-- New levels of lines. -/
def State.setLines (s : State) (ls : List (Nat × Bool)) : State :=
  s.each (ls.filter fun p => p.1 < 160) fun t p => t.setLine p.1 p.2

/-- The claimant of an output line commands its level; the input stage senses outputs too. -/
def State.driveLine (s : State) (n : Nat) (b : Bool) : State :=
  if n < 160 && s.bit (GPIO_DIR.OUT (n / 32)) (n % 32) then
    let t := if b then s.setBit (GPIO_OUT.LEVEL (n / 32)) (n % 32) else s.clrBit (GPIO_OUT.LEVEL (n / 32)) (n % 32)
    t.setLine n b
  else s

/-- The lines that directory entries drive: their word, or the hardware reset state; a standby's pins stay in the hardware
reset state while its output register follows (R331, R334). -/
def State.gpioDrive (s : State) : State :=
  s.each (s.boundTo 0x0E) fun t i =>
    let n := t.sigOutRef i % 2 ^ 24
    let b : Bool := match t.driven i with | some w => w.toNat % 2 = 1 | none => false
    if t.pinsOff && n < 160 then
      (if b then t.setBit (GPIO_OUT.LEVEL (n / 32)) (n % 32) else t.clrBit (GPIO_OUT.LEVEL (n / 32)) (n % 32)).setLine n false
    else t.driveLine n b

/-! ## The vendor sine table (R269) -/

/-- SIN[j] for j from 0. -/
def sinPart0 : List Nat :=
  [0, 201, 402, 603, 804, 1005, 1206, 1407, 1608, 1809, 2009, 2210, 2410, 2611, 2811, 3012,
   3212, 3412, 3612, 3811, 4011, 4210, 4410, 4609, 4808, 5007, 5205, 5404, 5602, 5800, 5998, 6195,
   6393, 6590, 6786, 6983, 7179, 7375, 7571, 7767, 7962, 8157, 8351, 8545, 8739, 8933, 9126, 9319,
   9512, 9704, 9896, 10087, 10278, 10469, 10659, 10849, 11039, 11228, 11417, 11605, 11793, 11980, 12167, 12353]

/-- SIN[j] for j from 64. -/
def sinPart1 : List Nat :=
  [12539, 12725, 12910, 13094, 13279, 13462, 13645, 13828, 14010, 14191, 14372, 14553, 14732, 14912, 15090, 15269,
   15446, 15623, 15800, 15976, 16151, 16325, 16499, 16673, 16846, 17018, 17189, 17360, 17530, 17700, 17869, 18037,
   18204, 18371, 18537, 18703, 18868, 19032, 19195, 19357, 19519, 19680, 19841, 20000, 20159, 20317, 20475, 20631,
   20787, 20942, 21096, 21250, 21403, 21554, 21705, 21856, 22005, 22154, 22301, 22448, 22594, 22739, 22884, 23027]

/-- SIN[j] for j from 128. -/
def sinPart2 : List Nat :=
  [23170, 23311, 23452, 23592, 23731, 23870, 24007, 24143, 24279, 24413, 24547, 24680, 24811, 24942, 25072, 25201,
   25329, 25456, 25582, 25708, 25832, 25955, 26077, 26198, 26319, 26438, 26556, 26674, 26790, 26905, 27019, 27133,
   27245, 27356, 27466, 27575, 27683, 27790, 27896, 28001, 28105, 28208, 28310, 28411, 28510, 28609, 28706, 28803,
   28898, 28992, 29085, 29177, 29268, 29358, 29447, 29534, 29621, 29706, 29791, 29874, 29956, 30037, 30117, 30195]

/-- SIN[j] for j from 192. -/
def sinPart3 : List Nat :=
  [30273, 30349, 30424, 30498, 30571, 30643, 30714, 30783, 30852, 30919, 30985, 31050, 31113, 31176, 31237, 31297,
   31356, 31414, 31470, 31526, 31580, 31633, 31685, 31736, 31785, 31833, 31880, 31926, 31971, 32014, 32057, 32098,
   32137, 32176, 32213, 32250, 32285, 32318, 32351, 32382, 32412, 32441, 32469, 32495, 32521, 32545, 32567, 32589,
   32609, 32628, 32646, 32663, 32678, 32692, 32705, 32717, 32728, 32737, 32745, 32752, 32757, 32761, 32765, 32766]

/-- SIN[j] for j from 256. -/
def sinPart4 : List Nat :=
  [32767]

/-- SIN[j] for 0 to 256. -/
def sinQuarter : List Nat := sinPart0 ++ sinPart1 ++ sinPart2 ++ sinPart3 ++ sinPart4

/-- SIN[j]: the quarter wave, mirrored. -/
def sinTab (j : Nat) : Int :=
  let k := j % 1024
  if k ≤ 256 then (sinQuarter.getD k 0 : Nat)
  else if k ≤ 512 then (sinQuarter.getD (512 - k) 0 : Nat)
  else if k ≤ 768 then -(sinQuarter.getD (k - 512) 0 : Nat)
  else -(sinQuarter.getD (1024 - k) 0 : Nat)

/-! ## Profiles (R264 to R266) -/

/-- Wrapping to 64 bits. -/
def wrap64 (x : Int) : Int := sext 64 (trunc 64 x)

/-- A profile at rest at `p` with a window of `k` positions. -/
def Prof.at_ (p : Int) (k : Nat) : Prof :=
  { p := p, u := 0, dir := 0, t := p, win := List.replicate (max 1 k) p, ramp := false }

/-- The output position Q. -/
def Prof.q (v : Prof) : Int := v.win.sum / (v.win.length : Int)

/-- AT_REST. -/
def Prof.rest (v : Prof) : Bool := v.u = 0 && v.win.all fun p => p == v.p

/-- The next profile position. -/
def Prof.push (v : Prof) (p : Int) : Prof := { v with p := p, win := (p :: v.win).take v.win.length }

/-- One interval of a profile with top speed `vm` and acceleration `a`. -/
def Prof.step (v : Prof) (vm a : Nat) : Prof :=
  if v.ramp then
    if v.u ≤ a then { v.push v.p with u := 0, t := v.p, ramp := false }
    else { v.push (wrap64 (v.p + v.dir * ((v.u - a : Nat) : Int))) with u := v.u - a }
  else
    let d := wrap64 (v.t - v.p)
    if d = 0 then { v.push v.p with u := 0 }
    else
      let dir : Int := if d < 0 then -1 else 1
      let m := d.natAbs
      let bd := v.u * (v.u + a) / (2 * a)
      let u := if (m : Int) - v.u ≤ bd then max (v.u - a) a else min (v.u + a) vm
      if m ≤ u then { v.push v.t with u := 0, dir := dir }
      else { v.push (wrap64 (v.p + dir * u)) with u := u, dir := dir }

/-- A hard stop: P, T and every position of the window become Q. -/
def Prof.hard (v : Prof) : Prof :=
  { v with p := v.q, t := v.q, u := 0, win := v.win.map fun _ => v.q, ramp := false }

/-- A ramped stop begins. -/
def Prof.rampStop (v : Prof) : Prof := if v.u = 0 then { v with t := v.p } else { v with ramp := true }

/-! ## Axes -/

/-- An axis at rest at 0. -/
def AxisSt.zero : AxisSt :=
  { prof := Prof.at_ 0 1, ins := [], refL := none, ofs := 0, cur := 0, regA := 0, regB := 0,
    duty := [0x4000, 0x4000, 0x4000, 0x4000], emf := 0, emfN := 0, full := 0, sc := 0, moving := false, grouped := false,
    dx := 0, dirNeg := false, tgt := 0, refused := none, tJrn := none, low := false }

def LimIn.zero : LimIn := { run := 0, cand := 0, armed := true, level := false, steady := 0 }

def MotGroup.zero : MotGroup := { prof := Prof.at_ 0 1, active := false, leader := 0, dist := 0, members := [] }

def State.axis (s : State) (a : Nat) : AxisSt := Sparse.get (fun _ => AxisSt.zero) s.mot.axes a
def State.setAxis (s : State) (a : Nat) (v : AxisSt) : State :=
  { s with mot := { s.mot with axes := Sparse.set (fun _ => AxisSt.zero) s.mot.axes a v } }
def State.modAxis (s : State) (a : Nat) (f : AxisSt → AxisSt) : State := s.setAxis a (f (s.axis a))
def State.motGroup (s : State) (g : Nat) : MotGroup := Sparse.get (fun _ => MotGroup.zero) s.mot.groups g
def State.setMotGroup (s : State) (g : Nat) (v : MotGroup) : State :=
  { s with mot := { s.mot with groups := Sparse.set (fun _ => MotGroup.zero) s.mot.groups g v } }

/-- Word `k` of axis `a`'s table entry, and bits of it (R262). -/
def State.axW (s : State) (a k : Nat) : Nat := (Sparse.get (fun _ => []) s.mot.table a).getD k 0
def State.axB (s : State) (a k lo w : Nat) : Nat := bitsOf (s.axW a k) lo w

def State.axEnable (s : State) (a : Nat) : Bool := a < 32 && s.axB a 0 0 1 = 1
def State.axGroup (s : State) (a : Nat) : Nat := s.axB a 0 1 3
def State.axLimRamp (s : State) (a : Nat) : Bool := s.axB a 0 4 1 = 1
def State.axHomeReq (s : State) (a : Nat) : Bool := s.axB a 0 5 1 = 1
def State.axPf (s : State) (a : Nat) : Bool := s.axB a 0 6 1 = 1
def State.axTgtEn (s : State) (a : Nat) : Bool := s.axB a 0 7 1 = 1
def State.axStallAct (s : State) (a : Nat) : Nat := s.axB a 0 8 2
def State.axK (s : State) (a : Nat) : Nat := 2 ^ s.axB a 0 10 4
def State.axMstep (s : State) (a : Nat) : Nat := s.axB a 0 14 4
def State.axTgtSig (s : State) (a : Nat) : Nat := s.axB a 0 18 14
def State.axVm (s : State) (a : Nat) : Nat := s.axW a 1 * 2 ^ 16
def State.axA (s : State) (a : Nat) : Nat := s.axW a 2
def State.axLine (s : State) (a i : Nat) : Nat := s.axB a 3 (8 * i) 8
def State.axDeb (s : State) (a : Nat) : Nat := 100 * s.axB a 3 28 4
def State.axHomeSrc (s : State) (a : Nat) : Nat := s.axB a 5 0 2
def State.axHomePos (s : State) (a : Nat) : Int := sext 32 (s.axW a 7)
def State.axIRun (s : State) (a : Nat) : Int := (s.axB a 8 0 16 : Nat)
def State.axIHold (s : State) (a : Nat) : Int := (s.axB a 8 16 16 : Nat)
def State.axIMax (s : State) (a : Nat) : Int := (s.axB a 9 0 16 : Nat)
def State.axIStep (s : State) (a : Nat) : Int := (s.axB a 9 16 16 : Nat)
def State.axVlim (s : State) (a : Nat) : Int := (s.axB a 13 16 16 : Nat)

/-- The enabled axes. -/
def State.axesOn (s : State) : List Nat := (List.range 32).filter s.axEnable

/-- The step position x. -/
def State.axX (s : State) (a : Nat) : Int := sext 32 (trunc 32 ((s.axis a).prof.q / 2 ^ 32))

/-- Axis `a` is AT_REST. -/
def State.axRest (s : State) (a : Nat) : Bool := !(s.axis a).grouped && (s.axis a).prof.rest

/-- Axis `a` is in FAULT. -/
def State.axFault (s : State) (a : Nat) : Bool := s.fld (MOT_AX_STAT.STATE a) = 4

/-- HSTATE (R272): 0 IDLE, 1 SEEK, 2 STOPPING, 3 DONE, 4 FAULT, 5 ABORTED. -/
def State.hstate (s : State) (a : Nat) : Nat := s.fld (MOT_AX_STAT.HSTATE a)
def State.setHstate (s : State) (a v : Nat) : State := s.setFld (MOT_AX_STAT.HSTATE a) v

/-- A case of R283 stands in axis `a`'s entry. -/
def State.axUndefined (s : State) (a : Nat) : Bool :=
  0x100000 < s.axW a 1 || 0x100000 < s.axW a 6 || s.axA a = 0 || 10 < s.axB a 0 10 4 || 10 < s.axB a 3 28 4 ||
    s.axStallAct a = 3 || s.axHomeSrc a = 3 ||
    (s.axTgtEn a && !s.sigIs (s.axTgtSig a) 5) || (s.axGroup a != 0 && !s.axTgtEn a) ||
    (if a < 16 then 8 < s.axMstep a || s.axB a 11 16 8 = 0 || 8 < s.axB a 14 16 4 || 8 < s.axB a 15 16 4 ||
        0x7FFF < s.axB a 13 16 16
      else s.axB a 4 16 6 = 0 || 60 < s.axB a 4 16 6)

/-! ## Stops, refusals and homing ends -/

/-- The group whose path axis `a` follows now. -/
def State.axPath (s : State) (a : Nat) : Option Nat := if (s.axis a).grouped then some (s.axGroup a) else none

/-- A hard or a ramped stop of axis `a`, or of the path it follows. -/
def State.axStop (s : State) (a : Nat) (hard : Bool) : State :=
  match s.axPath a with
  | some g =>
    let v := s.motGroup g
    s.setMotGroup g { v with prof := if hard then v.prof.hard else v.prof.rampStop }
  | none => s.modAxis a fun v => { v with prof := if hard then v.prof.hard else v.prof.rampStop }

/-- HOMING_FAULT. -/
def State.homingFault (s : State) (a : Nat) : State :=
  ((s.setHstate a 4).setFld (MOT_AX_STAT.HOMED a) 0).post 0x0C 3 true [a]

/-- Why a move by `d` is refused (R267), as RESULT of MOT_CMD_STAT. -/
def State.moveRefusal (s : State) (a : Nat) (d : Int) : Option Nat :=
  if !s.axRest a then some 1
  else if s.axHomeReq a && !s.flag (MOT_AX_STAT.HOMED a) then some 3
  else if (d < 0 && s.flag (MOT_AX_STAT.LNEG_HELD a)) || (0 < d && s.flag (MOT_AX_STAT.LPOS_HELD a)) then some 2
  else if s.axFault a then some 6
  else none

/-- A new target for an axis at rest; a move of 2^31 steps or more is undefined (R283). -/
def State.axTarget (s : State) (a : Nat) (t : Int) : State :=
  if (2 : Int) ^ 63 ≤ (t - (s.axis a).prof.p).natAbs then s.undef 283
  else s.modAxis a fun v => { v with prof := { v.prof with t := wrap64 t, ramp := false } }

/-! ## Limits (R271) -/

/-- The level of input `i` of axis `a` after POL: 0 LNEG, 1 LPOS, 2 HOME. -/
def State.axInput (s : State) (a i : Nat) : Bool :=
  let n := s.axLine a i
  n != 0xFF && s.line n != (s.axB a 3 (24 + i) 1 = 1)

/-- The HELD bit of a limit. -/
def heldFld (a i : Nat) : Fld := if i = 0 then MOT_AX_STAT.LNEG_HELD a else MOT_AX_STAT.LPOS_HELD a

/-- One sample of an input: the state, and whether a trip is accepted. -/
def State.axSample (s : State) (a i : Nat) : State × Bool :=
  let v := Sparse.get (fun _ => LimIn.zero) (s.axis a).ins i
  let act := s.axInput a i
  let steady := if act == v.level then v.steady + 1 else 1
  let held := i < 2 && s.flag (heldFld a i)
  let put (t : State) (w : LimIn) : State :=
    t.modAxis a fun x => { x with ins := Sparse.set (fun _ => LimIn.zero) x.ins i { w with level := act, steady := steady } }
  if held then
    (put (s.setFld (heldFld a i) (b2n act)) { v with run := 0 }, false)
  else if v.armed then
    let run := if act then v.run + 1 else 0
    let cand := if act && v.run = 0 then s.axX a else v.cand
    if act && max 1 (s.axDeb a) ≤ run then (put s { v with run := 0, cand := cand, armed := false }, true)
    else (put s { v with run := run, cand := cand }, false)
  else if s.axRest a && s.axDeb a ≤ steady then
    (put (if i < 2 then s.setFld (heldFld a i) (b2n act) else s) { v with run := 0, armed := true }, false)
  else (put s v, false)

/-- What accepted trips do. -/
def State.axTrip (s : State) (a : Nat) (lneg lpos home : Bool) : State :=
  let src := s.axHomeSrc a
  let cand (i : Nat) : Int := (Sparse.get (fun _ => LimIn.zero) (s.axis a).ins i).cand
  match s.hstate a with
  | 1 =>
    let seek := if src = 0 then home else if src = 1 then lneg else lpos
    let opp := if src = 0 then lneg || lpos else if src = 1 then lpos else lneg
    if opp then (s.axStop a true).homingFault a
    else if seek then
      let s := s.modAxis a fun v => { v with refL := some (cand (if src = 0 then 2 else src - 1)) }
      (s.axStop a (src != 0 && !s.axLimRamp a)).setHstate a 2
    else s
  | 2 => s
  | _ =>
    let one (t : State) : State := (t.axStop a (!t.axLimRamp a)).post 0x0C 1 true [a]
    let s := if lneg then one s else s
    if lpos then one s else s

/-- The samples of axis `a` at the start of an interval. -/
def State.axLimits (s : State) (a : Nat) : State :=
  let p0 := s.axSample a 0
  let p1 := p0.1.axSample a 1
  let p2 := p1.1.axSample a 2
  p2.1.axTrip a p0.2 p1.2 p2.2

/-! ## Load figure (R270) -/

/-- The current level, with its RAISED bit. -/
def State.setCurLevel (s : State) (a : Nat) (i : Int) : State :=
  (s.modAxis a fun v => { v with cur := i }).setFld (MOT_AX_STAT.RAISED a) (b2n (s.axIRun a < i))

/-- STALL_WARN. -/
def State.axStall (s : State) (a : Nat) : State :=
  let s := s.modAxis a fun v => { v with sc := 0 }
  let s := ((s.post 0x0C 2 true [a]).setFld (MOT_AX_STAT.STALL a) 1).setFld (MOT_AX_STAT.HOMED a) 0
  match s.axStallAct a with
  | 0 => s
  | k =>
    let s := if s.hstate a = 1 then s.setHstate a 5 else s
    s.axStop a (k = 2)

/-- The load figure of a full step that held `n` valleys. -/
def State.axLoad (s : State) (a : Nat) : State :=
  let v := s.axis a
  let emf := v.emf / (v.emfN : Int)
  let load := sat16 (((s.axB a 11 0 16 * v.prof.u / s.axVm a : Nat) : Int) - emf)
  let th : Int := (s.axB a 10 0 16 : Nat)
  let i :=
    if th ≤ load then min (v.cur + s.axIStep a) (s.axIMax a)
    else if load < th - 128 * (s.axB a 11 24 8 : Nat) then max (v.cur - s.axIStep a) (s.axIRun a)
    else v.cur
  let sc := if (s.axB a 10 16 16 : Nat) ≤ load && i = s.axIMax a then v.sc + 1 else 0
  let s := (s.setFld (MOT_AX_STAT.LOAD a) (trunc 16 load)).setCurLevel a i
  let s := s.modAxis a fun v => { v with sc := sc }
  if sc = s.axB a 11 16 8 then s.axStall a else s

/-- The load evaluation of a current-drive axis after an interval. -/
def State.axEvalLoad (s : State) (a : Nat) : State :=
  let v := s.axis a
  let f := s.axX a / 2 ^ s.axMstep a
  let slow := v.prof.u < s.axW a 12 * 2 ^ 16
  let s := if slow then
      let s := s.setFld (MOT_AX_STAT.LOAD a) 0
      if v.moving && 0 < v.prof.u then s.setCurLevel a (s.axIRun a) else s
    else s
  if f = v.full then s
  else
    let s := if !slow && 0 < v.emfN then s.axLoad a else s
    s.modAxis a fun v => { v with full := f, emf := 0, emfN := 0 }

/-! ## One interval (R263, R268, R272, R273) -/

/-- The first interval of a move. -/
def State.axBegin (s : State) (a : Nat) : State :=
  let s := (s.modAxis a fun v => { v with moving := true }).setFld (MOT_AX_STAT.STALL a) 0
  if a < 16 then (s.setCurLevel a (s.axIRun a)).setFld (MOT_AX_STAT.REDUCED a) 0 else s

/-- The rebase at the end of a homing (R272): no step results from it. -/
def State.axRebase (s : State) (a : Nat) (l : Int) : State :=
  let d := s.axHomePos a - l
  let f (x : Int) : Int := wrap64 (x + d * 2 ^ 32)
  let s := s.modAxis a fun v =>
    { v with prof := { v.prof with p := f v.prof.p, t := f v.prof.t, win := v.prof.win.map f }, ofs := v.ofs + d,
             refL := none }
  let s := s.modAxis a fun v => { v with full := s.axX a / 2 ^ s.axMstep a }
  (s.setHstate a 3).setFld (MOT_AX_STAT.HOMED a) 1

/-- STATE of MOT_AXn_STAT. -/
def State.axStateNow (s : State) (a : Nat) : Nat :=
  if s.axFault a then 4
  else if s.hstate a = 1 || s.hstate a = 2 then 3
  else if s.axRest a then 0
  else
    let ramp := match s.axPath a with | some g => (s.motGroup g).prof.ramp | none => (s.axis a).prof.ramp
    if ramp then 2 else 1

/-- What follows the position update of axis `a`, whose step position was `x0`. -/
def State.axAfter (s : State) (a : Nat) (x0 : Int) : State :=
  let dx := sext 32 (trunc 32 (s.axX a - x0))
  let s := s.modAxis a fun v => { v with dx := dx, dirNeg := if dx = 0 then v.dirNeg else dx < 0 }
  let s := if 16 ≤ a && dx != 0 then
      s.driveLine (s.axB a 4 8 8) ((!(s.axis a).dirNeg) != (s.axB a 4 23 1 = 1))
    else s
  let s := if a < 16 then s.axEvalLoad a else s
  let s := if s.axRest a then
      let s := s.modAxis a fun v => { v with moving := false }
      match s.hstate a, (s.axis a).refL with
      | 2, some l => s.axRebase a l
      | 1, _ => s.homingFault a
      | _, _ => s
    else s
  let s := s.setFld (MOT_AX_STAT.STATE a) (s.axStateNow a)
  (s.setFld (MOT_AX_POS.X a) (trunc 32 (s.axX a))).setFld (MOT_AX_TGT.T a) (trunc 32 ((s.axis a).prof.t / 2 ^ 32))

/-- The update of an axis that follows no path. -/
def State.axUpdate (s : State) (a : Nat) : State :=
  let v := s.axis a
  let x0 := s.axX a
  let s := if !v.moving && v.prof.u = 0 && v.prof.t != v.prof.p then s.axBegin a else s
  let vm := if s.hstate a = 1 then s.axW a 6 * 2 ^ 16 else s.axVm a
  (s.modAxis a fun v => { v with prof := v.prof.step vm (s.axA a) }).axAfter a x0

/-- The position of a member at path parameter `q`. -/
def pathX (x0 d : Int) (dist : Nat) (q : Int) : Int :=
  x0 + d.sign * (((d.natAbs : Int) * q + (dist * 2 ^ 31 : Nat)) / ((dist * 2 ^ 32 : Nat) : Int))

/-- The update of a path and of its members. -/
def State.pathUpdate (s : State) (g : Nat) : State :=
  let v := s.motGroup g
  if !v.active then s
  else
    let p := v.prof.step (s.axVm v.leader) (s.axA v.leader)
    let s := s.setMotGroup g { v with prof := p, active := !p.rest }
    s.each v.members fun t m =>
      let x0 := t.axX m.1
      let x := sext 32 (trunc 32 (pathX m.2.1 m.2.2 v.dist p.q))
      let u := m.2.2.natAbs * p.u / max 1 v.dist
      let t := t.modAxis m.1 fun a =>
        { a with prof := { p := x * 2 ^ 32, u := if p.rest then 0 else u, dir := m.2.2.sign,
                           t := if p.rest then x * 2 ^ 32 else a.prof.t,
                           win := a.prof.win.map fun _ => x * 2 ^ 32, ramp := false },
                 grouped := !p.rest }
      t.axAfter m.1 x0

/-- Moves may start: the journal is off or runs (R234, R275) and the unit is no standby; a halt leaves motion running (R471). -/
def State.movesOpen (s : State) : Bool :=
  s.committed && (s.fld JRN_STATE.STATE = 0 || s.fld JRN_STATE.STATE = 4) && !s.pairHolds

/-- A refused signal target: one event per change of the value (R267). -/
def State.refuseSignal (s : State) (a : Nat) : State :=
  if (s.axis a).refused = some (s.axis a).tgt then s
  else (s.modAxis a fun v => { v with refused := some v.tgt }).post 0x0C 5 false [a]

/-- Homing runs on axis `a`. -/
def State.homes (s : State) (a : Nat) : Bool := s.hstate a = 1 || s.hstate a = 2

/-- The signal target of an axis without a group, in interval 0. -/
def State.axSignal (s : State) (a : Nat) : State :=
  let t := sext 32 (s.axis a).tgt
  if !s.axTgtEn a || s.axGroup a != 0 || !s.axRest a || s.homes a || t = s.axX a then s
  else
    match s.moveRefusal a (t - s.axX a) with
    | some _ => s.refuseSignal a
    | none => (s.modAxis a fun v => { v with refused := none }).axTarget a (t * 2 ^ 32)

/-- A group move in interval 0 (R273). -/
def State.groupSignal (s : State) (g : Nat) : State :=
  let ms := s.axesOn.filter fun a => s.axGroup a = g
  let ds := ms.map fun a => (a, s.axX a, sext 32 (s.axis a).tgt - s.axX a)
  if ms.isEmpty || (s.motGroup g).active || !ms.all (fun a => s.axRest a && !s.homes a) || ds.all (fun m => m.2.2 = 0) then s
  else
    let bad := ds.filter fun m => m.2.2 != 0 && (s.moveRefusal m.1 m.2.2).isSome
    if !bad.isEmpty then s.each bad fun t m => t.refuseSignal m.1
    else if ds.any fun m => 2 ^ 31 ≤ m.2.2.natAbs then s.undef 283
    else
      let lead := ds.foldl (fun b m => if b.2 < m.2.2.natAbs then (m.1, m.2.2.natAbs) else b) ((0, 0) : Nat × Nat)
      let k := s.axK lead.1
      let v : MotGroup :=
        { prof := { Prof.at_ 0 k with t := (lead.2 : Int) * 2 ^ 32 }, active := true, leader := lead.1, dist := lead.2,
          members := ds }
      (s.setMotGroup g v).each ds fun t m =>
        let t := if m.2.2 = 0 then t else t.axBegin m.1
        t.modAxis m.1 fun a =>
          { a with grouped := true, refused := none, prof := { a.prof with t := (m.2.1 + m.2.2) * 2 ^ 32 } }

/-! ## Commands (R267, R272) -/

/-- RESULT and AXIS of MOT_CMD_STAT. -/
def State.motResult (s : State) (a r : Nat) : State :=
  (s.setFld MOT_CMD_STAT.RESULT r).setFld MOT_CMD_STAT.AXIS a

/-- A register command on axis `a`: BAD_OP where the axis does not exist, nothing in POWER_FAIL. -/
def State.motCommand (s : State) (a : Nat) (f : State → State × Nat) : Res :=
  if s.powerFail || !s.runs Vale.motion then .next s
  else if !s.axEnable a then .next (s.motResult a 7)
  else
    let p := f s
    (p.1.motResult a p.2).done

/-- A register move to `t`. -/
def State.regMove (s : State) (a : Nat) (t : Int) : State × Nat :=
  match s.moveRefusal a (t - (s.axis a).prof.p) with
  | some r => (s, r)
  | none => if s.axTgtEn a then (s, 5) else (s.axTarget a t, 0)

/-- MOVE_ABS. -/
def execMoveAbs (axis arg : Nat) (s : State) : Res :=
  s.motCommand axis fun t => t.regMove axis (sext 32 arg * 2 ^ 32)

/-- MOVE_REL: by ARG steps from P. -/
def execMoveRel (axis arg : Nat) (s : State) : Res :=
  s.motCommand axis fun t => t.regMove axis ((t.axis axis).prof.p + sext 32 arg * 2 ^ 32)

/-- A STOP command; in SEEK it ends the seek. -/
def State.motStop (s : State) (a : Nat) (hard : Bool) : State × Nat :=
  let s := if s.hstate a = 1 then s.setHstate a 5 else s
  (s.axStop a hard, 0)

/-- STOP_RAMPED. -/
def execStopRamped (axis : Nat) (s : State) : Res := s.motCommand axis fun t => t.motStop axis false

/-- STOP_HARD. -/
def execStopHard (axis : Nat) (s : State) : Res := s.motCommand axis fun t => t.motStop axis true

/-- The seek of HOME: its direction and target. -/
def State.motHome (s : State) (a : Nat) : State × Nat :=
  let src := s.axHomeSrc a
  let neg := if src = 0 then s.axB a 5 2 1 = 0 else src = 1
  let d : Int := (s.axB a 5 8 24 : Nat) * 2 ^ 32
  if !s.axRest a then (s, 1)
  else if s.axFault a then (s, 6)
  else if s.axInput a (if src = 0 then 2 else src - 1) then (s, 4)
  else
    let s := s.modAxis a fun v => { v with refL := none }
    ((s.setHstate a 1).axTarget a ((s.axis a).prof.p + (if neg then -d else d)), 0)

/-- HOME. -/
def execMotHome (axis : Nat) (s : State) : Res := s.motCommand axis fun t => t.motHome axis

/-- MOT_CLEAR_FAULT (R282): once the fault bits of the axis's inputs are clear. -/
def execMotClearFault (axis : Nat) (s : State) : Res :=
  s.motCommand axis fun t =>
    if axis < 16 && (t.bit SDM_STAT.FAULT (2 * axis) || t.bit SDM_STAT.FAULT (2 * axis + 1)) then (t, 6)
    else if !t.axFault axis then (t, 0)
    else
      let t := (t.setFld (MOT_AX_STAT.STATE axis) 0).setFld (MOT_AX_STAT.FCAUSE axis) 0
      (t.setCurLevel axis (t.axIHold axis), 0)

/-! ## PWM (R269, R270, R277 to R280) -/

/-- CMP of a duty word on channel `c`. -/
def State.pwmCmp (s : State) (c : Nat) (w : Int) : Nat :=
  if w < 0 then 0 else ((w.toNat * (s.fld (PWM_CH_CFG.PERIOD c) / 2) + 16384) / 2 ^ 15)

/-- A case of R283 stands in channel `c`'s configuration. -/
def State.pwmUndefined (s : State) (c : Nat) : Bool :=
  let p := s.fld (PWM_CH_CFG.PERIOD c)
  p % 2 = 1 || p = 0 || 10000 % p != 0 || s.fld (PWM_CH_CFG.MODE c) = 3 || s.fld (PWM_CH_CFG.INH_LVL c) = 3

/-- An inhibit input that is asserted forces channel `c`. -/
def State.pwmForced (s : State) (c : Nat) : Bool :=
  (List.range 8).any fun n => s.bit PWM_INH_STAT.ACTIVE n &&
    (if c < 32 then s.bit (PWM_INH_LO.MASK n) c else s.bit (PWM_INH_HI.MASK n) (c - 32))

/-- The electrical angle. -/
def State.axTheta (s : State) (a : Nat) : Nat :=
  trunc (s.axMstep a + 2) (s.axX a - (s.axis a).ofs) * 2 ^ (8 - s.axMstep a)

/-- The newest value of sigma-delta input `n`. -/
def State.sdmValue (s : State) (n : Nat) : Int := sext 16 (s.fld (SDM_CH_VAL.VALUE n))

/-- One regulation of a phase: the new regulator state and v. -/
def State.axRegulate (s : State) (a : Nat) (x ref meas : Int) : Int × Int :=
  let e := sat16 (ref - meas)
  let x1 := x + gainMul (s.axW a 15) e
  let kp := gainMul (s.axW a 14) e
  let u := kp + x1
  let lim := s.axVlim a * 2 ^ 15
  let uc := clampInt (-lim) lim u
  (if uc = u then x1 else uc - kp, uc / 2 ^ 15)

/-- A valley of a current-drive axis: the duties of the last valley take effect; the phases are regulated. -/
def State.axValley (s : State) (a : Nat) : State :=
  let s := s.each (List.range 4) fun t k =>
    t.setFld (PWM_CH_CMP.CMP (4 * a + k)) (t.pwmCmp (4 * a + k) ((t.axis a).duty.getD k 0 : Nat))
  if s.axFault a || (s.powerFail && s.axPf a) then s
  else
    let v := s.axis a
    let th := s.axTheta a
    let ia := v.cur * sinTab (th + 256) / 2 ^ 15
    let ib := v.cur * sinTab th / 2 ^ 15
    let ra := s.axRegulate a v.regA ia (s.sdmValue (2 * a))
    let rb := s.axRegulate a v.regB ib (s.sdmValue (2 * a + 1))
    let du (x : Int) : Nat := (0x4000 + x).toNat
    s.modAxis a fun v =>
      { v with regA := ra.1, regB := rb.1, low := false,
               duty := [du (ra.2 / 2), du (-(ra.2 / 2)), du (rb.2 / 2), du (-(rb.2 / 2))],
               emf := v.emf + v.prof.dir * ((rb.2 * sinTab (th + 256) - ra.2 * sinTab th) / 2 ^ 15), emfN := v.emfN + 1 }

/-- PWM_VALLEY: a valley of channel `channel`; a current-drive axis's four channels have their valleys together. -/
def execPwmValley (channel : Nat) (s : State) : Res :=
  if 64 ≤ channel || !s.runs Vale.motion || !s.committed then .next s
  else
    let cs := if s.fld (PWM_CH_CFG.MODE channel) = 2 then (List.range 4).map fun k => channel / 4 * 4 + k else [channel]
    if cs.any s.pwmUndefined then (s.undef 283).done
    else
      let s := s.each cs fun t c => if t.pwmForced c then t else t.setFld (PWM_CH_CMP.INHIBITED c) 0
      if s.fld (PWM_CH_CFG.MODE channel) = 2 && s.axEnable (channel / 4) then (s.axValley (channel / 4)).done else s.done

/-- PWM_CONVERTER_TRIGGER (R279): the selected event of the channel triggers the slices that name it. -/
def execPwmConverterTrigger (channel : Nat) (s : State) : Res :=
  let g := s.fld (PWM_CH_CFG.TRG channel)
  let half := s.fld (PWM_CH_CFG.PERIOD channel) / 2
  if 64 ≤ channel || !s.runs Vale.motion || s.fld (PWM_CH_CFG.MODE channel) = 0 || g = 0 ||
      (g = 3 && half ≤ s.fld (PWM_CH_CMP.CMP channel)) then .next s
  else (s.each (List.range 4) fun t k => t.adcFire k (0x40 + channel)).done

/-- PWM_INHIBIT (R188, R280): the request line of lane `input` has changed. -/
def execPwmInhibit (input : Nat) (s : State) : Res :=
  if 8 ≤ input || !s.runs Vale.motion then .next s
  else
    let s := if (s.lane input).inh then s.setBit PWM_INH_STAT.ACTIVE input else s.clrBit PWM_INH_STAT.ACTIVE input
    .next (s.each (List.range 64) fun t c => if t.pwmForced c then t.setFld (PWM_CH_CMP.INHIBITED c) 1 else t)

/-- What the standalone channels drive: their bound word, or both gates low. -/
def State.pwmDrive (s : State) : State :=
  s.each (List.range 64) fun t c =>
    if t.fld (PWM_CH_CFG.MODE c) != 1 then t
    else match t.boundAt (0x0B000000 + c) with
      | none => t
      | some i =>
        let t := t.setFld (PWM_CH_CMP.HELD c) (b2n (t.isHeld i))
        let on (t : State) (b : Bool) : State :=
          { t with mot := { t.mot with pwmOn := Sparse.set (fun _ => false) t.mot.pwmOn c b } }
        match t.driven i with
        | some w => on (t.setFld (PWM_CH_CMP.CMP c) (t.pwmCmp c (sext 16 w.toNat))) true
        | none => on (t.setFld (PWM_CH_CMP.CMP c) 0) false

/-- STANDSTILL_REDUCE (R270): one strobe's step of the current toward I_HOLD. -/
def execStandstillReduce (axis : Nat) (s : State) : Res :=
  if 16 ≤ axis || !s.axEnable axis || !s.runs Vale.motion || !s.axRest axis then .next s
  else
    let c := (s.axis axis).cur
    let h := s.axIHold axis
    let d := s.axIStep axis
    let n := if h < c then max (c - d) h else min (c + d) h
    .next ((s.setCurLevel axis n).setFld (MOT_AX_STAT.REDUCED axis) (b2n (n = h)))

/-! ## Sigma-delta inputs (R281, R282) -/

/-- log2 N of input `n`. -/
def State.sdmLog (s : State) (n : Nat) : Nat := 5 + s.fld (SDM_CH_CFG.OSR n)

/-- A case of R283 stands in input `n`'s configuration. -/
def State.sdmUndefined (s : State) (n : Nat) : Bool :=
  !s.flag (SDM_CH_CFG.CLK_EXT n) && (s.fld (SDM_CH_CFG.DIV n) < 8 || 20 < s.fld (SDM_CH_CFG.DIV n))

/-- SDM_OUTPUT (R281): the sinc3 filter of `input` produces `output`. -/
def execSdmOutput (input : Nat) (output : Int) (s : State) : Res :=
  if 32 ≤ input || !s.runs Vale.motion || !s.flag (SDM_CH_CFG.EN input) then .next s
  else if s.sdmUndefined input then (s.undef 283).done
  else
    let l := s.sdmLog input
    let s := s.setFld (SDM_CH_VAL.VALUE input) (trunc 16 (sat16 (output / 2 ^ (3 * l - 15))))
    let s := if output.natAbs < 2 ^ (3 * l) then s.setFld (SDM_CH_VAL.STUCK input) 0 else s
    let v : SdmIn := { fresh := true, at_ := s.short }
    .next { s with mot := { s.mot with sdm := Sparse.set (fun _ => { fresh := false, at_ := 0 }) s.mot.sdm input v } }

/-- A fault of an input: its bit and event; an axis input puts its axis in FAULT. -/
def State.sdmFault (s : State) (n code cause : Nat) : State :=
  let s := (s.setBit SDM_STAT.FAULT n).post 0x02 code true [n]
  let a := n / 2
  if s.axEnable a && a < 16 then
    let s := s.axStop a true
    let s := s.modAxis a fun v => { v with low := true, moving := false }
    ((s.setFld (MOT_AX_STAT.STATE a) 4).setFld (MOT_AX_STAT.FCAUSE a) cause).setFld (MOT_AX_STAT.HOMED a) 0
  else s

/-- OVER_CURRENT: the fast filter's output is compared with OC_TH. -/
def execOverCurrent (input : Nat) (output : Int) (s : State) : Res :=
  if 32 ≤ input || !s.runs Vale.motion || !s.flag (SDM_CH_CFG.EN input) then .next s
  else if s.fld (SDM_CH_CFG.OC_TH input) < (8 * output).natAbs then
    .next ((s.setFld (SDM_CH_VAL.OC input) 1).sdmFault input 1 1)
  else .next (s.setFld (SDM_CH_VAL.OC input) 0)

/-- DATA_STUCK. -/
def execDataStuck (input : Nat) (s : State) : Res :=
  if 32 ≤ input || !s.runs Vale.motion || !s.flag (SDM_CH_CFG.EN input) then .next s
  else .next ((s.setFld (SDM_CH_VAL.STUCK input) 1).sdmFault input 2 2)

/-! ## Signals (R24, R274, R281) -/

/-- The values of axis `a` now. -/
def State.axView (s : State) (a : Nat) : AxisView :=
  let v := s.axis a
  { x := trunc 32 (s.axX a), speed := trunc 32 (v.prof.dir * ((v.prof.u * 100000 / 2 ^ 32 : Nat) : Int)),
    stat := bitsOf (s.reg (MOT_AX_STAT a)).toNat 0 14, load := trunc 32 (sext 16 (s.fld (MOT_AX_STAT.LOAD a))),
    cur := trunc 32 v.cur }

/-- MOT_SIGNAL_WRITE (R274): the values as of the strobe go to the output plane. -/
def execMotSignalWrite (s : State) : Res :=
  if !s.runs Vale.motion || !s.committed then .next s
  else
    (s.each (s.sigsOf 0x0C) fun t i =>
      let r := t.sigSrcRef i
      match Sparse.get (fun _ => none) t.mot.snap (bitsOf r 0 5) with
      | none => t
      | some v =>
        match bitsOf r 5 3 with
        | 0 => t.putSig i v.x
        | 1 => t.putSig i v.speed
        | 2 => t.putSig i v.stat
        | 3 => t.putSig i v.load
        | 4 => t.putSig i v.cur
        | _ => t.undef 283).done

/-- STATE of the group of a sigma-delta entry. -/
def State.sdmGroupState (s : State) (n : Nat) : Nat :=
  if s.bit SDM_STAT.FAULT n then 2
  else if !s.flag (SDM_CH_CFG.EN n) then 3
  else if (Sparse.get (fun _ => ({ fresh := false, at_ := 0 } : SdmIn)) s.mot.sdm n).fresh then 0
  else 1

/-- The sigma-delta inputs at strobe arrival. -/
def State.sdmStrobe (s : State) : State :=
  let num (i : Nat) : Nat := s.sigSrcRef i % 32
  let s1 := s.each (s.sigsOf 0x02) fun t i =>
    if t.bit SDM_STAT.FAULT (num i) then t else t.latchSig i (trunc 32 (t.sdmValue (num i)))
  let s2 := s1.each (s1.groupsOf 0x02) fun t p =>
    match p.2 with
    | [] => t
    | i :: _ =>
      t.latchGrp p.1 (t.sdmGroupState (num i))
        (some (Sparse.get (fun _ => ({ fresh := false, at_ := 0 } : SdmIn)) t.mot.sdm (num i)).at_)
  { s2 with mot := { s2.mot with sdm := s2.mot.sdm.map fun p => (p.1, { p.2 with fresh := false }) } }

/-- The general-purpose inputs at strobe arrival (R481). -/
def State.gpioStrobe (s : State) : State :=
  let s1 := s.each (s.sigsOf 0x05) fun t i => t.latchSig i (b2n (t.line (t.sigSrcRef i % 256)))
  s1.each (s1.groupsOf 0x05) fun t p => t.latchGrp p.1 0 (some t.short)

/-- Motion at strobe arrival: targets are read, values kept for the signals, inputs latch. -/
def State.motStrobe (s : State) : State :=
  if !s.runs Vale.motion || !s.committed then s
  else
    let s1 := s.each s.axesOn fun t a =>
      let t := if t.axTgtEn a then t.modAxis a fun v => { v with tgt := t.cur (t.axTgtSig a) } else t
      { t with mot := { t.mot with snap := Sparse.set (fun _ => none) t.mot.snap a (some (t.axView a)) } }
    ((s1.sdmStrobe).gpioStrobe).pwmDrive.gpioDrive

/-! ## Commit, power fail, restore (R262, R275, R276) -/

/-- The copy of the axis table (R262). -/
def State.motTable (s : State) : State :=
  { s with mot := { s.mot with table := (List.range 32).map fun a =>
      (a, (List.range 16).map fun k => s.pw (s.base MOT_TBL_BASE.BASE + 64 * a + 4 * k)) } }

/-- The axes at image commit. -/
def State.motCommit (s : State) : State :=
  let s1 := { s with mot := { s.mot with axes := [], groups := [], snap := [], sdm := [], pwmOn := [] } }.motTable
  s1.each s1.axesOn fun t a => t.modAxis a fun v => { v with prof := Prof.at_ 0 (t.axK a) }

/-- POWER_FAIL: every axis makes a hard stop (R276). -/
def State.motPowerFail (s : State) : State :=
  s.each s.axesOn fun t a =>
    let t := t.axStop a true
    if 16 ≤ a then t
    else if t.axPf a then t.modAxis a fun v => { v with low := true }
    else t.setCurLevel a (t.axIHold a)

/-- The staging line of axis `a` (R275). -/
def State.axSnap (s : State) (a : Nat) : AxisSnap :=
  let v := s.axis a
  { p := v.prof.p, q := v.prof.q, u := v.prof.u, s := v.prof.dir, t := v.prof.t,
    stat := bitsOf (s.reg (MOT_AX_STAT a)).toNat 0 14, i := v.cur, ofs := v.ofs }

/-- The restore of an axis: at rest at x of the capture. -/
def State.axRestore (s : State) (a : Nat) (v : AxisSnap) : State :=
  let x := sext 32 (trunc 32 (v.q / 2 ^ 32))
  let s := s.modAxis a fun w =>
    { w with prof := Prof.at_ (x * 2 ^ 32) (s.axK a), ofs := v.ofs, cur := s.axIHold a, tJrn := some v.t,
             full := x / 2 ^ s.axMstep a }
  let s := (s.setFld (MOT_AX_POS.X a) (trunc 32 x)).setFld (MOT_AX_TGT.T a) (trunc 32 x)
  if bitsOf v.stat 0 3 = 0 then s.setFld (MOT_AX_STAT.HOMED a) (bitsOf v.stat 3 1)
  else (s.setFld (MOT_AX_STAT.HOMED a) 0).post 0x0C 4 true [a]

/-- The commit boundary of a resumption: an axis whose journalled T differs from x starts a move to T. -/
def State.motResume (s : State) : State :=
  s.each s.axesOn fun t a =>
    match (t.axis a).tJrn with
    | none => t
    | some j =>
      let t := t.modAxis a fun v => { v with tJrn := none }
      let g := sext 32 (trunc 32 (j / 2 ^ 32))
      if g = t.axX a then t
      else match t.moveRefusal a (g - t.axX a) with
        | some _ => t
        | none => t.axTarget a (g * 2 ^ 32)

end Sys2Proof.Machine
end

