-- ==== Sys2Proof/Machine/Position.lean ====
section
/-!
DEFINITION. Machine/Position.lean: quadrature and SSI channels and compare units (chapter 12), and PROFILE_INTERVAL, at whose
end the compare units of the axes are evaluated.
-/

namespace Sys2Proof.Machine

def EncSt.zero : EncSt := { ab := 0, ill := [0], wire := 0 }
def SsiSt.zero : SsiSt := { good := false, failed := false, at_ := 0 }
def CmpUnit.zero : CmpUnit := { l := 0, pulse := false }

def State.enc (s : State) (n : Nat) : EncSt := Sparse.get (fun _ => EncSt.zero) s.pos.enc n
def State.modEnc (s : State) (n : Nat) (f : EncSt → EncSt) : State :=
  { s with pos := { s.pos with enc := Sparse.mod (fun _ => EncSt.zero) s.pos.enc n f } }
def State.ssi (s : State) (n : Nat) : SsiSt := Sparse.get (fun _ => SsiSt.zero) s.pos.ssi n
def State.modSsi (s : State) (n : Nat) (f : SsiSt → SsiSt) : State :=
  { s with pos := { s.pos with ssi := Sparse.mod (fun _ => SsiSt.zero) s.pos.ssi n f } }
def State.cmpU (s : State) (u : Nat) : CmpUnit := Sparse.get (fun _ => CmpUnit.zero) s.pos.cmp u
def State.modCmpU (s : State) (u : Nat) (f : CmpUnit → CmpUnit) : State :=
  { s with pos := { s.pos with cmp := Sparse.mod (fun _ => CmpUnit.zero) s.pos.cmp u f } }

/-- A difference of two 32-bit positions as a signed 32-bit number. -/
def diff32 (a b : Int) : Int := sext 32 (trunc 32 (a - b))

/-! ## Compare units (R295 to R297) -/

/-- Encoder channel `n` is in use. -/
def State.encOn (s : State) (n : Nat) : Bool := n < 16 && s.runs Vale.motion && s.flag (POS_ENC_CFG.EN n)

/-- The position a unit watches. -/
def State.cmpPos (s : State) (u : Nat) : Int :=
  if s.flag (POS_CMP_CFG.SRC_KIND u) then s.axX (s.fld (POS_CMP_CFG.SRC u))
  else sext 32 (s.fld (POS_ENC_CNT.VALUE (s.fld (POS_CMP_CFG.SRC u) % 16)))

/-- The entry at IDX. -/
def State.cmpEntry (s : State) (u : Nat) : Int := sext 32 (s.fld (POS_CMP_POS.POS u (s.fld (POS_CMP_STAT.IDX u))))

/-- The active or inactive level on OUT. -/
def State.cmpOut (s : State) (u : Nat) (on : Bool) : State :=
  let n := s.fld (POS_CMP_CFG.OUT u)
  (if n = 0xFF then s else s.driveLine n (on != s.flag (POS_CMP_CFG.POL u))).modCmpU u fun v => { v with pulse := on }

/-- An entry becomes current: it may be behind (R297). -/
def State.cmpCurrent (s : State) (u : Nat) : State :=
  let d := diff32 (s.cmpEntry u) (s.cmpU u).l
  if (if s.flag (POS_CMP_CFG.DIR u) then -d ≤ 0 else d ≤ 0) then
    (s.setFld (POS_CMP_STAT.BEHIND u) 1).post 0x03 3 false [u]
  else s

/-- A fire at entry `c`, and the step to the next entry. -/
def State.cmpFire (s : State) (u : Nat) (c : Int) : State :=
  let s := ((s.cmpOut u true).incFld (POS_CMP_STAT.FIRES u)).setFld (POS_CMP_STAT.BEHIND u) 0
  let s := if s.flag (POS_CMP_CFG.EVT u) then s.post 0x03 4 false [u] else s
  let s := s.modCmpU u fun v => { v with l := c }
  let i := s.fld (POS_CMP_STAT.IDX u) + 1
  if i = s.fld (POS_CMP_CFG.LEN u) then
    if s.flag (POS_CMP_CFG.CYCLIC u) then (s.setFld (POS_CMP_STAT.IDX u) 0).cmpCurrent u
    else ((s.setFld (POS_CMP_STAT.IDX u) i).setFld (POS_CMP_STAT.ARMED u) 0).setFld (POS_CMP_STAT.DONE u) 1
  else (s.setFld (POS_CMP_STAT.IDX u) i).cmpCurrent u

/-- One evaluation: the state, and whether the unit fired. -/
def State.cmpEval (s : State) (u : Nat) : State × Bool :=
  if !s.flag (POS_CMP_STAT.ARMED u) then (s, false)
  else
    let n := s.cmpPos u
    let c := s.cmpEntry u
    let l := (s.cmpU u).l
    let crossed :=
      if s.flag (POS_CMP_CFG.DIR u) then 0 < diff32 l c && 0 ≤ diff32 c n else 0 < diff32 c l && 0 ≤ diff32 n c
    if crossed then (s.cmpFire u c, true) else (s.modCmpU u fun v => { v with l := n }, false)

/-- Evaluations in the cycles that follow one another, until the unit does not fire. -/
def State.cmpRun (s : State) (u : Nat) : Nat → State
  | 0 => s
  | k + 1 =>
    let p := s.cmpEval u
    if p.2 then State.cmpRun p.1 u k else p.1

/-- The evaluations of the units that watch encoder `n`. -/
def State.cmpEnc (s : State) (n : Nat) : State :=
  s.each (List.range 16) fun t u =>
    if !t.flag (POS_CMP_CFG.SRC_KIND u) && t.fld (POS_CMP_CFG.SRC u) = n then t.cmpRun u 65 else t

/-- The evaluation of a unit that watches an axis, at the end of a profile interval. -/
def State.cmpAxis (s : State) (u : Nat) : State := if s.flag (POS_CMP_CFG.SRC_KIND u) then (s.cmpEval u).1 else s

/-- COMPARE_PULSE_END (R296). -/
def execComparePulseEnd (unit : Nat) (s : State) : Res :=
  if unit < 16 && s.runs Vale.motion && (s.cmpU unit).pulse then .next (s.cmpOut unit false) else .next s

/-- COMPARE_ENTRY_WRITE (R297): a write of a list entry. -/
def State.cmpWrite (s : State) (unit entry value : Nat) : State :=
  let s := s.setFld (POS_CMP_POS.POS unit entry) value
  let s := if s.flag (POS_CMP_STAT.ARMED unit) && s.fld (POS_CMP_STAT.IDX unit) = entry then s.cmpCurrent unit else s
  if s.flag (POS_CMP_CFG.SRC_KIND unit) then s else s.cmpRun unit 65

/-- COMPARE_ENTRY_WRITE. -/
def execCompareEntryWrite (unit entry value : Nat) (s : State) : Res :=
  if 16 ≤ unit || 64 ≤ entry || !s.runs Vale.motion || s.powerFail then .next s else .next (s.cmpWrite unit entry value)

/-- A case of R298 stands in a unit's configuration. -/
def State.cmpUndefined (s : State) (u : Nat) : Bool :=
  let n := s.fld (POS_CMP_CFG.LEN u)
  let src := s.fld (POS_CMP_CFG.SRC u)
  n = 0 || 64 < n || n ≤ s.fld (POS_CMP_CFG.START u) ||
    (if s.flag (POS_CMP_CFG.SRC_KIND u) then !s.axEnable src else !(src < 16 && s.flag (POS_ENC_CFG.EN src)))

/-- A POS command: nothing in POWER_FAIL. -/
def State.posCommand (s : State) (n max_ : Nat) (f : State → State) : Res :=
  if n < max_ && s.runs Vale.motion && !s.powerFail then (f s).done else .next s

/-- CMP_ARM. -/
def execCmpArm (unit : Nat) (s : State) : Res :=
  s.posCommand unit 16 fun t =>
    if t.cmpUndefined unit then t.undef 298
    else
      let t := (t.setFld (POS_CMP_STAT.IDX unit) (t.fld (POS_CMP_CFG.START unit))).setFld (POS_CMP_STAT.ARMED unit) 1
      let t := ((t.setFld (POS_CMP_STAT.DONE unit) 0).setFld (POS_CMP_STAT.BEHIND unit) 0).setFld (POS_CMP_STAT.FIRES unit) 0
      (t.modCmpU unit fun v => { v with l := t.cmpPos unit }).cmpCurrent unit

/-- CMP_DISARM. -/
def execCmpDisarm (unit : Nat) (s : State) : Res :=
  s.posCommand unit 16 fun t => t.setFld (POS_CMP_STAT.ARMED unit) 0

/-! ## Quadrature channels (R285 to R291) -/

/-- The count of a transition from `a` to `b` with DIR_INV = 0; none where it is illegal. -/
def quadStep (a b : Nat) : Option Int :=
  if a = b then some 0
  else match a, b with
    | 0, 1 => some (-1)
    | 0, 2 => some 1
    | 1, 3 => some (-1)
    | 1, 0 => some 1
    | 3, 2 => some (-1)
    | 3, 1 => some 1
    | 2, 0 => some (-1)
    | 2, 3 => some 1
    | _, _ => none

/-- QUADRATURE_TRANSITION. -/
def execQuadratureTransition (channel ab : Nat) (s : State) : Res :=
  if !s.encOn channel then .next s
  else
    let v := s.enc channel
    let s := s.modEnc channel fun v => { v with ab := ab % 4 }
    match quadStep v.ab (ab % 4) with
    | none =>
      let s := s.incFld (POS_ENC_STAT.ILLEGAL channel)
      .next (s.modEnc channel fun v => { v with ill := (v.ill.headD 0 + 1) :: v.ill.tail })
    | some d =>
      let d := if s.flag (POS_ENC_CFG.DIR_INV channel) then -d else d
      let n := trunc 32 ((s.fld (POS_ENC_CNT.VALUE channel) : Int) + d)
      .next ((s.setFld (POS_ENC_CNT.VALUE channel) n).cmpEnc channel)

/-- Z_CAPTURE (R289): a rising edge of Z. -/
def execZCapture (channel : Nat) (s : State) : Res :=
  if !s.encOn channel || (s.flag (POS_ENC_CFG.ZGATE channel) && (s.enc channel).ab != 3) then .next s
  else
    let cap (t : State) : State :=
      (t.setFld (POS_ENC_ZCAP.VALUE channel) (t.fld (POS_ENC_CNT.VALUE channel))).setFld (POS_ENC_STAT.ZSEEN channel) 1
    match s.fld (POS_ENC_CFG.ZMODE channel) with
    | 0 => .next s
    | 1 => .next (cap s)
    | 2 =>
      if s.flag (POS_ENC_STAT.ZARMED channel) then .next (cap (s.setFld (POS_ENC_STAT.ZARMED channel) 0)) else .next s
    | _ => (s.undef 298).done

/-- Raising ENCODER_FAULT, and WIRE_FAULT with its lines (R288). -/
def State.encFault (s : State) (n : Nat) : State :=
  if s.bit POS_STAT.ENC n then s
  else ((s.setBit POS_STAT.ENC n).setFld (POS_ENC_STAT.ENC_FAULT n) 1).post 0x03 1 true [n]
def State.wireFault (s : State) (n : Nat) : State :=
  let s := s.setFld (POS_ENC_STAT.WLINE n) (s.fld (POS_ENC_STAT.WLINE n) ||| (s.enc n).wire)
  if s.bit POS_STAT.WIRE n then s
  else ((s.setBit POS_STAT.WIRE n).setFld (POS_ENC_STAT.WIRE_FAULT n) 1).post 0x03 2 true [n]

/-- WIRE_FAULT (R287): Z counts only when ZMODE is not 0b00. -/
def execWireFault (channel lines : Nat) (s : State) : Res :=
  if !s.encOn channel then .next s
  else
    let m := if s.fld (POS_ENC_CFG.ZMODE channel) = 0 then lines % 4 else lines % 8
    let s := s.modEnc channel fun v => { v with wire := m }
    if m = 0 then .next s else .next (s.wireFault channel)

/-- ARM_Z. -/
def execArmZ (channel : Nat) (s : State) : Res :=
  s.posCommand channel 16 fun t => t.setFld (POS_ENC_STAT.ZARMED channel) 1

/-- POS_CLEAR (R288, R291). -/
def execPosClear (channel : Nat) (s : State) : Res :=
  s.posCommand channel 16 fun t =>
    let t := (t.clrBit POS_STAT.ENC channel).clrBit POS_STAT.WIRE channel
    let t := (t.setFld (POS_ENC_STAT.ENC_FAULT channel) 0).setFld (POS_ENC_STAT.WIRE_FAULT channel) 0
    (t.setFld (POS_ENC_STAT.WLINE channel) 0).setFld (POS_ENC_STAT.LOST channel) 0

/-- LOAD_COUNT (R290). -/
def execLoadCount (channel arg : Nat) (s : State) : Res :=
  s.posCommand channel 16 fun t => (t.setFld (POS_ENC_CNT.VALUE channel) arg).cmpEnc channel

/-! ## SSI channels (R292, R293) -/

/-- A case of R298 stands in an SSI channel's configuration. -/
def State.ssiUndefined (s : State) (n : Nat) : Bool :=
  let l := s.fld (POS_SSI_CFG.LEN n)
  let b := s.fld (POS_SSI_CFG.POS_BITS n)
  let d := s.fld (POS_SSI_TIM.DIV n)
  l < s.fld (POS_SSI_CFG.POS_SHIFT n) + b || l ≤ s.fld (POS_SSI_CFG.ERR_BIT n) || l = 0 || 40 < l || b = 0 || 32 < b ||
    d < 50 || 1000 < d

/-- Gray code to binary, of `n` bits. -/
def grayDecode (g : Nat) : Nat → Nat
  | 0 => g
  | n + 1 => g ^^^ grayDecode (g / 2) n

/-- The number of ones of the low `n` bits is odd. -/
def oddOnes (x : Nat) : Nat → Bool
  | 0 => false
  | n + 1 => (x % 2 = 1) != oddOnes (x / 2) n

/-- The error of a frame, as LAST_ERR, 0 for none. -/
def State.ssiError (s : State) (n : Nat) (ready : Bool) (f : Nat) (parity : Bool) : Nat :=
  let l := s.fld (POS_SSI_CFG.LEN n)
  let par := s.flag (POS_SSI_CFG.PAR n)
  if !ready then 1
  else if par && oddOnes f l != parity then 2
  else if s.flag (POS_SSI_CFG.ERR_EN n) && bitOf f (s.fld (POS_SSI_CFG.ERR_BIT n)) = s.flag (POS_SSI_CFG.ERR_POL n) then 3
  else if (f = 0 && !(par && parity)) || (f = 2 ^ l - 1 && (!par || parity)) then 4
  else 0

/-- The position of a frame word. -/
def State.ssiPosition (s : State) (n f : Nat) : Nat :=
  let b := s.fld (POS_SSI_CFG.POS_BITS n)
  let p := bitsOf f (s.fld (POS_SSI_CFG.POS_SHIFT n)) b
  let p := if s.flag (POS_SSI_CFG.GRAY n) then grayDecode p b else p
  if s.flag (POS_SSI_CFG.SIGN n) then trunc 32 (sext b p) else p

/-- SSI_FRAME. -/
def execSsiFrame (channel : Nat) (ready : Bool) (bits : Nat) (parity : Bool) (s : State) : Res :=
  if 8 ≤ channel || !s.runs Vale.motion || !s.flag (POS_SSI_CFG.EN channel) then .next s
  else if s.ssiUndefined channel then (s.undef 298).done
  else
    let f := bits % 2 ^ s.fld (POS_SSI_CFG.LEN channel)
    match s.ssiError channel ready f parity with
    | 0 =>
      let s := (s.setFld (POS_SSI_POS.POS channel) (s.ssiPosition channel f)).setFld (POS_SSI_STAT.FAULT channel) 0
      .next (s.modSsi channel fun _ => { good := true, failed := false, at_ := s.short })
    | e =>
      let first := !s.flag (POS_SSI_STAT.FAULT channel)
      let s := ((s.incFld (POS_SSI_STAT.ERR channel)).setFld (POS_SSI_STAT.LAST_ERR channel) e).setFld
        (POS_SSI_STAT.FAULT channel) 1
      let s := s.modSsi channel fun v => { v with failed := true }
      .next (if first then s.post 0x04 1 true [channel] else s)

/-- CLEAR_SSI. -/
def execClearSsi (channel : Nat) (s : State) : Res :=
  s.posCommand channel 8 fun t => t.setFld (POS_SSI_STAT.ERR channel) 0

/-! ## The strobe (R24, R286, R290, R294) -/

/-- The word of an encoder item; reserved items are undefined (R298). -/
def State.encItem (s : State) (n item : Nat) : Option Nat :=
  match item with
  | 0 => some (s.fld (POS_ENC_CNT.VALUE n))
  | 1 => some (s.fld (POS_ENC_ZCAP.VALUE n))
  | 2 => some (s.reg (POS_ENC_STAT n)).toNat
  | _ => none

/-- STATE of an encoder channel's group. -/
def State.encGroupState (s : State) (n : Nat) : Nat :=
  if s.bit POS_STAT.ENC n || s.bit POS_STAT.WIRE n then 2 else if s.flag (POS_ENC_CFG.EN n) then 0 else 3

/-- STATE of an SSI channel's group. -/
def State.ssiGroupState (s : State) (n : Nat) : Nat :=
  let v := s.ssi n
  if !s.flag (POS_SSI_CFG.EN n) then 3 else if v.failed then 2 else if v.good then 0 else 1

/-- The encoder channels at strobe arrival: faults are judged, words latch, the next tick interval begins. -/
def State.encStrobe (s : State) : State :=
  let s1 := s.each (List.range 16) fun t n =>
    if !t.flag (POS_ENC_CFG.EN n) then t
    else
      let t := if t.fld (POS_ENC_CFG.ILL_MAX n) < (t.enc n).ill.sum then t.encFault n else t
      let t := if (t.enc n).wire != 0 then t.wireFault n else t
      t.modEnc n fun v => { v with ill := (0 :: v.ill).take 20 }
  let s2 := s1.each (s1.sigsOf 0x03) fun t i =>
    let n := bitsOf (t.sigSrcRef i) 0 4
    match t.encItem n (bitsOf (t.sigSrcRef i) 4 3) with
    | none => t.undef 298
    | some w => if t.encGroupState n = 0 then t.latchSig i w else t
  s2.each (s2.groupsOf 0x03) fun t p =>
    match p.2 with
    | [] => t
    | i :: _ => t.latchGrp p.1 (t.encGroupState (bitsOf (t.sigSrcRef i) 0 4)) (some t.short)

/-- The SSI channels at strobe arrival. -/
def State.ssiStrobe (s : State) : State :=
  let s1 := s.each (s.sigsOf 0x04) fun t i =>
    let n := bitsOf (t.sigSrcRef i) 0 3
    match bitsOf (t.sigSrcRef i) 3 3 with
    | 0 => t.latchSig i (t.fld (POS_SSI_POS.POS n))
    | 1 => t.latchSig i (t.reg (POS_SSI_STAT n)).toNat
    | _ => t.undef 298
  let s2 := s1.each (s1.groupsOf 0x04) fun t p =>
    match p.2 with
    | [] => t
    | i :: _ =>
      let n := bitsOf (t.sigSrcRef i) 0 3
      t.latchGrp p.1 (t.ssiGroupState n) (some (t.ssi n).at_)
  s2.each (List.range 8) fun t n => t.modSsi n fun v => { v with good := false, failed := false }

/-- Position feedback at strobe arrival. -/
def State.posStrobe (s : State) : State :=
  if !s.runs Vale.motion || !s.committed then s else s.encStrobe.ssiStrobe

/-- Position feedback at image commit (R291): counts start at 0. -/
def State.posCommit (s : State) : State :=
  let s1 := { s with pos := { enc := [], ssi := [], cmp := [] } }
  (s1.each (List.range 16) fun t n => t.setFld (POS_ENC_CNT.VALUE n) 0).clrRegs ((List.range 16).map POS_CMP_STAT)

/-! ## Profile intervals -/

/-- PROFILE_INTERVAL (R263): samples and stops of every axis, targets in interval 0, then the updates and
the compare units that watch an axis (R295). No axis moves before resumption is committed (R275). -/
def execProfileInterval (k : Nat) (lines : List (Nat × Bool)) (s : State) : Res :=
  let s := s.setLines lines
  if !s.runs Vale.motion || !s.committed then .next s
  else if s.axesOn.any s.axUndefined then (s.undef 283).done
  else
    let s := s.each s.axesOn State.axLimits
    let s := if k = 0 && s.movesOpen then (s.each s.axesOn State.axSignal).each (List.range 8).tail State.groupSignal else s
    let holds := 1 ≤ s.fld JRN_STATE.STATE && s.fld JRN_STATE.STATE ≤ 3
    let free := if holds then [] else s.axesOn.filter fun a => !(s.axis a).grouped
    let s := s.each (List.range 8).tail State.pathUpdate
    ((s.each free State.axUpdate).each (List.range 16) State.cmpAxis).done

end Sys2Proof.Machine
end

