-- ==== Sys2Proof/Machine/Journal.lean ====
section
/-!
DEFINITION. Machine/Journal.lean: the journal, the hold-up check and the restart (chapter 09). The commands that end in a
reset or follow one (JOURNAL_RECORD_DONE, PFAIL_ACCEPT, PFAIL_RELEASE) stand with the resets.
-/

namespace Sys2Proof.Machine

/-! ## CRC-32C and lines -/

/-- One bit of CRC-32C (Castagnoli), reflected. -/
def crcBit (c : Nat) : Nat := if c % 2 = 1 then c / 2 ^^^ 0x82F63B78 else c / 2

/-- One byte of a CRC. -/
def crcByte (c : Nat) (b : Byte) : Nat :=
  let x := c ^^^ b.toNat
  crcBit (crcBit (crcBit (crcBit (crcBit (crcBit (crcBit (crcBit x)))))))

/-- CRC-32C of a list of bytes. -/
def crc32c (bs : List Byte) : Nat := bs.foldl crcByte 0xFFFFFFFF ^^^ 0xFFFFFFFF

/-- The bytes of a list of words. -/
def wordsBytes (ws : List Nat) : List Byte := ws.flatMap fun w => natBytes 4 w

/-- Lines of the journal ring, and the offset of a line (R216). -/
def ringLines : Nat := 131072
def ringAt (line o : Nat) : Nat := 64 * (line % ringLines) + o

/-- A word of a ring line. -/
def State.ringW (s : State) (line o : Nat) : Nat := s.rw (ringAt line o)

/-- A ring line. -/
def State.ringLine (s : State) (line : Nat) : List Byte := Memory.bytes s.retained (ringAt line 0) 64

/-- Offsets in the retained store of header copy `k` and of the mirrors of the three sequencer tables. -/
def headerAt (k : Nat) : Nat := 0x800000 + 64 * k
def mirrorAt (line : Nat) : Nat :=
  if line < 64 then 0x801000 + 64 * line
  else if line < 64 + 16384 then 0x900000 + 64 * (line - 64)
  else 0xA00000 + 64 * (line - 64 - 16384)

/-- Plain offset of a line of the three sequencer tables (R221). -/
def State.seqLineAt (s : State) (line : Nat) : Nat :=
  if line < 64 then s.base SEQ_HDR_BASE.BASE + 64 * line
  else if line < 64 + 16384 then s.base SEQ_STEP_BASE.BASE + 64 * (line - 64)
  else s.base SEQ_ACT_BASE.BASE + 64 * (line - 64 - 16384)

/-- Lines of the three sequencer tables. -/
def seqLines : Nat := 64 + 16384 + 8192

/-- Journal period in ms. -/
def State.jrnPeriod (s : State) : Nat := min 10 (max 1 (s.fld JRN_CFG.PERIOD))

/-! ## Captures (R219, R220, R226) -/

/-- Lines of the staging section. -/
def stageLines : Nat := 386

/-- Plain offset of a staging half. -/
def State.stageAt (s : State) (half : Nat) : Nat := s.base JRN_STAGE_BASE.BASE + 0x8000 * half

/-- `n` free words, as bytes: the spec lays out only the axis lines of the staging section. -/
def freeBytes (k : Nat) : Nat → List Byte
  | 0 => []
  | n + 1 => natBytes 4 (Config.freeWord k).toNat ++ freeBytes (k + 1) n

/-- The journal order table: the slots below LOOP_COUNT by ascending PERIOD. -/
def State.jrnOrder (s : State) : List Nat :=
  (List.range s.loopCount).mergeSort fun i j => s.lPeriod i ≤ s.lPeriod j

/-- The loop section as it stands. -/
def State.loopSection (s : State) : List Byte := s.jrnOrder.flatMap fun i => Memory.bytes s.plain (s.loopAt i 0) 128

/-- The state that the engines put into the staging area. -/
def State.stageSnap (s : State) : StageSnap :=
  { ctx := s.seq.ctx, ramps := s.seq.ramps, active := s.loop.active,
    axes := s.axesOn.map fun a => (a, some (s.axSnap a)) }

/-- The journal takes captures: it is in use, and records are written in HOLDING and RUN. -/
def State.jrnWrites (s : State) : Bool :=
  s.flag JRN_CFG.EN && s.runs Vale.record && (s.fld JRN_STATE.STATE = 3 || s.fld JRN_STATE.STATE = 4)

/-- A capture at the present output close. -/
def State.jrnCapture (s : State) : State :=
  let half := s.jrn.captures % 2
  let snap := s.stageSnap
  let r : JrnRec :=
    { tick := s.time.tick, epoch := s.epoch, loops := s.loopSection, nLoop := s.loopCount, half := half, stage := snap,
      outs := none }
  let words := 16 * stageLines
  let s := { s.setPlain (s.stageAt half) (freeBytes s.free words) with free := s.free + words }
  { s with jrn := { s.jrn with captures := s.jrn.captures + 1, cur := some r,
                               stage := Sparse.set (fun _ => none) s.jrn.stage half (some snap) } }

/-- The capture called for before a sleep (R468) is taken as soon as no record is in progress. -/
def State.sleepCapture (s : State) : State :=
  if s.pwr.capture = .wanted && s.jrn.cur.isNone then
    let t := if s.jrnWrites then s.jrnCapture else s
    { t with pwr := { t.pwr with capture := if s.jrnWrites then .taken else .complete } }
  else s

/-- Output close of the present tick: a due capture is taken, or skipped while the previous record is not valid. -/
def State.jrnOutputClose (s : State) : State :=
  if !s.jrnWrites || s.halted || (s.time.tick + 1) % (20 * s.jrnPeriod) != 0 then s.sleepCapture
  else if s.jrn.cur.isSome then s.incFld JRN_STAT.SKIP
  else
    let c := if s.pwr.capture = .wanted then .taken else s.pwr.capture
    { s.jrnCapture with pwr := { s.pwr with capture := c } }

/-! ## The logic section (R221, R222) -/

/-- The journal mark of line `n` of page `p` in copy `c`. -/
def State.logMark (s : State) (c p n : Nat) : Bool := Sparse.get (fun _ => false) s.jrn.logMarks (16384 * c + 64 * p + n)

/-- Pages that task `t` owns. -/
def State.pagesOf (s : State) (t : Nat) : List Nat := (List.range 256).filter fun p => Sparse.get (fun _ => 0) s.log.pages p = t + 1

/-- A page in the record: its descriptor line and the lines of the list. -/
def State.pageLines (s : State) (t c f p kind : Nat) (ns : List Nat) : List (List Byte) :=
  let mask := (ns.map fun n => 2 ^ n).sum
  let d := natBytes 4 (p + 256 * t + 2048 * c + 4096 * kind) ++ natBytes 4 f ++ natBytes 8 mask ++ natBytes 48 0
  d :: ns.map fun n => Memory.bytes s.plain (s.base LOG_RET_BASE.BASE + 0x100000 * c + 4096 * p + 64 * n) 64

/-- Task `t`'s lines of a record with sweep pointer `r`: changed lines, then sweep pages. -/
def State.taskLines (s : State) (t r : Nat) : List (List Byte) :=
  let sel := s.pw (s.selectorAt t)
  let c := sel % 2
  let delta := (s.pagesOf t).flatMap fun p =>
    match (List.range 64).filter fun n => s.logMark c p n with
    | [] => []
    | ns => s.pageLines t c (sel / 2) p 0 ns
  let sweep := ((s.pagesOf t).filter fun p => p / 32 = r).flatMap fun p => s.pageLines t c (sel / 2) p 1 (List.range 64)
  delta ++ sweep

/-- The marks of task `t`'s captured lines are clear. -/
def State.clearMarks (s : State) (t : Nat) : State :=
  let c := s.pw (s.selectorAt t) % 2
  let mine := s.pagesOf t
  { s with jrn := { s.jrn with logMarks := s.jrn.logMarks.filter fun m => !(m.1 / 16384 = c && mine.contains (m.1 % 16384 / 64)) } }

/-- The tasks of a list that fit a record of at most `max_` lines beside `fixed` others: the highest numbers go first. -/
def fitTasks (len : Nat → Nat) (fixed max_ : Nat) : List Nat → List Nat
  | [] => []
  | t :: lower =>
    if fixed + ((t :: lower).map len).sum ≤ max_ then t :: lower else fitTasks len fixed max_ lower

/-! ## Records (R223 to R225) -/

/-- Writing lines into the ring from `line` on. -/
def State.putLines (s : State) (line : Nat) : List (List Byte) → State
  | [] => s
  | b :: t => State.putLines (s.setRet (ringAt line 0) b) (line + 1) t

/-- Bytes cut into lines of 64; `n` bounds how many. -/
def cutLines (bs : List Byte) : Nat → List (List Byte)
  | 0 => []
  | n + 1 => bs.take 64 :: cutLines (bs.drop 64) n

/-- Copying up to 1,024 marked lines of the sequencer tables to their mirrors (R229). -/
def State.mirrorCopy (s : State) : State :=
  let ls := (s.jrn.seqMarks.map fun m => m.1).take 1024
  let s1 := s.each ls fun t l =>
    let t := t.setRet (mirrorAt l) (Memory.bytes t.plain (t.seqLineAt l) 64)
    { t with jrn := { t.jrn with seqMarks := Sparse.set (fun _ => false) t.jrn.seqMarks l false } }
  s1.setFld JRN_STATE.MIRROR_CLEAN (b2n s1.jrn.seqMarks.isEmpty)

/-- The output section: current-value words of the entries below SIG_COUNT, in whole lines. -/
def State.outSection (s : State) : List Byte :=
  Memory.bytes s.plain (s.base SIG_CUR_BASE.BASE) (64 * ((s.sigCount + 15) / 16))

/-- Input close: the output section of a capture is read in the tick after it (R220). -/
def State.jrnInputClose (s : State) : State :=
  match s.jrn.cur with
  | some r =>
    if r.outs.isNone && s.time.tick != r.tick then
      { s with jrn := { s.jrn with cur := some { r with outs := some s.outSection } } }
    else s
  | none => s

/-- The record in progress is written and its MARK acknowledged. -/
def State.jrnRecord (s : State) (r : JrnRec) (unstable : List Nat) : State :=
  let pf := s.powerFail
  let seq := (s.fld JRN_SEQ.VALUE + 1) % 2 ^ 32
  let line0 := s.fld JRN_POS.LINE
  let nOut := (s.sigCount + 15) / 16
  let sweep := s.jrn.sweep
  let owners := (List.range 8).filter fun t => !(s.pagesOf t).isEmpty
  let stable := owners.filter fun t => !unstable.contains t
  let len (t : Nat) : Nat := (s.taskLines t sweep).length
  let kept := (fitTasks len (2 + 2 * r.nLoop + nOut + stageLines) (s.fld JRN_REC_MAX.LINES) stable.reverse).reverse
  let logic := kept.flatMap fun t => s.taskLines t sweep
  let stage := Memory.bytes s.plain (s.stageAt r.half) (64 * stageLines)
  let body := cutLines r.loops (2 * r.nLoop) ++ cutLines (r.outs.getD s.outSection) nOut ++ cutLines stage stageLines ++ logic
  let lines := body.length + 2
  let tasks := (kept.map fun t => 2 ^ t).sum
  let head := wordsBytes [0x14A43, seq, s.fld JRN_GEN.VALUE, lines, s.jrn.prev, r.tick % 2 ^ 32, r.tick / 2 ^ 32 % 2 ^ 32,
    r.epoch, r.nLoop, nOut, tasks, sweep, 0, 0, 0, 0]
  let tail (crc : Nat) : List Byte := wordsBytes [seq, crc, b2n pf, 0, 0, 0, 0, 0, 0, 0, 0, 0, 0, 0]
  let crc := crc32c (head ++ body.flatten ++ tail 0)
  let mark := natBytes 4 seq ++ natBytes 4 (2 ^ 32 - 1 - seq)
  let s := s.putLines line0 (head :: body ++ [tail crc ++ mark])
  let s := s.each kept State.clearMarks
  let carried := owners.filter fun t => !kept.contains t
  let s := s.incFld JRN_STAT.CARRIED carried.length
  let done := !carried.any fun t => (s.pagesOf t).any fun p => p / 32 = sweep
  let us := min 0xFFFF ((s.ns - (boundaryNs r.tick + 48000)) / 1000)
  let s := (((s.setFld JRN_SEQ.VALUE seq).setFld JRN_POS.LINE ((line0 + lines) % ringLines)).setFld JRN_POS.SLOT
    ((line0 + lines) % ringLines / 512)).setFld JRN_DUR.LAST us
  let s := s.peakFld JRN_DUR.MAX us
  let inRec (l : Nat) : Bool := (l + ringLines - line0) % ringLines < lines
  let old := s.jrn.kept.filter fun p => !inRec p.1
  let s := { s with jrn := { s.jrn with cur := none, prev := line0, sweep := if done then (sweep + 1) % 8 else sweep,
                                        kept := Sparse.set (fun _ => none) old line0 (some r.stage) } }
  if pf then s else s.mirrorCopy

/-- The record at a ring line is valid (R225). -/
def State.recValid (s : State) (line : Nat) : Bool :=
  let n := bitsOf (s.ringW line 0x0C) 0 13
  let tr := line + n - 1
  let seq := s.ringW line 4
  2 ≤ n && bitsOf (s.ringW line 0) 0 16 = 0x4A43 && s.ringW tr 0 = seq && s.ringW tr 0x38 = seq &&
    s.ringW tr 0x3C = 2 ^ 32 - 1 - seq &&
    s.ringW tr 4 = crc32c (((List.range (n - 1)).flatMap fun k => s.ringLine (line + k)) ++ (s.ringLine tr).take 4 ++
      natBytes 4 0 ++ ((s.ringLine tr).take 0x38).drop 8)

/-! ## Headers (R227, R228) -/

/-- A header copy is intact. -/
def State.headerIntact (s : State) (k : Nat) : Bool :=
  let o := headerAt k
  s.retNat o 2 = 0x4A52 && s.rw (o + 0x38) = crc32c (Memory.bytes s.retained o 0x38) &&
    s.rw (o + 0x3C) = s.rw (o + 4) ^^^ 0x5A5A5A5A

/-- GEN of a header copy. -/
def State.headerGen (s : State) (k : Nat) : Nat := s.rw (headerAt k + 4)

/-- Two header copies agree. -/
def State.headersAgree (s : State) (a b : Nat) : Bool :=
  Memory.bytes s.retained (headerAt a) 64 == Memory.bytes s.retained (headerAt b) 64

/-- What R228 selects. -/
inductive HeaderPick where
  | none
  | conflict
  | copy (k : Nat)
deriving DecidableEq, Repr

/-- The copy with the highest GEN of a list, where that GEN is unique. -/
def State.highestGen (s : State) (ks : List Nat) : HeaderPick :=
  let top := (ks.map s.headerGen).foldl max 0
  match ks.filter fun k => s.headerGen k = top with
  | [k] => .copy k
  | _ => .conflict

/-- The selection. -/
def State.headerPick (s : State) : HeaderPick :=
  match (List.range 3).filter s.headerIntact with
  | [] => .none
  | [k] => .copy k
  | [a, b] => if s.headersAgree a b then .copy a else s.highestGen [a, b]
  | ks =>
    if s.headersAgree 0 1 || s.headersAgree 0 2 then .copy 0
    else if s.headersAgree 1 2 then .copy 1
    else s.highestGen ks

/-- A header line of generation `gen`. -/
def State.headerLine (s : State) (gen : Nat) : List Byte :=
  let b := wordsBytes [0x14A52, gen] ++ (s.jrn.imageId ++ natBytes 32 0).take 32 ++
    wordsBytes [s.fld JRN_REC_MAX.LINES + s.jrnPeriod * 65536, 0, 0, 0]
  b ++ natBytes 4 (crc32c b) ++ natBytes 4 (gen ^^^ 0x5A5A5A5A)

/-! ## The decision (R236) -/

/-- A fresh start: new headers, every line of the sequencer tables marked, records from now on. -/
def State.jrnFresh (s : State) (gen outcome copy : Nat) : State :=
  let g := (gen + 1) % 2 ^ 32
  let h := s.headerLine g
  let s := ((s.setRet (headerAt 0) h).setRet (headerAt 1) h).setRet (headerAt 2) h
  let s := { s with jrn := { s.jrn with seqMarks := (List.range seqLines).map fun l => (l, true), chosen := none } }
  let s := ((s.setFld JRN_GEN.VALUE g).setFld JRN_STATE.STATE 4).setFld JRN_STATE.OUTCOME outcome
  (s.setFld JRN_STATE.COPY copy).setFld JRN_STATE.MIRROR_CLEAN 0

/-- The valid record of generation `gen` with the highest SEQ. -/
def State.newestRec (s : State) (gen : Nat) : Option Nat :=
  ((List.range ringLines).filter fun l => s.recValid l && s.ringW l 8 = gen).foldl
    (fun b l => match b with
      | none => some l
      | some k => if s.ringW k 4 < s.ringW l 4 then some l else some k) none

/-- The logic lines of a record: page × 64 + line, and the ring line that holds it; `k` bounds the pages. -/
def State.recLogic (s : State) (line stop : Nat) : Nat → List (Nat × Nat)
  | 0 => []
  | k + 1 =>
    if stop ≤ line then []
    else
      let p := bitsOf (s.ringW line 0) 0 8
      let mask := s.ringW line 8 + 2 ^ 32 * s.ringW line 0xC
      let ns := (List.range 64).filter fun n => bitOf mask n
      (ns.zipIdx.map fun x => (64 * p + x.1, line + 1 + x.2)) ++ State.recLogic s (line + 1 + ns.length) stop k

/-- Logic lines of the record at `line`. -/
def State.recLines (s : State) (line : Nat) : List (Nat × Nat) :=
  let n := bitsOf (s.ringW line 0x0C) 0 13
  let start := line + 1 + 2 * bitsOf (s.ringW line 0x20) 0 11 + bitsOf (s.ringW line 0x24) 0 11 + stageLines
  s.recLogic start (line + n - 1) 512

/-- The newest copy of every logic line, walking back from a record; `k` bounds the records. -/
def State.recWalk (s : State) (line : Nat) (found : Sparse (Option Nat)) : Nat → Sparse (Option Nat)
  | 0 => found
  | k + 1 =>
    let f := (s.recLines line).foldl (fun m e =>
      if (Sparse.get (fun _ => none) m e.1).isSome then m else Sparse.set (fun _ => none) m e.1 (some e.2)) found
    let p := bitsOf (s.ringW line 0x10) 0 17
    if s.recValid p && s.ringW p 4 + 1 = s.ringW line 4 && s.ringW p 8 = s.ringW line 8 then State.recWalk s p f k else f

/-- The owned pages. -/
def State.ownedPages (s : State) : List Nat := (List.range 256).filter fun p => Sparse.get (fun _ => 0) s.log.pages p != 0

/-- The restored logic lines, where none is missing. -/
def State.logicFound (s : State) (line : Nat) : Option (Sparse (Option Nat)) :=
  let f := s.recWalk line [] 512
  if s.ownedPages.all fun p => (List.range 64).all fun n => (Sparse.get (fun _ => none) f (64 * p + n)).isSome
  then some f else none

/-- Steps 3 to 5 with header copy `k`; `outcome` is shown where they end in a restore. -/
def State.jrnSteps (s : State) (k outcome : Nat) : State :=
  let gen := s.headerGen k
  if Memory.bytes s.retained (headerAt k + 8) 32 != (s.jrn.imageId ++ natBytes 32 0).take 32 then s.jrnFresh gen 3 k
  else
    match s.newestRec gen with
    | none => s.jrnFresh gen 4 k
    | some line =>
      match s.logicFound line with
      | none => s.jrnFresh gen 5 k
      | some _ =>
        let s := { s with jrn := { s.jrn with chosen := some line } }
        let s := ((s.setFld JRN_STATE.STATE 1).setFld JRN_STATE.OUTCOME outcome).setFld JRN_STATE.COPY k
        s.setFld JRN_GEN.VALUE gen

/-- What the writer decides at image commit. -/
def State.jrnDecide (s : State) : State :=
  let s := s.setFld JRN_STATE.MIRROR_CLEAN (b2n s.jrn.seqMarks.isEmpty)
  if !s.flag JRN_CFG.EN then (s.setFld JRN_STATE.STATE 0).setFld JRN_STATE.OUTCOME 0
  else match s.headerPick with
    | .none => s.jrnFresh 0 2 3
    | .conflict => ((s.setFld JRN_STATE.STATE 2).setFld JRN_STATE.OUTCOME 0).setFld JRN_STATE.COPY 3
    | .copy k => s.jrnSteps k 1

/-- JRN_SELECT (R228): in CONFLICT only, and only an intact copy. -/
def execJrnSelect (copy : Nat) (s : State) : Res :=
  if s.fld JRN_STATE.STATE = 2 && copy < 3 && s.headerIntact copy then .next (s.jrnSteps copy 6) else .next s

/-- JRN_DISCARD (R228): in CONFLICT only. -/
def execJrnDiscard (s : State) : Res :=
  if s.fld JRN_STATE.STATE = 2 then
    let gen := (((List.range 3).filter s.headerIntact).map s.headerGen).foldl max 0
    .next (s.jrnFresh gen 7 3)
  else .next s

/-! ## Restore and resumption (R237 to R239) -/

/-- A sequence context as a restore brings it back (R141). -/
def SeqCtx.restore (c : SeqCtx) : SeqCtx :=
  let r := c.state = seqRunning || c.state = seqHeld || c.state = seqAborting
  let st := if r then seqRestored else c.state
  { c with state := st, former := if r then c.state else c.former, pend := none, commits := [], rx := [], startSlot := none,
           posts := [], send := none, since := 0, seenState := st, seenStep := c.step }

/-- Some sequence is RESTORED. -/
def State.anyRestored (s : State) : Bool := (List.range 64).any fun q => (s.ctx q).state = seqRestored

/-- What every output unit drives follows the words taken. -/
def State.driveAll (s : State) : State := s.dacDrive.pwmDrive.gpioDrive

/-- The three mirrors are copied into the sequencer tables; the marks are clear. -/
def State.mirrorRestore (s : State) : State :=
  let s1 := s.setPlain (s.base SEQ_HDR_BASE.BASE) (Memory.bytes s.retained 0x801000 0x1000)
  let s2 := s1.setPlain (s1.base SEQ_STEP_BASE.BASE) (Memory.bytes s1.retained 0x900000 0x100000)
  let s3 := s2.setPlain (s2.base SEQ_ACT_BASE.BASE) (Memory.bytes s2.retained 0xA00000 0x80000)
  { s3 with jrn := { s3.jrn with seqMarks := [] } }.setFld JRN_STATE.MIRROR_CLEAN 1

/-- The loop lines of a record go back to their slots. -/
def State.loopLines (s : State) (line : Nat) : State :=
  s.each s.jrnOrder.zipIdx fun t x =>
    if x.2 < bitsOf (t.ringW line 0x20) 0 11 then
      t.setPlain (t.loopAt x.1 0) (t.ringLine (line + 1 + 2 * x.2) ++ t.ringLine (line + 2 + 2 * x.2))
    else t

/-- Each turned entry's journalled word goes into both planes. -/
def State.outLines (s : State) (line : Nat) : State :=
  let o := line + 1 + 2 * bitsOf (s.ringW line 0x20) 0 11
  s.each (s.sigs.filter fun i => turnedSource (s.sigSource i)) fun t i =>
    if i / 16 < bitsOf (t.ringW line 0x24) 0 11 then
      let w := t.ringW (o + i / 16) (4 * (i % 16))
      (t.setCur i w).setPw (t.outAt i) w
    else t

/-- The logic lines go into variable memory and both retained copies; every selector names copy A. -/
def State.logicLines (s : State) (f : Sparse (Option Nat)) : State :=
  let s1 := s.each f fun t e =>
    match e.2 with
    | none => t
    | some l =>
      if Sparse.get (fun _ => 0) t.log.pages (e.1 / 64) = 0 then t
      else
        let b := t.ringLine l
        let base := t.base LOG_RET_BASE.BASE
        let t := { t with log := { t.log with vmem := Memory.store t.log.vmem (64 * e.1) b } }
        (t.setPlain (base + 64 * e.1) b).setPlain (base + 0x100000 + 64 * e.1) b
  s1.each (List.range 8) fun t n => t.setPw (t.selectorAt n) (t.pw (t.selectorAt n) / 2 * 2)

/-- Whole seconds from a capture's output close to now, rounded up; all ones while domain time is not valid. -/
def State.downtime (s : State) (tick : Nat) : Nat :=
  if s.flag TIM_STAT.VALID then (s.ns - (boundaryNs tick + 48000) + 999999999) / 1000000000 % 2 ^ 32 else 0xFFFFFFFF

/-- The bound outputs drive their HOLD modes; LAST is the word as the restore wrote it. -/
def State.holdOutputs (s : State) : State :=
  (s.each s.heldUnits fun t i =>
    t.holdOut i (t.sigHold i) (some (BitVec.ofNat 32 (if turnedSource (t.sigSource i) then t.cur i else t.out i)))).driveAll

/-- The instance actions of the changes that a record of tick `k` does not know: those whose applied line is erased or holds a
later tick, in CHG order (R445). -/
def State.chainActions (s : State) (k : Nat) : State :=
  s.each (s.boot.chain.filter fun i => match i.applied with | some x => k < x | none => true) fun t i =>
    t.each i.exch State.exchEntry

/-- What a restore from the record whose head is `line` writes (R237); HOLDING stands and the outputs are still to be held. -/
def State.restore (s : State) (line : Nat) : State :=
  let f := (s.logicFound line).getD []
  let snap := (Sparse.get (fun _ => none) s.jrn.kept line).getD { ctx := [], ramps := [], active := [], axes := [] }
  let tick := s.ringW line 0x14 + 2 ^ 32 * s.ringW line 0x18
  let n := bitsOf (s.ringW line 0x0C) 0 13
  let st := line + 1 + 2 * bitsOf (s.ringW line 0x20) 0 11 + bitsOf (s.ringW line 0x24) 0 11
  let s := s.mirrorRestore
  let s := s.setPlain (s.stageAt 0) ((List.range stageLines).flatMap fun k => s.ringLine (st + k))
  let s := ((((s.loopLines line).outLines line).logicLines f).logRestore).chainActions tick
  let s := { s with seq := { s.seq with ctx := snap.ctx.map fun (p : Nat × SeqCtx) => (p.1, p.2.restore), ramps := snap.ramps },
                    loop := { s.loop with active := snap.active, restored := true, started := false } }
  let s := s.each snap.axes fun t p => match p.2 with | some v => t.axRestore p.1 v | none => t
  let s := ((s.setFld JRN_SEQ.VALUE (s.ringW line 4)).setFld JRN_POS.LINE ((line + n) % ringLines)).setFld JRN_POS.SLOT
    ((line + n) % ringLines / 512)
  let s := (s.setFld JRN_DOWN.S (s.downtime tick)).setFld JRN_STATE.STATE 3
  { s with jrn := { s.jrn with chosen := none, prev := line, restoredAt := some s.ns,
                               stage := Sparse.set (fun _ => none) s.jrn.stage 0 (some snap),
                               due := s.jrn.due || s.anyRestored } }

/-- RESTORE_END (R237): the restore is carried out, and HOLDING begins. -/
def execRestoreEnd (s : State) : Res :=
  match s.jrn.chosen with
  | none => .next s
  | some line => if s.fld JRN_STATE.STATE != 1 then .next s else (s.restore line).holdOutputs.done

/-- AUTO_RESUME (R239): the automatic commit enters its slot where its conditions hold. -/
def execAutoResume (s : State) : Res :=
  if s.fld JRN_STATE.STATE = 3 && s.flag JRN_CFG.AUTO && s.flag JRN_STATE.IN_FORCE && s.anyRestored &&
      s.fld JRN_DOWN.S ≤ s.fld JRN_AUTO.MAXDOWN && s.fld JRN_AUTO.MAXDOWN != 0 then
    .next { s with seq := { s.seq with resumeSlot := true } }
  else .next s

/-- The boundary of tick `t`: HOLDING ends at the commit boundary, or where no sequence is RESTORED; a first test falls due
at the first strobe after commit (R230). -/
def State.jrnBoundary (s : State) (t : Nat) : State :=
  let s := if s.committed && s.flag JRN_CFG.EN && !s.jrn.first then
      { s with jrn := { s.jrn with first := true, due := true } }
    else s
  let ends := match s.seq.commitAt with | some c => c ≤ t | none => !s.anyRestored
  if s.fld JRN_STATE.STATE = 3 && ends then
    let s := s.setFld JRN_STATE.STATE 4
    let s := { s with sig := { s.sig with held := [] }, seq := { s.seq with commitAt := none } }
    s.motResume
  else s

/-! ## The hold-up check (R230 to R232) -/

/-- The device is idle. -/
def State.jrnIdle (s : State) : Bool :=
  !(List.range 64).any fun q =>
    let st := (s.ctx q).state
    st = seqRunning || st = seqHeld || st = seqAborting || st = seqRestored

/-- Tests run: the journal is in use, an image is committed, and neither CONFLICT nor POWER_FAIL stands. -/
def State.testsRun (s : State) : Bool :=
  s.flag JRN_CFG.EN && s.committed && s.fld JRN_STATE.STATE != 2 && s.fld JRN_STATE.STATE != 5

/-- IDLE_RETEST. -/
def execIdleRetest (s : State) : Res :=
  if s.testsRun && s.jrnIdle && (!s.jrn.idleTested || s.fld JRN_TEST_IVL.S != 0) then
    .next { s with jrn := { s.jrn with due := true } }
  else .next s

/-- JRN_TEST: a test is called for where the device is idle. -/
def execJrnTest (s : State) : Res :=
  if s.testsRun && s.jrnIdle then .next { s with jrn := { s.jrn with due := true } } else .next s

/-- A parameter of the check is not positive, or η is above 1 (R240). -/
def State.holdUndefined (s : State) : Bool :=
  let pos (w : Nat) : Bool := fLess (.fin false 0 0) (f32 w)
  !pos (s.fld JRN_HU_R.VALUE) || !pos (s.fld JRN_HU_K.VALUE) || !pos (s.fld JRN_HU_VMIN.VALUE) ||
    !pos (s.fld JRN_HU_EFF.VALUE) || fLess (.fin false 1 0) (f32 (s.fld JRN_HU_EFF.VALUE))

/-- V0 or V1 from the sum of 16 codes. -/
def State.holdVolts (s : State) (sum : Nat) : FVal :=
  fMul binary32 (roundFrac binary32 false (sum * 18) (10 * 1048576) 0) (f32 (s.fld JRN_HU_K.VALUE))

/-- HOLDUP_TEST_START. -/
def execHoldupTestStart (samples : List Nat) (s : State) : Res :=
  if !s.testsRun || !s.jrn.due || s.jrn.test.isSome then .next s
  else if s.holdUndefined then (s.undef 240).done
  else
    let v0 := f32Word (s.holdVolts ((samples.take 16).map fun h => h % 65536).sum)
    .next ({ s with jrn := { s.jrn with due := false, test := some { start := s.ns, v0 := some v0 } } }.setFld
      JRN_STATE.ARMING 3)

/-- HOLD_LOAD_ON. -/
def execHoldLoadOn (s : State) : Res :=
  if s.jrn.test.isSome then .next { s with jrn := { s.jrn with load := true } } else .next s

/-- C and E of R231 in binary32. -/
def holdFigures (v0 v1 r vmin eff : FVal) : FVal × FVal :=
  let dt := roundFrac binary32 false 2 1000 0
  let c := fDiv binary32 (fMul binary32 dt (fAdd binary32 v0 v1))
    (fMul binary32 (fMul binary32 (fInt 2) r) (fSub binary32 v0 v1))
  let d := fSub binary32 (fMul binary32 v0 v0) (fMul binary32 vmin vmin)
  (c, fDiv binary32 (fMul binary32 (fMul binary32 eff c) d) (fInt 2))

/-- E is below E_FIN, compared exactly: `uj` × 10^-6 J. -/
def belowEnergy (e : FVal) (uj : Nat) : Bool :=
  match e with
  | .fin true m _ => m != 0 || 0 < uj
  | .fin false m x => let p := scaleFrac m 1 x; p.1 * 1000000 < uj * p.2
  | .inf neg => neg
  | .nan => false

/-- The result of a test: 1 PASS, 2 SHORT, 3 NO_FALL, 4 LOW_VOLTAGE (R232). -/
def State.holdResult (s : State) (v0 v1 e : FVal) : Nat :=
  let vmin := f32 (s.fld JRN_HU_VMIN.VALUE)
  if !fLess vmin v0 then 4
  else if fLess (fSub binary32 v0 v1) (fMul binary32 (roundFrac binary32 false 5 1000 0) v0) then 3
  else if belowEnergy e (s.fld JRN_EFIN.UJ) then 2
  else 1

/-- HOLDUP_TEST_END. -/
def execHoldupTestEnd (samples : List Nat) (s : State) : Res :=
  match s.jrn.test with
  | none => .next s
  | some t =>
    if !s.jrn.load then .next s
    else
      let v0 := f32 (t.v0.getD 0)
      let v1 := s.holdVolts ((samples.take 16).map fun h => h % 65536).sum
      let p := holdFigures v0 v1 (f32 (s.fld JRN_HU_R.VALUE)) (f32 (s.fld JRN_HU_VMIN.VALUE)) (f32 (s.fld JRN_HU_EFF.VALUE))
      let r := s.holdResult v0 v1 p.2
      let arm := if r = 1 then 1 else 2
      let s := { s with jrn := { s.jrn with test := none, load := false, force := arm, idleTested := true } }
      let s := ((s.setFld JRN_STATE.ARMING arm).setFld JRN_STATE.IN_FORCE (b2n (r = 1))).setFld JRN_TEST.RESULT r
      let s := ((s.incFld JRN_TEST.COUNT).setFld JRN_TEST_V0.VALUE (f32Word v0)).setFld JRN_TEST_V1.VALUE (f32Word v1)
      .next ((s.setFld JRN_TEST_C.VALUE (f32Word p.1)).setFld JRN_TEST_E.VALUE (f32Word p.2))

/-- At each strobe: a device that is not idle starts a new idle period when it becomes idle again. -/
def State.jrnStrobe (s : State) : State :=
  if s.jrnIdle then s else { s with jrn := { s.jrn with idleTested := false } }

/-- JRN_CLR_COUNTS. -/
def execJrnClrCounts (s : State) : Res := .next ((s.setFld JRN_STAT.CARRIED 0).setFld JRN_STAT.SKIP 0)

/-- JRN_CLR_PEAKS. -/
def execJrnClrPeaks (s : State) : Res := .next (s.setFld JRN_DUR.MAX 0)

end Sys2Proof.Machine
end

