-- ==== Sys2Proof/Machine/Island.lean ====
section
/-!
DEFINITION. Machine/Island.lean: the safety island (chapter 13): its states, the scan, inputs, outputs, EMO, the matrix, safe
frames, the mailbox gate, commissioning and the window. Its time is counted in safety-vale cycles of 25 ns.
-/

namespace Sys2Proof.Machine

/-! ## Accessors -/

/-- Changing the island's state. -/
def State.island (s : State) (f : SafState → SafState) : State := { s with saf := f s.saf }

/-- Input `n`, source `k`, output `n`, function `f`, and connection `c` in each direction. -/
def SafState.inp (x : SafState) (n : Nat) : SafeIn := Sparse.get (fun _ => SafeIn.zero) x.ins n
def SafState.src (x : SafState) (k : Nat) : SafeSrc := Sparse.get (fun _ => SafeSrc.zero) x.srcs k
def SafState.out (x : SafState) (n : Nat) : SafeOut := Sparse.get (fun _ => SafeOut.zero) x.outs n
def SafState.fn (x : SafState) (f : Nat) : SafeFn := Sparse.get (fun _ => SafeFn.zero) x.fns f
def SafState.rxc (x : SafState) (c : Nat) : SafeRx := Sparse.get (fun _ => SafeRx.zero) x.rx c
def SafState.txc (x : SafState) (c : Nat) : SafeTx := Sparse.get (fun _ => SafeTx.zero) x.tx c
def SafState.setIn (x : SafState) (n : Nat) (v : SafeIn) : SafState :=
  { x with ins := Sparse.set (fun _ => SafeIn.zero) x.ins n v }
def SafState.setSrc (x : SafState) (k : Nat) (v : SafeSrc) : SafState :=
  { x with srcs := Sparse.set (fun _ => SafeSrc.zero) x.srcs k v }
def SafState.setOut (x : SafState) (n : Nat) (v : SafeOut) : SafState :=
  { x with outs := Sparse.set (fun _ => SafeOut.zero) x.outs n v }
def SafState.setFn (x : SafState) (f : Nat) (v : SafeFn) : SafState :=
  { x with fns := Sparse.set (fun _ => SafeFn.zero) x.fns f v }
def SafState.setRx (x : SafState) (c : Nat) (v : SafeRx) : SafState :=
  { x with rx := Sparse.set (fun _ => SafeRx.zero) x.rx c v }
def SafState.setTx (x : SafState) (c : Nat) (v : SafeTx) : SafState :=
  { x with tx := Sparse.set (fun _ => SafeTx.zero) x.tx c v }

/-- Safety-vale cycles of a scan, of a microsecond and of a millisecond (R304). -/
def scanCycles : Nat := 10000
def safUs : Nat := 40
def safMs : Nat := 40000

/-- A word of a configuration block, and bits of it. -/
def cfgWord (b : List Byte) (o : Nat) : Nat := bytesNat ((b.drop o).take 4)
def cfgBits (b : List Byte) (o lo w : Nat) : Nat := bitsOf (cfgWord b o) lo w

/-- Fields of the running configuration (R502, R313). -/
def SafState.w (x : SafState) (o lo n : Nat) : Nat := cfgBits x.cfg o lo n
def srcUsed (b : List Byte) (k : Nat) : Bool := cfgBits b (0x10 + 4 * k) 14 1 = 1
def inUsed (b : List Byte) (n : Nat) : Bool := n < 24 && cfgBits b (0x20 + 4 * n) 0 1 = 1
def SafState.srcWidth (x : SafState) (k : Nat) : Nat := (x.w (0x10 + 4 * k) 0 4 + 4) * 25 * safUs
def SafState.srcInterval (x : SafState) (k : Nat) : Nat := x.w (0x10 + 4 * k) 4 10 * 10 * safMs
def SafState.outUsed (x : SafState) (n : Nat) : Bool := n < 16 && x.w (0x90 + 8 * n) 0 1 = 1
def SafState.outWidth (x : SafState) (n : Nat) : Nat := (x.w (0x90 + 8 * n) 1 4 + 4) * 25 * safUs
def SafState.outInterval (x : SafState) (n : Nat) : Nat := x.w (0x90 + 8 * n) 5 10 * 100 * safMs
def SafState.rbTime (x : SafState) (n : Nat) : Nat := x.w (0x90 + 8 * n) 15 6 * 50 * safUs
def SafState.fnWord (x : SafState) (f k lo n : Nat) : Nat := x.w (0x200 + 16 * f + 4 * k) lo n
def SafState.fnKind (x : SafState) (f : Nat) : Nat := x.fnWord f 0 0 4

/-- The source of an input or EMO channel (24 EMO_A, 25 EMO_B). -/
def inSource (b : List Byte) (n : Nat) : Nat :=
  if n = 24 then cfgBits b 0x80 0 2 else if n = 25 then cfgBits b 0x80 2 2 else cfgBits b (0x20 + 4 * n) 1 2

/-- The inputs that are evaluated: those in use and, always, the EMO channels. -/
def SafState.evaluated (x : SafState) : List Nat := ((List.range 24).filter fun n => inUsed x.cfg n) ++ [24, 25]

/-- The inputs that source `k` feeds. -/
def SafState.fedBy (x : SafState) (k : Nat) : List Nat :=
  if x.cfg.isEmpty then [] else x.evaluated.filter fun n => inSource x.cfg n = k

/-- What input `n` reads for every function: 0 while faulted (R308). -/
def SafeIn.reads (i : SafeIn) : Bool := i.level && !i.fault && !i.overdue

/-- A monitored press: from `p` to `now`, 100 ms to 5 s (R308). -/
def pressOk (p now : Nat) : Bool := 100 * safMs ≤ now - p && now - p ≤ 5000 * safMs

/-! ## The window and the event ring (R323, R501) -/

/-- The island writes a word of the window through the Narrows; while the fabric vale is in reset the write is dropped. -/
def State.winW (s0 : State) (o v : Nat) : State :=
  let s := s0.wakeUp 2
  if s.runs Vale.fabric then s.setPw (0x1FF0000 + o) v else s

/-- An event-ring entry (R501). -/
def State.safEvent (s : State) (code item data : Nat) : State :=
  let k := (s.saf.serial + 1) % 2 ^ 32
  let o := 0x2000 + 16 * (k % 256)
  let s := (((s.winW o (code + item * 65536)).winW (o + 4) data).winW (o + 8) s.saf.scan).winW (o + 12) k
  let s := s.winW 0x14 k
  s.island fun x => { x with serial := k, overwrites := if 256 < k then x.overwrites + 1 else x.overwrites }

/-- De-energising every output. -/
def SafState.allOff (x : SafState) (now : Nat) : SafState :=
  (List.range 16).foldl (fun y n =>
    let o := y.out n
    if o.cmd then y.setOut n { o with cmd := false, cmdAt := now, pulse := none } else y) x

/-- Changing the state of R303. -/
def State.safGo (s : State) (st : Nat) : State :=
  let old := s.saf.st
  if old = st then s else (s.island fun x => { x with st := st }).safEvent 1 st old

/-- An internal fault: its bit latches and the island enters SAFE_STATE (R300, R303). -/
def State.safFault (s : State) (b : Nat) : State :=
  let s := if bitOf s.saf.faults b then s
    else (s.island fun x => { x with faults := putBits x.faults b 1 1 }).safEvent 2 b 0
  (s.safGo 3).island fun x => x.allOff x.cyc

/-! ## SAF words (R503) -/

/-- SAF_FAULT: the internal faults and what stands. -/
def SafState.faultWord (x : SafState) : Nat :=
  x.faults % 64
    + 256 * b2n (x.ins.any fun p => p.2.fault || p.2.overdue)
    + 512 * b2n (x.outs.any fun p => p.2.fault)
    + 1024 * b2n x.emoDisc
    + 2048 * b2n (x.fns.any fun p => p.2.disc)
    + 4096 * b2n ((List.range 32).any fun c =>
        cfgBits x.cfg (0x1A00 + 32 * c) 0 1 = 1 &&
          (!(x.rxc c).p0.live || !(x.rxc c).p1.live || (x.rxc c).p0.late || (x.rxc c).p1.late))

/-- SAF_STATE. -/
def SafState.stateWord (x : SafState) : Nat :=
  x.st + 8 * b2n (!x.pend.isEmpty) + 16 * b2n x.emo + 32 * b2n x.pf

/-- The CRC field of a block; 0 for none. -/
def blockCrc (b : List Byte) : Nat := cfgWord b 0x1E00

/-- Bits of a list of Booleans by index. -/
def bitsWhere (n : Nat) (p : Nat → Bool) : Nat := ((List.range n).map fun k => if p k then 2 ^ k else 0).sum

/-- A source's pulse is running at instant `t`; the mask lasts 25 µs longer (R306). -/
def SafState.pulsing (x : SafState) (k t : Nat) : Bool :=
  match (x.src k).start with
  | some p => p ≤ t && t < p + x.srcWidth k
  | none => false
def SafState.masking (x : SafState) (k t : Nat) : Bool :=
  match (x.src k).start with
  | some p => p ≤ t && t < p + x.srcWidth k + 25 * safUs
  | none => false

/-- An output's off-pulse is running at instant `t` (R310). -/
def SafState.outPulsing (x : SafState) (n t : Nat) : Bool :=
  match (x.out n).pulse with
  | some p => p ≤ t && t < p + x.outWidth n
  | none => false

/-- The level the driver of SOUTn gives its pin at instant `t` (R301, R309, R310). -/
def SafState.drive (x : SafState) (n t : Nat) : Bool := (x.out n).cmd && !x.outPulsing n t && !(x.out n).latch

/-- SAF_SIN, SAF_SOUT, SAF_FN and SAF_CONN. -/
def SafState.sinWord (x : SafState) : Nat :=
  bitsWhere 24 (fun n => (x.inp n).level) + 2 ^ 24 * bitsWhere 4 (fun k => x.pulsing k x.cyc)
    + 2 ^ 28 * b2n (x.inp 24).level + 2 ^ 29 * b2n (x.inp 25).level
def SafState.soutWord (x : SafState) : Nat := bitsWhere 16 (fun n => (x.out n).cmd) + 65536 * (x.srb % 65536)
def SafState.fnResults (x : SafState) (i : Nat) : Nat := bitsWhere 32 fun b => (x.fn (32 * i + b)).result
def SafState.rxGood (x : SafState) (c : Nat) : Bool := (x.rxc c).p0.live && (x.rxc c).p1.live

/-- The functions that name output `n`. -/
def SafState.namers (x : SafState) (n : Nat) : List Nat :=
  (List.range 256).filter fun f => x.fnKind f != 0 && bitOf (x.fnWord f 3 0 16) n

/-- Every function that names output `n` permits after its DELAY, and one does (R309). -/
def SafState.permits (x : SafState) (n : Nat) : Bool :=
  let l := x.namers n
  !l.isEmpty && l.all fun f => (x.fn f).permit

/-- Data that the paths of a connection disagree on. -/
def SafeRx.differs (r : SafeRx) : Bool := r.p0.live && r.p1.live && r.p0.data != r.p1.data

/-- The scan writes the window (R323, R503). -/
def State.safPublish (s : State) : State :=
  let x := s.saf
  let s := ((((s.winW 0 x.stateWord).winW 4 x.faultWord).winW 8 (blockCrc x.cfg)).winW 0xC (blockCrc x.pend)).winW 0x10 x.scan
  let s := ((s.winW 0x40 x.sinWord).winW 0x44 x.soutWord).winW 0x48 (bitsWhere 32 x.rxGood)
  let s := s.each (List.range 8) fun t i => t.winW (0x80 + 4 * i) (x.fnResults i)
  let s := s.winW 0xA0 (bitsWhere 16 x.permits)
  s.each (List.range 32) fun t c =>
    let r := x.rxc c
    let o := 0x200 + 32 * c
    let w0 := b2n (x.rxGood c) + 2 * b2n r.p0.live + 4 * b2n r.p1.live + 8 * b2n r.p0.late + 16 * b2n r.p1.late
      + 32 * b2n r.differs
    ((((t.winW o w0).winW (o + 4) r.bits).winW (o + 8) r.p0.counter).winW (o + 12) r.p1.counter).winW (o + 16)
      (min 65535 r.p0.trip + 65536 * min 65535 r.p1.trip)

/-! ## Inputs (R305 to R308) -/

/-- One scan sample of input `n`: the filter of R307, and where the level is masked, nothing. -/
def SafState.sample (x : SafState) (n : Nat) (raw : Bool) : SafState :=
  let i := x.inp n
  if !x.cfg.isEmpty && x.masking (inSource x.cfg n) x.cyc then x
  else
    let i1 := if raw = i.level then { i with pend := none }
      else match i.pend with
        | none => { i with pend := some x.cyc }
        | some p => if 1000 * safUs ≤ x.cyc - p then { i with level := raw, pend := none } else i
    x.setIn n i1

/-- The inputs whose reading fell in this scan, each with the instant at which it had begun to read 1. -/
def SafState.pressed (x : SafState) : SafState × List (Nat × Nat) :=
  x.evaluated.foldl (fun a n =>
    let i := a.1.inp n
    match i.reads, i.press with
    | true, none => (a.1.setIn n { i with press := some x.cyc }, a.2)
    | false, some p => (a.1.setIn n { i with press := none }, if i.fault || i.overdue then a.2 else (n, p) :: a.2)
    | _, _ => a) (x, [])

/-- The start of a monitored press of input `n` completed in this scan. -/
def pressOf (ps : List (Nat × Nat)) (now n : Nat) : Option Nat :=
  (ps.find? fun p => p.1 = n && pressOk p.2 now).map fun p => p.2

/-- Raising INPUT_FAULT (`overdue` false) or TEST_OVERDUE for input `n` (R306, R308). -/
def State.inputFault (s : State) (n : Nat) (overdue : Bool) : State :=
  let i := s.saf.inp n
  if (if overdue then i.overdue else i.fault) then s
  else
    let j := if overdue then { i with overdue := true } else { i with fault := true }
    (s.island fun x => x.setIn n j).safEvent 3 n (b2n overdue)

/-- Pulses postponed beyond 10 × TPI_IN raise TEST_OVERDUE for the inputs of the source (R306). -/
def State.safOverdue (s : State) : State :=
  s.each (List.range 4) fun t k =>
    let c := t.saf.src k
    if c.postponed && c.due + 10 * t.saf.srcInterval k < t.saf.cyc then
      t.each (t.saf.fedBy k) fun u n => u.inputFault n true
    else t

/-! ## Clearing faults (R308, R312) -/

/-- A monitored press of FRESET_IN clears each fault whose condition has gone. -/
def State.safReset (s : State) (ps : List (Nat × Nat)) : State :=
  let x := s.saf
  match pressOf ps x.cyc (x.w 0x80 8 5) with
  | none => s
  | some _ =>
    let s := s.each (x.ins.map fun p => p.1) fun t n =>
      let i := t.saf.inp n
      let f := i.fault && i.bad
      let o := i.overdue && (t.saf.src (inSource t.saf.cfg n)).postponed
      if (i.fault && !f) || (i.overdue && !o) then
        (t.island fun y => y.setIn n { i with fault := f, overdue := o }).safEvent 4 n 0
      else t
    s.each (x.outs.map fun p => p.1) fun t n =>
      let o := t.saf.out n
      match o.fault, o.rbOff with
      | true, some r =>
        if t.saf.rbTime n ≤ t.saf.cyc - r then
          (t.island fun y => y.setOut n { o with fault := false, cleared := true }).safEvent 6 n 0
        else t
      | _, _ => t

/-! ## EMO (R315) -/

/-- EMO demand in a scan. -/
def State.safEmo (s : State) (ps : List (Nat × Nat)) : State :=
  let x := s.saf
  let a := (x.inp 24).reads
  let b := (x.inp 25).reads
  let zeroed := x.emoDisc && (x.emoZeroed || (!a && !b))
  let gone := x.emoDisc && zeroed && a && b
  let both := a && b
  let since := if both then (if x.emoAt.isSome then x.emoAt else some x.cyc) else none
  let s := s.island fun y => { y with
    emoAt := since
    emoDiffer := if a != b then (if y.emoDiffer.isSome then y.emoDiffer else some y.cyc) else none
    emoDisc := y.emoDisc && !gone
    emoZeroed := zeroed && !gone }
  let s := if gone then s.safEvent 8 0 0 else s
  if !a || !b then
    if s.saf.emo then s else (s.island fun y => { y with emo := true }).safEvent 7 0 1
  else
    match pressOf ps x.cyc (x.w 0x80 16 5), since with
    | some p, some q =>
      if s.saf.emo && !s.saf.emoDisc && q ≤ p then (s.island fun y => { y with emo := false }).safEvent 7 0 0 else s
    | _, _ => s

/-! ## Safe frames (R319 to R321) -/

/-- The island's own node word, and bits [23:0] of a connection's peer word. -/
def SafState.selfNode (x : SafState) : Nat := x.w 8 0 24

/-- The bytes of a frame before its CRC. -/
def frameHead (ty conn node counter data echo : Nat) : List Byte :=
  natBytes 4 (1 + ty * 256 + conn * 65536) ++ natBytes 4 node ++ natBytes 4 counter ++ natBytes 4 data ++
    natBytes 4 echo ++ natBytes 8 0

/-- COUNTER `a` is newer than `b`. -/
def newer (a b : Nat) : Bool := 0 < sext 32 (a + 2 ^ 32 - b % 2 ^ 32)

/-- The receive connection with CONN number `conn` and peer word `node`. -/
def SafState.rxFor (x : SafState) (conn node : Nat) : Option Nat :=
  (List.range 32).find? fun c =>
    x.w (0x1A00 + 32 * c) 0 1 = 1 && x.w (0x1A00 + 32 * c) 16 16 = conn && x.w (0x1A04 + 32 * c) 0 24 = node

/-- The last COUNTER accepted of a connection: the newer of its paths'. -/
def SafeRx.last (r : SafeRx) : Nat :=
  match r.p0.accepted, r.p1.accepted with
  | some _, some _ => if newer r.p1.counter r.p0.counter then r.p1.counter else r.p0.counter
  | none, some _ => r.p1.counter
  | _, _ => r.p0.counter

/-- The transmit connection with CONN number `conn` to peer word `node`. -/
def SafState.txFor (x : SafState) (conn node : Nat) : Option Nat :=
  (List.range 32).find? fun c =>
    x.w (0x1200 + 64 * c) 0 1 = 1 && x.w (0x1200 + 64 * c) 16 16 = conn && x.w (0x1204 + 64 * c) 0 24 = node

/-- The permit bits that transmit connection `c` sends. -/
def SafState.txBits (x : SafState) (c : Nat) : Nat :=
  bitsWhere 32 fun b => bitOf (x.w (0x1208 + 64 * c) 0 32) b && (x.fn (x.w (0x1210 + 64 * c + b) 0 8)).result

/-- Writing a frame of connection `c` into both of its transmit slots. -/
def State.safSend (s : State) (ty c : Nat) : State :=
  let x := s.saf
  let t := x.txc c
  let conn := x.w (0x1200 + 64 * c) 16 16
  let peer := x.w (0x1204 + 64 * c) 0 24
  let n := (t.counter + 1) % 2 ^ 32
  let d := x.txBits c
  let echo := match x.rxFor conn peer with
    | some r => (x.rxc r).last
    | none => 0
  let hd := frameHead ty conn x.selfNode n d echo
  let bs := hd ++ natBytes 4 (Config.safeCrc conn x.selfNode peer hd).toNat
  let s := s.island fun y => y.setTx c { counter := n, bits := d, sent := ((n, y.cyc) :: t.sent).take 64 }
  if s.runs Vale.fabric then
    (s.setPlain (0x1FF0000 + 0x800 + 128 * c) bs).setPlain (0x1FF0000 + 0x840 + 128 * c) bs
  else s

/-- The transmit connections in use. -/
def SafState.txUsed (x : SafState) : List Nat := (List.range 32).filter fun c => x.w (0x1200 + 64 * c) 0 1 = 1

/-- Event frames at the end of a scan in which a sent bit changed (R320). -/
def State.safEventFrames (s : State) : State :=
  s.each (s.saf.txUsed.filter fun c => s.saf.txBits c != (s.saf.txc c).bits) fun t c => t.safSend 1 c

/-- A path after an accepted frame: round trip from the sending of the echoed COUNTER, and PATH_LATE (R321). -/
def SafState.acceptOn (x : SafState) (p : SafePath) (c counter data echo conn node : Nat) : SafePath :=
  let sent := match x.txFor conn node with
    | some t => ((x.txc t).sent.find? fun q => q.1 = echo).map fun q => q.2
    | none => none
  let trip := match sent with
    | some q => (x.cyc - q) / safUs
    | none => p.trip
  let late := 2 * x.w (0x1A08 + 32 * c) 0 11 < trip
  { counter := counter, data := data, accepted := some x.cyc, live := !late, late := late, trip := trip }

/-- A received safe frame: accepted on its path, or rejected (R321). -/
def State.safReceive (s : State) (path : Nat) (bs : List Byte) : State × Bool :=
  let x := s.saf
  let w (o : Nat) : Nat := cfgWord bs o
  let conn := bitsOf (w 0) 16 16
  let node := bitsOf (w 4) 0 24
  match x.rxFor conn node with
  | none => (s, false)
  | some c =>
    let r := x.rxc c
    let p := if path = 0 then r.p0 else r.p1
    let ok := bs.length = 32 && bitsOf (w 0) 0 8 = 1 && bitsOf (w 0) 8 8 ≤ 1 && path ≤ 1 &&
      (Config.safeCrc conn node x.selfNode (bs.take 28)).toNat = w 28 && (p.accepted.isNone || newer (w 8) p.counter)
    if ok then
      let q := x.acceptOn p c (w 8) (w 12) (w 16) conn node
      let r1 := if path = 0 then { r with p0 := q } else { r with p1 := q }
      let s := s.island fun y => y.setRx c r1
      (if q.late && !p.late then s.safEvent 0xA c path else s, true)
    else (s, false)

/-- The bits of a receive connection in a scan: agreed bits follow, a silent path clears all, and a disagreeing bit stays
until the disagreement has stood for 4 ms (R321). -/
def SafeRx.derive (r : SafeRx) (now : Nat) : SafeRx :=
  if !(r.p0.live && r.p1.live) then { r with bits := 0, differ := [] }
  else
    (List.range 32).foldl (fun a b =>
      let u := bitOf a.p0.data b
      if u = bitOf a.p1.data b then
        { a with bits := putBits a.bits b 1 (b2n u), differ := Sparse.set (fun _ => none) a.differ b none }
      else if (Sparse.get (fun _ => none) a.differ b).isSome then a
      else { a with differ := Sparse.set (fun _ => none) a.differ b (some now) }) r

/-- Deriving every receive connection. -/
def State.safDerive (s : State) : State :=
  s.island fun x => (x.rx.map fun p => p.1).foldl (fun y c => y.setRx c ((y.rxc c).derive y.cyc)) x

/-! ## The matrix (R316 to R318) -/

/-- An operand is in use. -/
def opUsed (o : Nat) : Bool := bitsOf o 13 3 != 0

/-- The value of an operand. -/
def SafState.opValue (x : SafState) (o : Nat) : Bool :=
  match bitsOf o 13 3 with
  | 1 => (x.inp (o % 32)).reads
  | 2 => (x.fn (o % 256)).result
  | 3 => bitOf (x.rxc (bitsOf o 5 5)).bits (o % 32)
  | 4 => !x.emo
  | _ => true

/-- The four operands of function `f`. -/
def SafState.fnOps (x : SafState) (f : Nat) : List Nat :=
  [x.fnWord f 1 0 16, x.fnWord f 1 16 16, x.fnWord f 2 0 16, x.fnWord f 2 16 16]

/-- OP0 and OP1 of a DUAL function, OP1 inverted for DUAL_ANTI. -/
def SafState.dual (x : SafState) (f : Nat) : Bool × Bool :=
  let v1 := x.opValue (x.fnWord f 1 16 16)
  (x.opValue (x.fnWord f 1 0 16), if x.fnKind f = 3 then !v1 else v1)

/-- The raw result of function `f`. -/
def SafState.fnRaw (x : SafState) (f : Nat) (disc : Bool) : Bool :=
  match x.fnKind f with
  | 1 => (x.fnOps f).all fun o => !opUsed o || x.opValue o
  | 2 | 3 => (x.dual f).1 && (x.dual f).2 && !disc && ((x.fnOps f).drop 2).all fun o => !opUsed o || x.opValue o
  | _ => false

/-- The permit that the outputs follow, after a change of the result (R317). -/
def SafeFn.follow (v : SafeFn) (delay now : Nat) : SafeFn :=
  if v.result then { v with permit := true, delay := none }
  else if v.permit then
    if delay = 0 then { v with permit := false, delay := none }
    else if v.delay.isSome then v else { v with delay := some now }
  else v

/-- Evaluating function `f` in a scan (R317). -/
def State.safEvalFn (s : State) (ps : List (Nat × Nat)) (f : Nat) : State :=
  let x := s.saf
  if x.fnKind f = 0 then s
  else
    let v := x.fn f
    let isDual := x.fnKind f != 1
    let a := (x.dual f).1
    let b := (x.dual f).2
    let zeroed := v.disc && (v.zeroed || (!a && !b))
    let gone := zeroed && a && b
    let disc := v.disc && !gone
    let raw := x.fnRaw f disc
    let rawAt := if raw then (if v.rawAt.isSome then v.rawAt else some x.cyc) else none
    let pressed := match pressOf ps x.cyc (x.fnWord f 0 8 5), rawAt with
      | some p, some q => q ≤ p
      | _, _ => false
    let result := raw && (x.fnWord f 0 4 2 = 0 || v.result || pressed)
    let v1 : SafeFn := { v with
      result := result, rawAt := rawAt, disc := disc, zeroed := zeroed && !gone
      differ := if isDual && a != b then (if v.differ.isSome then v.differ else some x.cyc) else none }
    let s := s.island fun y => y.setFn f (v1.follow (x.fnWord f 3 16 12) x.cyc)
    if gone then s.safEvent 9 f 0 else s

/-! ## Outputs (R309 to R314) -/

/-- A fault of the output's group de-energises it. -/
def SafState.groupFault (x : SafState) (n : Nat) : Bool :=
  (List.range 16).any fun m => (x.out m).fault && (m = n || bitOf (x.w (0x94 + 8 * m) 0 16) n)

/-- The command of output `n` (R309, R313). -/
def SafState.wanted (x : SafState) (n : Nat) : Bool :=
  x.st = 2 && x.outUsed n && x.permits n && !(x.w (0x90 + 8 * n) 21 1 = 1 && x.emo) && !x.groupFault n &&
    !(x.w (0x90 + 8 * n) 22 1 = 1 && x.pf)

/-- No output is being pulsed at instant `t`. -/
def SafState.noPulse (x : SafState) (t : Nat) : Bool := (List.range 16).all fun n => !x.outPulsing n t

/-- Commanding output `n` at instant `t`: an output that energises makes its first pulse TPI_OUT later, or at once after a
cleared fault (R312, R314). -/
def SafState.command (x : SafState) (n t : Nat) : SafState :=
  let o := x.out n
  let w := x.wanted n
  if w = o.cmd then x
  else if w then
    let first := o.cleared && x.noPulse t
    x.setOut n { o with cmd := true, cmdAt := t, cleared := false
                        due := if o.cleared && !first then t else t + x.outInterval n
                        pulse := if first then some t else o.pulse }
  else x.setOut n { o with cmd := false, cmdAt := t }

/-- Commanding every output. -/
def State.safCommand (s : State) : State :=
  s.island fun x => (List.range 16).foldl (fun y n => y.command n y.cyc) x

/-- Reading back the outputs. -/
def State.safReadback (s : State) (rb : Nat) : State :=
  s.island fun x =>
    (List.range 16).foldl (fun y n =>
      let o := y.out n
      y.setOut n { o with rbOff := if !y.outUsed n || bitOf rb n then none
                                   else if o.rbOff.isSome then o.rbOff else some y.cyc }) { x with srb := rb % 65536 }

/-- OUTPUT_FAULT of output `n`; `off` says stuck off or open load (R312). -/
def State.outputFault (s : State) (n : Nat) (off : Bool) : State :=
  if (s.saf.out n).fault then s
  else
    let s := (s.island fun x => x.setOut n { x.out n with fault := true }).safEvent 5 n (b2n off)
    s.safCommand

/-! ## Commissioning (R325, R502) -/

/-- CRC-32 of IEEE 802.3 over a list of bytes. -/
def ieeeBit (c : Nat) : Nat := if c % 2 = 1 then c / 2 ^^^ 0xEDB88320 else c / 2
def ieeeByte (c : Nat) (b : Byte) : Nat :=
  let x := c ^^^ b.toNat
  ieeeBit (ieeeBit (ieeeBit (ieeeBit (ieeeBit (ieeeBit (ieeeBit (ieeeBit x)))))))
def crcIeee (bs : List Byte) : Nat := bs.foldl ieeeByte 0xFFFFFFFF ^^^ 0xFFFFFFFF

/-- Length of a configuration block. -/
def blockLen : Nat := 7684

/-- Bits of word `o` that a block may set; the others are reserved (R502, R313, R316). -/
def blockMask (o : Nat) : Nat :=
  if o = 0 then 0x00FFFFFF
  else if o = 4 ∨ o = 0x1E00 then 0xFFFFFFFF
  else if o = 8 then 0x00FFFFFF
  else if o < 0x10 then 0
  else if o < 0x20 then 0x7FFF
  else if o < 0x80 then 7
  else if o = 0x80 then 0x001F1F0F
  else if o < 0x90 then 0
  else if o < 0x110 then (if o % 8 = 0 then 0x007FFFFF else 0xFFFF)
  else if o < 0x200 then 0
  else if o < 0x1200 then (if o % 16 = 0 then 0xFFFF1F3F else if o % 16 = 12 then 0x0FFFFFFF else 0xFFFFFFFF)
  else if o < 0x1A00 then
    (let k := o % 64
     if k = 0 then 0xFFFF000F else if k = 4 then 0x00FFFFFF else if k = 8 then 0xFFFFFFFF
     else if 0x10 ≤ k ∧ k < 0x30 then 0xFFFFFFFF else 0)
  else if o < 0x1E00 then
    (let k := o % 32
     if k = 0 then 0xFFFF000F else if k = 4 then 0x00FFFFFF else if k = 8 then 0x7FF else 0)
  else 0

/-- Every reserved field of a block is 0. -/
def blockReserved (b : List Byte) : Bool :=
  (List.range 1921).all fun k => cfgWord b (4 * k) &&& blockMask (4 * k) = cfgWord b (4 * k)

/-- An operand of function `f` is in range (R318, R325). -/
def opOk (b : List Byte) (f o : Nat) : Bool :=
  match bitsOf o 13 3 with
  | 0 => bitsOf o 0 13 = 0
  | 1 => bitsOf o 5 8 = 0 && inUsed b (o % 32)
  | 2 => bitsOf o 8 5 = 0 && o % 256 < f
  | 3 => bitsOf o 10 3 = 0 && cfgBits b (0x1A00 + 32 * bitsOf o 5 5) 0 1 = 1
  | 4 => bitsOf o 0 13 = 0
  | _ => false

/-- Function `f` of a block satisfies R316 to R318 and R325. -/
def fnOk (b : List Byte) (f : Nat) : Bool :=
  let g (k lo n : Nat) : Nat := cfgBits b (0x200 + 16 * f + 4 * k) lo n
  let kind := g 0 0 4
  let ops := [g 1 0 16, g 1 16 16, g 2 0 16, g 2 16 16]
  let ri := g 0 8 5
  kind = 0 ||
    (kind ≤ 3 && g 0 4 2 ≤ 1 && (ri = 0x1F || inUsed b ri) && ops.all (opOk b f) &&
      (if kind = 1 then g 0 16 16 = 0 && ops.any opUsed
       else 1 ≤ g 0 16 16 && opUsed (g 1 0 16) && opUsed (g 1 16 16) &&
         !(bitsOf (g 1 0 16) 13 3 = 1 && bitsOf (g 1 16 16) 13 3 = 1 &&
            inSource b (g 1 0 5) = inSource b (g 1 16 5))))

/-- The checks that OFFER makes of a whole block, in order (R325); the number is the model's own. -/
def blockChecks (b : List Byte) : List (Nat × Bool) :=
  let f (o lo n : Nat) : Nat := cfgBits b o lo n
  [(1, b.length = blockLen && f 4 0 32 = blockLen && f 0 0 16 = 0x5343),
   (2, crcIeee (b.take 0x1E00) = blockCrc b),
   (3, f 0 16 8 = 1),
   (4, blockReserved b),
   (5, (List.range 4).all fun k => !srcUsed b k || (f (0x10 + 4 * k) 0 4 ≤ 12 && 1 ≤ f (0x10 + 4 * k) 4 10 &&
        f (0x10 + 4 * k) 4 10 ≤ 100)),
   (6, (List.range 24).all fun n => !inUsed b n || srcUsed b (inSource b n)),
   (7, srcUsed b (inSource b 24) && srcUsed b (inSource b 25) && inSource b 24 != inSource b 25),
   (8, inUsed b (f 0x80 16 5) && (f 0x80 8 5 = 0x1F || inUsed b (f 0x80 8 5))),
   (9, (List.range 16).all fun n =>
        let o := 0x90 + 8 * n
        f o 0 1 = 0 || (f o 1 4 ≤ 12 && 1 ≤ f o 5 10 && f o 5 10 ≤ 600 && 1 ≤ f o 15 6 && f o 15 6 ≤ 40)),
   (10, (List.range 256).all (fnOk b)),
   (11, (List.range 32).all fun c =>
        let o := 0x1A00 + 32 * c
        f o 0 1 = 0 || (1 ≤ f (o + 8) 0 11 && f (o + 8) 0 11 ≤ 1300))]

/-- The first check that a block fails. -/
def blockBad (b : List Byte) : Option Nat := ((blockChecks b).find? fun p => !p.2).map fun p => p.1

/-- Running a configuration: what the configuration decides starts afresh, and every function is at 0. -/
def SafState.run (x : SafState) (b : List Byte) : SafState :=
  let y : SafState := { x with
    cfg := b, fns := [], rx := [], tx := []
    srcs := []
    outs := x.outs.map fun (p : Nat × SafeOut) => (p.1, { p.2 with cmd := false, pulse := none }) }
  (List.range 4).foldl (fun z k => if srcUsed b k then z.setSrc k { SafeSrc.zero with due := z.cyc + z.srcInterval k }
    else z) { y with outs := y.outs.filter fun p => p.2 != SafeOut.zero }

/-- Dropping the pending block; `why` 0 by DISCARD, 1 by the 60 s limit. -/
def State.safDrop (s : State) (why : Nat) : State :=
  if s.saf.pend.isEmpty then s else (s.island fun x => { x with pend := [] }).safEvent 0x10 0 why

/-- A whole block has been offered: the state and whether it is accepted (R325). -/
def State.safOffer (s : State) (b : List Byte) : State × Bool :=
  match blockBad b with
  | some _ => ((s.safEvent 0xF 0 s.freeNat).useFree, false)
  | none =>
    if !s.saf.store.isEmpty && blockCrc b = blockCrc s.saf.store then (s, true)
    else ((s.island fun x => { x with pend := b, pendAt := x.cyc }).safEvent 0xD 0 (blockCrc b), true)

/-- A CONFIRM: accepted while EMO demand stands and within 60 s of the offer, with the pending CRC. SAFE_STATE is left by
island POR only (R303). -/
def State.safConfirm (s : State) (crc : Nat) : State × Bool :=
  let x := s.saf
  if !x.pend.isEmpty && blockCrc x.pend = crc && x.emo && x.cyc - x.pendAt ≤ 60000 * safMs && (x.st = 1 || x.st = 2 || x.st = 4)
  then
    let b := x.pend
    let s := s.safGo 4
    let s := s.island fun y => (({ y with store := b, pend := [] } : SafState).allOff y.cyc).run b
    (s.safEvent 0xE 0 (blockCrc b), true)
  else (s, false)

/-! ## The mailbox (R324) -/

/-- What the island does with a message; whether it takes it without an error code. -/
def State.safMessage (s : State) : MboxMsg → State × Bool
  | .safeFrame path bs => s.safReceive path bs
  | .offer o bs =>
    if 12288 < o + bs.length || bs.isEmpty || s.saf.offer.length < o then (s, false)
    else
      let b := s.saf.offer.take o ++ bs
      if blockLen ≤ b.length then (s.island fun x => { x with offer := [] }).safOffer b
      else (s.island fun x => { x with offer := b }, true)
  | .confirm crc => s.safConfirm crc
  | .discard => (s.safDrop 0, true)
  | .other _ => (s, false)

/-- The island takes the oldest message of the gate and acknowledges it; the words of an acknowledgement are open. An
acknowledgement that finds its sender's wait timed out is late (R81). -/
def State.safTake (s : State) : State :=
  match s.saf.gate with
  | [] => s
  | (u, m) :: t =>
    let s := s.island fun x => { x with gate := t }
    let r := s.safMessage m
    let s := r.1
    let o := 0x1800 + 16 * (s.saf.acks % 128)
    let s := s.each (List.range 4) fun v k => (v.winW (o + 4 * k) v.freeNat).useFree
    let s := s.island fun x => { x with acks := x.acks + 1, ackError := !r.2 }
    let s := (if r.2 then s else s.incFld SAF_MBOX.REJECTED).shpIsland (s.saf.acks - 1)
    match u with
    | some k => if (s.timeout k).isSome then s.setTimeout k none else s.incFld SCH_EVT_LATE.LATE_EVENT
    | none => s

/-- A message reaches the gate (R324): refused at once when the gate is full; its sender waits under a time-out unit. The
answer says whether the gate took it. -/
def State.mbox (s : State) (m : MboxMsg) : State × Bool :=
  if !s.runs Vale.fabric then (s, false)
  else if 32 ≤ s.saf.gate.length then (s.incFld SAF_MBOX.REFUSED, false)
  else
    let u := ((List.range 8).map fun k => 72 + k).find? fun k => (s.timeout k).isNone
    let s := match u with
      | some k => s.setTimeout k (some s.short)
      | none => s
    (s.island fun x => { x with gate := x.gate ++ [(u, m)] }, true)

/-! ## The commands -/

/-- ISLAND_POR (R299, R303, R491): the VDD_SAFE monitor resets the island; the store keeps its contents. -/
def execIslandPor (s : State) : Res :=
  let g := s.saf.gate
  .next ({ s with vales := { s.vales with vddSafe := false } }.island fun x =>
    { SafState.zero x.store with por := true, gate := g })

/-- ISLAND_POR_RELEASE (R491): the island starts in START. -/
def execIslandPorRelease (s : State) : Res :=
  if s.saf.por then
    .next ({ s with vales := { s.vales with vddSafe := true } }.island fun x => { x with por := false, st := 0 })
  else .next s

/-- SELF_TEST_DONE (R303): the configuration is loaded from the store, its CRC checked. -/
def execSelfTestDone (s : State) : Res :=
  if s.saf.por || s.saf.st != 0 then .next s
  else
    let b := s.saf.store
    if b.length = blockLen && crcIeee (b.take 0x1E00) = blockCrc b then .next ((s.island fun x => x.run b).safGo 2)
    else .next (s.safGo 1)

/-- SCAN (R304). -/
def execIslandScan (inputs emo readback : Nat) (clockOk : Bool) (s : State) : Res :=
  if s.saf.por then .next s
  else
    let s := s.island fun x => { x with scan := (x.scan + 1) % 2 ^ 32, cyc := x.cyc + scanCycles }
    if s.saf.st = 0 then .next s.safPublish
    else
      let s := if !clockOk then s.safFault 0
        else if s.saf.outs.any fun p => p.2.latch then s.safFault 1 else s
      let s := s.island fun x => x.evaluated.foldl (fun y n =>
        y.sample n (if n = 24 then bitOf emo 0 else if n = 25 then bitOf emo 1 else bitOf inputs n)) x
      let s := s.safOverdue
      let ps := s.saf.pressed.2
      let s := s.island fun x => x.pressed.1
      let s := (s.safReadback readback).each (List.range 32) fun t _ => t.safTake
      let s := (s.safReset ps).safEmo ps
      let s := if s.saf.st = 4 && !s.saf.emo then
          (s.island fun x => { x with fns := [] }).safGo 2
        else s
      let s := s.safDerive
      let s := s.each (List.range 256) fun t f => t.safEvalFn ps f
      let s := s.safCommand
      .next s.safPublish.safEventFrames

/-- INPUT_TEST_PULSE (R306): a source due begins its pulse, or postpones it while a filter of its inputs holds a pending
change; the pulses of different sources never overlap. -/
def execInputTestPulse (source offset : Nat) (s : State) : Res :=
  let x := s.saf
  let t := x.cyc + offset % scanCycles
  let c := x.src source
  if x.por || x.st = 0 || 4 ≤ source || !srcUsed x.cfg source || t < c.due then .next s
  else if ((List.range 4).any fun k => x.pulsing k t) then .next s
  else if (x.fedBy source).any fun n => (x.inp n).pend.isSome then
    .next (s.island fun y => y.setSrc source { c with postponed := true })
  else
    .next (s.island fun y => y.setSrc source { start := some t, due := t + y.srcInterval source, postponed := false })

/-- INPUT_TEST_SAMPLE (R306): every input of the source whose accepted level is 1 must read 0. -/
def execInputTestSample (source inputs emo : Nat) (s : State) : Res :=
  if s.saf.por || (s.saf.src source).start.isNone then .next s
  else
    .next (s.each (s.saf.fedBy source) fun t n =>
      let raw := if n = 24 then bitOf emo 0 else if n = 25 then bitOf emo 1 else bitOf inputs n
      let i := t.saf.inp n
      let t1 := t.island fun y => y.setIn n { i with bad := raw }
      if raw && i.level then t1.inputFault n false else t1)

/-- OUTPUT_TEST_PULSE (R310): an energised output due starts its off-pulse, one output at a time. -/
def execOutputTestPulse (output offset : Nat) (s : State) : Res :=
  let x := s.saf
  let t := x.cyc + offset % scanCycles
  let o := x.out output
  if x.por || 16 ≤ output || !o.cmd || t < o.due || !x.noPulse t then .next s
  else .next (s.island fun y => y.setOut output { o with pulse := some t, due := t + y.outInterval output })

/-- OUTPUT_PULSE_CHECK (R310): a readback that shows energised during the pulse is stuck on. -/
def execOutputPulseCheck (output : Nat) (energised : Bool) (s : State) : Res :=
  if !s.saf.por && output < 16 && (s.saf.out output).pulse.isSome && energised then .next (s.outputFault output false)
  else .next s

/-- OUTPUT_FAULT (R311): a readback that has differed from the command beyond RB_T. -/
def execOutputFault (output : Nat) (energised : Bool) (offset : Nat) (s : State) : Res :=
  let x := s.saf
  let t := x.cyc + offset % scanCycles
  let o := x.out output
  if x.por || !x.outUsed output || x.outPulsing output t || energised = o.cmd || t ≤ o.cmdAt + x.rbTime output then .next s
  else .next (s.outputFault output o.cmd)

/-- KEEPALIVE_EXPIRY (R301): the driver de-energises its output and latches that it did. -/
def execKeepaliveExpiry (output : Nat) (s : State) : Res :=
  if s.saf.por || 16 ≤ output || !(s.saf.out output).cmd then .next s
  else .next (s.island fun x => x.setOut output { x.out output with latch := true })

/-- LOCKSTEP_FAULT (R300). -/
def execLockstepFault (s : State) : Res := if s.saf.por then .next s else .next (s.safFault 1)

/-- MEMORY_FAULT (R300). -/
def execMemoryFault (s : State) : Res := if s.saf.por then .next s else .next (s.safFault 2)

/-- CONFIG_CRC_CHECK (R300): `crc` is the CRC recomputed over the configuration in the SRAM. -/
def execConfigCrcCheck (crc : Nat) (s : State) : Res :=
  if s.saf.por || s.saf.cfg.isEmpty || crc = blockCrc s.saf.cfg then .next s else .next (s.safFault 3)

/-- SAFE_SUPPLY_FAULT (R300): SUPPLY or TEMP. -/
def execSafeSupplyFault (temp : Bool) (s : State) : Res :=
  if s.saf.por then .next s else .next (s.safFault (if temp then 5 else 4))

/-- EMO_DISCREPANCY (R315): the channels have differed for more than 500 ms. -/
def execEmoDiscrepancy (s : State) : Res :=
  let x := s.saf
  match x.emoDiffer with
  | some t =>
    if !x.por && !x.emoDisc && 500 * safMs < x.cyc + scanCycles - t then
      .next ((s.island fun y => { y with emoDisc := true, emoZeroed := false }).safEvent 8 0 1)
    else .next s
  | none => .next s

/-- DISCREPANCY (R317): OP0 and OP1 have differed for more than DISC; the raw result of 0 latches and demands at once. -/
def execDiscrepancy (function : Nat) (s : State) : Res :=
  let x := s.saf
  let v := x.fn function
  match v.differ with
  | some t =>
    if !x.por && !v.disc && x.fnWord function 0 16 16 * safMs < x.cyc + scanCycles - t then
      let v1 : SafeFn := { v with disc := true, zeroed := false, result := false, rawAt := none }
      let s := s.island fun y => y.setFn function (v1.follow (x.fnWord function 3 16 12) x.cyc)
      .next (s.safEvent 9 function 1).safCommand
    else .next s
  | none => .next s

/-- FUNCTION_DELAY_EXPIRY (R317): the outputs the function governs de-energise. -/
def execFunctionDelayExpiry (function : Nat) (s : State) : Res :=
  let x := s.saf
  let v := x.fn function
  match v.delay with
  | some t =>
    if !x.por && x.fnWord function 3 16 12 * 10 * safMs ≤ x.cyc + scanCycles - t then
      .next (s.island fun y => y.setFn function { v with permit := false, delay := none }).safCommand
    else .next s
  | none => .next s

/-- SAFE_FRAME_SEND (R320). -/
def execSafeFrameSend (s : State) : Res :=
  if s.saf.por || s.saf.st = 0 then .next s else .next (s.each s.saf.txUsed fun t c => t.safSend 0 c)

/-- MAILBOX_MESSAGE (R324). -/
def execMailboxMessage (sender : Nat) (msg : MboxMsg) (s : State) : Res :=
  if 3 ≤ sender then .next s else .next (s.mbox msg).1

/-- PATH_SILENT (R321): a path that has accepted no frame for 4 ms clears every bit of the connection. -/
def execPathSilent (connection path : Nat) (s : State) : Res :=
  let x := s.saf
  let r := x.rxc connection
  let p := if path = 0 then r.p0 else r.p1
  match p.accepted with
  | some t =>
    if !x.por && p.live && path ≤ 1 && 16 * scanCycles ≤ x.cyc + scanCycles - t then
      let q : SafePath := { p with live := false }
      let r1 := if path = 0 then { r with p0 := q } else { r with p1 := q }
      .next ((s.island fun y => y.setRx connection { r1 with bits := 0, differ := [] }).safEvent 0xB connection path)
    else .next s
  | none => .next s

/-- FRAME_MISMATCH (R321): bits on which the paths have disagreed for 4 ms become 0. -/
def execFrameMismatch (connection : Nat) (s : State) : Res :=
  let x := s.saf
  let r := x.rxc connection
  let due := r.differ.filterMap fun p => match p.2 with
    | some t => if 16 * scanCycles ≤ x.cyc + scanCycles - t then some p.1 else none
    | none => none
  if x.por || due.isEmpty then .next s
  else
    .next ((s.island fun y => y.setRx connection { r with bits := due.foldl (fun a b => putBits a b 1 0) r.bits }).safEvent
      0xC connection 0)

/-- CONFIG_DROPPED (R325): 60 s after the offer. -/
def execConfigDropped (s : State) : Res :=
  if !s.saf.por && 60000 * safMs ≤ s.saf.cyc + scanCycles - s.saf.pendAt then .next (s.safDrop 1) else .next s

/-- ISLAND_PFAIL (R313). -/
def execIslandPfail (s : State) : Res :=
  if s.saf.por || s.saf.pf then .next s else .next ((s.island fun x => { x with pf := true }).safEvent 0x11 0 1)

/-- ISLAND_PFAIL_RETURN (R313). -/
def execIslandPfailReturn (s : State) : Res :=
  if s.saf.por || !s.saf.pf then .next s else .next ((s.island fun x => { x with pf := false }).safEvent 0x11 0 0)

/-- MAILBOX_TIMEOUT (R324, R80): the sender's wait ends without an acknowledgement. -/
def execMailboxTimeout (unit : Nat) (s : State) : Res :=
  if 72 ≤ unit && unit < 80 then .next (s.setTimeout unit none) else .next s

end Sys2Proof.Machine
end

