-- ==== Sys2Proof/Machine/Cascade.lean ====
section
/-!
DEFINITION. Machine/Cascade.lean: the cascade links: bring-up, versions, frames and credits, transit, beacons, loss of the
master, signals across the cascade (chapter 14).
-/

namespace Sys2Proof.Machine

/-! ## Ports and routes -/

/-- Changing the cascade's and the pair's state. -/
def State.modCas (s : State) (f : CasState → CasState) : State := { s with cas := f s.cas }
def State.modPair (s : State) (f : PairState → PairState) : State := { s with pair := f s.pair }

/-- Port `p`. -/
def State.casPort (s : State) (p : Nat) : CasPort := Sparse.get (fun _ => CasPort.zero) s.cas.ports p
def State.setCasPort (s : State) (p : Nat) (v : CasPort) : State :=
  s.modCas fun c => { c with ports := Sparse.set (fun _ => CasPort.zero) c.ports p v }

/-- This device's cascade position (CASC_POS[5:0]). -/
def State.myPos (s : State) : Nat := s.unitc.cascPos % 64

/-- The device is in a cascade (R341). -/
def State.casOn (s : State) : Bool := s.fld CAS_CFG.PORT_EN != 0

/-- Port `p` is enabled, its link is UP, it is the pair link. -/
def State.portEn (s : State) (p : Nat) : Bool := p < 4 && s.bit CAS_CFG.PORT_EN p && s.runs Vale.link
def State.portUp (s : State) (p : Nat) : Bool := p < 4 && s.fld (CAS_PORT_STAT.STATE p) = 3
def State.isPairPort (s : State) (p : Nat) : Bool := s.flag PAIR_CFG.EN && s.fld PAIR_CFG.LINK = p

/-- The route to position `d`. -/
def State.route (s : State) (d : Nat) : Option Route := s.cas.routes.find? fun r => r.pos = d

/-- The port a frame for position `d` takes: the primary while its link is UP, and the alternate otherwise (R342). -/
def State.routePort (s : State) (d : Nat) : Option Nat :=
  (s.route d).map fun r => if s.portUp r.primary then r.primary else r.alternate

/-- Some route to position `d` is UP. -/
def State.routeUp (s : State) (d : Nat) : Bool :=
  match s.route d with
  | some r => s.portUp r.primary || s.portUp r.alternate
  | none => false

/-- CAS_REACH follows the links. -/
def State.casReach (s : State) : State :=
  let s1 := s.setFld CAS_REACH_LO.REACH (bitsWhere 32 s.routeUp)
  s1.setFld CAS_REACH_HI.REACH (bitsWhere 32 fun p => s1.routeUp (p + 32))

/-- Versions offered: VMIN and VMAX, 0 acting as 1. -/
def State.casVmin (s : State) : Nat := max 1 (s.fld CAS_CFG.VMIN)
def State.casVmax (s : State) : Nat := max 1 (s.fld CAS_CFG.VMAX)

/-- A frame enters the queue of port `p`. -/
def State.casQueue (s : State) (p : Nat) (f : CasFrame) : State :=
  let c := s.casPort p
  s.setCasPort p { c with queue := c.queue ++ [f] }

/-- A frame of this device's own for position `d`; one for its own position is not sent. -/
def State.casSend (s : State) (d ty cls len : Nat) (words : List Nat) : State :=
  if d = s.myPos then s
  else match s.routePort d with
    | some p => s.casQueue p { ty := ty, cls := cls, terrace := 0, dest := d, src := s.myPos, len := len, seq := 0, words := words }
    | none => s

/-- As `casSend`, for a frame whose payload the spec does not lay out: its length is open. -/
def State.casSendOpen (s : State) (d ty cls : Nat) (words : List Nat) : State :=
  (s.casSend d ty cls (s.freeNat % 2037) words).useFree

/-- A frame over the pair link. -/
def State.pairSend (s : State) (ty cls : Nat) (words : List Nat) : State :=
  let p := s.fld PAIR_CFG.LINK
  if s.flag PAIR_STAT.LINK_UP then
    (s.casQueue p { ty := ty, cls := cls, terrace := 0, dest := s.myPos, src := s.myPos, len := s.freeNat % 2037, seq := 0,
                    words := words }).useFree
  else s

/-! ## Pass commits and answers (R349) -/

/-- The words of a PASS_COMMIT. -/
def PassMsg.words (m : PassMsg) : List Nat :=
  let t := boundaryNs m.start
  let k := match m.kind with | 0 => 0 | 1 => 1 | 2 => 2 | 3 => 3 | 4 => 4 | 5 => 5 | _ => 6
  [k + 256 * (m.spanSeq % 64) + 65536 * (m.attempt % 65536), m.from_ % 65536 + 65536 * (m.target % 65536),
   secOf t % 2 ^ 32, secOf t / 2 ^ 32, nsOf t, m.arg % 65536]

/-- The link engine takes the commit entries and the answers that wait (R57): one copy per position. -/
def State.casCollect (s : State) : State :=
  let s := s.each (List.range 64) fun t q =>
    match (t.ctx q).send with
    | none => t
    | some m =>
      let t := t.modCtx q fun c => { c with send := none }
      t.each m.members fun u d => u.casSend d 0x11 1 24 m.words
  let as := s.seq.answers
  let s := { s with seq := { s.seq with answers := [] } }
  s.each as fun t a =>
    t.casSend 0 0x12 1 8 [256 * t.hSpanSeq a.1 + 65536 * (a.2.2 % 65536), a.2.1 + 65536 * (t.ctx a.1).step]

/-! ## Credits (R348) -/

/-- Lines of a frame: header, payload and CRC in 64-byte lines. -/
def CasFrame.lines (f : CasFrame) : Nat := (8 + f.len + 4 + 63) / 64

/-- The pool that a frame of class `c` at terrace `h` spends on a link of version `v`, and its lines. -/
def creditPool (v c h : Nat) : Nat × Nat :=
  if v = 1 then (if c = 1 then (64, 384) else (128, 704))
  else if v = 2 then (64 * c, if c = 1 then 384 else if c = 2 then 64 else if c = 5 then 128 else 256)
  else (64 * c + h, if 1 < h then 32 else if c = 1 then 384 else if c = 2 then 64 else if c = 5 then 128 else 256)

/-- Frame `f` may be sent on port `p` now: the version carries it, and its credit is present. A link of version 1 or 2
carries only this device's own frames (R344). -/
def State.casMay (s : State) (p : Nat) (f : CasFrame) : Bool :=
  let v := s.fld (CAS_PORT_STAT.VERSION p)
  let pool := creditPool v f.cls (f.terrace + 1)
  let carried := v = 3 || (f.src = s.myPos && f.ty != 0x20 && f.ty != 0x21 && f.ty != 0x22 && f.ty != 0x41 &&
    (v = 2 || (f.ty != 0x13 && f.ty != 0x30)))
  carried && Sparse.get (fun _ => 0) (s.casPort p).spent pool.1 + f.lines ≤ pool.2

/-- The first frame of class `c` that may be sent. -/
def State.casNext (s : State) (p c : Nat) : Option CasFrame := (s.casPort p).queue.find? fun f => f.cls = c && s.casMay p f

/-- Classes in the order in which port `p` serves them: class 1 first, then 2 to 5 in round robin (R347). -/
def CasPort.order (c : CasPort) : List Nat :=
  1 :: ((List.range 4).map fun k => 2 + (c.rr - 2 + 1 + k) % 4)

/-- Sending frame `f` on port `p`; a TIME frame takes its transmit instant as it leaves (R361). -/
def State.casTransmit (s : State) (p : Nat) (f : CasFrame) : State :=
  let c := s.casPort p
  let v := s.fld (CAS_PORT_STAT.VERSION p)
  let pool := (creditPool v f.cls (f.terrace + 1)).1
  let n := Sparse.get (fun _ => 0) c.seq f.cls
  s.setCasPort p { c with
    queue := c.queue.erase f
    spent := Sparse.set (fun _ => 0) c.spent pool (Sparse.get (fun _ => 0) c.spent pool + f.lines)
    seq := Sparse.set (fun _ => 0) c.seq f.cls ((n + 1) % 65536)
    rr := if f.cls = 1 then c.rr else f.cls
    wire := some { f with terrace := f.terrace + 1, seq := n, words := if f.ty = 0x15 then s.ns :: f.words else f.words } }

/-! ## The commands of a link -/

/-- LINK_SIGNAL_DETECT (R343). -/
def execLinkSignalDetect (port : Nat) (s : State) : Res :=
  if s.portEn port && s.fld (CAS_PORT_STAT.STATE port) = 0 then
    .next ((s.setFld (CAS_PORT_STAT.STATE port) 1).setFld (CAS_PORT_STAT.PAIR port) (b2n (s.isPairPort port)))
  else .next s

/-- BLOCK_LOCK (R343). -/
def execBlockLock (port : Nat) (s : State) : Res :=
  if s.portEn port && s.fld (CAS_PORT_STAT.STATE port) = 1 then .next (s.setFld (CAS_PORT_STAT.STATE port) 2) else .next s

/-- HELLO_SEND (R343): a HELLO leaves the port; it uses no credit. -/
def execHelloSend (port : Nat) (s : State) : Res :=
  if s.portEn port && (s.fld (CAS_PORT_STAT.STATE port) = 2 || s.fld (CAS_PORT_STAT.STATE port) = 4) then
    let f : CasFrame := { ty := 1, cls := 0, terrace := 0, dest := s.myPos, src := s.myPos, len := s.freeNat % 2037, seq := 0,
                          words := [s.casVmin, s.casVmax, s.myPos, s.fld SIG_NODE.NODE, s.unitc.uid0, s.unitc.uid1] }
    .next (s.setCasPort port { s.casPort port with wire := some f }).useFree
  else .next s

/-- A unit steps down (R339): NOT_READY, outputs in their hardware reset states, ACT_OUT low. -/
def State.pairStepDown (s : State) : State :=
  let s := s.setFld PAIR_STAT.ROLE 5
  let s := s.each s.heldUnits fun t i => (t.setDriven i none).setHeld i false
  let s := s.modPair fun p => { p with stepAt := none, switchAt := none, actOut := false, resync := s.flag PAIR_CFG.AUTO, good := 0 }
  let s := if s.fld PAIR_CFG.ACT_OUT < 160 then s.setLine (s.fld PAIR_CFG.ACT_OUT) false else s
  (s.driveAll.setFld PAIR_STAT.HELD 0).post 0x14 5 true [0]

/-- This unit's SYS_UID as one number. -/
def State.myUid (s : State) : Nat := s.unitc.uid0 + 2 ^ 32 * s.unitc.uid1

/-- The unit is active: ACTIVE or SOLO. -/
def State.pairActive (s : State) : Bool := s.fld PAIR_STAT.ROLE = 1 || s.fld PAIR_STAT.ROLE = 2

/-- The pair link comes UP: of two active units the one that became active later steps down, at the same boundary the one
with the higher SYS_UID; where the IMAGE_IDs differ there is no pair, and a unit already ACTIVE stays ACTIVE (R330). -/
def State.pairMeet (s : State) (peer : PairPeer) : State :=
  let s := (s.modPair fun p => { p with peer := some peer }).setFld PAIR_STAT.LINK_UP 1
  if s.pairActive && peer.image != s.jrn.imageId then s.setFld PAIR_STAT.IMAGE_MISMATCH 1
  else if s.pairActive && peer.role = 1 then
    if peer.since < s.pair.since || (peer.since = s.pair.since && peer.uid < s.myUid) then s.pairStepDown else s
  else s

/-- HELLO (R343, R344): the version is the highest that both ranges contain; credits are reset on entry to UP. The pair link
runs version 3. -/
def execLinkHello (port vmin vmax pos node uid role : Nat) (strap : Bool) (image : List Byte) (since : Nat) (s : State) : Res :=
  let st := s.fld (CAS_PORT_STAT.STATE port)
  if !s.portEn port || !(st = 2 || st = 4 || st = 5) || 2 ^ 18 ≤ node then .next s
  else
    let lo := max s.casVmin vmin
    let hi := min s.casVmax vmax
    let pair := s.isPairPort port
    let s := (s.setFld (CAS_PORT_STAT.PEER_POS port) pos).setFld (CAS_PORT_STAT.PEER_ROLE port) role
    if pos = s.myPos && !pair then .next (s.setFld (CAS_PORT_STAT.STATE port) 5)
    else if hi < lo || (pair && hi < 3) then .next (s.setFld (CAS_PORT_STAT.STATE port) 4)
    else
      let s := ((s.setFld (CAS_PORT_STAT.STATE port) 3).setFld (CAS_PORT_STAT.VERSION port) hi).setCasPort port
        { s.casPort port with spent := [] }
      let s := s.casReach
      .next (if pair then s.pairMeet { role := role, strap := strap, uid := uid, image := image, since := since } else s)

/-- A link port falls back to DOWN (R343). -/
def State.linkLoss (s : State) (port : Nat) : State :=
  let st := s.fld (CAS_PORT_STAT.STATE port)
  if !s.portEn port || st = 0 then s
  else
    let s := if st = 3 then s.incFld (CAS_PORT_STAT.RETRAIN port) else s
    let s := (s.setFld (CAS_PORT_STAT.STATE port) 0).setFld (CAS_PORT_STAT.VERSION port) 0
    let s := if s.isPairPort port then s.setFld PAIR_STAT.LINK_UP 0 else s
    s.casReach

/-- BLOCK_LOCK_LOSS (R343). -/
def execBlockLockLoss (port : Nat) (s : State) : Res := .next (s.linkLoss port)

/-- CREDIT (R348): the partner returns receive credit. -/
def execCreditFrame (port cls terrace lines : Nat) (s : State) : Res :=
  if s.portUp port then
    let c := s.casPort port
    let pool := (creditPool (s.fld (CAS_PORT_STAT.VERSION port)) cls terrace).1
    .next (s.setCasPort port { c with spent := Sparse.mod (fun _ => 0) c.spent pool fun n => n - lines })
  else .next s

/-- LINK_TRANSMIT (R347): the next frame that has credit, class 1 first. -/
def execLinkTransmit (port : Nat) (s : State) : Res :=
  let s := s.casCollect
  if !s.portUp port then .next s
  else
    match (s.casPort port).order.findSome? fun c => s.casNext port c with
    | some f => .next (s.casTransmit port f)
    | none => .next s

/-- CAS_FRAME_TRANSIT (R342, R344, R57): forwarded with its terrace raised, or discarded where it would reach terrace 64. -/
def execCasFrameTransit (port : Nat) (frame : CasFrame) (s : State) : Res :=
  if !s.portUp port || s.isPairPort port || frame.dest = s.myPos || s.fld (CAS_PORT_STAT.VERSION port) != 3 then .next s
  else if 63 ≤ frame.terrace then .next (s.incFld CAS_DROP.TERRACE)
  else
    match s.routePort frame.dest with
    | some p => .next (s.casQueue p frame)
    | none => .next s

/-- CAS_FRAME_BAD (R346). -/
def execCasFrameBad (port : Nat) (s : State) : Res := if s.portUp port then .next (s.incFld CAS_DROP.BAD) else .next s

/-- CAS_CLR_COUNTS. -/
def execCasClrCounts (s : State) : Res :=
  .next (s.clrRegs [CAS_DROP, CAS_LATE] |>.setFld CAS_MASTER.LOST 0 |>.each (List.range 4) fun t p =>
    t.setFld (CAS_PORT_STAT.RETRAIN p) 0)

/-! ## Beacons and loss of master (R350) -/

/-- This device is master: position 0, and the active unit where that position holds a pair (R341). -/
def State.casMaster (s : State) : Bool := s.casOn && s.myPos = 0 && !s.pairHolds

/-- The member positions of the spans this device masters. -/
def State.memberPositions (s : State) : List Nat :=
  (((List.range 64).filter s.seqMaster).flatMap s.hMembers).eraseDups

/-- A beacon to every member position. -/
def State.casBeacons (s : State) : State :=
  s.each s.memberPositions fun t d => t.casSendOpen d 0x10 1 [t.unitc.uid0, t.unitc.uid1]

/-- A frame boundary: the master sends its beacons, a member counts those it missed. -/
def State.casFrame (s : State) : State :=
  if !s.casOn then s
  else if s.casMaster then (s.setFld CAS_MASTER.SELF 1).casBeacons
  else
    let s := s.setFld CAS_MASTER.SELF 0
    if s.cas.beacon then
      ((s.setFld CAS_MASTER.MISSED 0).setFld CAS_MASTER.PRESENT 1).modCas fun c => { c with beacon := false }
    else
      let s := s.incFld CAS_MASTER.MISSED
      let s := if max 4 (s.fld CAS_CFG.MASTER_TMO) ≤ s.fld CAS_MASTER.MISSED then s.setFld CAS_MASTER.PRESENT 0 else s
      if s.cas.lost then s.modCas fun c => { c with lostFrames := c.lostFrames + 1 } else s

/-- BEACON (R350): a new SYS_UID makes the member re-send a PASS_ACK for every commit it holds. -/
def execBeacon (uid : Nat) (s : State) : Res :=
  if !s.casOn || s.casMaster then .next s
  else
    let fresh := s.cas.master != some uid
    let s := s.modCas fun c => { c with master := some uid, beacon := true, lost := false, lostFrames := 0, aborted := false }
    let s := (s.setFld CAS_MASTER.PRESENT 1).setFld CAS_MASTER.MISSED 0
    if fresh then
      .next (s.each (List.range 64) fun t q => t.each (t.ctx q).rx fun u m => u.passAnswer q 0 m.attempt)
    else .next s

/-- MASTER_LOST (R350): MASTER_TMO consecutive beacons missed. -/
def execMasterLost (s : State) : Res :=
  if !s.casOn || s.casMaster || s.cas.lost || s.fld CAS_MASTER.MISSED < max 4 (s.fld CAS_CFG.MASTER_TMO) then .next s
  else
    let s := s.modCas fun c => { c with lost := true, lostFrames := 0, aborted := false }
    .next (((s.setFld CAS_MASTER.PRESENT 0).incFld CAS_MASTER.LOST).post 0x15 1 true [0])

/-- MASTER_LOST_ABORT (R350): each span share in RUNNING or HELD goes to the PASS_PATH of its step at its next boundary. -/
def execMasterLostAbort (s : State) : Res :=
  if !s.cas.lost || s.cas.aborted || s.cas.lostFrames < s.fld CAS_CFG.ABORT_TMO then .next s
  else
    let s := s.modCas fun c => { c with aborted := true }
    .next (s.each (List.range 64) fun t q =>
      let c := t.ctx q
      if t.seqMember q && (c.state = seqRunning || c.state = seqHeld) then
        (t.modCtx q fun c => { c with state := seqAborting }).seqPend q 4 (0x8000 + c.passPath) 9 (t.evalTick + 1) false
      else t)

/-! ## Deliveries -/

/-- SAFE (R346): the frame is handed to the mailbox gate. -/
def execSafeFrame (path : Nat) (bytes : List Byte) (s : State) : Res := .next (s.mbox (.safeFrame path bytes)).1

/-- Cascade position in a LINK entry's ORIGIN (R102). -/
def State.originPos (s : State) (i : Nat) : Nat := bitsOf (s.sigOrigin i) 14 6

/-- SIGNAL (R351): the consumer writes each value to the output-plane word of its LINK entry; one written after output close
is parked and counted. -/
def execSignalFrame (pos : Nat) (values : List (Nat × Word)) (s : State) : Res :=
  if !s.casOn then .next s
  else
    let s := s.modCas fun c => { c with got := pos :: c.got.erase pos }
    .next (s.each values fun t v =>
      if t.sigUsed v.1 && t.sigSource v.1 = 0x0E then
        let t := if t.parking then t.incFld CAS_LATE.COUNT else t
        t.putSig v.1 v.2.toNat
      else t)

/-- The groups of LINK entries at output close: GOOD where the tick received the source's frame, STALE otherwise, FAULT while
no route to the source is UP (R351). -/
def State.casOutputClose (s : State) : State :=
  let s1 := s.each (s.groupsOf 0x0E) fun t g =>
    let d := t.originPos (g.2.headD 0)
    let st := if !t.routeUp d then 2 else if t.cas.got.contains d then 0 else 1
    t.putGrp g.1 st (if st = 0 then t.short else t.pw (t.grpOutAt g.1 + 4))
  s1.modCas fun c => { c with got := [] }

/-- After input close the exported words go out, one frame per consuming position (R351). -/
def State.casExport (s : State) : State :=
  if !s.casOn then s
  else
    let ds := (s.cas.exports.flatMap fun e => e.2).eraseDups
    s.each ds fun t d =>
      let es := t.cas.exports.filter fun e => e.2.contains d
      t.casSendOpen d 0x14 1 (es.map fun e => t.cur e.1)

/-- SHP_FWD (R328): a request that the partner forwards; this unit answers for the place. -/
def execShpFwd (request : List Byte) (s : State) : Res :=
  if s.flag PAIR_STAT.LINK_UP then .next (s.modPair fun p => { p with fwd := request }) else .next s

end Sys2Proof.Machine
end

