-- ==== Sys2Proof/Machine/Pair.lean ====
section
/-!
DEFINITION. Machine/Pair.lean: the redundant pair: election, tick records, the comparison of outputs, switch-over and
resynchronisation (chapter 14).
-/

namespace Sys2Proof.Machine

/-- SILENT, PERSIST and ELECT as they act. -/
def State.pairSilent (s : State) : Nat := min 8 (max 2 (s.fld PAIR_CFG.SILENT))
def State.pairPersist (s : State) : Nat := max 1 (s.fld PAIR_CFG.PERSIST)

/-! ## Election (R330) -/

/-- The unit becomes ACTIVE (1) or SOLO (2) from the next boundary. -/
def State.pairBecome (s : State) (role : Nat) : State :=
  (s.setFld PAIR_STAT.ROLE role).modPair fun p => { p with since := s.time.tick + 1, resync := false }

/-- The unit becomes a standby: it discards the state it restored. -/
def State.pairStand (s : State) (resync : Bool) : State :=
  let s := s.setFld PAIR_STAT.ROLE 5
  let s := { s with seq := { s.seq with ctx := [], ramps := [], commitAt := none, resumeSlot := false },
                    sig := { s.sig with taken := [], held := [] } }
  (s.modPair fun p => { p with resync := resync || s.flag PAIR_CFG.AUTO, good := 0 }).driveAll

/-- This unit is the one that the straps, or at equal straps the lower SYS_UID, make active. -/
def State.pairPreferred (s : State) (peer : PairPeer) : Bool :=
  if s.pair.strap = peer.strap then s.myUid < peer.uid else s.pair.strap

/-- ELECTION. -/
def execPairElection (s : State) : Res :=
  let r := s.fld PAIR_STAT.ROLE
  if !s.flag PAIR_CFG.EN || !s.committed || s.fld JRN_STATE.STATE = 1 || !(r = 0 || r = 6) then .next s
  else if s.flag PAIR_STAT.LINK_UP then
    match s.pair.peer with
    | none => .next s
    | some p =>
      if p.image != s.jrn.imageId then
        let s := s.setFld PAIR_STAT.IMAGE_MISMATCH 1
        .next (if s.pairPreferred p && p.role != 1 then s.pairBecome 1 else s.setFld PAIR_STAT.ROLE 5)
      else if p.role = 1 then .next (s.pairStand true)
      else if s.pairPreferred p then .next (s.pairBecome 1)
      else .next (s.pairStand false)
  else if s.flag PAIR_STAT.ACT_SEEN then .next (s.setFld PAIR_STAT.ROLE 6)
  else .next (s.pairBecome 2)

/-! ## What the active sends (R332) -/

/-- The commits not yet applied. -/
def State.openCommits (s : State) : List PassMsg :=
  (List.range 64).flatMap fun q =>
    let c := s.ctx q
    let sp := if s.seqMember q then s.hSpanSeq q else q
    c.commits.map fun x =>
      { kind := x.kind, spanSeq := sp, from_ := c.step, target := x.target, start := x.start, attempt := 1, arg := 0,
        members := s.hMembers q }

/-- The tick record of this tick. -/
def State.tickRec (s : State) : TickRec :=
  { tick := s.time.tick
    words := s.heldUnits.filterMap fun i => (s.driven i).map fun w => (i, w)
    seqs := ((List.range 64).filter fun q => (s.ctx q).state != seqIdle).map fun q =>
      let c := s.ctx q
      { seq := q, st := c.state, step := c.step, elapsed := c.elapsed, deferred := c.pend.isSome }
    commits := s.openCommits
    strobes := s.log.strobes
    forces := s.pair.forces }

/-- After input close the active unit sends its record. -/
def State.pairSendTick (s : State) : State :=
  if s.flag PAIR_CFG.EN && s.pairActive && s.committed then
    let r := s.tickRec
    (s.pairSend 0x20 1 (r.tick :: r.words.map fun w => w.2.toNat)).modPair fun p => { p with sent := some r, forces := [] }
  else s

/-! ## What the standby takes (R331 to R333, R340) -/

/-- The standby holds the records of the last SILENT boundaries. -/
def State.pairHasRecs (s : State) : Bool :=
  match s.pair.recs with
  | [] => false
  | t :: _ => (List.range s.pairSilent).all fun k => k ≤ t && s.pair.recs.contains (t - k)

/-- SYNCING becomes READY after eight valid records with the tick records at hand (R340). -/
def State.pairReadyCheck (s : State) : State :=
  if s.fld PAIR_STAT.ROLE = 4 && 8 ≤ s.pair.good && s.pairHasRecs then s.setFld PAIR_STAT.ROLE 3 else s

/-- TICK_REC: the standby takes the record; its force requests enter the force table. -/
def execTickRec (record : TickRec) (s : State) : Res :=
  if !s.pairStandby then .next s
  else
    let s := s.modPair fun p =>
      { p with recs := (record.tick :: p.recs).take 16, last := some record, load := some record }
    let s := { s with log := { s.log with strobes := record.strobes } }
    let s := s.each record.forces fun t f =>
      match f.2 with
      | some w => (t.forceSet f.1 w).1
      | none => (t.forceRelease f.1).1
    .next s.pairReadyCheck

/-- A word of a line. -/
def lineW (b : List Byte) (o : Nat) : Nat := cfgWord b o

/-- The lines of a complete record are valid (R225). -/
def linesValid (ls : List (List Byte)) : Bool :=
  let h := ls.headD []
  let t := ls.getLastD []
  let n := bitsOf (lineW h 0x0C) 0 13
  let seq := lineW h 4
  2 ≤ n && ls.length = n && bitsOf (lineW h 0) 0 16 = 0x4A43 && lineW t 0 = seq && lineW t 0x38 = seq &&
    lineW t 0x3C = 2 ^ 32 - 1 - seq &&
    lineW t 4 = crc32c (ls.dropLast.flatten ++ t.take 4 ++ natBytes 4 0 ++ (t.take 0x38).drop 8)

/-- The logic lines of a record's lines go to both retained copies; `k` bounds the pages. -/
def State.pairLogic (s : State) : List (List Byte) → Nat → State
  | _, 0 => s
  | [], _ => s
  | d :: rest, k + 1 =>
    let p := bitsOf (lineW d 0) 0 8
    let mask := lineW d 8 + 2 ^ 32 * lineW d 0xC
    let ns := (List.range 64).filter fun n => bitOf mask n
    let base := s.base LOG_RET_BASE.BASE
    let s := s.each (ns.zip rest) fun t x =>
      (t.setPlain (base + 4096 * p + 64 * x.1) x.2).setPlain (base + 0x100000 + 4096 * p + 64 * x.1) x.2
    State.pairLogic s (rest.drop ns.length) k

/-- Applying a valid record (R333). -/
def State.pairApply (s : State) (ls : List (List Byte)) (stage : StageSnap) : State :=
  let h := ls.headD []
  let nl := bitsOf (lineW h 0x20) 0 11
  let no := bitsOf (lineW h 0x24) 0 11
  let tasks := lineW h 0x28
  let ln (k : Nat) : List Byte := ls.getD k []
  let s := s.each s.jrnOrder.zipIdx fun t x =>
    if x.2 < nl then t.setPlain (t.loopAt x.1 0) (ln (1 + 2 * x.2) ++ ln (2 + 2 * x.2)) else t
  let s := s.each (s.sigs.filter fun i => turnedSource (s.sigSource i)) fun t i =>
    if i / 16 < no then
      let w := lineW (ln (1 + 2 * nl + i / 16)) (4 * (i % 16))
      (t.setCur i w).setPw (t.outAt i) w
    else t
  let st := 1 + 2 * nl + no
  let s := s.setPlain (s.stageAt 0) ((ls.drop st).take stageLines).flatten
  let s := s.pairLogic ((ls.drop (st + stageLines)).dropLast) 512
  let s := { s with loop := { s.loop with active := stage.active } }
  let owners := (List.range 8).filter fun t => !(s.pagesOf t).isEmpty
  let whole := owners.all fun t => bitOf tasks t
  (s.modPair fun p => { p with applied := some (lineW h 0x14 + 2 ^ 32 * lineW h 0x18, stage), good := if whole then p.good + 1 else 0 }).pairReadyCheck

/-- The next line of the record under way; a complete record is applied where it is valid. -/
def State.pairLine (s : State) (stage : StageSnap) (b : List Byte) : State :=
  let ls := if bitsOf (lineW b 0) 0 16 = 0x4A43 && s.pair.lines.length < 2 then [b] else s.pair.lines ++ [b]
  let n := bitsOf (lineW (ls.headD []) 0x0C) 0 13
  if ls.length < n then s.modPair fun p => { p with lines := ls }
  else
    let s := s.modPair fun p => { p with lines := [] }
    if linesValid ls then s.pairApply ls stage else s.modPair fun p => { p with good := 0 }

/-- JOURNAL_FRAME (R333): a mirror line goes into the standby's own table, a record line into the record under way. -/
def execJournalFrame (mirror : Option Nat) (line : List Byte) (stage : StageSnap) (s : State) : Res :=
  if !(s.fld PAIR_STAT.ROLE = 3 || s.fld PAIR_STAT.ROLE = 4) || !s.flag PAIR_CFG.EN then .next s
  else match mirror with
    | some l => if l < seqLines then .next (s.setPlain (s.seqLineAt l) (line.take 64)) else .next s
    | none => .next (s.pairLine stage (line.take 64))

/-- SYNC_REC (R346, R333): lines of the active unit's journal records. -/
def execSyncRec (lines : List (List Byte)) (stage : StageSnap) (s : State) : Res :=
  if !(s.fld PAIR_STAT.ROLE = 3 || s.fld PAIR_STAT.ROLE = 4) || !s.flag PAIR_CFG.EN then .next s
  else .next (s.each lines fun t b => t.pairLine stage (b.take 64))

/-- Base and size of a region that RESYNC frames write. -/
def State.resyncRegion (s : State) (r : Nat) : Option (Nat × Nat) :=
  match r with
  | 0 => some (s.base SEQ_HDR_BASE.BASE, 0x1000)
  | 1 => some (s.base SEQ_STEP_BASE.BASE, 0x100000)
  | 2 => some (s.base SEQ_ACT_BASE.BASE, 0x80000)
  | 3 => some (s.base LOOP_TBL_BASE.BASE, 0x20000)
  | 4 => some (s.base JRN_STAGE_BASE.BASE, 0x10000)
  | 5 => some (s.base LOG_RET_BASE.BASE, 0x201000)
  | _ => none

/-- RESYNC_FRAME (R340): a NOT_READY unit under resynchronisation writes what it receives and, with the last frame, becomes
SYNCING. -/
def execResyncFrame (region off : Nat) (bytes : List Byte) (forces : List (Nat × Word)) (last : Bool) (s : State) : Res :=
  if !s.flag PAIR_CFG.EN || s.fld PAIR_STAT.ROLE != 5 || !s.pair.resync || s.flag PAIR_STAT.IMAGE_MISMATCH then .next s
  else
    let s := match s.resyncRegion region with
      | some r => if off + bytes.length ≤ r.2 then s.setPlain (r.1 + off) bytes else s
      | none => s
    let s := s.each forces fun t f => (t.forceSet f.1 f.2).1
    if last then .next ((s.setFld PAIR_STAT.ROLE 4).modPair fun p => { p with resync := false, good := 0, lines := [] })
    else .next s

/-! ## Comparing outputs (R334, R335) -/

/-- Readback of the output bound with entry `i`: DAC code, PWM compare value, line level. -/
def State.readback (s : State) (i : Nat) : Nat :=
  let r := s.sigOutRef i
  let n := r % 2 ^ 24
  match r / 2 ^ 24 with
  | 0x0A => s.fld (DAC_CODE.CODE n)
  | 0x0B => s.fld (PWM_CH_CMP.CMP n)
  | 0x0E => b2n (if s.pinsOff then s.bit (GPIO_OUT.LEVEL (n / 32)) (n % 32) else s.line n)
  | _ => 0

/-- At a strobe, before new values are taken: the compared outputs that do not show the value taken at the last one. -/
def State.pairCheck (s : State) : State :=
  if !s.flag PAIR_CFG.EN || !s.committed then s
  else
    let t := s.driveAll
    let bad := s.heldUnits.filter fun i => s.readback i != t.readback i
    s.modPair fun p => { p with fails := (p.fails ++ bad).eraseDups }

/-- The figures behind the fatal events of PAIR_FATAL. -/
def State.fatalNow (s : State) : List Nat :=
  [s.fld PLN_ECC_STAT.UNCORR, s.fld PLN_BOUND_EXC.PORT, (s.reg SCH_BOUND_EXC).toNat,
   ((List.range 8).map fun n => s.fld (LANE_ERR.DATA n)).sum, b2n (s.saf.st = 3), (s.loops.filter s.lFault).length]

/-- A selected fatal event has occurred since the last frame. -/
def State.fatalSince (s : State) : Bool :=
  (s.fatalNow.zipIdx).any fun x => bitOf (s.reg PAIR_FATAL).toNat x.2 && s.pair.fatalWas.getD x.2 0 < x.1

/-- A frame boundary: the COMPARE frame leaves. -/
def State.pairFrame (s : State) : State :=
  if !s.flag PAIR_CFG.EN || !s.committed then s
  else
    let fatal := s.fatalSince
    let fs := s.pair.fails
    (s.pairSend 0x22 1 (b2n fatal :: fs)).modPair fun p =>
      { p with own := some (fs, fatal), fails := [], fatalWas := s.fatalNow }

/-- COMPARE: the partner's frame. -/
def execPairCompare (fails : List Nat) (fatal : Bool) (s : State) : Res :=
  if !s.flag PAIR_CFG.EN then .next s
  else
    let s := s.modPair fun p => { p with theirs := some (fails, fatal) }
    .next (if fails.isEmpty then s else s.incFld PAIR_CNT.DISAGREE)

/-- Runs of failing frames after one more frame. -/
def pairRuns (runs : Sparse Nat) (fails : List Nat) : Sparse Nat :=
  (fails.foldl (fun m i => Sparse.set (fun _ => 0) m i (Sparse.get (fun _ => 0) runs i + 1)) [])

/-- The standby becomes NOT_READY. -/
def State.pairNotReady (s : State) : State :=
  if s.pairStandby then (s.setFld PAIR_STAT.ROLE 5).modPair fun p => { p with resync := s.flag PAIR_CFG.AUTO, good := 0 }
  else s.modPair fun p => { p with peerReady := false }

/-- A switch-over is decided in this tick: the standby takes over at the next boundary and the active unit steps down. -/
def State.pairSwitchOver (s : State) (cause : Nat) : State :=
  let t := s.time.tick + 1
  if s.pairStandby then s.modPair fun p => { p with takeAt := some (p.takeAt.getD (t, cause)) }
  else s.modPair fun p => { p with stepAt := some t }

/-- PAIR_DECISION (R335, R339). -/
def execPairDecision (standbyReady : Bool) (s : State) : Res :=
  match s.pair.own, s.pair.theirs with
  | some o, some t =>
    if !(s.pairActive || s.pairStandby) then .next s
    else
      let ownRun := pairRuns s.pair.ownRun o.1
      let theirRun := pairRuns s.pair.theirRun t.1
      let s := s.modPair fun p => { p with own := none, theirs := none, ownRun := ownRun, theirRun := theirRun,
                                           peerReady := standbyReady }
      let d (m : Sparse Nat) (i : Nat) : Bool := s.pairPersist ≤ Sparse.get (fun _ => 0) m i
      let act := s.pairActive
      let aRun := if act then ownRun else theirRun
      let sRun := if act then theirRun else ownRun
      let all := (aRun ++ sRun).map fun p => p.1
      let aBad := (if act then o.2 else t.2) || all.any fun i => d aRun i && !d sRun i
      let sBad := (if act then t.2 else o.2) || all.any fun i => d sRun i && !d aRun i
      let common := all.any fun i => d aRun i && d sRun i
      let ready := if s.pairStandby then s.fld PAIR_STAT.ROLE = 3 else standbyReady
      let s := ((s.setFld PAIR_STAT.A_BAD (b2n aBad)).setFld PAIR_STAT.S_BAD (b2n sBad)).setFld PAIR_STAT.COMMON (b2n common)
      let s := if aBad && !sBad && !ready then s else s.modPair fun p => { p with noTake := false }
      if !aBad && !sBad then .next (if common then s.post 0x14 1 true [0] else s)
      else if aBad && !sBad then
        if ready then .next (s.pairSwitchOver 2)
        else if act && !s.pair.noTake then .next ((s.modPair fun p => { p with noTake := true }).post 0x14 7 true [0])
        else .next s
      else if sBad && !aBad then .next s.pairNotReady
      else .next (s.pairNotReady.post 0x14 2 true [0])
  | _, _ => .next s

/-! ## The strobe (R329, R331, R336, R338, R339) -/

/-- What a silent or failing partner makes the standby do at the strobe of the present tick. -/
def State.pairWatch (s : State) (toggled : Bool) : State :=
  let n := s.time.tick
  let miss := !(s.pair.recs.contains (n - 1))
  let quiet := !toggled
  let mr := if miss then s.pair.missRun + 1 else 0
  let qr := if quiet then s.pair.quietRun + 1 else 0
  let first := s.pair.quietRun = 0
  let s := s.modPair fun p => { p with missRun := mr, quietRun := qr }
  if s.pairSilent ≤ mr && s.pairSilent ≤ qr && s.pair.takeAt.isNone && !s.flag PAIR_STAT.IMAGE_MISMATCH then
    s.modPair fun p => { p with takeAt := some (n + 1, 1) }
  else if miss && toggled && s.fld PAIR_STAT.ROLE != 5 then s.pairNotReady.post 0x14 3 true [0]
  else if !miss && quiet && first then s.post 0x14 4 true [0]
  else s

/-- The standby's output units are loaded from the record that arrived in the tick before. -/
def State.pairLoad (s : State) : State :=
  match s.pair.load with
  | none => s
  | some r => ((s.each r.words fun t w => t.setDriven w.1 (some w.2)).modPair fun p => { p with load := none }).driveAll

/-- A commanded switch-over at its frame boundary. -/
def State.pairSwitchDue (s : State) : State :=
  match s.pair.switchAt with
  | some f =>
    if f ≤ s.time.tick then
      let s := s.modPair fun p => { p with switchAt := none }
      let ready := if s.pairStandby then s.fld PAIR_STAT.ROLE = 3 else s.pair.peerReady
      if ready then s.pairSwitchOver 3 else s.setFld PAIR_STAT.RESULT 1
    else s
  | none => s

/-- The pair at strobe arrival in the motion vale. -/
def State.pairStrobe (s : State) : State :=
  if !s.flag PAIR_CFG.EN || !s.committed then s
  else
    let a := if s.fld PAIR_CFG.ACT_IN < 160 then s.line (s.fld PAIR_CFG.ACT_IN) else false
    let toggled := a != s.pair.actIn
    let s := (s.setFld PAIR_STAT.ACT_SEEN (b2n toggled)).modPair fun p => { p with actIn := a }
    let s := match s.pair.stepAt with
      | some t => if t ≤ s.time.tick && s.pairActive then s.pairStepDown else s
      | none => s
    let out := if s.pairActive then !s.pair.actOut else false
    let s := s.modPair fun p => { p with actOut := out }
    let s := if s.fld PAIR_CFG.ACT_OUT < 160 then s.setLine (s.fld PAIR_CFG.ACT_OUT) out else s
    let s := if s.pairStandby then (s.pairLoad).pairWatch toggled else s
    let s := s.pairSwitchDue
    if s.time.tick % 5 = 0 then s.pairFrame else s

/-! ## Taking over (R337, R338) -/

/-- The actions of a step as the new active unit writes them: SET, PATTERN, LOOP_MODE, LOOP_LIMIT and each RAMP at `k`. -/
def State.pairActions (s : State) (q k : Nat) : State :=
  let c := s.ctx q
  let first := bitsOf (c.word 5) 0 15
  let s := s.each ((List.range (bitsOf (c.word 0) 21 7)).map fun j => first + j) fun t i =>
    if [1, 2, 3, 4, 5].contains (t.pbits (t.actAt i 0) 0 4) then t.seqAction q i else t
  { s with seq := { s.seq with ramps := s.seq.ramps.map fun (p : Nat × Option RampSlot) =>
      (p.1, p.2.map fun r => if r.seq = q then { r with k := k } else r) } }

/-- A sequence of the last tick record, `ahead` boundaries later. -/
def State.pairSeq (s : State) (ahead : Nat) (snap : StageSnap) (x : SeqLine) : State :=
  let old := Sparse.get (fun _ => SeqCtx.idle) snap.ctx x.seq
  let el := (x.elapsed + ahead) % 2 ^ 33
  let s := s.modCtx x.seq fun c =>
    { SeqCtx.idle with state := x.st, step := x.step, elapsed := el, entry := s.stepWords x.step, seenState := x.st,
                       seenStep := x.step, cause := old.cause, former := old.former, posts := c.posts, since := s.time.tick + 1 }
  if old.step = x.step && old.state != seqIdle then
    s.each snap.ramps fun u p => match p.2 with
      | some r => if r.seq = x.seq then u.setRamp p.1 (some { r with k := el }) else u
      | none => u
  else if [seqRunning, seqHeld, seqAborting].contains x.st then s.pairActions x.seq el
  else s

/-- A pass commit of the record stands. -/
def State.pairCommit (s : State) (m : PassMsg) : State :=
  match (List.range 64).find? fun q => s.seqMaster q && q = m.spanSeq with
  | some q =>
    let ch : SeqChange := { kind := m.kind, target := m.target, cause := passCause m.kind, start := m.start, hold := false }
    let s := s.modCtx q fun c => { c with commits := c.commits ++ [ch] }
    s.modCtx q fun c => { c with posts := c.posts ++
      [{ msg := m, acked := [], policy := c.passPolicy, retries := c.passRetries, path := c.passPath }] }
  | none =>
    match s.passShare m.spanSeq with
    | some q => s.passHold q m
    | none => s

/-- The words of variable memory come back from the copies that the selectors name. -/
def State.pairVars (s : State) : State :=
  s.each (List.range 8) fun t n =>
    let c := t.pw (t.selectorAt n) % 2
    t.each (t.pagesOf n) fun u p =>
      u.vmPut (4096 * p) (Memory.bytes u.plain (u.base LOG_RET_BASE.BASE + 0x100000 * c + 4096 * p) 4096)

/-- The new active unit continues from the last tick record and the last applied journal record, at boundary `t`. -/
def State.pairContinue (s : State) (r : TickRec) (t : Nat) : State :=
  let ap := s.pair.applied.getD (0, { ctx := [], ramps := [], active := [], axes := [] })
  let s := { s with seq := { s.seq with ctx := [], ramps := [] } }
  let s := s.each r.seqs (fun u x => u.pairSeq (t - r.tick) ap.2 x)
  let s := s.each r.commits State.pairCommit
  let s := s.each s.loops fun u i =>
    let u := u.setLGen i (u.lGen i + 1)
    match r.words.find? fun w => w.1 = u.lOutSig i with
    | some w =>
      let b := Sparse.get (fun _ => false) u.loop.active i
      u.setLoopHalf i b { u.loopHalf i b with uLast := sext 16 w.2.toNat }
    | none => u
  let s := { s with loop := { s.loop with started := true } }
  let s := (s.pairVars).logRestore
  let s := s.each ap.2.axes fun u p => match p.2 with | some v => u.axRestore p.1 v | none => u
  let s := if s.flag JRN_CFG.EN then s.setFld JRN_STATE.STATE 4 else s
  s.motResume

/-- A fresh start with every sequence IDLE. -/
def State.pairFresh (s : State) : State :=
  let s := { s with seq := { s.seq with ctx := [], ramps := [] }, loop := { s.loop with started := false, restored := false } }
  let s := if s.flag JRN_CFG.EN then s.jrnFresh (s.fld JRN_GEN.VALUE) (s.fld JRN_STATE.OUTCOME) (s.fld JRN_STATE.COPY) else s
  (s.post 0x14 6 true [0])

/-- The bound outputs at T by their HOLD modes: LAST is the word of the last record and is followed by the unit's own words;
SAFE and RESET are held until RELEASE (R338). -/
def State.pairOutputs (s : State) : State :=
  let ws := match s.pair.last with | some r => r.words | none => []
  let s := s.each s.heldUnits fun t i =>
    let last := (ws.find? fun w => w.1 = i).map fun w => w.2
    let t := t.holdOut i (t.sigHold i) last
    if t.sigHold i = 0 then t.setHeld i false else t
  (s.setFld PAIR_STAT.HELD (b2n (s.heldUnits.any fun i => s.isHeld i))).driveAll

/-- A new active unit of a pair follows its own TIM_CFG source, in HOLDOVER until the first update; the counter keeps running
(R363). -/
def State.timeTakeover (s : State) : State :=
  { s with time := { s.time with slew := 0, meas := none } }.setFld TIM_STAT.STATE (if s.fld TIM_CFG.SRC = 0 then 0 else 3)

/-- TAKEOVER (R337, R338): the boundary T of a decided takeover. -/
def execPairTakeover (s : State) : Res :=
  match s.pair.takeAt with
  | none => .next s
  | some (t, cause) =>
    if s.time.tick + 1 < t || !s.pairStandby then .next s
    else
      let ready := s.fld PAIR_STAT.ROLE = 3
      let s := s.modPair fun p => { p with takeAt := none, missRun := 0, quietRun := 0 }
      let s := ((s.incFld PAIR_CNT.SWITCHES).pairBecome 1).timeTakeover
      let fresh := (s.setFld PAIR_STAT.CAUSE 4).pairFresh
      let s := match s.pair.last with
        | some r => if ready then (s.setFld PAIR_STAT.CAUSE cause).pairContinue r t else fresh
        | none => fresh
      (if s.casMaster then s.pairOutputs.casBeacons else s.pairOutputs).done

/-! ## Commands (R336, R338, R340) -/

/-- SWITCH: decided at the next frame boundary, refused where the standby is not READY. -/
def execPairSwitch (standbyReady : Bool) (s : State) : Res :=
  if s.powerFail then .next s else if !s.flag PAIR_CFG.EN || !(s.fld PAIR_STAT.ROLE = 1 || s.pairStandby) then .next (s.setFld PAIR_STAT.RESULT 2)
  else
    let ready := if s.pairStandby then s.fld PAIR_STAT.ROLE = 3 else standbyReady
    if ready then
      .next ((s.modPair fun p => { p with switchAt := some ((s.time.tick / 5 + 1) * 5), peerReady := standbyReady }).setFld
        PAIR_STAT.RESULT 0)
    else .next (s.setFld PAIR_STAT.RESULT 1)

/-- RESYNC. -/
def execPairResync (s : State) : Res :=
  if s.powerFail then .next s else if s.flag PAIR_CFG.EN && s.fld PAIR_STAT.ROLE = 5 then
    .next ((s.modPair fun p => { p with resync := true }).setFld PAIR_STAT.RESULT 0)
  else .next (s.setFld PAIR_STAT.RESULT 2)

/-- RELEASE: outputs held at SAFE or RESET follow the unit's own words from the next boundary. -/
def execPairRelease (s : State) : Res :=
  if s.powerFail then .next s else if s.flag PAIR_CFG.EN && s.pairActive then
    let s := if s.flag PAIR_STAT.HELD then { s with sig := { s.sig with held := [] } } else s
    .next ((s.setFld PAIR_STAT.HELD 0).setFld PAIR_STAT.RESULT 0)
  else .next (s.setFld PAIR_STAT.RESULT 2)

/-- PAIR_CLR_COUNTS. -/
def execPairClrCounts (s : State) : Res := .next (s.clrReg PAIR_CNT)

end Sys2Proof.Machine
end

