-- ==== Sys2Proof/Machine/Time.lean ====
section
/-!
DEFINITION. Machine/Time.lean: the time counter, its servo, steps and epochs, TIME frames and PTP (chapter 15).
-/

namespace Sys2Proof.Machine

/-! ## The counter (R354, R355) -/

/-- The limit of the rate in force, in units of 2^-40. -/
def rateLimit : Int := 1099511628

/-- Slew term magnitude, in units of 2^-40: SLEW × 100 ppm, SLEW from 1 to 10. -/
def State.slewMag (s : State) : Int := ((min 10 (max 1 (s.fld TIM_CFG.SLEW)) * 100 * 2 ^ 40 / 1000000 : Nat) : Int)

/-- The slew term in force: none when no offset is left. -/
def State.slewTerm (s : State) : Int :=
  if s.time.slew = 0 then 0 else if 0 < s.time.slew then s.slewMag else -s.slewMag

/-- The rate in force. -/
def State.rate (s : State) : Int := clampInt (-rateLimit) rateLimit (sext 32 (s.fld TIM_RATE.RATE) + s.slewTerm)

/-- One increment of the counter, in 2^-32 ns. -/
def State.timeInc (s : State) : Nat := (40 * 2 ^ 32 + (40 * 2 ^ 32 * s.rate) / (2 ^ 40 : Int)).toNat

/-- What one cycle's slewing removes from the offset. -/
def State.slewStep (s : State) : Int := (40 * 2 ^ 32 * s.slewTerm) / (2 ^ 40 : Int)

/-- The counter's range: SEC wraps modulo 2^48. -/
def timeWrap : Nat := 2 ^ 48 * 1000000000 * 2 ^ 32

/-- The offset left to slew after a cycle. -/
def State.slewLeft (s : State) : Int :=
  let d := s.slewStep
  if (0 < s.time.slew && s.time.slew ≤ d) || (s.time.slew < 0 && d ≤ s.time.slew) then 0 else s.time.slew - d

/-- The always-on vale has its clock: no power-on reset stands and XIN runs (R13, R360). -/
def State.timeRuns (s : State) : Bool := !s.vales.porHeld && !s.vales.xinStopped

/-- One always-on-vale cycle of the time counter. -/
def State.timeCycle (s : State) : State :=
  if s.timeRuns then
    ({ s with time := { s.time with now := (s.time.now + s.timeInc) % timeWrap, slew := s.slewLeft,
                                    sinceRise := s.time.sinceRise + 1 } }).pmc 0x11 (s.fld PWR_STAT.STATE)
  else s

/-- TIM_NOW_READ (R355): a read of TIM_NOW_NS latches the other three registers. -/
def State.timeLatch (s : State) : State :=
  let t := s.ns
  let s1 := (s.setFld TIM_NOW_NS.NS (nsOf t)).setReg TIM_NOW_SEC_LO (BitVec.ofNat 32 (secOf t))
  (s1.setReg TIM_NOW_SEC_HI (BitVec.ofNat 32 (secOf t / 2 ^ 32))).setFld TIM_SHORT.SHORT (shortOf t)

def execTimNowRead (s : State) : Res := .next s.timeLatch

/-! ## Measurements (R359, R361, R365) -/

/-- A reserved SRC (R371). -/
def State.timeUndefined (s : State) : Bool := s.fld TIM_CFG.SRC = 3 || s.fld TIM_PTP_CFG.TRANSPORT = 3

/-- An update: the offset is measured and awaits the servo job; a source that was lost is present again. -/
def State.timeMeasure (s : State) (offset : Int) (valid : Bool) : State :=
  let st := s.fld TIM_STAT.STATE
  let s := { s with time := { s.time with meas := some (offset, valid) } }
  if st = 0 || st = 3 then { s.setFld TIM_STAT.STATE 1 with time := { s.time with inLock := 0 } } else s

/-- The link from which a member takes its updates: the pair link for a standby, else the port toward position 0. -/
def State.timePort (s : State) : Option Nat :=
  if s.pairStandby then some (s.fld PAIR_CFG.LINK) else s.routePort 0

/-- TIME (R361): link delay and offset from four instants. -/
def execTimeFrame (port sent peerRx ourTx : Nat) (valid : Bool) (s : State) : Res :=
  if !s.portUp port then .next s
  else if s.timeUndefined then (s.undef 371).done
  else
    let rx : Int := s.ns
    let d : Int := ((rx - ourTx) - ((sent : Int) - peerRx)) / 2
    let s := { s with time := { s.time with delays := Sparse.set (fun _ => 0) s.time.delays port d,
                                            heard := Sparse.set (fun _ => (0, 0)) s.time.heard port (s.ns, sent) } }
    if (s.fld TIM_CFG.SRC = 2 || s.pairStandby) && s.timePort = some port then .next (s.timeMeasure (rx - sent - d) valid)
    else .next s

/-- At a frame boundary a TIME frame goes to every UP cascade link, with the instants of the last one from the peer, VALID and
STATE; its transmit instant is taken as it leaves (R361). -/
def State.timeFrames (s : State) : State :=
  s.each ((List.range 4).filter s.portUp) fun t p =>
    let h := Sparse.get (fun _ => (0, 0)) t.time.heard p
    (t.casQueue p { ty := 0x15, cls := 1, terrace := 0, dest := t.fld (CAS_PORT_STAT.PEER_POS p), src := t.myPos,
                    len := t.freeNat % 2037, seq := 0, words := [h.1, h.2, t.fld TIM_STAT.VALID, t.fld TIM_STAT.STATE] }).useFree

/-- Role of PTP port `p`, and its state in TIM_STAT. -/
def State.ptpRole (s : State) (p : Nat) : Nat := if p = 0 then s.fld TIM_PTP_CFG.ROLE0 else s.fld TIM_PTP_CFG.ROLE1
def State.ptpState (s : State) (p : Nat) : Nat := if p = 0 then s.fld TIM_STAT.PS0 else s.fld TIM_STAT.PS1
def State.setPtpState (s : State) (p v : Nat) : State := if p = 0 then s.setFld TIM_STAT.PS0 v else s.setFld TIM_STAT.PS1 v

/-- The device may act as grandmaster: SRC FREE and VALID set (R364). -/
def State.mayGrandmaster (s : State) : Bool := s.fld TIM_CFG.SRC = 0 && s.flag TIM_STAT.VALID

/-- The state a port takes: DISABLED 0, LISTENING 1, MASTER 2, SLAVE 3, PASSIVE 4; `best` says that the announcing clock is the
better master. -/
def State.ptpDecide (s : State) (p : Nat) (best : Bool) : Nat :=
  match s.ptpRole p with
  | 0 => 0
  | 1 => if best then 3 else if s.mayGrandmaster || s.ptpState (1 - p) = 3 then 2 else 1
  | 2 => 2
  | _ => if best then 3 else 1

/-- The keys of the PTP ports among the delays. -/
def ptpKey (p : Nat) : Nat := 8 + p

/-- A Sync with its preciseOriginTimestamp or originTimestamp: the offset is receive instant less origin, correction and
path delay. -/
def State.ptpOffset (s : State) (p rx origin : Nat) (corr : Int) : State :=
  if s.fld TIM_CFG.SRC = 1 && s.fld TIM_CFG.PORT = p && s.ptpState p = 3 then
    s.timeMeasure ((rx : Int) - origin - corr - Sparse.get (fun _ => 0) s.time.delays (ptpKey p)) true
  else s

/-- PTP_MESSAGE (R364, R365). -/
def execPtpMessage (port : Nat) (msg : PtpMsg) (s : State) : Res :=
  if 2 ≤ port || !s.runs Vale.net then .next s
  else if s.timeUndefined then (s.undef 371).done
  else
    if s.ptpRole port = 0 then .next s
    else
      match msg with
      | .bad => .next (s.incFld TIM_PTP_CNT.RX_BAD)
      | .announce best => .next (s.setPtpState port (s.ptpDecide port best))
      | .delay ns =>
        .next { s with time := { s.time with delays := Sparse.set (fun _ => 0) s.time.delays (ptpKey port) ns } }
      | .sync origin corr twoStep rx =>
        if twoStep then
          .next { s with time := { s.time with twoStep := Sparse.set (fun _ => none) s.time.twoStep port (some (rx, corr)) } }
        else .next (s.ptpOffset port rx origin corr)
      | .followUp origin corr =>
        match Sparse.get (fun _ => none) s.time.twoStep port with
        | none => .next s
        | some (rx, c) =>
          let s := { s with time := { s.time with twoStep := Sparse.set (fun _ => none) s.time.twoStep port none } }
          .next (s.ptpOffset port rx origin (c + corr))

/-- PTP_SEND (R364, R367): an event message leaves, one-step, and is stamped; TIM_NEXT names the next. -/
def execPtpSend (port next : Nat) (s : State) : Res :=
  if 2 ≤ port || !s.runs Vale.net || s.ptpRole port = 0 then .next s
  else
    let s := { s with time := { s.time with sent := Sparse.set (fun _ => 0) s.time.sent port s.ns } }
    .next ((s.setFld TIM_NEXT.TIME next).setFld TIM_STAT.NEXT_VALID 1)

/-! ## The servo (R359, R368) -/

/-- The lock window, in ns. -/
def State.lockWindow (s : State) : Int :=
  if s.fld TIM_CFG.SRC = 2 || s.pairStandby then 8 else ((max 1 (s.fld TIM_CFG.LOCK) * 10 : Nat) : Int)

/-- The synchronisation state after an update of offset `o`. -/
def State.timeLock (s : State) (o : Int) (valid : Bool) : State :=
  let w := s.lockWindow
  let inside := -w ≤ o && o ≤ w
  let far := o < -(4 * w) || 4 * w < o
  let n := if inside then s.time.inLock + 1 else 0
  let s := { s with time := { s.time with inLock := min 16 n } }
  match s.fld TIM_STAT.STATE with
  | 1 =>
    if 16 ≤ n then
      let s := s.setFld TIM_STAT.STATE 2
      if valid then s.setFld TIM_STAT.VALID 1 else s
    else s
  | 2 => if far then { s.setFld TIM_STAT.STATE 1 with time := { s.time with inLock := 0 } } else s
  | _ => s

/-- SERVO_UPDATE (R359, R368): TIM_RATE is the servo's own figure, which the spec leaves open; an offset below 1 ms is
slewed, any other is stepped. -/
def execServoUpdate (s : State) : Res :=
  match s.time.meas with
  | none => .next s
  | some (o, valid) =>
    let s := { s with time := { s.time with meas := none } }
    let s := (s.setFld TIM_RATE.RATE s.freeNat).useFree
    let s := s.setFld TIM_OFFSET.NS (trunc 32 (satInt 32 o))
    let s := s.timeLock o valid
    if -1000000 < o && o < 1000000 then .next { s with time := { s.time with slew := -o * 2 ^ 32 } }
    else
      let d := 40 * divRoundAway (-o) 40
      let s := { s with time := { s.time with slew := 0, step := some (s.time.step.getD 0 + d) } }
      .next (s.setFld TIM_STAT.STEP_PEND 1)

/-- HOLDOVER (R359): the source is lost; the slew stops. -/
def execHoldover (s : State) : Res :=
  if s.fld TIM_STAT.STATE = 2 then
    .next ({ s with time := { s.time with slew := 0, meas := none } }.setFld TIM_STAT.STATE 3)
  else .next s

/-- SET (R360, R368): TIM_CMD SET replaces any step that is pending. -/
def execTimeSet (s : State) : Res :=
  if s.powerFail then .next s else if s.fld TIM_CFG.SRC != 0 then (s.undef 371).done
  else
    let sec := (s.reg TIM_SET_SEC_LO).toNat + 2 ^ 32 * ((s.reg TIM_SET_SEC_HI).toNat % 65536)
    let t := sec * 1000000000 + (s.reg TIM_SET_NS).toNat % 2 ^ 30
    .next (({ s with time := { s.time with set := some t, step := none } }.setFld TIM_STAT.VALID 1).setFld TIM_STAT.STEP_PEND 1)

/-! ## Steps and epochs (R369, R370) -/

/-- Offset of the epoch line in the retained store (R469). -/
def epochLine : Nat := 0xC00040

/-- Writing the epoch and its line. -/
def State.setEpoch (s : State) (e : Nat) : State :=
  let e := e % 65536
  (s.setFld TIM_EPOCH.EPOCH e).setRw epochLine (e + 65536 * (65535 - e))

/-- The epoch a POR gives: one more than an intact line holds, else 0. -/
def State.porEpoch (s : State) : State :=
  let w := s.rw epochLine
  if w / 65536 = 65535 - w % 65536 then s.setEpoch (w % 65536 + 1) else s.setEpoch 0

/-- The cycle that follows a strobe rise: the strobe has not arrived yet, or it goes to no vale in a sleep (R468). -/
def State.stepCycle (s : State) : Bool :=
  s.time.phase == .risen || (2 ≤ s.fld PWR_STAT.STATE && s.time.phase == .none && s.time.sinceRise = 0)

/-- STEP_APPLY (R369): the cycle after the strobe rise. -/
def execStepApply (s : State) : Res :=
  if !s.stepCycle || (s.time.set.isNone && s.time.step.isNone) || !s.timeRuns then .next s
  else
    let before := s.time.now + s.timeInc
    let d := s.time.step.getD 0
    let after : Nat := match s.time.set with
      | some t => ((t : Int) + d).toNat % (timeWrap / 2 ^ 32) * 2 ^ 32
      | none => (((before : Int) + d * 2 ^ 32) % (timeWrap : Int)).toNat
    let b : Nat := before / 2 ^ 32
    let a : Nat := after / 2 ^ 32
    let delta : Int := (a : Int) - b
    let rise := s.time.sinceRise + 1
    let old := s.epoch
    let nextTick := (a + 50000 - 40 * rise + 49999) / 50000
    let s := { s with time := { s.time with now := after, set := none, step := none, slew := s.slewLeft, sinceRise := rise,
                                            nextTick := nextTick, shift := s.time.shift + delta } }
    let s := ((s.setFld TIM_STAT.STEP_PEND 0).incFld TIM_EPOCH.STEPS).setEpoch (old + 1)
    let w := trunc 64 delta
    let data := [old, nsOf b, secOf b % 2 ^ 32, secOf b / 2 ^ 32 + 65536 * (secOf a / 2 ^ 32), nsOf a, secOf a % 2 ^ 32,
                 w % 2 ^ 32, w / 2 ^ 32]
    .next ((s.post 0x16 1 false data).post 0x16 1 true data)

/-- Every armed pass-commit unit fires: a member counts the held commit as missed, the master its pending commits as missed by
every member. -/
def State.passFire (s : State) : State :=
  s.each ((List.range 64).filter fun q => (s.timeout q).isSome) fun t q =>
    let t := t.setTimeout q none
    if t.seqMember q then
      let c := t.ctx q
      let t := t.modCtx q fun c => { c with commits := [], rx := [] }
      t.each c.rx fun u m => ((u.passAnswer q 1 m.attempt).post 0x08 4 true [q]).incFld SEQ_PASS_STAT.MISS
    else
      let ps := (t.ctx q).posts
      let t := t.modCtx q fun c => { c with posts := [] }
      t.each ps fun u p => u.passMissed q p (p.msg.members.filter fun m => !p.acked.contains m)

/-- The scheduler's first realignment after a step (R369, R75): every finite DEADLINE and every EXPIRY it holds moves by the
step, and every armed pass-commit unit fires: a member counts the held commit as missed, the master its pending commits as
missed by every member. -/
def State.timeRealign (s : State) : State :=
  if s.time.shift = 0 then s
  else
    let d := trunc 32 s.time.shift
    let s := { s with time := { s.time with shift := 0 } }
    let s := s.each s.sch.jobs fun t i =>
      let t := if t.jInf i then t else t.setPw (t.descAt i 0) (t.jDeadline i + d)
      t.setPw (t.descAt i 0x1C) (t.jExpiry i + d)
    s.passFire

end Sys2Proof.Machine
end

