-- ==== Sys2Proof/Machine/Net.lean ====
section
/-!
DEFINITION. Machine/Net.lean: the Ethernet switch, its gate lists and the device's stations (chapter 16).
-/

namespace Sys2Proof.Machine

/-! ## Ports -/

def State.netPort (s : State) (p : Nat) : NetPort := Sparse.get (fun _ => NetPort.zero) s.net.ports p
def State.setNetPort (s : State) (p : Nat) (v : NetPort) : State :=
  { s with net := { s.net with ports := Sparse.set (fun _ => NetPort.zero) s.net.ports p v } }

/-- Port `p` belongs to its ring engine (R372). -/
def State.isRing (s : State) (p : Nat) : Bool := 2 ≤ p && s.flag (NET_PORT_CFG.RING p)

/-- Port `p` takes part in the switch. -/
def State.netEn (s : State) (p : Nat) : Bool := p < 6 && s.flag (NET_PORT_CFG.EN p) && s.runs Vale.net && !s.isRing p

/-- Buffer cells of 64 bytes: in the region, of a frame, and free (R373). -/
def netCells : Nat := 32768
def cellsOf (len : Nat) : Nat := (len + 63) / 64
def State.cellsUsed (s : State) : Nat :=
  let l := (List.range 6).flatMap fun p => (s.netPort p).queued.map fun f => (f.id, f.len)
  (l.eraseDups.map fun f => cellsOf f.2).sum

/-- Member ports of VLAN `vid`, as a mask: as the image lists them; VLAN 1 that the image does not list has every port. -/
def State.vlanPorts (s : State) (vid : Nat) : Nat :=
  match s.net.vlans.find? fun v => v.1 = vid with
  | some v => v.2
  | none => if vid = 1 then 63 else 0

/-- A group address. -/
def isGroup (mac : Nat) : Bool := bitOf mac 40

/-! ## Ingress (R373) -/

/-- Learning a source address: refreshed, moved, or added while the table has room. -/
def State.netLearn (s : State) (mac vid port : Nat) : State :=
  let e : NetAddr := { mac := mac, vid := vid, port := port, seen := s.ns }
  let t := s.net.table.filter fun a => !(a.mac = mac && a.vid = vid)
  if isGroup mac || (t.length = s.net.table.length && 4096 ≤ t.length) then s
  else { s with net := { s.net with table := t ++ [e] } }

/-- Ports that a frame from `port` goes to. -/
def State.netDests (s : State) (port vid dst : Nat) : List Nat :=
  let mem := (List.range 6).filter fun p => p != port && s.netEn p && bitOf (s.vlanPorts vid) p
  if dst = s.net.mac0 || dst = s.net.mac1 then []
  else match s.net.table.find? fun a => a.mac = dst && a.vid = vid && !isGroup dst with
    | some a => if a.port = port then [] else mem.filter fun p => p = a.port
    | none => mem

/-- A frame of identity `id` enters queue `q` of port `p`; `corr` is the correctionField of a PTP event message. -/
def State.netEnqueue (s : State) (p q id len : Nat) (corr : Option Int) : State :=
  let v := s.netPort p
  s.setNetPort p { v with queued := v.queued ++ [{ id := id, len := len, queue := q, entered := s.ns, corr := corr }] }

/-- A frame that the device itself sends on port `p`; one that finds no free cell is discarded and counted. -/
def State.netSend (s : State) (p q len : Nat) : State :=
  if !s.netEn p then s
  else if netCells < s.cellsUsed + cellsOf len then s.incFld (NET_PORT_CNT.NOBUF p)
  else ({ s with net := { s.net with nextId := s.net.nextId + 1 } }).netEnqueue p q s.net.nextId len none

/-- Under TC the correctionField of a PTP event message is to be corrected, unless it is a two-step Sync (R366). -/
def State.netCorr (s : State) (frame : EthFrame) : Option Int :=
  match frame.ptp with
  | some (false, c) => if s.flag TIM_PTP_CFG.TC then some c else none
  | _ => none

/-- TIM_PTP_CNT counts a two-step Sync that is passed on unchanged under TC (R366). -/
def State.netTwoStep (s : State) (frame : EthFrame) (dests : List Nat) : State :=
  match frame.ptp with
  | some (true, _) => if s.flag TIM_PTP_CFG.TC && !dests.isEmpty then s.incFld TIM_PTP_CNT.TWO_STEP else s
  | _ => s

/-- A frame enters at a port; one that asks the station of XE0 or XE1 is answered in queue 0 (R376). -/
def State.frameIngress (s : State) (port : Nat) (frame : EthFrame) : State :=
  if !s.netEn port || !frame.ok then s
  else
    let vid := match frame.tag with
      | some (v, _) => if v = 0 then s.fld (NET_PORT_CFG.PVID port) else v
      | none => s.fld (NET_PORT_CFG.PVID port)
    let q := match frame.tag with | some (_, p) => p % 8 | none => 0
    if !bitOf (s.vlanPorts vid) port then s
    else if netCells < s.cellsUsed + cellsOf frame.len then s.incFld (NET_PORT_CNT.NOBUF port)
    else
      let s := s.netLearn frame.src vid port
      let id := s.net.nextId
      let s := { s with net := { s.net with nextId := id + 1 } }
      let ds := s.netDests port vid frame.dst
      let corr := s.netCorr frame
      let s := s.netTwoStep frame ds
      let s := s.each ds fun t p => t.netEnqueue p q id frame.len corr
      if frame.asks && port < 2 then s.netSend port 0 frame.len else s

/-- ADDRESS_AGE (R373): an entry not seen for AGE × 10 s. -/
def execAddressAge (mac vid : Nat) (s : State) : Res :=
  let age := s.fld NET_CFG.AGE * 10000000000
  if age = 0 then .next s
  else .next { s with net := { s.net with table := s.net.table.filter fun a =>
    !(a.mac = mac && a.vid = vid && a.seen + age ≤ s.ns) } }

/-! ## Gate lists (R374) -/

/-- What a gate-list entry reads as that nothing has written: gates open, INTERVAL 0. -/
def gclInit (_ : Nat) : Word := 0xFF

/-- Gate-list cycle of port `p`, in ns; 0 acts as 1,000,000. -/
def State.gct (s : State) (p : Nat) : Nat :=
  let v := s.fld (NET_PORT_GCT.NS p)
  if v = 0 then 1000000 else v

/-- A configuration that R392 leaves undefined. -/
def State.netUndefined (s : State) (p : Nat) : Bool :=
  s.fld NET_CFG.DOM_AF = 3 || (s.flag (NET_PORT_CFG.GCL_EN p) && 1000000000 % s.gct p != 0)

/-- The gate-list cycle that runs now. -/
def State.gclCycle (s : State) (p : Nat) : Nat := s.ns / s.gct p

/-- The gate list in force now: a swap takes effect at the start of the next cycle. -/
def State.gclNow (s : State) (p : Nat) : Sparse Word :=
  let v := s.netPort p
  match v.swap with
  | some c => if c < s.gclCycle p then v.due else v.gcl
  | none => v.gcl

/-- The entries of a gate list: masks and intervals in tenths of a ns, up to the first interval of 0. -/
def gclEntries (g : Sparse Word) : List (Nat × Nat) :=
  ((List.range 64).map fun k =>
    let w := (Sparse.get gclInit g k).toNat
    (w % 256, w / 256 * 32)).takeWhile fun e => e.2 != 0

/-- The entry that runs at `t` tenths of a ns into the cycle: its number; the last one extends to the end. -/
def gclAt (es : List (Nat × Nat)) (t : Nat) : Nat → Nat
  | k =>
    match es with
    | [] => k
    | [_] => k
    | e :: r => if t < e.2 then k else gclAt r (t - e.2) (k + 1)

/-- Tenths of a ns for which queue `q` stays open from `t` into the cycle: 0 when closed; `n` bounds the entries looked at. -/
def gclOpen (es : List (Nat × Nat)) (q t cycle : Nat) (k : Nat) : Nat → Nat
  | 0 => cycle
  | n + 1 =>
    match es[k]? with
    | none => cycle
    | some e =>
      if !bitOf e.1 q then 0
      else
        let start := ((es.take k).map fun x => x.2).sum
        let stop := if k + 1 = es.length then cycle else min cycle (start + e.2)
        let here := stop - t
        here + (if stop = cycle then gclOpen es q 0 cycle 0 n else gclOpen es q stop cycle (k + 1) n)

/-- Tenths of a ns for which queue `q` of port `p` may send; none when its gate never closes. -/
def State.gateLeft (s : State) (p q : Nat) : Option Nat :=
  if !s.flag (NET_PORT_CFG.GCL_EN p) then none
  else
    let es := gclEntries (s.gclNow p)
    if es.all fun e => bitOf e.1 q then none
    else
      let t := (s.ns % s.gct p) * 10
      some (gclOpen es q t (s.gct p * 10) (gclAt es t 0) 128)

/-- GATE_LIST_ENTRY: the list moves on; at the start of a cycle a written list takes effect. -/
def execGateListEntry (port : Nat) (s : State) : Res :=
  if !s.netEn port || !s.flag (NET_PORT_CFG.GCL_EN port) then .next s
  else if s.netUndefined port then (s.undef 392).done
  else
    let v := s.netPort port
    let g := s.gclNow port
    let sw := match v.swap with
      | some c => if c < s.gclCycle port then none else some c
      | none => none
    .next (s.setNetPort port { v with gcl := g, swap := sw, entry := gclAt (gclEntries g) ((s.ns % s.gct port) * 10) 0 })

/-- SWAP: the written list takes effect at the start of the port's next cycle. -/
def execGclSwap (port : Nat) (s : State) : Res :=
  if 6 ≤ port || s.powerFail then .next s
  else
    let v := s.netPort port
    .next (s.setNetPort port { v with gcl := s.gclNow port, due := v.written, swap := some (s.gclCycle port) })

/-- GCL_ENTRY_ACCESS: the entry that NET_GCL_SEL names is read or written, and ENTRY increments. -/
def execGclEntryAccess (write : Option Word) (s : State) : Res :=
  let p := s.fld NET_GCL_SEL.PORT
  let e := s.fld NET_GCL_SEL.ENTRY
  if 6 ≤ p then .next s
  else
    let v := s.netPort p
    let s := match write with
      | some w => s.setNetPort p { v with written := Sparse.set gclInit v.written e w }
      | none => s.setReg NET_GCL_ENTRY (Sparse.get gclInit v.written e)
    .next (s.wrapFld NET_GCL_SEL.ENTRY)

/-! ## Egress (R374, R375, R377) -/

/-- Tenths of a ns that a frame of `len` octets takes on port `p`, preamble included. -/
def wireTime (p len : Nat) : Nat := if p < 2 then 8 * (len + 8) else 80 * (len + 8)

/-- Bytes in the token bucket of queue 1 now: 16 KiB at most, 1 byte a ns. -/
def State.tokens (s : State) (p : Nat) : Nat :=
  let v := s.netPort p
  min 16384 (v.tokens + (s.ns - v.tokensAt))

/-- Frame `f` may begin now. -/
def State.mayBegin (s : State) (p : Nat) (f : NetQueued) : Bool :=
  (match s.gateLeft p f.queue with
   | none => true
   | some left => wireTime p f.len ≤ left) && !(p < 2 && f.queue = 1 && s.tokens p < f.len)

/-- The frame that port `p` sends next: the head of the highest queue that is open and holds one. -/
def State.netNext (s : State) (p : Nat) : Option NetQueued :=
  let hs := [7, 6, 5, 4, 3, 2, 1, 0].filterMap fun q => (s.netPort p).queued.find? fun f => f.queue = q
  match hs.find? fun f => s.gateLeft p f.queue != some 0 && !(p < 2 && f.queue = 1 && s.tokens p < f.len) with
  | some f => if s.mayBegin p f then some f else none
  | none => none

/-- FRAME_EGRESS: under a transparent clock a PTP event message leaves with its residence time added (R366). -/
def execFrameEgress (port : Nat) (s : State) : Res :=
  if !s.netEn port then .next s
  else if s.netUndefined port then (s.undef 392).done
  else
    match s.netNext port with
    | none => .next s
    | some f =>
      let v := s.netPort port
      let tok := if port < 2 && f.queue = 1 then s.tokens port - f.len else s.tokens port
      let corr := f.corr.map fun c => c + ((s.ns : Int) - f.entered) * 65536
      .next (s.setNetPort port { v with queued := v.queued.erase f, tokens := tok, tokensAt := s.ns, sent := some f.id,
                                        sentCorr := corr })

/-- FRAME_AGED (R375): the oldest frame of a queue that has waited a gate-list cycle, or 1 ms. -/
def execFrameAged (port queue : Nat) (s : State) : Res :=
  if !s.netEn port then .next s
  else
    let lim := if s.flag (NET_PORT_CFG.GCL_EN port) then s.gct port else 1000000
    let v := s.netPort port
    match v.queued.find? fun f => f.queue = queue with
    | some f =>
      if f.entered + lim ≤ s.ns then
        .next ((s.setNetPort port { v with queued := v.queued.erase f }).incFld (NET_PORT_CNT.AGED port))
      else .next s
    | none => .next s

/-- NET_CLR_COUNTS. -/
def execNetClrCounts (s : State) : Res := .next (s.clrRegs ((List.range 6).map NET_PORT_CNT))

/-! ## Stations (R376, R378) -/

/-- Octets of a safe frame on Ethernet: 32 bytes behind UDP, IPv4 and Ethernet headers, and the FCS. -/
def safeFrameOctets : Nat := 14 + 20 + 8 + 32 + 4

/-- After input close the net and link engines read each safe transmit slot and send it (R320, R376). -/
def State.netSafe (s : State) : State :=
  s.each (List.range 32) fun t c =>
    let w := cfgWord t.saf.cfg (0x1200 + 64 * c)
    if t.pw (0x1FF0800 + 128 * c) = 0 then t
    else
      let t := t.netSend 0 6 safeFrameOctets
      if bitOf w 1 then t.netSend 1 6 safeFrameOctets
      else
        let d := cfgBits t.saf.cfg (0x1204 + 64 * c) 18 6
        let ws := (List.range 8).map fun k => t.pw (0x1FF0840 + 128 * c + 4 * k)
        if t.casOn then
          t.casQueue (bitsOf w 2 2) { ty := 0x13, cls := 1, terrace := 0, dest := d, src := t.myPos, len := 32, seq := 0, words := ws }
        else t

/-- DOMAIN_FRAME (R378): a received request is a class-3 logic job and is answered BUSY when refused; only the active unit
of a pair answers. Which routine serves it is open. -/
def execDomainFrame (node pos ty : Nat) (s : State) : Res :=
  if !s.runs Vale.net || node != s.fld SIG_NODE.NODE || pos != s.myPos || s.pairHolds || !(ty = 0x30 || ty = 0x40) then .next s
  else if s.fld NET_CFG.DOM_AF = 3 then (s.undef 392).done
  else
    let r := s.useFree.releaseJob (simpleJob 3 true true 0 0 (s.freeNat % 65536) srcRec 0)
    .next { r.1 with net := { r.1.net with busy := r.2.isNone } }

end Sys2Proof.Machine
end

