-- ==== Sys2Proof/Machine/Rio.lean ====
section
/-!
DEFINITION. Machine/Rio.lean: the remote I/O rings: bring-up, cycles, module states, input images and outputs (chapter 16).
-/

namespace Sys2Proof.Machine

/-! ## Rings and modules -/

def State.rioRing (s : State) (r : Nat) : RioRing := Sparse.get (fun _ => RioRing.zero) s.rio.rings r
def State.setRing (s : State) (r : Nat) (v : RioRing) : State :=
  { s with rio := { s.rio with rings := Sparse.set (fun _ => RioRing.zero) s.rio.rings r v } }
def State.rioMod (s : State) (r m : Nat) : RioMod := Sparse.get (fun _ => RioMod.zero) (s.rioRing r).mods m
def State.setRioMod (s : State) (r m : Nat) (v : RioMod) : State :=
  let g := s.rioRing r
  s.setRing r { g with mods := Sparse.set (fun _ => RioMod.zero) g.mods m v }

/-- The ring table's entry for module `m` of ring `r`. -/
def State.rioEntry (s : State) (r m : Nat) : RioEntry := Sparse.get (fun _ => RioEntry.zero) s.rio.table (128 * r + m)

/-- Modules of the ring table. -/
def State.rioN (s : State) (r : Nat) : Nat := min 128 (s.fld (RIO_RING_CFG.NMOD r))

/-- MISS_MAX; 0 acts as 1. -/
def State.missMax (s : State) (r : Nat) : Nat := max 1 (s.fld (RIO_RING_CFG.MISS_MAX r))

/-- The ring engine works: a ring port in use, the net vale running, no power fail. -/
def State.ringOn (s : State) (r : Nat) : Bool :=
  r < 4 && s.flag (NET_PORT_CFG.EN (r + 2)) && s.isRing (r + 2) && s.flag (RIO_RING_CFG.EN r) && s.runs Vale.net && !s.rio.silent

def State.ringState (s : State) (r : Nat) : Nat := s.fld (RIO_RING_STAT.STATE r)

/-- Module states of R384 and R385. -/
def rmMismatch : Nat := 1
def rmNoVersion : Nat := 2
def rmConfiguring : Nat := 3
def rmGood : Nat := 4
def rmError : Nat := 5
def rmLost : Nat := 6

/-- The module takes segments: found, of the right type and with a common version. -/
def RioMod.takes (v : RioMod) : Bool := 3 ≤ v.st

/-- DEGRADED follows the module states. -/
def State.rioDegraded (s : State) (r : Nat) : State :=
  s.setFld (RIO_RING_STAT.DEGRADED r) (b2n ((List.range (s.rioN r)).any fun m => (s.rioMod r m).st != rmGood))

/-! ## Outputs (R388, R389) -/

/-- Width in bits of a width code (R387). -/
def rioWidth (c : Nat) : Nat := match c with | 0 => 1 | 1 => 8 | 2 => 16 | _ => 32

/-- Fields of an OUT_REF: ring, module, byte, bit, width. -/
def State.rioRef (s : State) (i : Nat) : Nat × Nat × Nat × Nat × Nat :=
  let r := s.sigOutRef i
  (bitsOf r 22 2, bitsOf r 15 7, bitsOf r 8 7, bitsOf r 5 3, rioWidth (bitsOf r 3 2))

/-- The outputs bound to module `m` of ring `r`. -/
def State.rioBound (s : State) (r m : Nat) : List Nat :=
  (s.boundTo 0x0C).filter fun i => (s.rioRef i).1 = r && (s.rioRef i).2.1 = m

/-- Bit position of a field in its segment: a bit field counts its bit, others start at their byte. -/
def fieldAt (byte bit width : Nat) : Nat := 8 * byte + if width = 1 then bit else 0

/-- The output bytes and DISABLE of a module's segment: an output in RESET is sent as 0, and DISABLE is 1 while every bound
output is in RESET. -/
def State.rioOut (s : State) (r m : Nat) : List Byte × Bool :=
  let es := s.rioBound r m
  let n := (s.rioEntry r m).outLen
  let v := es.foldl (fun a i =>
    let f := s.rioRef i
    let w := match s.driven i with | some w => w.toNat | none => 0
    putBits a (fieldAt f.2.2.1 f.2.2.2.1 f.2.2.2.2) f.2.2.2.2 w) 0
  (natBytes n v, !es.isEmpty && es.all fun i => (s.driven i).isNone)

/-- A bound field reaches beyond OUT_LEN, or a named input beyond IN_LEN (R392). -/
def State.rioUndefined (s : State) (r : Nat) : Bool :=
  ((s.boundTo 0x0C).any fun i =>
    let f := s.rioRef i
    f.1 = r && 8 * (s.rioEntry r f.2.1).outLen < fieldAt f.2.2.1 f.2.2.2.1 f.2.2.2.2 + f.2.2.2.2) ||
  ((s.sigsOf 0x06).any fun i =>
    let w := s.sigSrcRef i
    let width := rioWidth (bitsOf w 19 2)
    bitsOf w 0 2 = r && 8 * (s.rioEntry r (bitsOf w 2 7)).inLen < fieldAt (bitsOf w 9 7) (bitsOf w 16 3) width + width)

/-- The frames of the ring's cycle. -/
def State.rioFrames (s : State) (r : Nat) : List Nat :=
  ((List.range (s.rioN r)).map fun m => (s.rioEntry r m).frame).eraseDups

/-- The segments of a cycle as they are sent now. -/
def State.rioSegs (s : State) (r : Nat) : Sparse (List Byte × Bool) :=
  ((List.range (s.rioN r)).filter fun m => (s.rioMod r m).takes).map fun m => (m, s.rioOut r m)

/-- RING_CYCLE_START (R382): the CYCLE frames leave with the values taken at the strobe of F. A standby does not send. -/
def execRingCycleStart (ring : Nat) (s : State) : Res :=
  if !s.ringOn ring || s.ringState ring != 4 || s.time.tick % 5 != 0 || s.pairHolds then .next s
  else if s.rioUndefined ring then (s.undef 392).done
  else
    let g := s.rioRing ring
    .next (s.setRing ring { g with cyc := (g.cyc + 1) % 65536, out := s.rioFrames ring, segs := s.rioSegs ring })

/-! ## Returned frames (R382, R385) -/

/-- A miss of module `m`. -/
def State.rioMiss (s : State) (r m : Nat) : State :=
  let v := s.rioMod r m
  if !v.takes then s
  else
    let n := v.miss + 1
    let lost := n = s.missMax r
    let s := s.setRioMod r m { v with miss := n, st := if s.missMax r ≤ n then rmLost else v.st }
    if lost then s.post 0x06 2 true [128 * r + m] else s

/-- Judging one returned segment. -/
def State.rioJudge (s : State) (r : Nat) (g : RioSeg) : State :=
  let v := s.rioMod r g.addr
  if s.rioN r ≤ g.addr || !v.takes then s
  else if !g.proc then s.rioMiss r g.addr
  else if g.unconf then (s.setRioMod r g.addr { v with st := rmConfiguring, configured := false }).rioMiss r g.addr
  else if g.err then
    let s1 := s.setRioMod r g.addr { v with st := rmError, diagPend := g.diag && 3 ≤ v.ver }
    if v.st = rmError then s1 else s1.post 0x06 1 true [128 * r + g.addr]
  else
    let lead := if 3 ≤ v.ver then g.lead else 0
    s.setRioMod r g.addr { v with
      st := rmGood, miss := 0, configured := true, image := g.bytes.take (s.rioEntry r g.addr).inLen, fresh := true
      sampled := trunc 32 ((g.left : Int) + 100 * v.fwd - 100 * lead), diagPend := g.diag && 3 ≤ v.ver }

/-- CYCLE (R382, R385): a frame returns; one with a bad FCS is counted and is not complete. -/
def execRioCycle (ring frame : Nat) (fcsOk : Bool) (segs : List RioSeg) (s : State) : Res :=
  if !s.ringOn ring || s.ringState ring != 4 then .next s
  else if !fcsOk then .next (s.incFld (RIO_RING_CNT.FCS ring))
  else
    let g := s.rioRing ring
    let mine := !s.pairHolds && g.out.contains frame
    let far := s.pairStandby && s.flag (RIO_RING_CFG.PAIR_END ring)
    if mine || far then
      let s := s.setRing ring { g with out := g.out.erase frame }
      .next ((s.each segs fun t x => t.rioJudge ring x).rioDegraded ring)
    else .next s

/-- The strobe of F + 5: frames not complete are LOST, and each of their modules misses. -/
def State.rioClose (s : State) (r : Nat) : State :=
  let g := s.rioRing r
  if s.ringState r != 4 || g.out.isEmpty then s
  else
    let s := (s.incFld (RIO_RING_CNT.LOST r) g.out.length).setRing r { g with out := [] }
    let ms := (List.range (s.rioN r)).filter fun m => g.out.contains (s.rioEntry r m).frame
    (s.each ms fun t m => t.rioMiss r m).rioDegraded r

/-! ## Inputs at the strobe (R386, R387) -/

/-- The word of a RIO entry, from its module's image. -/
def State.rioValue (s : State) (i : Nat) : Nat :=
  let w := s.sigSrcRef i
  let m := s.rioMod (bitsOf w 0 2) (bitsOf w 2 7)
  let width := rioWidth (bitsOf w 19 2)
  let v := bitsOf (bytesNat m.image) (fieldAt (bitsOf w 9 7) (bitsOf w 16 3) width) width
  if (s.sigType i = 1 || s.sigType i = 2) && width != 1 then trunc 32 (sext width v) else v

/-- STATE of a module's group at a strobe. -/
def State.rioGroupState (s : State) (r m : Nat) : Nat :=
  let v := s.rioMod r m
  if s.ringState r != 4 || !v.configured || !v.takes then 3
  else if v.st = rmError || s.missMax r ≤ v.miss then 2
  else if v.fresh && s.time.tick % 5 = 0 then 0
  else 1

/-- The rings at strobe arrival. -/
def State.rioStrobe (s : State) : State :=
  if !s.runs Vale.net then s
  else
    let frame := s.time.tick % 5 = 0
    let s := if frame then s.each (List.range 4) State.rioClose else s
    let s := s.each (s.sigsOf 0x06) fun t i =>
      let w := t.sigSrcRef i
      if t.rioGroupState (bitsOf w 0 2) (bitsOf w 2 7) = 0 then t.latchSig i (t.rioValue i) else t
    let s := s.each (s.groupsOf 0x06) fun t g =>
      let w := t.sigSrcRef (g.2.headD 0)
      let st := t.rioGroupState (bitsOf w 0 2) (bitsOf w 2 7)
      t.latchGrp g.1 st (if st = 0 then some (t.rioMod (bitsOf w 0 2) (bitsOf w 2 7)).sampled else none)
    if frame then
      s.each (List.range 4) fun t r =>
        let g := t.rioRing r
        t.setRing r { g with mods := g.mods.map fun (p : Nat × RioMod) => (p.1, { p.2 with fresh := false }) }
    else s

/-! ## Bring-up (R383, R384) -/

/-- The version a module runs: the highest that both ranges contain. -/
def State.rioVersion (s : State) (d : RioId) : Nat :=
  let hi := min (s.fld RIO_CFG.VMAX) d.vmax
  if hi < max (s.fld RIO_CFG.VMIN) d.vmin then 0 else hi

/-- SGMII_SYNCHRONISATION: bring-up begins. -/
def execSgmiiSynchronisation (ring : Nat) (s : State) : Res :=
  if s.ringOn ring && s.ringState ring = 0 then .next (s.setFld (RIO_RING_STAT.STATE ring) 1) else .next s

/-- ENUM: the identity records of positions 0 to 63, then 64 to 127; modules beyond NMOD are ignored. -/
def execRioEnum (ring : Nat) (upper : Bool) (ids : List RioId) (s : State) : Res :=
  if !s.ringOn ring || s.ringState ring != 1 then .next s
  else
    let base := 64 * b2n upper
    let ids := ids.take 64
    let s := if ids.isEmpty then s else s.setFld (RIO_RING_STAT.FOUND ring) (base + ids.length)
    let s := s.each ids.zipIdx fun t x =>
      let m := base + x.2
      if t.rioN ring ≤ m then t
      else
        let v := t.rioVersion x.1
        let st := if x.1.ty != (t.rioEntry ring m).ty then rmMismatch else if v = 0 then rmNoVersion else rmConfiguring
        t.setRioMod ring m { RioMod.zero with st := st, ver := if st = rmConfiguring then v else 0 }
    .next (if upper then s.setFld (RIO_RING_STAT.STATE ring) 2 else s)

/-- PROBE: half the round trip is the module's forward delay; the last module's round trip is D_RING. -/
def execRioProbe (ring module trip : Nat) (s : State) : Res :=
  let last := min (s.rioN ring) (s.fld (RIO_RING_STAT.FOUND ring)) - 1
  if !s.ringOn ring || !(s.ringState ring = 2 || s.ringState ring = 4) || last < module then .next s
  else
    let s := s.setRioMod ring module { s.rioMod ring module with fwd := trip / 2 }
    if module = last then
      let s := s.setFld (RIO_RING_STAT.D_RING ring) (min 0xFFF trip)
      if s.fld (RIO_RING_CFG.DMAX ring) < trip then .next (s.setFld (RIO_RING_STAT.STATE ring) 5)
      else if s.ringState ring = 2 then .next (s.setFld (RIO_RING_STAT.STATE ring) 3)
      else .next s
    else .next s

/-- CONFIG: the module receives its version, watchdog and parameters; when every module that takes segments is configured, the
ring runs. -/
def execRioConfig (ring module : Nat) (s : State) : Res :=
  if !s.ringOn ring || !(s.ringState ring = 3 || s.ringState ring = 4) || s.rioN ring ≤ module then .next s
  else
    let v := s.rioMod ring module
    let s := if v.takes then s.setRioMod ring module { v with configured := true } else s
    let all := (List.range (s.rioN ring)).all fun m => !(s.rioMod ring m).takes || (s.rioMod ring m).configured
    .next (if s.ringState ring = 3 && all then (s.setFld (RIO_RING_STAT.STATE ring) 4).rioDegraded ring else s)

/-- DIAG: a module of version 3 or above hands over its diagnostic data. -/
def execRioDiag (ring module : Nat) (bytes : List Byte) (s : State) : Res :=
  if !s.ringOn ring || s.ringState ring != 4 || (s.rioMod ring module).ver < 3 then .next s
  else
    let s := s.setRioMod ring module { s.rioMod ring module with diagPend := false }
    .next (s.setRing ring { s.rioRing ring with diag := some (module, bytes) })

/-- A ring loses its synchronisation: frames under way are LOST, and bring-up restarts at DOWN. -/
def State.ringLoss (s : State) (ring : Nat) : State :=
  if !s.ringOn ring || s.ringState ring = 0 then s
  else
    let g := s.rioRing ring
    let s := s.incFld (RIO_RING_CNT.LOST ring) g.out.length
    let s := s.setRing ring { RioRing.zero with cyc := g.cyc }
    ((s.setFld (RIO_RING_STAT.STATE ring) 0).setFld (RIO_RING_STAT.FOUND ring) 0).setFld (RIO_RING_STAT.DEGRADED ring) 0

/-- RING_SYNC_LOSS: frames under way are LOST, and bring-up restarts at DOWN. -/
def execRingSyncLoss (ring : Nat) (s : State) : Res := .next (s.ringLoss ring)

/-- RIO_CLR_COUNTS. -/
def execRioClrCounts (s : State) : Res := .next (s.clrRegs ((List.range 4).map RIO_RING_CNT))

/-- POWER_FAIL (R390): one CYCLE set with the PF values, then silence. -/
def State.rioPowerFail (s : State) : State :=
  let s := s.each ((List.range 4).filter fun r => s.ringState r = 4) fun t r =>
    let g := t.rioRing r
    t.setRing r { g with cyc := (g.cyc + 1) % 65536, out := [], segs := t.rioSegs r }
  { s with rio := { s.rio with silent := true } }

/-- RIO_MOD_STAT: the module that RIO_MOD_SEL names. -/
def State.rioModStat (s : State) : Nat :=
  let v := s.rioMod (s.fld RIO_MOD_SEL.RING) (s.fld RIO_MOD_SEL.MOD)
  v.st + 8 * v.ver + 256 * (min 0xFFF v.fwd) + 2 ^ 20 * min 15 v.miss

end Sys2Proof.Machine
end

