-- ==== Sys2Proof/Machine/Can.lean ====
section
/-!
DEFINITION. Machine/Can.lean: the eight CAN FD controllers: message objects, filters and FIFOs, transmission, errors and
the conditions they detect (chapter 17).
-/

namespace Sys2Proof.Machine

/-! ## Controllers, objects, filters (R395) -/

def State.canCtl (s : State) (c : Nat) : CanCtl := Sparse.get (fun _ => CanCtl.zero) s.can.ctls c
def State.setCanCtl (s : State) (c : Nat) (v : CanCtl) : State :=
  { s with can := { s.can with ctls := Sparse.set (fun _ => CanCtl.zero) s.can.ctls c v } }
def State.canObj (s : State) (c o : Nat) : CanObj := Sparse.get (fun _ => CanObj.zero) (s.canCtl c).objs o
def State.setCanObj (s : State) (c o : Nat) (v : CanObj) : State :=
  let g := s.canCtl c
  s.setCanCtl c { g with objs := Sparse.set (fun _ => CanObj.zero) g.objs o v }
def State.modCanObj (s : State) (c o : Nat) (f : CanObj → CanObj) : State := s.setCanObj c o (f (s.canObj c o))

/-- Word `w` of object `o`, and of filter `f`, as committed. -/
def State.canObjW (s : State) (c o w : Nat) : Nat := Sparse.get (fun _ => 0) (s.canCtl c).table (2 * o + w)
def State.canFltW (s : State) (c f w : Nat) : Nat := Sparse.get (fun _ => 0) (s.canCtl c).table (128 + 2 * f + w)

/-- Object `o` is in use as a receive object, and as a transmit object. -/
def State.canRxObj (s : State) (c o : Nat) : Bool := bitsOf (s.canObjW c o 1) 0 2 = 1
def State.canTxObj (s : State) (c o : Nat) : Bool := bitsOf (s.canObjW c o 1) 0 2 = 3

/-- The controller is on the bus: enabled, its vale running, no power fail since the reset (R402). -/
def State.canOn (s : State) (c : Nat) : Bool := c < 8 && s.flag (CAN_CTL.EN c) && s.runs Vale.can && !s.can.off
def State.canBusOff (s : State) (c : Nat) : Bool := s.fld (CAN_STAT.STATE c) = 2

/-- Data bytes that a length code stands for. -/
def dlcBytes (d : Nat) : Nat :=
  match d with
  | 9 => 12 | 10 => 16 | 11 => 20 | 12 => 24 | 13 => 32 | 14 => 48 | 15 => 64
  | _ => d

/-- The controllers' copy of the table, taken at commit and at an on-line change (R395); a reserved field that is not 0, a
reserved TXMODE or a PERIOD of 0 is undefined (R405). -/
def State.canTable (s : State) : State :=
  s.each (List.range 8) fun t c =>
    let b := t.base CAN_TBL_BASE.BASE + 0x800 * c
    let objs := (List.range 64).flatMap fun o => [t.pw (b + 16 * o), t.pw (b + 16 * o + 4)]
    let flts := (List.range 64).map fun f => t.pw (b + 0x400 + 4 * f)
    let tbl := ((objs ++ flts).zipIdx.filter fun x => x.1 != 0).map fun x => (x.2, x.1)
    let bad := (List.range 64).any fun o =>
      let w := t.pw (b + 16 * o + 4)
      t.pw (b + 16 * o + 8) != 0 || t.pw (b + 16 * o + 12) != 0 || bitsOf w 9 7 != 0 ||
        (bitsOf w 0 2 = 3 && (bitsOf w 3 2 = 3 || (bitsOf w 3 2 = 1 && bitsOf w 16 16 = 0)))
    let badF := (List.range 32).any fun f => bitsOf (t.pw (b + 0x400 + 8 * f)) 30 2 != 0
    let t := t.setCanCtl c { t.canCtl c with table := tbl }
    if bad || badF then t.undef 405 else t

/-- The controllers at image commit. -/
def State.canCommit (s : State) : State := (s.each (List.range 8) fun t c => t.setCanCtl c CanCtl.zero).canTable

/-! ## Directory entries (R399) -/

/-- The CAN entries of kind `kind` and word `word` of an object or FIFO. -/
def State.canEntries (s : State) (c n kind : Nat) : List Nat :=
  (s.sigsOf 0x0D).filter fun i =>
    let w := s.sigSrcRef i
    bitsOf w 0 3 = c && bitsOf w 13 2 = kind && (if kind < 2 then bitsOf w 3 6 else bitsOf w 3 1) = n

/-- The data words of a frame, written to the entries bound to them; the bytes past a frame's end in a word that it ends in
are free. -/
def State.canPutData (s : State) (c n kind : Nat) (data : List Byte) : State :=
  s.each (s.canEntries c n kind) fun t i =>
    let k := 4 * bitsOf (t.sigSrcRef i) 9 4
    if k + 4 ≤ data.length then t.putSig i (bytesNat ((data.drop k).take 4))
    else if k < data.length then (t.putSig i (bytesNat (((data.drop k) ++ freeBytes t.free 1).take 4))).useFree
    else t

/-- The status word and the identifier word. -/
def State.canPutStatus (s : State) (c n kind id dlc count : Nat) (mark : Bool) : State :=
  let st := dlc % 16 + 16 * bitsOf id 30 1 + 32 * bitsOf id 31 1 + 64 * bitsOf id 29 1 + 128 * b2n mark + 65536 * (count % 65536)
  s.each (s.canEntries c n kind) fun t i => t.putSig i (if bitsOf (t.sigSrcRef i) 9 4 = 0 then st else id)

/-! ## Reception (R396 to R398) -/

/-- Where a frame goes: a receive object, a FIFO with the filter's number, rejection, or nowhere. -/
def State.canRoute (s : State) (c id : Nat) : Sum Nat (Option (Nat × Nat)) :=
  match (List.range 64).find? fun o => s.canRxObj c o && bitsOf (s.canObjW c o 0) 0 30 = bitsOf id 0 30 with
  | some o => .inl o
  | none =>
    let f := (List.range 32).find? fun f =>
      let m := s.canFltW c f 0
      let k := s.canFltW c f 1
      bitOf k 29 && bitsOf m 29 1 = bitsOf id 29 1 && (bitsOf m 0 29 ^^^ bitsOf id 0 29) &&& bitsOf k 0 29 = 0
    .inr (f.map fun f => (f, bitsOf (s.canFltW c f 1) 30 2))

/-- The FIFO's register fields. -/
def canRd (c q : Nat) : Fld := if q = 0 then CAN_FIFO0.RD c else CAN_FIFO1.RD c
def canWr (c q : Nat) : Fld := if q = 0 then CAN_FIFO0.WR c else CAN_FIFO1.WR c
def canDirEn (c q : Nat) : Fld := if q = 0 then CAN_FIFO0.DIR_EN c else CAN_FIFO1.DIR_EN c

/-- Entries unread in a FIFO. -/
def State.canLevel (s : State) (c q : Nat) : Nat := (s.fld (canWr c q) + 128 - s.fld (canRd c q)) % 128

/-- Plain offset of entry `e` of FIFO `q`. -/
def State.canFifoAt (s : State) (c q e : Nat) : Nat := s.base CAN_FIFO_BASE.BASE + 0x4000 * c + 0x2000 * q + 128 * (e % 64)

/-- An entry's bytes (R398); what stands past the data received is free. -/
def State.canFifoBytes (s : State) (id dlc flt sof : Nat) (esi : Bool) (data : List Byte) : List Byte :=
  natBytes 4 id ++ natBytes 4 (dlc % 16 + 16 * b2n esi + 256 * flt) ++ natBytes 4 sof ++ natBytes 4 s.epoch ++
    (data ++ freeBytes s.free 16).take 64

/-- A frame for FIFO `q`. -/
def State.canFifoPut (s : State) (c q id dlc flt sof : Nat) (esi : Bool) (data : List Byte) : State :=
  if s.canLevel c q = 64 then s.incFld (CAN_CNT.OVF c)
  else
    let w := s.fld (canWr c q)
    let s := { s.busWrite 16 (s.canFifoAt c q w) (s.canFifoBytes id dlc flt sof esi data) with free := s.free + 16 }
    let s := s.setFld (canWr c q) (w + 1)
    let g := s.canCtl c
    s.setCanCtl c { g with fifoCount := Sparse.set (fun _ => 0) g.fifoCount q (Sparse.get (fun _ => 0) g.fifoCount q + 1) }

/-- A frame for a receive object: its words go to the output plane, and LOST says that an earlier one of this tick is gone. -/
def State.canObjPut (s : State) (c o id dlc sof : Nat) (data : List Byte) : State :=
  let v := s.canObj c o
  let lost := v.got
  let s := s.setCanObj c o { v with newId := id, newDlc := dlc, sof := sof, count := v.count + 1, got := true, lost := lost }
  (s.canPutData c o 0 data).canPutStatus c o 1 id dlc (v.count + 1) lost

/-- ERROR_ACTIVE or ERROR_PASSIVE, as the counters say. -/
def State.canState (s : State) (c : Nat) : State :=
  if s.canBusOff c then s
  else s.setFld (CAN_STAT.STATE c) (b2n (127 < s.fld (CAN_STAT.TEC c) || 127 < s.fld (CAN_STAT.REC c)))

/-- REC after a good frame: one less, and from above 127 a value between 119 and 127. -/
def State.canRecDown (s : State) (c : Nat) : State :=
  let r := s.fld (CAN_STAT.REC c)
  if 127 < r then (s.setFld (CAN_STAT.REC c) (119 + s.freeNat % 9)).useFree else s.setFld (CAN_STAT.REC c) (r - 1)

/-- An attempt of object `o` ends: its run of bit errors, and a ONESHOT frame that has failed. -/
def State.canAttemptFails (s : State) (c o : Nat) : State :=
  if bitOf (s.canObjW c o 1) 2 then
    let s := s.modCanObj c o fun v => { v with pend := v.again, again := false }
    if s.fld (CAN_TXCMD.OBJ c) = o then s.setFld (CAN_TXCMD.RESULT c) 4 else s
  else s

/-- CAN_FRAME_RECEIVE (R393, R396). -/
def execCanFrameReceive (ctrl id dlc : Nat) (esi rtr : Bool) (data : List Byte) (sof : Nat) (lost : Option Nat) (s : State) : Res :=
  let fd := bitOf id 30
  let data := data.take (dlcBytes dlc)
  if !s.canOn ctrl || s.canBusOff ctrl || (fd && !s.flag (CAN_CTL.FD_EN ctrl)) then .next s
  else
    let s := match lost with
      | some o => if s.canTxObj ctrl o && (s.canObj ctrl o).pend then (s.modCanObj ctrl o fun v => { v with errRun := 0 }).canAttemptFails ctrl o else s
      | none => s
    let s := (s.canRecDown ctrl).canState ctrl
    if rtr then .next (s.incFld (CAN_CNT.RTR ctrl))
    else
      match s.canRoute ctrl id with
      | .inl o => .next (s.canObjPut ctrl o id dlc sof data)
      | .inr (some (f, k)) => if 2 ≤ k then .next s else .next (s.canFifoPut ctrl k id dlc f sof esi data)
      | .inr none => .next (s.incFld (CAN_CNT.NOMATCH ctrl))

/-- CAN_FIFO_READ_ADVANCE (R398): a reader advances RD; past WR it is undefined (R405). -/
def execCanFifoReadAdvance (ctrl fifo rd : Nat) (s : State) : Res :=
  if 8 ≤ ctrl || 2 ≤ fifo then .next s
  else if s.canLevel ctrl fifo < (rd + 128 - s.fld (canRd ctrl fifo)) % 128 then (s.undef 405).done
  else .next (s.setFld (canRd ctrl fifo) rd)

/-- CAN_CLR_COUNTS. -/
def execCanClrCounts (s : State) : Res := .next (s.clrRegs ((List.range 8).map CAN_CNT))

/-! ## Output close (R397, R398) -/

/-- STATE of a receive object's group. -/
def State.canGroupState (s : State) (c o : Nat) : Nat :=
  if !s.canOn c then 3 else if s.canBusOff c then 2 else if (s.canObj c o).got then 0 else 1

/-- Delivery of one FIFO entry to the directory. -/
def State.canDeliver (s : State) (c q : Nat) : State :=
  let g := s.canCtl c
  let n := Sparse.get (fun _ => 0) g.fifoCount q
  let mark (s : State) (b : Bool) : State :=
    s.setCanCtl c { s.canCtl c with fifoValid := Sparse.set (fun _ => false) (s.canCtl c).fifoValid q b }
  if s.canOn c && s.flag (canDirEn c q) && s.canLevel c q != 0 then
    let a := s.canFifoAt c q (s.fld (canRd c q))
    let dlc := s.pbits (a + 4) 0 4
    let id := s.pw a
    let s := s.canPutData c q 2 (Memory.bytes s.plain (a + 16) (dlcBytes dlc))
    let s := s.canPutStatus c q 3 id dlc n true
    mark (s.setFld (canRd c q) (s.fld (canRd c q) + 1)) true
  else if Sparse.get (fun _ => false) g.fifoValid q then
    let a := s.canFifoAt c q (s.fld (canRd c q) + 127)
    mark (s.canPutStatus c q 3 (s.pw a) (s.pbits (a + 4) 0 4) n false) false
  else s

/-- The controllers at output close, before the turn sets freeze: deliveries, groups, and LOST of a tick that has passed. -/
def State.canOutputClose (s : State) : State :=
  if !s.runs Vale.can then s
  else
    let s := s.each (List.range 8) fun t c => (t.canDeliver c 0).canDeliver c 1
    let s := s.each (s.groupsOf 0x0D) fun t g =>
      let w := t.sigSrcRef (g.2.headD 0)
      let c := bitsOf w 0 3
      let o := bitsOf w 3 6
      if 2 ≤ bitsOf w 13 2 then t
      else
        let sm := if (t.canObj c o).got then (t.canObj c o).sof else t.pw (t.grpOutAt g.1 + 4)
        t.putGrp g.1 (t.canGroupState c o) sm
    s.each (List.range 8) fun t c =>
      t.each ((t.canCtl c).objs.map fun (p : Nat × CanObj) => p.1) fun u o =>
        let v := u.canObj c o
        if v.got then u.setCanObj c o { v with got := false }
        else if v.lost then (u.setCanObj c o { v with lost := false }).canPutStatus c o 1 v.newId v.newDlc v.count false
        else u

/-! ## Transmission (R400 to R402) -/

/-- The entries bound to data words of a transmit object, with their word numbers. -/
def State.canBound (s : State) (c o : Nat) : List (Nat × Nat) :=
  ((s.boundTo 0x0D).filter fun i => bitsOf (s.sigOutRef i) 21 3 = c && bitsOf (s.sigOutRef i) 15 6 = o).map
    fun i => (i, bitsOf (s.sigOutRef i) 11 4)

/-- The object sends nothing: a bound output in RESET. -/
def State.canMute (s : State) (c o : Nat) : Bool := (s.canBound c o).any fun p => (s.driven p.1).isNone

/-- The sixteen data words of an object as its bound outputs drive them; a word that nothing is bound to holds 0. -/
def State.canWords (s : State) (c o : Nat) : List Word :=
  (List.range 16).map fun k =>
    match (s.canBound c o).find? fun p => p.2 = k with
    | some p => (s.driven p.1).getD 0
    | none => 0

/-- TXMODE and PERIOD. -/
def State.canMode (s : State) (c o : Nat) : Nat := bitsOf (s.canObjW c o 1) 3 2
def State.canPeriod (s : State) (c o : Nat) : Nat := bitsOf (s.canObjW c o 1) 16 16

/-- A classical object with a length code above 8 (R405). -/
def State.canBadDlc (s : State) (c o : Nat) : Bool := !bitOf (s.canObjW c o 0) 30 && 8 < bitsOf (s.canObjW c o 1) 5 4

/-- A transmit object at strobe arrival: it takes its words, and PERIODIC or CHANGE makes a frame pending. -/
def State.canTake (s : State) (c o : Nat) : State :=
  let v := s.canObj c o
  let w := s.canWords c o
  let per := s.canMode c o = 1 && s.canPeriod c o ≤ v.since + 1
  let chg := s.canMode c o = 2 && v.sent != some w
  let hist := if v.pend then v.taken else []
  let dues := if v.pend then v.due else []
  let v := { v with since := if per then 0 else if s.canMode c o = 1 then v.since + 1 else 0,
                    taken := w :: hist, due := per :: dues, pend := v.pend || per || chg }
  let s := s.setCanObj c o v
  if v.pend && s.canBadDlc c o then s.undef 405 else s

/-- The controllers at strobe arrival, after the outputs are taken; a standby makes no frame pending. -/
def State.canStrobe (s : State) : State :=
  if !s.runs Vale.can || s.pairHolds then s
  else
    s.each (List.range 8) fun t c =>
      if t.canOn c then t.each ((List.range 64).filter fun o => t.canTxObj c o) fun u o => u.canTake c o else t

/-- CAN_FRAME_SENT (R400): the frame carries the words taken when its transmission reached the arbitration field; a frame that
fell due since then is pending. After POWER_FAIL the frame in progress completes, and no other follows. -/
def execCanFrameSent (ctrl obj age : Nat) (s : State) : Res :=
  let v := s.canObj ctrl obj
  if s.can.off && v.ending then
    let g := s.canCtl ctrl
    .next (s.setCanCtl ctrl { g with objs := g.objs.map fun (q : Nat × CanObj) => (q.1, { q.2 with ending := false }) })
  else if !s.canOn ctrl || s.canBusOff ctrl || s.pairHolds || !s.canTxObj ctrl obj || !v.pend || s.canMute ctrl obj ||
      (bitOf (s.canObjW ctrl obj 0) 30 && !s.flag (CAN_CTL.FD_EN ctrl)) then .next s
  else
    let w := (v.taken.drop (min age (v.taken.length - 1))).headD (s.canWords ctrl obj)
    let w := if v.taken.isEmpty then s.canWords ctrl obj else w
    let dlc := bitsOf (s.canObjW ctrl obj 1) 5 4
    let bytes := (w.flatMap fun x => natBytes 4 x.toNat).take (dlcBytes dlc)
    let more := v.again || (v.due.take age).any fun b => b
    let s := s.setCanObj ctrl obj { v with pend := more, again := false, sent := some w, errRun := 0,
                                           taken := v.taken.take 1, due := [] }
    let g := s.canCtl ctrl
    let s := s.setCanCtl ctrl { g with ackRun := 0, sent := some (obj, s.canObjW ctrl obj 0, dlc, bytes) }
    let s := s.setFld (CAN_STAT.ALONE ctrl) 0
    .next ((s.setFld (CAN_STAT.TEC ctrl) (s.fld (CAN_STAT.TEC ctrl) - 1)).canState ctrl)

/-- SEND: CANc_TXCMD makes a frame of a transmit object pending. -/
def execCanSend (ctrl obj : Nat) (started : Bool) (s : State) : Res :=
  if 8 ≤ ctrl || 64 ≤ obj || !s.runs Vale.can || s.powerFail then .next s
  else
    let s := s.setFld (CAN_TXCMD.OBJ ctrl) obj
    if !s.canTxObj ctrl obj then .next (s.setFld (CAN_TXCMD.RESULT ctrl) 3)
    else if s.canBadDlc ctrl obj then (s.undef 405).done
    else
      let s := s.setFld (CAN_TXCMD.RESULT ctrl) 0
      .next (s.modCanObj ctrl obj fun v => if v.pend then { v with again := v.again || started } else { v with pend := true })

/-- CANCEL (R401). -/
def execCanCancel (ctrl obj : Nat) (tooLate : Bool) (s : State) : Res :=
  if 8 ≤ ctrl || 64 ≤ obj || !s.runs Vale.can || s.powerFail then .next s
  else
    let s := s.setFld (CAN_TXCMD.OBJ ctrl) obj
    if !s.canTxObj ctrl obj then .next (s.setFld (CAN_TXCMD.RESULT ctrl) 3)
    else if !(s.canObj ctrl obj).pend then .next (s.setFld (CAN_TXCMD.RESULT ctrl) 2)
    else if tooLate then .next (s.setFld (CAN_TXCMD.RESULT ctrl) 1)
    else .next ((s.setFld (CAN_TXCMD.RESULT ctrl) 0).modCanObj ctrl obj fun v => { v with pend := false, again := false })

/-! ## Errors (R403, R404) -/

/-- The controller enters bus-off. -/
def State.canEnterBusOff (s : State) (c : Nat) : State :=
  let s := (s.setFld (CAN_STAT.STATE c) 2).incFld (CAN_CNT.BUSOFF c)
  ((s.setFld (CAN_STAT.TEC c) s.freeNat).useFree).post 0x0D 1 true [c]

/-- ID_COLLISION and the end of a ONESHOT frame. -/
def State.canAttempt (s : State) (c o : Nat) (kind : CanErr) : State :=
  let v := s.canObj c o
  let n := if kind = .dataBit then v.errRun + 1 else 0
  let s := s.setCanObj c o { v with errRun := if n = 4 then 0 else n }
  let w := s.canObjW c o 0
  let s := if n = 4 then
      (((s.setFld (CAN_COLL.ID c) (bitsOf w 0 29)).setFld (CAN_COLL.IDE c) (bitsOf w 29 1)).setFld (CAN_COLL.SEEN c) 1).post
        0x0D 3 true [c, bitsOf w 0 30]
    else s
  s.canAttemptFails c o

/-- The run of ACK errors, and ALONE. -/
def State.canAckRun (s : State) (c : Nat) (kind : CanErr) : State :=
  let g := s.canCtl c
  let n := if kind = .ack then g.ackRun + 1 else 0
  let s := s.setCanCtl c { g with ackRun := n }
  if 16 ≤ n && !s.flag (CAN_STAT.ALONE c) then (s.setFld (CAN_STAT.ALONE c) 1).post 0x0D 4 true [c] else s

/-- CAN_ERROR: the counters rise; ACK errors never bring the controller to bus-off. -/
def execCanError (ctrl : Nat) (obj : Option Nat) (kind : CanErr) (tecUp recUp : Nat) (s : State) : Res :=
  if !s.canOn ctrl || s.canBusOff ctrl then .next s
  else
    let s := match obj with
      | some o => if s.canTxObj ctrl o && (s.canObj ctrl o).pend && !s.pairHolds then (s.canAttempt ctrl o kind).canAckRun ctrl kind else s
      | none => s
    let t0 := s.fld (CAN_STAT.TEC ctrl)
    let t := if kind = .ack && 128 ≤ t0 then t0 else t0 + tecUp
    let s := s.setFld (CAN_STAT.REC ctrl) (min 128 (s.fld (CAN_STAT.REC ctrl) + recUp))
    if 255 < t then .next (s.canEnterBusOff ctrl) else .next ((s.setFld (CAN_STAT.TEC ctrl) t).canState ctrl)

/-- BUS_OFF_RECOVERY: both counters are 0 again, and pending frames resume. -/
def execBusOffRecovery (ctrl : Nat) (s : State) : Res :=
  if !s.canOn ctrl || !s.canBusOff ctrl then .next s
  else
    let s := ((s.setFld (CAN_STAT.TEC ctrl) 0).setFld (CAN_STAT.REC ctrl) 0).setFld (CAN_STAT.STATE ctrl) 0
    .next (s.post 0x0D 2 true [ctrl])

/-- POWER_FAIL (R402): pending frames are cancelled, and the controllers leave the bus. -/
def State.canPowerFail (s : State) : State :=
  { s with can := { ctls := s.can.ctls.map fun (p : Nat × CanCtl) =>
      (p.1, { p.2 with objs := p.2.objs.map fun (q : Nat × CanObj) => (q.1, { q.2 with pend := false, again := false, ending := q.2.pend }) })
                    off := true } }

/-- Writing EN of a controller: STATE follows. -/
def State.canEnable (s : State) (c : Nat) (on : Bool) : State :=
  if on then (if s.fld (CAN_STAT.STATE c) = 3 then (s.setFld (CAN_STAT.STATE c) 0).canState c else s)
  else s.setFld (CAN_STAT.STATE c) 3

/-- A data phase faster than 8 Mbit/s: a bit shorter than ten CAN-vale cycles (R405). -/
def State.canTooFast (s : State) (c : Nat) : Bool :=
  s.flag (CAN_CTL.FD_EN c) &&
    (s.fld (CAN_DBT.BRP c) + 1) * (3 + s.fld (CAN_DBT.TSEG1 c) + s.fld (CAN_DBT.TSEG2 c)) < 10

end Sys2Proof.Machine
end

