-- ==== Sys2Proof/Machine/Meadow.lean ====
section
/-!
DEFINITION. Machine/Meadow.lean: step summaries, records, the reader window and trace streaming (chapter 18).
-/

namespace Sys2Proof.Machine

/-! ## Regions -/

/-- Meadow works: in use, the record vale running, no power fail. -/
def State.mdwOn (s : State) : Bool := s.flag MDW_CFG.EN && s.runs Vale.record && !s.mdw.stopped

def State.modMdw (s : State) (f : MdwState → MdwState) : State := { s with mdw := f s.mdw }

/-- Plain offsets in the summary area, the record store and the trace region. -/
def State.sumAt (s : State) (i o : Nat) : Nat := s.base MDW_SUM_BASE.BASE + 128 * i + o
def State.recAt (s : State) (o : Nat) : Nat := s.base MDW_REC_BASE.BASE + o
def State.trcAt (s : State) (o : Nat) : Nat := s.base MDW_TRC_BASE.BASE + o

/-- Fields of a signal-table word (R407). -/
def State.mdwAssoc (s : State) (i : Nat) : Nat := s.pbits (s.base MDW_SIG_BASE.BASE + 4 * i) 0 7
def State.mdwFold (s : State) (i : Nat) : Nat := min 10 (s.pbits (s.base MDW_SIG_BASE.BASE + 4 * i) 7 4)
def State.mdwWordBad (s : State) (i : Nat) : Bool :=
  0x40 < s.mdwAssoc i || s.pbits (s.base MDW_SIG_BASE.BASE + 4 * i) 11 21 != 0

/-- The signals that are folded. -/
def State.recSigs (s : State) : List Nat := s.sigs.filter fun i => s.sigRec i

/-! ## Folding (R408, R409) -/

def State.foldOf (s : State) (i : Nat) : Fold := Sparse.get (fun _ => Fold.zero) s.mdw.folds i
def State.setFold (s : State) (i : Nat) (f : Fold) : State :=
  s.modMdw fun m => { m with folds := Sparse.set (fun _ => Fold.zero) m.folds i f }

/-- A fold of value `v` with histogram limits `lo` and `hi`. -/
def Fold.take (f : Fold) (v lo hi : Int) (forced : Bool) : Fold :=
  let hist := f.count % 2 ^ f.scale = 0
  let g := { f with
    minV := if f.count = 0 then v else min f.minV v
    maxV := if f.count = 0 then v else max f.maxV v
    sum := trunc 64 ((f.sum : Int) + v)
    count := min (f.count + 1) (2 ^ 32 - 1)
    forced := f.forced || forced }
  if hist then
    let b : Nat := if v < lo then 0 else if hi < v then 31 else ((v - lo) * 32 / (hi - lo + 1)).toNat
    let g := { g with under := g.under || v < lo, above := g.above || (hi < v && !(v < lo)) }
    let g := if Sparse.get (fun _ => 0) g.bins b = 65535 then
        { g with scale := g.scale + 1
                 bins := ((g.bins.map fun (p : Nat × Nat) => (p.1, p.2 / 2)).filter fun p => p.2 != 0) }
      else g
    { g with bins := Sparse.set (fun _ => 0) g.bins b (Sparse.get (fun _ => 0) g.bins b + 1) }
  else g

/-- The fold of entry `i` from the current-value plane. -/
def State.foldSig (s : State) (i : Nat) : State :=
  let ty := s.sigType i
  let lo := planeValue ty (s.sigHistLo i)
  let hi := planeValue ty (s.sigHistHi i)
  if ty = 6 || hi < lo || s.mdwWordBad i then s.undef 429
  else s.setFold i ((s.foldOf i).take (planeValue ty (s.cur i)) lo hi (s.forced i).isSome)

/-- The folds of a tick, after its input close; the signals of `skips` are not granted in time. -/
def State.foldTick (s : State) (skips : List Nat) : State :=
  if !s.mdw.folding then s
  else
    s.each (s.recSigs.filter fun i => s.time.tick % 2 ^ s.mdwFold i = 0) fun t i =>
      if skips.contains i then (t.incFld MDW_FOLD.SKIP).setFold i { t.foldOf i with isPartial := true } else t.foldSig i

/-! ## Closing (R410 to R413) -/

/-- The plane word of a value. -/
def valueWord (ty : Nat) (v : Int) : Nat := if ty = 1 then trunc 16 v else trunc 32 v

/-- STEP_ID and RECIPE_ID of the step sequence `q` is in. -/
def State.stepNow (s : State) (q : Nat) : Nat × Nat :=
  let c := s.ctx q
  if c.state = 2 || c.state = 3 || c.state = 4 || c.state = 8 then (c.stepId, s.hRecipe q) else (0xFFFFFFFF, 0)

/-- Writing the closed summary of entry `i`: its two lines, MARK 0 and MEAN left to the reduction. -/
def State.writeSummary (s : State) (i : Nat) (f : Fold) : State :=
  let a := s.mdwAssoc i
  let free := a = 0x40
  let e := f.count = 0
  let w0 := i + 2 ^ 14 * b2n free + (if free then 0 else 2 ^ 16 * (a % 64)) + 2 ^ 22 * (f.scale % 32) + 2 ^ 27 * b2n f.forced +
    2 ^ 28 * b2n f.isPartial + 2 ^ 29 * b2n f.under + 2 ^ 30 * b2n f.above + 2 ^ 31 * b2n e
  let ty := s.sigType i
  let last := s.time.tick - 1
  let ws : List Nat := [w0, f.stepId, f.recipeId, s.epoch % 65536, f.start % 2 ^ 32, f.start / 2 ^ 32, last % 2 ^ 32,
    last / 2 ^ 32, f.count, if e then 0 else valueWord ty f.minV, if e then 0 else valueWord ty f.maxV]
  let o := s.sumAt i 0
  let s := s.busWrite 17 o (ws.flatMap fun w => natBytes 4 w)
  let s := s.busWrite 17 (o + 0x30) (natBytes 8 f.sum ++ natBytes 8 0)
  s.busWrite 17 (o + 0x40) ((List.range 32).flatMap fun b => natBytes 2 (Sparse.get (fun _ => 0) f.bins b))

/-- Closing the summary of entry `i` at this boundary. -/
def State.closeSig (s : State) (i stepId recipeId : Nat) : State :=
  let f := s.foldOf i
  let s := s.writeSummary i f
  let s := if f.reducing then
      (s.incFld MDW_FOLD.SUM_LOST).modMdw fun m => { m with reductions := m.reductions.map fun r => { r with idx := r.idx.erase i } }
    else s
  s.setFold i { Fold.zero with start := s.time.tick, stepId := stepId, recipeId := recipeId, closes := f.closes + 1, reducing := true }

/-- The groups of 16 of a list, in order. -/
def chunks16 : Nat → List Nat → List (List Nat)
  | 0, _ => []
  | n + 1, l => if l.isEmpty then [] else l.take 16 :: chunks16 n (l.drop 16)

/-- Releasing the reductions that have no job (R411, R62). -/
def State.releaseReductions (s : State) : State :=
  if s.halted then s
  else
  let due := shortOf (boundaryNs s.time.tick + 48000)
  s.each (List.range s.mdw.reductions.length) fun t k =>
    match t.mdw.reductions[k]? with
    | none => t
    | some r =>
      if r.job.isSome then t
      else
        let p := t.releaseJob (simpleJob 4 false false due 0 0x380 srcMdw (r.first + 2 ^ 14 * r.n))
        p.1.modMdw fun m => { m with reductions := m.reductions.set k { r with job := p.2 } }

/-- The closes of a boundary: of the sequences whose steps start here, and of the free summaries. -/
def State.closesNow (s : State) : List (Nat × Nat × Nat) :=
  let period := 20000 * s.fld MDW_CFG.FREE_S
  let free := s.mdw.closeFree || (period != 0 && s.time.tick % period = 0)
  s.recSigs.filterMap fun i =>
    let a := s.mdwAssoc i
    if a = 0x40 then (if free then some (i, 0xFFFFFFFF, 0) else none)
    else (s.seq.closes.find? fun c => c.1 = a && c.2.1 = s.time.tick).map fun c => (i, c.2.2.1, c.2.2.2)

/-- The start of folding: every running summary is empty, PARTIAL, and of the step that its context holds. -/
def State.foldStart (s : State) : State :=
  let s := s.modMdw fun m => { m with folding := true, folds := [] }
  s.each s.recSigs fun t i =>
    let st := if t.mdwAssoc i < 64 then t.stepNow (t.mdwAssoc i) else (0xFFFFFFFF, 0)
    t.setFold i { Fold.zero with start := t.time.tick, stepId := st.1, recipeId := st.2, isPartial := true }

/-- The new entries of the island's event ring (R501). -/
def State.takeRing (s : State) : State :=
  let newest := s.pw 0x1FF0014
  let held := if newest < 256 then 1 else newest - 255
  let s := match s.mdw.ringTaken with
    | some k => if k + 256 < newest then s.post 0x07 0x00FF true [newest - 256 - k] else s
    | none => s
  let from_ := match s.mdw.ringTaken with
    | some k => if k + 256 < newest then held else k + 1
    | none => held
  let s := s.each (List.range (newest + 1 - from_)) fun t j =>
    let o := 0x1FF2000 + 16 * ((from_ + j) % 256)
    t.post 0x07 (t.pbits o 0 16) true ((List.range 4).map fun k => t.pw (o + 4 * k))
  s.modMdw fun m => { m with ringTaken := some newest }

/-- Meadow at strobe arrival. -/
def State.mdwStrobe (s : State) : State :=
  let s := if !s.mdwOn then s
    else
      let s := s.takeRing
      let s := if !s.mdw.folding then s.foldStart
        else
          let cs := s.closesNow
          let s := s.each cs fun t c => t.closeSig c.1 c.2.1 c.2.2
          let rs := (chunks16 1024 (cs.map fun c => c.1)).map fun l =>
            let r : Reduction := { job := none, first := l.headD 0, n := l.length, idx := l }
            r
          s.modMdw fun m => { m with closeFree := false, reductions := m.reductions ++ rs }
      s.releaseReductions
  { s with seq := { s.seq with closes := s.seq.closes.filter fun c => s.time.tick < c.2.1 } }

/-! ## Trace subscriptions (R424 to R427) -/

def State.traceSt (s : State) (b : Nat) : TraceState := Sparse.get (fun _ => TraceState.zero) s.mdw.trace b
def State.setTraceSt (s : State) (b : Nat) (v : TraceState) : State :=
  s.modMdw fun m => { m with trace := Sparse.set (fun _ => TraceState.zero) m.trace b v }

/-- Fields of subscription `b`. -/
def State.subEn (s : State) (b : Nat) : Bool := s.pbits (s.trcAt (32 * b)) 0 1 = 1
def State.subSummary (s : State) (b : Nat) : Bool := s.pbits (s.trcAt (32 * b)) 1 1 = 1
def State.subPort (s : State) (b : Nat) : Nat := s.pbits (s.trcAt (32 * b)) 2 1
def State.subV6 (s : State) (b : Nat) : Bool := s.pbits (s.trcAt (32 * b)) 3 1 = 1
def State.subN (s : State) (b : Nat) : Nat := s.pbits (s.trcAt (32 * b)) 16 16
def State.subDiv (s : State) (b : Nat) : Nat := s.pbits (s.trcAt (32 * b + 4)) 0 15
def State.subPhase (s : State) (b : Nat) : Nat := s.pbits (s.trcAt (32 * b + 4)) 16 15
def State.subBatch (s : State) (b : Nat) : Nat := s.pbits (s.trcAt (32 * b + 8)) 0 8
def State.subList (s : State) (b : Nat) : Nat := s.pw (s.trcAt (32 * b + 12))

/-- The listed indices. -/
def State.subSigs (s : State) (b : Nat) : List Nat :=
  (List.range (s.subN b)).map fun k => s.plainNat (s.trcAt (s.subList b + 2 * k)) 2

/-- Signals that one frame holds. -/
def State.subWidth (s : State) (b : Nat) : Nat := (if s.subV6 b then 1420 else 1440) / (4 * s.subBatch b)

/-- A subscription that R429 leaves undefined. -/
def State.subBad (s : State) (b : Nat) : Bool :=
  s.subDiv b = 0 || s.subDiv b ≤ s.subPhase b || s.subBatch b = 0 || s.subN b = 0 || 16384 < s.subN b ||
    0x200000 < s.subList b + 2 * s.subN b || (!s.subSummary b && s.subWidth b = 0) ||
    ((s.subSigs b).any fun i => !(i < s.sigCount && s.sigTrace i)) ||
    s.pbits (s.trcAt (32 * b)) 4 12 != 0 || s.pbits (s.trcAt (32 * b + 4)) 15 1 != 0 || 20000 < s.subDiv b ||
    s.pbits (s.trcAt (32 * b + 4)) 31 1 != 0 || s.pbits (s.trcAt (32 * b + 8)) 8 8 != 0

/-- Bytes of the trace buffer in use. -/
def State.traceUsed (s : State) : Nat :=
  s.mdw.trace.foldl (fun (a : Nat) (p : Nat × TraceState) =>
    a + 4 * (p.2.rows.foldl (fun n r => n + r.2.2.length) 0) + 4 * (p.2.out.foldl (fun n f => n + f.body.length) 0)) 0

/-- The frames of the collected rows: the list split by the frame width. -/
def State.frameUp (s : State) (b : Nat) : State :=
  let v := s.traceSt b
  match v.rows with
  | [] => s
  | r0 :: _ =>
    let w := max 1 (s.subWidth b)
    let fs := (List.range ((s.subN b + w - 1) / w)).map fun k =>
      let f : TraceFrame := { kind := 1, sub := b, fseq := 0, epoch := r0.2.1, nSig := min w (s.subN b - k * w), first := k * w,
                              nRow := v.rows.length, tick := r0.1, div := s.subDiv b, lost := 0,
                              body := v.rows.flatMap fun r => (r.2.2.drop (k * w)).take w }
      f
    s.setTraceSt b { v with rows := [], out := v.out ++ fs }

/-- A sampling tick of subscription `b`; a row not complete in time, or that the buffer cannot take, is discarded. -/
def State.traceRow (s : State) (b : Nat) (missed : Bool) : State :=
  let n := s.subN b
  if missed || 0x1E0000 < s.traceUsed + 4 * n then
    let s := s.frameUp b
    let v := s.traceSt b
    (s.setTraceSt b { v with lost := satAdd 0xFFFFFFFF v.lost n }).incFld MDW_TRC_LOST.COUNT n
  else
    let s := match (s.traceSt b).rows with
      | [] => s
      | r :: _ => if r.2.1 = s.epoch then s else s.frameUp b
    let v := s.traceSt b
    let s := s.setTraceSt b { v with rows := v.rows ++ [(s.time.tick, s.epoch, (s.subSigs b).map fun i => s.cur i)] }
    if s.subBatch b ≤ (s.traceSt b).rows.length then s.frameUp b else s

/-- The trace of a tick, after its input close. -/
def State.traceTick (s : State) (missed : List Nat) : State :=
  if !s.flag MDW_CFG.TRACE_EN then s
  else
    s.each ((List.range 64).filter fun b => s.subEn b) fun t b =>
      if t.subBad b then t.undef 429
      else if !t.subSummary b && t.time.tick % t.subDiv b = t.subPhase b then t.traceRow b (missed.contains b)
      else t

/-- Meadow at input close. -/
def State.mdwInputClose (s : State) (skips missed : List Nat) : State :=
  if !s.mdwOn then s else (s.foldTick skips).traceTick missed

/-- The summaries of one frame of a SUMMARY subscription: up to 11 that share an epoch. -/
def State.sumFrame (s : State) (b : Nat) (l : List Nat) : TraceFrame :=
  let i := l.headD 0
  { kind := 2, sub := b, fseq := 0, epoch := s.pbits (s.sumAt i 0x0C) 0 16, nSig := l.length,
    first := ((s.subSigs b).idxOf? i).getD 0, nRow := l.length,
    tick := s.pw (s.sumAt i 0x18) + 2 ^ 32 * s.pw (s.sumAt i 0x1C), div := s.subDiv b, lost := 0,
    body := l.flatMap fun j => (List.range 32).map fun k => s.pw (s.sumAt j (4 * k)) }

/-- Octets of a trace frame on the wire's Ethernet frame. -/
def State.traceOctets (s : State) (b : Nat) (f : TraceFrame) : Nat :=
  14 + (if s.subV6 b then 40 else 20) + 8 + 32 + 4 * f.body.length + 4

/-- Sending frame `f`. -/
def State.traceSend (s : State) (b : Nat) (f : TraceFrame) : State :=
  let v := s.traceSt b
  let s := s.setTraceSt b { v with fseq := (v.fseq + 1) % 2 ^ 32, lost := 0 }
  let s := s.modMdw fun m => { m with lastFrame := some { f with fseq := v.fseq, lost := v.lost } }
  (s.wrapFld MDW_TRC_FRAMES.COUNT).netSend (s.subPort b) 1 (s.traceOctets b f)

/-- TRACE_FRAME_SEND (R426, R427). -/
def execTraceFrameSend (sub : Nat) (s : State) : Res :=
  if !s.mdwOn || !s.flag MDW_CFG.TRACE_EN || 64 ≤ sub || !s.subEn sub then .next s
  else
    let v := s.traceSt sub
    match v.out with
    | f :: r => .next ((s.setTraceSt sub { v with out := r }).traceSend sub f)
    | [] =>
      match v.sums with
      | [] => .next s
      | i :: _ =>
        let e := s.pbits (s.sumAt i 0x0C) 0 16
        let l := (v.sums.takeWhile fun j => s.pbits (s.sumAt j 0x0C) 0 16 = e).take 11
        .next ((s.setTraceSt sub { v with sums := v.sums.drop l.length }).traceSend sub (s.sumFrame sub l))

/-! ## The reduction's end (R411) -/

/-- MEAN of a closed summary as it stands in the Plain. -/
def State.sumMean (s : State) (i : Nat) : Nat :=
  let n := s.pw (s.sumAt i 0x20)
  if n = 0 then 0
  else
    let ty := s.sigType i
    let raw := s.plainNat (s.sumAt i 0x30) 8
    let v : Int := if ty = 1 || ty = 2 || ty = 5 then sext 64 raw else raw
    valueWord ty (divRoundAway v n)

/-- The reduction kernel's writes for entry `i`: MEAN, then MARK; its summary may now be sent. -/
def State.reduceSig (s : State) (i : Nat) : State :=
  let f := s.foldOf i
  let s := s.busWord 3 (s.sumAt i 0x2C) (s.sumMean i)
  let s := s.busWord 3 (s.sumAt i 0x3C) f.closes
  let s := s.setFold i { f with reducing := false }
  s.each ((List.range 64).filter fun b => s.subEn b && s.subSummary b && (s.subSigs b).contains i) fun t b =>
    t.setTraceSt b { t.traceSt b with sums := (t.traceSt b).sums ++ [i] }

/-- The job of descriptor `d` is complete, or has missed: a reduction has written its summaries, or is released again at the
next tick. -/
def State.reductionEnds (s : State) (d : Nat) (missed : Bool) : State :=
  match s.mdw.reductions.find? fun r => r.job = some d with
  | none => s
  | some r =>
    if missed then
      s.modMdw fun m => { m with reductions := m.reductions.map fun q => if q.job = some d then { q with job := none } else q }
    else (s.each r.idx State.reduceSig).modMdw fun m => { m with reductions := m.reductions.erase r }

/-! ## Records (R414 to R419) -/

/-- The words of a record line but MARK. -/
def EventRec.words (e : EventRec) (serial : Nat) : List Nat :=
  [e.code % 65536 + 65536 * (e.source % 32) + 2 ^ 21 * b2n e.fault, serial, e.ns, e.sec % 2 ^ 32,
   e.sec / 2 ^ 32 % 65536 + 65536 * (e.epoch % 65536), e.last] ++
  ((List.range 8).map fun k => e.data.getD k 0) ++
  [e.node % 2 ^ 18 + 2 ^ 18 * (e.pos % 64) + 2 ^ 24 * b2n e.remote]

/-- Slot of record `r` of the PROCESS class. -/
def processSlot (r : Nat) : Nat := if r < 1024 then r else 1024 + (r - 1024) % 15360

/-- Plain offset of the line of record `r` of a class. -/
def State.recLine (s : State) (fault : Bool) (r : Nat) : Nat :=
  if fault then s.recAt (0x10000 + 64 * r) else s.recAt (0x100000 + 64 * processSlot r)

/-- Next serial and base of a class. -/
def State.mdwSerial (s : State) (fault : Bool) : Nat := if fault then s.fld MDW_SERIAL_F.SERIAL else s.fld MDW_SERIAL_P.SERIAL
def State.mdwBase (s : State) (fault : Bool) : Nat := if fault then s.fld MDW_BASE_F.BASE else s.fld MDW_BASE_P.BASE

/-- Serials counted from the class base. -/
def serialFrom (serial base : Nat) : Nat := (serial + 2 ^ 32 - base) % 2 ^ 32

/-- A new record goes to the nodes whose routes name its class, source and code. -/
def State.routeRecord (s : State) (e : EventRec) (ws : List Nat) : State :=
  s.each (s.mdw.routes.filter fun r => r.fault = e.fault && r.source = e.source && r.code = e.code) fun t r =>
    if r.node = t.fld SIG_NODE.NODE then t.casSendOpen r.pos 0x30 4 ws
    else if t.fld NET_CFG.DOM_AF = 0 then t
    else (t.netSend 0 3 (64 + t.freeNat % 1455)).useFree

/-- The line header of the record store. -/
def State.writeStoreHeader (s : State) : State :=
  s.busWrite 17 (s.recAt 0) (([0x4D57, s.recAt 0, s.fld MDW_BASE_F.BASE, s.fld MDW_BASE_P.BASE].flatMap fun w => natBytes 4 w) ++
    List.replicate 48 0)

/-- RECORD_WRITE: the oldest queued event, its line and then its MARK. -/
def execRecordWrite (s : State) : Res :=
  match s.mdw.queue with
  | [] => .next s
  | e :: q =>
    if !s.mdwOn then .next s
    else
      let s := (s.modMdw fun m => { m with queue := q }).setFld MDW_QUEUE.LEVEL q.length
      let n := s.mdwSerial e.fault
      let r := serialFrom n (s.mdwBase e.fault)
      if e.fault && 2048 ≤ r then .next (s.incFld MDW_LOST.FAULT_DROPPED)
      else
        let ws := e.words n ++ [n % 65536 + 65536 * e.rep]
        let s := s.busWrite 17 (s.recLine e.fault r) (ws.flatMap fun w => natBytes 4 w)
        let s := if e.fault then s.setFld MDW_SERIAL_F.SERIAL (n + 1) else s.setFld MDW_SERIAL_P.SERIAL (n + 1)
        .next (s.routeRecord e ws)

/-- MDW_CLEAR_FAULT and CLEAR_PROCESS (R418, R419). -/
def execMdwClearFault (s : State) : Res :=
  if !s.mdwOn then .next s else .next (s.setFld MDW_BASE_F.BASE (s.fld MDW_SERIAL_F.SERIAL)).writeStoreHeader
def execClearProcess (s : State) : Res :=
  if !s.mdwOn then .next s else .next (s.setFld MDW_BASE_P.BASE (s.fld MDW_SERIAL_P.SERIAL)).writeStoreHeader

/-- CLOSE_FREE (R410). -/
def execCloseFree (s : State) : Res :=
  if !s.mdwOn then .next s else .next (s.modMdw fun m => { m with closeFree := true })

/-- MDW_CLR_COUNTS and MDW_CLR_PEAKS. -/
def execMdwClrCounts (s : State) : Res := .next (s.clrRegs [MDW_LOST, MDW_FOLD, MDW_TRC_LOST])
def execMdwClrPeaks (s : State) : Res := .next (s.setFld MDW_QUEUE.PEAK 0)

/-- The newest serial of a class with a valid MARK in `n` slots, or none. -/
def State.newestSerial (s : State) (fault : Bool) (base n : Nat) : Option Nat :=
  (List.range n).foldl (fun (a : Option Nat) k =>
    let o := if fault then s.recAt (0x10000 + 64 * k) else s.recAt (0x100000 + 64 * k)
    let sn := s.pw (o + 4)
    let ok := s.pw (o + 0x3C) != 0 && s.pbits (o + 0x3C) 0 16 = sn % 65536
    if !ok then a
    else match a with
      | none => some sn
      | some m => if serialFrom m base < serialFrom sn base then some sn else a) none

/-- The start of the record store: cleared, or continued after the newest records; the first record is DEVICE_START (R419). -/
def State.mdwCommit (s : State) (cold : Bool) : State :=
  if !s.flag MDW_CFG.EN || !s.runs Vale.record then s
  else
    let kept := !cold && s.pw (s.recAt 0) = 0x4D57 && s.pw (s.recAt 4) = s.recAt 0
    let s := if kept then
        let bf := s.pw (s.recAt 8)
        let bp := s.pw (s.recAt 12)
        let nf := match s.newestSerial true bf 2048 with | some k => (k + 1) % 2 ^ 32 | none => bf
        let np := match s.newestSerial false bp 16384 with | some k => (k + 1) % 2 ^ 32 | none => bp
        (((s.setFld MDW_BASE_F.BASE bf).setFld MDW_BASE_P.BASE bp).setFld MDW_SERIAL_F.SERIAL nf).setFld MDW_SERIAL_P.SERIAL np
      else
        let lo := s.recAt 0
        let s := { s with plain := s.plain.filter fun c => c.1 < lo || lo + 0x200000 ≤ c.1 }
        (s.clrRegs [MDW_BASE_F, MDW_BASE_P, MDW_SERIAL_F, MDW_SERIAL_P]).writeStoreHeader
    s.post 0x10 1 false [(s.reg SYS_RST_CAUSE).toNat]

/-! ## The reader's window (R421) -/

/-- Status of a serial: 0 OK, 1 GONE, 2 NOT_YET. -/
def State.rdStatus (s : State) (fault : Bool) (serial : Nat) : Nat :=
  let b := s.mdwBase fault
  let next := serialFrom (s.mdwSerial fault) b
  let r := serialFrom serial b
  if 2 ^ 31 ≤ r then 1
  else if next ≤ r then 2
  else if !fault && 1024 ≤ r && r + 15360 < next then 1
  else
    let o := s.recLine fault r
    if s.pw (o + 4) = serial % 2 ^ 32 && s.pbits (o + 0x3C) 0 16 = serial % 65536 then 0 else 1

/-- Beginning a window copy. -/
def State.rdLoad (s : State) : State :=
  if !s.runs Vale.record then s
  else
    let s := s.clrRegs ((List.range 16).map MDW_RD_WIN)
    (s.setFld MDW_RD_STAT.STATUS 3).modMdw fun m => { m with loading := true }

/-- MDW_RD_SERIAL_WRITE. -/
def execMdwRdSerialWrite (serial : Nat) (s : State) : Res := .next (s.setFld MDW_RD_SERIAL.SERIAL serial).rdLoad

/-- ADV. -/
def execMdwAdv (s : State) : Res := .next (s.wrapFld MDW_RD_SERIAL.SERIAL).rdLoad

/-- MDW_RD_LOAD_DONE. -/
def execMdwRdLoadDone (s : State) : Res :=
  if !s.mdw.loading then .next s
  else
    let f := s.flag MDW_RD_SEL.CLASS
    let n := s.fld MDW_RD_SERIAL.SERIAL
    let st := s.rdStatus f n
    let s := (s.setFld MDW_RD_STAT.STATUS st).modMdw fun m => { m with loading := false }
    if st = 0 then
      let o := s.recLine f (serialFrom n (s.mdwBase f))
      .next (s.each (List.range 16) fun t k => t.setReg (MDW_RD_WIN k) (BitVec.ofNat 32 (t.pw (o + 4 * k))))
    else .next s

/-! ## Remote records (R422) -/

/-- RECORD: a request becomes a class-3 logic job, or is answered BUSY; a routed record is posted here. Which routine serves a
request is open. -/
def execRecordFrame (src : Nat) (msg : RecMsg) (s : State) : Res :=
  if !s.runs Vale.link then .next s
  else
    match msg with
    | .routed e => .next (s.postRec { e with remote := true, rep := 1 })
    | .answer l => .next (s.modMdw fun m => { m with answer := l })
    | .request _ _ _ =>
      if s.pairHolds then .next s
      else
        let r := s.useFree.releaseJob (simpleJob 3 true true 0 0 (s.freeNat % 65536) srcRec 0)
        let t := r.1.modMdw fun m => { m with busy := r.2.isNone }
        .next (if r.2.isNone then t.casSendOpen src 0x30 4 [] else t)

/-- POWER_FAIL (R423). -/
def State.mdwPowerFail (s : State) : State := s.modMdw fun m => { m with stopped := true, loading := false }

end Sys2Proof.Machine
end

