-- ==== Sys2Proof/Machine/Jobs.lean ====
section
/-!
DEFINITION. Machine/Jobs.lean: the scheduler's commands (chapter 03): releases, completion reports, run limits, deadlines,
expiries and waits, the resident kernels of the lanes (R186), and the next-event figure (R84).
-/

namespace Sys2Proof.Machine

/-- The source of resident lane kernels. -/
def srcLane : Nat := 0x0B

/-! ## Resident kernels (R186) -/

/-- The job of lane `l`'s resident kernel. -/
def State.residentJob (s : State) (l : Nat) : JobReq :=
  { simpleJob 1 false true 0 0 (s.fld (LANE_CFG.RES_ENTRY l)) srcLane 0 with pin := true, engine := l }

/-- At the first strobe after commit each lane with RES_EN releases its resident kernel. -/
def State.residentStart (s : State) : State :=
  if !s.runs Vale.lane || s.halted then s
  else
    s.each ((List.range 8).filter fun l => s.flag (LANE_CFG.RES_EN l) && !(s.lane l).resident) fun t l =>
      ((t.modLane l fun v => { v with resident := true }).release (t.residentJob l)).1

/-- Job `j` is the resident kernel of lane `l`. -/
def State.isResident (s : State) (l j : Nat) : Bool := l < 8 && s.flag (LANE_CFG.RES_EN l) && s.jSource j = srcLane

/-- The lane restarts its resident kernel at RES_ENTRY, in the same descriptor. -/
def State.residentRestart (s : State) (l j : Nat) : State :=
  let s := s.incFld (LANE_ERR.RESTART l)
  if (s.running l).isSome then s.makeReady j
  else
    let e := s.fld (LANE_CFG.RES_ENTRY l) % 4096
    let v := s.lane l
    let v := { v with cur := !v.cur, busy := true, entry := e, arg0 := 0, job := some j, stalled := false, lastPut := false }
    let s := (s.assign j l).setLane l (v.setRs (RegSet.start e 0))
    if e = 0x400 then s.arcStart l else s

/-! ## Reports to the sources -/

/-- What the source does when its job has ended: `how` 0 complete, 1 run limit, 2 miss, 3 data error. -/
def State.jobReport (s : State) (source job arg how : Nat) : State :=
  if source = srcLoop then
    if how = 0 then s.loopComplete (arg % 1024) else s.loopOverrun (arg % 1024) (if how = 2 then 1 else 2)
  else if source = srcMdw then s.reductionEnds job (how != 0)
  else s

/-- What a source does when a release of its is refused (R62). -/
def State.jobRefused (s : State) (r : JobReq) : State :=
  if r.source = srcLoop then s.loopOverrun (r.arg0 % 1024) 0
  else if r.source = srcLog then s.taskSkip (r.entry % 8)
  else if r.source = srcSeq then { s with sch := { s.sch with retry := s.sch.retry ++ [r] } }
  else s

/-- JOB_RELEASE (R63 to R67): the release is accepted or refused; reserved values of CLASS and ON_MISS are undefined (R5). -/
def execJobRelease (job : JobReq) (s : State) : Res :=
  if !s.runs Vale.scheduler then .next s
  else if job.cls = 0 || 5 < job.cls || 1 < job.onMiss then (s.undef 5).done
  else
    let p := s.releaseJob job
    match p.2 with
    | some _ => .next p.1
    | none => .next (p.1.jobRefused job)

/-- JOB_COMPLETE (R183, R77): the oldest report of an engine arrives. -/
def execJobComplete (engine : Nat) (s : State) : Res :=
  match s.sch.ended.find? fun e => e.engine = engine with
  | none => .next s
  | some e =>
    if !s.runs Vale.scheduler then .next s
    else
      let s := { s with sch := { s.sch with ended := s.sch.ended.erase e } }
      if s.isResident engine e.job then (s.residentRestart engine e.job).done
      else
        let src := s.jSource e.job
        let arg := s.jArg0 e.job
        .next ((s.completeJob e.job (e.how != 0)).jobReport src e.job arg e.how).dispatch

/-! ## Stops (R71, R75, R183) -/

/-- Lane `l`'s job has only its END left: a vendor kernel whose last PUT is made, or a word END after PUT, PUTW or FST. -/
def State.onlyEnd (s : State) (l : Nat) (issued : Bool) : Bool :=
  let v := s.lane l
  let pc := (s.rset l).pc.toNat
  if pc < 0x400 then issued else v.lastPut && s.laneAt l (.laneEnd l)

/-- Lane `l` is stopped for `how`; a job with only END left retires it and completes. -/
def State.laneStop (s : State) (l how : Nat) (issued : Bool) : State :=
  if s.onlyEnd l issued then
    let pc := (s.rset l).pc.toNat
    ((if pc < 0x400 then s.vendorKernel l pc else s).laneRetire l pc 0x04000000 0 false).laneEnd l 0
  else s.laneEnd l how

/-- RUN_LIMIT (R71): not on reserved lanes. -/
def execRunLimit (lane : Nat) (issued : Bool) (s : State) : Res :=
  if 8 ≤ lane || s.reserved lane || !(s.lane lane).busy || !s.runs Vale.lane then .next s
  else if s.onlyEnd lane issued then (s.laneStop lane 1 issued).done
  else ((s.incFld SCH_RUNLIM.COUNT).laneStop lane 1 issued).done

/-- Counting a passed deadline of job `i`. -/
def State.countMiss (s : State) (i : Nat) : State :=
  (if s.jLogic i then s.incFld SCH_MISS.LOGIC else s.incFld SCH_MISS.LANE).pmc 0x09 (b2n (s.jLogic i))

/-- TERMINATE of job `i`: a running lane job is stopped, any other leaves its list. -/
def State.terminate (s : State) (i : Nat) (issued : Bool) : State :=
  match s.engineOf i with
  | some l =>
    if l < 8 && (s.lane l).busy then
      if s.onlyEnd l issued then s.laneStop l 2 issued else (s.countMiss i).laneStop l 2 issued
    else
      let src := s.jSource i
      let arg := s.jArg0 i
      (((s.countMiss i).completeJob i true).jobReport src i arg 2).dispatch
  | none =>
    let src := s.jSource i
    let arg := s.jArg0 i
    (((s.countMiss i).completeJob i true).jobReport src i arg 2).dispatch

/-- EXTEND of job `i`: it keeps its place, and DEADLINE moves on (R75). -/
def State.extendJob (s : State) (i : Nat) : State :=
  ((s.countMiss i).setPw (s.descAt i 0) (s.jDeadline i + 50000 * s.jExtend i)).taskLate i

/-- DEADLINE_PASS (R75): not for INF jobs, HELD or free descriptors, jobs whose END has retired, nor during a halt (R471). -/
def execDeadlinePass (job : Nat) (issued : Bool) (s : State) : Res :=
  if !s.runs Vale.scheduler || s.halted || !s.sch.jobs.contains job || s.jInf job || s.jState job = jHeld ||
      s.sch.ended.any (fun e => e.job = job) then .next s
  else
    match s.jOnMiss job with
    | 0 => (s.terminate job issued).done
    | 1 => (s.extendJob job).done
    | _ => (s.undef 5).done

/-! ## Delays and waits (R78 to R81) -/

/-- Jobs of the delay list: delayed releases and timed waits. -/
def State.delayList (s : State) : List Nat :=
  s.sch.jobs.filter fun i =>
    (s.jState i = jDelayed && !s.sch.latched.contains i) || (s.jState i = jWaiting && s.jTimed i)

/-- Inserting a job into a list that is sorted by EXPIRY. -/
def State.byExpiry (s : State) (i : Nat) : List Nat → List Nat
  | [] => [i]
  | j :: t => if earlier (s.jExpiry i) (s.jExpiry j) then i :: j :: t else j :: State.byExpiry s i t

/-- The delay-list jobs whose scheduler tick has ended by now, in EXPIRY order. -/
def State.expired (s : State) : List Nat :=
  (s.delayList.filter fun i => !earlier (s.short / 1000 * 1000) (s.jExpiry i / 1000 * 1000)).foldl
    (fun l i => s.byExpiry i l) []

/-- EXPIRY (R79): up to 400 expiries at the end of a scheduler tick; the rest are carried and counted. -/
def execExpiry (s : State) : Res :=
  if !s.runs Vale.scheduler || s.halted then .next s
  else
    let l := s.expired
    let s := s.each (l.take 400) State.readyOrLatch
    .next (s.incFld SCH_EVT_LATE.CARRIED (l.length - 400)).dispatch

/-- WAIT_EVENT (R81): the event completes every open wait for it; with none it is late and counted. -/
def execWaitEvent (event : Nat) (s : State) : Res :=
  if !s.runs Vale.scheduler then .next s
  else
    match s.sch.jobs.filter fun i => s.jState i = jWaiting && s.jEvent i = event with
    | [] => .next (s.incFld SCH_EVT_LATE.LATE_EVENT)
    | l => .next (s.each l State.readyOrLatch).dispatch

/-! ## Statistics -/

/-- LOAD_INTERVAL_END (R83): after 20,000 strobes SCH_LOAD takes the busy fractions measured. -/
def execLoadIntervalEnd (lane logic : Nat) (s : State) : Res :=
  if s.sch.loadStrobes < 20000 then .next s
  else
    let s := { s with sch := { s.sch with loadStrobes := s.sch.loadStrobes - 20000 } }
    .next ((s.setFld SCH_LOAD.LANE lane).setFld SCH_LOAD.LOGIC logic)

/-- The numbers of the five job classes. -/
def classes : List Nat := [1, 2, 3, 4, 5]

/-- SCH_CLR_COUNTS. -/
def execSchClrCounts (s : State) : Res :=
  .next (s.clrRegs (classes.map SCH_REFUSE ++ [SCH_MISS, SCH_RUNLIM, SCH_EVT_LATE]))

/-- SCH_CLR_PEAKS. -/
def execSchClrPeaks (s : State) : Res :=
  .next ((s.each classes fun t c => t.setFld (SCH_OCC.PEAK c) 0).clrReg SCH_DLAT_MAX)

/-! ## The next-event figure (R84) -/

/-- A job is READY or RUNNING in an unreserved pool, or a reserved engine runs. -/
def State.schBusy (s : State) : Bool :=
  (s.sch.jobs.any fun i => s.jState i = jReady || s.jState i = jRunning) || !s.sch.latched.isEmpty

/-- The next periodic release that the loop and logic engines announce, as a tick number (R151). -/
def State.nextRelease (s : State) : Option Nat :=
  let tasks := (List.range 8).filterMap fun n =>
    let c := s.taskCfg n
    if s.taskTakes n && c.enabled then
      some (s.time.tick + c.ticks - (s.time.tick + c.ticks - c.offset % c.ticks) % c.ticks)
    else none
  ((match s.loopAnnounce with | some t => [t] | none => []) ++ tasks).min?

/-- How far ahead a short time lies; one already past is 0 ahead. -/
def State.ahead (s : State) (e : Nat) : Nat := (sext 32 (e % 2 ^ 32 + 2 ^ 32 - s.short)).toNat

/-- Kind, source and instant (ns ahead of now) of the next event. -/
def State.schNext (s : State) : Nat × Nat × Nat :=
  if s.schBusy then (2, 0, 0)
  else
    let delay := (s.delayList.map fun i => (s.ahead (s.jExpiry i), 0))
    let units := s.sch.timeouts.filterMap fun p => p.2.map fun e => (s.ahead e, 1)
    let rel := match s.nextRelease with | some t => [(boundaryNs t - s.ns, 2)] | none => []
    match (delay ++ units ++ rel) with
    | [] => (0, 0, 0)
    | x :: l =>
      let b := l.foldl (fun a y => if y.1 < a.1 then y else a) x
      (1, b.2, b.1)

end Sys2Proof.Machine
end

