-- ==== Sys2Proof/Machine/Resets.lean ====
section
/-!
DEFINITION. Machine/Resets.lean: the resets of the die, their release, the PLLs and the vales they feed, and the col stall
record (chapter 01). Power fail and HIBERNATE use the same reset.
-/

namespace Sys2Proof.Machine

/-- The reset kinds of R33, in the order of their SYS_RST_CAUSE bits. -/
inductive ResetKind where
  | por | pin | soft | clock | debug | hib
deriving DecidableEq, Repr

/-- The bit of a kind in SYS_RST_CAUSE. -/
def ResetKind.bit : ResetKind → Nat
  | .por => 0
  | .pin => 1
  | .soft => 2
  | .clock => 3
  | .debug => 4
  | .hib => 5

/-! ## What a reset keeps (R33) -/

/-- The head write of the retained store's queue completes before any reset (R218). -/
def State.finishLine (s : State) : State :=
  match s.arb.retQueue with
  | t :: _ => if t.isWrite then s.setRet (t.addr - 0x90000000) t.bytes else s
  | [] => s

/-- Registers that keep their words whole: the rate and the epoch through every reset but POR, and the always-on vale's
blocks through HIB. -/
def ResetKind.keeps (k : ResetKind) (a : Nat) : Bool :=
  match k with
  | .por => false
  | .hib => a = TIM_RATE || blockOf a = blockOf SYS_ID || blockOf a = blockOf CLK_PLL_STAT || blockOf a = blockOf TIM_CFG ||
      blockOf a = blockOf PWR_CFG
  | _ => a = TIM_RATE || a = TIM_EPOCH

/-- The registers after a reset: the kept ones, and the held fields of other registers. -/
def State.resetRegs (s : State) (k : ResetKind) : State :=
  let t := { s with regs := s.regs.filter fun p => k.keeps p.1 }
  if k = .por then t
  else
    let t := (t.setReg SYS_RST_CAUSE (s.reg SYS_RST_CAUSE)).setBit ⟨SYS_RST_CAUSE, 0, 6⟩ k.bit
    let t := (t.setFld TIM_STAT.VALID (s.fld TIM_STAT.VALID)).setFld JRN_STAT.PF (s.fld JRN_STAT.PF)
    t.setFld DBG_STAT.LOCKOUT (s.fld DBG_STAT.LOCKOUT)

/-- The key store and the lifecycle state, which the next reset other than HIB applies (R456, R457); challenges and halts
end (R462, R472). -/
def State.resetSec (s : State) (k : ResetKind) : SecState :=
  let life := if k = .hib then s.sec.life else s.sec.next
  { SecState.zero with life := life, next := s.sec.next, floor := s.sec.floor, pub := s.sec.pub, aes := s.sec.aes,
                       erased := s.sec.erased }

/-- Time after a reset: POR holds the counter at 0 (R360). -/
def State.resetTime (s : State) (k : ResetKind) : TimeState :=
  match k with
  | .por => State.reset.time
  | .hib => { s.time with phase := .none }
  | _ => { State.reset.time with now := s.time.now }

/-- The vales' record after a reset; entries waiting towards vales that enter reset are answered RESET_DROP (R18). -/
def State.resetVales (s : State) (k : ResetKind) : ValesState :=
  let queued := (s.arb.ports.map fun p => p.2.waiting.length + b2n p.2.head.isSome).sum
  { s.vales with phase := .held, drops := s.vales.drops + queued, porHeld := s.vales.porHeld || k = .por }

/-- A reset of the die: every vale but the safety vale, and of the always-on vale all but the held items (R33). The Plain
loses its contents with the supply only (R41). -/
def State.dieReset (s0 : State) (k : ResetKind) : State :=
  let s := s0.finishLine
  let z := State.reset
  let t : State :=
    { z with regs := s.regs, plain := if k = .por || k = .hib then [] else s.plain, retained := s.retained, unitc := s.unitc,
             vales := s.resetVales k, time := s.resetTime k, sec := s.resetSec k,
             saf := { s.saf with gate := [] },
             jrn := { z.jrn with kept := s.jrn.kept, pfail := s.jrn.pfail },
             pwr := if k = .hib then s.pwr else PwrState.zero,
             free := s.free, trap := s.trap, pending := s.pending }
  t.resetRegs k

/-! ## Running vales (R9, R14, R35) -/

/-- The vales that the image does not choose and that commit starts. -/
def commitVales : List Nat :=
  [Vale.lane, Vale.logic, Vale.scheduler, Vale.sequencer, Vale.motion, Vale.converter, Vale.record]

/-- Starting vale `v`; while a power state has stopped vales it starts with the wake. -/
def State.valeOn (s : State) (v : Nat) : State :=
  if s.pwr.stopped = 0 then s.setBit CLK_VALE_STAT.RUN v
  else { s with pwr := { s.pwr with stopped := putBits s.pwr.stopped v 1 1 } }

/-- Stopping vale `v`. -/
def State.valeOff (s : State) (v : Nat) : State :=
  { s.clrBit CLK_VALE_STAT.RUN v with pwr := { s.pwr with stopped := putBits s.pwr.stopped v 1 0 } }

/-- The net, link and CAN vales run where the image enables them and their PLL is locked. -/
def State.optionalVales (s : State) : State :=
  if !s.committed then s
  else
    let s := if s.flag CLK_VALE_EN.NET && s.flag CLK_PLL_STAT.SPLL_E_LOCK then s.valeOn Vale.net else s
    let s := if s.flag CLK_VALE_EN.LINK && s.flag CLK_PLL_STAT.SPLL_L_LOCK then s.valeOn Vale.link else s
    if s.flag CLK_VALE_EN.CAN then s.valeOn Vale.can else s

/-- The loader starts (R431); under BOOT_SEL 0b11 it waits in STOPPED for the host (R438). -/
def State.loaderStart (s : State) : State :=
  let sel := s.boot.sel
  let s := { s with boot := { BootState.zero with sel := sel, relNs := s.boot.relNs } }
  let s := s.clrRegs [BOOT_STAT, BOOT_ERR, BOOT_COPY 0, BOOT_COPY 1, BOOT_COPY 2]
  let s := s.setFld BOOT_STAT.MODE sel
  if sel = 3 then s.setFld BOOT_STAT.STATE 4 else s

/-- CPLL and HPLL are locked and no reset stands: the fabric, boot and host vales run, and the loader starts. -/
def State.goRunning (s : State) : State :=
  let s := ((s.setBit CLK_VALE_STAT.RUN Vale.fabric).setBit CLK_VALE_STAT.RUN Vale.host).setBit CLK_VALE_STAT.RUN Vale.boot
  { s with vales := { s.vales with phase := .running } }.loaderStart

/-! ## Release (R34, R35, R456, R460) -/

/-- The erasure at the first reset in RETIRED: every key slot, the three journal headers and the power-manager area. -/
def State.retiredErase (s : State) : State :=
  if s.sec.life = 3 && !s.sec.erased then
    let keep := s.retained.filter fun c => c.1 < 0xC00000 && !(0x800000 ≤ c.1 && c.1 < 0x8000C0)
    { s with retained := keep, sec := { s.sec with pub := [], aes := [], erased := true } }
  else s

/-- The straps as sampled at release, and the lifecycle state as the loader reads it. -/
def State.release_ (s : State) (bootSel cascPos : Nat) (pairRole : Bool) : State :=
  let s := { s with vales := { s.vales with phase := .released, nresetLow := false, porHeld := false },
                    unitc := { s.unitc with cascPos := cascPos % 64 },
                    boot := { BootState.zero with sel := bootSel % 4, relNs := s.ns },
                    pair := { s.pair with strap := pairRole } }.retiredErase
  if s.flag CLK_PLL_STAT.CPLL_LOCK && s.flag CLK_PLL_STAT.HPLL_LOCK then s.goRunning else s

/-- RESET_RELEASE: not while XIN is stopped, a PLL unlocked after CLOCK, or the power-fail reset stands (R13, R235). -/
def execResetRelease (bootSel cascPos : Nat) (pairRole : Bool) (s : State) : Res :=
  if s.vales.phase != .held || s.vales.xinStopped || s.vales.pllUnlocked || s.jrn.pfail then .next s
  else .next (s.release_ bootSel cascPos pairRole)

/-- PLL_LOCK: the cause of a CLOCK reset clears, or the released device runs. -/
def execPllLock (s : State) : Res :=
  if s.vales.xinStopped then .next s
  else
    let t := (s.setFld CLK_PLL_STAT.CPLL_LOCK 1).setFld CLK_PLL_STAT.HPLL_LOCK 1
    match s.vales.phase with
    | .held => if s.vales.pllUnlocked then .next { t with vales := { t.vales with pllUnlocked := false } } else .next s
    | .released => .next t.goRunning
    | .running => .next s

/-! ## The resets -/

/-- POR: the epoch advances (R370). -/
def execPor (s : State) : Res := .next (s.dieReset .por).porEpoch

/-- PIN_RESET: NRESET is low. -/
def execPinReset (s : State) : Res :=
  let t := s.dieReset .pin
  .next { t with vales := { t.vales with nresetLow := true } }

/-- Register commands have their effect: the fabric runs and no power fail stands (R234). -/
def State.cmdOpen (s : State) : Bool := s.vales.phase == .running && !s.powerFail

/-- SOFT_RESET: the key has been written to SYS_RST_CTL by a privileged writer. -/
def execSoftReset (s : State) : Res := if s.cmdOpen then .next (s.dieReset .soft) else .next s

/-- CLOCK_RESET (R13): a PLL that was in lock is out of lock for more than 1 µs. -/
def execClockReset (s : State) : Res :=
  if s.vales.phase != .running then .next s
  else
    let t := s.dieReset .clock
    .next { t with vales := { t.vales with pllUnlocked := true } }

/-- XIN_STOP (R13): without XIN neither PLL keeps its lock, and the time counter stops. -/
def execXinStop (s : State) : Res :=
  let t := s.dieReset .clock
  .next { t with vales := { t.vales with xinStopped := true, pllUnlocked := true } }

/-- XIN_RETURN. -/
def execXinReturn (s : State) : Res := .next { s with vales := { s.vales with xinStopped := false } }

/-- DEBUG_RESET: the debug level must permit it (R461). -/
def execDebugReset (s : State) : Res :=
  if s.flag DBG_STAT.LEVEL && s.vales.phase == .running then .next (s.dieReset .debug) else .next s

/-! ## SREFCLK and the SerDes PLLs (R14) -/

/-- What goes with a loss: without SREFCLK no SerDes PLL holds its lock. -/
def serdesLost (lost : Nat) : Nat := if bitOf lost 5 then 0x3C else lost % 32 / 4 * 4

/-- SERDES_PLL_LOSS: links and rings that the PLL feeds go down, and the vales that it feeds stop. -/
def execSerdesPllLoss (lost : Nat) (s : State) : Res :=
  let m := serdesLost lost
  let s := s.setReg CLK_PLL_LOSS (s.reg CLK_PLL_LOSS ||| BitVec.ofNat 32 m)
  let s := s.each [2, 3, 4, 5] fun t b => if bitOf m b then t.clrBit ⟨CLK_PLL_STAT, 0, 6⟩ b else t
  let s := if bitOf m 3 then (s.each (List.range 4) State.linkLoss).each (List.range 4) State.ringLoss else s
  let s := if bitOf m 2 then (s.each (List.range 4) State.ringLoss).valeOff Vale.net else s
  .next (if bitOf m 3 then s.valeOff Vale.link else s)

/-- SPLL_LOCK: what the PLLs feed comes back up. -/
def execSpllLock (good : Nat) (s : State) : Res :=
  let s := s.each [2, 3, 4, 5] fun t b => if bitOf good b then t.setBit ⟨CLK_PLL_STAT, 0, 6⟩ b else t
  .next s.optionalVales

/-! ## Col stalls (R19) -/

/-- COL_STALL: DIR and PAIR keep the first stall. -/
def execColStall (pair : Nat) (dir : Bool) (s : State) : Res :=
  if s.flag CLK_COL_STALL.STALL then .next s
  else .next (((s.setFld CLK_COL_STALL.STALL 1).setFld CLK_COL_STALL.DIR (b2n dir)).setFld CLK_COL_STALL.PAIR pair)

/-- COL_STALL_CLEAR. -/
def execColStallClear (s : State) : Res := .next (s.setFld CLK_COL_STALL.STALL 0)

/-! ## Retained store (R216, R217) -/

/-- The offsets that R216 gives a content; the others read 0 and discard writes. -/
def retMapped (o : Nat) : Bool :=
  o < 0x8000C0 || (0x801000 ≤ o && o < 0x802000) || (0x900000 ≤ o && o < 0xA80000) || (0xC00000 ≤ o && o < 0x1000000)

/-- Bytes read from the retained store. -/
def State.retRead (s : State) (o n : Nat) : List Byte :=
  (List.range n).map fun k => if retMapped (o + k) then Sparse.get retainedInit s.retained (o + k) else 0

/-- Bytes written to the retained store. -/
def State.retWrite (s : State) (o : Nat) (bs : List Byte) : State :=
  s.each bs.zipIdx fun t x => if retMapped (o + x.2) then t.setRet (o + x.2) [x.1] else t

/-- RETAINED_STORE_ACCESS: the oldest entry of the queue completes. -/
def execRetainedStoreAccess (s : State) : Res :=
  match s.arb.retQueue with
  | [] => .next s
  | t :: q =>
    let s := { s with arb := { s.arb with retQueue := q } }
    let put (s : State) (bs : List Byte) : State :=
      let r : Resp := { port := t.port, requester := t.requester, bytes := bs, error := false }
      { s with arb := { s.arb with resp := Sparse.set (fun _ => none) s.arb.resp t.port (some r) } }
    if t.isWrite then .next (put ((s.retWrite (t.addr - 0x90000000) t.bytes).pmc 0x0D 0) [])
    else .next (put s (s.retRead (t.addr - 0x90000000) t.len))

/-- TICK_CLR (R25). -/
def execTickClr (s : State) : Res := .next (s.clrRegs [SYS_TICK_STAT, SYS_LATE_SRC])

end Sys2Proof.Machine
end

