-- ==== Sys2Proof/Machine/PowerFail.lean ====
section
/-!
DEFINITION. Machine/PowerFail.lean: the acceptance of PFAIL_N, the reset that follows it, and the end of a journal record
(R225, R229, R234, R235, R333).
-/

namespace Sys2Proof.Machine

/-- The reset after a power fail, which JRN_STAT.PF counts (R235). -/
def State.pfailReset (s : State) : State := (s.dieReset .soft).incFld JRN_STAT.PF

/-- Bound outputs take their PF modes; LAST is the value held. -/
def State.pfOutputs (s : State) : State :=
  (s.each s.heldUnits fun t i => t.holdOut i (t.sigPf i) (t.driven i)).driveAll

/-- POWER_FAIL is raised on a committed device: outputs, engines and the writer act as R234 says; without a record in
progress the reset follows at once. -/
def State.pfailRaise (s : State) : State :=
  let s := (s.abandonTest).setFld JRN_STATE.STATE 5
  let s := s.motPowerFail.pfOutputs
  let s := s.rioPowerFail.canPowerFail.mdwPowerFail
  if s.jrn.cur.isNone then s.pfailReset else s

/-- PFAIL_ACCEPT: a device that loads, or waits in STOPPED, enters the reset at once; in DOZE and NAP a wake comes first, and in
HIBERNATE nothing happens (R467). -/
def execPfailAccept (s : State) : Res :=
  let s := { s with jrn := { s.jrn with pfail := true } }
  if s.vales.phase == .held then .next s
  else if s.fld PWR_STAT.STATE = 4 || s.powerFail then .next s
  else if !s.committed then .next s.pfailReset
  else if s.pwr.stopped = 0 then s.pfailRaise.done
  else .next { s with pwr := { s.pwr with waking := some (s.pwr.waking.getD 7) } }

/-- PFAIL_RELEASE: PFAIL_N has been high for 10 ms; the power-fail reset ends where nothing else holds the reset. Before the
MARK of a record in progress the sequence of R234 goes on. -/
def execPfailRelease (bootSel cascPos : Nat) (pairRole : Bool) (s : State) : Res :=
  if !s.jrn.pfail then .next s
  else
    let s := { s with jrn := { s.jrn with pfail := false } }
    if s.vales.phase != .held || s.vales.xinStopped || s.vales.pllUnlocked || s.vales.nresetLow || s.vales.porHeld then .next s
    else .next (s.release_ bootSel cascPos pairRole)

/-! ## The end of a record (R225) -/

/-- At most 31 lines go into one SYNC_REC frame. -/
def lineGroups : Nat → List (List Byte) → List (List (List Byte))
  | 0, _ => []
  | n + 1, ls => if ls.isEmpty then [] else ls.take 31 :: lineGroups n (ls.drop 31)

/-- An active unit sends lines over the pair link (R333). -/
def State.pairLines (s : State) (ls : List (List Byte)) : State :=
  if s.flag PAIR_CFG.EN && s.pairActive then
    s.each (lineGroups ls.length ls) fun t g =>
      t.pairSend 0x21 1 ((List.range (g.flatten.length / 4)).map fun k => cfgWord g.flatten (4 * k))
  else s

/-- JOURNAL_RECORD_DONE: the MARK of the record in progress is acknowledged, marked lines are mirrored, and both go to the
partner; in POWER_FAIL the reset follows. -/
def execJournalRecordDone (unstable : List Nat) (s : State) : Res :=
  match s.jrn.cur with
  | none => .next s
  | some r =>
    let line := s.fld JRN_POS.LINE
    let marks := (s.jrn.seqMarks.map fun m => m.1).take 1024
    let t := s.jrnRecord r unstable
    let t := if t.pwr.capture = .taken then { t with pwr := { t.pwr with capture := .complete } } else t
    let n := bitsOf (t.ringW line 0x0C) 0 13
    let t := t.pairLines ((List.range n).map fun k => t.ringLine (line + k))
    if s.powerFail then .next t.pfailReset
    else .next (t.pairLines (marks.map fun l => Memory.bytes t.retained (mirrorAt l) 64))

end Sys2Proof.Machine
end

