-- ==== Sys2Proof/Machine/Power.lean ====
section
/-!
DEFINITION. Machine/Power.lean: the power manager and the performance-counter commands (chapter 20, R464 to R468, R475,
R477).
-/

namespace Sys2Proof.Machine

/-! ## The inputs of the selection (R465, R466, R470) -/

/-- Some sequence is RUNNING, HELD, ABORTING or RESTORED: a recipe is under way. -/
def State.recipeRuns (s : State) : Bool :=
  (List.range 64).any fun q =>
    let st := (s.ctx q).state
    st = seqRunning || st = seqHeld || st = seqAborting || st = seqRestored

/-- Some converter, output, motion or field unit is enabled. -/
def State.unitsOn (s : State) : Bool :=
  !s.axesOn.isEmpty || s.flag DAC_EN.EN || (List.range 4).any (fun g => s.adcMode g != 0) ||
    (List.range 64).any (fun c => s.flag (PWM_CH_CFG.MODE c)) || (List.range 32).any (fun c => s.flag (SDM_CH_CFG.EN c)) ||
    (List.range 16).any (fun c => s.flag (POS_ENC_CFG.EN c)) || (List.range 8).any (fun c => s.flag (POS_SSI_CFG.EN c)) ||
    (List.range 4).any (fun r => s.flag (RIO_RING_CFG.EN r)) || (List.range 8).any (fun c => s.flag (CAN_CTL.EN c))

/-- The tick is live (R465). -/
def State.tickLive (s : State) : Bool :=
  s.loops.any (fun i => !s.lStopped i) || (List.range 8).any (fun n => s.flag (LOG_TASK_CFG.ENABLE n)) || s.recipeRuns ||
    s.unitsOn || (List.range 4).any s.portUp || s.flag PAIR_CFG.EN

/-- The deepest state that lifecycle and debug level permit (R470). -/
def State.lifeLimit (s : State) : Nat :=
  match s.sec.life, s.fld DBG_STAT.LEVEL with
  | 3, _ => 1
  | 2, 0 => 4
  | 2, _ => 1
  | _, 0 => 4
  | _, _ => 3

/-- The limit of R466; states are coded as DEEPEST. -/
def State.pwrLimit (s : State) : Nat :=
  let l := min (s.fld PWR_CFG.DEEPEST) s.lifeLimit
  let l := if s.tickLive then min l 1 else l
  let l := if s.flag PWR_STAT.HIB_OK then l else min l 3
  if s.halted then 0 else l

/-- Wake latency of a state, in ns. -/
def wakeNs (st : Nat) : Nat :=
  match st with
  | 1 => 40
  | 2 => 8000
  | 3 => 300000
  | 4 => 40000000
  | _ => 0

/-- The sequencer's instant is BUSY (R131). -/
def State.seqBusy (s : State) : Bool :=
  (List.range 64).any fun q =>
    let c := s.ctx q
    let on := c.state = seqRunning || c.state = seqAborting
    (on && ((List.range c.nCond).any (fun k => bitsOf (c.word (8 + 2 * k)) 0 4 != 0) ||
        s.rampList.any fun r => r.2.seq = q)) || c.pend.isSome || !c.commits.isEmpty

/-- The boundaries at which step timers of RUNNING and ABORTING sequences expire, as tick numbers. -/
def State.timerTicks (s : State) : List Nat :=
  (List.range 64).filterMap fun q =>
    let c := s.ctx q
    if (c.state = seqRunning || c.state = seqAborting) && c.tmoEn then
      some ((s.seq.lastEval.getD s.time.tick) + (2 * c.timer - c.elapsed))
    else none

/-- How far ahead the next known event lies, in ns (E of R466). -/
def State.nextEvent (s : State) : Option Nat :=
  let n := s.schNext
  let sch := if n.1 = 1 then [n.2.2] else []
  let seq := s.timerTicks.map fun t => boundaryNs t - s.ns
  let ptp := if s.flag TIM_STAT.NEXT_VALID then [s.ahead (s.fld TIM_NEXT.TIME)] else []
  let tick := if s.tickLive then [boundaryNs s.time.nextTick - s.ns] else []
  (sch ++ seq ++ ptp ++ tick).min?

/-- The deepest state up to `lim` that the next event allows. -/
def deepest (lim : Nat) (e : Option Nat) : Nat :=
  match e with
  | none => lim
  | some d => ((List.range (lim + 1)).filter fun st => 4 * wakeNs st ≤ d).foldl max 0

/-- The state that R466 selects. -/
def State.pwrChoice (s : State) : Nat :=
  if s.schNext.1 = 2 || s.seqBusy || s.flag PWR_CMD.HOLD then 0 else deepest s.pwrLimit s.nextEvent

/-! ## Entering a state (R464, R468) -/

/-- The vales that DOZE and NAP leave running. -/
def awakeVales : List Nat := [Vale.scheduler, Vale.alwaysOn, Vale.safety]

/-- The CLK_VALE_STAT bits that DOZE and NAP stop. -/
def State.sleepMask (s : State) : Nat := awakeVales.foldl (fun m v => putBits m v 1 0) (s.fld CLK_VALE_STAT.RUN)

/-- DOZE and NAP: vales stop; in NAP the SerDes are off, so that links and rings go down. -/
def State.sleepEnter (s : State) (st : Nat) : State :=
  let s := if st = 3 then (s.each (List.range 4) State.linkLoss).each (List.range 4) State.ringLoss else s
  let m := s.sleepMask
  { s.setFld CLK_VALE_STAT.RUN (s.fld CLK_VALE_STAT.RUN - m) with
      pwr := { s.pwr with stopped := m, capture := .none }, time := { s.time with phase := .none } }

/-- HIBERNATE: core power is off, and everything but the always-on vale's registers, the safety vale and the retained store
is lost. -/
def State.hibernate (s : State) : State :=
  let t := s.dieReset .hib
  let t := (t.setReg SYS_RST_CAUSE (s.reg SYS_RST_CAUSE)).setFld CLK_VALE_STAT.RUN (2 ^ Vale.alwaysOn + 2 ^ Vale.safety)
  { t with pwr := { t.pwr with stopped := 0, capture := .none }, boot := { t.boot with sel := s.boot.sel, dir := s.boot.dir },
           pair := { t.pair with strap := s.pair.strap } }

/-- Entering state `st` with the next event `e` ns ahead. -/
def State.pwrEnter (s : State) (st : Nat) (e : Option Nat) : State :=
  let s := s.setFld PWR_STAT.STATE st
  let at_ := match e with | some d => if st = 0 then none else some (s.ns + d - wakeNs st * 6 / 5) | none => none
  let s := { s with pwr := { s.pwr with wakeAt := at_, waking := none } }
  if st = 4 then s.hibernate else if 2 ≤ st then s.sleepEnter st else s

/-- POWER_STATE_SELECT: before DOZE and deeper states the journal completes a capture, until which the device stays in IDLE or
RUN. While the device sleeps or wakes nothing is selected. -/
def State.powerSelect (s : State) : State :=
  if 2 ≤ s.fld PWR_STAT.STATE || s.pwr.waking.isSome then s
  else if 4 < s.fld PWR_CFG.DEEPEST then s.undef 479
  else
    let e := s.nextEvent
    let st := s.pwrChoice
    let s := (s.setFld PWR_STAT.LIMIT s.pwrLimit).setFld PWR_STAT.LIVE (b2n s.tickLive)
    let s := s.setFld PWR_NEXT.E (match e with | some d => shortOf (s.ns + d) | none => 0)
    if st < 2 then { s with pwr := { s.pwr with capture := .none } }.pwrEnter st e
    else if s.jrnWrites && s.pwr.capture != .complete then
      let c := if s.pwr.capture = .none then .wanted else s.pwr.capture
      { s with pwr := { s.pwr with capture := c } }.pwrEnter (min st 1) e
    else s.pwrEnter st e

/-- What a request into a stopped vale does: it wakes the device and is carried out; then R466 runs again. -/
def State.awake (s : State) (cause : Nat) (f : State → State) : State :=
  if s.pwr.stopped = 0 then f s else (f (s.wakeUp cause)).powerSelect

/-! ## The commands -/

/-- WAKE_TIMER: the timed wake begins; in HIBERNATE not while PFAIL_N is low. -/
def execWakeTimer (s : State) : Res :=
  match s.pwr.wakeAt with
  | none => .next s
  | some t =>
    if s.ns < t || !s.flag PWR_STAT.STATE || s.pwr.waking.isSome || (s.fld PWR_STAT.STATE = 4 && s.jrn.pfail) then .next s
    else .next { s with pwr := { s.pwr with waking := some 1 } }

/-- WAKE_LINE: an edge on a line that PWR_WAKE names. -/
def execWakeLine (line : Nat) (s : State) : Res :=
  let named := line != 0xFF && (List.range 4).any fun k => s.fld (PWR_WAKE.LINE k) = line
  if !named || s.fld PWR_STAT.STATE < 2 || s.pwr.waking.isSome || (s.fld PWR_STAT.STATE = 4 && s.jrn.pfail) then .next s
  else .next { s with pwr := { s.pwr with waking := some 5 } }

/-- PCIE_L1_EXIT. -/
def execPcieL1Exit (s : State) : Res :=
  if s.fld PWR_STAT.STATE = 3 && s.pwr.waking.isNone then .next { s with pwr := { s.pwr with waking := some 4 } } else .next s

/-- WAKE_COMPLETE: the state is RUN; an accepted PFAIL_N is served first, else R466 runs again. A wake from HIBERNATE ends with
HIB_WAKE. -/
def execWakeComplete (s : State) : Res :=
  match s.pwr.waking with
  | none => .next s
  | some c =>
    if s.fld PWR_STAT.STATE = 4 then .next s
    else
      let t := (s.wakeUp c).setFld PWR_STAT.STATE 0
      let t := { t.setFld PWR_STAT.CAUSE c with pwr := { t.pwr with waking := none, wakeAt := none } }
      if t.jrn.pfail then t.pfailRaise.done else t.powerSelect.done

/-- HOLD: PWR_CMD. -/
def execPwrHold (hold : Bool) (s : State) : Res :=
  if s.powerFail then .next s
  else
    let t := s.wakeUp 2
    (t.setFld PWR_CMD.HOLD (b2n hold)).powerSelect.done

/-- FRAME_INGRESS: in DOZE a frame on a port in use wakes the device (R467). -/
def execFrameIngress (port : Nat) (frame : EthFrame) (s : State) : Res :=
  if s.fld PWR_STAT.STATE = 2 && bitOf s.pwr.stopped Vale.net && port < 6 && s.flag (NET_PORT_CFG.EN port) then
    (s.awake 3 fun t => t.frameIngress port frame).done
  else .next (s.frameIngress port frame)

/-! ## Performance counters -/

/-- SNAP. -/
def execPmcSnap (s : State) : Res :=
  .next (s.each (List.range 64) fun t k => t.setFld (PMC_SNAP.COUNT k) (t.fld (PMC_CNT.COUNT k)))

/-- CLEAR: the counters, the histograms and PMC_PS_STAT. -/
def execPmcClear (s : State) : Res :=
  let s := s.clrRegs ((List.range 64).map PMC_CNT ++ (List.range 16).map PMC_HDISP ++ (List.range 16).map PMC_HGRANT)
  .next { s.clrReg PMC_PS_STAT with psNext := 0 }

end Sys2Proof.Machine
end

