-- ==== Sys2Proof/Machine/Security.lean ====
section
/-!
DEFINITION. Machine/Security.lean: the security engine's commands, authenticated debug and the debug halt (chapter 20, R456
to R463, R471, R472).
-/

namespace Sys2Proof.Machine

/-! ## Slots and results -/

/-- The key in public slot `n`, or in slot A`n`; empty where the slot is not filled (R458). -/
def State.pubKey (s : State) (n : Nat) : List Byte := Sparse.get (fun _ => []) s.sec.pub n
def State.aesKey (s : State) (n : Nat) : List Byte := Sparse.get (fun _ => []) s.sec.aes n

/-- Public slot `n` is filled. -/
def State.pubFilled (s : State) (n : Nat) : Bool := !(s.pubKey n).isEmpty

/-- SEC_STAT.RESULT. -/
def State.secResult (s : State) (r : Nat) : State := s.setFld SEC_STAT.RESULT r

/-- A write to a privileged register from another writer is ignored and counted (R474, HST_CNT). -/
def State.notPriv (s : State) : State := s.incFld HST_CNT.REFUSED

/-- A lifecycle transition to `goal` where `ok` holds: forward only, in force from the next reset other than HIB (R457). -/
def State.secMove (s : State) (goal : Nat) (ok : Bool) : State :=
  if ok && s.sec.next < goal then { s with sec := { s.sec with next := goal } }.secResult 0 else s.secResult 2

/-- A command of SEC_CMD takes effect only from a privileged writer. -/
def State.secCmd (s : State) (priv : Bool) (f : State → State) : Res :=
  if !s.cmdOpen then .next s else if priv then (f s).done else .next s.notPriv

/-! ## SEC commands -/

/-- PROVISION. -/
def execSecProvision (priv : Bool) (s : State) : Res :=
  s.secCmd priv fun t =>
    t.secMove 1 (t.sec.life = 0 && t.pubFilled 12 && (List.range 11).any fun n => t.pubFilled (n + 1))

/-- LOCK: the committed base image is signed by a slot from 1 to 11. -/
def execSecLock (priv : Bool) (s : State) : Res :=
  s.secCmd priv fun t =>
    t.secMove 2 (t.sec.life = 1 && t.pubFilled 12 && t.pubFilled 13 && t.committed && 1 ≤ t.boot.keyId && t.boot.keyId ≤ 11)

/-- RETIRE. -/
def execSecRetire (priv : Bool) (s : State) : Res :=
  s.secCmd priv fun t => t.secMove 3 (t.sec.life != 3)

/-- RAISE_SVN (R459). -/
def execSecRaiseSvn (priv : Bool) (s : State) : Res :=
  s.secCmd priv fun t =>
    let v := t.fld SEC_ARG.SVN
    if t.committed && t.sec.floor < v && v ≤ t.boot.svn then { t with sec := { t.sec with floor := v } }.secResult 0
    else t.secResult 4

/-- The bytes of the first `n` key words. -/
def State.keyBytes (s : State) (n : Nat) : List Byte :=
  (List.range n).flatMap fun k => natBytes 4 (Sparse.get (fun _ => 0) s.sec.keyBuf k).toNat

/-- KEY_WRITE (R458): an empty slot, in OPEN or PROVISIONED; a public key must be a point of the curve. -/
def State.keyWrite (s : State) : State :=
  let n := s.fld SEC_KEY_SEL.SLOT
  let t := { s with sec := { s.sec with keyBuf := [] } }
  if 1 < s.sec.life then t.secResult 2
  else if s.flag SEC_KEY_SEL.AES then
    if !(s.aesKey (n % 4)).isEmpty then t.secResult 3
    else { t with sec := { t.sec with aes := Sparse.set (fun _ => []) t.sec.aes (n % 4) (s.keyBytes 8) } }.secResult 0
  else if 13 < n then s.undef 479
  else if s.pubFilled n then t.secResult 3
  else if n = 0 then t.secResult 2
  else
    let k := s.keyBytes 24
    if onCurve k then
      { t with sec := { t.sec with pub := Sparse.set (fun _ => []) t.sec.pub n k } }.secResult 0
    else t.secResult 1

/-- KEY_WRITE. -/
def execSecKeyWrite (priv : Bool) (s : State) : Res := s.secCmd priv State.keyWrite

/-- KEY_DATA_WRITE: a key word, and WORD moves on; a WORD beyond the key is reserved. -/
def execKeyDataWrite (data : Word) (s : State) : Res :=
  if !s.cmdOpen then .next s
  else
    let w := s.fld SEC_KEY_SEL.WORD
    if (if s.flag SEC_KEY_SEL.AES then 7 else 23) < w then (s.undef 479).done
    else .next ({ s with sec := { s.sec with keyBuf := Sparse.set (fun _ => 0) s.sec.keyBuf w data } }.wrapFld SEC_KEY_SEL.WORD)

/-! ## Authenticated debug (R461 to R463) -/

/-- DBG_STAT.RESULT. -/
def State.dbgResult (s : State) (r : Nat) : State := s.setFld DBG_STAT.RESULT r

/-- CHALLENGE: the one before expires. -/
def execDbgChallenge (s : State) : Res :=
  if !s.cmdOpen then .next s
  else if s.flag DBG_STAT.LOCKOUT then .next (s.dbgResult 5)
  else .next ({ s with sec := { s.sec with drawing := true, issued := none } }.dbgResult 0)

/-- The challenge made from 32 random bytes: SYS_UID, the lifecycle code, the level asked for, N. -/
def State.challenge (s : State) (rand : List Byte) : List Byte :=
  sha384 (natBytes 8 s.myUid ++ [BitVec.ofNat 8 s.sec.life, 1] ++ (rand ++ natBytes 32 0).take 32)

/-- CHALLENGE_READY. -/
def execChallengeReady (rand : List Byte) (s : State) : Res :=
  if !s.sec.drawing then .next s
  else
    let c := s.challenge rand
    let s := s.each (List.range 12) fun t n => t.setReg (DBG_CHAL n) (BitVec.ofNat 32 (bytesNat ((c.drop (4 * n)).take 4)))
    .next { s with sec := { s.sec with drawing := false, issued := some s.ns } }

/-- VERIFY: AUTH can be reached in PROVISIONED and LOCKED only. -/
def execDbgVerify (s : State) : Res :=
  if !s.cmdOpen then .next s
  else if s.sec.life != 1 && s.sec.life != 2 then .next (s.dbgResult 4)
  else .next { s with sec := { s.sec with verifying := true } }

/-- The bytes of `n` registers from `f`, four a register. -/
def State.regBytes (s : State) (f : Nat → Nat) (n : Nat) : List Byte :=
  (List.range n).flatMap fun k => natBytes 4 (s.reg (f k)).toNat

/-- A failed VERIFY; the third in a row sets LOCKOUT. -/
def State.verifyFails (s : State) (r : Nat) : State :=
  let n := min 3 (s.fld DBG_STAT.FAILS + 1)
  let s := (s.setFld DBG_STAT.FAILS n).dbgResult r
  if n = 3 then s.setFld DBG_STAT.LOCKOUT 1 else s

/-- VERIFY_RESULT: on success the level is AUTH and the challenge is spent; a device that sleeps wakes (R473). -/
def execVerifyResult (s : State) : Res :=
  if !s.sec.verifying then .next s
  else
    let s := { s with sec := { s.sec with verifying := false } }
    if s.sec.issued.isNone then .next (s.verifyFails 2)
    else if s.pubFilled 13 && ecdsaVerify (s.pubKey 13) (s.regBytes DBG_CHAL 12) (s.regBytes DBG_RESP 24) then
      let s := { s with sec := { s.sec with issued := none } }
      let s := ((s.setFld DBG_STAT.LEVEL 1).setFld DBG_STAT.FAILS 0).dbgResult 0
      (s.awake 6 fun t => t).done
    else .next (s.verifyFails 1)

/-- CHALLENGE_EXPIRY: a challenge expires 60 s after its issue (R462). -/
def execChallengeExpiry (s : State) : Res :=
  match s.sec.issued with
  | some t => if t + 60000000000 ≤ s.ns then .next { s with sec := { s.sec with issued := none } } else .next s
  | none => .next s

/-- REQUEST_FULL: in OPEN only. -/
def execDbgRequestFull (s : State) : Res :=
  if !s.cmdOpen then .next s
  else if s.sec.life = 0 then .next ((s.setFld DBG_STAT.LEVEL 2).dbgResult 0)
  else .next (s.dbgResult 4)

/-! ## The debug halt (R471, R472) -/

/-- HALT. -/
def execDbgHalt (s : State) : Res :=
  if !s.cmdOpen then .next s
  else if !s.flag DBG_STAT.LEVEL then .next (s.dbgResult 4)
  else if s.sec.life = 2 && s.recipeRuns then .next (s.dbgResult 3)
  else .next ({ s with sec := { s.sec with haltReq := !s.halted } }.dbgResult 0)

/-- RESUME. -/
def execDbgResume (s : State) : Res :=
  if !s.cmdOpen then .next s
  else .next ({ s with sec := { s.sec with resumeReq := s.halted || s.sec.haltReq } }.dbgResult 0)

/-- DROP: the level returns to OFF, and a halt ends with it. -/
def execDbgDrop (s : State) : Res :=
  if !s.cmdOpen then .next s
  else .next (({ s with sec := { s.sec with haltReq := false, resumeReq := s.halted } }.setFld DBG_STAT.LEVEL 0).dbgResult 0)

/-- The end of a halt at boundary `k`: finite deadlines, expiries and armed time-outs move by K − H, an armed pass-commit unit
fires, and every loop slot's GEN moves on. -/
def State.haltEnd (s : State) (h k : Nat) : State :=
  let d := (k - h) * tickNs
  let s := { s with sec := { s.sec with haltAt := none, resumeReq := false } }
  let s := (s.setFld DBG_STAT.HALTED 0).setFld DBG_HALT.TICKS (k - h)
  let s := s.each s.sch.jobs fun t i =>
    let t := if t.jInf i then t else t.setPw (t.descAt i 0) (t.jDeadline i + d)
    t.setPw (t.descAt i 0x1C) (t.jExpiry i + d)
  let s := s.passFire
  let s := { s with sch := { s.sch with timeouts := s.sch.timeouts.map fun (p : Nat × Option Nat) =>
    (p.1, p.2.map fun e => shortOf (e + d)) } }
  s.loopBumpGens

/-- The strobe of tick `t` as the halt sees it (R471, R472). -/
def State.haltStrobe (s : State) (t : Nat) : State :=
  match s.sec.haltAt with
  | some h => if s.sec.resumeReq then s.haltEnd h t else s
  | none =>
    if s.sec.haltReq then
      { s.setFld DBG_STAT.HALTED 1 with sec := { s.sec with haltAt := some t, haltReq := false } }
    else s

end Sys2Proof.Machine
end

