-- ==== Sys2Proof/Machine/Boot.lean ====
section
/-!
DEFINITION. Machine/Boot.lean: the loader (chapter 19, R430 to R441) and the snapshot of HIBERNATE (R469): judging containers,
choosing a copy, loading its sections, the cross-checks of R440, and commit.
-/

namespace Sys2Proof.Machine

/-! ## The container (R433 to R435) -/

/-- Header fields; FORMAT 0x03 reads bytes 0x10 to 0x33 as 0 and has neither ENC nor CHANGE. -/
def imgFormat (b : List Byte) : Nat := cfgBits b 0 16 8
def imgNew (b : List Byte) : Bool := imgFormat b != 3
def imgEnc (b : List Byte) : Bool := imgNew b && cfgBits b 0 24 1 = 1
def imgChange (b : List Byte) : Bool := imgNew b && cfgBits b 0 25 1 = 1
def imgGen (b : List Byte) : Nat := cfgWord b 4
def imgLength (b : List Byte) : Nat := cfgWord b 8
def imgNSect (b : List Byte) : Nat := cfgBits b 0x0C 24 8
def imgKeyId (b : List Byte) : Nat := if imgNew b then cfgBits b 0x10 0 4 else 0
def imgSvn (b : List Byte) : Nat := if imgNew b then cfgBits b 0x10 16 16 else 0
def imgChg (b : List Byte) : Nat := if imgNew b then cfgBits b 0x14 0 4 else 0

/-- Codes of BOOT_ERR. -/
def errNoDirectory : Nat := 1
def errNoImage : Nat := 2
def errConflict : Nat := 3
def errFormat : Nat := 4
def errPart : Nat := 5
def errSignature : Nat := 6
def errRollback : Nat := 7
def errTag : Nat := 8
def errResource : Nat := 9
def errDownhill : Nat := 0xA
def errUnstable : Nat := 0xB
def errSection : Nat := 0xC
def errNotOnline : Nat := 0xD
def errChain : Nat := 0xE
def errNotPersistent : Nat := 0xF
def errState : Nat := 0x10

/-- The digest of a container: SHA-384 of everything before its signature. -/
def imgDigest (b : List Byte) : List Byte := sha384 (b.take (imgLength b - 96))

/-- The container with its payload in the clear; none where the tag does not match. -/
def State.imgOpen (s : State) (b : List Byte) : Option (List Byte) :=
  let n := imgLength b
  if imgEnc b then
    let h := 0x40 + 16 * imgNSect b
    let key := s.aesKey (imgKeyId b % 4)
    if key.isEmpty then none
    else match gcmOpen key ((b.drop 0x18).take 12) (b.take h) ((b.take (n - 96)).drop h) ((b.drop 0x24).take 16) with
      | some p => some (b.take h ++ p ++ (b.take n).drop (n - 96))
      | none => none
  else some (b.take n)

/-- Slot `k` may sign images in the lifecycle state in force (R458). -/
def State.slotValid (s : State) (k : Nat) : Bool :=
  s.pubFilled k && ((k = 0 && s.sec.life < 2) || (1 ≤ k && k ≤ 11 && s.sec.life < 3))

/-- A container that passed: its bytes as read, its digest, and its bytes in the clear. -/
structure Img where
  raw : List Byte
  digest : List Byte
  clear : List Byte
deriving DecidableEq, Repr

/-- Judging a container of at most `room` bytes (R436), base or change: the first failing test gives the code. -/
def State.judge (s : State) (change : Bool) (room : Nat) (b : List Byte) : Except Nat Img :=
  let n := imgLength b
  if cfgBits b 0 0 16 != 0x4D49 || (imgFormat b != 3 && imgFormat b != 4) || imgChange b != change then .error errFormat
  else if cfgBits b 0x0C 0 16 != 0x7400 || bitsOf (s.reg SYS_ID).toNat 8 8 < cfgBits b 0x0C 16 8 then .error errPart
  else if n < 160 || room < n || b.length < n then .error errFormat
  else
    let d := imgDigest b
    if !s.slotValid (imgKeyId b) || !ecdsaVerify (s.pubKey (imgKeyId b)) d ((b.take n).drop (n - 96)) then .error errSignature
    else if imgSvn b < s.sec.floor then .error errRollback
    else match s.imgOpen b with
      | some p => .ok { raw := b.take n, digest := d, clear := p }
      | none => .error errTag

/-- A section of the table (R434). -/
structure Sect where
  ty : Nat
  off : Nat
  len : Nat
  dest : Nat
deriving DecidableEq, Repr

def imgSects (b : List Byte) : List Sect :=
  (List.range (imgNSect b)).map fun i =>
    let o := 0x40 + 16 * i
    { ty := cfgBits b o 0 8, off := cfgWord b (o + 4), len := cfgWord b (o + 8), dest := cfgWord b (o + 12) }

/-- The content of a section. -/
def sectBytes (b : List Byte) (x : Sect) : List Byte := (b.drop x.off).take x.len

/-- A section lies inside its container, after the table and before the signature. -/
def sectInside (b : List Byte) (x : Sect) : Bool := 0x40 + 16 * imgNSect b ≤ x.off && x.off + x.len + 96 ≤ imgLength b

/-- The content of the sections of a type. -/
def sectsOf (b : List Byte) (ty : Nat) : List Byte := ((imgSects b).filter fun x => x.ty = ty).flatMap (sectBytes b)

/-- 8-byte entries, as two words. -/
def wordPairs (bs : List Byte) : List (Nat × Nat) :=
  (List.range (bs.length / 8)).map fun i => (cfgWord bs (8 * i), cfgWord bs (8 * i + 4))

/-- Claims (R440): KIND, FIRST, COUNT. -/
def imgClaims (b : List Byte) : List (Nat × Nat × Nat) :=
  (wordPairs (sectsOf b 1)).map fun p => (bitsOf p.1 0 8, bitsOf p.1 8 24, bitsOf p.2 0 24)

/-- REGISTERS pairs. -/
def imgPairs (b : List Byte) : List (Nat × Nat) := wordPairs (sectsOf b 3)

/-- BASE_ID and PREV of a change (R434). -/
def imgLink (b : List Byte) : List Byte × List Byte := ((sectsOf b 9).take 32, ((sectsOf b 9).drop 32).take 32)

/-- A reserved field of a container holds a value that is not 0, or a code that the spec does not list (R455). -/
def imgReserved (b : List Byte) : Bool :=
  cfgBits b 0 26 6 != 0 || (imgNew b && (cfgBits b 0x10 4 12 != 0 || cfgBits b 0x14 4 28 != 0)) ||
    (List.range 3).any (fun k => cfgWord b (0x34 + 4 * k) != 0) || imgNSect b = 0 ||
    (List.range (imgNSect b)).any (fun i => cfgBits b (0x40 + 16 * i) 8 24 != 0) ||
    (imgSects b).any (fun x => x.ty = 0 || 0x0A < x.ty || (x.ty = 5 && (x.dest / 2 ^ 28 = 0 || 6 < x.dest / 2 ^ 28))) ||
    (wordPairs (sectsOf b 1)).any (fun p => bitsOf p.1 0 8 = 0 || 0x0D < bitsOf p.1 0 8 || bitsOf p.2 24 8 != 0)

/-! ## Stops -/

/-- The loader stops; the outputs are in their hardware reset states, as before commit. -/
def State.loaderStop (s : State) (code item : Nat) : State :=
  ((s.setFld BOOT_STAT.STATE 4).setFld BOOT_ERR.CODE code).setFld BOOT_ERR.ITEM item

/-! ## Choosing a copy (R431, R432, R436, R437) -/

/-- A copy area and a change image at most (R432, R433). -/
def copyRoom : Nat := 0x4000000
def changeRoom : Nat := 0x400000

/-- The directory names copy `n`; it gives copies change areas. -/
def dirHas (d : List Byte) (n : Nat) : Bool := n < 3 && cfgWord d (0x2C + 4 * n) != 0xFFFFFFFF
def dirChg (d : List Byte) : Bool := cfgBits d 0x38 0 1 = 1

/-- A directory is intact: its CRC, MAGIC and FORMAT are correct. -/
def dirIntact (d : List Byte) : Bool :=
  d.length = 64 && cfgWord d 0x3C = crc32c (d.take 0x3C) && cfgBits d 0 0 24 = 0x014944

/-- A field that R432 does not list is not 0, or N is above 4. -/
def dirReserved (d : List Byte) : Bool :=
  cfgBits d 0 24 8 != 0 || cfgWord d 4 != 0 || cfgBits d 8 12 20 != 0 || cfgWord d 0x14 != 0 || cfgBits d 0x18 12 20 != 0 ||
    cfgWord d 0x24 != 0 || cfgBits d 0x28 13 3 != 0 || cfgBits d 0x28 29 3 != 0 || cfgBits d 0x38 1 31 != 0 ||
    4 < cfgBits d 8 9 3 || 4 < cfgBits d 0x18 9 3

/-- The chain of a copy: each change intact, the next CHG, naming the base and its predecessor. -/
def State.judgeChain (s : State) (base : List Byte) : Nat → List Byte → List (List Byte × Option Nat) → List (Img × Option Nat)
  | _, _, [] => []
  | k, prev, (b, a) :: t =>
    match s.judge true changeRoom b with
    | .ok i =>
      if k < 16 && imgChg i.clear = k && imgLink i.clear = (base.take 32, prev.take 32) then
        (i, a) :: s.judgeChain base (k + 1) i.digest t
      else []
    | .error _ => []

/-- What the verify pass finds in a copy. -/
def State.judgeCopy (s : State) (chg : Bool) (c : CopyBytes) : CopyInfo :=
  match s.judge false copyRoom c.base with
  | .ok i =>
    let l := if chg then s.judgeChain i.digest 1 i.digest c.chain else []
    { result := 0, gen := imgGen i.raw, keyId := imgKeyId i.raw, svn := imgSvn i.raw, length := imgLength i.raw,
      digest := i.digest, chain := l.map fun p => (p.1.digest, p.2) }
  | .error e => { result := e, gen := 0, keyId := 0, svn := 0, length := 0, digest := [], chain := [] }

/-- Two copies agree: base digests and chains are equal. -/
def CopyInfo.agrees (a b : CopyInfo) : Bool := a.digest = b.digest && a.chain.map (fun p => p.1) = b.chain.map fun p => p.1

/-- Copy `a` ranks above copy `b`. -/
def CopyInfo.above (a b : CopyInfo) : Bool := b.gen < a.gen || (a.gen = b.gen && b.chain.length < a.chain.length)

/-- The intact copies. -/
def State.intact (s : State) : List (Nat × CopyInfo) :=
  (List.range 3).filterMap fun n =>
    match Sparse.get (fun _ => none) s.boot.copies n with
    | some c => if c.result = 0 then some (n, c) else none
    | none => none

/-- The selection among intact copies: a copy, or NO_IMAGE or IMAGE_CONFLICT. -/
def chooseCopy (l : List (Nat × CopyInfo)) : Except Nat (Nat × CopyInfo) :=
  match l.find? fun p => l.any fun q => p.1 < q.1 && p.2.agrees q.2 with
  | some p => .ok p
  | none =>
    match l.find? fun p => l.all fun q => p.1 = q.1 || p.2.above q.2 with
    | some p => .ok p
    | none => .error (if l.isEmpty then errNoImage else errConflict)

/-- The content of copy `n` is taken: the load pass follows. -/
def State.takeCopy (s : State) (n : Nat) (c : CopyInfo) : State :=
  let s := { s with boot := { s.boot with pick := some c, host := n = 3, hib := false } }
  ((s.setFld BOOT_STAT.COPY n).setFld BOOT_STAT.STATE 2).clrReg BOOT_ERR

/-- The verify pass is over: the selection, or under BOOT_SEL 0b00 the quad pass where no copy is intact. -/
def State.copySelect (s : State) : State :=
  if s.intact.isEmpty && s.boot.sel = 0 && !s.boot.quad then
    let s := { s with boot := { s.boot with quad := true, dir := [], copies := [] } }
    ((s.clrRegs [BOOT_COPY 0, BOOT_COPY 1, BOOT_COPY 2]).setFld BOOT_STAT.MODE 1).setFld BOOT_STAT.STATE 0
  else match chooseCopy s.intact with
    | .ok p => s.takeCopy p.1 p.2
    | .error e => s.loaderStop e 0

/-- The loader is at work in state `st`. -/
def State.loaderIn (s : State) (st : Nat) : Bool := s.cmdOpen && !s.committed && s.fld BOOT_STAT.STATE = st

/-- Every copy of the directory has been judged. -/
def State.allJudged (s : State) : Bool :=
  (List.range 3).all fun n => !dirHas s.boot.dir n || (Sparse.get (fun _ => none) s.boot.copies n).isSome

/-- DIRECTORY_READ (R431): the directory, else its duplicate. -/
def execDirectoryRead (first second : List Byte) (s : State) : Res :=
  if !s.loaderIn 0 then .next s
  else match [first, second].find? dirIntact with
    | none => .next (s.loaderStop errNoDirectory 0)
    | some d =>
      if dirReserved d then (s.undef 455).done
      else
        let s := { s with boot := { s.boot with dir := d } }.setFld BOOT_STAT.STATE 1
        .next (if s.allJudged then s.copySelect else s)

/-- COPY_VERIFY (R436): BOOT_COPYn shows the result; after the last present copy comes the selection. -/
def execCopyVerify (copy : Nat) (data : CopyBytes) (s : State) : Res :=
  if !s.loaderIn 1 || !dirHas s.boot.dir copy || (Sparse.get (fun _ => none) s.boot.copies copy).isSome then .next s
  else
    let c := s.judgeCopy (dirChg s.boot.dir) data
    let s := { s with boot := { s.boot with copies := Sparse.set (fun _ => none) s.boot.copies copy (some c) } }
    let s := ((s.setFld (BOOT_COPY.RESULT copy) c.result).setFld (BOOT_COPY.CHAIN copy) c.chain.length).setFld
      (BOOT_COPY.GEN copy) c.gen
    .next (if s.allJudged then s.copySelect else s)

/-! ## Loader commands (R438) -/

/-- The host-load area. -/
def hostArea : Nat := 0x1000000
def hostRoom : Nat := 16711680

/-- SELECT: the copy must be intact. -/
def execBootSelect (copy : Nat) (s : State) : Res :=
  if !s.loaderIn 4 then .next s
  else match s.intact.find? fun p => p.1 = copy with
    | some p => .next (s.takeCopy p.1 p.2)
    | none => .next s

/-- The container in the host-load area. -/
def State.hostImage (s : State) : List Byte :=
  Memory.bytes s.plain hostArea (min hostRoom (max 64 (s.pw (hostArea + 8))))

/-- LOAD_HOST: the host's image, where it is an intact base image. -/
def execBootLoadHost (s : State) : Res :=
  if !s.loaderIn 4 then .next s
  else match s.judge false hostRoom s.hostImage with
    | .ok i =>
      let c : CopyInfo := { result := 0, gen := imgGen i.raw, keyId := imgKeyId i.raw, svn := imgSvn i.raw,
                            length := imgLength i.raw, digest := i.digest, chain := [] }
      .next ((s.takeCopy 3 c).setFld BOOT_STAT.MODE 3)
    | .error e => .next (s.loaderStop e 0)

/-- RETRY: the whole sequence from R431. -/
def execBootRetry (s : State) : Res := if s.loaderIn 4 then .next s.loaderStart else .next s

/-! ## Loading sections (R439) -/

/-- A load under way, or the CODE and ITEM that stop it. -/
abbrev Load := Except (Nat × Nat) State

/-- A register that a REGISTERS pair may address, and the value it may write there. -/
def pairOk (p : Nat × Nat) : Bool :=
  (match regAt p.1 with
   | some d => d.fields.any fun f => f.typ = .rw || f.typ = .rwl
   | none => false) &&
    !(p.1 = SIG_COUNT && 16384 < p.2) && !(p.1 = LOOP_COUNT && 1024 < p.2)

/-- A pair takes effect: the RW and RWL fields of its register. -/
def State.loadPair (s : State) (p : Nat × Nat) : State :=
  match regAt p.1 with
  | some d =>
    s.each (d.fields.filter fun f => f.typ = .rw || f.typ = .rwl) fun t f =>
      t.setFld ⟨p.1, f.lo, f.width⟩ (bitsOf p.2 f.lo f.width)
  | none => s

/-- Bytes written by the loader through fabric port 21; the part inside the safety window is discarded and counted (R42). -/
def State.loadPlain (s : State) (o : Nat) (bs : List Byte) : State :=
  let s := s.setPlain o (bs.take (0x1FF0000 - o))
  if 0x1FF0000 < o + bs.length then (s.incFld PLN_WIN_VIOL.COUNT).setFld PLN_WIN_VIOL.PORT 21 else s

/-- Units of `k` bytes. -/
def unitsOf (k : Nat) (bs : List Byte) : List Nat :=
  (List.range (bs.length / k)).map fun i => bytesNat ((bs.drop (k * i)).take k)

/-- The lanes that the lane field of a LOCAL section names: 0xF is every lane that is not reserved (R185). -/
def State.laneSel (s : State) (l : Nat) : List Nat := if l < 8 then [l] else (List.range 8).filter fun k => !s.reserved k

/-- Words of a logic program bank: 512 Ki. -/
def bankWords : Nat := 524288

/-- Bank `b`'s program record, and its words. -/
def State.setBankProg (s : State) (b : Bool) (p : LogProg) : State :=
  if b then { s with log := { s.log with prog1 := p } } else { s with log := { s.log with prog0 := p } }
def State.putBank (s : State) (b : Bool) (a w : Nat) : State :=
  if b then { s with log := { s.log with bank1 := Sparse.set (fun _ => 0) s.log.bank1 a (BitVec.ofNat 32 w) } }
  else { s with log := { s.log with bank0 := Sparse.set (fun _ => 0) s.log.bank0 a (BitVec.ofNat 32 w) } }

/-- A LOCAL section, its logic parts into bank `b`; none where it leaves its memory. -/
def State.loadLocal (s : State) (b : Bool) (dest : Nat) (bs : List Byte) (x : ImgExtra) : Option State :=
  let l := bitsOf dest 24 4
  let a := bitsOf dest 0 24
  let lanes (k cap lo : Nat) (put : LaneSt → Nat → Nat → LaneSt) : Option State :=
    let ws := unitsOf k bs
    if (8 ≤ l && l < 15) || a < lo || cap < a + ws.length then none
    else some (s.each (s.laneSel l) fun t n => t.modLane n fun v => ws.zipIdx.foldl (fun v p => put v (a + p.2) p.1) v)
  match dest / 2 ^ 28 with
  | 1 => lanes 4 0x1000 0x600 fun v i w => { v with prog := Sparse.set (fun _ => 0) v.prog i (BitVec.ofNat 32 w) }
  | 2 => lanes 2 32768 0 fun v i w => { v with data := Sparse.set (fun _ => 0) v.data i (BitVec.ofNat 16 w) }
  | 3 => lanes 2 16384 0 fun v i w => { v with coef := Sparse.set (fun _ => 0) v.coef i (BitVec.ofNat 16 w) }
  | 4 =>
    let ws := unitsOf 4 bs
    if bankWords < a + ws.length then none
    else
      let t := s.each ws.zipIdx fun t p => t.putBank b (a + p.2) p.1
      let q := t.bankProg b
      some (t.setBankProg b { q with len := max q.len (a + ws.length) })
  | 5 => if 0x100000 < 4 * a + bs.length then none else some (s.vmPut (4 * a) bs)
  | 6 =>
    match x.logic with
    | some p => some (s.setBankProg b { p with len := (s.bankProg b).len })
    | none => some s
  | _ => none

/-- The destination of section `x` overlaps what the load pass has not yet read of the host's image. -/
def hostOverlap (host : Bool) (length : Nat) (x : Sect) : Bool :=
  host && (x.ty = 4 || x.ty = 8) && hostArea + x.off < x.dest + x.len && x.dest < hostArea + length

/-- Section `i` of a container goes to its destination. -/
def State.loadSect (s : State) (host : Bool) (b : List Byte) (x : ImgExtra) (i : Nat) (t : Sect) : Load :=
  let bs := sectBytes b t
  let bad : Load := .error (errSection, i)
  if !sectInside b t || hostOverlap host (imgLength b) t then bad
  else match t.ty with
    | 1 | 2 | 7 => .ok s
    | 3 => .ok (s.each (wordPairs bs) State.loadPair)
    | 4 | 8 => if plainSize < t.dest + t.len then bad else .ok (s.loadPlain t.dest bs)
    | 5 => match s.loadLocal (s.flag LOG_BANK.ACTIVE) t.dest bs x with
      | some u => .ok u
      | none => bad
    | 6 => if 12288 < t.len then bad else .ok s
    | _ => if imgChange b then .ok s else bad

/-- Claims of one KIND whose ranges overlap: the index of the first that meets an earlier one. -/
def claimClash (cs : List (Nat × Nat × Nat)) : Option Nat :=
  (List.range cs.length).find? fun i =>
    match cs[i]? with
    | some c => (cs.take i).any fun d => d.1 = c.1 && d.2.1 < c.2.1 + c.2.2 && c.2.1 < d.2.1 + d.2.2
    | none => false

/-- The first flow declaration that waits for an order that is not below the one it holds (R60). -/
def uphill (fs : List (Nat × List Nat)) : Option Nat :=
  (List.range fs.length).find? fun i =>
    match fs[i]? with
    | some f => f.2.any fun w => w ≤ f.1
    | none => false

/-- The checks that go before any write: claims, declarations, pairs. -/
def imgCheck (b : List Byte) (x : ImgExtra) : Option (Nat × Nat) :=
  match claimClash (imgClaims b), uphill x.flows, (imgPairs b).findIdx? fun p => !pairOk p with
  | some i, _, _ => some (errResource, i)
  | none, some i, _ => some (errDownhill, i)
  | none, none, some i => some (errSection, i)
  | none, none, none => none

/-- What the operand for a container's opaque sections defaults to. -/
def ImgExtra.none_ : ImgExtra :=
  { flows := [], logic := none, routes := [], exports := [], vlans := [], mac0 := 0, mac1 := 0, rio := [], recRoutes := [] }

/-- The sections without a layout: a base sets them, a change may replace ring-table entries (R443). -/
def State.loadExtra (s : State) (change : Bool) (x : ImgExtra) : State :=
  let rio := x.rio.foldl (fun (m : Sparse RioEntry) p => Sparse.set (fun _ => RioEntry.zero) m p.1 p.2)
    (if change then s.rio.table else [])
  let s := { s with rio := { s.rio with table := rio } }
  if change then s
  else { s with cas := { s.cas with routes := x.routes, exports := x.exports },
                net := { s.net with vlans := x.vlans, mac0 := x.mac0, mac1 := x.mac1 },
                mdw := { s.mdw with routes := x.recRoutes } }

/-- Loading one container. -/
def State.loadOne (s : State) (host : Bool) (b : List Byte) (x : ImgExtra) : Load :=
  if imgReserved b then .ok (s.undef 455)
  else match imgCheck b x with
    | some e => .error e
    | none =>
      match (imgSects b).zipIdx.foldlM (fun t p => t.loadSect host b x p.2 p.1) s with
      | .ok t => .ok (t.loadExtra (imgChange b) x)
      | .error e => .error e

/-- Loading a base and its chain, in order. -/
def State.loadAll (s : State) (host : Bool) (bs : List (List Byte)) (xs : List ImgExtra) : Load :=
  bs.zipIdx.foldlM (fun t p => t.loadOne host p.1 (xs.getD p.2 ImgExtra.none_)) s

/-! ## The cross-checks of R440 -/

/-- The Plain regions that base registers name: offset and bytes. -/
def State.regions (s : State) : List (Nat × Nat) :=
  [(s.base SIG_DIR_BASE.BASE, 0x100000), (s.base SIG_CUR_BASE.BASE, 0x10000), (s.base SIG_OUT_BASE.BASE, 0x10000),
   (s.base SIG_GRP_BASE.BASE, 0x4000), (s.base SCH_DESC_BASE.BASE, 0x20000), (s.base SCH_FLOW_BASE.BASE, 0x1000),
   (s.base SEQ_HDR_BASE.BASE, 0x1000), (s.base SEQ_STEP_BASE.BASE, 0x100000), (s.base SEQ_ACT_BASE.BASE, 0x80000),
   (s.base LOOP_TBL_BASE.BASE, 0x20000), (s.base LOG_RET_BASE.BASE, 0x201000), (s.base JRN_STAGE_BASE.BASE, 0x10000),
   (s.base MOT_TBL_BASE.BASE, 0x800), (s.base NET_BUF_BASE.BASE, 0x200000), (s.base CAN_TBL_BASE.BASE, 0x4000),
   (s.base CAN_FIFO_BASE.BASE, 0x20000), (s.base MDW_SIG_BASE.BASE, 0x10000), (s.base MDW_SUM_BASE.BASE, 0x200000),
   (s.base MDW_REC_BASE.BASE, 0x200000), (s.base MDW_TRC_BASE.BASE, 0x200000), (s.base BOOT_STAGE_BASE.BASE, 0x400000),
   (s.base PMC_PS_BASE.BASE, 0x1000)]

/-- Claims cover the pages from `p` to `e`; each round extends from a claim that holds `p`. -/
def pagesClaimed (cs : List (Nat × Nat × Nat)) (e : Nat) : Nat → Nat → Bool
  | 0, p => e ≤ p
  | k + 1, p =>
    e ≤ p || match cs.find? fun c => c.1 = 0x0C && c.2.1 ≤ p && p < c.2.1 + c.2.2 with
      | some c => pagesClaimed cs e k (c.2.1 + c.2.2)
      | none => false

/-- Every region is claimed and meets neither another nor the safety window. -/
def State.regionsOk (s : State) (cs : List (Nat × Nat × Nat)) : Bool :=
  let rs := s.regions.zipIdx
  rs.all fun r =>
    let a := r.1.1
    let e := r.1.1 + r.1.2
    pagesClaimed cs ((e + 4095) / 4096) (cs.length + 1) (a / 4096) && e ≤ 0x1FF0000 &&
      rs.all fun q => q.2 ≤ r.2 || e ≤ q.1.1 || q.1.1 + q.1.2 ≤ a

/-- No two elements of a list are equal. -/
def allDistinct (l : List Nat) : Bool := l.zipIdx.all fun p => !(l.take p.2).contains p.1

/-- Reserved lanes and streams (R186, R253). -/
def State.lanesOk (s : State) : Bool :=
  let streamed := (List.range 8).filter fun l => s.flag (LANE_CFG.STREAM_EN l)
  (List.range 8).all (fun l =>
    (!s.flag (LANE_CFG.RES_EN l) || s.reserved l) &&
      (!(s.flag (LANE_CFG.STREAM_EN l) || s.flag (LANE_CFG.INH_EN l)) || s.flag (LANE_CFG.RES_EN l))) &&
    allDistinct (streamed.map fun l => s.fld (LANE_CFG.GROUP l)) &&
    streamed.all fun l => s.adcMode (s.fld (LANE_CFG.GROUP l)) != 0 && s.adcMode (s.fld (LANE_CFG.GROUP l)) != 2

/-- A pinned task's core is reserved (R196). -/
def State.tasksOk (s : State) : Bool :=
  (List.range 8).all fun n =>
    !s.flag (LOG_TASK_CFG.PIN n) || s.bit SCH_RESERVE.LOGIC (s.fld (LOG_TASK_CFG.CORE n))

/-- DAC bindings name enabled channels, one each (R255); CAN bindings differ (R400). -/
def State.bindingsOk (s : State) : Bool :=
  let dac := (s.boundTo 0x0A).map fun i => s.sigOutRef i % 32
  allDistinct dac && dac.all (fun n => s.bit DAC_EN.EN n) && allDistinct ((s.boundTo 0x0D).map s.sigOutRef)

/-- Remote I/O output fields do not overlap (R388): ring, module, first bit and width. -/
def State.rioOk (s : State) : Bool :=
  let fs := ((s.boundTo 0x0C).map fun i =>
    let r := s.rioRef i
    (128 * r.1 + r.2.1, fieldAt r.2.2.1 r.2.2.2.1 r.2.2.2.2, r.2.2.2.2)).zipIdx
  fs.all fun p => fs.all fun q =>
    q.2 ≤ p.2 || p.1.1 != q.1.1 || p.1.2.1 + p.1.2.2 ≤ q.1.2.1 || q.1.2.1 + q.1.2.2 ≤ p.1.2.1

/-- STEP and DIR lines of an enabled step/direction axis. -/
def State.stepLines (s : State) (a : Nat) : List Nat := if 16 ≤ a then [s.axB a 4 0 8, s.axB a 4 8 8] else []

/-- The resources of enabled axes are theirs alone, and current-drive channels fit (R261). -/
def State.axesOk (s : State) : Bool :=
  let steps := s.axesOn.flatMap fun a => (s.stepLines a).filter fun n => n != 0xFF
  let bound := (s.boundTo 0x0E).map fun i => s.sigOutRef i % 2 ^ 24
  let pwm := (s.boundTo 0x0B).map fun i => s.sigOutRef i % 64
  allDistinct steps && steps.all (fun n => !bound.contains n) &&
    (s.axesOn.filter fun a => a < 16).all fun a =>
      (List.range 4).all fun j =>
        let c := 4 * a + j
        s.fld (PWM_CH_CFG.MODE c) = 2 && s.fld (PWM_CH_CFG.PERIOD c) = s.fld (PWM_CH_CFG.PERIOD (4 * a)) && !pwm.contains c &&
          (List.range 8).all fun n => if c < 32 then !s.bit (PWM_INH_LO.MASK n) c else !s.bit (PWM_INH_HI.MASK n) (c - 32)

/-- Line `n` is an output line. -/
def State.lineOut (s : State) (n : Nat) : Bool := s.bit (GPIO_DIR.OUT (n / 32)) (n % 32)

/-- Uses of general-purpose lines (R481). -/
def State.gpioOk (s : State) : Bool :=
  let live (l : List Nat) := l.filter fun n => n != 0xFF
  let outs := live (s.axesOn.flatMap s.stepLines ++ (List.range 16).map (fun u => s.fld (POS_CMP_CFG.OUT u)) ++
    [s.fld PAIR_CFG.ACT_OUT])
  let bound := (s.boundTo 0x0E).map fun i => s.sigOutRef i % 2 ^ 24
  let ins := live (s.axesOn.flatMap (fun a => (List.range 3).map fun i => s.axLine a i) ++
    (List.range 4).map (fun k => s.fld (PWR_WAKE.LINE k)) ++ [s.fld PAIR_CFG.ACT_IN])
  let refs := (s.sigsOf 5).map s.sigSrcRef
  (outs ++ bound).all (fun n => n < 160 && s.lineOut n) && ins.all (fun n => n < 160 && !s.lineOut n) &&
    refs.all fun n => n < 160

/-- The loader's cross-checks of an image, with the claims of its last container. -/
def State.crossOk (s : State) (cs : List (Nat × Nat × Nat)) : Bool :=
  let t := s.motTable
  t.regionsOk cs && ((List.range 5).map fun c => t.quota (c + 1)).sum ≤ 4096 && t.lanesOk && t.tasksOk && t.bindingsOk &&
    t.rioOk && t.axesOk && t.gpioOk

/-! ## Commit (R441, R35, R469) -/

/-- Both halves of the group table hold the image's pairs (R86). -/
def State.loadGroups (s : State) : State :=
  let g := s.base SIG_GRP_BASE.BASE
  let half := (s.plain.filter fun c => g ≤ c.1 && c.1 < g + 0x2000).map fun c => (c.1 + 0x2000, c.2)
  { s with plain := s.plain.filter (fun c => c.1 < g + 0x2000) ++ half ++ s.plain.filter fun c => g + 0x4000 ≤ c.1 }

/-- The plane words of unused entries read 0 (R87). -/
def State.clearUnused (s : State) : State :=
  let c := s.base SIG_CUR_BASE.BASE
  let o := s.base SIG_OUT_BASE.BASE
  { s with plain := s.plain.filter fun p =>
      !((c ≤ p.1 && p.1 < c + 0x10000 && !s.sigUsed ((p.1 - c) / 4)) ||
        (o ≤ p.1 && p.1 < o + 0x10000 && !s.sigUsed ((p.1 - o) / 4))) }

/-- Task registers of the program in force. -/
def State.taskRegs (s : State) : Sparse TaskCfg :=
  (List.range 8).map fun n => (n, { cfg := s.reg (LOG_TASK_CFG n), entry := s.reg (LOG_TASK_ENTRY n), phase := s.reg (LOG_TASK_PHASE n) })

/-- The applied line that follows a change: the tick of X in its first 8 bytes, or erased. -/
def appliedLine (a : Option Nat) : List Byte :=
  match a with
  | some t => natBytes 8 t ++ List.replicate 56 0xFF
  | none => List.replicate 64 0xFF

/-- The snapshot area of R469. -/
def snapHeader : Nat := 0xC00000
def snapData : Nat := 0xC01000
def snapRoom : Nat := 4190208

/-- The header line of a snapshot of `n` bytes; MARK is written last. -/
def State.snapHead (s : State) (n : Nat) (id : List Byte) : State :=
  s.setRet snapHeader (natBytes 4 0x5057 ++ natBytes 4 n ++ id.take 32 ++ List.replicate 20 0 ++ natBytes 4 (n ^^^ 0x5A5A5A5A))

/-- Writing the snapshot at commit: where DEEPEST is HIBERNATE and base and chain fit. -/
def State.writeSnap (s : State) (raw : List (List Byte × Option Nat)) (id : List Byte) : State :=
  let bs := match raw with
    | [] => []
    | b :: t => b.1 ++ t.flatMap fun p => p.1 ++ appliedLine p.2
  if s.fld PWR_CFG.DEEPEST = 4 && bs.length ≤ snapRoom then
    ((s.setRet snapData bs).snapHead bs.length id).setFld PWR_STAT.HIB_OK 1
  else s.setFld PWR_STAT.HIB_OK 0

/-- The first boundary at least 50 µs after now. -/
def State.firstStrobe (s : State) : Nat := (s.ns + tickNs + tickNs - 1) / tickNs

/-- The SAFETY sections go to the island as OFFER messages, in one message each (R324, R325). -/
def State.offerSafety (s : State) (b : List Byte) : State :=
  s.each ((imgSects b).filter fun x => x.ty = 6) fun t x => (t.mbox (.offer 0 (sectBytes b x))).1

/-- The registers of the commit: STATE, BOOT_ID, BOOT_TIME, BOOT_CHG. -/
def State.commitRegs (s : State) (digest : List Byte) (chain : Nat) : State :=
  let s := (s.setFld SYS_STATE.IMAGE_COMMITTED 1).setFld BOOT_STAT.STATE 3
  let s := s.each (List.range 8) fun t n => t.setReg (BOOT_ID n) (BitVec.ofNat 32 (cfgWord digest (4 * n)))
  let s := s.setReg BOOT_TIME (BitVec.ofNat 32 ((s.ns - s.boot.relNs) / 1000))
  (s.setFld BOOT_STAT.CHAIN chain).setFld BOOT_CHG.APPLIED chain

/-- The vales start and take what the image gives them; the journal decides (R236). -/
def State.commitUnits (s : State) (cold : Bool) : State :=
  let s := (s.each commitVales State.valeOn).optionalVales
  let b := s.flag LOG_BANK.ACTIVE
  let s := s.setBankProg b { s.bankProg b with tasks := s.taskRegs }
  let s := ((s.logCommit.adcCommit).motCommit).posCommit
  ((s.canCommit).mdwCommit cold).jrnDecide

/-- Commit of candidate `s`: its containers as read and as judged, and their exchange tables. -/
def State.commitImage (s : State) (imgs : List (Img × Option Nat)) (xs : List ImgExtra) (cold : Bool) : State :=
  match imgs with
  | [] => s
  | (b, _) :: chain =>
    let s := (s.loadGroups).clearUnused
    let items := (chain.zipIdx 1).map fun p =>
      let x := xs.getD p.2 ImgExtra.none_
      ({ digest := p.1.1.digest, applied := p.1.2, exch := match x.logic with | some l => l.table | none => [] } : ImgItem)
    let raw := imgs.map fun p => (p.1.raw, p.2)
    let bytes := (chain.map fun p => p.1.raw.length + 64).sum
    let s := { s with boot := { s.boot with digest := b.digest, keyId := imgKeyId b.raw, svn := imgSvn b.raw,
                                            gen := imgGen b.raw, bytes := bytes, chain := items, change := none },
                      jrn := { s.jrn with imageId := b.digest.take 32 },
                      time := { s.time with nextTick := s.firstStrobe } }
    ((((s.commitRegs b.digest chain.length).writeSnap raw b.digest).commitUnits cold).optionalVales).offerSafety b.clear

/-- The load pass over containers whose digests have been checked: commit, or a stop that discards what it wrote. -/
def State.loadCommit (s : State) (imgs : List (Img × Option Nat)) (xs : List ImgExtra) (cold : Bool) : State :=
  let bs := imgs.map fun p => p.1.clear
  match s.loadAll s.boot.host bs xs with
  | .error e => s.loaderStop e.1 e.2
  | .ok t =>
    if t.trap.isSome then t
    else if t.crossOk (imgClaims (bs.getLastD [])) then t.commitImage imgs xs cold
    else s.loaderStop errResource 0

/-- A container read again: the same digest, and its bytes in the clear. -/
def State.reread (s : State) (digest b : List Byte) : Option Img :=
  if b.length < imgLength b || imgLength b < 160 || imgDigest b != digest then none
  else match s.imgOpen b with
    | some p => some { raw := b.take (imgLength b), digest := digest, clear := p }
    | none => none

/-- The chain read again. -/
def State.rereadChain (s : State) : List (List Byte × Option Nat) → List (List Byte × Option Nat) → Option (List (Img × Option Nat))
  | [], _ => some []
  | _ :: _, [] => none
  | d :: ds, b :: bs =>
    match s.reread d.1 b.1, s.rereadChain ds bs with
    | some i, some l => some ((i, d.2) :: l)
    | _, _ => none

/-- LOAD_PASS (R439): the selected copy, or the host's image in the Plain, is read again and loaded. -/
def execLoadPass (data : CopyBytes) (extra : List ImgExtra) (s : State) : Res :=
  if !s.loaderIn 2 then .next s
  else match s.boot.pick with
    | none => .next s
    | some c =>
      let base := if s.boot.host then s.hostImage else data.base
      match s.reread c.digest base, s.rereadChain c.chain data.chain with
      | some b, some l => (s.loadCommit ((b, none) :: l) extra false).done
      | _, _ => .next (s.loaderStop errUnstable 0)

/-! ## HIBERNATE (R469) -/

/-- The changes of a snapshot, with their applied lines. -/
def snapChain : Nat → List Byte → List (List Byte × Option Nat)
  | 0, _ => []
  | k + 1, bs =>
    let n := imgLength bs
    if bs.length < 64 || n < 160 || bs.length < n + 64 then []
    else
      let line := (bs.drop n).take 64
      let a := if line.all fun b => b = 0xFF then none else some (bytesNat (line.take 8))
      (bs.take n, a) :: snapChain k (bs.drop (n + 64))

/-- What the snapshot holds, where its header line is intact. -/
def State.snapRead (s : State) : Option CopyBytes :=
  let n := s.rw (snapHeader + 4)
  if s.rw snapHeader % 65536 = 0x5057 && s.rw (snapHeader + 0x3C) = n ^^^ 0x5A5A5A5A && n ≤ snapRoom then
    let bs := Memory.bytes s.retained snapData n
    some { base := bs.take (imgLength bs), chain := snapChain 15 (bs.drop (imgLength bs)) }
  else none

/-- The snapshot judged against the key store as it stands. -/
def State.snapJudge (s : State) : Option (List (Img × Option Nat)) :=
  match s.snapRead with
  | none => none
  | some c =>
    match s.judge false copyRoom c.base with
    | .error _ => none
    | .ok i => some ((i, none) :: s.judgeChain i.digest 1 i.digest c.chain)

/-- The reset of a wake from HIBERNATE ends: RUN, with the fabric, boot and host vales (R33). -/
def State.hibRelease (s : State) (cause : Nat) : State :=
  let s := s.setBit ⟨SYS_RST_CAUSE, 0, 6⟩ 5
  let s := ((s.setFld SYS_STATE.IMAGE_COMMITTED 0).setFld SYS_STATE.TICK_RUN 0).setFld PWR_STAT.STATE 0
  let s := (s.setFld PWR_STAT.CAUSE cause).setFld PWR_STAT.HIB_OK 0
  let s := (s.setFld CLK_PLL_STAT.CPLL_LOCK 1).setFld CLK_PLL_STAT.HPLL_LOCK 1
  { s with pwr := PwrState.zero, boot := { s.boot with relNs := s.ns } }.goRunning

/-- HIB_WAKE: the snapshot is verified, loaded and committed; where it fails, the loader starts as at R431. -/
def execHibWake (extra : List ImgExtra) (s : State) : Res :=
  match s.pwr.waking with
  | none => .next s
  | some cause =>
    if s.fld PWR_STAT.STATE != 4 || s.jrn.pfail then .next s
    else
      let d := s.boot.dir
      let s := s.hibRelease cause
      match s.snapJudge with
      | none => .next s
      | some imgs =>
        let t := ({ s with boot := { s.boot with hib := true, dir := d } }.clrReg BOOT_ERR).loadCommit imgs extra true
        if t.trap.isNone && !t.committed then .next s else t.done

end Sys2Proof.Machine
end

