-- ==== Sys2Proof/Machine/Change.lean ====
section
/-!
DEFINITION. Machine/Change.lean: on-line changes of the image (R442 to R444) and the exchange window in which one takes
effect (R212).
-/

namespace Sys2Proof.Machine

/-! ## What a sequence uses (R443) -/

/-- The steps that a target word leads to from sequence `q`. -/
def State.targetSteps (s : State) (q w : Nat) : List Nat :=
  match w / 0x4000 with
  | 0 => [w % 0x2000]
  | 2 => let a := s.hAbort q (w % 16); if bitOf a 15 then [] else [a % 0x2000]
  | _ => []

/-- The targets of step `i`: timer, groups, resume path and pass path. -/
def State.stepTargets (s : State) (q i : Nat) : List Nat :=
  let h (k o : Nat) : Nat := s.pbits (s.stepAt i o) (16 * k) 16
  let path (lo : Nat) : Nat := 0x8000 + s.pbits (s.stepAt i 0) lo 4
  [h 0 8, h 1 8, h 0 0xC, h 1 0xC, h 0 0x10, path 4, path 13].flatMap (s.targetSteps q)

/-- The steps that can be reached from a work list; each round takes one. -/
def State.reachSteps (s : State) (q : Nat) : Nat → List Nat → List Nat → List Nat
  | 0, seen, _ => seen
  | _ + 1, seen, [] => seen
  | k + 1, seen, i :: w => if seen.contains i then s.reachSteps q k seen w else s.reachSteps q k (i :: seen) (s.stepTargets q i ++ w)

/-- The steps of sequence `q`: from FIRST, its abort paths and its present step. -/
def State.stepsUsed (s : State) (q : Nat) : List Nat :=
  let ab := (List.range 16).flatMap fun p => s.targetSteps q (0x8000 + p)
  s.reachSteps q (8 * 8192) [] (s.hFirst q :: (s.ctx q).step :: ab)

/-- The Plain ranges that sequence `q` uses: header, step entries, actions. -/
def State.seqRanges (s : State) (q : Nat) : List (Nat × Nat) :=
  let st := s.stepsUsed q
  (s.hdrAt q 0, 64) :: st.map (fun i => (s.stepAt i 0, 128)) ++
    st.map fun i => (s.actAt (s.pbits (s.stepAt i 0x14) 0 15) 0, 16 * s.pbits (s.stepAt i 0) 21 7)

/-- Two ranges, offset and bytes, meet. -/
def rangesMeet (a b : Nat × Nat) : Bool := a.1 < b.1 + b.2 && b.1 < a.1 + a.2

/-- The sequences whose headers, steps and actions a change may not write. -/
def State.activeSeqs (s : State) : List Nat :=
  (List.range 64).filter fun q =>
    let st := (s.ctx q).state
    st = seqRunning || st = seqHeld || st = seqAborting || st = seqRestored

/-! ## The check (R442, R443) -/

/-- The Plain regions that a change may write. -/
def State.openRegions (s : State) : List (Nat × Nat) :=
  [(s.base SIG_DIR_BASE.BASE, 0x100000), (s.base SIG_GRP_BASE.BASE, 0x4000), (s.base LOOP_TBL_BASE.BASE, 0x20000),
   (s.base SEQ_HDR_BASE.BASE, 0x1000), (s.base SEQ_STEP_BASE.BASE, 0x100000), (s.base SEQ_ACT_BASE.BASE, 0x80000),
   (s.base MOT_TBL_BASE.BASE, 0x800), (s.base CAN_TBL_BASE.BASE, 0x4000)]

/-- The registers that a change may write. -/
def changeReg (a : Nat) : Bool :=
  a = SIG_COUNT || a = LOOP_COUNT ||
    (List.range 8).any fun n => a = LOG_TASK_CFG n || a = LOG_TASK_ENTRY n || a = LOG_TASK_PHASE n

/-- Section `i` of a change: the CODE with which it is refused. -/
def State.sectRefusal (s : State) (b : List Byte) (x : Sect) : Option Nat :=
  if !sectInside b x then some errSection
  else match x.ty with
    | 1 | 9 | 0x0A => none
    | 3 =>
      let ps := wordPairs (sectBytes b x)
      if ps.any fun p => !pairOk p then some errSection else if ps.all fun p => changeReg p.1 then none else some errNotOnline
    | 4 =>
      if plainSize < x.dest + x.len then some errSection
      else if s.openRegions.any fun r => r.1 ≤ x.dest && x.dest + x.len ≤ r.1 + r.2 then none
      else some errNotOnline
    | 8 => if plainSize < x.dest + x.len then some errSection else none
    | 5 =>
      let k := x.dest / 2 ^ 28
      if k = 4 && bankWords < bitsOf x.dest 0 24 + x.len / 4 then some errSection
      else if k = 4 || k = 6 then none else some errNotOnline
    | _ => some errNotOnline

/-- The change writes what an active sequence uses. -/
def State.touchesActive (s : State) (b : List Byte) : Bool :=
  let ws := ((imgSects b).filter fun x => x.ty = 4).map fun x => (x.dest, x.len)
  let tables := [(s.base SEQ_HDR_BASE.BASE, 0x1000), (s.base SEQ_STEP_BASE.BASE, 0x100000), (s.base SEQ_ACT_BASE.BASE, 0x80000)]
  let hits := ws.filter fun w => tables.any fun t => rangesMeet w t
  !hits.isEmpty && s.activeSeqs.any fun q => (s.seqRanges q).any fun r => hits.any fun w => rangesMeet w r

/-- The change as the device would stand with it, for the cross-checks of R440. -/
def State.withChange (s : State) (b : List Byte) : State :=
  s.each (imgSects b) fun t x =>
    match x.ty with
    | 3 => t.each (wordPairs (sectBytes b x)) State.loadPair
    | 4 | 8 => t.loadPlain x.dest (sectBytes b x)
    | _ => t

/-- PREV of the next change: the last change applied, or the base. -/
def State.prevId (s : State) : List Byte :=
  match s.boot.chain.getLast? with
  | some i => i.digest.take 32
  | none => s.boot.digest.take 32

/-- Bytes of a change area (R432). -/
def changeArea : Nat := 0x800000

/-- Checking a change against R436 and R442 to R443: CODE and ITEM of its refusal. -/
def State.changeRefusal (s : State) (i : Img) (x : ImgExtra) : Option (Nat × Nat) :=
  let b := i.clear
  if imgGen b != s.boot.gen || imgChg b != s.boot.chain.length + 1 || imgLink b != (s.boot.digest.take 32, s.prevId) then
    some (errChain, 0)
  else if changeArea < s.boot.bytes + i.raw.length + 64 then some (errNotPersistent, 0)
  else match claimClash (imgClaims b) with
    | some k => some (errResource, k)
    | none =>
      match (imgSects b).zipIdx.find? fun p => (s.sectRefusal b p.1).isSome with
      | some p => some ((s.sectRefusal b p.1).getD errSection, p.2)
      | none =>
        if s.touchesActive b then some (errState, 0)
        else if !((s.withChange b).loadExtra true x).crossOk (imgClaims b) then some (errResource, 0)
        else none

/-- The loader refuses a change: CODE and ITEM. -/
def State.changeRefuse (s : State) (e : Nat × Nat) : State := (s.setFld BOOT_ERR.CODE e.1).setFld BOOT_ERR.ITEM e.2

/-- A staged change arrives for R444: accepted, or refused with a CODE. -/
def State.changeAsk (s : State) (b : List Byte) (x : ImgExtra) : State × Option Nat :=
  if s.flag BOOT_CHG.BUSY then (s.changeRefuse (errState, 0), some errState)
  else match s.judge true changeRoom b with
    | .error e => (s.changeRefuse (e, 0), some e)
    | .ok i =>
      if imgReserved i.clear then (s.undef 455, none)
      else match s.changeRefusal i x with
        | some e => (s.changeRefuse e, some e.1)
        | none =>
          let s := { s with boot := { s.boot with change := some { image := i.raw, extra := x, staged := false } } }
          ((s.setFld BOOT_CHG.BUSY 1).clrReg BOOT_ERR, none)

/-- The staged container: LENGTH bytes of the staging region. -/
def State.stagedImage (s : State) (n : Nat) : List Byte := Memory.bytes s.plain (s.base BOOT_STAGE_BASE.BASE) (min changeRoom n)

/-- APPLY (R444): BOOT_CMD APPLY from a privileged writer, on a committed device. -/
def execBootApply (extra : ImgExtra) (s : State) : Res :=
  if !s.cmdOpen || !s.committed then .next s
  else (s.changeAsk (s.stagedImage (max 64 (s.pw (s.base BOOT_STAGE_BASE.BASE + 8)))) extra).1.done

/-! ## Persistence and staging (R444 steps 2 to 4, R469) -/

/-- The change is given up. -/
def State.changeDrop (s : State) (code : Nat) : State :=
  ({ s with boot := { s.boot with change := none } }.setFld BOOT_CHG.BUSY 0).changeRefuse (code, 0)

/-- The copies as they now stand select the chain that ends in the change. -/
def State.persistent (s : State) (copies : List (Nat × CopyBytes)) (digest : List Byte) : Bool :=
  let l := (copies.filter fun p => dirHas s.boot.dir p.1).map fun p => (p.1, s.judgeCopy (dirChg s.boot.dir) p.2)
  match chooseCopy (l.filter fun p => p.2.result = 0) with
  | .ok p => p.2.digest = s.boot.digest && (p.2.chain.getLast?).map (fun q => q.1) = some digest
  | .error _ => false

/-- A persistent change is appended to the snapshot with an erased applied line; where it does not fit, HIB_OK is cleared. -/
def State.snapAppend (s : State) (b : List Byte) : State :=
  if !s.flag PWR_STAT.HIB_OK then s
  else
    let n := s.rw (snapHeader + 4)
    let m := n + b.length + 64
    if snapRoom < m then s.setFld PWR_STAT.HIB_OK 0
    else (s.setRet (snapData + n) (b ++ appliedLine none)).snapHead m s.boot.digest

/-- The logic sections go into the inactive bank; a change without any keeps the program in force. -/
def State.stageLogic (s : State) (b : List Byte) (x : ImgExtra) : State :=
  let a := s.flag LOG_BANK.ACTIVE
  let ls := (imgSects b).filter fun t => t.ty = 5
  let old := s.bankProg a
  let s := if ls.isEmpty then
      let t := if a then { s with log := { s.log with bank0 := s.log.bank1 } } else { s with log := { s.log with bank1 := s.log.bank0 } }
      t.setBankProg (!a) { old with table := old.table.map fun e => { e with matched := true } }
    else
      let t := s.setBankProg (!a) { LogProg.empty with len := 0 }
      t.each ls fun t p => (t.loadLocal (!a) p.dest (sectBytes b p) x).getD t
  let regs := s.withChange b
  s.setBankProg (!a) { s.bankProg (!a) with tasks := regs.taskRegs }

/-- CHANGE_PERSIST: the copies have been written and read back. A persistent change is staged and the exchange requested;
any other is refused. -/
def execChangePersist (copies : List (Nat × CopyBytes)) (s : State) : Res :=
  match s.boot.change with
  | none => .next s
  | some c =>
    if c.staged || s.exchOpen || s.exchRunning || !s.cmdOpen then .next s
    else if !s.persistent copies (imgDigest c.image) then .next (s.changeDrop errNotPersistent)
    else match s.imgOpen c.image with
      | none => .next (s.changeDrop errTag)
      | some b =>
        let s := { s with boot := { s.boot with change := some { c with staged := true } } }
        let s := (((s.snapAppend c.image).stageLogic b c.extra).setFld LOG_BANK.LOADED 1).exchAsk
        s.done

/-! ## Boundary X (R444 steps 5 and 6) -/

/-- A PLAIN or NAMES section at X: in the loop table the engine words and the state halves stay the engine's (R144). -/
def State.applyPlain (s : State) (o : Nat) (bs : List Byte) : State :=
  let l := s.base LOOP_TBL_BASE.BASE
  if l ≤ o && o < l + 0x20000 then
    s.each bs.zipIdx fun t p => if (o + p.2 - l) % 128 < 0x3C then t.busWrite 21 (o + p.2) [p.1] else t
  else s.busWrite 21 o bs

/-- The parameter bytes of loop slot `i`. -/
def State.loopParams (s : State) (i : Nat) : List Byte := Memory.bytes s.plain (s.loopAt i 0) 0x3C

/-- The sections other than the logic's. -/
def State.applySections (s : State) (b : List Byte) : State :=
  s.each (imgSects b) fun t x =>
    match x.ty with
    | 3 => t.each ((wordPairs (sectBytes b x)).filter fun p => p.1 = SIG_COUNT || p.1 = LOOP_COUNT) State.loadPair
    | 4 | 8 => t.applyPlain x.dest (sectBytes b x)
    | _ => t

/-- GEN of every changed enabled loop slot goes up by one (R156). -/
def State.bumpChanged (s : State) (old : List (Nat × List Byte)) : State :=
  s.each s.loops fun t i =>
    match old.find? fun p => p.1 = i with
    | some p => if p.2 = t.loopParams i then t else t.setLGen i (t.lGen i + 1)
    | none => t.setLGen i (t.lGen i + 1)

/-- The applied line of the newest change in the snapshot. -/
def State.snapApplied (s : State) (x : Nat) : State :=
  if s.flag PWR_STAT.HIB_OK then s.setRet (snapData + s.rw (snapHeader + 4) - 64) (appliedLine (some x)) else s

/-- The change that is staged takes effect at boundary X of tick `x`. -/
def State.changeApply (s : State) (x : Nat) : State :=
  match s.boot.change with
  | none => s
  | some c =>
    if !c.staged then s
    else
      let b := (s.imgOpen c.image).getD []
      let keys := s.forceSlots.map fun p => (p.2.index, s.sigKey p.2.index)
      let old := (List.range s.loopCount).map fun i => (i, s.loopParams i)
      let s := (s.applySections b).loadExtra true c.extra
      let s := (s.remapForces keys fun k => s.sigs.find? fun i => s.sigKey i = k).bumpChanged old
      let s := ((s.motTable).canTable).clearUnused
      let item : ImgItem := { digest := imgDigest c.image, applied := some x,
                              exch := (s.bankProg (s.flag LOG_BANK.ACTIVE)).table }
      let s := { s with boot := { s.boot with change := none, chain := s.boot.chain ++ [item],
                                              bytes := s.boot.bytes + c.image.length + 64 } }
      let s := ((s.setFld BOOT_CHG.APPLIED s.boot.chain.length).setFld BOOT_CHG.X_LO x).setFld BOOT_CHG.BUSY 0
      s.snapApplied x

/-- EXCH_WINDOW_OPEN (R212): the present tick's boundary is X where it is eligible. -/
def execExchWindowOpen (s : State) : Res :=
  let t := s.time.tick
  if s.fld LOG_EXCH_STAT.STATE = 2 && (s.time.phase == .risen || s.time.phase == .arrived) && s.exchEligible t then
    let s1 := (s.exchOpenAt t).changeApply t
    if s.time.phase == .arrived then s1.exchReleases.done else s1.done
  else .next s

end Sys2Proof.Machine
end

