-- ==== Sys2Proof/Machine/Live.lean ====
section
/-!
DEFINITION. Machine/Live.lean: writes through the PCIe BAR2 window into tables that the hardware is using, which the chapters
list as undefined (R85, R108, R143, R167, R215, R240, R405, R429, R455), and the arbiter cycle in which such a write may be
granted.
-/

namespace Sys2Proof.Machine

/-- Offset `o` lies in the `n` bytes from `b`. -/
def inRange (o b n : Nat) : Bool := b ≤ o && o < b + n

/-- A word in the encoding that R89 gives for TYPE `ty`. -/
def encodingOk (ty w : Nat) : Bool :=
  match ty with
  | 1 => w % 2 ^ 32 = trunc 32 (sext 16 w)
  | 3 => w < 2
  | _ => true

/-- The staging region of images may not be written now (R455). -/
def State.stagingBusy (s : State) : Bool :=
  s.fld BOOT_STAT.STATE = 1 || s.fld BOOT_STAT.STATE = 2 || s.flag BOOT_CHG.BUSY

/-- Offset `o` is the output-plane word of a HOST entry, or of no entry. -/
def State.hostWord (s : State) (o : Nat) : Bool :=
  let i := (o - s.base SIG_OUT_BASE.BASE) / 4
  !s.sigUsed i || s.sigSource i = 0x0F

/-- The rule of the undefined case that a BAR2 write of the byte at Plain offset `o` meets. -/
def State.liveAt (s : State) (o : Nat) : Option Nat :=
  if inRange o (s.base BOOT_STAGE_BASE.BASE) 0x400000 && s.stagingBusy then some 455
  else if !s.committed then none
  else if inRange o (s.base SCH_DESC_BASE.BASE) 0x20000 then
    if s.jState ((o - s.base SCH_DESC_BASE.BASE) / 32) = jFree then none else some 85
  else if inRange o (s.base SCH_FLOW_BASE.BASE) 0x1000 then
    let f := (o - s.base SCH_FLOW_BASE.BASE) / 16
    if s.flowEnabled f || s.sch.jobs.any fun i =>
        s.jFlowEn i && s.jFlow i = f && (s.jState i = jPending || s.jState i = jHeld)
      then some 85 else none
  else if inRange o (s.base SIG_CUR_BASE.BASE) 0x10000 then
    if s.sigUsed ((o - s.base SIG_CUR_BASE.BASE) / 4) then some 108 else none
  else if inRange o (s.base SIG_OUT_BASE.BASE) 0x10000 then if s.hostWord o then none else some 108
  else if inRange o (s.base SIG_DIR_BASE.BASE) 0x100000 || inRange o (s.base SIG_GRP_BASE.BASE) 0x4000 then some 108
  else if inRange o (s.base SEQ_HDR_BASE.BASE) 0x1000 || inRange o (s.base SEQ_STEP_BASE.BASE) 0x100000 ||
      inRange o (s.base SEQ_ACT_BASE.BASE) 0x80000 then
    if s.activeSeqs.any fun q => (s.seqRanges q).any fun r => inRange o r.1 r.2 then some 143 else none
  else if inRange o (s.base LOOP_TBL_BASE.BASE) 0x20000 then
    let i := (o - s.base LOOP_TBL_BASE.BASE) / 128
    if s.lEnable i || s.lEnable (s.loopOwner i) then some 167 else none
  else if inRange o (s.base LOG_RET_BASE.BASE) 0x200020 then some 215
  else if inRange o (s.base JRN_STAGE_BASE.BASE) 0x10000 then some 240
  else if inRange o (s.base CAN_FIFO_BASE.BASE) 0x20000 then some 405
  else if inRange o (s.base MDW_SIG_BASE.BASE) 0x10000 || inRange o (s.base MDW_SUM_BASE.BASE) 0x200000 ||
      inRange o (s.base MDW_REC_BASE.BASE) 0x200000 || inRange o (s.base MDW_TRC_BASE.BASE) 0x200000 then some 429
  else none

/-- The word at Plain offset `a` as a write of `bs` at `o` leaves it. -/
def State.mergedWord (s : State) (o : Nat) (bs : List Byte) (a : Nat) : Nat :=
  let w := match s.keyOf a with
    | some k => s.keyWord k
    | none => s.pw a
  (List.range 4).foldl (fun v k =>
    if inRange (a + k) o bs.length then putBits v (8 * k) 8 ((bs.getD (a + k - o) 0).toNat) else v) w

/-- A word of the output plane that the write leaves in a foreign encoding. -/
def State.foreignWord (s : State) (o : Nat) (bs : List Byte) : Bool :=
  (List.range bs.length).any fun k =>
    let a := (o + k) / 4 * 4
    let b := s.base SIG_OUT_BASE.BASE
    inRange a b 0x10000 && s.sigUsed ((a - b) / 4) && !encodingOk (s.sigType ((a - b) / 4)) (s.mergedWord o bs a)

/-- The rule of the undefined case that a BAR2 write of `bs` at Plain offset `o` meets. -/
def State.barWriteBad (s : State) (o : Nat) (bs : List Byte) : Option Nat :=
  match (List.range bs.length).findSome? fun k => s.liveAt (o + k) with
  | some r => some r
  | none => if s.committed && s.foreignWord o bs then some 108 else none

/-- PLAIN_TRANSACTION (R37): a requester presents a read, or a write of `data`, of `len` bytes at `addr`; while the
fabric vale is in reset its col answers RESET_DROP (R18), and a power state that has stopped it ends (R17). -/
def execPlainTransaction (port requester addr : Nat) (isWrite : Bool) (data : List Byte) (len : Nat) (s : State) : Res :=
  let n := if isWrite then data.length else len
  if 24 ≤ port || n = 0 then .next s
  else if !((isPlainAddr addr && isPlainAddr (addr + n - 1)) || (isRetAddr addr && isRetAddr (addr + n - 1))) then
    .fault .noSuchAddress
  else
    (s.awake 2 fun t =>
      if !t.runs Vale.fabric then { t with vales := { t.vales with drops := t.vales.drops + 1 } }
      else t.present port (splitLines port requester isWrite (n + 1) addr data n)).done

/-- GRANT (R46): one fabric-vale cycle of the arbiter; `ecc` is what SECDED finds in the line read. A BAR2 write (port 19)
that is granted into a live table is undefined. -/
def execGrant (ecc : EccEvent) (s : State) : Res :=
  if !s.runs Vale.fabric then .next s
  else
    let bad : Option Nat :=
      match (s.portSt 19).head with
      | some t => if !t.isWrite then none
                  else if isRetAddr t.addr then some 240 else s.barWriteBad (t.addr - 0x80000000) t.bytes
      | none => none
    let u := (s.pmc 0x01 0).pmcWaits
    let v := u.arbitrate ecc
    let v := match bad with
      | some r => if decide (v.portSt 19 = u.portSt 19) then v else v.undef r
      | none => v
    let v := v.restartBlocked
    { v with arb := { v.arb with cyc := v.arb.cyc + 1 } }.done

end Sys2Proof.Machine
end

