-- ==== Sys2Proof/Machine/Registers.lean ====
section
/-!
DEFINITION. Machine/Registers.lean: reading and writing a register by its address (R4 to R6, R10, R17, R18): the Type of each
field, the commands a write gives, and the registers that show other state.
-/

namespace Sys2Proof.Machine

/-! ## Reaching a register (R10, R17, R18) -/

/-- The vale that serves a block's registers: the fabric vale serves SAF; the always-on vale's blocks are always reached. -/
def blockVale (b : Nat) : Option Nat :=
  match b with
  | 2 | 4 | 14 | 27 => some Vale.fabric
  | 3 => some Vale.scheduler
  | 5 | 6 => some Vale.sequencer
  | 7 => some Vale.lane
  | 8 => some Vale.logic
  | 9 | 21 => some Vale.record
  | 10 | 11 => some Vale.converter
  | 12 | 13 | 28 | 29 | 30 => some Vale.motion
  | 15 | 16 => some Vale.link
  | 18 | 19 => some Vale.net
  | 20 => some Vale.can
  | 22 | 24 => some Vale.boot
  | 23 | 25 => some Vale.host
  | _ => none

/-- The memory window of the lanes, which takes writes before commit only (LANE_MEM_DATA). -/
def laneWindow (a : Nat) : Bool := a = LANE_MEM_SEL || a = LANE_MEM_ADDR || a = LANE_MEM_DATA

/-- The col into the vale that holds register `a` answers RESET_DROP (R18, R36). -/
def State.regDropped (s : State) (a : Nat) : Bool :=
  match blockVale (blockOf a) with
  | some v => !s.runs v && !(laneWindow a && !s.committed)
  | none => false

/-- A request that a col into a vale in reset drops. -/
def State.dropReq (s : State) : State := { s with vales := { s.vales with drops := s.vales.drops + 1 } }

/-- The state that a command written through a register leaves. -/
def State.ran (s : State) (r : Res) : State :=
  match r with
  | .next t => t
  | .fault (.undefinedCase k) => s.undef k
  | .fault .noSuchAddress => s
  | .refused _ => s

/-! ## Field types (R4) -/

/-- What a write of `w` makes of the word `old`, for field `f`: `open_` before commit, `priv` from a privileged writer. -/
def fieldWrite (open_ priv : Bool) (w old : Nat) (f : FieldDesc) : Nat :=
  let v := bitsOf w f.lo f.width
  let o := bitsOf old f.lo f.width
  match f.typ with
  | .rw => putBits old f.lo f.width v
  | .rwl => if open_ then putBits old f.lo f.width v else old
  | .rwp => if priv then putBits old f.lo f.width v else old
  | .wo => putBits old f.lo f.width v
  | .w1c => putBits old f.lo f.width (o - (o &&& v))
  | .w1s => old
  | .ro => old

/-- A register with a field of type `t`. -/
def RegDesc.has (d : RegDesc) (t : RegType) : Bool := d.fields.any fun f => f.typ == t

/-- Fields that a write leaves at 0: command fields that read 0. -/
def readsZero : List Fld :=
  [SYS_RST_CTL.KEY, SIG_FORCE_CMD.CMD, SEQ_CMD.CMD, LOOP_CMD.OP, LOG_EXCH_CMD.CMD, LOG_TASK_CMD.OP, JRN_CMD.CMD, MOT_CMD.OP,
   POS_CMD.OP, PAIR_CMD.OP, TIM_CMD.OP, NET_GCL_SEL.SWAP, MDW_CMD.OP, SEC_CMD.OP, SEC_CMD.KEY, DBG_CMD.OP, PMC_CTL.SNAP,
   PMC_CTL.CLEAR, ⟨TIM_SET_NS, 30, 2⟩, ⟨TIM_SET_SEC_HI, 16, 16⟩] ++
  (List.range 8).map CAN_TXCMD.OP ++ (List.range 32).map fun k => PMC_EVT.CHAIN (2 * k)

/-- The register's fields that read 0 cleared. -/
def State.zeroFields (s : State) (a : Nat) : State :=
  s.each (readsZero.filter fun f => f.addr = a) fun t f => t.setFld f 0

/-- The registers whose writes the command they give stores itself. -/
def selfStored (a : Nat) : Bool :=
  a = LANE_MEM_DATA || a = NET_GCL_ENTRY || a = MDW_RD_SERIAL || a = SEC_KEY_DATA || (POS_CMP_POS 0 0 ≤ a && a ≤ POS_CMP_POS 15 63)

/-! ## What a write does beyond its fields -/

/-- Commands in register order: `k` picks the one whose bit of `w` is set. -/
def State.clrBits (s : State) (w : Nat) (fs : List (State → Res)) : State :=
  s.each fs.zipIdx fun t p => if bitOf w p.2 then t.ran (p.1 t) else t

/-- A SEQ_CMD write (R138): discarded while one waits, and at a full queue. -/
def State.seqCmdWrite (s : State) (w : Nat) : State :=
  if s.powerFail then s
  else if s.flag SEQ_CMD_STAT.BUSY then s.setFld SEQ_CMD_STAT.DROPPED 1
  else
    let q := bitsOf w 0 6
    let r := s.seqEnqueue { seq := q, cmd := bitsOf w 8 4, arg := bitsOf w 16 16, sess := none }
    if r.2 then r.1.setFld SEQ_CMD_STAT.BUSY 1
    else (r.1.setFld SEQ_CMD_STAT.RESULT 6).setFld SEQ_CMD_STAT.SEQ q

/-- A LOOP_CMD write (R156). -/
def State.loopCmdWrite (s : State) (w : Nat) : State :=
  let i := bitsOf w 0 10
  let v := bitsOf w 16 16
  match bitsOf w 12 3 with
  | 0 => s
  | 1 => s.ran (execLoopMode i (v % 8) s)
  | 2 => s.ran (execLoopLimitLo i v s)
  | 3 => s.ran (execLoopLimitHi i v s)
  | 4 => s.ran (execLoopClearFault i s)
  | _ => if s.powerFail then s else s.loopCmdStat i 4

/-- A MOT_CMD command with argument `arg`; OP 7 is reserved and answers BAD_OP. -/
def State.motCmd (s : State) (w arg : Nat) : Res :=
  let a := bitsOf w 0 5
  match bitsOf w 8 3 with
  | 0 => .next s
  | 1 => execMoveAbs a arg s
  | 2 => execMoveRel a arg s
  | 3 => execStopRamped a s
  | 4 => execStopHard a s
  | 5 => execMotHome a s
  | 6 => execMotClearFault a s
  | _ => s.motCommand a fun t => (t, 7)

/-- A POS_CMD command. -/
def State.posCmd (s : State) (w : Nat) : Res :=
  let n := bitsOf w 0 4
  match bitsOf w 4 3 with
  | 1 => execArmZ n s
  | 2 => execPosClear n s
  | 3 => execCmpArm n s
  | 4 => execCmpDisarm n s
  | 5 => execLoadCount n (s.reg POS_CMD_ARG).toNat s
  | 6 => execClearSsi n s
  | _ => .next s

/-- A SEC_CMD command: KEY must be 0xC3A5 (R457). -/
def State.secCmdWrite (s : State) (w : Nat) : State :=
  let op := bitsOf w 0 3
  if s.powerFail || op = 0 || 5 < op then s
  else if bitsOf w 16 16 != 0xC3A5 then s.secResult 1
  else match op with
    | 1 => s.ran (execSecProvision true s)
    | 2 => s.ran (execSecLock true s)
    | 3 => s.ran (execSecRetire true s)
    | 4 => s.ran (execSecRaiseSvn true s)
    | _ => s.ran (execSecKeyWrite true s)

/-- A DBG_CMD command. -/
def State.dbgCmdWrite (s : State) (w : Nat) : State :=
  match bitsOf w 0 3 with
  | 1 => s.ran (execDbgChallenge s)
  | 2 => s.ran (execDbgVerify s)
  | 3 => s.ran (execDbgRequestFull s)
  | 4 => s.ran (execDbgHalt s)
  | 5 => s.ran (execDbgResume s)
  | 6 => s.ran (execDbgDrop s)
  | _ => s

/-- A BOOT_CMD command; APPLY through the register names a change whose further sections are none. -/
def State.bootCmdWrite (s : State) (w : Nat) : State :=
  match bitsOf w 0 3 with
  | 1 => s.ran (execBootSelect (bitsOf w 3 2) s)
  | 2 => s.ran (execBootLoadHost s)
  | 3 => s.ran (execBootRetry s)
  | 4 => s.ran (execBootApply ImgExtra.none_ s)
  | _ => s

/-- The undefined cases of a CAN register write, and EN's effect (R405); whether the frame has begun at SEND, or has passed
its arbitration field at CANCEL, is a free value. -/
def State.canRegWrite (s : State) (old : State) (a w : Nat) : State :=
  let c := (a - CAN_CTL 0) / 0x40
  if a = CAN_CTL c then
    let s := if s.flag (CAN_CTL.EN c) != old.flag (CAN_CTL.EN c) then s.canEnable c (s.flag (CAN_CTL.EN c)) else s
    if s.flag (CAN_CTL.EN c) && s.canTooFast c then s.undef 405 else s
  else if a = CAN_NBT c || a = CAN_DBT c then if s.flag (CAN_CTL.EN c) then s.undef 405 else s
  else if a = CAN_TXCMD c then
    match bitsOf w 6 2 with
    | 1 => s.useFree.ran (execCanSend c (bitsOf w 0 6) (s.freeNat % 2 = 1) s.useFree)
    | 2 => s.useFree.ran (execCanCancel c (bitsOf w 0 6) (s.freeNat % 2 = 1) s.useFree)
    | _ => s
  else s

/-- The fault bits of the encoder channels follow POS_STAT. -/
def State.posStatSync (s : State) : State :=
  s.each (List.range 16) fun t n =>
    (t.setFld (POS_ENC_STAT.ENC_FAULT n) (b2n (t.bit POS_STAT.ENC n))).setFld (POS_ENC_STAT.WIRE_FAULT n) (b2n (t.bit POS_STAT.WIRE n))

/-- The effect of a write of `w` to register `a` that any writer may make; `old` is the state before it. -/
def State.regOpen (s : State) (old : State) (a w : Nat) : State :=
  if a = SYS_TICK_CLR then s.clrBits w [execTickClr]
  else if a = PLN_CLR then s.clrBits w [execPlnClrWait, execPlnClrEcc, execPlnClrWin]
  else if a = SCH_CLR then s.clrBits w [execSchClrCounts, execSchClrPeaks]
  else if a = SIG_CLR then s.clrBits w [execSigClrStats]
  else if a = SEQ_CLR then s.clrBits w [execSeqClrCounts, execSeqClrPeaks]
  else if a = LOOP_CLR then s.clrBits w [execLoopClrCounts, execLoopClrPeaks]
  else if a = LANE_CLR then s.clrBits w [execLaneClrCounts, execLaneClrPeaks]
  else if a = LOG_CLR then s.clrBits w [execLogClrCounts, execLogClrPeaks]
  else if a = JRN_CLR then s.clrBits w [execJrnClrCounts, execJrnClrPeaks]
  else if a = ADC_CLR then s.clrBits w [execAdcClrCounts]
  else if a = ADC_CAL then s.ran (execAdcCalibrate (w % 16) s)
  else if a = PAIR_CLR then s.clrBits w [execPairClrCounts]
  else if a = CAS_CLR then s.clrBits w [execCasClrCounts]
  else if a = NET_CLR then s.clrBits w [execNetClrCounts]
  else if a = RIO_CLR then s.clrBits w [execRioClrCounts]
  else if a = CAN_CLR then s.clrBits w [execCanClrCounts]
  else if a = MDW_CLR then s.clrBits w [execMdwClrCounts, execMdwClrPeaks]
  else if a = MDW_RD_ADV then s.clrBits w [execMdwAdv]
  else if a = MDW_RD_SERIAL then s.ran (execMdwRdSerialWrite w s)
  else if a = POS_STAT then s.posStatSync
  else if a = SEC_KEY_DATA then s.ran (execKeyDataWrite (BitVec.ofNat 32 w) s)
  else if DBG_RESP 0 ≤ a && a ≤ DBG_RESP 23 && old.sec.verifying then s.undef 479
  else match (List.range 16).find? fun k => a = CAN_FIFO0 (k / 2) + 4 * (k % 2) with
    | some k =>
      let t := s.setFld (canRd (k / 2) (k % 2)) (old.fld (canRd (k / 2) (k % 2)))
      t.ran (execCanFifoReadAdvance (k / 2) (k % 2) (w % 128) t)
    | none => s

/-- The effect of a privileged write of `w` to register `a`; `old` is the state before it. -/
def State.regPriv (s : State) (old : State) (a w : Nat) : State :=
  if a = SYS_RST_CTL then if w % 65536 = 0xA50F then s.ran (execSoftReset s) else s
  else if a = SIG_FORCE_CMD then
    match w % 4 with
    | 1 => s.ran (execForceSet s)
    | 2 => s.ran (execForceRelease s)
    | 3 => s.ran (execForceReleaseAll s)
    | _ => s
  else if a = SEQ_CMD then s.seqCmdWrite w
  else if a = LOOP_CMD then s.loopCmdWrite w
  else if a = LANE_MEM_DATA then s.ran (execLaneMemAccess true w s)
  else if a = LOG_EXCH_CMD then
    match w % 4 with
    | 1 => s.ran (execExchRequest s)
    | 2 => s.ran (execExchCancel s)
    | _ => s
  else if a = LOG_TASK_CMD then
    match bitsOf w 4 2 with
    | 1 => s.ran (execTaskStart (w % 8) s)
    | 2 => s.ran (execTaskStop (w % 8) s)
    | _ => s
  else if a = JRN_CMD then
    match w % 4 with
    | 1 => s.ran (execJrnTest s)
    | 2 => s.ran (execJrnSelect (bitsOf w 2 2) s)
    | 3 => s.ran (execJrnDiscard s)
    | _ => s
  else if a = MOT_CMD then s.ran (s.motCmd w (s.reg MOT_CMD_ARG).toNat)
  else if a = POS_CMD then s.ran (s.posCmd w)
  else if POS_CMP_POS 0 0 ≤ a && a ≤ POS_CMP_POS 15 63 then
    s.ran (execCompareEntryWrite ((a - POS_CMP_POS 0 0) / 0x100) ((a - POS_CMP_POS 0 0) % 0x100 / 4) w s)
  else if a = PAIR_CMD then
    match w % 4 with
    | 1 => s.ran (execPairSwitch s.pair.peerReady s)
    | 2 => s.ran (execPairResync s)
    | 3 => s.ran (execPairRelease s)
    | _ => s
  else if a = TIM_CMD then if w % 4 = 1 then s.ran (execTimeSet s) else s
  else if a = NET_GCL_SEL then if bitOf w 9 then s.ran (execGclSwap (w % 8) s) else s
  else if a = NET_GCL_ENTRY then s.ran (execGclEntryAccess (some (BitVec.ofNat 32 w)) s)
  else if blockOf a = 20 then s.canRegWrite old a w
  else if a = MDW_CMD then
    if s.powerFail then s else
    match w % 4 with
    | 1 => s.ran (execMdwClearFault s)
    | 2 => s.ran (execClearProcess s)
    | 3 => s.ran (execCloseFree s)
    | _ => s
  else if a = BOOT_CMD then s.bootCmdWrite w
  else if a = SEC_CMD then s.secCmdWrite w
  else if a = DBG_CMD then s.dbgCmdWrite w
  else if a = PWR_CMD then s.ran (execPwrHold (bitOf w 0) s)
  else if a = PMC_CTL then
    let t := if bitOf w 2 then s.ran (execPmcSnap s) else s
    if bitOf w 3 then t.ran (execPmcClear t) else t
  else match (List.range 4).find? fun g => ADC_GCOR g 0 ≤ a && a ≤ ADC_GCOR g 7 with
    | some g => if s.bit ADC_STAT.BUSY g then s.undef 259 else s
    | none => s

/-! ## A register write -/

/-- A write that reaches its vale. -/
def State.regWriteIn (s : State) (a : Nat) (w : Word) (priv : Bool) : State :=
  match regAt a with
  | none => s
  | some d =>
    if s.regDropped a then s.dropReq
    else if blockOf a = 27 && !priv then s.notPriv
    else
      let r := if d.has .rwp && !priv then s.notPriv else s
      let open_ := !s.committed && a != HST_CFG
      let v := d.fields.foldl (fieldWrite open_ priv w.toNat) (s.reg a).toNat
      let t := if selfStored a then r else (r.setReg a (BitVec.ofNat 32 v)).zeroFields a
      let t := t.regOpen s a w.toNat
      if priv then t.regPriv s a w.toNat else t

/-- A write of `w` to the register address `a` (R4 to R6): a stopped vale wakes first (R17), and a BOOT_CMD write that comes
before commit counts as privileged (R453). -/
def State.regWrite (s : State) (a : Nat) (w : Word) (priv : Bool) : State :=
  if s.vales.phase != .running then s else s.awake 2 fun t => t.regWriteIn a w priv

/-- REGISTER_WRITE. -/
def execRegisterWrite (addr : Nat) (data : Word) (priv : Bool) (s : State) : Res := (s.regWrite addr data priv).done

/-! ## Registers that show other state -/

/-- STATE of LOG_TASKn_STAT. -/
def State.taskStatus (s : State) (n : Nat) : Nat :=
  let c := s.task n
  match c.phase with
  | 0 => 0
  | 1 => 1
  | _ => match c.job with
    | some j => if (s.engineOf j).isSome then 2 else 3
    | none => 0

/-- LANE_STATn. -/
def State.laneStatus (s : State) (l : Nat) : Nat :=
  let v := s.lane l
  (if v.stalled then 2 else b2n v.busy) + 4 * b2n v.cur + 16 * v.rs.pc.toNat + 65536 * (v.lastEnd % 4)

/-- LOOP_VIEW of slot `i`. -/
def State.loopView (s : State) (i : Nat) : Nat :=
  let b := s.loopActive i
  let h := s.loopHalf i b
  h.mode % 8 + 8 * s.lReq i + 64 * b2n (s.loopPendNow i) + 128 * b2n h.saddle + 256 * b2n h.sel + 512 * b2n (s.lFault i) +
    1024 * b2n (s.lStopped i) + 2048 * s.lConsec i + 8192 * b2n b

/-- Sequence `q` is RUNNING, HELD or ABORTING. -/
def State.seqActive (s : State) (q : Nat) : Bool :=
  (s.ctx q).state = seqRunning || (s.ctx q).state = seqHeld || (s.ctx q).state = seqAborting

/-- SEQ_VIEW_STATE of sequence `q`. -/
def State.seqView (s : State) (q : Nat) : Nat :=
  let c := s.ctx q
  c.seenState % 16 + 16 * (c.cause % 16) + 256 * (c.step % 8192) + 2 ^ 21 * (c.elapsed / 2 ^ 32 % 2) + 2 ^ 22 * b2n c.pend.isSome +
    2 ^ 23 * b2n (!c.commits.isEmpty || !c.posts.isEmpty || c.send.isSome)

/-- The bits of the numbers below `n` that satisfy `p`. -/
def bitSet (n : Nat) (p : Nat → Bool) : Nat := ((List.range n).map fun k => 2 ^ k * b2n (p k)).sum

/-- SEC_STAT: the lifecycle fields beside RESULT. -/
def State.secStatus (s : State) : Nat :=
  s.sec.life % 4 + 4 * (s.sec.next % 4) + 16 * b2n (s.sec.life != s.sec.next) + 32 * s.fld SEC_STAT.RESULT +
    65536 * (s.sec.floor % 65536)

/-- The window offset from which the fabric serves the SAF register at offset `o` (R503). -/
def safOffset (o : Nat) : Option Nat :=
  if o ≤ 0x10 then some o
  else if o = 0x20 then some 0x40
  else if o = 0x24 then some 0x44
  else if 0x40 ≤ o && o < 0x60 then some (o + 0x40)
  else if o = 0x60 then some 0x48
  else none

/-- The slots with FAULT set. -/
def State.loopFaults (s : State) : List Nat := (List.range s.loopCount).filter s.lFault

/-- The word that register `a` shows where it shows other state; none where the table holds it. -/
def State.regView (s : State) (a : Nat) : Option Nat :=
  if a = SYS_ID then some (putBits (s.reg SYS_ID).toNat 4 4 s.unitc.order)
  else if a = SYS_UID0 then some s.unitc.uid0
  else if a = SYS_UID1 then some s.unitc.uid1
  else if a = CLK_VALE_STAT then some (putBits (s.reg a).toNat 14 1 (b2n s.vales.vddSafe))
  else if PLN_BOUND 0 ≤ a && a ≤ PLN_BOUND 5 then some (s.grantBound ((a - PLN_BOUND 0) / 4))
  else if a = SCH_NEXT then
    let x := s.schNext
    some (if x.1 = 1 then shortOf (s.ns + x.2.2) else s.freeNat)
  else if a = SCH_NEXT_STAT then some (s.schNext.1 + 4 * s.schNext.2.1)
  else if a = SIG_NODE then some (putBits (s.reg a).toNat 18 6 s.myPos)
  else if a = SIG_FORCE_STAT then some (putBits (s.reg a).toNat 16 9 s.forceCount)
  else if a = SIG_FORCE_SLOT then
    some (match Sparse.get (fun _ => none) s.sig.forces (s.fld SIG_FORCE_SEL.SLOT) with
      | some f => f.index + 2 ^ 31
      | none => 0)
  else if a = SIG_FORCE_SLOTVAL then
    some (match Sparse.get (fun _ => none) s.sig.forces (s.fld SIG_FORCE_SEL.SLOT) with
      | some f => f.value.toNat
      | none => 0)
  else if a = SEQ_CTL then some (b2n s.seqArm + 2 * b2n s.casMaster)
  else if a = SEQ_ACTIVE_LO then some (bitSet 32 s.seqActive)
  else if a = SEQ_ACTIVE_HI then some (bitSet 32 fun k => s.seqActive (k + 32))
  else if a = SEQ_VIEW_STATE then some (s.seqView (s.fld SEQ_VIEW_SEL.SEQ))
  else if a = SEQ_VIEW_ELAPSED then some ((s.ctx (s.fld SEQ_VIEW_SEL.SEQ)).elapsed % 2 ^ 32)
  else if a = LOOP_VIEW then some (s.loopView (s.fld LOOP_VIEW_SEL.SLOT))
  else if a = LOOP_VIEW_OVR then some (Sparse.get (fun _ => 0) s.loop.ovr (s.fld LOOP_VIEW_SEL.SLOT))
  else if a = LOOP_FAULT then
    let l := s.loopFaults
    some (l.length + 65536 * (l.headD (s.freeNat % 1024)) + 2 ^ 26 * b2n (!l.isEmpty))
  else if a = LANE_VKER then some s.unitc.vker
  else if a = LANE_INH then some (bitSet 8 fun l => (s.lane l).inh)
  else if a = RIO_MOD_STAT then some s.rioModStat
  else if a = HST_SESS then
    some (bitSet 16 (fun k => (s.sess k).isSome) + 65536 * bitSet 16 fun k => match s.sess k with | some v => v.priv | none => false)
  else if a = SEC_STAT then some s.secStatus
  else if a = SEC_SLOTS then some (bitSet 14 s.pubFilled + 65536 * bitSet 4 fun n => !(s.aesKey n).isEmpty)
  else if blockOf a = 14 && a != SAF_MBOX then some (match safOffset (a % 0x100000) with | some o => s.pw (0x1FF0000 + o) | none => 0)
  else match (List.range 8).find? fun n => a = LANE_STAT n || a = LANE_STRM n || a = LOG_TASK_STAT n with
    | some n =>
      if a = LANE_STAT n then some (s.laneStatus n)
      else if a = LANE_STRM n then some (putBits (s.reg a).toNat 0 7 (s.lane n).fifo.length)
      else some (putBits (s.reg a).toNat 0 2 (s.taskStatus n))
    | none => none

/-- A read shows the next free value. -/
def State.readsFree (s : State) (a : Nat) : Bool := (a = SCH_NEXT && s.schNext.1 != 1) || (a = LOOP_FAULT && s.loopFaults.isEmpty)

/-- What a read of `a` does before its word is taken: a read of TIM_NOW_NS latches (R355), and the windows of LANE_MEM_DATA
and NET_GCL_ENTRY are read. -/
def State.regTouch (s : State) (a : Nat) : State :=
  if a = TIM_NOW_NS then s.timeLatch
  else if a = LANE_MEM_DATA then s.ran (execLaneMemAccess false 0 s)
  else if a = NET_GCL_ENTRY then s.ran (execGclEntryAccess none s)
  else s

/-! ## A register read -/

/-- A read that reaches its vale: write-only fields read 0; what the source of a request that RESET_DROP answers reads is a free
value. -/
def State.regReadIn (s : State) (a : Nat) (priv : Bool) : State × Nat :=
  match regAt a with
  | none => (s, 0)
  | some d =>
    if s.regDropped a then (s.dropReq.useFree, s.freeNat % 2 ^ 32)
    else if blockOf a = 27 && !priv then (s.notPriv, 0)
    else if d.has .wo then (s, 0)
    else
      let s := s.regTouch a
      match s.regView a with
      | some v => (if s.readsFree a then s.useFree else s, v % 2 ^ 32)
      | none => (s, (s.reg a).toNat)

/-- A read of the register address `a` (R4 to R6, R10); a stopped vale wakes first (R17). -/
def State.regRead (s : State) (a : Nat) (priv : Bool) : State × Nat :=
  if s.vales.phase != .running then (s, 0)
  else if s.pwr.stopped = 0 then s.regReadIn a priv
  else
    let r := (s.wakeUp 2).regReadIn a priv
    (r.1.powerSelect, r.2)

end Sys2Proof.Machine
end

