-- ==== Sys2Proof/Machine/Host.lean ====
section
/-!
DEFINITION. Machine/Host.lean: the Skoyn Host Protocol, the PCIe endpoint and the vendor debug port (chapter 19, R446 to R454;
R461). A request is answered, or waits on another block, within its command.
-/

namespace Sys2Proof.Machine

/-! ## Requests (R446 to R450) -/

/-- The word at payload offset `o`, and LENGTH. -/
def ShpReq.w (r : ShpReq) (o : Nat) : Nat := bytesNat ((r.payload.drop o).take 4)
def ShpReq.len (r : ShpReq) : Nat := r.payload.length

/-- STATUS codes of R450. -/
def shpOk : Nat := 0
def shpBusy : Nat := 1
def shpRefused : Nat := 2
def shpNotPriv : Nat := 3
def shpBadArg : Nat := 4
def shpUnknownType : Nat := 5
def shpNoSession : Nat := 6
def shpPowerFail : Nat := 7
def shpNoVersion : Nat := 8
def shpUnknownHandle : Nat := 9
def shpNotAvailable : Nat := 0x0A
def shpTimedOut : Nat := 0x0B
def shpBadScale : Nat := 0x0C
def shpMixed : Nat := 0x0D
def shpBoot : Nat := 0x0E

/-- The types of R449, and those that need a privileged session. -/
def shpTypes : List Nat :=
  [0x01, 0x02, 0x03, 0x04, 0x10, 0x11, 0x12, 0x13, 0x14, 0x15, 0x20, 0x21, 0x22, 0x30, 0x31, 0x40, 0x50, 0x51, 0x52, 0x60, 0x7F]
def shpPrivTypes : List Nat := [0x14, 0x15, 0x20, 0x21, 0x22, 0x31, 0x40, 0x50, 0x51, 0x52]

/-- SHP is served: an image with SHP_EN is committed and its Ethernet path is there; in NAP the ports are down. -/
def State.shpOn (s : State) : Bool :=
  s.vales.phase == .running && s.committed && s.flag HST_CFG.SHP_EN && (s.runs Vale.net || bitOf s.pwr.stopped Vale.net) &&
    (s.runs Vale.host || bitOf s.pwr.stopped Vale.host) && !(s.fld PWR_STAT.STATE = 3 && s.pwr.stopped != 0)

/-- Session `k` is privileged. -/
def State.sessPriv (s : State) (k : Nat) : Bool :=
  match s.sess k with
  | some v => v.priv
  | none => false

/-- A request runs as a class-5 logic job, which takes and frees its descriptor within the command; it is answered BUSY where
the class refuses it (R62, R448). -/
def State.shpJob (s : State) (r : ShpReq) (ty : Nat) (f : State → State) : State :=
  let p := s.useFree.release (simpleJob 5 true true 0 0 (s.freeNat % 65536) srcHst r.session)
  match p.2 with
  | none => p.1.shpSend r ty shpBusy 0 []
  | some i => f (p.1.completeJob i false)

/-- The path of every request: reserved session numbers are undefined (R455); POWER_FAIL refuses; a standby forwards. -/
def State.shpGate (s : State) (r : ShpReq) (ty : Nat) (f : State → State) : Res :=
  if !s.shpOn then .next s
  else
    (s.awake 3 fun t =>
      if 16 ≤ r.session && r.session != 0xFF then t.undef 455
      else if t.powerFail then t.shpSend r ty shpPowerFail 0 []
      else if t.pairStandby then t.pairSend 0x40 5 ((r.ver + 256 * ty) :: r.seq :: r.payload.map BitVec.toNat)
      else f t).done

/-- A request within a session (R447, R448): a repeated SEQ is answered by the stored reply, a new one beside an outstanding
request is BUSY, and a P type needs a privileged session. -/
def State.shpServe (s : State) (r : ShpReq) (ty : Nat) (f : State → State) : Res :=
  s.shpGate r ty fun t =>
    match t.sess r.session with
    | none => t.shpSend r ty shpNoSession 0 []
    | some v =>
      let t := t.setSess r.session (some { v with last := t.ns })
      match v.wait, v.reply with
      | some w, _ => if r.seq = w.req.seq then t else t.shpSend r ty shpBusy 0 []
      | none, some m =>
        if m.seq = r.seq then { t with hst := { t.hst with wire := some m } }
        else if shpPrivTypes.contains ty && !v.priv then t.shpReply r ty shpNotPriv 0 []
        else t.shpJob r ty f
      | none, none =>
        if shpPrivTypes.contains ty && !v.priv then t.shpReply r ty shpNotPriv 0 [] else t.shpJob r ty f

/-- The request waits on another block, bounded by its host-transaction unit set to TMO ms (R448). -/
def State.shpWait (s : State) (r : ShpReq) (ty serial : Nat) (remote : List (Nat × Nat)) : State :=
  match s.sess r.session with
  | some v =>
    (s.setSess r.session (some { v with wait := some { req := r, ty := ty, serial := serial, remote := remote } })).setTimeout
      (80 + r.session) (some ((s.short + s.fld HST_CFG.TMO * 1000000) % 2 ^ 32))
  | none => s

/-- Closing session `k`. -/
def State.shpClose (s : State) (k : Nat) : State := (s.setSess k none).setTimeout (80 + k) none

/-! ## Sessions (R447) -/

/-- The session that the next OPEN receives. -/
def State.nextSess (s : State) : Option Nat := (List.range 16).find? fun k => (s.sess k).isNone

/-- IMAGE_ID as BOOT_ID0 to BOOT_ID7 show it. -/
def State.imageIdBytes (s : State) : List Byte := (List.range 8).flatMap fun n => natBytes 4 (s.reg (BOOT_ID n)).toNat

/-- HELLO. -/
def execShpHello (req : ShpReq) (rand : List Byte) (s : State) : Res :=
  s.shpGate req 0x01 fun t =>
    t.shpJob req 0x01 fun t =>
      if req.len != 4 then t.shpSend req 0x01 shpBadArg 0 []
      else
        let lo := max 2 (req.w 0 % 256)
        let hi := min 3 (req.w 0 / 256 % 256)
        if hi < lo then t.shpSend req 0x01 shpNoVersion 0 []
        else
          let c := (rand ++ List.replicate 32 0).take 32
          let k := t.nextSess.getD 0xFF
          let os := (req.client, k, c) :: t.hst.offers.filter fun o => o.1 != req.client
          let t := { t with hst := { t.hst with offers := os } }
          let id := (t.regView SYS_ID).getD 0
          t.shpSend req 0x01 shpOk 0 (wordsBytes [hi + 256 * k, id, t.unitc.uid0, t.unitc.uid1] ++ t.imageIdBytes ++ c)

/-- OPEN. -/
def execShpOpen (req : ShpReq) (s : State) : Res :=
  s.shpGate req 0x02 fun t =>
    t.shpJob req 0x02 fun t =>
      let w := req.w 0
      let ver := w % 256
      let priv := bitOf w 8
      if req.len != (if priv then 132 else 36) then t.shpSend req 0x02 shpBadArg 0 []
      else match t.hst.offers.find? fun o => o.1 = req.client with
        | none => t.shpSend req 0x02 shpBadArg 0 []
        | some o =>
          let k := o.2.1
          let ch := (req.payload.drop 4).take 32
          if ch != o.2.2 then t.shpSend req 0x02 shpBadArg 0 []
          else if ver < 2 || 3 < ver then t.shpSend req 0x02 shpNoVersion 0 []
          else if 16 ≤ k || (t.sess k).isSome then t.shpSend req 0x02 shpBusy 0 []
          else if priv && !(t.pubFilled 12 &&
              ecdsaVerify (t.pubKey 12) (sha384 (ch ++ natBytes 1 k)) (req.payload.drop 36)) then
            t.shpSend req 0x02 shpNotPriv 0 []
          else
            let v : ShpSess := { priv := priv, client := req.client, ver := ver, last := t.ns, reply := none, wait := none,
                                 noteF := bitOf w 9, noteP := bitOf w 10, noteX := bitOf w 11, noteSeq := 1,
                                 nextF := t.mdwSerial true, nextP := t.mdwSerial false }
            (t.setSess k (some v)).shpSend req 0x02 shpOk 0 (natBytes 4 (k + 256 * b2n priv))

/-- CLOSE. -/
def execShpClose (req : ShpReq) (s : State) : Res :=
  s.shpServe req 0x03 fun t =>
    if req.len = 0 then (t.shpReply req 0x03 shpOk 0 []).shpClose req.session else t.shpReply req 0x03 shpBadArg 0 []

/-- KEEPALIVE. -/
def execShpKeepalive (req : ShpReq) (s : State) : Res :=
  s.shpServe req 0x04 fun t => t.shpReply req 0x04 (if req.len = 0 then shpOk else shpBadArg) 0 []

/-- SESSION_IDLE: IDLE seconds have passed without a message. -/
def execSessionIdle (session : Nat) (s : State) : Res :=
  match s.sess session with
  | some v => if v.last + s.fld HST_CFG.IDLE * 1000000000 ≤ s.ns then .next (s.shpClose session) else .next s
  | none => .next s

/-- SHP_TIMEOUT: the host-transaction unit of a waiting request fires (R80, R448). -/
def execShpTimeout (session : Nat) (s : State) : Res :=
  match s.sess session, s.timeout (80 + session) with
  | some v, some e =>
    match v.wait with
    | some w =>
      if earlier s.short e || s.halted then .next s
      else .next ((s.setTimeout (80 + session) none).shpReply w.req w.ty shpTimedOut 0 [])
    | none => .next s
  | _, _ => .next s

/-- UNKNOWN_TYPE. -/
def execUnknownType (ty : Nat) (req : ShpReq) (s : State) : Res :=
  if shpTypes.contains ty then .next s else s.shpGate req ty fun t => t.shpSend req ty shpUnknownType 0 []

/-! ## Registers and the Plain (R451) -/

/-- Reading a list of registers in order. -/
def State.regReads (s : State) (priv : Bool) : List Nat → State × List Nat
  | [] => (s, [])
  | a :: l =>
    let r := s.regRead a priv
    let q := r.1.regReads priv l
    (q.1, r.2 :: q.2)

/-- REG_READ. -/
def execRegRead (req : ShpReq) (s : State) : Res :=
  s.shpServe req 0x10 fun t =>
    let n := req.len / 4
    if req.len % 4 != 0 || n = 0 || 64 < n then t.shpReply req 0x10 shpBadArg 0 []
    else
      let r := t.regReads (t.sessPriv req.session) ((List.range n).map fun k => req.w (4 * k))
      r.1.shpReply req 0x10 shpOk 0 (wordsBytes r.2)

/-- Register `a` has fields that only privileged writers may write (R4, R474). -/
def privReg (a : Nat) : Bool :=
  match regAt a with
  | some d => d.has .rwp || blockOf a = 27
  | none => false

/-- REG_WRITE: every pair is checked before any is applied; a write that resets the device leaves no reply. -/
def execRegWrite (req : ShpReq) (s : State) : Res :=
  s.shpServe req 0x11 fun t =>
    let n := req.len / 8
    let pv := t.sessPriv req.session
    if req.len % 8 != 0 || n = 0 || 64 < n then t.shpReply req 0x11 shpBadArg 0 []
    else if !pv && (List.range n).any fun k => privReg (req.w (8 * k)) then t.shpReply req 0x11 shpNotPriv 0 []
    else
      let u := t.each (List.range n) fun u k => u.regWrite (req.w (8 * k)) (BitVec.ofNat 32 (req.w (8 * k + 4))) pv
      if u.vales.phase == .running then u.shpReply req 0x11 shpOk 0 [] else u

/-- PLAIN_READ. -/
def execPlainRead (req : ShpReq) (s : State) : Res :=
  s.shpServe req 0x12 fun t =>
    let o := req.w 0 % 2 ^ 25
    let n := req.w 4 % 2048
    if req.len != 8 || n = 0 || 1408 < n || plainSize < o + n then t.shpReply req 0x12 shpBadArg 0 []
    else t.shpReply req 0x12 shpOk 0 (Memory.bytes t.plain o n)

/-! ## Handles and engineering values (R91, R92, R102, R103) -/

/-- What a handle field resolves to. -/
inductive HandleRef where
  | here (index : Nat)
  | remote
  | unknown
deriving DecidableEq, Repr

/-- The entry `i` of this device's own directory. -/
def State.ownHandle (s : State) (i : Nat) : HandleRef := if s.sigUsed i then .here i else .unknown

/-- Resolving the handle field whose words are `w0` and `w1`. -/
def State.handle (s : State) (w0 w1 : Nat) : HandleRef :=
  let i := bitsOf w0 0 14
  let p := bitsOf w0 14 6
  let node := bitsOf w0 20 12 + 2 ^ 12 * bitsOf w1 0 6
  match bitsOf w1 8 2 with
  | 0 => if w0 < 2 ^ 14 && w1 = 0 then s.ownHandle i else .unknown
  | 1 => if w0 < 2 ^ 20 && w1 = 0x100 then (if p = s.myPos then s.ownHandle i else .remote) else .unknown
  | 2 =>
    if w1 / 64 != 8 then .unknown
    else if node = s.fld SIG_NODE.NODE then (if p = s.myPos then s.ownHandle i else .unknown)
    else match s.cas.routes.find? fun r => r.node = node with
      | some r => if r.pos = p then .remote else .unknown
      | none => .remote
  | _ => .unknown

/-- The binary32 engineering value of word `w` of entry `i` (R91). -/
def State.engValue (s : State) (i w : Nat) : Nat :=
  let ty := s.sigType i
  let x := planeValue ty w
  if ty = 6 then f32Word (fInt x)
  else
    let e : Int := if ty = 1 then -15 else if ty = 2 then -31 else 0
    let v := fRound binary32 (.fin (x < 0) x.natAbs e)
    f32Word (fAdd binary32 (f32 (s.sigOffset i)) (fMul binary32 (f32 (s.sigSpan i)) v))

/-- A number rounded away from zero at ties and saturated to the range of TYPE `ty`. -/
def saturateTo (ty : Nat) (q : FVal) : Int :=
  let hi : Int := if ty = 1 then 2 ^ 15 - 1 else if ty = 4 then 2 ^ 32 - 1 else 2 ^ 31 - 1
  let lo : Int := if ty = 1 then -2 ^ 15 else if ty = 4 then 0 else -2 ^ 31
  match q with
  | .inf n => if n then lo else hi
  | v => clampInt lo hi (fToIntAway v)

/-- The plane word of the engineering value `e` for entry `i`, or the STATUS that refuses it (R92). -/
def State.engWord (s : State) (i e : Nat) : Except Nat Nat :=
  let ty := s.sigType i
  let x := f32 e
  match x with
  | .nan => .error shpBadArg
  | _ =>
    if ty = 3 then (match x with | .fin _ 0 _ => .ok 0 | _ => .ok 1)
    else if ty = 6 then (match x with | .inf _ => .error shpBadArg | v => .ok (trunc 32 (fToIntAway v)))
    else
      let sp := f32 (s.sigSpan i)
      match sp with
      | .fin _ 0 _ => .error shpBadScale
      | _ =>
        let k : Int := if ty = 1 then 2 ^ 15 else if ty = 2 then 2 ^ 31 else 1
        let q := fMul binary64 (fDiv binary64 (fSub binary64 x (f32 (s.sigOffset i))) sp) (fInt k)
        if q = .nan then .error shpBadArg else .ok (trunc 32 (saturateTo ty q))

/-- A value given as a plane word, or with ENG as an engineering value. -/
def State.givenWord (s : State) (eng : Bool) (i v : Nat) : Except Nat Nat := if eng then s.engWord i v else .ok v

/-! ## Signals (R451, R452) -/

/-- Values and statuses of the handles of a SIG_READ: each remote handle takes the next answer. -/
def State.sigValues (s : State) (eng : Bool) : List (Nat × Nat) → List (Nat × Nat) → List (Nat × Nat)
  | [], _ => []
  | h :: l, as =>
    match s.handle h.1 h.2, as with
    | .here i, _ => (if eng then s.engValue i (s.cur i) else s.cur i, 0) :: s.sigValues eng l as
    | .unknown, _ => (0, 2) :: s.sigValues eng l as
    | .remote, [] => (0, 3) :: s.sigValues eng l []
    | .remote, a :: t => (if a.1 = 1 then a.2 else 0, if a.1 = 1 || a.1 = 2 then a.1 else 3) :: s.sigValues eng l t

/-- A SIG_READ reply's payload, from the tick it names. -/
def State.sigReadBytes (s : State) (tick : Nat) (vs : List (Nat × Nat)) : List Byte :=
  let n := vs.length
  wordsBytes ([tick % 2 ^ 32, tick / 2 ^ 32 % 2 ^ 32, s.epoch + 65536 * n] ++ vs.map fun v => v.1) ++
    (vs.map fun v => BitVec.ofNat 8 v.2) ++ List.replicate ((4 - n % 4) % 4) 0

/-- The handle fields of a SIG_READ. -/
def sigReadHandles (r : ShpReq) : List (Nat × Nat) :=
  (List.range (r.w 0 % 256)).map fun k => (r.w (4 + 8 * k), r.w (8 + 8 * k))

/-- The answer of a SIG_READ that completes within one window. -/
def State.sigReadPayload (s : State) (r : ShpReq) (remote : List (Nat × Nat)) : List Byte :=
  s.sigReadBytes s.time.tick (s.sigValues (bitOf (r.w 0) 8) (sigReadHandles r) remote)

/-- SIG_READ: from the rise of a strobe until its input close it waits; a read whose fourth attempt met a strobe is MIXED, and
the words of its local handles are free values. -/
def execSigRead (req : ShpReq) (mixed : Option Nat) (remote : List (Nat × Nat)) (s : State) : Res :=
  s.shpServe req 0x13 fun t =>
    let n := req.w 0 % 256
    if n = 0 || 128 < n || req.len != 4 + 8 * n then t.shpReply req 0x13 shpBadArg 0 []
    else match mixed with
      | some tick =>
        let vs := t.sigValues (bitOf (req.w 0) 8) (sigReadHandles req) remote
        let r := vs.foldl (fun (a : State × List (Nat × Nat)) v =>
          if v.2 = 0 then (a.1.useFree, a.2 ++ [(a.1.freeNat % 2 ^ 32, 0)]) else (a.1, a.2 ++ [v])) (t, [])
        r.1.shpReply req 0x13 shpMixed 0 (t.sigReadBytes tick r.2)
      | none =>
        if t.time.phase == .arrived || t.time.phase == .risen || t.time.phase == .none then t.shpWait req 0x13 0 remote
        else t.shpReply req 0x13 shpOk 0 (t.sigReadPayload req remote)

/-- A SIG_READ that waited is answered after input close. -/
def State.shpInputClose (s : State) : State :=
  s.each (List.range 16) fun t k =>
    match t.sess k with
    | some v =>
      match v.wait with
      | some w => if w.ty = 0x13 then t.shpAnswer k shpOk 0 (t.sigReadPayload w.req w.remote) else t
      | none => t
    | none => t

/-- The entries of a SIG_WRITE, each with its word; the STATUS of the first that is refused. -/
def State.sigWrites (s : State) (r : ShpReq) : List Nat → Except Nat (List (Nat × Nat))
  | [] => .ok []
  | k :: l =>
    let o := 4 + 12 * k
    match bitsOf (r.w (o + 4)) 8 2, s.handle (r.w o) (r.w (o + 4)) with
    | 0, .here i =>
      if s.sigSource i != 0x0F then .error shpUnknownHandle
      else match s.givenWord (bitOf (r.w 0) 8) i (r.w (o + 8)) with
        | .error e => .error e
        | .ok w => match s.sigWrites r l with
          | .error e => .error e
          | .ok t => .ok ((i, w) :: t)
    | _, _ => .error shpUnknownHandle

/-- SIG_WRITE: a plane word in a foreign encoding is undefined (R108). -/
def execSigWrite (req : ShpReq) (s : State) : Res :=
  s.shpServe req 0x14 fun t =>
    let n := req.w 0 % 256
    if n = 0 || 119 < n || req.len != 4 + 12 * n then t.shpReply req 0x14 shpBadArg 0 []
    else match t.sigWrites req (List.range n) with
      | .error e => t.shpReply req 0x14 e 0 []
      | .ok l =>
        if l.any fun p => !encodingOk (t.sigType p.1) p.2 then t.undef 108
        else (t.each l fun u p => u.putSig p.1 p.2).shpReply req 0x14 shpOk 0 []

/-- A force request ends with a result of SIG_FORCE_STAT. -/
def forceAnswer (r : ShpReq) (p : State × Nat) : State :=
  (p.1.setFld SIG_FORCE_STAT.RESULT p.2).shpReply r 0x15 (if p.2 = 0 then shpOk else shpRefused) p.2 []

/-- FORCE. -/
def execShpForce (req : ShpReq) (s : State) : Res :=
  s.shpServe req 0x15 fun t =>
    let op := req.w 0 % 4
    if req.len != 16 || op = 0 then t.shpReply req 0x15 shpBadArg 0 []
    else if op = 3 then forceAnswer req (t.forceReleaseAll, 0)
    else
      let i := req.w 4
      if 2 ^ 14 ≤ i || req.w 8 != 0 then t.shpReply req 0x15 shpUnknownHandle 0 []
      else if op = 2 then forceAnswer req (t.forceRelease i)
      else match t.givenWord (bitOf (req.w 0) 8) i (req.w 12) with
        | .error e => t.shpReply req 0x15 e 0 []
        | .ok w => forceAnswer req (t.forceSet i (BitVec.ofNat 32 w))

/-! ## Commands of other engines (R451) -/

/-- SHP_SEQ: the command waits for phase 1; at a full queue it is BUSY (R138). -/
def execShpSeq (req : ShpReq) (s : State) : Res :=
  s.shpServe req 0x20 fun t =>
    if req.len != 4 then t.shpReply req 0x20 shpBadArg 0 []
    else
      let w := req.w 0
      let r := t.seqEnqueue { seq := bitsOf w 0 6, cmd := bitsOf w 8 4, arg := bitsOf w 16 16, sess := some req.session }
      if r.2 then r.1.shpWait req 0x20 0 [] else r.1.shpReply req 0x20 shpBusy 0 []

/-- SHP_LOOP: as LOOP_CMD. -/
def execShpLoop (req : ShpReq) (s : State) : Res :=
  s.shpServe req 0x21 fun t =>
    if req.len != 4 then t.shpReply req 0x21 shpBadArg 0 []
    else
      let w := req.w 0
      let i := bitsOf w 0 10
      let v := bitsOf w 16 16
      let r : State × Nat := match bitsOf w 12 3 with
        | 0 => (t, 0)
        | 1 => t.loopRequest i 0 (v % 8)
        | 2 => t.loopRequest i 1 v
        | 3 => t.loopRequest i 2 v
        | 4 => t.loopClear i
        | _ => (t, 4)
      r.1.shpReply req 0x21 (if r.2 = 0 then shpOk else shpRefused) r.2 []

/-- AXIS: as MOT_CMD with MOT_CMD_ARG. -/
def execShpAxis (req : ShpReq) (s : State) : Res :=
  s.shpServe req 0x22 fun t =>
    if req.len != 8 then t.shpReply req 0x22 shpBadArg 0 []
    else
      let u := t.ran (t.motCmd (req.w 0) (req.w 4))
      let c := if bitsOf (req.w 0) 8 3 = 0 then 0 else u.fld MOT_CMD_STAT.RESULT
      u.shpReply req 0x22 (if c = 0 then shpOk else shpRefused) c []

/-! ## Records, trace and safety (R451) -/

/-- The record of serial `n`, or zeros where it cannot be read. -/
def State.recBytes (s : State) (fault : Bool) (n : Nat) : List Byte :=
  if s.rdStatus fault n = 0 then Memory.bytes s.plain (s.recLine fault (serialFrom n (s.mdwBase fault))) 64
  else List.replicate 64 0

/-- REC_READ. -/
def execRecRead (req : ShpReq) (s : State) : Res :=
  s.shpServe req 0x30 fun t =>
    let f := bitOf (req.w 0) 0
    let n := bitsOf (req.w 0) 8 8
    if req.len != 8 || n = 0 || 22 < n then t.shpReply req 0x30 shpBadArg 0 []
    else
      let ns := (List.range n).map fun k => (req.w 4 + k) % 2 ^ 32
      t.shpReply req 0x30 shpOk 0 (natBytes 4 n ++ (ns.map fun m => BitVec.ofNat 8 (t.rdStatus f m)) ++
        List.replicate (24 - n) 0 ++ ns.flatMap (t.recBytes f))

/-- The trace region with entry `e` for subscription `b`. -/
def State.withSub (s : State) (b : Nat) (e : List Byte) : State := s.setPlain (s.trcAt (32 * b)) e

/-- TRACE: a list is refused while the subscription runs; an entry is checked against its list and takes effect at the next
tick. -/
def execShpTrace (req : ShpReq) (s : State) : Res :=
  s.shpServe req 0x31 fun t =>
    let b := bitsOf (req.w 0) 0 6
    match bitsOf (req.w 0) 6 2 with
    | 0 =>
      let bs := req.payload.drop 8
      let o := t.subList b + 2 * bitsOf (req.w 4) 0 14
      if req.len < 8 || bs.length % 2 != 0 || 1404 < bs.length || t.subEn b || 0x200000 < o + bs.length then
        t.shpReply req 0x31 shpBadArg 0 []
      else (t.setPlain (t.trcAt o) bs).shpReply req 0x31 shpOk 0 []
    | 1 =>
      let e := req.payload.drop 4
      let u := t.withSub b e
      if req.len != 36 || (u.subEn b && u.subBad b) then t.shpReply req 0x31 shpBadArg 0 []
      else { t with hst := { t.hst with subs := t.hst.subs ++ [(b, e)] } }.shpReply req 0x31 shpOk 0 []
    | _ => t.shpReply req 0x31 shpBadArg 0 []

/-- The entries of R451 take effect at the tick. -/
def State.subsStrobe (s : State) : State :=
  let t := s.each s.hst.subs fun t e => t.withSub e.1 e.2
  { t with hst := { t.hst with subs := [] } }

/-- SAFETY: the message goes to the mailbox gate, and the request waits for the island's acknowledgement; at a full gate it is
BUSY (R324). -/
def execShpSafety (req : ShpReq) (msg : MboxMsg) (s : State) : Res :=
  s.shpServe req 0x40 fun t =>
    if req.len != 64 then t.shpReply req 0x40 shpBadArg 0 []
    else
      let n := t.saf.acks + t.saf.gate.length
      let r := t.mbox msg
      if r.2 then r.1.shpWait req 0x40 n [] else r.1.shpReply req 0x40 shpBusy 0 []

/-! ## Images (R449, R451) -/

/-- IMAGE_PUT: writing the staging region while it is in use is undefined (R455). -/
def execImagePut (req : ShpReq) (s : State) : Res :=
  s.shpServe req 0x50 fun t =>
    let o := bitsOf (req.w 0) 0 22
    let n := bitsOf (req.w 4) 0 11
    if req.len != 8 + n || n = 0 || 1408 < n || 0x400000 < o + n then t.shpReply req 0x50 shpBadArg 0 []
    else if t.stagingBusy then t.undef 455
    else (t.setPlain (t.base BOOT_STAGE_BASE.BASE + o) (req.payload.drop 8)).shpReply req 0x50 shpOk 0 []

/-- IMAGE_APPLY: a change that is not accepted is answered with its boot code. -/
def execImageApply (req : ShpReq) (extra : ImgExtra) (s : State) : Res :=
  s.shpServe req 0x51 fun t =>
    let n := bitsOf (req.w 0) 0 23
    if req.len != 4 || 0x400000 < n then t.shpReply req 0x51 shpBadArg 0 []
    else
      let r := t.changeAsk (t.stagedImage n) extra
      match r.2 with
      | none => r.1.shpReply req 0x51 shpOk 0 []
      | some c => r.1.shpReply req 0x51 shpBoot c []

/-- COPY_WRITE. -/
def execCopyWrite (req : ShpReq) (s : State) : Res :=
  s.shpServe req 0x52 fun t =>
    let c := req.w 0 % 4
    let o := req.w 4
    let n := bitsOf (req.w 8) 0 23
    if req.len != 12 || c = 3 || o % 4096 != 0 || n = 0 || 0x400000 < n || 0x4000000 < o + n then t.shpReply req 0x52 shpBadArg 0 []
    else
      let bs := Memory.bytes t.plain (t.base BOOT_STAGE_BASE.BASE) n
      { t with boot := { t.boot with wrote := some (c, o, bitOf (req.w 0) 8, bs) } }.shpReply req 0x52 shpOk 0 []

/-- TEST_RECORD: an SK7400-X1 has none. -/
def execTestRecord (req : ShpReq) (s : State) : Res :=
  s.shpServe req 0x60 fun t =>
    if req.len != 4 then t.shpReply req 0x60 shpBadArg 0 []
    else if t.unitc.order != 2 then t.shpReply req 0x60 shpNotAvailable 0 []
    else t.shpReply req 0x60 shpOk 0 (natBytes 4 t.unitc.record.length ++ (t.unitc.record.drop (req.w 0)).take 1408)

/-! ## The PCIe endpoint (R453, R454) -/

/-- The endpoint is up: the host vale runs or is asleep, and SPLL_P is in lock (R14). -/
def State.pcieUp (s : State) : Bool :=
  s.vales.phase == .running && (s.runs Vale.host || bitOf s.pwr.stopped Vale.host) && s.flag CLK_PLL_STAT.SPLL_P_LOCK

/-- A BAR0 access to register `a` counts as privileged. -/
def State.barPriv (s : State) (a : Nat) : Bool := s.flag HST_CFG.PCIE_PRIV || (a = BOOT_CMD && !s.committed)

/-- BAR0_ACCESS: an aligned 32-bit access; any other is undefined. -/
def execBar0Access (off size : Nat) (write : Option Word) (s : State) : Res :=
  if !s.pcieUp || 0x2000000 ≤ off then .next s
  else if size != 4 || off % 4 != 0 then (s.undef 455).done
  else
    let a := 0x40000000 + off
    match write with
    | some w => (s.regWrite a w (s.barPriv a)).done
    | none =>
      let r := s.regRead a (s.barPriv a)
      { r.1 with hst := { r.1.hst with barData := natBytes 4 r.2 } }.done

/-- The byte that a BAR2 read at `o` returns. -/
def State.bar2Byte (s : State) (o : Nat) : Byte :=
  if o < 0x2000000 then Sparse.get plainInit s.plain o
  else if o < 0x3000000 then (s.retRead (o - 0x2000000) 1).headD 0
  else 0

/-- A BAR2 write of bytes into the Plain: the part that lies in the safety window is discarded there. -/
def State.bar2Put (s : State) (o : Nat) (bs : List Byte) : State :=
  let k := 0x1FF0000 - o
  let t := if (bs.take k).isEmpty then s else s.busWrite 19 o (bs.take k)
  if (bs.drop k).isEmpty then t else t.busWrite 19 (o + k) (bs.drop k)

/-- BAR2_ACCESS: a write into the retained store, or into a table in use, is undefined (R240, R482). -/
def execBar2Access (off : Nat) (write : Option (List Byte)) (len : Nat) (s : State) : Res :=
  if !s.pcieUp || 0x4000000 < off + len then .next s
  else
    (s.awake 2 fun t =>
      match write with
      | none => { t with hst := { t.hst with barData := (List.range len).map fun k => t.bar2Byte (off + k) } }
      | some bs =>
        let bs := bs.take len
        if 0x2000000 < off + bs.length && off < 0x3000000 then t.undef 240
        else if 0x3000000 ≤ off then t
        else match t.barWriteBad off bs with
          | some r => t.undef r
          | none => t.bar2Put off bs).done

/-- The figures that notifications and MSI-X vectors watch. -/
def State.watched (s : State) : List Nat :=
  [s.mdwSerial true, s.mdwSerial false, s.fld JRN_STATE.STATE + 8 * s.fld JRN_STATE.ARMING, s.fld PAIR_STAT.ROLE,
   (s.reg BOOT_STAT).toNat, (s.reg BOOT_CHG).toNat, s.pw 0x1FF0000, s.pw 0x1FF0004, (s.reg PAIR_STAT).toNat]

/-- The figures before the first strobe since a reset. -/
def State.watchedReset (s : State) : List Nat :=
  [s.mdwSerial true, s.mdwSerial false, 0, 0, (resetValue BOOT_STAT).toNat, 0, s.pw 0x1FF0000, s.pw 0x1FF0004, 0]

/-- Figure `k` has changed since the last strobe. -/
def State.watchChanged (s : State) (k : Nat) : Bool :=
  (s.watched.getD k 0) != ((if s.hst.seen.isEmpty then s.watchedReset else s.hst.seen).getD k 0)

/-- Source `src` with `arg` has had an event since the last strobe (R454). -/
def State.msixEvent (s : State) (src arg : Nat) : Bool :=
  match src with
  | 1 => s.watchChanged 0
  | 2 => s.watchChanged 1
  | 3 => s.hst.stepped.contains arg
  | 4 => s.watchChanged 2
  | 5 => s.watchChanged 3
  | 6 => s.watchChanged 4 || s.watchChanged 5
  | 7 => s.watchChanged 6 || s.watchChanged 7
  | 8 => s.time.tick % 2 ^ arg = 0
  | _ => false

/-- Pending bit of vector `v`. -/
def msixPend (v : Nat) : Fld := ⟨HST_MSIX_PBA (v / 32), v % 32, 1⟩

/-- The vectors of a tick: an event sets a vector's pending bit, and a pending vector that is not masked is sent; a reserved SRC
is undefined (R454, R455). -/
def State.msixStrobe (s : State) : State :=
  let s := { s with hst := { s.hst with msixSent := [] } }
  s.each (List.range 64) fun t v =>
    let src := t.fld (HST_MSIX_MAP.SRC v)
    if 9 ≤ src then t.undef 455
    else
      let u := if t.msixEvent src (t.fld (HST_MSIX_MAP.ARG v)) then t.setFld (msixPend v) 1 else t
      if u.flag (msixPend v) && !u.flag (HST_MSIX_VCTL.MASK v) && u.pcieUp then
        { u.setFld (msixPend v) 0 with hst := { u.hst with msixSent := u.hst.msixSent ++ [v] } }
      else u

/-! ## Notifications (R449, R451) -/

/-- The readable records of a class from serial `n`, at most `k`, and the serial after them. -/
def State.newRecords (s : State) (fault : Bool) : Nat → Nat → List (List Byte) × Nat
  | 0, n => ([], n)
  | k + 1, n =>
    match s.rdStatus fault n with
    | 0 => let r := s.newRecords fault k ((n + 1) % 2 ^ 32)
           (s.recBytes fault n :: r.1, r.2)
    | 1 => s.newRecords fault k ((n + 1) % 2 ^ 32)
    | _ => ([], n)

/-- A NOTIFY message of session `k`. -/
def State.notify (s : State) (k kind n : Nat) (body : List Byte) : State :=
  match s.sess k with
  | none => s
  | some v =>
    let m : ShpMsg := { client := v.client, ver := v.ver, ty := 0x7F, session := k, notify := true, seq := v.noteSeq, status := 0,
                        result := 0, payload := natBytes 4 (kind + 256 * n) ++ body }
    { s.setSess k (some { v with noteSeq := (v.noteSeq + 1) % 2 ^ 32 }) with hst :=
        { (s.setSess k (some { v with noteSeq := (v.noteSeq + 1) % 2 ^ 32 })).hst with notes := s.hst.notes ++ [m] } }

/-- The notifications of session `k` in this tick: at most 16 records of the chosen classes, FAULT first, then change and pair
events. -/
def State.notifySess (s : State) (k : Nat) : State :=
  match s.sess k with
  | none => s
  | some v =>
    let f := if v.noteF then s.newRecords true 16 v.nextF else ([], v.nextF)
    let p := if v.noteP then s.newRecords false (16 - f.1.length) v.nextP else ([], v.nextP)
    let rs := f.1 ++ p.1
    let t := s.setSess k (some { v with nextF := f.2, nextP := p.2 })
    let t := if rs.isEmpty then t else t.notify k 1 rs.length rs.flatten
    let t := if v.noteX && s.watchChanged 5 then t.notify k 2 0 (wordsBytes [(t.reg BOOT_CHG).toNat, (t.reg BOOT_ERR).toNat]) else t
    if v.noteX && s.watchChanged 8 then t.notify k 3 0 (wordsBytes [(t.reg PAIR_STAT).toNat]) else t

/-- The host engine at a strobe: notifications and MSI-X vectors, then the figures are noted. -/
def State.hostStrobe (s : State) : State :=
  let s := { s with hst := { s.hst with notes := [] } }
  let t := if s.shpOn && !s.powerFail then s.each (List.range 16) State.notifySess else s
  let u := t.msixStrobe
  { u with hst := { u.hst with seen := u.watched, stepped := [] } }

/-! ## The vendor debug port (R461) -/

/-- The registers that level OFF reaches. -/
def debugOff (a : Nat) : Bool :=
  a = DBG_STAT || a = DBG_CMD || (DBG_CHAL 0 ≤ a && a ≤ DBG_CHAL 11) || (DBG_RESP 0 ≤ a && a ≤ DBG_RESP 23)

/-- The key store, which no level reaches. -/
def debugKeys (a w : Nat) : Bool := a = SEC_KEY_SEL || a = SEC_KEY_DATA || (a = SEC_CMD && w % 8 = 5)

/-- The rule of the undefined case that a debug-port write at Plain offset `o` meets: those that name any writer. -/
def State.debugWriteBad (s : State) (o : Nat) (bs : List Byte) : Option Nat :=
  if (List.range bs.length).any fun k => s.committed && (inRange (o + k) (s.base SIG_OUT_BASE.BASE) 0x10000) &&
      s.sigUsed ((o + k - s.base SIG_OUT_BASE.BASE) / 4) then some 108
  else match s.barWriteBad o bs with
    | some 108 =>
      if (List.range bs.length).any fun k => s.committed && inRange (o + k) (s.base SIG_CUR_BASE.BASE) 0x10000 then some 108 else none
    | some 85 =>
      if (List.range bs.length).any fun k => inRange (o + k) (s.base SCH_FLOW_BASE.BASE) 0x1000 then some 85 else none
    | some 215 => some 215
    | some 405 => some 405
    | some 455 => some 455
    | _ => none

/-- What the debug port leaves as read data. -/
def State.debugGot (s : State) (v : Nat) : State := { s with hst := { s.hst with debugData := some (BitVec.ofNat 32 v) } }

/-- A bus access at debug level `l`. -/
def State.debugBus (s : State) (l a : Nat) (write : Option Word) : State :=
  if 0x40000000 ≤ a && a < 0x41F00000 then
    if l = 0 && !debugOff a then s
    else match write with
      | some w => if debugKeys a w.toNat then s else s.regWrite a w true
      | none => let r := s.regRead a true
                r.1.debugGot r.2
  else if l = 0 then s
  else if isPlainAddr a && isPlainAddr (a + 3) then
    match write with
    | some w =>
      match s.debugWriteBad (a - 0x80000000) (natBytes 4 w.toNat) with
      | some r => s.undef r
      | none => s.busWord 23 (a - 0x80000000) w.toNat
    | none => s.debugGot (s.pw (a - 0x80000000))
  else if isRetAddr a && isRetAddr (a + 3) then
    match write with
    | some w => if l = 2 then s.retWrite (a - 0x90000000) (natBytes 4 w.toNat) else s
    | none => s.debugGot (bytesNat (s.retRead (a - 0x90000000) 4))
  else s

/-- A local-memory access at FULL. Writing a program bank or variable memory of a committed image is undefined (R215); vendor
words take no write, and what those below 0x480 hold is a free value. -/
def State.debugLocal (s : State) (unit mem a : Nat) (write : Option Word) : State :=
  let l := unit % 8
  let v := s.lane l
  match mem, write with
  | 0, none => (s.debugGot ((v.word (a % 4096)).getD (s.freeNat % 2 ^ 32))).useFree
  | 1, none => s.debugGot (Sparse.get (fun _ => (0 : BitVec 16)) v.data (a % 32768)).toNat
  | 2, none => s.debugGot (Sparse.get (fun _ => (0 : BitVec 16)) v.coef (a % 16384)).toNat
  | 3, none => s.debugGot (Sparse.get (fun _ => (0 : Word)) s.log.bank0 (a % bankWords)).toNat
  | 4, none => s.debugGot (Sparse.get (fun _ => (0 : Word)) s.log.bank1 (a % bankWords)).toNat
  | 5, none => s.debugGot (Sparse.get plainInit s.log.vmem (a % 0x100000)).toNat
  | 0, some w =>
    if a % 4096 < 0x600 then s
    else s.modLane l fun v => { v with prog := Sparse.set (fun _ => 0) v.prog (a % 4096) w }
  | 1, some w => s.modLane l fun v => { v with data := Sparse.set (fun _ => 0) v.data (a % 32768) (w.setWidth 16) }
  | 2, some w => s.modLane l fun v => { v with coef := Sparse.set (fun _ => 0) v.coef (a % 16384) (w.setWidth 16) }
  | 3, some w => if s.committed then s.undef 215 else s.putBank false (a % bankWords) w.toNat
  | 4, some w => if s.committed then s.undef 215 else s.putBank true (a % bankWords) w.toNat
  | 5, some w => if s.committed then s.undef 215 else s.vmPut (a % 0x100000) [w.setWidth 8]
  | _, _ => s

/-- DEBUG_PORT_ACCESS: it wakes the device from DOZE or NAP (R467), and reaches what the debug level grants. -/
def execDebugPortAccess (access : DebugAccess) (s : State) : Res :=
  if s.vales.phase != .running then .next s
  else
    (s.awake 6 fun t =>
      let l := t.fld DBG_STAT.LEVEL
      match access with
      | .bus a w => t.debugBus l a w
      | .localMem u m a w => if l = 2 then t.debugLocal u m a w else t).done

end Sys2Proof.Machine
end

