-- ==== Sys2Proof/Machine/Tick.lean ====
section
/-!
DEFINITION. Machine/Tick.lean: the four marks of the control tick (R22 to R30): the strobe's rise, its arrival, input close and
output close. Each vale's own part of a mark is in its chapter's file.
-/

namespace Sys2Proof.Machine

/-- The counter at least at `t` ns: a mark's command says that the mark's instant has come. -/
def State.advanceTo (s : State) (t : Nat) : State :=
  { s with time := { s.time with now := max s.time.now (t * 2 ^ 32) } }

/-- The device sleeps: in DOZE and deeper states no strobe is sent to any vale (R468). -/
def State.asleep (s : State) : Bool := 2 ≤ s.fld PWR_STAT.STATE

/-- The strobe of the next boundary may rise: an image is committed (R35), the counter runs, no reset stands, and the present
tick's output close has passed. -/
def State.strobeDue (s : State) : Bool :=
  s.committed && s.timeRuns && (s.asleep || s.vales.phase == .running) && (s.time.phase == .none || s.time.phase == .outputClosed)

/-- TICK_STROBE (R22, R35, R466, R468). -/
def execTickStrobe (s : State) : Res :=
  if !s.strobeDue then .next s
  else
    let n := s.time.nextTick
    let t := (s.advanceTo (boundaryNs n)).wrapFld SYS_TICK_COUNT.COUNT
    let t := { t.setFld SYS_STATE.TICK_RUN 1 with time :=
      { t.time with tick := n, nextTick := n + 1, sinceRise := 0, phase := if t.asleep then .none else .risen } }
    (t.pmc 0x10 0).powerSelect.done

/-! ## Strobe arrival -/

/-- What an entry of source SAF latches from its window word. -/
def State.safWord (s : State) (i : Nat) : Nat :=
  let r := s.sigSrcRef i
  let w := s.pw (0x1FF0000 + r % 65536 / 4 * 4)
  if s.sigType i = 3 then (if bitOf r 21 then bitsOf w (bitsOf r 16 5) 1 else b2n (w != 0)) else w

/-- The turn engine latches the entries of source SAF (R93, R323). What STATE and SAMPLED a group of them has is not said: free
values. -/
def State.safStrobe (s : State) : State :=
  let t := s.each (s.sigsOf 0x07) fun t i => t.latchSig i (t.safWord i)
  t.each (t.groupsOf 0x07) fun t p => (t.useFree.useFree).latchGrp p.1 (t.freeNat % 4) (some t.useFree.freeNat)

/-- The entries whose force goes at this boundary. -/
def State.forcesGoing (s : State) : List Nat :=
  s.forceSlots.filterMap fun p => if p.2.shown.isSome && p.2.next.isNone then some p.2.index else none

/-- The fabric and the output units: forces, the turn, the held words, the parked writes. -/
def State.strobeTurn (s : State) : State :=
  let gone := s.forcesGoing
  (((s.forceBoundary).turn gone).takeOutputs).applyParked

/-- The latching sources and the output units that the strobe drives. -/
def State.strobeUnits (s : State) : State :=
  ((((((s.adcStrobe).dacStrobe).motStrobe).posStrobe).rioStrobe).safStrobe).canStrobe

/-- The engines that the strobe releases. -/
def State.strobeEngines (s : State) : State :=
  let t := s.logStrobe s.time.tick
  let t := if t.loopStrobeUndefined then t.undef 167 else t.loopStrobe
  ((t.jrnStrobe).residentStart).pairStrobe

/-- The links, Meadow, the scheduler's load measurement and the host engine. -/
def State.strobeLinks (s : State) : State :=
  let t := if s.time.tick % 5 = 0 then s.casFrame.timeFrames else s
  let t := t.mdwStrobe
  { t with sch := { t.sch with loadStrobes := t.sch.loadStrobes + 1 } }.hostStrobe

/-- What comes before any value moves: lines, halt, realignment, the pair's comparison, the journal's boundary. -/
def State.strobeFirst (s : State) (lines : List (Nat × Bool)) (late : List (Nat × Nat)) : State :=
  let t := { s with time := { s.time with phase := .arrived }, sig := { s.sig with late := late } }
  (((((t.setLines lines).haltStrobe t.time.tick).timeRealign).pairCheck).jrnBoundary t.time.tick).subsStrobe

/-- STROBE_ARRIVAL (R24): the strobe arrives in every vale that takes part. -/
def execStrobeArrival (lines : List (Nat × Bool)) (late : List (Nat × Nat)) (s : State) : Res :=
  if s.time.phase != .risen || s.vales.phase != .running then .next s
  else (s.strobeFirst lines late).strobeTurn.strobeUnits.strobeEngines.strobeLinks.done

/-! ## Input close and output close -/

/-- The late writes of the tick are counted (R25). -/
def State.countLate (s : State) : State :=
  s.each s.sig.late fun t p => (t.incFld SYS_TICK_STAT.LATCH_LATE).setFld SYS_LATE_SRC.LATCH_PORT p.2

/-- The jobs that were handed over since the strobe become ready, unless a halt stands (R26, R471). -/
def State.readyLatched (s : State) : State :=
  if s.halted then s else (s.each s.sch.latched State.makeReady).dispatch

/-- INPUT_CLOSE (R23, R25, R26, R199, R332, R351, R376, R408, R425). -/
def execInputClose (skips missed : List Nat) (s : State) : Res :=
  if s.time.phase != .arrived then .next s
  else
    let t := s.advanceTo (boundaryNs s.time.tick + 4000)
    let t := ({ t with time := { t.time with phase := .inputClosed } }).countLate
    let t := { t with sig := { t.sig with late := [] } }
    let t := if t.halted then t else t.logInputClose
    let t := (t.readyLatched).mdwInputClose skips missed
    ((((t.jrnInputClose).pairSendTick).casExport).netSafe).shpInputClose.done

/-- OUTPUT_CLOSE (R23, R95, R219, R351, R398). -/
def execOutputClose (s : State) : Res :=
  if s.time.phase != .inputClosed then .next s
  else
    let t := s.advanceTo (boundaryNs s.time.tick + 48000)
    let t := { t with time := { t.time with phase := .outputClosed } }
    ((((t.casOutputClose).canOutputClose).freezeSets).jrnOutputClose).done

end Sys2Proof.Machine
end

