-- ==== Sys2Proof/Machine/Dispatch.lean ====
section
/-!
DEFINITION. Machine/Dispatch.lean: what each command does to everything but the queue, one arm per constructor.
-/

namespace Sys2Proof.Machine

/-- The effect of a command. -/
def exec (i : Instr) (s : State) : Host.Outcome State Fault Refusal :=
  match i with
  | .por => Sys2Proof.Machine.execPor s
  | .pinReset => Sys2Proof.Machine.execPinReset s
  | .softReset => Sys2Proof.Machine.execSoftReset s
  | .clockReset => Sys2Proof.Machine.execClockReset s
  | .xinStop => Sys2Proof.Machine.execXinStop s
  | .xinReturn => Sys2Proof.Machine.execXinReturn s
  | .serdesPllLoss lost => Sys2Proof.Machine.execSerdesPllLoss lost s
  | .resetRelease bootSel cascPos pairRole => Sys2Proof.Machine.execResetRelease bootSel cascPos pairRole s
  | .pllLock => Sys2Proof.Machine.execPllLock s
  | .colStall pair dir => Sys2Proof.Machine.execColStall pair dir s
  | .colStallClear => Sys2Proof.Machine.execColStallClear s
  | .tickStrobe => Sys2Proof.Machine.execTickStrobe s
  | .strobeArrival lines late => Sys2Proof.Machine.execStrobeArrival lines late s
  | .inputClose skips missed => Sys2Proof.Machine.execInputClose skips missed s
  | .outputClose => Sys2Proof.Machine.execOutputClose s
  | .outputPrefetch unit => Sys2Proof.Machine.execOutputPrefetch unit s
  | .tickClr => Sys2Proof.Machine.execTickClr s
  | .registerWrite addr data priv => Sys2Proof.Machine.execRegisterWrite addr data priv s
  | .plainTransaction port requester addr isWrite data len => Sys2Proof.Machine.execPlainTransaction port requester addr isWrite data len s
  | .grant ecc => Sys2Proof.Machine.execGrant ecc s
  | .retainedStoreAccess => Sys2Proof.Machine.execRetainedStoreAccess s
  | .plnClrWait => Sys2Proof.Machine.execPlnClrWait s
  | .plnClrEcc => Sys2Proof.Machine.execPlnClrEcc s
  | .plnClrWin => Sys2Proof.Machine.execPlnClrWin s
  | .jobRelease job => Sys2Proof.Machine.execJobRelease job s
  | .runLimit lane issued => Sys2Proof.Machine.execRunLimit lane issued s
  | .jobComplete engine => Sys2Proof.Machine.execJobComplete engine s
  | .deadlinePass job issued => Sys2Proof.Machine.execDeadlinePass job issued s
  | .expiry => Sys2Proof.Machine.execExpiry s
  | .waitEvent event => Sys2Proof.Machine.execWaitEvent event s
  | .loadIntervalEnd lane logic => Sys2Proof.Machine.execLoadIntervalEnd lane logic s
  | .schClrCounts => Sys2Proof.Machine.execSchClrCounts s
  | .schClrPeaks => Sys2Proof.Machine.execSchClrPeaks s
  | .forceSet => Sys2Proof.Machine.execForceSet s
  | .forceRelease => Sys2Proof.Machine.execForceRelease s
  | .forceReleaseAll => Sys2Proof.Machine.execForceReleaseAll s
  | .sigClrStats => Sys2Proof.Machine.execSigClrStats s
  | .seqEvaluation cut cycles => Sys2Proof.Machine.execSeqEvaluation cut cycles s
  | .seqNop seq arg => Sys2Proof.Machine.execSeqNop seq arg s
  | .seqLoad seq arg => Sys2Proof.Machine.execSeqLoad seq arg s
  | .seqStart seq arg => Sys2Proof.Machine.execSeqStart seq arg s
  | .seqHold seq arg => Sys2Proof.Machine.execSeqHold seq arg s
  | .seqContinue seq arg => Sys2Proof.Machine.execSeqContinue seq arg s
  | .seqSkip seq arg => Sys2Proof.Machine.execSeqSkip seq arg s
  | .seqAbort seq arg => Sys2Proof.Machine.execSeqAbort seq arg s
  | .seqStop seq arg => Sys2Proof.Machine.execSeqStop seq arg s
  | .seqResumeCommit seq arg => Sys2Proof.Machine.execSeqResumeCommit seq arg s
  | .seqClear seq arg => Sys2Proof.Machine.execSeqClear seq arg s
  | .passCommit kind spanSeq from_ target atSec atNs attempt arg => Sys2Proof.Machine.execPassCommit kind spanSeq from_ target atSec atNs attempt arg s
  | .passAnswer spanSeq pos code attempt => Sys2Proof.Machine.execPassAnswer spanSeq pos code attempt s
  | .passMiss seq start => Sys2Proof.Machine.execPassMiss seq start s
  | .passAckDeadline seq => Sys2Proof.Machine.execPassAckDeadline seq s
  | .seqClrCounts => Sys2Proof.Machine.execSeqClrCounts s
  | .seqClrPeaks => Sys2Proof.Machine.execSeqClrPeaks s
  | .loopMode slot mode => Sys2Proof.Machine.execLoopMode slot mode s
  | .loopLimitLo slot value => Sys2Proof.Machine.execLoopLimitLo slot value s
  | .loopLimitHi slot value => Sys2Proof.Machine.execLoopLimitHi slot value s
  | .loopClearFault slot => Sys2Proof.Machine.execLoopClearFault slot s
  | .loopClrCounts => Sys2Proof.Machine.execLoopClrCounts s
  | .loopClrPeaks => Sys2Proof.Machine.execLoopClrPeaks s
  | .laneJobStart lane dlat => Sys2Proof.Machine.execLaneJobStart lane dlat s
  | .laneNop lane => Sys2Proof.Machine.execLaneNop lane s
  | .laneEnd lane => Sys2Proof.Machine.execLaneEnd lane s
  | .laneJmp lane tgt => Sys2Proof.Machine.execLaneJmp lane tgt s
  | .laneBr lane cc tgt => Sys2Proof.Machine.execLaneBr lane cc tgt s
  | .laneCall lane tgt => Sys2Proof.Machine.execLaneCall lane tgt s
  | .laneRet lane => Sys2Proof.Machine.execLaneRet lane s
  | .laneLoop lane idx x last => Sys2Proof.Machine.execLaneLoop lane idx x last s
  | .laneWaits lane n => Sys2Proof.Machine.execLaneWaits lane n s
  | .laneInh lane v => Sys2Proof.Machine.execLaneInh lane v s
  | .laneEvt lane c code => Sys2Proof.Machine.execLaneEvt lane c code s
  | .laneLdi lane d imm => Sys2Proof.Machine.execLaneLdi lane d imm s
  | .laneLdp lane p imm => Sys2Proof.Machine.execLaneLdp lane p imm s
  | .laneLdm lane p imm => Sys2Proof.Machine.execLaneLdm lane p imm s
  | .laneLdz lane p k => Sys2Proof.Machine.execLaneLdz lane p k s
  | .laneMovx lane d sp dir => Sys2Proof.Machine.execLaneMovx lane d sp dir s
  | .laneSetm lane sat rnd msh => Sys2Proof.Machine.execLaneSetm lane sat rnd msh s
  | .laneLd lane d p m => Sys2Proof.Machine.execLaneLd lane d p m s
  | .laneSt lane r p m => Sys2Proof.Machine.execLaneSt lane r p m s
  | .laneLd2 lane d x mx y my => Sys2Proof.Machine.execLaneLd2 lane d x mx y my s
  | .laneLim lane d r t => Sys2Proof.Machine.execLaneLim lane d r t s
  | .laneGet lane d ind x => Sys2Proof.Machine.execLaneGet lane d ind x s
  | .laneGetw lane d ind x => Sys2Proof.Machine.execLaneGetw lane d ind x s
  | .lanePut lane r ind x => Sys2Proof.Machine.execLanePut lane r ind x s
  | .lanePutw lane r ind x => Sys2Proof.Machine.execLanePutw lane r ind x s
  | .laneFld lane d disp => Sys2Proof.Machine.execLaneFld lane d disp s
  | .laneFst lane r disp => Sys2Proof.Machine.execLaneFst lane r disp s
  | .lanePop lane d => Sys2Proof.Machine.execLanePop lane d s
  | .laneMpyReg lane a r t => Sys2Proof.Machine.execLaneMpyReg lane a r t s
  | .laneMpyMem lane a r p m => Sys2Proof.Machine.execLaneMpyMem lane a r p m s
  | .laneMpyDual lane a x mx y my => Sys2Proof.Machine.execLaneMpyDual lane a x mx y my s
  | .laneMacReg lane a r t => Sys2Proof.Machine.execLaneMacReg lane a r t s
  | .laneMacMem lane a r p m => Sys2Proof.Machine.execLaneMacMem lane a r p m s
  | .laneMacDual lane a x mx y my => Sys2Proof.Machine.execLaneMacDual lane a x mx y my s
  | .laneMsuReg lane a r t => Sys2Proof.Machine.execLaneMsuReg lane a r t s
  | .laneMsuMem lane a r p m => Sys2Proof.Machine.execLaneMsuMem lane a r p m s
  | .laneMsuDual lane a x mx y my => Sys2Proof.Machine.execLaneMsuDual lane a x mx y my s
  | .laneMpyu lane a r t => Sys2Proof.Machine.execLaneMpyu lane a r t s
  | .laneAdd lane d r t => Sys2Proof.Machine.execLaneAdd lane d r t s
  | .laneSub lane d r t => Sys2Proof.Machine.execLaneSub lane d r t s
  | .laneMinmax lane d r t f => Sys2Proof.Machine.execLaneMinmax lane d r t f s
  | .laneLog lane d r t f => Sys2Proof.Machine.execLaneLog lane d r t f s
  | .laneShd lane d r k n => Sys2Proof.Machine.execLaneShd lane d r k n s
  | .laneCmp lane r t => Sys2Proof.Machine.execLaneCmp lane r t s
  | .laneAcc lane a f => Sys2Proof.Machine.execLaneAcc lane a f s
  | .laneSha lane a v x => Sys2Proof.Machine.execLaneSha lane a v x s
  | .laneMva lane a d r o sh => Sys2Proof.Machine.execLaneMva lane a d r o sh s
  | .laneMvd lane a r o sh => Sys2Proof.Machine.execLaneMvd lane a r o sh s
  | .laneNorm lane a d e => Sys2Proof.Machine.execLaneNorm lane a d e s
  | .laneDataError lane => Sys2Proof.Machine.execLaneDataError lane s
  | .streamSample lane sample => Sys2Proof.Machine.execStreamSample lane sample s
  | .laneMemAccess isWrite data => Sys2Proof.Machine.execLaneMemAccess isWrite data s
  | .laneClrCounts => Sys2Proof.Machine.execLaneClrCounts s
  | .laneClrPeaks => Sys2Proof.Machine.execLaneClrPeaks s
  | .cycleStart core whole dlat => Sys2Proof.Machine.execCycleStart core whole dlat s
  | .cycleComplete core => Sys2Proof.Machine.execCycleComplete core s
  | .logicNop core => Sys2Proof.Machine.execLogicNop core s
  | .logicEnd core => Sys2Proof.Machine.execLogicEnd core s
  | .logicJmp core tgt => Sys2Proof.Machine.execLogicJmp core tgt s
  | .logicBr core cc tgt => Sys2Proof.Machine.execLogicBr core cc tgt s
  | .logicCall core tgt => Sys2Proof.Machine.execLogicCall core tgt s
  | .logicRet core => Sys2Proof.Machine.execLogicRet core s
  | .logicBrb core r v tgt => Sys2Proof.Machine.execLogicBrb core r v tgt s
  | .logicLdw core d r off => Sys2Proof.Machine.execLogicLdw core d r off s
  | .logicLdh core d r off => Sys2Proof.Machine.execLogicLdh core d r off s
  | .logicLdb core d r off => Sys2Proof.Machine.execLogicLdb core d r off s
  | .logicStw core d r off => Sys2Proof.Machine.execLogicStw core d r off s
  | .logicSth core d r off => Sys2Proof.Machine.execLogicSth core d r off s
  | .logicStb core d r off => Sys2Proof.Machine.execLogicStb core d r off s
  | .logicLdx core d r off b => Sys2Proof.Machine.execLogicLdx core d r off b s
  | .logicStx core d r off b => Sys2Proof.Machine.execLogicStx core d r off b s
  | .logicLdi core d imm => Sys2Proof.Machine.execLogicLdi core d imm s
  | .logicLdih core d imm => Sys2Proof.Machine.execLogicLdih core d imm s
  | .logicMov core d r => Sys2Proof.Machine.execLogicMov core d r s
  | .logicAdd core d r t => Sys2Proof.Machine.execLogicAdd core d r t s
  | .logicSub core d r t => Sys2Proof.Machine.execLogicSub core d r t s
  | .logicMul core d r t => Sys2Proof.Machine.execLogicMul core d r t s
  | .logicDiv core d r t => Sys2Proof.Machine.execLogicDiv core d r t s
  | .logicMod core d r t => Sys2Proof.Machine.execLogicMod core d r t s
  | .logicAddi core d r imm => Sys2Proof.Machine.execLogicAddi core d r imm s
  | .logicAdds core d r t => Sys2Proof.Machine.execLogicAdds core d r t s
  | .logicSubs core d r t => Sys2Proof.Machine.execLogicSubs core d r t s
  | .logicLgc core d r t f => Sys2Proof.Machine.execLogicLgc core d r t f s
  | .logicNot core d r => Sys2Proof.Machine.execLogicNot core d r s
  | .logicShf core d r t f => Sys2Proof.Machine.execLogicShf core d r t f s
  | .logicShfi core d r n f => Sys2Proof.Machine.execLogicShfi core d r n f s
  | .logicMinmax core d r t f => Sys2Proof.Machine.execLogicMinmax core d r t f s
  | .logicLimit core d r t => Sys2Proof.Machine.execLogicLimit core d r t s
  | .logicAbsneg core d r f => Sys2Proof.Machine.execLogicAbsneg core d r f s
  | .logicCmp core r t => Sys2Proof.Machine.execLogicCmp core r t s
  | .logicCmpi core r imm => Sys2Proof.Machine.execLogicCmpi core r imm s
  | .logicSetc core d cc => Sys2Proof.Machine.execLogicSetc core d cc s
  | .logicSel core d r t => Sys2Proof.Machine.execLogicSel core d r t s
  | .logicBop core d r t f ns nt => Sys2Proof.Machine.execLogicBop core d r t f ns nt s
  | .logicQmul core d r t => Sys2Proof.Machine.execLogicQmul core d r t s
  | .logicFadd core d r t => Sys2Proof.Machine.execLogicFadd core d r t s
  | .logicFsub core d r t => Sys2Proof.Machine.execLogicFsub core d r t s
  | .logicFmul core d r t => Sys2Proof.Machine.execLogicFmul core d r t s
  | .logicFdiv core d r t => Sys2Proof.Machine.execLogicFdiv core d r t s
  | .logicFcmp core r t => Sys2Proof.Machine.execLogicFcmp core r t s
  | .logicFcvt core d r f => Sys2Proof.Machine.execLogicFcvt core d r f s
  | .logicGetd core d ind x => Sys2Proof.Machine.execLogicGetd core d ind x s
  | .logicPutd core d ind x => Sys2Proof.Machine.execLogicPutd core d ind x s
  | .logicGrp core d g => Sys2Proof.Machine.execLogicGrp core d g s
  | .logicTmr core d r f idx => Sys2Proof.Machine.execLogicTmr core d r f idx s
  | .logicTpt core r idx => Sys2Proof.Machine.execLogicTpt core r idx s
  | .logicTrd core d idx => Sys2Proof.Machine.execLogicTrd core d idx s
  | .logicCnt core d r f idx => Sys2Proof.Machine.execLogicCnt core d r f idx s
  | .logicCpv core r idx => Sys2Proof.Machine.execLogicCpv core r idx s
  | .logicCrd core d idx => Sys2Proof.Machine.execLogicCrd core d idx s
  | .logicEdge core d r f idx => Sys2Proof.Machine.execLogicEdge core d r f idx s
  | .logicEvt core c code => Sys2Proof.Machine.execLogicEvt core c code s
  | .exchRequest => Sys2Proof.Machine.execExchRequest s
  | .exchCheckDone => Sys2Proof.Machine.execExchCheckDone s
  | .exchWindowOpen => Sys2Proof.Machine.execExchWindowOpen s
  | .exchTimeout => Sys2Proof.Machine.execExchTimeout s
  | .exchCancel => Sys2Proof.Machine.execExchCancel s
  | .taskStart task => Sys2Proof.Machine.execTaskStart task s
  | .taskStop task => Sys2Proof.Machine.execTaskStop task s
  | .logClrCounts => Sys2Proof.Machine.execLogClrCounts s
  | .logClrPeaks => Sys2Proof.Machine.execLogClrPeaks s
  | .journalRecordDone unstable => Sys2Proof.Machine.execJournalRecordDone unstable s
  | .holdupTestStart samples => Sys2Proof.Machine.execHoldupTestStart samples s
  | .holdLoadOn => Sys2Proof.Machine.execHoldLoadOn s
  | .holdupTestEnd samples => Sys2Proof.Machine.execHoldupTestEnd samples s
  | .idleRetest => Sys2Proof.Machine.execIdleRetest s
  | .jrnTest => Sys2Proof.Machine.execJrnTest s
  | .jrnSelect copy => Sys2Proof.Machine.execJrnSelect copy s
  | .jrnDiscard => Sys2Proof.Machine.execJrnDiscard s
  | .pfailAccept => Sys2Proof.Machine.execPfailAccept s
  | .pfailRelease bootSel cascPos pairRole => Sys2Proof.Machine.execPfailRelease bootSel cascPos pairRole s
  | .restoreEnd => Sys2Proof.Machine.execRestoreEnd s
  | .autoResume => Sys2Proof.Machine.execAutoResume s
  | .jrnClrCounts => Sys2Proof.Machine.execJrnClrCounts s
  | .jrnClrPeaks => Sys2Proof.Machine.execJrnClrPeaks s
  | .adcResult group slice raw => Sys2Proof.Machine.execAdcResult group slice raw s
  | .triggerTimer group timer => Sys2Proof.Machine.execTriggerTimer group timer s
  | .adcTrigger group slice => Sys2Proof.Machine.execAdcTrigger group slice s
  | .conversionDue group slice ended => Sys2Proof.Machine.execConversionDue group slice ended s
  | .adcCalibrate groups => Sys2Proof.Machine.execAdcCalibrate groups s
  | .calibrationStart group => Sys2Proof.Machine.execCalibrationStart group s
  | .calibrationEnd group lo hi => Sys2Proof.Machine.execCalibrationEnd group lo hi s
  | .adcSupplyFault => Sys2Proof.Machine.execAdcSupplyFault s
  | .adcClrCounts => Sys2Proof.Machine.execAdcClrCounts s
  | .profileInterval k lines => Sys2Proof.Machine.execProfileInterval k lines s
  | .moveAbs axis arg => Sys2Proof.Machine.execMoveAbs axis arg s
  | .moveRel axis arg => Sys2Proof.Machine.execMoveRel axis arg s
  | .stopRamped axis => Sys2Proof.Machine.execStopRamped axis s
  | .stopHard axis => Sys2Proof.Machine.execStopHard axis s
  | .motHome axis => Sys2Proof.Machine.execMotHome axis s
  | .motClearFault axis => Sys2Proof.Machine.execMotClearFault axis s
  | .pwmValley channel => Sys2Proof.Machine.execPwmValley channel s
  | .pwmConverterTrigger channel => Sys2Proof.Machine.execPwmConverterTrigger channel s
  | .pwmInhibit input => Sys2Proof.Machine.execPwmInhibit input s
  | .standstillReduce axis => Sys2Proof.Machine.execStandstillReduce axis s
  | .motSignalWrite => Sys2Proof.Machine.execMotSignalWrite s
  | .sdmOutput input output => Sys2Proof.Machine.execSdmOutput input output s
  | .overCurrent input output => Sys2Proof.Machine.execOverCurrent input output s
  | .dataStuck input => Sys2Proof.Machine.execDataStuck input s
  | .quadratureTransition channel ab => Sys2Proof.Machine.execQuadratureTransition channel ab s
  | .zCapture channel => Sys2Proof.Machine.execZCapture channel s
  | .wireFault channel lines => Sys2Proof.Machine.execWireFault channel lines s
  | .ssiFrame channel ready bits parity => Sys2Proof.Machine.execSsiFrame channel ready bits parity s
  | .comparePulseEnd unit => Sys2Proof.Machine.execComparePulseEnd unit s
  | .compareEntryWrite unit entry value => Sys2Proof.Machine.execCompareEntryWrite unit entry value s
  | .armZ channel => Sys2Proof.Machine.execArmZ channel s
  | .posClear channel => Sys2Proof.Machine.execPosClear channel s
  | .cmpArm unit => Sys2Proof.Machine.execCmpArm unit s
  | .cmpDisarm unit => Sys2Proof.Machine.execCmpDisarm unit s
  | .loadCount channel arg => Sys2Proof.Machine.execLoadCount channel arg s
  | .clearSsi channel => Sys2Proof.Machine.execClearSsi channel s
  | .islandPor => Sys2Proof.Machine.execIslandPor s
  | .selfTestDone => Sys2Proof.Machine.execSelfTestDone s
  | .islandScan inputs emo readback clockOk => Sys2Proof.Machine.execIslandScan inputs emo readback clockOk s
  | .inputTestPulse source offset => Sys2Proof.Machine.execInputTestPulse source offset s
  | .inputTestSample source inputs emo => Sys2Proof.Machine.execInputTestSample source inputs emo s
  | .outputTestPulse output offset => Sys2Proof.Machine.execOutputTestPulse output offset s
  | .outputPulseCheck output energised => Sys2Proof.Machine.execOutputPulseCheck output energised s
  | .outputFault output energised offset => Sys2Proof.Machine.execOutputFault output energised offset s
  | .keepaliveExpiry output => Sys2Proof.Machine.execKeepaliveExpiry output s
  | .lockstepFault => Sys2Proof.Machine.execLockstepFault s
  | .memoryFault => Sys2Proof.Machine.execMemoryFault s
  | .configCrcCheck crc => Sys2Proof.Machine.execConfigCrcCheck crc s
  | .safeSupplyFault temp => Sys2Proof.Machine.execSafeSupplyFault temp s
  | .emoDiscrepancy => Sys2Proof.Machine.execEmoDiscrepancy s
  | .discrepancy function => Sys2Proof.Machine.execDiscrepancy function s
  | .functionDelayExpiry function => Sys2Proof.Machine.execFunctionDelayExpiry function s
  | .safeFrameSend => Sys2Proof.Machine.execSafeFrameSend s
  | .mailboxMessage sender msg => Sys2Proof.Machine.execMailboxMessage sender msg s
  | .pathSilent connection path => Sys2Proof.Machine.execPathSilent connection path s
  | .frameMismatch connection => Sys2Proof.Machine.execFrameMismatch connection s
  | .configDropped => Sys2Proof.Machine.execConfigDropped s
  | .islandPfail => Sys2Proof.Machine.execIslandPfail s
  | .islandPfailReturn => Sys2Proof.Machine.execIslandPfailReturn s
  | .pairElection => Sys2Proof.Machine.execPairElection s
  | .tickRec record => Sys2Proof.Machine.execTickRec record s
  | .journalFrame mirror line stage => Sys2Proof.Machine.execJournalFrame mirror line stage s
  | .pairCompare fails fatal => Sys2Proof.Machine.execPairCompare fails fatal s
  | .pairDecision standbyReady => Sys2Proof.Machine.execPairDecision standbyReady s
  | .pairTakeover => Sys2Proof.Machine.execPairTakeover s
  | .pairSwitch standbyReady => Sys2Proof.Machine.execPairSwitch standbyReady s
  | .pairResync => Sys2Proof.Machine.execPairResync s
  | .pairRelease => Sys2Proof.Machine.execPairRelease s
  | .pairClrCounts => Sys2Proof.Machine.execPairClrCounts s
  | .linkSignalDetect port => Sys2Proof.Machine.execLinkSignalDetect port s
  | .blockLock port => Sys2Proof.Machine.execBlockLock port s
  | .helloSend port => Sys2Proof.Machine.execHelloSend port s
  | .linkHello port vmin vmax pos node uid role strap image since => Sys2Proof.Machine.execLinkHello port vmin vmax pos node uid role strap image since s
  | .blockLockLoss port => Sys2Proof.Machine.execBlockLockLoss port s
  | .creditFrame port cls terrace lines => Sys2Proof.Machine.execCreditFrame port cls terrace lines s
  | .linkTransmit port => Sys2Proof.Machine.execLinkTransmit port s
  | .casFrameTransit port frame => Sys2Proof.Machine.execCasFrameTransit port frame s
  | .casFrameBad port => Sys2Proof.Machine.execCasFrameBad port s
  | .beacon uid => Sys2Proof.Machine.execBeacon uid s
  | .masterLost => Sys2Proof.Machine.execMasterLost s
  | .masterLostAbort => Sys2Proof.Machine.execMasterLostAbort s
  | .safeFrame path bytes => Sys2Proof.Machine.execSafeFrame path bytes s
  | .signalFrame pos values => Sys2Proof.Machine.execSignalFrame pos values s
  | .syncRec lines stage => Sys2Proof.Machine.execSyncRec lines stage s
  | .recordFrame src msg => Sys2Proof.Machine.execRecordFrame src msg s
  | .shpFwd request => Sys2Proof.Machine.execShpFwd request s
  | .resyncFrame region off bytes forces last => Sys2Proof.Machine.execResyncFrame region off bytes forces last s
  | .casClrCounts => Sys2Proof.Machine.execCasClrCounts s
  | .timNowRead => Sys2Proof.Machine.execTimNowRead s
  | .timeFrame port sent peerRx ourTx valid => Sys2Proof.Machine.execTimeFrame port sent peerRx ourTx valid s
  | .ptpMessage port msg => Sys2Proof.Machine.execPtpMessage port msg s
  | .ptpSend port next => Sys2Proof.Machine.execPtpSend port next s
  | .servoUpdate => Sys2Proof.Machine.execServoUpdate s
  | .holdover => Sys2Proof.Machine.execHoldover s
  | .stepApply => Sys2Proof.Machine.execStepApply s
  | .timeSet => Sys2Proof.Machine.execTimeSet s
  | .frameIngress port frame => Sys2Proof.Machine.execFrameIngress port frame s
  | .frameEgress port => Sys2Proof.Machine.execFrameEgress port s
  | .frameAged port queue => Sys2Proof.Machine.execFrameAged port queue s
  | .gateListEntry port => Sys2Proof.Machine.execGateListEntry port s
  | .gclSwap port => Sys2Proof.Machine.execGclSwap port s
  | .gclEntryAccess write => Sys2Proof.Machine.execGclEntryAccess write s
  | .addressAge mac vid => Sys2Proof.Machine.execAddressAge mac vid s
  | .domainFrame node pos ty => Sys2Proof.Machine.execDomainFrame node pos ty s
  | .netClrCounts => Sys2Proof.Machine.execNetClrCounts s
  | .ringCycleStart ring => Sys2Proof.Machine.execRingCycleStart ring s
  | .rioCycle ring frame fcsOk segs => Sys2Proof.Machine.execRioCycle ring frame fcsOk segs s
  | .rioEnum ring upper ids => Sys2Proof.Machine.execRioEnum ring upper ids s
  | .rioProbe ring module trip => Sys2Proof.Machine.execRioProbe ring module trip s
  | .rioConfig ring module => Sys2Proof.Machine.execRioConfig ring module s
  | .rioDiag ring module bytes => Sys2Proof.Machine.execRioDiag ring module bytes s
  | .ringSyncLoss ring => Sys2Proof.Machine.execRingSyncLoss ring s
  | .rioClrCounts => Sys2Proof.Machine.execRioClrCounts s
  | .canFrameReceive ctrl id dlc esi rtr data sof lost => Sys2Proof.Machine.execCanFrameReceive ctrl id dlc esi rtr data sof lost s
  | .canFrameSent ctrl obj age => Sys2Proof.Machine.execCanFrameSent ctrl obj age s
  | .canError ctrl obj kind tecUp recUp => Sys2Proof.Machine.execCanError ctrl obj kind tecUp recUp s
  | .busOffRecovery ctrl => Sys2Proof.Machine.execBusOffRecovery ctrl s
  | .canSend ctrl obj started => Sys2Proof.Machine.execCanSend ctrl obj started s
  | .canCancel ctrl obj tooLate => Sys2Proof.Machine.execCanCancel ctrl obj tooLate s
  | .canFifoReadAdvance ctrl fifo rd => Sys2Proof.Machine.execCanFifoReadAdvance ctrl fifo rd s
  | .canClrCounts => Sys2Proof.Machine.execCanClrCounts s
  | .recordWrite => Sys2Proof.Machine.execRecordWrite s
  | .mdwClearFault => Sys2Proof.Machine.execMdwClearFault s
  | .clearProcess => Sys2Proof.Machine.execClearProcess s
  | .closeFree => Sys2Proof.Machine.execCloseFree s
  | .mdwRdSerialWrite serial => Sys2Proof.Machine.execMdwRdSerialWrite serial s
  | .mdwAdv => Sys2Proof.Machine.execMdwAdv s
  | .mdwRdLoadDone => Sys2Proof.Machine.execMdwRdLoadDone s
  | .traceFrameSend sub => Sys2Proof.Machine.execTraceFrameSend sub s
  | .mdwClrCounts => Sys2Proof.Machine.execMdwClrCounts s
  | .mdwClrPeaks => Sys2Proof.Machine.execMdwClrPeaks s
  | .directoryRead first second => Sys2Proof.Machine.execDirectoryRead first second s
  | .copyVerify copy data => Sys2Proof.Machine.execCopyVerify copy data s
  | .loadPass data extra => Sys2Proof.Machine.execLoadPass data extra s
  | .bootSelect copy => Sys2Proof.Machine.execBootSelect copy s
  | .bootLoadHost => Sys2Proof.Machine.execBootLoadHost s
  | .bootRetry => Sys2Proof.Machine.execBootRetry s
  | .bootApply extra => Sys2Proof.Machine.execBootApply extra s
  | .changePersist copies => Sys2Proof.Machine.execChangePersist copies s
  | .shpHello req rand => Sys2Proof.Machine.execShpHello req rand s
  | .shpOpen req => Sys2Proof.Machine.execShpOpen req s
  | .shpClose req => Sys2Proof.Machine.execShpClose req s
  | .shpKeepalive req => Sys2Proof.Machine.execShpKeepalive req s
  | .sessionIdle session => Sys2Proof.Machine.execSessionIdle session s
  | .regRead req => Sys2Proof.Machine.execRegRead req s
  | .regWrite req => Sys2Proof.Machine.execRegWrite req s
  | .plainRead req => Sys2Proof.Machine.execPlainRead req s
  | .sigRead req mixed remote => Sys2Proof.Machine.execSigRead req mixed remote s
  | .sigWrite req => Sys2Proof.Machine.execSigWrite req s
  | .shpForce req => Sys2Proof.Machine.execShpForce req s
  | .shpSeq req => Sys2Proof.Machine.execShpSeq req s
  | .shpLoop req => Sys2Proof.Machine.execShpLoop req s
  | .shpAxis req => Sys2Proof.Machine.execShpAxis req s
  | .recRead req => Sys2Proof.Machine.execRecRead req s
  | .shpTrace req => Sys2Proof.Machine.execShpTrace req s
  | .shpSafety req msg => Sys2Proof.Machine.execShpSafety req msg s
  | .imagePut req => Sys2Proof.Machine.execImagePut req s
  | .imageApply req extra => Sys2Proof.Machine.execImageApply req extra s
  | .copyWrite req => Sys2Proof.Machine.execCopyWrite req s
  | .testRecord req => Sys2Proof.Machine.execTestRecord req s
  | .shpTimeout session => Sys2Proof.Machine.execShpTimeout session s
  | .mailboxTimeout unit => Sys2Proof.Machine.execMailboxTimeout unit s
  | .bar0Access off size write => Sys2Proof.Machine.execBar0Access off size write s
  | .bar2Access off write len => Sys2Proof.Machine.execBar2Access off write len s
  | .secProvision priv => Sys2Proof.Machine.execSecProvision priv s
  | .secLock priv => Sys2Proof.Machine.execSecLock priv s
  | .secRetire priv => Sys2Proof.Machine.execSecRetire priv s
  | .secRaiseSvn priv => Sys2Proof.Machine.execSecRaiseSvn priv s
  | .secKeyWrite priv => Sys2Proof.Machine.execSecKeyWrite priv s
  | .keyDataWrite data => Sys2Proof.Machine.execKeyDataWrite data s
  | .dbgChallenge => Sys2Proof.Machine.execDbgChallenge s
  | .challengeReady rand => Sys2Proof.Machine.execChallengeReady rand s
  | .dbgVerify => Sys2Proof.Machine.execDbgVerify s
  | .verifyResult => Sys2Proof.Machine.execVerifyResult s
  | .challengeExpiry => Sys2Proof.Machine.execChallengeExpiry s
  | .dbgRequestFull => Sys2Proof.Machine.execDbgRequestFull s
  | .dbgHalt => Sys2Proof.Machine.execDbgHalt s
  | .dbgResume => Sys2Proof.Machine.execDbgResume s
  | .dbgDrop => Sys2Proof.Machine.execDbgDrop s
  | .wakeTimer => Sys2Proof.Machine.execWakeTimer s
  | .wakeLine line => Sys2Proof.Machine.execWakeLine line s
  | .wakeComplete => Sys2Proof.Machine.execWakeComplete s
  | .hibWake extra => Sys2Proof.Machine.execHibWake extra s
  | .pwrHold hold => Sys2Proof.Machine.execPwrHold hold s
  | .pmcSnap => Sys2Proof.Machine.execPmcSnap s
  | .pmcClear => Sys2Proof.Machine.execPmcClear s
  | .debugReset => Sys2Proof.Machine.execDebugReset s
  | .debugPortAccess access => Sys2Proof.Machine.execDebugPortAccess access s
  | .spllLock good => Sys2Proof.Machine.execSpllLock good s
  | .islandPorRelease => Sys2Proof.Machine.execIslandPorRelease s
  | .adcSupplyGood => Sys2Proof.Machine.execAdcSupplyGood s
  | .sgmiiSynchronisation ring => Sys2Proof.Machine.execSgmiiSynchronisation ring s
  | .pcieL1Exit => Sys2Proof.Machine.execPcieL1Exit s
  | .unknownType ty req => Sys2Proof.Machine.execUnknownType ty req s

end Sys2Proof.Machine
end

