-- ==== Sys2Proof/Machine/Step.lean ====
section
/-!
DEFINITION. Machine/Step.lean: one step of the block: the command at the front of the queue, or an idle cycle of the always-on
vale.
-/

namespace Sys2Proof.Machine

/-- One step. With nothing queued the block idles: one always-on-vale cycle passes and the time counter counts (R354). -/
def step (s : State) : Host.Outcome State Fault Refusal :=
  match s.pending with
  | [] => .next s.timeCycle
  | c :: rest => exec c { s with pending := rest }

/-- `s` with the command that a word of the opcode table spells in front of its queue; the table spells no command in words. -/
def State.withFetchWord (s : State) (nbits w : Nat) : State :=
  match decodeTableWord nbits w with
  | some c => { s with pending := c :: s.pending }
  | none => s

end Sys2Proof.Machine
end

