-- ==== Sys2Proof/Safety.lean ====
section
/-!
DEFINITION. Safety.lean: the words that statements about runs use: a state whose tables are in canonical form, an outcome that
is a next state, and what two states agree on.
-/

namespace Sys2Proof.Machine

/-- The memories and the register table hold no entry that reads as unlisted, in rising order. -/
def State.canonical (s : State) : Bool := Memory.wf s.plain && Memory.wf s.retained && Sparse.wf resetValue s.regs

/-- The command met no undefined case. -/
def State.quiet (s : State) : Bool := s.trap.isNone

/-- The state an outcome goes on with. -/
def stateOf : Res → Option State
  | .next s => some s
  | .fault _ => none
  | .refused _ => none

/-- Every byte of the Plain reads the same in both states. -/
def SamePlain (s t : State) : Prop := ∀ o, Sparse.get plainInit t.plain o = Sparse.get plainInit s.plain o

/-- Every byte of the retained store reads the same in both states. -/
def SameRetained (s t : State) : Prop := ∀ o, Sparse.get retainedInit t.retained o = Sparse.get retainedInit s.retained o

/-- Every register outside `l` reads the same in both states. -/
def SameRegs (s t : State) (l : List Nat) : Prop := ∀ a, a ∉ l → t.reg a = s.reg a

/-- Lane `l` after an instruction whose effect is `f` has retired and the PC has moved past it: its data address is `daddr`, and
`put` says that it is a PUT, a PUTW or an FST (R183, R478). -/
def State.laneAfter (s : State) (l daddr : Nat) (put : Bool) (f : State → State) : State :=
  let pc := (s.rset l).pc.toNat
  ((f s).laneNext l).laneRetire l pc (((s.lane l).word pc).getD 0) daddr put

/-- As `laneAfter`, for an instruction that changes the register set in use by `f` only. -/
def State.laneAfterReg (s : State) (l : Nat) (f : RegSet → RegSet) : State := s.laneAfter l 0 false fun t => t.modRset l f

/-- Lane `l` after a jump, whose effect `f` gives the PC, has retired. -/
def State.laneAfterGo (s : State) (l : Nat) (f : State → State) : State :=
  let pc := (s.rset l).pc.toNat
  (f s).laneRetire l pc (((s.lane l).word pc).getD 0) 0 false

/-- Core `k` runs the program of task `n` and stands at instruction `i`. -/
def State.coreAt (s : State) (k n : Nat) (i : Instr) : Bool :=
  decide (s.coreRuns k = some n) && decide (logicDecode k (s.taskWord n) = some i)

/-- Core `k` after a jump of task `n`, whose effect `f` gives the PC, has retired. -/
def State.coreAfterGo (s : State) (k n daddr : Nat) (f : State → State) : State :=
  (f s).psRetire (8 + k) (s.task n).pc (s.taskWord n) daddr

/-- Core `k` after an instruction of task `n` whose effect is `f` has retired and the PC has moved to the next word. -/
def State.coreAfter (s : State) (k n daddr : Nat) (f : State → State) : State :=
  s.coreAfterGo k n daddr fun t => (f t).modTask n fun c => { c with pc := c.pc + 1 }

/-- As `coreAfter`, for an instruction that changes task `n`'s context by `f` only. -/
def State.coreAfterReg (s : State) (k n : Nat) (f : TaskCtx → TaskCtx) : State := s.coreAfter k n 0 fun t => t.modTask n f

/-- The two states agree in every field but the register table. -/
def OnlyRegs (s t : State) : Prop := t = { s with regs := t.regs }

end Sys2Proof.Machine
end

