-- ==== Sys2Proof/Certificates/Slice0/Obligations.lean ====
section
/-!
DEFINITION. Certificates/Slice0/Obligations.lean: the statements for the provers, chapter by chapter. A completion statement is an
equation: under conditions on the state and the operands, the command answers the next state that its rules give.
-/

open Sys2Proof Sys2Proof.Machine

/-- For every command and state, step of the state with the command at the front of its queue is exec of the command on
the state whose queue is the rest. (95_what_each_step_holds.md, 00_scope.md) -/
def Obligations.StepRunsTheFront : Prop :=
  ∀ (c : Instr) (rest : List Instr) (s : State), s.pending = c :: rest → step s = exec c { s with pending := rest }

/-- With an empty queue a step answers a next state. While the time counter runs, the counter has taken one increment, and
only the time record and the register table, in which performance counters may count, differ; while it stands still
nothing changes. That an idle step is one cycle of the always-on vale is the model's choice, said in the assumption
log (entry 11). (15_time.md R354, 15_time.md R358, 20_security_debug_power_counters.md R476) -/
def Obligations.EmptyQueueIdles : Prop :=
  ∀ s : State, s.pending = [] →
    (s.timeRuns = false → step s = .next s) ∧
    (s.timeRuns = true → ∃ t, step s = .next t ∧
      t.time = { s.time with now := (s.time.now + s.timeInc) % timeWrap, slew := s.slewLeft, sinceRise := s.time.sinceRise + 1 } ∧
      t = { s with time := t.time, regs := t.regs })

/-- After reset the tables are in canonical form, no undefined case stands, nothing waits, and every register reads its
reset value, every byte of the Plain and of the retained store the value an unlisted byte reads.
(21_register_index_and_undefined_cases.md R480, 02_sharing_the_plain.md R41) -/
def Obligations.ResetIsInForm : Prop :=
  State.reset.canonical = true ∧ State.reset.trap = none ∧ State.reset.pending = [] ∧
  (∀ a, State.reset.reg a = resetValue a) ∧ (∀ o n, State.reset.plainNat o n = 0) ∧ (∀ o n, State.reset.retNat o n = 0)

/-- For every state whose Plain, retained store and register table are in canonical form and in which no undefined case
stands, a step that answers a next state leaves a state with the same two properties: equal contents stay equal data,
and a command that meets an undefined case never goes on. (21_register_index_and_undefined_cases.md R480,
21_register_index_and_undefined_cases.md R482, 02_sharing_the_plain.md R41) -/
def Obligations.EveryStepKeepsTheForm : Prop :=
  ∀ s t : State, s.canonical = true → s.trap = none → step s = .next t → t.canonical = true ∧ t.trap = none

/-- For every command and state, exec refuses nothing, and where it answers a next state the commands that wait behind it
are the same ones in the same order. (21_register_index_and_undefined_cases.md R482) -/
def Obligations.NoCommandIsRefused : Prop :=
  ∀ (c : Instr) (s : State), (∀ f, exec c s ≠ .refused f) ∧ ∀ t, exec c s = .next t → t.pending = s.pending

/-- Each reset command answers a next state that is the die's reset of its kind. POR always happens, and the epoch then
follows the retained store. PIN_RESET leaves NRESET low. SOFT_RESET needs a running fabric and no POWER_FAIL.
CLOCK_RESET needs a running device and leaves a PLL unlocked, XIN_STOP always happens and leaves XIN stopped too.
DEBUG_RESET needs the debug level and a running device. (01_vales_and_the_control_tick.md R33, R34, R13, 15_time.md
R370) -/
def Obligations.ResetsComplete : Prop :=
  ∀ s : State,
    exec .por s = .next (s.dieReset .por).porEpoch ∧
    exec .pinReset s = .next { s.dieReset .pin with vales := { (s.dieReset .pin).vales with nresetLow := true } } ∧
    (s.vales.phase = .running → s.powerFail = false → exec .softReset s = .next (s.dieReset .soft)) ∧
    (s.vales.phase = .running →
      exec .clockReset s = .next { s.dieReset .clock with vales := { (s.dieReset .clock).vales with pllUnlocked := true } }) ∧
    exec .xinStop s = .next { s.dieReset .clock with
      vales := { (s.dieReset .clock).vales with xinStopped := true, pllUnlocked := true } } ∧
    (s.flag DBG_STAT.LEVEL = true → s.vales.phase = .running → exec .debugReset s = .next (s.dieReset .debug))

/-- After a reset of any kind every vale but the safety vale is held in reset; the island's state is as before but for its
gate; the retained store holds what it held with the write under way completed; the Plain loses its contents with the
supply only; a register is as before where the kind keeps it and reads its reset value elsewhere, the words of the
held fields apart; after every kind but POR the cause bit of the kind stands beside the causes that stood; the keys
and the floor are kept; and the time counter is kept except by POR. (01_vales_and_the_control_tick.md R33,
02_sharing_the_plain.md R41, 09_journal_and_resume.md R218, 20_security_debug_power_counters.md R456) -/
def Obligations.ResetKeepsTheHeldItems : Prop :=
  ∀ (k : ResetKind) (s : State),
    (s.dieReset k).vales.phase = .held ∧
    (s.dieReset k).saf = { s.saf with gate := [] } ∧
    (s.dieReset k).retained = s.finishLine.retained ∧
    (s.dieReset k).plain = (if k = .por ∨ k = .hib then [] else s.plain) ∧
    (s.dieReset k).sec.pub = s.sec.pub ∧ (s.dieReset k).sec.aes = s.sec.aes ∧ (s.dieReset k).sec.floor = s.sec.floor ∧
    (s.dieReset k).sec.life = (if k = .hib then s.sec.life else s.sec.next) ∧
    (s.dieReset k).time.now = (if k = .por then 0 else s.time.now) ∧
    (∀ a, a ∉ [SYS_RST_CAUSE, TIM_STAT, JRN_STAT, DBG_STAT] →
      (s.dieReset k).reg a = if k.keeps a then s.reg a else resetValue a) ∧
    (s.canonical = true → k ≠ .por →
      (s.dieReset k).fld ⟨SYS_RST_CAUSE, 0, 6⟩ = putBits (s.fld ⟨SYS_RST_CAUSE, 0, 6⟩) k.bit 1 1 % 64 ∧
      (s.dieReset k).fld TIM_STAT.VALID = s.fld TIM_STAT.VALID ∧
      (s.dieReset k).fld JRN_STAT.PF = s.fld JRN_STAT.PF ∧
      (s.dieReset k).fld DBG_STAT.LOCKOUT = s.fld DBG_STAT.LOCKOUT)

/-- XIN_RETURN lets XIN run. RESET_RELEASE, with reset held, XIN running, no PLL unlocked and no power-fail reset
standing, releases the device with its straps sampled. PLL_LOCK lets a released device run, and ends the cause of a
CLOCK reset. SERDES_PLL_LOSS records the loss, clears the lock bits of the PLLs lost, brings down the links and rings
they feed and stops the net and link vales they feed. SPLL_LOCK sets lock bits and starts the vales that were waiting
for them. COL_STALL records the first stall's col, COL_STALL_CLEAR clears the record.
(01_vales_and_the_control_tick.md R14, R19, R34, R35) -/
def Obligations.ClocksAndStallsComplete : Prop :=
  (∀ s : State, exec .xinReturn s = .next { s with vales := { s.vales with xinStopped := false } }) ∧
  (∀ (b c : Nat) (p : Bool) (s : State), s.vales.phase = .held → s.vales.xinStopped = false → s.vales.pllUnlocked = false →
    s.jrn.pfail = false → exec (.resetRelease b c p) s = .next (s.release_ b c p)) ∧
  (∀ s : State, s.vales.xinStopped = false → s.vales.phase = .released →
    exec .pllLock s = .next ((s.setFld CLK_PLL_STAT.CPLL_LOCK 1).setFld CLK_PLL_STAT.HPLL_LOCK 1).goRunning) ∧
  (∀ s : State, s.vales.xinStopped = false → s.vales.phase = .held → s.vales.pllUnlocked = true →
    exec .pllLock s = .next { (s.setFld CLK_PLL_STAT.CPLL_LOCK 1).setFld CLK_PLL_STAT.HPLL_LOCK 1 with
      vales := { s.vales with pllUnlocked := false } }) ∧
  (∀ (lost : Nat) (s : State),
    let m := serdesLost lost
    let s1 := s.setReg CLK_PLL_LOSS (s.reg CLK_PLL_LOSS ||| BitVec.ofNat 32 m)
    let s2 := s1.each [2, 3, 4, 5] fun t b => if bitOf m b then t.clrBit ⟨CLK_PLL_STAT, 0, 6⟩ b else t
    let s3 := if bitOf m 3 then (s2.each (List.range 4) State.linkLoss).each (List.range 4) State.ringLoss else s2
    let s4 := if bitOf m 2 then (s3.each (List.range 4) State.ringLoss).valeOff Vale.net else s3
    exec (.serdesPllLoss lost) s = .next (if bitOf m 3 then s4.valeOff Vale.link else s4)) ∧
  (∀ (good : Nat) (s : State), exec (.spllLock good) s = .next
    (s.each [2, 3, 4, 5] fun t b => if bitOf good b then t.setBit ⟨CLK_PLL_STAT, 0, 6⟩ b else t).optionalVales) ∧
  (∀ (pair : Nat) (dir : Bool) (s : State), s.flag CLK_COL_STALL.STALL = false →
    exec (.colStall pair dir) s =
      .next (((s.setFld CLK_COL_STALL.STALL 1).setFld CLK_COL_STALL.DIR (b2n dir)).setFld CLK_COL_STALL.PAIR pair)) ∧
  (∀ s : State, exec .colStallClear s = .next (s.setFld CLK_COL_STALL.STALL 0))

/-- Each mark of the tick, at the phase of the tick that it follows, answers the next state its parts make, where they
meet no undefined case. TICK_STROBE raises the tick number and the tick counter at the next boundary. STROBE_ARRIVAL
runs the boundary's parts in their order. INPUT_CLOSE is 4 us and OUTPUT_CLOSE 48 us after the boundary.
OUTPUT_PREFETCH, between output close and the strobe's arrival, reads the words of the unit's bound entries.
(01_vales_and_the_control_tick.md R22, R23, R24, R25, R26, R29, 20_security_debug_power_counters.md R466, R468) -/
def Obligations.TickMarksComplete : Prop :=
  (∀ s : State, s.strobeDue = true →
    let r := (s.advanceTo (boundaryNs s.time.nextTick)).wrapFld SYS_TICK_COUNT.COUNT
    let t := { r.setFld SYS_STATE.TICK_RUN 1 with time := { r.time with tick := s.time.nextTick, nextTick := s.time.nextTick + 1, sinceRise := 0, phase := if r.asleep then .none else .risen } }
    (t.pmc 0x10 0).powerSelect.trap = none → exec .tickStrobe s = .next (t.pmc 0x10 0).powerSelect) ∧
  (∀ (lines : List (Nat × Bool)) (late : List (Nat × Nat)) (s : State), s.time.phase = .risen → s.vales.phase = .running →
    let t := (s.strobeFirst lines late).strobeTurn.strobeUnits.strobeEngines.strobeLinks
    t.trap = none → exec (.strobeArrival lines late) s = .next t) ∧
  (∀ (skips missed : List Nat) (s : State), s.time.phase = .arrived →
    let a := s.advanceTo (boundaryNs s.time.tick + 4000)
    let b := { a with time := { a.time with phase := .inputClosed } }.countLate
    let t := { b with sig := { b.sig with late := [] } }
    let l := ((if t.halted then t else t.logInputClose).readyLatched).mdwInputClose skips missed
    let u := ((((l.jrnInputClose).pairSendTick).casExport).netSafe).shpInputClose
    u.trap = none → exec (.inputClose skips missed) s = .next u) ∧
  (∀ s : State, s.time.phase = .inputClosed →
    let a := s.advanceTo (boundaryNs s.time.tick + 48000)
    let t := (((({ a with time := { a.time with phase := .outputClosed } }).casOutputClose).canOutputClose).freezeSets).jrnOutputClose
    t.trap = none → exec .outputClose s = .next t) ∧
  (∀ (unit : OutUnit) (s : State), s.time.phase = .outputClosed ∨ s.time.phase = .risen →
    let t := s.each (s.boundTo unit.code) fun t i =>
      { t with sig := { t.sig with prefetched := Sparse.set (fun _ => none) t.sig.prefetched i (some (t.nextOut i)) } }
    exec (.outputPrefetch unit) s = .next { t with sig := { t.sig with prefetchDone := unit :: t.sig.prefetchDone.erase unit } })

/-- For every field within a word: an RW or WO field takes the write's bits; an RWL field takes them only before commit
and an RWP field only from a privileged writer; each bit of a W1C field stays set exactly where it was set and the
write's bit is 0; an RO field, and a W1S field, whose set bit is a command that the register gives, stay as they are.
Bits outside the field are as before. What a W1S field does beyond its word is not part of this statement.
(01_vales_and_the_control_tick.md R4, 21_register_index_and_undefined_cases.md R480) -/
def Obligations.FieldWriteByType : Prop :=
  ∀ (o p : Bool) (w old : Nat) (f : FieldDesc), f.lo + f.width ≤ 32 →
    (f.typ = .rw ∨ f.typ = .wo ∨ (f.typ = .rwl ∧ o = true) ∨ (f.typ = .rwp ∧ p = true) →
      bitsOf (fieldWrite o p w old f) f.lo f.width = bitsOf w f.lo f.width) ∧
    ((f.typ = .ro ∨ f.typ = .w1s ∨ (f.typ = .rwl ∧ o = false) ∨ (f.typ = .rwp ∧ p = false)) → fieldWrite o p w old f = old) ∧
    (f.typ = .w1c → ∀ k, k < f.width →
      bitOf (fieldWrite o p w old f) (f.lo + k) = (bitOf old (f.lo + k) && !bitOf w (f.lo + k))) ∧
    (∀ l n, l + n ≤ f.lo ∨ f.lo + f.width ≤ l → bitsOf (fieldWrite o p w old f) l n = bitsOf old l n)

/-- On a running device with no vale stopped, a write to a register whose vale runs answers, where it meets no undefined
case, the next state in which each field took what its type lets it take, fields that read 0 are cleared, and the
commands that the register gives have run. A write to an address that holds no register, or into a vale in reset,
changes no register. (01_vales_and_the_control_tick.md R4, R5, R6, R17, R18, 21_register_index_and_undefined_cases.md
R482) -/
def Obligations.RegisterWriteCompletes : Prop :=
  ∀ (a : Nat) (w : Word) (p : Bool) (s : State), s.vales.phase = .running → s.pwr.stopped = 0 →
    (∀ d, regAt a = some d → s.regDropped a = false → (blockOf a = 27 → p = true) → selfStored a = false →
      let r := if d.has .rwp && !p then s.notPriv else s
      let v := d.fields.foldl (fieldWrite (!s.committed && a != HST_CFG) p w.toNat) (s.reg a).toNat
      let t := ((r.setReg a (BitVec.ofNat 32 v)).zeroFields a).regOpen s a w.toNat
      let u := if p then t.regPriv s a w.toNat else t
      u.trap = none → exec (.registerWrite a w p) s = .next u) ∧
    (regAt a = none → s.trap = none → exec (.registerWrite a w p) s = .next s) ∧
    (∀ d, regAt a = some d → s.regDropped a = true → s.trap = none → exec (.registerWrite a w p) s = .next s.dropReq)

/-- A transaction of at least one byte at a port and within the Plain or the retained store is presented, one transaction
per line, while the fabric runs. A grant cycle without a BAR2 write at the head of its port runs one cycle of the
arbiter and counts it. The retained store's oldest queue entry completes: a write stores its bytes, a read answers the
bytes stored. (02_sharing_the_plain.md R37, R40, R44, R45, R46, R50, 09_journal_and_resume.md R216, R217,
01_vales_and_the_control_tick.md R17, R18, R36) -/
def Obligations.PlainCompletes : Prop :=
  (∀ (p r a : Nat) (wr : Bool) (d : List Byte) (l : Nat) (s : State), p < 24 → s.pwr.stopped = 0 → s.runs Vale.fabric = true →
    s.trap = none → 0 < (if wr then d.length else l) →
    (0x80000000 ≤ a ∧ a + (if wr then d.length else l) ≤ 0x82000000 ∨ 0x90000000 ≤ a ∧ a + (if wr then d.length else l) ≤ 0x91000000) →
    exec (.plainTransaction p r a wr d l) s = .next (s.present p
      (splitLines p r wr ((if wr then d.length else l) + 1) a d (if wr then d.length else l)))) ∧
  (∀ (e : EccEvent) (s : State), s.runs Vale.fabric = true → (∀ t, (s.portSt 19).head = some t → t.isWrite = false) →
    let v := (((s.pmc 0x01 0).pmcWaits).arbitrate e).restartBlocked
    v.trap = none → exec (.grant e) s = .next { v with arb := { v.arb with cyc := v.arb.cyc + 1 } }) ∧
  (∀ (t : Txn) (q : List Txn) (s : State), s.arb.retQueue = t :: q →
    let s1 := { s with arb := { s.arb with retQueue := q } }
    let r (bs : List Byte) : Option Resp := some { port := t.port, requester := t.requester, bytes := bs, error := false }
    let w := (s1.retWrite (t.addr - 0x90000000) t.bytes).pmc 0x0D 0
    (t.isWrite = true → exec .retainedStoreAccess s =
      .next { w with arb := { w.arb with resp := Sparse.set (fun _ => none) w.arb.resp t.port (r []) } }) ∧
    (t.isWrite = false → exec .retainedStoreAccess s = .next { s1 with arb := { s1.arb with
      resp := Sparse.set (fun _ => none) s1.arb.resp t.port (r (s1.retRead (t.addr - 0x90000000) t.len)) } }))

/-- The transactions that a port makes of an access of n bytes at a each read or write 1 to 64 bytes within one aligned
64-byte line; they follow one another without gaps from a to a + n; for a write their bytes, joined in order, are the
bytes of the access. (02_sharing_the_plain.md R37) -/
def Obligations.SplitLinesPartition : Prop :=
  ∀ (p r a n : Nat) (wr : Bool) (bs : List Byte), bs.length = n →
    (∀ t ∈ splitLines p r wr (n + 1) a bs n, 1 ≤ t.len ∧ t.len ≤ 64 ∧ t.addr / 64 = (t.addr + t.len - 1) / 64 ∧
      t.bytes.length = t.len ∧ t.port = p ∧ t.requester = r ∧ t.isWrite = wr) ∧
    ((splitLines p r wr (n + 1) a bs n).flatMap fun t => (List.range t.len).map fun k => t.addr + k) = (List.range n).map (a + ·) ∧
    ((splitLines p r wr (n + 1) a bs n).flatMap fun t => t.bytes) = bs ∧
    (splitLines p r wr (n + 1) a bs n).Pairwise fun t u => t.addr / 64 ≠ u.addr / 64

/-- Outside the safety window, which R41 gives a bank of its own, byte A of the Plain lies in bank A[11:6] xor A[17:12]
xor A[23:18] xor A[24], one of 64, at offset A[5:0] of the line of row A[24:12]. Two bytes with the same bank, row and
line offset are one byte, so the mapping is one-to-one, and two lines of one 4 KiB page never share a bank. (R38) -/
def Obligations.BankMappingOneToOne : Prop :=
  ∀ a b : Nat, a < 0x2000000 → b < 0x2000000 → inWindow a = false → inWindow b = false →
    bankOf a = (a / 2 ^ 6 % 64) ^^^ (a / 2 ^ 12 % 64) ^^^ (a / 2 ^ 18 % 64) ^^^ (a / 2 ^ 24 % 2) ∧ bankOf a < 64 ∧
    (bankOf a = bankOf b → a / 4096 = b / 4096 → a % 64 = b % 64 → a = b) ∧
    (a / 4096 = b / 4096 → a / 64 ≠ b / 64 → bankOf a ≠ bankOf b)

/-- The short time of an instant of SEC seconds and NS nanoseconds is (SEC × 10^9 + NS) mod 2^32, so it wraps every 2^32
ns. For an instant t in nanoseconds and a distance d of at least 1 ns and less than 2^31 ns, the short time of t is
earlier than that of t + d, and not the other way round; no short time is earlier than itself. (R356) -/
def Obligations.ShortTimeOrder : Prop :=
  (∀ t : Nat, t < 2 ^ 48 * 10 ^ 9 → shortOf t = (secOf t * 10 ^ 9 + nsOf t) % 2 ^ 32 ∧ shortOf (t + 2 ^ 32) = shortOf t) ∧
  ∀ t d : Nat, 0 < d → d < 2 ^ 31 →
    earlier (shortOf t) (shortOf (t + d)) = true ∧ earlier (shortOf (t + d)) (shortOf t) = false ∧
    earlier (shortOf t) (shortOf t) = false

/-- While the scheduler runs: a release whose class has room and whose flow is open takes the lowest free descriptor and
is dispatched; an accepted run limit counts and stops the lane's job; a completion report of a job that is no resident
kernel completes it and dispatches; a passed deadline terminates or extends the job; expired jobs, 400 at most, become
ready and the rest are carried and counted; an event completes the waits for it, and with none is counted late; every
20,000 strobes the measured load is taken. (03_scheduler.md R62, R65, R71, R75, R77, R79, R81, R83,
07_lane_datapath.md R183) -/
def Obligations.SchedulerCommandsComplete : Prop :=
  (∀ (j : JobReq) (i : Nat) (s : State), s.runs Vale.scheduler = true → 1 ≤ j.cls → j.cls ≤ 5 → j.onMiss ≤ 1 →
    (s.release j).2 = some i → exec (.jobRelease j) s = .next (s.release j).1.dispatch) ∧
  (∀ (l : Nat) (iss : Bool) (s : State), l < 8 → s.reserved l = false → (s.lane l).busy = true → s.runs Vale.lane = true →
    s.onlyEnd l iss = false → ((s.incFld SCH_RUNLIM.COUNT).laneStop l 1 iss).trap = none →
    exec (.runLimit l iss) s = .next ((s.incFld SCH_RUNLIM.COUNT).laneStop l 1 iss)) ∧
  (∀ (e : Nat) (j : EndedJob) (s : State), s.sch.ended.find? (fun x => x.engine = e) = some j → s.runs Vale.scheduler = true →
    let s1 := { s with sch := { s.sch with ended := s.sch.ended.erase j } }
    s1.isResident e j.job = false →
    exec (.jobComplete e) s = .next ((s1.completeJob j.job (j.how != 0)).jobReport (s1.jSource j.job) j.job (s1.jArg0 j.job) j.how).dispatch) ∧
  (∀ (i : Nat) (iss : Bool) (s : State), s.runs Vale.scheduler = true → s.halted = false → s.sch.jobs.contains i = true →
    s.jInf i = false → s.jState i ≠ jHeld → (s.sch.ended.any fun e => e.job = i) = false →
    (s.jOnMiss i = 0 → (s.terminate i iss).trap = none → exec (.deadlinePass i iss) s = .next (s.terminate i iss)) ∧
    (s.jOnMiss i = 1 → (s.extendJob i).trap = none → exec (.deadlinePass i iss) s = .next (s.extendJob i))) ∧
  (∀ s : State, s.runs Vale.scheduler = true → s.halted = false → exec .expiry s =
    .next (((s.each (s.expired.take 400) State.readyOrLatch).incFld SCH_EVT_LATE.CARRIED (s.expired.length - 400)).dispatch)) ∧
  (∀ (ev : Nat) (s : State), s.runs Vale.scheduler = true →
    let l := s.sch.jobs.filter fun i => s.jState i = jWaiting && s.jEvent i = ev
    (l = [] → exec (.waitEvent ev) s = .next (s.incFld SCH_EVT_LATE.LATE_EVENT)) ∧
    (l ≠ [] → exec (.waitEvent ev) s = .next (s.each l State.readyOrLatch).dispatch)) ∧
  (∀ (a b : Nat) (s : State), 20000 ≤ s.sch.loadStrobes → exec (.loadIntervalEnd a b) s =
    .next ((({ s with sch := { s.sch with loadStrobes := s.sch.loadStrobes - 20000 } }).setFld SCH_LOAD.LANE a).setFld SCH_LOAD.LOGIC b))

/-- In a canonical state, after the eight words of descriptor i are written for a release: the deadline is the release's,
or 2 s after acceptance where it lay further ahead; RELSEQ is the scheduler's count; the state is the one chosen; the
entry, source and argument words and the expiry are the release's, cut to their widths. (03_scheduler.md R63, R64,
R67) -/
def Obligations.AcceptedJobDescriptor : Prop :=
  ∀ (s : State) (i : Nat) (r : JobReq) (rel fseq st : Nat), s.canonical = true → st < 8 →
    let t := s.writeDesc i r rel fseq st
    t.jDeadline i = s.clampDeadline r.deadline % 2 ^ 32 ∧ t.jRelSeq i = rel % 2 ^ 32 ∧ t.jState i = st ∧
    t.jClass i = r.cls % 8 ∧ t.jLogic i = r.logic ∧ t.jInf i = r.inf ∧ t.jPin i = r.pin ∧ t.jFlowEn i = r.flow.isSome ∧
    t.jEntry i = r.entry % 65536 ∧ t.jSource i = r.source % 65536 ∧ t.jArg0 i = r.arg0 % 2 ^ 32 ∧
    t.jExtend i = r.extend % 65536 ∧ t.jFlowSeq i = fseq % 65536 ∧ t.jTimed i = r.timed ∧ t.jExpiry i = r.expiry % 2 ^ 32

/-- For a job that no engine runs and that belongs to a flow: where its FLOW_SEQ is not the flow's NEXT_REL its completion
holds the descriptor and posts nothing to the flow's destination; where it is, the first post that follows carries the
flow's destination and event and the job's FLOW_SEQ. (03_scheduler.md R76, R77) -/
def Obligations.FlowReleasesInOrder : Prop :=
  ∀ (s : State) (i : Nat) (miss : Bool), s.engineOf i = none → s.jFlowEn i = true →
    (s.jFlowSeq i ≠ s.flowNextRel (s.jFlow i) →
      (s.completeJob i miss).sch.flowPosts = s.sch.flowPosts ∧ (s.completeJob i miss).sch.jobs = s.sch.jobs ∧
      (s.completeJob i miss).plain = (s.setJState i jHeld).plain) ∧
    (s.jFlowSeq i = s.flowNextRel (s.jFlow i) →
      (s.flowDest (s.jFlow i), s.flowEvent (s.jFlow i), s.jFlowSeq i, miss) ∈ (s.completeJob i miss).sch.flowPosts)

/-- When COL_STALL reports that an entry of col pair `pair`, direction `dir`, has waited more than 10 us and no stall is
recorded, CLK_COL_STALL reads STALL 1, the direction and the pair; every other register and every other field of the
state is as before, so the entry goes on waiting. (R19) -/
def Obligations.ColStallRecorded : Prop :=
  ∀ (pair : Nat) (dir : Bool) (s : State), s.canonical = true → s.flag CLK_COL_STALL.STALL = false →
    ∃ t, exec (.colStall pair dir) s = .next t ∧ OnlyRegs s t ∧ SameRegs s t [CLK_COL_STALL] ∧
      t.fld CLK_COL_STALL.STALL = 1 ∧ t.fld CLK_COL_STALL.DIR = b2n dir ∧
      t.fld CLK_COL_STALL.PAIR = pair % 2 ^ CLK_COL_STALL.PAIR.width

/-- Outside POWER_FAIL: a set of a used entry that may be forced takes the lowest free slot, or, for an entry already
forced, adds the new value to its slot; a release of a forced entry replaces its waiting requests by the release; both
wait one boundary before output close and two after it, and RESULT reads OK. A release of all puts a release into
every slot. (04_signal_directory.md R104, R106, R107, 14_pairs_and_cascades.md R332, 09_journal_and_resume.md R234) -/
def Obligations.ForceCommandsComplete : Prop :=
  (∀ (k : Nat) (s : State), s.powerFail = false →
    let i := s.fld SIG_FORCE_IDX.INDEX
    let v := s.reg SIG_FORCE_VAL
    s.sigUsed i = true → s.sigNoForce i = false → s.sigSource i ≠ 0x07 → s.forceOf i = none →
    firstBelow 256 (fun k => (Sparse.get (fun _ => none) s.sig.forces k).isNone) = some k →
    exec .forceSet s = .next (((s.setForce k (some { index := i, value := v, shown := none, pend := [(some v, s.forceWait)] })).noteForce
      i (some v)).setFld SIG_FORCE_STAT.RESULT 0)) ∧
  (∀ (k : Nat) (f : ForceSlot) (s : State), s.powerFail = false →
    let i := s.fld SIG_FORCE_IDX.INDEX
    let v := s.reg SIG_FORCE_VAL
    s.sigUsed i = true → s.sigNoForce i = false → s.sigSource i ≠ 0x07 → s.forceOf i = some (k, f) →
    exec .forceSet s = .next (((s.setForce k (some { f with value := v, pend := f.pend ++ [(some v, s.forceWait)] })).noteForce
      i (some v)).setFld SIG_FORCE_STAT.RESULT 0)) ∧
  (∀ (k : Nat) (f : ForceSlot) (s : State), s.powerFail = false → s.forceOf (s.fld SIG_FORCE_IDX.INDEX) = some (k, f) →
    exec .forceRelease s = .next (((s.setForce k (some { f with pend := [(none, s.forceWait)] })).noteForce
      (s.fld SIG_FORCE_IDX.INDEX) none).setFld SIG_FORCE_STAT.RESULT 0)) ∧
  (∀ s : State, s.powerFail = false → exec .forceReleaseAll s = .next
    ((s.each s.forceSlots fun t p => (t.setForce p.1 (some { p.2 with pend := [(none, t.forceWait)] })).noteForce p.2.index none).setFld
      SIG_FORCE_STAT.RESULT 0))

/-- At a boundary a slot shows the value of the last of its requests that have waited long enough, and otherwise what it
showed; requests that have not are one boundary nearer; the slot goes when it shows nothing and no request waits. A
set accepted before output close is shown at the next boundary, one accepted after it at the boundary after that.
(04_signal_directory.md R104, R105, R106) -/
def Obligations.ForceTakesEffect : Prop :=
  ∀ (f : ForceSlot) (v : Word),
    (∀ g, f.boundary = some g → g.index = f.index ∧ g.shown = f.next ∧ g.pend.length = (f.pend.filter fun p => 1 < p.2).length) ∧
    (f.boundary = none ↔ f.next = none ∧ ∀ p ∈ f.pend, p.2 ≤ 1) ∧
    (({ f with pend := f.pend ++ [(some v, 1)] }).boundary.bind ForceSlot.shown = some v) ∧
    ((({ f with pend := [(some v, 2)] }).boundary.bind ForceSlot.shown = f.shown) ∧
      ((({ f with pend := [(some v, 2)] }).boundary.bind ForceSlot.boundary).bind ForceSlot.shown = some v)) ∧
    ({ f with pend := [(none, 1)] }).boundary = none

/-- In the parking window a write leaves every byte of the Plain as it was; with a key parked before or fewer than 256
parked, the buffer then holds the write's word at its key, other keys as before, and never more than 256 words.
Outside the window the word is written and its entry marked in the open turn set. With only that write parked, the
strobe's arrival writes the word into the plane, marks the entry, and empties the buffer. (04_signal_directory.md R95,
R96) -/
def Obligations.ParkedWriteWaits : Prop :=
  (∀ (k w : Nat) (s : State), s.parking = true → (s.outWrite k w).plain = s.plain ∧
    (Sparse.wf (fun _ => none) s.sig.parked = true → s.sig.parked.length ≤ 256 →
      (s.outWrite k w).sig.parked.length ≤ 256 ∧
      ((Sparse.get (fun _ => none) s.sig.parked k).isSome = true ∨ s.sig.parked.length < 256 →
        Sparse.get (fun _ => none) (s.outWrite k w).sig.parked k = some (BitVec.ofNat 32 w)) ∧
      ∀ j, j ≠ k → Sparse.get (fun _ => none) (s.outWrite k w).sig.parked j = Sparse.get (fun _ => none) s.sig.parked j)) ∧
  (∀ (i w : Nat) (s : State), i < 16384 → s.canonical = true → s.parking = false →
    (s.outWrite i w).out i = w % 2 ^ 32 ∧ (s.outWrite i w).sig.openSet = Sparse.set (fun _ => false) s.sig.openSet i true) ∧
  (∀ (i : Nat) (w : Word) (s : State), i < 16384 → s.canonical = true → s.sig.parked = [(i, some w)] → s.sig.parkWait = [] →
    s.applyParked.out i = w.toNat ∧ s.applyParked.sig.parked = [] ∧
    s.applyParked.sig.openSet = Sparse.set (fun _ => false) s.sig.openSet i true)

/-- While the sequencer works, each of SEQ_NOP, LOAD, START, HOLD, CONTINUE, SKIP, ABORT, STOP, RESUME_COMMIT and CLEAR is
applied after the internal slots and the commands queued before it; where it is accepted it answers the next state
with its effect, and SEQ_CMD_STAT names the sequence and RESULT OK. SEQ_START first abandons a hold-up test that runs.
What each command does to a sequence is said by SequenceCommandEffects. (05_recipe_sequencer.md R138, R139,
09_journal_and_resume.md R232, R239) -/
def Obligations.SequencerCommandsComplete : Prop :=
  ∀ (q arg : Nat) (s : State), s.seqWorks = true →
    let fin (t : State) := (t.setFld SEQ_CMD_STAT.RESULT seqOk).setFld SEQ_CMD_STAT.SEQ q
    let r (k : Nat) := (s.seqPhase1 s.evalTick).seqCommand (q % 64) k arg s.evalTick
    let a := s.abandonTest
    let ra := (a.seqPhase1 a.evalTick).seqCommand (q % 64) 2 arg a.evalTick
    ((r 0).2 = seqOk → (r 0).1.trap = none → exec (.seqNop q arg) s = .next (fin (r 0).1)) ∧
    ((r 1).2 = seqOk → (r 1).1.trap = none → exec (.seqLoad q arg) s = .next (fin (r 1).1)) ∧
    (a.seqWorks = true → ra.2 = seqOk → ra.1.trap = none → exec (.seqStart q arg) s = .next (fin ra.1)) ∧
    ((r 3).2 = seqOk → (r 3).1.trap = none → exec (.seqHold q arg) s = .next (fin (r 3).1)) ∧
    ((r 4).2 = seqOk → (r 4).1.trap = none → exec (.seqContinue q arg) s = .next (fin (r 4).1)) ∧
    ((r 5).2 = seqOk → (r 5).1.trap = none → exec (.seqSkip q arg) s = .next (fin (r 5).1)) ∧
    ((r 6).2 = seqOk → (r 6).1.trap = none → exec (.seqAbort q arg) s = .next (fin (r 6).1)) ∧
    ((r 7).2 = seqOk → (r 7).1.trap = none → exec (.seqStop q arg) s = .next (fin (r 7).1)) ∧
    ((r 8).2 = seqOk → (r 8).1.trap = none → exec (.seqResumeCommit q arg) s = .next (fin (r 8).1)) ∧
    ((r 9).2 = seqOk → (r 9).1.trap = none → exec (.seqClear q arg) s = .next (fin (r 9).1))

/-- For a sequence that no other device shares, LOAD takes IDLE to READY, START takes READY with the sequencer armed
towards its first step, CONTINUE takes HELD to RUNNING with dwell counts and edge memories cleared, CLEAR takes DONE,
ABORTED or FAULTED to IDLE; in every other state each of them is REFUSED and changes nothing, START being NOT_ARMED
where READY is not armed. SKIP with an argument above 4 is BAD_ARG, NOP changes nothing, and a code above 9 is
BAD_ARG. (05_recipe_sequencer.md R138, R139, R140, 14_pairs_and_cascades.md R350) -/
def Obligations.SequenceCommandEffects : Prop :=
  ∀ (q arg n : Nat) (s : State), s.seqMember q = false → s.seqMaster q = false →
    s.seqCommand q 0 arg n = (s, seqOk) ∧
    (∀ c, 9 < c → s.seqCommand q c arg n = (s, seqBadArg)) ∧
    s.seqCommand q 1 arg n = (if (s.ctx q).state = seqIdle then (s.modCtx q fun c => { c with state := seqReady }, seqOk) else (s, seqRefused)) ∧
    ((s.ctx q).state ≠ seqReady → s.seqCommand q 2 arg n = (s, seqRefused)) ∧
    ((s.ctx q).state = seqReady → s.seqArm = false → s.seqCommand q 2 arg n = (s, seqNotArmed)) ∧
    ((s.ctx q).state = seqReady → s.seqArm = true → (s.seqCommand q 2 arg n).2 = seqOk) ∧
    s.seqCommand q 4 arg n = (if (s.ctx q).state = seqHeld then (s.seqContinue q, seqOk) else (s, seqRefused)) ∧
    ((s.ctx q).state ≠ seqRunning → s.seqCommand q 3 arg n = (s, seqRefused) ∧ s.seqCommand q 5 arg n = (s, seqRefused)) ∧
    ((s.ctx q).state = seqRunning → 4 < arg → s.seqCommand q 5 arg n = (s, seqBadArg)) ∧
    ((s.ctx q).state = seqRunning → s.seqHoldOk q n = some false → s.seqCommand q 3 arg n = (s, seqNotHoldable)) ∧
    (arg ≠ 0xFFFF → (s.ctx q).state ≠ seqRestored → s.seqCommand q 8 arg n = (s, seqRefused)) ∧
    s.seqCommand q 9 arg n = (if (s.ctx q).state ∈ [seqDone, seqAborted, seqFaulted] then
      (s.modCtx q fun c => { c with state := seqIdle }, seqOk) else (s, seqRefused))

/-- While the sequencer works: an evaluation not yet made in this tick runs its phases and its duration enters SEQ_EVAL; a
pass commit for a share this device holds, that comes in time, is held and answered OK where the sequence stands as
the commit expects; an acknowledgement joins those of its attempt; a missed pass clears the time-out unit, answers
NOT_READY, posts PASS_MISSED and counts; an ack deadline drops the earliest post, and acts on the members that have
not acknowledged. (05_recipe_sequencer.md R126, R127, R128, R135, R136) -/
def Obligations.SequencerEventsComplete : Prop :=
  (∀ (cut cy : Nat) (s : State), s.seqWorks = true → s.time.phase = .inputClosed ∨ s.time.phase = .outputClosed →
    s.seq.lastEval ≠ some s.time.tick →
    let t := ((s.seqEvaluate s.time.tick cut).setFld SEQ_EVAL.LAST (min cy 0xFFFF)).peakFld SEQ_EVAL.MAX (min cy 0xFFFF)
    t.trap = none → exec (.seqEvaluation cut cy) s = .next t) ∧
  (∀ (kind sp from_ target sec ns att arg q : Nat) (s : State), s.seqWorks = true → s.passShare sp = some q →
    let m : PassMsg := { kind := kind, spanSeq := sp, from_ := from_, target := target, start := sec * 20000 + ns / 50000,
                         attempt := att, arg := arg, members := [] }
    s.ns < boundaryNs (m.start - 1) → s.passFits q m = true →
    exec (.passCommit kind sp from_ target sec ns att arg) s = .next ((s.passHold q m).passAnswer q 0 att)) ∧
  (∀ (q w a : Nat) (s : State), s.seqWorks = true →
    let ack (p : PassOut) : PassOut :=
      if p.msg.attempt = a && p.msg.members.contains w && !p.acked.contains w then { p with acked := p.acked ++ [w] } else p
    exec (.passAnswer q w 0 a) s = .next (s.modCtx q fun c => { c with posts := c.posts.map ack })) ∧
  (∀ (q st : Nat) (s : State), s.seqWorks = true → s.seqMember q = true → ((s.ctx q).commits.any fun x => x.start = st) = false →
    exec (.passMiss q st) s = .next ((((s.setTimeout q none).passAnswer q 1 1).post 0x08 4 true [q]).incFld SEQ_PASS_STAT.MISS)) ∧
  (∀ (q : Nat) (p : PassOut) (rest : List PassOut) (s : State), s.seqWorks = true → (s.ctx q).posts = p :: rest →
    let t := (s.modCtx q fun c => { c with posts := rest }).armPass q
    let missed := p.msg.members.filter fun x => !p.acked.contains x
    (missed = [] → exec (.passAckDeadline q) s = .next t) ∧
    (missed ≠ [] → (t.passMissed q p missed).trap = none → exec (.passAckDeadline q) s = .next (t.passMissed q p missed)))

/-- Outside POWER_FAIL and for an enabled slot: a mode that the slot's template has, and a limit that leaves the low limit
at most the high one, is queued for its boundary, and CLEAR_FAULT clears the fault and the overrun run at once;
LOOP_CMD_STAT names the slot with RESULT OK. (06_loop_engine.md R156, R159, R163, R164) -/
def Obligations.LoopCommandsComplete : Prop :=
  ∀ (i v : Nat) (s : State), s.powerFail = false → s.isLoop i = true →
    (s.loopModeOk i v = true → exec (.loopMode i v) s = .next ((s.loopAccept i 0 v).loopCmdStat i 0)) ∧
    (sext 16 v ≤ (s.loopLimitsAhead i).2 → exec (.loopLimitLo i v) s = .next ((s.loopAccept i 1 (v % 65536)).loopCmdStat i 0)) ∧
    ((s.loopLimitsAhead i).1 ≤ sext 16 v → exec (.loopLimitHi i v) s = .next ((s.loopAccept i 2 (v % 65536)).loopCmdStat i 0)) ∧
    exec (.loopClearFault i) s = .next
      ((s.loopEngine i fun t => ((t.loopReenable i).setLFault i 0).setLConsec i 0).loopCmdStat i 0)

/-- Where OUT_LO is at most OUT_HI: after every sample of R152 the integrator lies within OUT_LO << 15 to OUT_HI << 15, in
every mode; in manual and tracking, and where the output was clamped, it is set back to the value that gives the
output used, clamped to the limits; and the output stage of R158 gives an output within OUT_LO to OUT_HI.
(06_loop_engine.md R152, R154, R158, R159) -/
def Obligations.LoopOutputWithinLimits : Prop :=
  ∀ (s : State) (i : Nat) (h : LoopHalf) (enter : Bool) (m : Nat) (sp trk ym : Int), s.lOutLo i ≤ s.lOutHi i →
    s.lOutLo i * 2 ^ 15 ≤ (s.loopPid i h enter m sp trk).i ∧ (s.loopPid i h enter m sp trk).i ≤ s.lOutHi i * 2 ^ 15 ∧
    s.lOutLo i ≤ (s.loopSaddle i h enter ym).2 ∧ (s.loopSaddle i h enter ym).2 ≤ s.lOutHi i

/-- A lane that stands at the instruction retires it. JMP, a taken BR, CALL, RET and a LOOP of count 0 give the PC an
allowed target, CALL pushes its return address on a stack of 8 and RET pops it, LOOP opens one of two levels whose
body begins at the next word; WAITS retires with enough samples in the stream FIFO and stalls the lane otherwise; INH
writes the inhibit line, EVT posts. END, and a vendor kernel that has run to its END, end the job.
(07_lane_datapath.md R177, R178, R183, R184, R188, R192) -/
def Obligations.LaneControlCompletes : Prop :=
  ∀ (l : Nat) (s : State), s.trap = none →
    (s.laneAt l (.laneNop l) = true → exec (.laneNop l) s = .next (s.laneAfter l 0 false fun t => t)) ∧
    (s.laneAt l (.laneEnd l) = true → 0x400 ≤ (s.rset l).pc.toNat →
      exec (.laneEnd l) s = .next ((s.laneRetire l (s.rset l).pc.toNat 0x04000000 0 false).laneEnd l 0)) ∧
    (l < 8 → s.runs Vale.lane = true → (s.lane l).busy = true → (s.rset l).pc.toNat < 0x400 →
      (s.vendorKernel l (s.rset l).pc.toNat).trap = none → exec (.laneEnd l) s =
      .next (((s.vendorKernel l (s.rset l).pc.toNat).laneRetire l (s.rset l).pc.toNat 0x04000000 0 false).laneEnd l 0)) ∧
    (∀ tgt, s.laneAt l (.laneJmp l tgt) = true → (s.rset l).targetOk tgt = true → exec (.laneJmp l tgt) s =
      .next (s.laneAfterGo l fun t => t.modRset l fun r => { r with pc := BitVec.ofNat 12 tgt })) ∧
    (∀ cc tgt, s.laneAt l (.laneBr l cc tgt) = true → cc ≤ 9 →
      ((s.rset l).cond (!(s.lane l).fifo.isEmpty) cc = false → exec (.laneBr l cc tgt) s = .next (s.laneAfterGo l fun t => t.laneNext l)) ∧
      ((s.rset l).cond (!(s.lane l).fifo.isEmpty) cc = true → (s.rset l).targetOk tgt = true → exec (.laneBr l cc tgt) s =
        .next (s.laneAfterGo l fun t => t.modRset l fun r => { r with pc := BitVec.ofNat 12 tgt }))) ∧
    (∀ tgt, s.laneAt l (.laneCall l tgt) = true → (s.rset l).calls.length < 8 →
      let u := s.modRset l fun r => { r with calls := (r.pc + 1) :: r.calls }
      (u.laneJump l tgt).trap = none → exec (.laneCall l tgt) s = .next (s.laneAfterGo l fun _ => u.laneJump l tgt)) ∧
    (∀ a rest, s.laneAt l (.laneRet l) = true → (s.rset l).calls = a :: rest →
      let u := s.modRset l fun r => { r with calls := rest }
      (u.laneJump l a.toNat).trap = none → exec (.laneRet l) s = .next (s.laneAfterGo l fun _ => u.laneJump l a.toNat)) ∧
    (∀ k x last, s.laneAt l (.laneLoop l k x last) = true →
      let n := if k then x else ((s.rset l).reg x).toNat
      n < 8192 → (s.rset l).loops.length < 2 → (s.rset l).pc.toNat < last →
      (n = 0 → (s.laneJump l (last + 1)).trap = none →
        exec (.laneLoop l k x last) s = .next (s.laneAfterGo l fun t => t.laneJump l (last + 1))) ∧
      (n ≠ 0 → ∃ f : RegSet → RegSet, exec (.laneLoop l k x last) s = .next (s.laneAfterGo l fun t => t.modRset l f) ∧
        (f (s.rset l)).loops = { first := (s.rset l).pc.toNat + 1, last := last } :: (s.rset l).loops ∧
        (f (s.rset l)).pc = BitVec.ofNat 12 ((s.rset l).pc.toNat + 1) ∧
        (if (s.rset l).loops = [] then (f (s.rset l)).lc0 = BitVec.ofNat 13 n ∧ (f (s.rset l)).lc1 = (s.rset l).lc1
         else (f (s.rset l)).lc1 = BitVec.ofNat 13 n ∧ (f (s.rset l)).lc0 = (s.rset l).lc0))) ∧
    (∀ n, s.laneAt l (.laneWaits l n) = true → 1 ≤ n → n ≤ 64 →
      (n ≤ (s.lane l).fifo.length → exec (.laneWaits l n) s = .next (s.laneAfter l 0 false fun t => t)) ∧
      ((s.lane l).fifo.length < n → exec (.laneWaits l n) s = .next (s.modLane l fun v => { v with stalled := true }))) ∧
    (∀ v, s.laneAt l (.laneInh l v) = true → exec (.laneInh l v) s = .next (s.laneAfter l 0 false fun t =>
      if t.flag (LANE_CFG.INH_EN l) then t.modLane l fun u => { u with inh := v } else t)) ∧
    (∀ c code, s.laneAt l (.laneEvt l c code) = true → (s.post 0x1C code c [l]).trap = none →
      exec (.laneEvt l c code) s = .next (s.laneAfter l 0 false fun t => t.post 0x1C code c [l]))

/-- At the instruction, the lane takes the immediate into the data register, pointer, modify or exponent register named;
MOVX moves between a data register and a special register other than number 31; SETM writes RND, SAT and MSH of SR;
LD, ST and LD2 move between data registers and the words that valid pointers name, each pointer then stepping in its
mode; LIM limits Dd to Ds and Dt, N and Z following, and leaves a free value where Ds exceeds Dt. (07_lane_datapath.md
R169, R170, R175, R177, R192) -/
def Obligations.LaneMovesComplete : Prop :=
  ∀ (l : Nat) (s : State), s.trap = none →
    (∀ d v, s.laneAt l (.laneLdi l d v) = true → exec (.laneLdi l d v) s = .next (s.laneAfterReg l fun r => r.setReg d (BitVec.ofNat 16 v))) ∧
    (∀ p v, s.laneAt l (.laneLdp l p v) = true → exec (.laneLdp l p v) s = .next (s.laneAfterReg l fun r => r.setPtr p v)) ∧
    (∀ p v, s.laneAt l (.laneLdm l p v) = true → exec (.laneLdm l p v) s = .next (s.laneAfterReg l fun r => r.setSpecial (8 + p) v)) ∧
    (∀ p v, s.laneAt l (.laneLdz l p v) = true → exec (.laneLdz l p v) s = .next (s.laneAfterReg l fun r => r.setSpecial (16 + p) v)) ∧
    (∀ d sp, s.laneAt l (.laneMovx l d sp true) = true → sp ≠ 31 →
      exec (.laneMovx l d sp true) s = .next (s.laneAfterReg l fun r => r.setSpecial sp (r.reg d).toNat)) ∧
    (∀ d sp, s.laneAt l (.laneMovx l d sp false) = true → sp ≠ 31 →
      exec (.laneMovx l d sp false) s = .next (s.laneAfterReg l fun r => r.setReg d (BitVec.ofNat 16 (s.special l sp)))) ∧
    (∀ sat rnd m, s.laneAt l (.laneSetm l sat rnd m) = true → exec (.laneSetm l sat rnd m) s = .next (s.laneAfterReg l fun r =>
      { r with sr := BitVec.ofNat 16 (putBits r.sr.toNat 8 7 (b2n rnd + 2 * b2n sat + 4 * m)) })) ∧
    (∀ d p m, s.laneAt l (.laneLd l d p m) = true → (s.rset l).ptrOk p = true →
      exec (.laneLd l d p m) s = .next (s.laneAfter l ((s.rset l).ptr p) false fun t =>
        (t.modRset l fun r => r.setReg d ((t.lane l).mem p)).modRset l fun r => r.stepPtr p m)) ∧
    (∀ r p m, s.laneAt l (.laneSt l r p m) = true → (s.rset l).ptrOk p = true →
      exec (.laneSt l r p m) s = .next (s.laneAfter l ((s.rset l).ptr p) false fun t =>
        (t.modLane l fun v => v.setMem p (v.rs.reg r)).modRset l fun r => r.stepPtr p m)) ∧
    (∀ d x mx y my, s.laneAt l (.laneLd2 l d x mx y my) = true → d % 2 = 0 → (s.rset l).ptrOk x = true →
      let t := (s.modRset l fun r => r.setReg d ((s.lane l).mem x)).modRset l fun r => r.stepPtr x mx
      (t.rset l).ptrOk (4 + y) = true → exec (.laneLd2 l d x mx y my) s = .next (s.laneAfter l ((s.rset l).ptr x) false fun _ =>
        (t.modRset l fun r => r.setReg (d + 1) ((t.lane l).mem (4 + y))).modRset l fun r => r.stepPtr (4 + y) my)) ∧
    (∀ d a b, s.laneAt l (.laneLim l d a b) = true →
      ((s.rset l).val a ≤ (s.rset l).val b → exec (.laneLim l d a b) s =
        .next (s.laneAfterReg l fun g => g.alu d (clampInt (g.val a) (g.val b) (g.val d)))) ∧
      ((s.rset l).val b < (s.rset l).val a → exec (.laneLim l d a b) s =
        .next (s.laneAfter l 0 false fun t => (t.modRset l fun g => g.alu d (sext 16 s.freeNat)).useFree)))

/-- At the instruction, with a signal index in use and an even register pair: GET and GETW take the current-value word of
the signal, PUT and PUTW write the output-plane word of an entry whose SOURCE is LANE, FLD and FST move a word of the
Plain below its end; POP takes the oldest sample of the stream FIFO and stalls the lane while the FIFO is empty; in
the arc detector a POP carries the detector's work on the sample. (07_lane_datapath.md R180, R187, R189, R192,
04_signal_directory.md R108) -/
def Obligations.LaneFabricCompletes : Prop :=
  ∀ (l : Nat) (s : State), s.trap = none →
    (∀ d k x, s.laneAt l (.laneGet l d k x) = true → (s.rset l).sigIndex k x < s.sigCount →
      let i := (s.rset l).sigIndex k x
      exec (.laneGet l d k x) s = .next (s.laneAfter l (s.curAt i) false fun t => t.modRset l fun r => r.setReg d (BitVec.ofNat 16 (s.cur i)))) ∧
    (∀ d k x, s.laneAt l (.laneGetw l d k x) = true → d % 2 = 0 → (s.rset l).sigIndex k x < s.sigCount →
      let i := (s.rset l).sigIndex k x
      exec (.laneGetw l d k x) s = .next (s.laneAfter l (s.curAt i) false fun t => t.modRset l fun r =>
        (r.setReg d (BitVec.ofNat 16 (s.cur i))).setReg (d + 1) (BitVec.ofNat 16 (s.cur i / 65536)))) ∧
    (∀ r k x, s.laneAt l (.lanePut l r k x) = true → (s.rset l).sigIndex k x < s.sigCount →
      let i := (s.rset l).sigIndex k x
      s.sigSource i = 0x0B →
      exec (.lanePut l r k x) s = .next (s.laneAfter l (s.outAt i) true fun t => t.putSig i (trunc 32 ((s.rset l).val r)))) ∧
    (∀ r k x, s.laneAt l (.lanePutw l r k x) = true → r % 2 = 0 → (s.rset l).sigIndex k x < s.sigCount →
      let i := (s.rset l).sigIndex k x
      s.sigSource i = 0x0B → exec (.lanePutw l r k x) s = .next (s.laneAfter l (s.outAt i) true fun t =>
        t.putSig i (((s.rset l).reg r).toNat + 65536 * ((s.rset l).reg (r + 1)).toNat))) ∧
    (∀ d disp, s.laneAt l (.laneFld l d disp) = true → d % 2 = 0 → (s.rset l).fbAddr disp < plainSize →
      let a := (s.rset l).fbAddr disp
      exec (.laneFld l d disp) s = .next (s.laneAfter l a false fun t => t.modRset l fun r =>
        (r.setReg d (BitVec.ofNat 16 (s.pw a))).setReg (d + 1) (BitVec.ofNat 16 (s.pw a / 65536)))) ∧
    (∀ r disp, s.laneAt l (.laneFst l r disp) = true → r % 2 = 0 → (s.rset l).fbAddr disp < plainSize →
      let a := (s.rset l).fbAddr disp
      let w := ((s.rset l).reg r).toNat + 65536 * ((s.rset l).reg (r + 1)).toNat
      (s.busWord (lanePort l) a w).trap = none →
      exec (.laneFst l r disp) s = .next (s.laneAfter l a true fun t => t.busWord (lanePort l) a w)) ∧
    (∀ d, s.laneAt l (.lanePop l d) = true → s.arcRuns l = false →
      (∀ x q, (s.lane l).fifo = x :: q →
        exec (.lanePop l d) s = .next (s.laneAfter l 0 false fun t => (t.modRset l fun r => r.setReg d x).fifoPop l)) ∧
      ((s.lane l).fifo = [] → exec (.lanePop l d) s = .next (s.modLane l fun v => { v with stalled := true }))) ∧
    (∀ d x q, s.arcRuns l = true → (s.lane l).fifo = x :: q →
      let t := ((s.fifoPop l).modLane l fun v => { v with stalled := false }).arcSample l x.toInt
      t.trap = none → exec (.lanePop l d) s = .next t)

/-- At the instruction, with pointers that are valid: the product of the two 16-bit operands replaces the accumulator
(MPY), is added to it (MAC) or subtracted from it (MSU); an operand in memory is read through its pointer, which then
steps in its mode, both operands of the dual form being read before either pointer steps. MPYU takes its first operand
as unsigned. (07_lane_datapath.md R171, R175, R177, R192) -/
def Obligations.LaneMultiplyCompletes : Prop :=
  ∀ (l : Nat) (s : State), s.trap = none →
    (∀ a r t, s.laneAt l (.laneMpyReg l a r t) = true → exec (.laneMpyReg l a r t) s =
      .next (s.laneAfterReg l fun g => g.setAcc a ((g.reg r).toInt * (g.reg t).toInt))) ∧
    (∀ a r t, s.laneAt l (.laneMacReg l a r t) = true → exec (.laneMacReg l a r t) s =
      .next (s.laneAfterReg l fun g => g.setAcc a (g.acc a + (g.reg r).toInt * (g.reg t).toInt))) ∧
    (∀ a r t, s.laneAt l (.laneMsuReg l a r t) = true → exec (.laneMsuReg l a r t) s =
      .next (s.laneAfterReg l fun g => g.setAcc a (g.acc a - (g.reg r).toInt * (g.reg t).toInt))) ∧
    (∀ a r t, s.laneAt l (.laneMpyu l a r t) = true → exec (.laneMpyu l a r t) s =
      .next (s.laneAfterReg l fun g => g.setAcc a (((g.reg r).toNat : Int) * (g.reg t).toInt))) ∧
    (∀ a r p m, (s.rset l).ptrOk p = true →
      let w := ((s.lane l).mem p).toInt
      let go (f : RegSet → RegSet) := s.laneAfter l ((s.rset l).ptr p) false fun t => (t.modRset l f).modRset l fun g => g.stepPtr p m
      (s.laneAt l (.laneMpyMem l a r p m) = true → exec (.laneMpyMem l a r p m) s = .next (go fun g => g.setAcc a ((g.reg r).toInt * w))) ∧
      (s.laneAt l (.laneMacMem l a r p m) = true → exec (.laneMacMem l a r p m) s = .next (go fun g => g.setAcc a (g.acc a + (g.reg r).toInt * w))) ∧
      (s.laneAt l (.laneMsuMem l a r p m) = true → exec (.laneMsuMem l a r p m) s = .next (go fun g => g.setAcc a (g.acc a - (g.reg r).toInt * w)))) ∧
    (∀ a x mx y my, (s.rset l).ptrOk x = true →
      let p := ((s.lane l).mem x).toInt * ((s.lane l).mem (4 + y)).toInt
      let u := s.modRset l fun g => g.stepPtr x mx
      (u.rset l).ptrOk (4 + y) = true →
      let go (f : RegSet → RegSet) := s.laneAfter l ((s.rset l).ptr x) false fun _ => (u.modRset l fun g => g.stepPtr (4 + y) my).modRset l f
      (s.laneAt l (.laneMpyDual l a x mx y my) = true → exec (.laneMpyDual l a x mx y my) s = .next (go fun g => g.setAcc a p)) ∧
      (s.laneAt l (.laneMacDual l a x mx y my) = true → exec (.laneMacDual l a x mx y my) s = .next (go fun g => g.setAcc a (g.acc a + p))) ∧
      (s.laneAt l (.laneMsuDual l a x mx y my) = true → exec (.laneMsuDual l a x mx y my) s = .next (go fun g => g.setAcc a (g.acc a - p))))

/-- At the instruction the lane takes the result that the instruction gives: saturated sum and difference; the smaller or
larger word; AND, OR, XOR or AND NOT; a logical or a saturating arithmetic shift; a compare; the accumulator's clear,
add, subtract, negate, absolute value, saturation, move and compare; its shift; its word rounded and saturated as SR
says; a word shifted into it; and its normalising exponent. (07_lane_datapath.md R171, R172, R173, R174, R177) -/
def Obligations.LaneArithmeticCompletes : Prop :=
  ∀ (l : Nat) (s : State), s.trap = none →
    (∀ d r t, s.laneAt l (.laneAdd l d r t) = true → exec (.laneAdd l d r t) s = .next (s.laneAfterReg l fun g => g.aluSat d (g.val r + g.val t))) ∧
    (∀ d r t, s.laneAt l (.laneSub l d r t) = true → exec (.laneSub l d r t) s = .next (s.laneAfterReg l fun g => g.aluSat d (g.val r - g.val t))) ∧
    (∀ d r t f, s.laneAt l (.laneMinmax l d r t f) = true → exec (.laneMinmax l d r t f) s =
      .next (s.laneAfterReg l fun g => g.alu d (if f then max (g.val r) (g.val t) else min (g.val r) (g.val t)))) ∧
    (∀ d r t f, s.laneAt l (.laneLog l d r t f) = true → exec (.laneLog l d r t f) s = .next (s.laneAfterReg l fun g =>
      g.alu d (if f = 0 then g.reg r &&& g.reg t else if f = 1 then g.reg r ||| g.reg t else if f = 2 then g.reg r ^^^ g.reg t
        else g.reg r &&& ~~~(g.reg t)).toInt)) ∧
    (∀ d r k n, s.laneAt l (.laneShd l d r k n) = true → exec (.laneShd l d r k n) s = .next (s.laneAfterReg l fun g =>
      let m := sext 5 n
      let u : Int := ((g.reg r).toNat : Nat)
      if k then g.alu d (sext 16 (trunc 16 (if 0 ≤ m then u * 2 ^ m.toNat else u / 2 ^ (-m).toNat)))
      else g.alu d (if 0 ≤ m then sat16 (g.val r * 2 ^ m.toNat) else g.val r / 2 ^ (-m).toNat))) ∧
    (∀ r t, s.laneAt l (.laneCmp l r t) = true → exec (.laneCmp l r t) s = .next (s.laneAfterReg l fun g => g.nz (g.val r - g.val t))) ∧
    (∀ a f, s.laneAt l (.laneAcc l a f) = true → exec (.laneAcc l a f) s = .next (s.laneAfterReg l fun g =>
      if f = 0 then g.setAcc a 0 else if f = 1 then g.setAcc a (g.acc a + g.acc (!a)) else if f = 2 then g.setAcc a (g.acc a - g.acc (!a))
      else if f = 3 then g.setAcc a (-g.acc a) else if f = 4 then g.setAcc a (if g.acc a < 0 then -g.acc a else g.acc a)
      else if f = 5 then (g.stickSv (satInt 32 (g.acc a) != g.acc a)).setAcc a (satInt 32 (g.acc a))
      else if f = 6 then g.setAcc a (g.acc (!a)) else g.nz (g.acc a - g.acc (!a)))) ∧
    (∀ a v x, s.laneAt l (.laneSha l a v x) = true → exec (.laneSha l a v x) s = .next (s.laneAfterReg l fun g =>
      g.shiftAcc a (if v then sext 6 (g.reg x).toNat else sext 6 x))) ∧
    (∀ a d r o sh, s.laneAt l (.laneMva l a d r o sh) = true → exec (.laneMva l a d r o sh) s = .next (s.laneAfterReg l fun g =>
      let t := mvaShift (g.acc a) (if o then sh else g.msh) (g.srBit 8 || r)
      if g.srBit 9 then g.aluSat d t else g.alu d (sext 16 (trunc 16 t)))) ∧
    (∀ a r o sh, s.laneAt l (.laneMvd l a r o sh) = true → exec (.laneMvd l a r o sh) s = .next (s.laneAfterReg l fun g =>
      g.setAcc a (g.val r * 2 ^ (if o then sh else g.msh)))) ∧
    (∀ a d e, s.laneAt l (.laneNorm l a d e) = true → exec (.laneNorm l a d e) s = .next (s.laneAfterReg l fun g =>
      (if e then g else g.shiftAcc a (normExp (g.accBits a))).setReg d (BitVec.ofInt 16 (normExp (g.accBits a)))))

/-- An accumulator takes the exact result modulo 2^40, V being set when the result does not fit and kept otherwise; the
other accumulator, the data registers and SV stay. A data-register result saturated to 16 bits reads as the exact
result limited to -32,768 to 32,767; N and Z follow the saturated value, SV is set when it saturated and kept
otherwise, and the other data registers, the accumulators and V stay. (07_lane_datapath.md R171, R173) -/
def Obligations.LaneAccumulatorLaw : Prop :=
  ∀ (g : RegSet) (a : Bool) (d : Nat) (x : Int), Sparse.wf (fun _ => (0 : BitVec 16)) g.d = true →
    (g.setAcc a x).accBits a = BitVec.ofInt 40 x ∧ (g.setAcc a x).accBits (!a) = g.accBits (!a) ∧ (g.setAcc a x).d = g.d ∧
    ((g.setAcc a x).srBit 2 = true ↔ g.srBit 2 = true ∨ x < -(2 ^ 39) ∨ 2 ^ 39 ≤ x) ∧ (g.setAcc a x).srBit 3 = g.srBit 3 ∧
    (-(2 ^ 39) ≤ x → x < 2 ^ 39 → (g.setAcc a x).acc a = x) ∧
    (g.aluSat d x).val d = (if x < -32768 then -32768 else if 32767 < x then 32767 else x) ∧
    (∀ e, e ≠ d → (g.aluSat d x).reg e = g.reg e) ∧ (g.aluSat d x).accBits a = g.accBits a ∧
    (g.aluSat d x).srBit 0 = decide (x < 0) ∧ (g.aluSat d x).srBit 1 = decide (x = 0) ∧
    ((g.aluSat d x).srBit 3 = true ↔ g.srBit 3 = true ∨ x < -32768 ∨ 32767 < x) ∧ (g.aluSat d x).srBit 2 = g.srBit 2

/-- After an access in any post-modify mode, a pointer whose exponent k is not 0 lies in the same aligned block of 2^k
words as before, at the place that its step modulo 2^k gives; with exponent 0 it moves by its step modulo 2^16; no
other pointer, no data register, no accumulator and no modify register changes. (07_lane_datapath.md R175) -/
def Obligations.CircularPointerStaysInBlock : Prop :=
  ∀ (g : RegSet) (p m : Nat), Sparse.wf (fun _ => (0 : BitVec 16)) g.p = true →
    let step : Int := if m = 0 then 0 else if m = 1 then 1 else if m = 2 then -1 else g.mod_ p
    let h := g.stepPtr p m
    (g.circ p ≠ 0 → h.ptr p / 2 ^ g.circ p = g.ptr p / 2 ^ g.circ p ∧
      ((h.ptr p : Int) - (g.ptr p + step)) % (2 ^ g.circ p : Nat) = 0) ∧
    (g.circ p = 0 → (h.ptr p : Int) = (g.ptr p + step) % 65536) ∧
    (∀ q, q ≠ p → h.ptr q = g.ptr q) ∧ h = { g with p := h.p }

/-- A lane that idles starts the job dispatched to it at its entry, in its other register set, with ARG0 in D0 and D1, the
latency being noted, and the arc detector's start where the entry is its kernel. A data error counts and ends the
lane's job. A stream sample joins the FIFO, or is counted as dropped at 64. An access through the memory window reads
or writes the word selected, and the address increments. (07_lane_datapath.md R168, R170, R181, R182, R187, R189,
10_converters_and_analog_outputs.md R247) -/
def Obligations.LaneJobsComplete : Prop :=
  (∀ (l d j : Nat) (s : State), s.running l = some j → l < 8 → (s.lane l).busy = false → s.runs Vale.lane = true → s.trap = none →
    let u := s.noteDispatch j d
    let e := u.jEntry j % 4096
    let v := { s.lane l with cur := !(s.lane l).cur, busy := true, entry := e, arg0 := u.jArg0 j, job := some j, stalled := false, lastPut := false }
    let t := u.setLane l (v.setRs (RegSet.start e (u.jArg0 j)))
    (e ≠ 0x400 → exec (.laneJobStart l d) s = .next t) ∧
    (e = 0x400 → (t.arcStart l).trap = none → exec (.laneJobStart l d) s = .next (t.arcStart l))) ∧
  (∀ (l : Nat) (s : State), l < 8 → (s.lane l).busy = true →
    exec (.laneDataError l) s = .next (((s.incFld (LANE_ERR.DATA l)).incFld SCH_RUNLIM.COUNT).laneEnd l 3)) ∧
  (∀ (l x : Nat) (s : State), l < 8 → s.flag (LANE_CFG.STREAM_EN l) = true → s.runs Vale.lane = true →
    let t := s.leaveStage (s.fld (LANE_CFG.GROUP l))
    let q := (s.lane l).fifo
    (q.length < 64 → exec (.streamSample l x) s =
      .next ((t.setLane l { s.lane l with fifo := q ++ [BitVec.ofNat 16 x] }).peakFld (LANE_STRM.PEAK l) (q.length + 1))) ∧
    (64 ≤ q.length → exec (.streamSample l x) s = .next (t.incFld (LANE_STRM.DROP l)))) ∧
  (∀ (w : Nat) (s : State), exec (.laneMemAccess true w) s = .next ((s.laneMemWrite w).wrapFld LANE_MEM_ADDR.ADDR)) ∧
  (∀ (w : Nat) (s : State), s.fld LANE_MEM_SEL.MEM ≠ 0 ∨ 0x480 ≤ s.fld LANE_MEM_ADDR.ADDR % 4096 → exec (.laneMemAccess false w) s =
    .next ((s.setReg LANE_MEM_DATA (BitVec.ofNat 32 s.laneMemRead)).wrapFld LANE_MEM_ADDR.ADDR))

/-- A core that runs a task and stands at the instruction retires it. A jump, a call and a taken branch give the PC a
target inside the program, a branch not taken the next word; CALL pushes its return address on a stack of 16, RET pops
it; END ends the program, after which the flushes follow; EVT posts the cyclic program's event. (08_logic_engine.md
R198, R205, R206, R215) -/
def Obligations.LogicControlCompletes : Prop :=
  ∀ (k n : Nat) (s : State), s.trap = none →
    (s.coreAt k n (.logicNop k) = true → exec (.logicNop k) s = .next (s.coreAfterReg k n fun c => c)) ∧
    (s.coreAt k n (.logicEnd k) = true →
      exec (.logicEnd k) s = .next (s.coreAfterGo k n 0 fun t => t.modTask n fun c => { c with phase := 4 })) ∧
    (∀ tgt, s.coreAt k n (.logicJmp k tgt) = true → tgt < (s.taskProg n).len →
      exec (.logicJmp k tgt) s = .next (s.coreAfterGo k n 0 fun t => t.modTask n fun c => { c with pc := tgt })) ∧
    (∀ cc tgt, s.coreAt k n (.logicBr k cc tgt) = true → cc < 12 →
      ((s.task n).cond cc = true → tgt < (s.taskProg n).len →
        exec (.logicBr k cc tgt) s = .next (s.coreAfterGo k n 0 fun t => t.modTask n fun c => { c with pc := tgt })) ∧
      ((s.task n).cond cc = false →
        exec (.logicBr k cc tgt) s = .next (s.coreAfterGo k n 0 fun t => t.modTask n fun c => { c with pc := c.pc + 1 }))) ∧
    (∀ tgt, s.coreAt k n (.logicCall k tgt) = true → (s.task n).calls.length < 16 →
      let u := s.modTask n fun c => { c with calls := (c.pc + 1) :: c.calls }
      tgt < (u.taskProg n).len →
      exec (.logicCall k tgt) s = .next (s.coreAfterGo k n 0 fun _ => u.modTask n fun c => { c with pc := tgt })) ∧
    (∀ a rest, s.coreAt k n (.logicRet k) = true → (s.task n).calls = a :: rest →
      exec (.logicRet k) s = .next (s.coreAfterGo k n 0 fun t => t.modTask n fun c => { c with calls := rest, pc := a })) ∧
    (∀ r v tgt, s.coreAt k n (.logicBrb k r v tgt) = true →
      (((s.task n).reg r).getLsbD 0 = v → tgt < (s.taskProg n).len →
        exec (.logicBrb k r v tgt) s = .next (s.coreAfterGo k n 0 fun t => t.modTask n fun c => { c with pc := tgt })) ∧
      (((s.task n).reg r).getLsbD 0 ≠ v →
        exec (.logicBrb k r v tgt) s = .next (s.coreAfterGo k n 0 fun t => t.modTask n fun c => { c with pc := c.pc + 1 }))) ∧
    (∀ c code, s.coreAt k n (.logicEvt k c code) = true →
      exec (.logicEvt k c code) s = .next (s.coreAfter k n 0 fun t => t.post 0x1B code c [n]))

/-- At the instruction, with an address Ws + off that is aligned for the access and inside variable memory: LDW, LDH and
LDB take the word, the sign-extended half word or the byte there, LDX its bit; STW, STH and STB store the register's
low bytes, STX its low bit into the byte, as a store of the task, which its page ownership decides.
(08_logic_engine.md R193, R195, R204, R205, R215) -/
def Obligations.LogicMemoryCompletes : Prop :=
  ∀ (k n d r off : Nat) (s : State), s.trap = none →
    (let a := s.logicAddr n r off 16
     (a % 4 = 0 → a + 4 ≤ 0x100000 →
      (s.coreAt k n (.logicLdw k d r off) = true → exec (.logicLdw k d r off) s = .next (s.coreAfter k n a fun t =>
        t.modTask n fun c => c.setReg d (BitVec.ofNat 32 (s.vm a 4)))) ∧
      (s.coreAt k n (.logicStw k d r off) = true → exec (.logicStw k d r off) s = .next (s.coreAfter k n a fun t =>
        t.vmStore n a (natBytes 4 ((s.task n).reg d).toNat)))) ∧
     (a % 2 = 0 → a + 2 ≤ 0x100000 →
      (s.coreAt k n (.logicLdh k d r off) = true → exec (.logicLdh k d r off) s = .next (s.coreAfter k n a fun t =>
        t.modTask n fun c => c.setReg d (sextWord 16 (s.vm a 2)))) ∧
      (s.coreAt k n (.logicSth k d r off) = true → exec (.logicSth k d r off) s = .next (s.coreAfter k n a fun t =>
        t.vmStore n a (natBytes 2 ((s.task n).reg d).toNat)))) ∧
     (a < 0x100000 →
      (s.coreAt k n (.logicLdb k d r off) = true → exec (.logicLdb k d r off) s = .next (s.coreAfter k n a fun t =>
        t.modTask n fun c => c.setReg d (BitVec.ofNat 32 (s.vm a 1)))) ∧
      (s.coreAt k n (.logicStb k d r off) = true → exec (.logicStb k d r off) s = .next (s.coreAfter k n a fun t =>
        t.vmStore n a (natBytes 1 ((s.task n).reg d).toNat))))) ∧
    (let a := s.logicAddr n r off 13
     ∀ b, a < 0x100000 →
      (s.coreAt k n (.logicLdx k d r off b) = true → exec (.logicLdx k d r off b) s = .next (s.coreAfter k n a fun t =>
        t.modTask n fun c => c.setReg d (BitVec.ofNat 32 (b2n (bitOf (s.vm a 1) b))))) ∧
      (s.coreAt k n (.logicStx k d r off b) = true → exec (.logicStx k d r off b) s = .next (s.coreAfter k n a fun t =>
        t.vmStore n a [BitVec.ofNat 8 (putBits (s.vm a 1) b 1 (b2n (((s.task n).reg d).getLsbD 0)))])))

/-- A store of task n at an address of a page that n owns puts the bytes there, leaves every other byte of variable
memory, and marks the line dirty for both copies; at an address of a page that n does not own it leaves variable
memory as it was and counts in LOG_STAT.STORE_REF. No store changes the Plain. (08_logic_engine.md R193, R195) -/
def Obligations.LogicStoreOwnership : Prop :=
  ∀ (s : State) (n a : Nat) (bs : List Byte), Memory.wf s.log.vmem = true →
    (s.pageOwner a = n + 1 →
      (∀ o, Sparse.get plainInit (s.vmStore n a bs).log.vmem o =
        if a ≤ o ∧ o < a + bs.length then bs.getD (o - a) 0 else Sparse.get plainInit s.log.vmem o) ∧
      (Sparse.wf (fun _ => false) s.log.dirtyA = true → Sparse.get (fun _ => false) (s.vmStore n a bs).log.dirtyA (a / 64) = true) ∧
      (Sparse.wf (fun _ => false) s.log.dirtyB = true → Sparse.get (fun _ => false) (s.vmStore n a bs).log.dirtyB (a / 64) = true) ∧
      (s.vmStore n a bs).regs = s.regs) ∧
    (s.pageOwner a ≠ n + 1 → (s.vmStore n a bs).log = s.log ∧
      (s.vmStore n a bs) = (s.incFld LOG_STAT.STORE_REF).post 0x0A 2 true [n]) ∧
    (s.vmStore n a bs).plain = s.plain

/-- At the instruction, core k gives Wd the result the instruction's row gives: immediates and moves, sums, differences
and products modulo 2^32, the quotient and the remainder with divisions by 0 counted, saturated sums and differences,
logic, shifts, minimum and maximum, limits (a free value where Ws exceeds Wt), absolute value and negation, the flags
of a compare, a condition as 0 or 1, a selection, a bit operation and a Q15 product. (08_logic_engine.md R194, R205,
R206, R207) -/
def Obligations.LogicIntegerCompletes : Prop :=
  ∀ (k n : Nat) (s : State), s.trap = none →
    (∀ d v, s.coreAt k n (.logicLdi k d v) = true → exec (.logicLdi k d v) s = .next (s.coreAfterReg k n fun c => c.setReg d (sextWord 16 v))) ∧
    (∀ d v, s.coreAt k n (.logicLdih k d v) = true → exec (.logicLdih k d v) s =
      .next (s.coreAfterReg k n fun c => c.setReg d (BitVec.ofNat 32 (putBits (c.reg d).toNat 16 16 v)))) ∧
    (∀ d r, s.coreAt k n (.logicMov k d r) = true → exec (.logicMov k d r) s = .next (s.coreAfterReg k n fun c => c.setReg d (c.reg r))) ∧
    (∀ d r v, s.coreAt k n (.logicAddi k d r v) = true → exec (.logicAddi k d r v) s =
      .next (s.coreAfterReg k n fun c => c.setReg d (c.reg r + sextWord 16 v))) ∧
    (∀ d r t, s.coreAt k n (.logicAdd k d r t) = true → exec (.logicAdd k d r t) s = .next (s.coreAfterReg k n fun c => c.setReg d (c.reg r + c.reg t))) ∧
    (∀ d r t, s.coreAt k n (.logicSub k d r t) = true → exec (.logicSub k d r t) s = .next (s.coreAfterReg k n fun c => c.setReg d (c.reg r - c.reg t))) ∧
    (∀ d r t, s.coreAt k n (.logicMul k d r t) = true → exec (.logicMul k d r t) s = .next (s.coreAfterReg k n fun c => c.setReg d (c.reg r * c.reg t))) ∧
    (∀ d r t, s.coreAt k n (.logicDiv k d r t) = true → exec (.logicDiv k d r t) s = .next (s.coreAfter k n 0 fun u =>
      (u.noteDiv0 n t).modTask n fun c => c.setReg d (intWord (logicDiv (c.reg r).toInt (c.reg t).toInt)))) ∧
    (∀ d r t, s.coreAt k n (.logicMod k d r t) = true → exec (.logicMod k d r t) s = .next (s.coreAfter k n 0 fun u =>
      (u.noteDiv0 n t).modTask n fun c => c.setReg d (intWord (logicMod (c.reg r).toInt (c.reg t).toInt)))) ∧
    (∀ d r t, s.coreAt k n (.logicAdds k d r t) = true → exec (.logicAdds k d r t) s =
      .next (s.coreAfterReg k n fun c => c.setReg d (intWord (satInt 32 ((c.reg r).toInt + (c.reg t).toInt))))) ∧
    (∀ d r t, s.coreAt k n (.logicSubs k d r t) = true → exec (.logicSubs k d r t) s =
      .next (s.coreAfterReg k n fun c => c.setReg d (intWord (satInt 32 ((c.reg r).toInt - (c.reg t).toInt))))) ∧
    (∀ d r t f, s.coreAt k n (.logicLgc k d r t f) = true → exec (.logicLgc k d r t f) s = .next (s.coreAfterReg k n fun c =>
      c.setReg d (if f = 0 then c.reg r &&& c.reg t else if f = 1 then c.reg r ||| c.reg t else if f = 2 then c.reg r ^^^ c.reg t
        else c.reg r &&& ~~~(c.reg t)))) ∧
    (∀ d r, s.coreAt k n (.logicNot k d r) = true → exec (.logicNot k d r) s = .next (s.coreAfterReg k n fun c => c.setReg d (~~~(c.reg r)))) ∧
    (∀ d r t f, s.coreAt k n (.logicShf k d r t f) = true → exec (.logicShf k d r t f) s =
      .next (s.coreAfterReg k n fun c => c.setReg d (shfWord f (c.reg r) ((c.reg t).toNat % 32)))) ∧
    (∀ d r m f, s.coreAt k n (.logicShfi k d r m f) = true → exec (.logicShfi k d r m f) s =
      .next (s.coreAfterReg k n fun c => c.setReg d (shfWord f (c.reg r) m))) ∧
    (∀ d r t f, s.coreAt k n (.logicMinmax k d r t f) = true → exec (.logicMinmax k d r t f) s = .next (s.coreAfterReg k n fun c =>
      c.setReg d (intWord (if f then max (c.reg r).toInt (c.reg t).toInt else min (c.reg r).toInt (c.reg t).toInt)))) ∧
    (∀ d r t, s.coreAt k n (.logicLimit k d r t) = true →
      let c := s.task n
      ((c.reg r).toInt ≤ (c.reg t).toInt → exec (.logicLimit k d r t) s = .next (s.coreAfter k n 0 fun u =>
        u.setTask n (c.setReg d (intWord (clampInt (c.reg r).toInt (c.reg t).toInt (c.reg d).toInt))))) ∧
      ((c.reg t).toInt < (c.reg r).toInt → exec (.logicLimit k d r t) s = .next (s.coreAfter k n 0 fun u =>
        (u.setTask n (c.setReg d (Config.freeWord s.free))).useFree))) ∧
    (∀ d r f, s.coreAt k n (.logicAbsneg k d r f) = true → exec (.logicAbsneg k d r f) s = .next (s.coreAfterReg k n fun c =>
      c.setReg d (intWord (satInt 32 (if f then -(c.reg r).toInt else ((c.reg r).toInt.natAbs : Int)))))) ∧
    (∀ r t, s.coreAt k n (.logicCmp k r t) = true → exec (.logicCmp k r t) s = .next (s.coreAfterReg k n fun c => c.cmp (c.reg r) (c.reg t))) ∧
    (∀ r v, s.coreAt k n (.logicCmpi k r v) = true → exec (.logicCmpi k r v) s = .next (s.coreAfterReg k n fun c => c.cmp (c.reg r) (sextWord 16 v))) ∧
    (∀ d cc, s.coreAt k n (.logicSetc k d cc) = true → cc < 12 → exec (.logicSetc k d cc) s = .next (s.coreAfter k n 0 fun t =>
      t.modTask n fun c => c.setReg d (BitVec.ofNat 32 (b2n (c.cond cc))))) ∧
    (∀ d r t, s.coreAt k n (.logicSel k d r t) = true → exec (.logicSel k d r t) s =
      .next (s.coreAfterReg k n fun c => c.setReg d (if (c.reg d).getLsbD 0 then c.reg t else c.reg r))) ∧
    (∀ d r t f ns nt, s.coreAt k n (.logicBop k d r t f ns nt) = true → f < 3 → exec (.logicBop k d r t f ns nt) s =
      .next (s.coreAfter k n 0 fun u => u.modTask n fun c =>
        let a := (c.reg r).getLsbD 0 != ns
        let b := (c.reg t).getLsbD 0 != nt
        c.setReg d (BitVec.ofNat 32 (b2n (if f = 0 then a && b else if f = 1 then a || b else a != b))))) ∧
    (∀ d r t, s.coreAt k n (.logicQmul k d r t) = true → exec (.logicQmul k d r t) s = .next (s.coreAfterReg k n fun c =>
      c.setReg d (intWord (sat16 (sext 16 (c.reg r).toNat * sext 16 (c.reg t).toNat / 2 ^ 15)))))

/-- A write to W0 changes nothing, and W0 reads 0; a write to another register reads back and leaves the others. For a
divisor other than 0, and except for -2^31 over -1, which saturates, quotient times divisor plus remainder is the
dividend, the remainder is smaller than the divisor and has the dividend's sign; over 0 both are 0. After CMP, Z says
equal, N says smaller as signed and C smaller as unsigned numbers, and V is clear. (08_logic_engine.md R194, R206,
R207) -/
def Obligations.LogicArithmeticLaw : Prop :=
  (∀ (c : TaskCtx) (k j : Nat) (v : Word), c.setReg 0 v = c ∧ c.reg 0 = 0 ∧
    (Sparse.wf (fun _ => (0 : Word)) c.w = true → k ≠ 0 → (c.setReg k v).reg k = v ∧ (j ≠ k → (c.setReg k v).reg j = c.reg j))) ∧
  (∀ x y : Word, y ≠ 0 → ¬(x.toInt = -(2 ^ 31) ∧ y.toInt = -1) →
    logicDiv x.toInt y.toInt * y.toInt + logicMod x.toInt y.toInt = x.toInt ∧
    (logicMod x.toInt y.toInt).natAbs < y.toInt.natAbs ∧ 0 ≤ logicMod x.toInt y.toInt * x.toInt ∧
    (intWord (logicDiv x.toInt y.toInt)).toInt = logicDiv x.toInt y.toInt) ∧
  (∀ x : Word, logicDiv x.toInt 0 = 0 ∧ logicMod x.toInt 0 = 0) ∧
  logicDiv (-(2 ^ 31)) (-1) = 2 ^ 31 - 1 ∧
  (∀ (c : TaskCtx) (x y : Word), ((c.cmp x y).z = true ↔ x = y) ∧ ((c.cmp x y).n = true ↔ x.toInt < y.toInt) ∧
    ((c.cmp x y).c = true ↔ x.toNat < y.toNat) ∧ (c.cmp x y).v = false ∧ (c.cmp x y).w = c.w)

/-- At the instruction the operands are read as binary32; sum, difference, product and quotient are rounded to binary32
into Wd, a NaN result being a quiet NaN of free payload and sign; FCMP sets the flags from the order of the operands,
C of ordered operands being a free value; FCVT converts between integers, Q15 and binary32, rounding to nearest even
and saturating. (08_logic_engine.md R206, R207) -/
def Obligations.LogicFloatCompletes : Prop :=
  ∀ (k n : Nat) (s : State), s.trap = none →
    (∀ d r t, s.coreAt k n (.logicFadd k d r t) = true → exec (.logicFadd k d r t) s =
      .next (s.coreAfter k n 0 fun u => u.setFloat n d (fAdd binary32 (s.fReg n r) (s.fReg n t)))) ∧
    (∀ d r t, s.coreAt k n (.logicFsub k d r t) = true → exec (.logicFsub k d r t) s =
      .next (s.coreAfter k n 0 fun u => u.setFloat n d (fSub binary32 (s.fReg n r) (s.fReg n t)))) ∧
    (∀ d r t, s.coreAt k n (.logicFmul k d r t) = true → exec (.logicFmul k d r t) s =
      .next (s.coreAfter k n 0 fun u => u.setFloat n d (fMul binary32 (s.fReg n r) (s.fReg n t)))) ∧
    (∀ d r t, s.coreAt k n (.logicFdiv k d r t) = true → exec (.logicFdiv k d r t) s =
      .next (s.coreAfter k n 0 fun u => u.setFloat n d (fDiv binary32 (s.fReg n r) (s.fReg n t)))) ∧
    (∀ r t, s.coreAt k n (.logicFcmp k r t) = true → exec (.logicFcmp k r t) s = .next (s.coreAfter k n 0 fun u =>
      (u.modTask n fun c => c.fcmp (c.reg r) (c.reg t) ((Config.freeWord s.free).getLsbD 0)).useFree)) ∧
    (∀ d r f, s.coreAt k n (.logicFcvt k d r f) = true → exec (.logicFcvt k d r f) s = .next (s.coreAfterReg k n fun c =>
      c.setReg d (if f = 0 then BitVec.ofNat 32 (f32Word (fInt (c.reg r).toInt))
        else if f = 1 then intWord (fToSat 32 (f32 (c.reg r).toNat))
        else if f = 2 then BitVec.ofNat 32 (f32Word (.fin (sext 16 (c.reg r).toNat < 0) (sext 16 (c.reg r).toNat).natAbs (-15)))
        else intWord (fToSat 16 (fScale15 (f32 (c.reg r).toNat))))))

/-- At the instruction: GETD takes the current-value word of an entry in use, PUTD writes the output-plane word of an
entry whose SOURCE is LOG, GRP takes a group's pair; TMR evaluates its timer record at the cycle's strobe count and
stores elapsed time, time and state back, TPT and TRD write the preset and read the elapsed time; CNT evaluates its
counter record on the edges of its inputs, CPV and CRD write the preset and read the count; EDGE stores its input and
gives the edge. (08_logic_engine.md R200, R201, R205, R208, R209, R210, R215) -/
def Obligations.LogicInstancesComplete : Prop :=
  ∀ (k n : Nat) (s : State), s.trap = none →
    (∀ d m x, s.coreAt k n (.logicGetd k d m x) = true → (s.task n).sigIndex m x < s.sigCount →
      exec (.logicGetd k d m x) s = .next (s.coreAfter k n 0 fun t =>
        t.modTask n fun c => c.setReg d (BitVec.ofNat 32 (s.cur ((s.task n).sigIndex m x))))) ∧
    (∀ d m x, s.coreAt k n (.logicPutd k d m x) = true → (s.task n).sigIndex m x < s.sigCount →
      s.sigSource ((s.task n).sigIndex m x) = 0x0A → exec (.logicPutd k d m x) s = .next (s.coreAfter k n 0 fun t =>
        t.putSig ((s.task n).sigIndex m x) ((s.task n).reg d).toNat)) ∧
    (∀ d g, s.coreAt k n (.logicGrp k d g) = true → g < s.sigCount → exec (.logicGrp k d g) s = .next (s.coreAfter k n 0 fun t =>
      t.modTask n fun c => (c.setReg d (BitVec.ofNat 32 (s.pw (s.grpCurAt g)))).setReg ((d + 1) % 32)
        (BitVec.ofNat 32 (s.pw (s.grpCurAt g + 4))))) ∧
    (∀ d r f i, s.coreAt k n (.logicTmr k d r f i) = true → f < 3 →
      Sparse.get (fun _ => 0) s.log.timerKinds i = 0 ∨ Sparse.get (fun _ => 0) s.log.timerKinds i = f + 1 →
      let a := timerAt i
      let st := s.vm (a + 12) 4
      let now := (s.task n).strobe % 2 ^ 32
      let dt := if bitOf st 1 then (now + 2 ^ 32 - s.vm (a + 8) 4) % 2 ^ 32 else 0
      let inp := ((s.task n).reg r).getLsbD 0
      let x := timerEval f (s.vm (a + 4) 4) (s.vm a 4) dt (bitOf st 1) (bitOf st 0) (bitOf st 2) inp
      exec (.logicTmr k d r f i) s = .next (s.coreAfter k n a fun t =>
        let u := { t with log := { t.log with timerKinds := Sparse.set (fun _ => 0) t.log.timerKinds i (f + 1) } }
        (u.vmStore n (a + 4) (natBytes 4 x.1 ++ natBytes 4 now ++ natBytes 4 (b2n x.2.2 + 2 * b2n x.2.1 + 4 * b2n inp))).modTask n
          fun c => c.setReg d (BitVec.ofNat 32 (b2n x.2.2)))) ∧
    (∀ r i, s.coreAt k n (.logicTpt k r i) = true → exec (.logicTpt k r i) s = .next (s.coreAfter k n (timerAt i) fun t =>
      t.vmStore n (timerAt i) (natBytes 4 ((s.task n).reg r).toNat))) ∧
    (∀ d i, s.coreAt k n (.logicTrd k d i) = true → exec (.logicTrd k d i) s = .next (s.coreAfter k n (timerAt i) fun t =>
      t.modTask n fun c => c.setReg d (BitVec.ofNat 32 (s.vm (timerAt i + 4) 4)))) ∧
    (∀ d r f i, s.coreAt k n (.logicCnt k d r f i) = true → f < 3 →
      let w := (s.task n).reg r
      let a := counterAt i
      let st := s.vm (a + 8) 4
      let cu := w.getLsbD 0
      let cd := w.getLsbD 1
      let pv := sext 32 (s.vm (a + 4) 4)
      let cv := counterEval f (sext 32 (s.vm a 4)) pv (cu && !(if bitOf st 2 then cu else bitOf st 0))
        (cd && !(if bitOf st 2 then cd else bitOf st 1)) (w.getLsbD 2) (w.getLsbD 3)
      let st2 := putBits (putBits st 0 2 (b2n cu + 2 * b2n cd)) 2 1 0
      exec (.logicCnt k d r f i) s = .next (s.coreAfter k n a fun t =>
        (t.vmStore n a (natBytes 4 (trunc 32 cv) ++ natBytes 4 (s.vm (a + 4) 4) ++ natBytes 4 st2)).modTask n fun c =>
          c.setReg d (BitVec.ofNat 32 (b2n (pv ≤ cv) + 2 * b2n (cv ≤ 0))))) ∧
    (∀ r i, s.coreAt k n (.logicCpv k r i) = true → exec (.logicCpv k r i) s = .next (s.coreAfter k n (counterAt i) fun t =>
      t.vmStore n (counterAt i + 4) (natBytes 4 ((s.task n).reg r).toNat))) ∧
    (∀ d i, s.coreAt k n (.logicCrd k d i) = true → exec (.logicCrd k d i) s = .next (s.coreAfter k n (counterAt i) fun t =>
      t.modTask n fun c => c.setReg d (BitVec.ofNat 32 (s.vm (counterAt i) 4)))) ∧
    (∀ d r f i, s.coreAt k n (.logicEdge k d r f i) = true →
      let inp := ((s.task n).reg r).getLsbD 0
      let b := s.vm (edgeAt i) 1
      let y := !bitOf b 1 && (if f then bitOf b 0 && !inp else inp && !bitOf b 0)
      exec (.logicEdge k d r f i) s = .next (s.coreAfter k n (edgeAt i) fun t =>
        (t.vmStore n (edgeAt i) [BitVec.ofNat 8 (putBits b 0 2 (b2n inp))]).modTask n fun c => c.setReg d (BitVec.ofNat 32 (b2n y))))

/-- No timer's elapsed time exceeds its preset where it did not before. TON is done exactly when its input stands and the
preset is reached, and resets with its input. TOF is on while its input stands and, after it falls, until the preset
is reached. TP, once started, runs to its preset whatever its input does. A counter's reset wins over its load, the
load over its edges; counting up stops at 2^31 - 1 and down at -2^31; CTU ignores the down input, CTD the up input,
and without an edge the count stays. (08_logic_engine.md R208, R209) -/
def Obligations.TimersAndCounters : Prop :=
  (∀ (f et pt dt : Nat) (run q prev inp : Bool), et ≤ pt →
    (timerEval f et pt dt run q prev inp).1 ≤ pt ∧
    timerEval 0 et pt dt run q prev inp = (if inp then (min (et + dt) pt, true, decide (pt ≤ et + dt)) else (0, false, false)) ∧
    (timerEval 1 et pt dt run q prev true = (0, false, true)) ∧
    ((timerEval 1 et pt dt run true prev false).2.2 = decide (et + dt < pt)) ∧
    ((timerEval 2 et pt dt true q prev inp).2.2 = decide (et + dt < pt)) ∧
    (timerEval 2 et pt dt false q false true).2.2 = decide (0 < pt) ∧
    (timerEval 2 et pt dt false q prev false) = (0, false, false)) ∧
  (∀ (f : Nat) (cv pv : Int) (cu cd ld : Bool), counterEval f cv pv cu cd true ld = 0 ∧ counterEval f cv pv cu cd false true = pv ∧
    counterEval f cv pv false false false false = cv ∧
    counterEval 0 cv pv cu cd false false = (if cu = true ∧ cv < 2 ^ 31 - 1 then cv + 1 else cv) ∧
    counterEval 1 cv pv cu cd false false = (if cd = true ∧ -(2 ^ 31) < cv then cv - 1 else cv) ∧
    (-(2 ^ 31) ≤ cv → cv ≤ 2 ^ 31 - 1 → -(2 ^ 31) ≤ counterEval f cv pv cu cd false false ∧
      counterEval f cv pv cu cd false false ≤ 2 ^ 31 - 1))

/-- A core starts the cycle of the task dispatched to it, with its start registers, and reads the whole input list at once
where it can, else waits for input close. After END the flushes, the cycle time and the report follow and the task
idles. TASK_START lets a stopped task run again, TASK_STOP stops it. EXCH_REQUEST with a program loaded and no
exchange under way opens an exchange, a check that finds no mismatch lets it wait for X, and an eligible boundary is
X: the exchange and the change set with it are applied; a mismatch, a time-out and a cancel refuse it with their
reasons. (08_logic_engine.md R196, R197, R198, R199, R202, R211, R212, R213) -/
def Obligations.LogicCyclesComplete : Prop :=
  (∀ (k j n d : Nat) (whole : Bool) (s : State), s.running (8 + k) = some j → s.coreTask k = some n → k < 4 →
    s.runs Vale.logic = true → s.halted = false → (s.task n).phase = 1 → s.trap = none →
    let u := s.noteDispatch j d
    let x := match u.log.x with | some x => u.log.toExch.contains n && x ≤ (u.task n).relTick | none => false
    let v := if x then u.taskExchange n else u
    let w := v.modTask n fun c => c.start (v.fld (LOG_TASK_ENTRY.ENTRY n))
    w.trap = none →
    (whole = true → w.time.phase ≠ .arrived → (w.taskRead n).trap = none → exec (.cycleStart k whole d) s = .next (w.taskRead n)) ∧
    (whole = false ∨ w.time.phase = .arrived → exec (.cycleStart k whole d) s = .next w)) ∧
  (∀ (k j n : Nat) (s : State), s.running (8 + k) = some j → s.coreTask k = some n → k < 4 → s.runs Vale.logic = true →
    (s.task n).phase = 4 →
    let u := (s.taskFlush n).retainFlush n (if k < 2 then 8 else 9)
    let us := min 0xFFFF ((u.ns - (u.task n).relNs) / 1000)
    let v := ((u.setFld (LOG_TASK_TIME.LAST n) us).peakFld (LOG_TASK_TIME.MAX n) us).modTask n fun c =>
      { c with phase := 0, job := none, cycles := (c.cycles + 1) % 2 ^ 32 }
    let e : EndedJob := { engine := 8 + k, job := j, how := 0 }
    let t := ({ v.setRunning (8 + k) none with sch := { (v.setRunning (8 + k) none).sch with ended := v.sch.ended ++ [e] } }).dispatch
    t.trap = none → exec (.cycleComplete k) s = .next t) ∧
  (∀ (n : Nat) (s : State), n < 8 → s.powerFail = false →
    exec (.taskStart n) s = .next ((s.setFld (LOG_TASK_STAT.STOPPED n) 0).setFld (LOG_TASK_STAT.SKIPRUN n) 0) ∧
    exec (.taskStop n) s = .next (s.taskStop n).dispatch) ∧
  (∀ s : State, s.powerFail = false →
    (s.exchOpen = false → s.exchRunning = false → s.flag LOG_BANK.LOADED = true →
      let u := s.each (List.range 8) fun t n => t.setFld (LOG_TASK_STAT.EXCHANGED n) 0
      exec .exchRequest s = .next ({ u with log := { u.log with reqNs := some u.ns } }.setFld LOG_EXCH_STAT.STATE 1)) ∧
    (s.exchOpen = true → exec .exchCancel s = .next (s.exchRefuse 2))) ∧
  (∀ s : State, s.fld LOG_EXCH_STAT.STATE = 2 → s.time.phase = .risen → s.exchEligible s.time.tick = true →
    let v := (s.exchOpenAt s.time.tick).changeApply s.time.tick
    v.trap = none → exec .exchWindowOpen s = .next v) ∧
  (∀ s : State, s.fld LOG_EXCH_STAT.STATE = 1 →
    (s.exchMismatch = true → exec .exchCheckDone s = .next (s.exchRefuse 0)) ∧
    (s.exchMismatch = false → exec .exchCheckDone s = .next (s.setFld LOG_EXCH_STAT.STATE 2))) ∧
  (∀ s : State, s.exchOpen = true → exec .exchTimeout s = .next (s.exchRefuse 1))
end

