-- ==== Sys2Proof/Laws/Exec.lean ====
section
/-!
SUPPORT. Laws/Exec.lean: exec of each command is that command's meaning: one equation per constructor, so that no proof
unfolds the dispatch.
-/

namespace Sys2Proof.Machine

@[simp] theorem exec_por : ∀ s, exec .por s = execPor s := by intros; rfl
@[simp] theorem exec_pinReset : ∀ s, exec .pinReset s = execPinReset s := by intros; rfl
@[simp] theorem exec_softReset : ∀ s, exec .softReset s = execSoftReset s := by intros; rfl
@[simp] theorem exec_clockReset : ∀ s, exec .clockReset s = execClockReset s := by intros; rfl
@[simp] theorem exec_xinStop : ∀ s, exec .xinStop s = execXinStop s := by intros; rfl
@[simp] theorem exec_xinReturn : ∀ s, exec .xinReturn s = execXinReturn s := by intros; rfl
@[simp] theorem exec_serdesPllLoss : ∀ lost s, exec (.serdesPllLoss lost) s = execSerdesPllLoss lost s := by intros; rfl
@[simp] theorem exec_resetRelease : ∀ bootSel cascPos pairRole s, exec (.resetRelease bootSel cascPos pairRole) s = execResetRelease bootSel cascPos pairRole s := by intros; rfl
@[simp] theorem exec_pllLock : ∀ s, exec .pllLock s = execPllLock s := by intros; rfl
@[simp] theorem exec_colStall : ∀ pair dir s, exec (.colStall pair dir) s = execColStall pair dir s := by intros; rfl
@[simp] theorem exec_colStallClear : ∀ s, exec .colStallClear s = execColStallClear s := by intros; rfl
@[simp] theorem exec_tickStrobe : ∀ s, exec .tickStrobe s = execTickStrobe s := by intros; rfl
@[simp] theorem exec_strobeArrival : ∀ lines late s, exec (.strobeArrival lines late) s = execStrobeArrival lines late s := by intros; rfl
@[simp] theorem exec_inputClose : ∀ skips missed s, exec (.inputClose skips missed) s = execInputClose skips missed s := by intros; rfl
@[simp] theorem exec_outputClose : ∀ s, exec .outputClose s = execOutputClose s := by intros; rfl
@[simp] theorem exec_outputPrefetch : ∀ unit s, exec (.outputPrefetch unit) s = execOutputPrefetch unit s := by intros; rfl
@[simp] theorem exec_tickClr : ∀ s, exec .tickClr s = execTickClr s := by intros; rfl
@[simp] theorem exec_registerWrite : ∀ addr data priv s, exec (.registerWrite addr data priv) s = execRegisterWrite addr data priv s := by intros; rfl
@[simp] theorem exec_plainTransaction : ∀ port requester addr isWrite data len s, exec (.plainTransaction port requester addr isWrite data len) s = execPlainTransaction port requester addr isWrite data len s := by intros; rfl
@[simp] theorem exec_grant : ∀ ecc s, exec (.grant ecc) s = execGrant ecc s := by intros; rfl
@[simp] theorem exec_retainedStoreAccess : ∀ s, exec .retainedStoreAccess s = execRetainedStoreAccess s := by intros; rfl
@[simp] theorem exec_plnClrWait : ∀ s, exec .plnClrWait s = execPlnClrWait s := by intros; rfl
@[simp] theorem exec_plnClrEcc : ∀ s, exec .plnClrEcc s = execPlnClrEcc s := by intros; rfl
@[simp] theorem exec_plnClrWin : ∀ s, exec .plnClrWin s = execPlnClrWin s := by intros; rfl
@[simp] theorem exec_jobRelease : ∀ job s, exec (.jobRelease job) s = execJobRelease job s := by intros; rfl
@[simp] theorem exec_runLimit : ∀ lane issued s, exec (.runLimit lane issued) s = execRunLimit lane issued s := by intros; rfl
@[simp] theorem exec_jobComplete : ∀ engine s, exec (.jobComplete engine) s = execJobComplete engine s := by intros; rfl
@[simp] theorem exec_deadlinePass : ∀ job issued s, exec (.deadlinePass job issued) s = execDeadlinePass job issued s := by intros; rfl
@[simp] theorem exec_expiry : ∀ s, exec .expiry s = execExpiry s := by intros; rfl
@[simp] theorem exec_waitEvent : ∀ event s, exec (.waitEvent event) s = execWaitEvent event s := by intros; rfl
@[simp] theorem exec_loadIntervalEnd : ∀ lane logic s, exec (.loadIntervalEnd lane logic) s = execLoadIntervalEnd lane logic s := by intros; rfl
@[simp] theorem exec_schClrCounts : ∀ s, exec .schClrCounts s = execSchClrCounts s := by intros; rfl
@[simp] theorem exec_schClrPeaks : ∀ s, exec .schClrPeaks s = execSchClrPeaks s := by intros; rfl
@[simp] theorem exec_forceSet : ∀ s, exec .forceSet s = execForceSet s := by intros; rfl
@[simp] theorem exec_forceRelease : ∀ s, exec .forceRelease s = execForceRelease s := by intros; rfl
@[simp] theorem exec_forceReleaseAll : ∀ s, exec .forceReleaseAll s = execForceReleaseAll s := by intros; rfl
@[simp] theorem exec_sigClrStats : ∀ s, exec .sigClrStats s = execSigClrStats s := by intros; rfl
@[simp] theorem exec_seqEvaluation : ∀ cut cycles s, exec (.seqEvaluation cut cycles) s = execSeqEvaluation cut cycles s := by intros; rfl
@[simp] theorem exec_seqNop : ∀ seq arg s, exec (.seqNop seq arg) s = execSeqNop seq arg s := by intros; rfl
@[simp] theorem exec_seqLoad : ∀ seq arg s, exec (.seqLoad seq arg) s = execSeqLoad seq arg s := by intros; rfl
@[simp] theorem exec_seqStart : ∀ seq arg s, exec (.seqStart seq arg) s = execSeqStart seq arg s := by intros; rfl
@[simp] theorem exec_seqHold : ∀ seq arg s, exec (.seqHold seq arg) s = execSeqHold seq arg s := by intros; rfl
@[simp] theorem exec_seqContinue : ∀ seq arg s, exec (.seqContinue seq arg) s = execSeqContinue seq arg s := by intros; rfl
@[simp] theorem exec_seqSkip : ∀ seq arg s, exec (.seqSkip seq arg) s = execSeqSkip seq arg s := by intros; rfl
@[simp] theorem exec_seqAbort : ∀ seq arg s, exec (.seqAbort seq arg) s = execSeqAbort seq arg s := by intros; rfl
@[simp] theorem exec_seqStop : ∀ seq arg s, exec (.seqStop seq arg) s = execSeqStop seq arg s := by intros; rfl
@[simp] theorem exec_seqResumeCommit : ∀ seq arg s, exec (.seqResumeCommit seq arg) s = execSeqResumeCommit seq arg s := by intros; rfl
@[simp] theorem exec_seqClear : ∀ seq arg s, exec (.seqClear seq arg) s = execSeqClear seq arg s := by intros; rfl
@[simp] theorem exec_passCommit : ∀ kind spanSeq from_ target atSec atNs attempt arg s, exec (.passCommit kind spanSeq from_ target atSec atNs attempt arg) s = execPassCommit kind spanSeq from_ target atSec atNs attempt arg s := by intros; rfl
@[simp] theorem exec_passAnswer : ∀ spanSeq pos code attempt s, exec (.passAnswer spanSeq pos code attempt) s = execPassAnswer spanSeq pos code attempt s := by intros; rfl
@[simp] theorem exec_passMiss : ∀ seq start s, exec (.passMiss seq start) s = execPassMiss seq start s := by intros; rfl
@[simp] theorem exec_passAckDeadline : ∀ seq s, exec (.passAckDeadline seq) s = execPassAckDeadline seq s := by intros; rfl
@[simp] theorem exec_seqClrCounts : ∀ s, exec .seqClrCounts s = execSeqClrCounts s := by intros; rfl
@[simp] theorem exec_seqClrPeaks : ∀ s, exec .seqClrPeaks s = execSeqClrPeaks s := by intros; rfl
@[simp] theorem exec_loopMode : ∀ slot mode s, exec (.loopMode slot mode) s = execLoopMode slot mode s := by intros; rfl
@[simp] theorem exec_loopLimitLo : ∀ slot value s, exec (.loopLimitLo slot value) s = execLoopLimitLo slot value s := by intros; rfl
@[simp] theorem exec_loopLimitHi : ∀ slot value s, exec (.loopLimitHi slot value) s = execLoopLimitHi slot value s := by intros; rfl
@[simp] theorem exec_loopClearFault : ∀ slot s, exec (.loopClearFault slot) s = execLoopClearFault slot s := by intros; rfl
@[simp] theorem exec_loopClrCounts : ∀ s, exec .loopClrCounts s = execLoopClrCounts s := by intros; rfl
@[simp] theorem exec_loopClrPeaks : ∀ s, exec .loopClrPeaks s = execLoopClrPeaks s := by intros; rfl
@[simp] theorem exec_laneJobStart : ∀ lane dlat s, exec (.laneJobStart lane dlat) s = execLaneJobStart lane dlat s := by intros; rfl
@[simp] theorem exec_laneNop : ∀ lane s, exec (.laneNop lane) s = execLaneNop lane s := by intros; rfl
@[simp] theorem exec_laneEnd : ∀ lane s, exec (.laneEnd lane) s = execLaneEnd lane s := by intros; rfl
@[simp] theorem exec_laneJmp : ∀ lane tgt s, exec (.laneJmp lane tgt) s = execLaneJmp lane tgt s := by intros; rfl
@[simp] theorem exec_laneBr : ∀ lane cc tgt s, exec (.laneBr lane cc tgt) s = execLaneBr lane cc tgt s := by intros; rfl
@[simp] theorem exec_laneCall : ∀ lane tgt s, exec (.laneCall lane tgt) s = execLaneCall lane tgt s := by intros; rfl
@[simp] theorem exec_laneRet : ∀ lane s, exec (.laneRet lane) s = execLaneRet lane s := by intros; rfl
@[simp] theorem exec_laneLoop : ∀ lane idx x last s, exec (.laneLoop lane idx x last) s = execLaneLoop lane idx x last s := by intros; rfl
@[simp] theorem exec_laneWaits : ∀ lane n s, exec (.laneWaits lane n) s = execLaneWaits lane n s := by intros; rfl
@[simp] theorem exec_laneInh : ∀ lane v s, exec (.laneInh lane v) s = execLaneInh lane v s := by intros; rfl
@[simp] theorem exec_laneEvt : ∀ lane c code s, exec (.laneEvt lane c code) s = execLaneEvt lane c code s := by intros; rfl
@[simp] theorem exec_laneLdi : ∀ lane d imm s, exec (.laneLdi lane d imm) s = execLaneLdi lane d imm s := by intros; rfl
@[simp] theorem exec_laneLdp : ∀ lane p imm s, exec (.laneLdp lane p imm) s = execLaneLdp lane p imm s := by intros; rfl
@[simp] theorem exec_laneLdm : ∀ lane p imm s, exec (.laneLdm lane p imm) s = execLaneLdm lane p imm s := by intros; rfl
@[simp] theorem exec_laneLdz : ∀ lane p k s, exec (.laneLdz lane p k) s = execLaneLdz lane p k s := by intros; rfl
@[simp] theorem exec_laneMovx : ∀ lane d sp dir s, exec (.laneMovx lane d sp dir) s = execLaneMovx lane d sp dir s := by intros; rfl
@[simp] theorem exec_laneSetm : ∀ lane sat rnd msh s, exec (.laneSetm lane sat rnd msh) s = execLaneSetm lane sat rnd msh s := by intros; rfl
@[simp] theorem exec_laneLd : ∀ lane d p m s, exec (.laneLd lane d p m) s = execLaneLd lane d p m s := by intros; rfl
@[simp] theorem exec_laneSt : ∀ lane r p m s, exec (.laneSt lane r p m) s = execLaneSt lane r p m s := by intros; rfl
@[simp] theorem exec_laneLd2 : ∀ lane d x mx y my s, exec (.laneLd2 lane d x mx y my) s = execLaneLd2 lane d x mx y my s := by intros; rfl
@[simp] theorem exec_laneLim : ∀ lane d r t s, exec (.laneLim lane d r t) s = execLaneLim lane d r t s := by intros; rfl
@[simp] theorem exec_laneGet : ∀ lane d ind x s, exec (.laneGet lane d ind x) s = execLaneGet lane d ind x s := by intros; rfl
@[simp] theorem exec_laneGetw : ∀ lane d ind x s, exec (.laneGetw lane d ind x) s = execLaneGetw lane d ind x s := by intros; rfl
@[simp] theorem exec_lanePut : ∀ lane r ind x s, exec (.lanePut lane r ind x) s = execLanePut lane r ind x s := by intros; rfl
@[simp] theorem exec_lanePutw : ∀ lane r ind x s, exec (.lanePutw lane r ind x) s = execLanePutw lane r ind x s := by intros; rfl
@[simp] theorem exec_laneFld : ∀ lane d disp s, exec (.laneFld lane d disp) s = execLaneFld lane d disp s := by intros; rfl
@[simp] theorem exec_laneFst : ∀ lane r disp s, exec (.laneFst lane r disp) s = execLaneFst lane r disp s := by intros; rfl
@[simp] theorem exec_lanePop : ∀ lane d s, exec (.lanePop lane d) s = execLanePop lane d s := by intros; rfl
@[simp] theorem exec_laneMpyReg : ∀ lane a r t s, exec (.laneMpyReg lane a r t) s = execLaneMpyReg lane a r t s := by intros; rfl
@[simp] theorem exec_laneMpyMem : ∀ lane a r p m s, exec (.laneMpyMem lane a r p m) s = execLaneMpyMem lane a r p m s := by intros; rfl
@[simp] theorem exec_laneMpyDual : ∀ lane a x mx y my s, exec (.laneMpyDual lane a x mx y my) s = execLaneMpyDual lane a x mx y my s := by intros; rfl
@[simp] theorem exec_laneMacReg : ∀ lane a r t s, exec (.laneMacReg lane a r t) s = execLaneMacReg lane a r t s := by intros; rfl
@[simp] theorem exec_laneMacMem : ∀ lane a r p m s, exec (.laneMacMem lane a r p m) s = execLaneMacMem lane a r p m s := by intros; rfl
@[simp] theorem exec_laneMacDual : ∀ lane a x mx y my s, exec (.laneMacDual lane a x mx y my) s = execLaneMacDual lane a x mx y my s := by intros; rfl
@[simp] theorem exec_laneMsuReg : ∀ lane a r t s, exec (.laneMsuReg lane a r t) s = execLaneMsuReg lane a r t s := by intros; rfl
@[simp] theorem exec_laneMsuMem : ∀ lane a r p m s, exec (.laneMsuMem lane a r p m) s = execLaneMsuMem lane a r p m s := by intros; rfl
@[simp] theorem exec_laneMsuDual : ∀ lane a x mx y my s, exec (.laneMsuDual lane a x mx y my) s = execLaneMsuDual lane a x mx y my s := by intros; rfl
@[simp] theorem exec_laneMpyu : ∀ lane a r t s, exec (.laneMpyu lane a r t) s = execLaneMpyu lane a r t s := by intros; rfl
@[simp] theorem exec_laneAdd : ∀ lane d r t s, exec (.laneAdd lane d r t) s = execLaneAdd lane d r t s := by intros; rfl
@[simp] theorem exec_laneSub : ∀ lane d r t s, exec (.laneSub lane d r t) s = execLaneSub lane d r t s := by intros; rfl
@[simp] theorem exec_laneMinmax : ∀ lane d r t f s, exec (.laneMinmax lane d r t f) s = execLaneMinmax lane d r t f s := by intros; rfl
@[simp] theorem exec_laneLog : ∀ lane d r t f s, exec (.laneLog lane d r t f) s = execLaneLog lane d r t f s := by intros; rfl
@[simp] theorem exec_laneShd : ∀ lane d r k n s, exec (.laneShd lane d r k n) s = execLaneShd lane d r k n s := by intros; rfl
@[simp] theorem exec_laneCmp : ∀ lane r t s, exec (.laneCmp lane r t) s = execLaneCmp lane r t s := by intros; rfl
@[simp] theorem exec_laneAcc : ∀ lane a f s, exec (.laneAcc lane a f) s = execLaneAcc lane a f s := by intros; rfl
@[simp] theorem exec_laneSha : ∀ lane a v x s, exec (.laneSha lane a v x) s = execLaneSha lane a v x s := by intros; rfl
@[simp] theorem exec_laneMva : ∀ lane a d r o sh s, exec (.laneMva lane a d r o sh) s = execLaneMva lane a d r o sh s := by intros; rfl
@[simp] theorem exec_laneMvd : ∀ lane a r o sh s, exec (.laneMvd lane a r o sh) s = execLaneMvd lane a r o sh s := by intros; rfl
@[simp] theorem exec_laneNorm : ∀ lane a d e s, exec (.laneNorm lane a d e) s = execLaneNorm lane a d e s := by intros; rfl
@[simp] theorem exec_laneDataError : ∀ lane s, exec (.laneDataError lane) s = execLaneDataError lane s := by intros; rfl
@[simp] theorem exec_streamSample : ∀ lane sample s, exec (.streamSample lane sample) s = execStreamSample lane sample s := by intros; rfl
@[simp] theorem exec_laneMemAccess : ∀ isWrite data s, exec (.laneMemAccess isWrite data) s = execLaneMemAccess isWrite data s := by intros; rfl
@[simp] theorem exec_laneClrCounts : ∀ s, exec .laneClrCounts s = execLaneClrCounts s := by intros; rfl
@[simp] theorem exec_laneClrPeaks : ∀ s, exec .laneClrPeaks s = execLaneClrPeaks s := by intros; rfl
@[simp] theorem exec_cycleStart : ∀ core whole dlat s, exec (.cycleStart core whole dlat) s = execCycleStart core whole dlat s := by intros; rfl
@[simp] theorem exec_cycleComplete : ∀ core s, exec (.cycleComplete core) s = execCycleComplete core s := by intros; rfl
@[simp] theorem exec_logicNop : ∀ core s, exec (.logicNop core) s = execLogicNop core s := by intros; rfl
@[simp] theorem exec_logicEnd : ∀ core s, exec (.logicEnd core) s = execLogicEnd core s := by intros; rfl
@[simp] theorem exec_logicJmp : ∀ core tgt s, exec (.logicJmp core tgt) s = execLogicJmp core tgt s := by intros; rfl
@[simp] theorem exec_logicBr : ∀ core cc tgt s, exec (.logicBr core cc tgt) s = execLogicBr core cc tgt s := by intros; rfl
@[simp] theorem exec_logicCall : ∀ core tgt s, exec (.logicCall core tgt) s = execLogicCall core tgt s := by intros; rfl
@[simp] theorem exec_logicRet : ∀ core s, exec (.logicRet core) s = execLogicRet core s := by intros; rfl
@[simp] theorem exec_logicBrb : ∀ core r v tgt s, exec (.logicBrb core r v tgt) s = execLogicBrb core r v tgt s := by intros; rfl
@[simp] theorem exec_logicLdw : ∀ core d r off s, exec (.logicLdw core d r off) s = execLogicLdw core d r off s := by intros; rfl
@[simp] theorem exec_logicLdh : ∀ core d r off s, exec (.logicLdh core d r off) s = execLogicLdh core d r off s := by intros; rfl
@[simp] theorem exec_logicLdb : ∀ core d r off s, exec (.logicLdb core d r off) s = execLogicLdb core d r off s := by intros; rfl
@[simp] theorem exec_logicStw : ∀ core d r off s, exec (.logicStw core d r off) s = execLogicStw core d r off s := by intros; rfl
@[simp] theorem exec_logicSth : ∀ core d r off s, exec (.logicSth core d r off) s = execLogicSth core d r off s := by intros; rfl
@[simp] theorem exec_logicStb : ∀ core d r off s, exec (.logicStb core d r off) s = execLogicStb core d r off s := by intros; rfl
@[simp] theorem exec_logicLdx : ∀ core d r off b s, exec (.logicLdx core d r off b) s = execLogicLdx core d r off b s := by intros; rfl
@[simp] theorem exec_logicStx : ∀ core d r off b s, exec (.logicStx core d r off b) s = execLogicStx core d r off b s := by intros; rfl
@[simp] theorem exec_logicLdi : ∀ core d imm s, exec (.logicLdi core d imm) s = execLogicLdi core d imm s := by intros; rfl
@[simp] theorem exec_logicLdih : ∀ core d imm s, exec (.logicLdih core d imm) s = execLogicLdih core d imm s := by intros; rfl
@[simp] theorem exec_logicMov : ∀ core d r s, exec (.logicMov core d r) s = execLogicMov core d r s := by intros; rfl
@[simp] theorem exec_logicAdd : ∀ core d r t s, exec (.logicAdd core d r t) s = execLogicAdd core d r t s := by intros; rfl
@[simp] theorem exec_logicSub : ∀ core d r t s, exec (.logicSub core d r t) s = execLogicSub core d r t s := by intros; rfl
@[simp] theorem exec_logicMul : ∀ core d r t s, exec (.logicMul core d r t) s = execLogicMul core d r t s := by intros; rfl
@[simp] theorem exec_logicDiv : ∀ core d r t s, exec (.logicDiv core d r t) s = execLogicDiv core d r t s := by intros; rfl
@[simp] theorem exec_logicMod : ∀ core d r t s, exec (.logicMod core d r t) s = execLogicMod core d r t s := by intros; rfl
@[simp] theorem exec_logicAddi : ∀ core d r imm s, exec (.logicAddi core d r imm) s = execLogicAddi core d r imm s := by intros; rfl
@[simp] theorem exec_logicAdds : ∀ core d r t s, exec (.logicAdds core d r t) s = execLogicAdds core d r t s := by intros; rfl
@[simp] theorem exec_logicSubs : ∀ core d r t s, exec (.logicSubs core d r t) s = execLogicSubs core d r t s := by intros; rfl
@[simp] theorem exec_logicLgc : ∀ core d r t f s, exec (.logicLgc core d r t f) s = execLogicLgc core d r t f s := by intros; rfl
@[simp] theorem exec_logicNot : ∀ core d r s, exec (.logicNot core d r) s = execLogicNot core d r s := by intros; rfl
@[simp] theorem exec_logicShf : ∀ core d r t f s, exec (.logicShf core d r t f) s = execLogicShf core d r t f s := by intros; rfl
@[simp] theorem exec_logicShfi : ∀ core d r n f s, exec (.logicShfi core d r n f) s = execLogicShfi core d r n f s := by intros; rfl
@[simp] theorem exec_logicMinmax : ∀ core d r t f s, exec (.logicMinmax core d r t f) s = execLogicMinmax core d r t f s := by intros; rfl
@[simp] theorem exec_logicLimit : ∀ core d r t s, exec (.logicLimit core d r t) s = execLogicLimit core d r t s := by intros; rfl
@[simp] theorem exec_logicAbsneg : ∀ core d r f s, exec (.logicAbsneg core d r f) s = execLogicAbsneg core d r f s := by intros; rfl
@[simp] theorem exec_logicCmp : ∀ core r t s, exec (.logicCmp core r t) s = execLogicCmp core r t s := by intros; rfl
@[simp] theorem exec_logicCmpi : ∀ core r imm s, exec (.logicCmpi core r imm) s = execLogicCmpi core r imm s := by intros; rfl
@[simp] theorem exec_logicSetc : ∀ core d cc s, exec (.logicSetc core d cc) s = execLogicSetc core d cc s := by intros; rfl
@[simp] theorem exec_logicSel : ∀ core d r t s, exec (.logicSel core d r t) s = execLogicSel core d r t s := by intros; rfl
@[simp] theorem exec_logicBop : ∀ core d r t f ns nt s, exec (.logicBop core d r t f ns nt) s = execLogicBop core d r t f ns nt s := by intros; rfl
@[simp] theorem exec_logicQmul : ∀ core d r t s, exec (.logicQmul core d r t) s = execLogicQmul core d r t s := by intros; rfl
@[simp] theorem exec_logicFadd : ∀ core d r t s, exec (.logicFadd core d r t) s = execLogicFadd core d r t s := by intros; rfl
@[simp] theorem exec_logicFsub : ∀ core d r t s, exec (.logicFsub core d r t) s = execLogicFsub core d r t s := by intros; rfl
@[simp] theorem exec_logicFmul : ∀ core d r t s, exec (.logicFmul core d r t) s = execLogicFmul core d r t s := by intros; rfl
@[simp] theorem exec_logicFdiv : ∀ core d r t s, exec (.logicFdiv core d r t) s = execLogicFdiv core d r t s := by intros; rfl
@[simp] theorem exec_logicFcmp : ∀ core r t s, exec (.logicFcmp core r t) s = execLogicFcmp core r t s := by intros; rfl
@[simp] theorem exec_logicFcvt : ∀ core d r f s, exec (.logicFcvt core d r f) s = execLogicFcvt core d r f s := by intros; rfl
@[simp] theorem exec_logicGetd : ∀ core d ind x s, exec (.logicGetd core d ind x) s = execLogicGetd core d ind x s := by intros; rfl
@[simp] theorem exec_logicPutd : ∀ core d ind x s, exec (.logicPutd core d ind x) s = execLogicPutd core d ind x s := by intros; rfl
@[simp] theorem exec_logicGrp : ∀ core d g s, exec (.logicGrp core d g) s = execLogicGrp core d g s := by intros; rfl
@[simp] theorem exec_logicTmr : ∀ core d r f idx s, exec (.logicTmr core d r f idx) s = execLogicTmr core d r f idx s := by intros; rfl
@[simp] theorem exec_logicTpt : ∀ core r idx s, exec (.logicTpt core r idx) s = execLogicTpt core r idx s := by intros; rfl
@[simp] theorem exec_logicTrd : ∀ core d idx s, exec (.logicTrd core d idx) s = execLogicTrd core d idx s := by intros; rfl
@[simp] theorem exec_logicCnt : ∀ core d r f idx s, exec (.logicCnt core d r f idx) s = execLogicCnt core d r f idx s := by intros; rfl
@[simp] theorem exec_logicCpv : ∀ core r idx s, exec (.logicCpv core r idx) s = execLogicCpv core r idx s := by intros; rfl
@[simp] theorem exec_logicCrd : ∀ core d idx s, exec (.logicCrd core d idx) s = execLogicCrd core d idx s := by intros; rfl
@[simp] theorem exec_logicEdge : ∀ core d r f idx s, exec (.logicEdge core d r f idx) s = execLogicEdge core d r f idx s := by intros; rfl
@[simp] theorem exec_logicEvt : ∀ core c code s, exec (.logicEvt core c code) s = execLogicEvt core c code s := by intros; rfl
@[simp] theorem exec_exchRequest : ∀ s, exec .exchRequest s = execExchRequest s := by intros; rfl
@[simp] theorem exec_exchCheckDone : ∀ s, exec .exchCheckDone s = execExchCheckDone s := by intros; rfl
@[simp] theorem exec_exchWindowOpen : ∀ s, exec .exchWindowOpen s = execExchWindowOpen s := by intros; rfl
@[simp] theorem exec_exchTimeout : ∀ s, exec .exchTimeout s = execExchTimeout s := by intros; rfl
@[simp] theorem exec_exchCancel : ∀ s, exec .exchCancel s = execExchCancel s := by intros; rfl
@[simp] theorem exec_taskStart : ∀ task s, exec (.taskStart task) s = execTaskStart task s := by intros; rfl
@[simp] theorem exec_taskStop : ∀ task s, exec (.taskStop task) s = execTaskStop task s := by intros; rfl
@[simp] theorem exec_logClrCounts : ∀ s, exec .logClrCounts s = execLogClrCounts s := by intros; rfl
@[simp] theorem exec_logClrPeaks : ∀ s, exec .logClrPeaks s = execLogClrPeaks s := by intros; rfl
@[simp] theorem exec_journalRecordDone : ∀ unstable s, exec (.journalRecordDone unstable) s = execJournalRecordDone unstable s := by intros; rfl
@[simp] theorem exec_holdupTestStart : ∀ samples s, exec (.holdupTestStart samples) s = execHoldupTestStart samples s := by intros; rfl
@[simp] theorem exec_holdLoadOn : ∀ s, exec .holdLoadOn s = execHoldLoadOn s := by intros; rfl
@[simp] theorem exec_holdupTestEnd : ∀ samples s, exec (.holdupTestEnd samples) s = execHoldupTestEnd samples s := by intros; rfl
@[simp] theorem exec_idleRetest : ∀ s, exec .idleRetest s = execIdleRetest s := by intros; rfl
@[simp] theorem exec_jrnTest : ∀ s, exec .jrnTest s = execJrnTest s := by intros; rfl
@[simp] theorem exec_jrnSelect : ∀ copy s, exec (.jrnSelect copy) s = execJrnSelect copy s := by intros; rfl
@[simp] theorem exec_jrnDiscard : ∀ s, exec .jrnDiscard s = execJrnDiscard s := by intros; rfl
@[simp] theorem exec_pfailAccept : ∀ s, exec .pfailAccept s = execPfailAccept s := by intros; rfl
@[simp] theorem exec_pfailRelease : ∀ bootSel cascPos pairRole s, exec (.pfailRelease bootSel cascPos pairRole) s = execPfailRelease bootSel cascPos pairRole s := by intros; rfl
@[simp] theorem exec_restoreEnd : ∀ s, exec .restoreEnd s = execRestoreEnd s := by intros; rfl
@[simp] theorem exec_autoResume : ∀ s, exec .autoResume s = execAutoResume s := by intros; rfl
@[simp] theorem exec_jrnClrCounts : ∀ s, exec .jrnClrCounts s = execJrnClrCounts s := by intros; rfl
@[simp] theorem exec_jrnClrPeaks : ∀ s, exec .jrnClrPeaks s = execJrnClrPeaks s := by intros; rfl
@[simp] theorem exec_adcResult : ∀ group slice raw s, exec (.adcResult group slice raw) s = execAdcResult group slice raw s := by intros; rfl
@[simp] theorem exec_triggerTimer : ∀ group timer s, exec (.triggerTimer group timer) s = execTriggerTimer group timer s := by intros; rfl
@[simp] theorem exec_adcTrigger : ∀ group slice s, exec (.adcTrigger group slice) s = execAdcTrigger group slice s := by intros; rfl
@[simp] theorem exec_conversionDue : ∀ group slice ended s, exec (.conversionDue group slice ended) s = execConversionDue group slice ended s := by intros; rfl
@[simp] theorem exec_adcCalibrate : ∀ groups s, exec (.adcCalibrate groups) s = execAdcCalibrate groups s := by intros; rfl
@[simp] theorem exec_calibrationStart : ∀ group s, exec (.calibrationStart group) s = execCalibrationStart group s := by intros; rfl
@[simp] theorem exec_calibrationEnd : ∀ group lo hi s, exec (.calibrationEnd group lo hi) s = execCalibrationEnd group lo hi s := by intros; rfl
@[simp] theorem exec_adcSupplyFault : ∀ s, exec .adcSupplyFault s = execAdcSupplyFault s := by intros; rfl
@[simp] theorem exec_adcClrCounts : ∀ s, exec .adcClrCounts s = execAdcClrCounts s := by intros; rfl
@[simp] theorem exec_profileInterval : ∀ k lines s, exec (.profileInterval k lines) s = execProfileInterval k lines s := by intros; rfl
@[simp] theorem exec_moveAbs : ∀ axis arg s, exec (.moveAbs axis arg) s = execMoveAbs axis arg s := by intros; rfl
@[simp] theorem exec_moveRel : ∀ axis arg s, exec (.moveRel axis arg) s = execMoveRel axis arg s := by intros; rfl
@[simp] theorem exec_stopRamped : ∀ axis s, exec (.stopRamped axis) s = execStopRamped axis s := by intros; rfl
@[simp] theorem exec_stopHard : ∀ axis s, exec (.stopHard axis) s = execStopHard axis s := by intros; rfl
@[simp] theorem exec_motHome : ∀ axis s, exec (.motHome axis) s = execMotHome axis s := by intros; rfl
@[simp] theorem exec_motClearFault : ∀ axis s, exec (.motClearFault axis) s = execMotClearFault axis s := by intros; rfl
@[simp] theorem exec_pwmValley : ∀ channel s, exec (.pwmValley channel) s = execPwmValley channel s := by intros; rfl
@[simp] theorem exec_pwmConverterTrigger : ∀ channel s, exec (.pwmConverterTrigger channel) s = execPwmConverterTrigger channel s := by intros; rfl
@[simp] theorem exec_pwmInhibit : ∀ input s, exec (.pwmInhibit input) s = execPwmInhibit input s := by intros; rfl
@[simp] theorem exec_standstillReduce : ∀ axis s, exec (.standstillReduce axis) s = execStandstillReduce axis s := by intros; rfl
@[simp] theorem exec_motSignalWrite : ∀ s, exec .motSignalWrite s = execMotSignalWrite s := by intros; rfl
@[simp] theorem exec_sdmOutput : ∀ input output s, exec (.sdmOutput input output) s = execSdmOutput input output s := by intros; rfl
@[simp] theorem exec_overCurrent : ∀ input output s, exec (.overCurrent input output) s = execOverCurrent input output s := by intros; rfl
@[simp] theorem exec_dataStuck : ∀ input s, exec (.dataStuck input) s = execDataStuck input s := by intros; rfl
@[simp] theorem exec_quadratureTransition : ∀ channel ab s, exec (.quadratureTransition channel ab) s = execQuadratureTransition channel ab s := by intros; rfl
@[simp] theorem exec_zCapture : ∀ channel s, exec (.zCapture channel) s = execZCapture channel s := by intros; rfl
@[simp] theorem exec_wireFault : ∀ channel lines s, exec (.wireFault channel lines) s = execWireFault channel lines s := by intros; rfl
@[simp] theorem exec_ssiFrame : ∀ channel ready bits parity s, exec (.ssiFrame channel ready bits parity) s = execSsiFrame channel ready bits parity s := by intros; rfl
@[simp] theorem exec_comparePulseEnd : ∀ unit s, exec (.comparePulseEnd unit) s = execComparePulseEnd unit s := by intros; rfl
@[simp] theorem exec_compareEntryWrite : ∀ unit entry value s, exec (.compareEntryWrite unit entry value) s = execCompareEntryWrite unit entry value s := by intros; rfl
@[simp] theorem exec_armZ : ∀ channel s, exec (.armZ channel) s = execArmZ channel s := by intros; rfl
@[simp] theorem exec_posClear : ∀ channel s, exec (.posClear channel) s = execPosClear channel s := by intros; rfl
@[simp] theorem exec_cmpArm : ∀ unit s, exec (.cmpArm unit) s = execCmpArm unit s := by intros; rfl
@[simp] theorem exec_cmpDisarm : ∀ unit s, exec (.cmpDisarm unit) s = execCmpDisarm unit s := by intros; rfl
@[simp] theorem exec_loadCount : ∀ channel arg s, exec (.loadCount channel arg) s = execLoadCount channel arg s := by intros; rfl
@[simp] theorem exec_clearSsi : ∀ channel s, exec (.clearSsi channel) s = execClearSsi channel s := by intros; rfl
@[simp] theorem exec_islandPor : ∀ s, exec .islandPor s = execIslandPor s := by intros; rfl
@[simp] theorem exec_selfTestDone : ∀ s, exec .selfTestDone s = execSelfTestDone s := by intros; rfl
@[simp] theorem exec_islandScan : ∀ inputs emo readback clockOk s, exec (.islandScan inputs emo readback clockOk) s = execIslandScan inputs emo readback clockOk s := by intros; rfl
@[simp] theorem exec_inputTestPulse : ∀ source offset s, exec (.inputTestPulse source offset) s = execInputTestPulse source offset s := by intros; rfl
@[simp] theorem exec_inputTestSample : ∀ source inputs emo s, exec (.inputTestSample source inputs emo) s = execInputTestSample source inputs emo s := by intros; rfl
@[simp] theorem exec_outputTestPulse : ∀ output offset s, exec (.outputTestPulse output offset) s = execOutputTestPulse output offset s := by intros; rfl
@[simp] theorem exec_outputPulseCheck : ∀ output energised s, exec (.outputPulseCheck output energised) s = execOutputPulseCheck output energised s := by intros; rfl
@[simp] theorem exec_outputFault : ∀ output energised offset s, exec (.outputFault output energised offset) s = execOutputFault output energised offset s := by intros; rfl
@[simp] theorem exec_keepaliveExpiry : ∀ output s, exec (.keepaliveExpiry output) s = execKeepaliveExpiry output s := by intros; rfl
@[simp] theorem exec_lockstepFault : ∀ s, exec .lockstepFault s = execLockstepFault s := by intros; rfl
@[simp] theorem exec_memoryFault : ∀ s, exec .memoryFault s = execMemoryFault s := by intros; rfl
@[simp] theorem exec_configCrcCheck : ∀ crc s, exec (.configCrcCheck crc) s = execConfigCrcCheck crc s := by intros; rfl
@[simp] theorem exec_safeSupplyFault : ∀ temp s, exec (.safeSupplyFault temp) s = execSafeSupplyFault temp s := by intros; rfl
@[simp] theorem exec_emoDiscrepancy : ∀ s, exec .emoDiscrepancy s = execEmoDiscrepancy s := by intros; rfl
@[simp] theorem exec_discrepancy : ∀ function s, exec (.discrepancy function) s = execDiscrepancy function s := by intros; rfl
@[simp] theorem exec_functionDelayExpiry : ∀ function s, exec (.functionDelayExpiry function) s = execFunctionDelayExpiry function s := by intros; rfl
@[simp] theorem exec_safeFrameSend : ∀ s, exec .safeFrameSend s = execSafeFrameSend s := by intros; rfl
@[simp] theorem exec_mailboxMessage : ∀ sender msg s, exec (.mailboxMessage sender msg) s = execMailboxMessage sender msg s := by intros; rfl
@[simp] theorem exec_pathSilent : ∀ connection path s, exec (.pathSilent connection path) s = execPathSilent connection path s := by intros; rfl
@[simp] theorem exec_frameMismatch : ∀ connection s, exec (.frameMismatch connection) s = execFrameMismatch connection s := by intros; rfl
@[simp] theorem exec_configDropped : ∀ s, exec .configDropped s = execConfigDropped s := by intros; rfl
@[simp] theorem exec_islandPfail : ∀ s, exec .islandPfail s = execIslandPfail s := by intros; rfl
@[simp] theorem exec_islandPfailReturn : ∀ s, exec .islandPfailReturn s = execIslandPfailReturn s := by intros; rfl
@[simp] theorem exec_pairElection : ∀ s, exec .pairElection s = execPairElection s := by intros; rfl
@[simp] theorem exec_tickRec : ∀ record s, exec (.tickRec record) s = execTickRec record s := by intros; rfl
@[simp] theorem exec_journalFrame : ∀ mirror line stage s, exec (.journalFrame mirror line stage) s = execJournalFrame mirror line stage s := by intros; rfl
@[simp] theorem exec_pairCompare : ∀ fails fatal s, exec (.pairCompare fails fatal) s = execPairCompare fails fatal s := by intros; rfl
@[simp] theorem exec_pairDecision : ∀ standbyReady s, exec (.pairDecision standbyReady) s = execPairDecision standbyReady s := by intros; rfl
@[simp] theorem exec_pairTakeover : ∀ s, exec .pairTakeover s = execPairTakeover s := by intros; rfl
@[simp] theorem exec_pairSwitch : ∀ standbyReady s, exec (.pairSwitch standbyReady) s = execPairSwitch standbyReady s := by intros; rfl
@[simp] theorem exec_pairResync : ∀ s, exec .pairResync s = execPairResync s := by intros; rfl
@[simp] theorem exec_pairRelease : ∀ s, exec .pairRelease s = execPairRelease s := by intros; rfl
@[simp] theorem exec_pairClrCounts : ∀ s, exec .pairClrCounts s = execPairClrCounts s := by intros; rfl
@[simp] theorem exec_linkSignalDetect : ∀ port s, exec (.linkSignalDetect port) s = execLinkSignalDetect port s := by intros; rfl
@[simp] theorem exec_blockLock : ∀ port s, exec (.blockLock port) s = execBlockLock port s := by intros; rfl
@[simp] theorem exec_helloSend : ∀ port s, exec (.helloSend port) s = execHelloSend port s := by intros; rfl
@[simp] theorem exec_linkHello : ∀ port vmin vmax pos node uid role strap image since s, exec (.linkHello port vmin vmax pos node uid role strap image since) s = execLinkHello port vmin vmax pos node uid role strap image since s := by intros; rfl
@[simp] theorem exec_blockLockLoss : ∀ port s, exec (.blockLockLoss port) s = execBlockLockLoss port s := by intros; rfl
@[simp] theorem exec_creditFrame : ∀ port cls terrace lines s, exec (.creditFrame port cls terrace lines) s = execCreditFrame port cls terrace lines s := by intros; rfl
@[simp] theorem exec_linkTransmit : ∀ port s, exec (.linkTransmit port) s = execLinkTransmit port s := by intros; rfl
@[simp] theorem exec_casFrameTransit : ∀ port frame s, exec (.casFrameTransit port frame) s = execCasFrameTransit port frame s := by intros; rfl
@[simp] theorem exec_casFrameBad : ∀ port s, exec (.casFrameBad port) s = execCasFrameBad port s := by intros; rfl
@[simp] theorem exec_beacon : ∀ uid s, exec (.beacon uid) s = execBeacon uid s := by intros; rfl
@[simp] theorem exec_masterLost : ∀ s, exec .masterLost s = execMasterLost s := by intros; rfl
@[simp] theorem exec_masterLostAbort : ∀ s, exec .masterLostAbort s = execMasterLostAbort s := by intros; rfl
@[simp] theorem exec_safeFrame : ∀ path bytes s, exec (.safeFrame path bytes) s = execSafeFrame path bytes s := by intros; rfl
@[simp] theorem exec_signalFrame : ∀ pos values s, exec (.signalFrame pos values) s = execSignalFrame pos values s := by intros; rfl
@[simp] theorem exec_syncRec : ∀ lines stage s, exec (.syncRec lines stage) s = execSyncRec lines stage s := by intros; rfl
@[simp] theorem exec_recordFrame : ∀ src msg s, exec (.recordFrame src msg) s = execRecordFrame src msg s := by intros; rfl
@[simp] theorem exec_shpFwd : ∀ request s, exec (.shpFwd request) s = execShpFwd request s := by intros; rfl
@[simp] theorem exec_resyncFrame : ∀ region off bytes forces last s, exec (.resyncFrame region off bytes forces last) s = execResyncFrame region off bytes forces last s := by intros; rfl
@[simp] theorem exec_casClrCounts : ∀ s, exec .casClrCounts s = execCasClrCounts s := by intros; rfl
@[simp] theorem exec_timNowRead : ∀ s, exec .timNowRead s = execTimNowRead s := by intros; rfl
@[simp] theorem exec_timeFrame : ∀ port sent peerRx ourTx valid s, exec (.timeFrame port sent peerRx ourTx valid) s = execTimeFrame port sent peerRx ourTx valid s := by intros; rfl
@[simp] theorem exec_ptpMessage : ∀ port msg s, exec (.ptpMessage port msg) s = execPtpMessage port msg s := by intros; rfl
@[simp] theorem exec_ptpSend : ∀ port next s, exec (.ptpSend port next) s = execPtpSend port next s := by intros; rfl
@[simp] theorem exec_servoUpdate : ∀ s, exec .servoUpdate s = execServoUpdate s := by intros; rfl
@[simp] theorem exec_holdover : ∀ s, exec .holdover s = execHoldover s := by intros; rfl
@[simp] theorem exec_stepApply : ∀ s, exec .stepApply s = execStepApply s := by intros; rfl
@[simp] theorem exec_timeSet : ∀ s, exec .timeSet s = execTimeSet s := by intros; rfl
@[simp] theorem exec_frameIngress : ∀ port frame s, exec (.frameIngress port frame) s = execFrameIngress port frame s := by intros; rfl
@[simp] theorem exec_frameEgress : ∀ port s, exec (.frameEgress port) s = execFrameEgress port s := by intros; rfl
@[simp] theorem exec_frameAged : ∀ port queue s, exec (.frameAged port queue) s = execFrameAged port queue s := by intros; rfl
@[simp] theorem exec_gateListEntry : ∀ port s, exec (.gateListEntry port) s = execGateListEntry port s := by intros; rfl
@[simp] theorem exec_gclSwap : ∀ port s, exec (.gclSwap port) s = execGclSwap port s := by intros; rfl
@[simp] theorem exec_gclEntryAccess : ∀ write s, exec (.gclEntryAccess write) s = execGclEntryAccess write s := by intros; rfl
@[simp] theorem exec_addressAge : ∀ mac vid s, exec (.addressAge mac vid) s = execAddressAge mac vid s := by intros; rfl
@[simp] theorem exec_domainFrame : ∀ node pos ty s, exec (.domainFrame node pos ty) s = execDomainFrame node pos ty s := by intros; rfl
@[simp] theorem exec_netClrCounts : ∀ s, exec .netClrCounts s = execNetClrCounts s := by intros; rfl
@[simp] theorem exec_ringCycleStart : ∀ ring s, exec (.ringCycleStart ring) s = execRingCycleStart ring s := by intros; rfl
@[simp] theorem exec_rioCycle : ∀ ring frame fcsOk segs s, exec (.rioCycle ring frame fcsOk segs) s = execRioCycle ring frame fcsOk segs s := by intros; rfl
@[simp] theorem exec_rioEnum : ∀ ring upper ids s, exec (.rioEnum ring upper ids) s = execRioEnum ring upper ids s := by intros; rfl
@[simp] theorem exec_rioProbe : ∀ ring module trip s, exec (.rioProbe ring module trip) s = execRioProbe ring module trip s := by intros; rfl
@[simp] theorem exec_rioConfig : ∀ ring module s, exec (.rioConfig ring module) s = execRioConfig ring module s := by intros; rfl
@[simp] theorem exec_rioDiag : ∀ ring module bytes s, exec (.rioDiag ring module bytes) s = execRioDiag ring module bytes s := by intros; rfl
@[simp] theorem exec_ringSyncLoss : ∀ ring s, exec (.ringSyncLoss ring) s = execRingSyncLoss ring s := by intros; rfl
@[simp] theorem exec_rioClrCounts : ∀ s, exec .rioClrCounts s = execRioClrCounts s := by intros; rfl
@[simp] theorem exec_canFrameReceive : ∀ ctrl id dlc esi rtr data sof lost s, exec (.canFrameReceive ctrl id dlc esi rtr data sof lost) s = execCanFrameReceive ctrl id dlc esi rtr data sof lost s := by intros; rfl
@[simp] theorem exec_canFrameSent : ∀ ctrl obj age s, exec (.canFrameSent ctrl obj age) s = execCanFrameSent ctrl obj age s := by intros; rfl
@[simp] theorem exec_canError : ∀ ctrl obj kind tecUp recUp s, exec (.canError ctrl obj kind tecUp recUp) s = execCanError ctrl obj kind tecUp recUp s := by intros; rfl
@[simp] theorem exec_busOffRecovery : ∀ ctrl s, exec (.busOffRecovery ctrl) s = execBusOffRecovery ctrl s := by intros; rfl
@[simp] theorem exec_canSend : ∀ ctrl obj started s, exec (.canSend ctrl obj started) s = execCanSend ctrl obj started s := by intros; rfl
@[simp] theorem exec_canCancel : ∀ ctrl obj tooLate s, exec (.canCancel ctrl obj tooLate) s = execCanCancel ctrl obj tooLate s := by intros; rfl
@[simp] theorem exec_canFifoReadAdvance : ∀ ctrl fifo rd s, exec (.canFifoReadAdvance ctrl fifo rd) s = execCanFifoReadAdvance ctrl fifo rd s := by intros; rfl
@[simp] theorem exec_canClrCounts : ∀ s, exec .canClrCounts s = execCanClrCounts s := by intros; rfl
@[simp] theorem exec_recordWrite : ∀ s, exec .recordWrite s = execRecordWrite s := by intros; rfl
@[simp] theorem exec_mdwClearFault : ∀ s, exec .mdwClearFault s = execMdwClearFault s := by intros; rfl
@[simp] theorem exec_clearProcess : ∀ s, exec .clearProcess s = execClearProcess s := by intros; rfl
@[simp] theorem exec_closeFree : ∀ s, exec .closeFree s = execCloseFree s := by intros; rfl
@[simp] theorem exec_mdwRdSerialWrite : ∀ serial s, exec (.mdwRdSerialWrite serial) s = execMdwRdSerialWrite serial s := by intros; rfl
@[simp] theorem exec_mdwAdv : ∀ s, exec .mdwAdv s = execMdwAdv s := by intros; rfl
@[simp] theorem exec_mdwRdLoadDone : ∀ s, exec .mdwRdLoadDone s = execMdwRdLoadDone s := by intros; rfl
@[simp] theorem exec_traceFrameSend : ∀ sub s, exec (.traceFrameSend sub) s = execTraceFrameSend sub s := by intros; rfl
@[simp] theorem exec_mdwClrCounts : ∀ s, exec .mdwClrCounts s = execMdwClrCounts s := by intros; rfl
@[simp] theorem exec_mdwClrPeaks : ∀ s, exec .mdwClrPeaks s = execMdwClrPeaks s := by intros; rfl
@[simp] theorem exec_directoryRead : ∀ first second s, exec (.directoryRead first second) s = execDirectoryRead first second s := by intros; rfl
@[simp] theorem exec_copyVerify : ∀ copy data s, exec (.copyVerify copy data) s = execCopyVerify copy data s := by intros; rfl
@[simp] theorem exec_loadPass : ∀ data extra s, exec (.loadPass data extra) s = execLoadPass data extra s := by intros; rfl
@[simp] theorem exec_bootSelect : ∀ copy s, exec (.bootSelect copy) s = execBootSelect copy s := by intros; rfl
@[simp] theorem exec_bootLoadHost : ∀ s, exec .bootLoadHost s = execBootLoadHost s := by intros; rfl
@[simp] theorem exec_bootRetry : ∀ s, exec .bootRetry s = execBootRetry s := by intros; rfl
@[simp] theorem exec_bootApply : ∀ extra s, exec (.bootApply extra) s = execBootApply extra s := by intros; rfl
@[simp] theorem exec_changePersist : ∀ copies s, exec (.changePersist copies) s = execChangePersist copies s := by intros; rfl
@[simp] theorem exec_shpHello : ∀ req rand s, exec (.shpHello req rand) s = execShpHello req rand s := by intros; rfl
@[simp] theorem exec_shpOpen : ∀ req s, exec (.shpOpen req) s = execShpOpen req s := by intros; rfl
@[simp] theorem exec_shpClose : ∀ req s, exec (.shpClose req) s = execShpClose req s := by intros; rfl
@[simp] theorem exec_shpKeepalive : ∀ req s, exec (.shpKeepalive req) s = execShpKeepalive req s := by intros; rfl
@[simp] theorem exec_sessionIdle : ∀ session s, exec (.sessionIdle session) s = execSessionIdle session s := by intros; rfl
@[simp] theorem exec_regRead : ∀ req s, exec (.regRead req) s = execRegRead req s := by intros; rfl
@[simp] theorem exec_regWrite : ∀ req s, exec (.regWrite req) s = execRegWrite req s := by intros; rfl
@[simp] theorem exec_plainRead : ∀ req s, exec (.plainRead req) s = execPlainRead req s := by intros; rfl
@[simp] theorem exec_sigRead : ∀ req mixed remote s, exec (.sigRead req mixed remote) s = execSigRead req mixed remote s := by intros; rfl
@[simp] theorem exec_sigWrite : ∀ req s, exec (.sigWrite req) s = execSigWrite req s := by intros; rfl
@[simp] theorem exec_shpForce : ∀ req s, exec (.shpForce req) s = execShpForce req s := by intros; rfl
@[simp] theorem exec_shpSeq : ∀ req s, exec (.shpSeq req) s = execShpSeq req s := by intros; rfl
@[simp] theorem exec_shpLoop : ∀ req s, exec (.shpLoop req) s = execShpLoop req s := by intros; rfl
@[simp] theorem exec_shpAxis : ∀ req s, exec (.shpAxis req) s = execShpAxis req s := by intros; rfl
@[simp] theorem exec_recRead : ∀ req s, exec (.recRead req) s = execRecRead req s := by intros; rfl
@[simp] theorem exec_shpTrace : ∀ req s, exec (.shpTrace req) s = execShpTrace req s := by intros; rfl
@[simp] theorem exec_shpSafety : ∀ req msg s, exec (.shpSafety req msg) s = execShpSafety req msg s := by intros; rfl
@[simp] theorem exec_imagePut : ∀ req s, exec (.imagePut req) s = execImagePut req s := by intros; rfl
@[simp] theorem exec_imageApply : ∀ req extra s, exec (.imageApply req extra) s = execImageApply req extra s := by intros; rfl
@[simp] theorem exec_copyWrite : ∀ req s, exec (.copyWrite req) s = execCopyWrite req s := by intros; rfl
@[simp] theorem exec_testRecord : ∀ req s, exec (.testRecord req) s = execTestRecord req s := by intros; rfl
@[simp] theorem exec_shpTimeout : ∀ session s, exec (.shpTimeout session) s = execShpTimeout session s := by intros; rfl
@[simp] theorem exec_mailboxTimeout : ∀ unit s, exec (.mailboxTimeout unit) s = execMailboxTimeout unit s := by intros; rfl
@[simp] theorem exec_bar0Access : ∀ off size write s, exec (.bar0Access off size write) s = execBar0Access off size write s := by intros; rfl
@[simp] theorem exec_bar2Access : ∀ off write len s, exec (.bar2Access off write len) s = execBar2Access off write len s := by intros; rfl
@[simp] theorem exec_secProvision : ∀ priv s, exec (.secProvision priv) s = execSecProvision priv s := by intros; rfl
@[simp] theorem exec_secLock : ∀ priv s, exec (.secLock priv) s = execSecLock priv s := by intros; rfl
@[simp] theorem exec_secRetire : ∀ priv s, exec (.secRetire priv) s = execSecRetire priv s := by intros; rfl
@[simp] theorem exec_secRaiseSvn : ∀ priv s, exec (.secRaiseSvn priv) s = execSecRaiseSvn priv s := by intros; rfl
@[simp] theorem exec_secKeyWrite : ∀ priv s, exec (.secKeyWrite priv) s = execSecKeyWrite priv s := by intros; rfl
@[simp] theorem exec_keyDataWrite : ∀ data s, exec (.keyDataWrite data) s = execKeyDataWrite data s := by intros; rfl
@[simp] theorem exec_dbgChallenge : ∀ s, exec .dbgChallenge s = execDbgChallenge s := by intros; rfl
@[simp] theorem exec_challengeReady : ∀ rand s, exec (.challengeReady rand) s = execChallengeReady rand s := by intros; rfl
@[simp] theorem exec_dbgVerify : ∀ s, exec .dbgVerify s = execDbgVerify s := by intros; rfl
@[simp] theorem exec_verifyResult : ∀ s, exec .verifyResult s = execVerifyResult s := by intros; rfl
@[simp] theorem exec_challengeExpiry : ∀ s, exec .challengeExpiry s = execChallengeExpiry s := by intros; rfl
@[simp] theorem exec_dbgRequestFull : ∀ s, exec .dbgRequestFull s = execDbgRequestFull s := by intros; rfl
@[simp] theorem exec_dbgHalt : ∀ s, exec .dbgHalt s = execDbgHalt s := by intros; rfl
@[simp] theorem exec_dbgResume : ∀ s, exec .dbgResume s = execDbgResume s := by intros; rfl
@[simp] theorem exec_dbgDrop : ∀ s, exec .dbgDrop s = execDbgDrop s := by intros; rfl
@[simp] theorem exec_wakeTimer : ∀ s, exec .wakeTimer s = execWakeTimer s := by intros; rfl
@[simp] theorem exec_wakeLine : ∀ line s, exec (.wakeLine line) s = execWakeLine line s := by intros; rfl
@[simp] theorem exec_wakeComplete : ∀ s, exec .wakeComplete s = execWakeComplete s := by intros; rfl
@[simp] theorem exec_hibWake : ∀ extra s, exec (.hibWake extra) s = execHibWake extra s := by intros; rfl
@[simp] theorem exec_pwrHold : ∀ hold s, exec (.pwrHold hold) s = execPwrHold hold s := by intros; rfl
@[simp] theorem exec_pmcSnap : ∀ s, exec .pmcSnap s = execPmcSnap s := by intros; rfl
@[simp] theorem exec_pmcClear : ∀ s, exec .pmcClear s = execPmcClear s := by intros; rfl
@[simp] theorem exec_debugReset : ∀ s, exec .debugReset s = execDebugReset s := by intros; rfl
@[simp] theorem exec_debugPortAccess : ∀ access s, exec (.debugPortAccess access) s = execDebugPortAccess access s := by intros; rfl
@[simp] theorem exec_spllLock : ∀ good s, exec (.spllLock good) s = execSpllLock good s := by intros; rfl
@[simp] theorem exec_islandPorRelease : ∀ s, exec .islandPorRelease s = execIslandPorRelease s := by intros; rfl
@[simp] theorem exec_adcSupplyGood : ∀ s, exec .adcSupplyGood s = execAdcSupplyGood s := by intros; rfl
@[simp] theorem exec_sgmiiSynchronisation : ∀ ring s, exec (.sgmiiSynchronisation ring) s = execSgmiiSynchronisation ring s := by intros; rfl
@[simp] theorem exec_pcieL1Exit : ∀ s, exec .pcieL1Exit s = execPcieL1Exit s := by intros; rfl
@[simp] theorem exec_unknownType : ∀ ty req s, exec (.unknownType ty req) s = execUnknownType ty req s := by intros; rfl

end Sys2Proof.Machine
end

