-- ==== Sys2Proof/Laws/Keep.lean ====
section
/-!
SUPPORT. Laws/Keep.lean: what one operation may do to the tables in canonical form, to the queue of commands and to the mark of
an undefined case; the shapes from which every operation is built.
-/

namespace Sys2Proof.Machine

/-! ## The canonical form of tables -/

theorem above_set {α : Type} [DecidableEq α] (d : Nat → α) (b k : Nat) (v : α) (m : Sparse α) (h : Sparse.above b m = true)
    (hb : b < k) : Sparse.above b (Sparse.set d m k v) = true := by
  induction m with
  | nil => by_cases hv : v = d k <;> simp [Sparse.set, Sparse.above, hv, hb]
  | cons p t ih =>
    obtain ⟨a, w⟩ := p
    simp only [Sparse.above, List.all_cons, Bool.and_eq_true, decide_eq_true_eq] at h
    have ih := ih h.2
    simp only [Sparse.above] at ih
    simp only [Sparse.set]
    split
    · split <;> simp [Sparse.above, h, hb]
    · split
      · split <;> simp [Sparse.above, h, hb]
      · simp [Sparse.above, h, ih]

theorem above_of_lt {α : Type} (b k : Nat) (m : Sparse α) (h : Sparse.above k m = true) (hb : b < k) :
    Sparse.above b m = true := by
  simp only [Sparse.above, List.all_eq_true, decide_eq_true_eq] at *
  exact fun p hp => Nat.lt_trans hb (h p hp)

/-- A write keeps the canonical form. -/
theorem wf_set {α : Type} [DecidableEq α] (d : Nat → α) (m : Sparse α) (k : Nat) (v : α) (h : Sparse.wf d m = true) :
    Sparse.wf d (Sparse.set d m k v) = true := by
  induction m with
  | nil => by_cases hv : v = d k <;> simp [Sparse.set, Sparse.wf, Sparse.above, hv]
  | cons p t ih =>
    obtain ⟨a, w⟩ := p
    simp only [Sparse.wf, Bool.and_eq_true, decide_eq_true_eq] at h
    obtain ⟨⟨h1, h2⟩, h3⟩ := h
    simp only [Sparse.set]
    split
    · rename_i hk
      split
      · simp [Sparse.wf, h1, h2, h3]
      · rename_i hv
        have := above_of_lt k a t h1 hk
        simp only [Sparse.above] at this
        simp [Sparse.wf, Sparse.above, hk, hv, h2, h3]
        exact ⟨by simpa using this, by simpa [Sparse.above] using h1⟩
    · rename_i hk
      split
      · rename_i he
        subst he
        split
        · exact h3
        · rename_i hv
          simp [Sparse.wf, h1, h3, hv]
      · rename_i he
        have hlt : a < k := by omega
        simp [Sparse.wf, above_set d a k v t h1 hlt, h2, ih h3]

theorem above_filter {α : Type} (k : Nat) (p : Nat × α → Bool) (m : Sparse α) (h : Sparse.above k m = true) :
    Sparse.above k (m.filter p) = true := by
  simp only [Sparse.above, List.all_eq_true, List.mem_filter, and_imp] at *
  exact fun x hx _ => h x hx

/-- Leaving out entries keeps the canonical form. -/
theorem wf_filter {α : Type} [DecidableEq α] (d : Nat → α) (p : Nat × α → Bool) (m : Sparse α) (h : Sparse.wf d m = true) :
    Sparse.wf d (m.filter p) = true := by
  induction m with
  | nil => rfl
  | cons q t ih =>
    obtain ⟨a, w⟩ := q
    simp only [Sparse.wf, Bool.and_eq_true, decide_eq_true_eq] at h
    rw [List.filter_cons]
    split
    · simp [Sparse.wf, above_filter a p t h.1.1, h.1.2, ih h.2]
    · exact ih h.2

/-- The canonical form in words: keys strictly rising, no entry equal to what an unlisted key reads as. -/
theorem wf_iff {α : Type} [DecidableEq α] (d : Nat → α) (m : Sparse α) :
    Sparse.wf d m = true ↔ List.Pairwise (fun p q => p.1 < q.1) m ∧ ∀ p ∈ m, p.2 ≠ d p.1 := by
  induction m with
  | nil => simp [Sparse.wf]
  | cons p t ih =>
    simp only [Sparse.wf, Sparse.above, Bool.and_eq_true, ih, List.all_eq_true, decide_eq_true_eq, List.pairwise_cons,
      List.mem_cons, forall_eq_or_imp]
    tauto

/-- Storing bytes keeps the canonical form of a memory. -/
theorem wf_store (m : List Host.Cell) (a : Nat) (bs : List Byte) (h : Memory.wf m = true) :
    Memory.wf (Memory.store m a bs) = true := by
  induction bs generalizing m a with
  | nil => exact h
  | cons b t ih => exact ih _ _ (wf_set plainInit m a b h)

/-! ## What an operation keeps -/

/-- From `s` to `t` the canonical form is kept and the queue of commands is untouched; where `b` holds, no undefined case is
met. -/
def Rel (b : Bool) (s t : State) : Prop :=
  ((s.canonical = true → t.canonical = true) ∧ t.pending = s.pending) ∧ (b = true → t.trap = s.trap)

/-- The tables and the queue are kept. -/
abbrev Keep (s t : State) : Prop := Rel false s t

/-- As `Keep`, and no undefined case is met. -/
abbrev Still (s t : State) : Prop := Rel true s t

/-- What an outcome from `s` keeps: a next state keeps the tables and the queue, and met no undefined case; nothing is
refused. -/
def Good (s : State) (r : Res) : Prop :=
  (∀ t, r = .next t → Keep s t ∧ (s.trap = none → t.trap = none)) ∧ ∀ f, r ≠ .refused f

/-- An optional state keeps what `Still` says; a load under way keeps what `Keep` says. -/
def StillO (s : State) (o : Option State) : Prop := ∀ t, o = some t → Still s t
def KeepE (s : State) (o : Except (Nat × Nat) State) : Prop := ∀ t, o = .ok t → Keep s t

theorem Rel.refl {b : Bool} (s : State) : Rel b s s := ⟨⟨fun h => h, rfl⟩, fun _ => rfl⟩

theorem Rel.trans {b : Bool} {r s t : State} (h : Rel b r s) (g : Rel b s t) : Rel b r t :=
  ⟨⟨fun c => g.1.1 (h.1.1 c), g.1.2.trans h.1.2⟩, fun e => (g.2 e).trans (h.2 e)⟩

theorem Rel.weak {b : Bool} {s t : State} (h : Still s t) : Rel b s t := ⟨h.1, fun _ => h.2 rfl⟩

/-- An operation that keeps everything, after one that is known. -/
theorem Still.into {b : Bool} {r s t : State} (g : Still s t) (h : Rel b r s) : Rel b r t := h.trans (Rel.weak g)
theorem Keep.into {r s t : State} (g : Keep s t) (h : Keep r s) : Keep r t := h.trans g
theorem Rel.into {b : Bool} {r s t : State} (g : Rel b s t) (h : Rel b r s) : Rel b r t := h.trans g

theorem Rel.cut {b : Bool} {r x y : State} (h : Rel b r x) (g : Rel b r x → Rel b r y) : Rel b r y := g h
theorem Good.cut {r x : State} {y : Res} (h : Still r x) (g : Still r x → Good r y) : Good r y := g h
theorem Good.cutK {r x : State} {y : Res} (h : Keep r x) (g : Keep r x → Good r y) : Good r y := g h

theorem Rel.cutF {α : Type} {b : Bool} {r y : State} {x : α → State} (h : ∀ a, Rel b r (x a)) (g : (∀ a, Rel b r (x a)) → Rel b r y) :
    Rel b r y := g h
theorem Good.cutF {α : Type} {r : State} {y : Res} {x : α → State} (h : ∀ a, Still r (x a)) (g : (∀ a, Still r (x a)) → Good r y) :
    Good r y := g h
theorem Rel.cutG0 {b : Bool} {r y : State} {x : State → State} (h : ∀ t, Rel b r t → Rel b r (x t))
    (g : (∀ t, Rel b r t → Rel b r (x t)) → Rel b r y) : Rel b r y := g h
theorem Good.cutG0 {r : State} {y : Res} {x : State → State} (h : ∀ t b, Rel b r t → Rel b r (x t))
    (g : (∀ t b, Rel b r t → Rel b r (x t)) → Good r y) : Good r y := g h
theorem Rel.cutG {α : Type} {b : Bool} {r y : State} {x : State → α → State} (h : ∀ t a, Rel b r t → Rel b r (x t a))
    (g : (∀ t a, Rel b r t → Rel b r (x t a)) → Rel b r y) : Rel b r y := g h
theorem Good.cutG {α : Type} {r : State} {y : Res} {x : State → α → State} (h : ∀ t a b, Rel b r t → Rel b r (x t a))
    (g : (∀ t a b, Rel b r t → Rel b r (x t a)) → Good r y) : Good r y := g h
theorem Rel.cutG2 {α β : Type} {b : Bool} {r y : State} {x : State → α → β → State}
    (h : ∀ t a c, Rel b r t → Rel b r (x t a c)) (g : (∀ t a c, Rel b r t → Rel b r (x t a c)) → Rel b r y) : Rel b r y := g h
theorem Good.cutG2 {α β : Type} {r : State} {y : Res} {x : State → α → β → State}
    (h : ∀ t a c b, Rel b r t → Rel b r (x t a c)) (g : (∀ t a c b, Rel b r t → Rel b r (x t a c)) → Good r y) : Good r y := g h

theorem Rel.ofPair {α : Type} {b : Bool} {r s t : State} {p : State × α} {a : α} (h : p = (t, a)) (g : Still s p.1)
    (k : Rel b r s) : Rel b r t := by subst h; exact g.into k
theorem Keep.ofPair {α : Type} {r s t : State} {p : State × α} {a : α} (h : p = (t, a)) (g : Keep s p.1)
    (k : Keep r s) : Keep r t := by subst h; exact g.into k

theorem StillO.getD {r s : State} {o : Option State} (g : StillO s o) (h : Still r s) : Still r (o.getD s) := by
  cases o with
  | none => exact h
  | some t => exact (g t rfl).into h

theorem Good.next {s t : State} (h : Still s t) : Good s (.next t) := by
  refine ⟨fun u hu => ?_, fun f hf => by cases hf⟩
  cases hu
  exact ⟨⟨h.1, fun e => by cases e⟩, fun e => (h.2 rfl).trans e⟩

theorem Good.done {s t : State} (h : Keep s t) : Good s t.done := by
  unfold State.done
  split
  · refine ⟨fun u hu => ?_, fun f hf => by cases hf⟩
    cases hu
    exact ⟨h, fun _ => by assumption⟩
  · exact ⟨(fun u hu => by cases hu), (fun f hf => by cases hf)⟩

theorem Good.fault (s : State) (f : Fault) : Good s (.fault f) := ⟨(fun _ h => by cases h), (fun _ h => by cases h)⟩

theorem Good.into {r s : State} {o : Res} (g : Good s o) (h : Still r s) : Good r o :=
  ⟨fun t ht => ⟨(g.1 t ht).1.into ⟨h.1, fun e => by cases e⟩, fun e => (g.1 t ht).2 ((h.2 rfl).trans e)⟩, g.2⟩

theorem Good.ite {s : State} {c : Prop} [Decidable c] {x y : Res} (hx : Good s x) (hy : Good s y) :
    Good s (if c then x else y) := by split <;> assumption
theorem Rel.ite {b : Bool} {s : State} {c : Prop} [Decidable c] {x y : State} (hx : Rel b s x) (hy : Rel b s y) :
    Rel b s (if c then x else y) := by split <;> assumption

/-- The fields that are no table and no queue are free to change. -/
theorem Rel.upd {b : Bool} {s0 s : State} {v3 : UnitState} {v4 : ValesState} {v5 : TimeState} {v6 : ArbState} {v7 : SchState} {v8 : SigState} {v9 : SeqState} {v10 : LoopState} {v11 : Sparse LaneSt} {v12 : LogState} {v13 : Sparse Nat} {v14 : Nat} {v15 : JrnState} {v16 : MdwState} {v17 : AdcState} {v18 : MotState} {v19 : PosState} {v20 : SafState} {v21 : PairState} {v22 : CasState} {v23 : NetState} {v24 : RioState} {v25 : CanState} {v26 : BootState} {v27 : SecState} {v28 : PwrState} {v29 : HstState} {v30 : Nat} :
    Rel b s0 (State.mk s.regs s.plain s.retained v3 v4 v5 v6 v7 v8 v9 v10 v11 v12 v13 v14 v15 v16 v17 v18 v19 v20 v21 v22 v23 v24 v25 v26 v27 v28 v29 v30 s.trap s.pending) ↔ Rel b s0 s := Iff.rfl
theorem Keep.upd {s0 s : State} {v3 : UnitState} {v4 : ValesState} {v5 : TimeState} {v6 : ArbState} {v7 : SchState} {v8 : SigState} {v9 : SeqState} {v10 : LoopState} {v11 : Sparse LaneSt} {v12 : LogState} {v13 : Sparse Nat} {v14 : Nat} {v15 : JrnState} {v16 : MdwState} {v17 : AdcState} {v18 : MotState} {v19 : PosState} {v20 : SafState} {v21 : PairState} {v22 : CasState} {v23 : NetState} {v24 : RioState} {v25 : CanState} {v26 : BootState} {v27 : SecState} {v28 : PwrState} {v29 : HstState} {v30 : Nat} {w : Option Nat} :
    Rel false s0 (State.mk s.regs s.plain s.retained v3 v4 v5 v6 v7 v8 v9 v10 v11 v12 v13 v14 v15 v16 v17 v18 v19 v20 v21 v22 v23 v24 v25 v26 v27 v28 v29 v30 w s.pending) ↔ Rel false s0 s :=
  ⟨fun h => ⟨h.1, fun e => by cases e⟩, fun h => ⟨h.1, fun e => by cases e⟩⟩

theorem Rel.each {α : Type} {b : Bool} {s0 s : State} {l : List α} {f : State → α → State}
    (hf : ∀ t x, Rel b t (f t x)) (h : Rel b s0 s) : Rel b s0 (s.each l f) := by
  unfold State.each
  induction l generalizing s with
  | nil => exact h
  | cons a t ih => exact ih (h.trans (hf _ _))

theorem KeepE.foldlM {α : Type} {s : State} {l : List α} {f : State → α → Except (Nat × Nat) State}
    (hf : ∀ t x, KeepE t (f t x)) : KeepE s (l.foldlM f s) := by
  induction l generalizing s with
  | nil => intro t ht; cases ht; exact Rel.refl s
  | cons a l ih =>
    intro t ht
    rw [List.foldlM_cons] at ht
    cases hx : f s a with
    | error e => rw [hx] at ht; cases ht
    | ok u => rw [hx] at ht; exact (ih t ht).into (hf s a u hx)

/-- Dropping entries of a table keeps the canonical form. -/
theorem canonical_filter {s : State} {p q : Host.Cell → Bool} {k : Nat × Word → Bool} (h : s.canonical = true) :
    (Memory.wf (s.plain.filter p) && Memory.wf (s.retained.filter q) && Sparse.wf resetValue (s.regs.filter k)) = true := by
  simp only [State.canonical, Bool.and_eq_true] at *
  exact ⟨⟨wf_filter _ _ _ h.1.1, wf_filter _ _ _ h.1.2⟩, wf_filter _ _ _ h.2⟩

theorem Rel.foldl {α : Type} {b : Bool} {s0 s : State} {l : List α} {f : State → α → State}
    (hf : ∀ t x, Rel b t (f t x)) (h : Rel b s0 s) : Rel b s0 (l.foldl f s) := Rel.each hf h

end Sys2Proof.Machine
end

