-- ==== Sys2Proof/Laws/KeepOps.lean ====
section
/-!
SUPPORT. Laws/KeepOps.lean: what the operations of Machine/Ops.lean keep.
-/

namespace Sys2Proof.Machine

theorem State.undef_keep (s : State) (rule : Nat) : Keep s (s.undef rule) := ⟨⟨fun h => h, rfl⟩, fun e => by cases e⟩

theorem State.done_good (s : State) : Good s s.done := Good.done (Rel.refl s)

theorem State.useFree_still (s : State) : Still s (State.useFree s) := by
  unfold State.useFree
  repeat' first
    | with_reducible exact Rel.refl _
    | with_reducible assumption
    | simp -zeta -beta -eta -iota -proj -decide only [Rel.upd]

theorem State.setReg_still (s : State) (a : Nat) (w : Word) : Still s (s.setReg a w) := by
  refine ⟨⟨fun h => ?_, rfl⟩, fun _ => rfl⟩
  simp only [State.canonical, Bool.and_eq_true, State.setReg] at *
  exact ⟨h.1, wf_set _ _ _ _ h.2⟩

theorem State.setFld_still (s : State) (f : Fld) (v : ℕ) : Still s (State.setFld s f v) := by
  unfold State.setFld
  repeat' first
    | with_reducible exact Rel.refl _
    | with_reducible assumption
    | with_reducible refine (State.setReg_still ..).into ?_

theorem State.incFld_still (s : State) (f : Fld) (k : ℕ) : Still s (State.incFld s f k) := by
  unfold State.incFld
  repeat' first
    | with_reducible exact Rel.refl _
    | with_reducible assumption
    | with_reducible refine (State.setFld_still ..).into ?_

theorem State.wrapFld_still (s : State) (f : Fld) (k : ℕ) : Still s (State.wrapFld s f k) := by
  unfold State.wrapFld
  repeat' first
    | with_reducible exact Rel.refl _
    | with_reducible assumption
    | with_reducible refine (State.setFld_still ..).into ?_

theorem State.peakFld_still (s : State) (f : Fld) (v : ℕ) : Still s (State.peakFld s f v) := by
  unfold State.peakFld
  repeat' first
    | with_reducible exact Rel.refl _
    | with_reducible assumption
    | with_reducible refine (State.setFld_still ..).into ?_
    | simp -zeta -beta -eta -iota -proj -decide only [Rel.upd]
    | dsimp -zeta only
    | with_reducible refine Rel.ite ?_ ?_

theorem State.setBit_still (s : State) (f : Fld) (k : ℕ) : Still s (State.setBit s f k) := by
  unfold State.setBit
  repeat' first
    | with_reducible exact Rel.refl _
    | with_reducible assumption
    | with_reducible refine (State.setFld_still ..).into ?_

theorem State.clrBit_still (s : State) (f : Fld) (k : ℕ) : Still s (State.clrBit s f k) := by
  unfold State.clrBit
  repeat' first
    | with_reducible exact Rel.refl _
    | with_reducible assumption
    | with_reducible refine (State.setFld_still ..).into ?_

theorem State.clrReg_still (s : State) (a : ℕ) : Still s (State.clrReg s a) := by
  unfold State.clrReg
  repeat' first
    | with_reducible exact Rel.refl _
    | with_reducible assumption
    | with_reducible refine (State.setReg_still ..).into ?_

theorem State.clrRegs_still (s : State) (as : List Nat) : Still s (s.clrRegs as) := Rel.foldl (fun _ _ => State.setReg_still ..) (Rel.refl s)

theorem State.each_still {α : Type} {s : State} {l : List α} {f : State → α → State} (hf : ∀ t x, Still t (f t x)) : Still s (s.each l f) := Rel.each hf (Rel.refl s)

theorem State.regCommand_good (s : State) (f : State → State) (hf : ∀ t, Still t (f t)) : Good s (State.regCommand s f) := by
  unfold State.regCommand
  repeat' first
    | with_reducible exact Rel.refl _
    | with_reducible assumption
    | exact Good.fault _ _
    | with_reducible refine Good.next ?_
    | with_reducible refine Good.done ?_
    | with_reducible refine (hf ..).into ?_
    | simp -zeta -beta -eta -iota -proj -decide only [Rel.upd]
    | dsimp -zeta only
    | with_reducible refine Rel.ite ?_ ?_
    | with_reducible refine Good.ite ?_ ?_

theorem State.setPlain_still (s : State) (o : Nat) (bs : List Byte) : Still s (s.setPlain o bs) := by
  refine ⟨⟨fun h => ?_, rfl⟩, fun _ => rfl⟩
  simp only [State.canonical, Bool.and_eq_true, State.setPlain] at *
  exact ⟨⟨wf_store _ _ _ h.1.1, h.1.2⟩, h.2⟩

theorem State.setPw_still (s : State) (o : ℕ) (v : ℕ) : Still s (State.setPw s o v) := by
  unfold State.setPw
  repeat' first
    | with_reducible exact Rel.refl _
    | with_reducible assumption
    | with_reducible refine (State.setPlain_still ..).into ?_

theorem State.setPbits_still (s : State) (o : ℕ) (lo : ℕ) (w : ℕ) (v : ℕ) : Still s (State.setPbits s o lo w v) := by
  unfold State.setPbits
  repeat' first
    | with_reducible exact Rel.refl _
    | with_reducible assumption
    | with_reducible refine (State.setPw_still ..).into ?_

theorem State.setRet_still (s : State) (o : Nat) (bs : List Byte) : Still s (s.setRet o bs) := by
  refine ⟨⟨fun h => ?_, rfl⟩, fun _ => rfl⟩
  simp only [State.canonical, Bool.and_eq_true, State.setRet] at *
  exact ⟨⟨h.1.1, wf_store _ _ _ h.1.2⟩, h.2⟩

theorem State.setRw_still (s : State) (o : ℕ) (v : ℕ) : Still s (State.setRw s o v) := by
  unfold State.setRw
  repeat' first
    | with_reducible exact Rel.refl _
    | with_reducible assumption
    | with_reducible refine (State.setRet_still ..).into ?_

theorem State.pmcBump_still (s : State) (k : ℕ) (n : ℕ) : Still s (State.pmcBump s k n) := by
  unfold State.pmcBump
  repeat' first
    | with_reducible exact Rel.refl _
    | with_reducible assumption
    | with_reducible refine (State.setFld_still ..).into ?_
    | with_reducible refine (State.setBit_still ..).into ?_
    | (extract_lets +onlyGivenNames x; with_reducible refine Rel.cut (x := ?y) ?_ ?_; (case y => apply x); subst x; rotate_left; clear_value x; intro _)
    | (extract_lets +onlyGivenNames x; clear_value x)
    | extract_lets +onlyGivenNames x
    | simp -zeta -beta -eta -iota -proj -decide only [Rel.upd]
    | dsimp -zeta only
    | with_reducible refine Rel.ite ?_ ?_

theorem State.pmc_still (s : State) (ev : ℕ) (arg : ℕ) (n : ℕ) : Still s (State.pmc s ev arg n) := by
  unfold State.pmc
  repeat' first
    | with_reducible exact Rel.refl _
    | with_reducible assumption
    | with_reducible refine Rel.each (fun t x => ?_) ?_
    | with_reducible refine (State.pmcBump_still ..).into ?_
    | simp -zeta -beta -eta -iota -proj -decide only [Rel.upd]
    | dsimp -zeta only
    | with_reducible refine Rel.ite ?_ ?_

theorem State.pmcHist_still (s : State) (bin : ℕ → Fld) (sh : ℕ) (v : ℕ) : Still s (State.pmcHist s bin sh v) := by
  unfold State.pmcHist
  repeat' first
    | with_reducible exact Rel.refl _
    | with_reducible assumption
    | with_reducible refine (State.incFld_still ..).into ?_
    | simp -zeta -beta -eta -iota -proj -decide only [Rel.upd]
    | dsimp -zeta only
    | with_reducible refine Rel.ite ?_ ?_

theorem State.postRec_still (s : State) (e : EventRec) : Still s (State.postRec s e) := by
  unfold State.postRec
  repeat' first
    | with_reducible exact Rel.refl _
    | with_reducible assumption
    | with_reducible refine (State.pmc_still ..).into ?_
    | with_reducible refine (State.peakFld_still ..).into ?_
    | with_reducible refine (State.setFld_still ..).into ?_
    | with_reducible refine (State.incFld_still ..).into ?_
    | (extract_lets +onlyGivenNames x; with_reducible refine Rel.cut (x := ?y) ?_ ?_; (case y => apply x); subst x; rotate_left; intro _)
    | (extract_lets +onlyGivenNames x)
    | extract_lets +onlyGivenNames x
    | simp -zeta -beta -eta -iota -proj -decide only [Rel.upd]
    | dsimp -zeta only
    | with_reducible refine Rel.ite ?_ ?_
    | split

theorem State.post_still (s : State) (source : ℕ) (code : ℕ) (fault : Bool) (data : List ℕ) : Still s (State.post s source code fault data) := by
  unfold State.post
  repeat' first
    | with_reducible exact Rel.refl _
    | with_reducible assumption
    | with_reducible refine (State.postRec_still ..).into ?_

theorem State.setTimeout_still (s : State) (u : ℕ) (e : Option ℕ) : Still s (State.setTimeout s u e) := by
  unfold State.setTimeout
  repeat' first
    | with_reducible exact Rel.refl _
    | with_reducible assumption
    | (extract_lets +onlyGivenNames x)
    | extract_lets +onlyGivenNames x
    | simp -zeta -beta -eta -iota -proj -decide only [Rel.upd]

theorem State.wakeUp_still (s : State) (cause : ℕ) : Still s (State.wakeUp s cause) := by
  unfold State.wakeUp
  repeat' first
    | with_reducible exact Rel.refl _
    | with_reducible assumption
    | with_reducible refine (State.setFld_still ..).into ?_
    | (extract_lets +onlyGivenNames x; with_reducible refine Rel.cut (x := ?y) ?_ ?_; (case y => apply x); subst x; rotate_left; clear_value x; intro _)
    | (extract_lets +onlyGivenNames x; clear_value x)
    | extract_lets +onlyGivenNames x
    | simp -zeta -beta -eta -iota -proj -decide only [Rel.upd]
    | dsimp -zeta only
    | with_reducible refine Rel.ite ?_ ?_

theorem State.setSess_still (s : State) (k : ℕ) (v : Option ShpSess) : Still s (State.setSess s k v) := by
  unfold State.setSess
  repeat' first
    | with_reducible exact Rel.refl _
    | with_reducible assumption
    | (extract_lets +onlyGivenNames x)
    | extract_lets +onlyGivenNames x
    | simp -zeta -beta -eta -iota -proj -decide only [Rel.upd]

theorem State.shpSend_still (s : State) (r : ShpReq) (ty : ℕ) (status : ℕ) (result : ℕ) (payload : List Byte) : Still s (State.shpSend s r ty status result payload) := by
  unfold State.shpSend
  repeat' first
    | with_reducible exact Rel.refl _
    | with_reducible assumption
    | with_reducible refine (State.incFld_still ..).into ?_
    | (extract_lets +onlyGivenNames x; with_reducible refine Rel.cut (x := ?y) ?_ ?_; (case y => apply x); subst x; rotate_left; intro _)
    | (extract_lets +onlyGivenNames x)
    | extract_lets +onlyGivenNames x
    | simp -zeta -beta -eta -iota -proj -decide only [Rel.upd]
    | dsimp -zeta only
    | with_reducible refine Rel.ite ?_ ?_

theorem State.shpReply_still (s : State) (r : ShpReq) (ty : ℕ) (status : ℕ) (result : ℕ) (payload : List Byte) : Still s (State.shpReply s r ty status result payload) := by
  unfold State.shpReply
  repeat' first
    | with_reducible exact Rel.refl _
    | with_reducible assumption
    | with_reducible refine (State.shpSend_still ..).into ?_
    | with_reducible refine (State.setSess_still ..).into ?_
    | (extract_lets +onlyGivenNames x; with_reducible refine Rel.cut (x := ?y) ?_ ?_; (case y => apply x); subst x; rotate_left; clear_value x; intro _)
    | extract_lets +onlyGivenNames x
    | simp -zeta -beta -eta -iota -proj -decide only [Rel.upd]
    | dsimp -zeta only
    | with_reducible refine Rel.ite ?_ ?_
    | split

theorem State.shpAnswer_still (s : State) (k : ℕ) (status : ℕ) (result : ℕ) (payload : List Byte) : Still s (State.shpAnswer s k status result payload) := by
  unfold State.shpAnswer
  repeat' first
    | with_reducible exact Rel.refl _
    | with_reducible assumption
    | with_reducible refine (State.shpReply_still ..).into ?_
    | with_reducible refine (State.setTimeout_still ..).into ?_
    | with_reducible refine (State.incFld_still ..).into ?_
    | simp -zeta -beta -eta -iota -proj -decide only [Rel.upd]
    | dsimp -zeta only
    | with_reducible refine Rel.ite ?_ ?_
    | split

theorem State.shpIsland_still (s : State) (serial : ℕ) : Still s (State.shpIsland s serial) := by
  unfold State.shpIsland
  repeat' first
    | with_reducible exact Rel.refl _
    | with_reducible assumption
    | with_reducible refine (State.useFree_still ..).into ?_
    | with_reducible refine (State.shpAnswer_still ..).into ?_
    | simp -zeta -beta -eta -iota -proj -decide only [Rel.upd]
    | dsimp -zeta only
    | with_reducible refine Rel.ite ?_ ?_
    | split

end Sys2Proof.Machine
end

