-- ==== Sys2Proof/Laws/KeepSignals.lean ====
section
/-!
SUPPORT. Laws/KeepSignals.lean: what the operations of Machine/Signals.lean keep.
-/

namespace Sys2Proof.Machine

theorem State.markOpen_still (s : State) (k : ℕ) : Still s (State.markOpen s k) := by
  unfold State.markOpen
  repeat' first
    | with_reducible exact Rel.refl _
    | with_reducible assumption
    | (extract_lets +onlyGivenNames x)
    | extract_lets +onlyGivenNames x
    | simp -zeta -beta -eta -iota -proj -decide only [Rel.upd]
    | dsimp -zeta only
    | with_reducible refine Rel.ite ?_ ?_

theorem State.outNow_still (s : State) (k : ℕ) (w : ℕ) : Still s (State.outNow s k w) := by
  unfold State.outNow
  repeat' first
    | with_reducible exact Rel.refl _
    | with_reducible assumption
    | with_reducible refine (State.markOpen_still ..).into ?_
    | with_reducible refine (State.setPw_still ..).into ?_

theorem State.outWrite_still (s : State) (k : ℕ) (w : ℕ) : Still s (State.outWrite s k w) := by
  unfold State.outWrite
  repeat' first
    | with_reducible exact Rel.refl _
    | with_reducible assumption
    | with_reducible refine (State.peakFld_still ..).into ?_
    | with_reducible refine (State.incFld_still ..).into ?_
    | with_reducible refine (State.outNow_still ..).into ?_
    | (extract_lets +onlyGivenNames x; with_reducible refine Rel.cut (x := ?y) ?_ ?_; (case y => apply x); subst x; rotate_left; intro _)
    | (extract_lets +onlyGivenNames x)
    | extract_lets +onlyGivenNames x
    | simp -zeta -beta -eta -iota -proj -decide only [Rel.upd]
    | dsimp -zeta only
    | with_reducible refine Rel.ite ?_ ?_

theorem State.putSig_still (s : State) (i : ℕ) (w : ℕ) : Still s (State.putSig s i w) := by
  unfold State.putSig
  repeat' first
    | with_reducible exact Rel.refl _
    | with_reducible assumption
    | with_reducible refine (State.outWrite_still ..).into ?_

theorem State.putGrp_still (s : State) (g : ℕ) (w0 : ℕ) (w1 : ℕ) : Still s (State.putGrp s g w0 w1) := by
  unfold State.putGrp
  repeat' first
    | with_reducible exact Rel.refl _
    | with_reducible assumption
    | with_reducible refine (State.outWrite_still ..).into ?_

theorem State.markLine_still (s : State) (o : ℕ) : Still s (State.markLine s o) := by
  unfold State.markLine
  repeat' first
    | with_reducible exact Rel.refl _
    | with_reducible assumption
    | with_reducible refine (State.setFld_still ..).into ?_
    | (extract_lets +onlyGivenNames x; with_reducible refine Rel.cutF (x := x) (fun _ => ?_) ?_; subst x; rotate_left; clear_value x; intro _)
    | (extract_lets +onlyGivenNames x; clear_value x)
    | extract_lets +onlyGivenNames x
    | with_reducible apply_assumption -exfalso -symm
    | simp -zeta -beta -eta -iota -proj -decide only [Rel.upd]
    | dsimp -zeta only
    | with_reducible refine Rel.ite ?_ ?_

theorem State.storeByte_still (s : State) (o : ℕ) (b : Byte) : Still s (State.storeByte s o b) := by
  unfold State.storeByte
  repeat' first
    | with_reducible exact Rel.refl _
    | with_reducible assumption
    | with_reducible refine (State.outWrite_still ..).into ?_
    | with_reducible refine (State.markLine_still ..).into ?_
    | with_reducible refine (State.setPlain_still ..).into ?_
    | simp -zeta -beta -eta -iota -proj -decide only [Rel.upd]
    | dsimp -zeta only
    | with_reducible refine Rel.ite ?_ ?_
    | split

theorem State.storeBytes_still (s : State) (o : ℕ) (bs : List Byte) : Still s (State.storeBytes s o bs) := by
  induction bs generalizing s o with
  | nil => exact Rel.refl s
  | cons b t ih => exact (ih _ _).into (State.storeByte_still ..)

theorem State.busWrite_still (s : State) (port : ℕ) (o : ℕ) (bs : List Byte) : Still s (State.busWrite s port o bs) := by
  unfold State.busWrite
  repeat' first
    | with_reducible exact Rel.refl _
    | with_reducible assumption
    | with_reducible refine (State.setPlain_still ..).into ?_
    | with_reducible refine (State.setFld_still ..).into ?_
    | with_reducible refine (State.incFld_still ..).into ?_
    | with_reducible refine (State.storeBytes_still ..).into ?_
    | simp -zeta -beta -eta -iota -proj -decide only [Rel.upd]
    | dsimp -zeta only
    | with_reducible refine Rel.ite ?_ ?_

theorem State.busWord_still (s : State) (port : ℕ) (o : ℕ) (w : ℕ) : Still s (State.busWord s port o w) := by
  unfold State.busWord
  repeat' first
    | with_reducible exact Rel.refl _
    | with_reducible assumption
    | with_reducible refine (State.busWrite_still ..).into ?_

theorem State.psRetire_still (s : State) (e : ℕ) (pc : ℕ) (word : ℕ) (daddr : ℕ) : Still s (State.psRetire s e pc word daddr) := by
  unfold State.psRetire
  repeat' first
    | with_reducible exact Rel.refl _
    | with_reducible assumption
    | with_reducible refine (State.useFree_still ..).into ?_
    | with_reducible refine (State.busWord_still ..).into ?_
    | with_reducible refine (State.setFld_still ..).into ?_
    | (extract_lets +onlyGivenNames x; with_reducible refine Rel.cut (x := ?y) ?_ ?_; (case y => apply x); subst x; rotate_left; clear_value x; intro _)
    | (extract_lets +onlyGivenNames x; clear_value x)
    | extract_lets +onlyGivenNames x
    | simp -zeta -beta -eta -iota -proj -decide only [Rel.upd]
    | dsimp -zeta only
    | with_reducible refine Rel.ite ?_ ?_

theorem State.setForce_still (s : State) (k : ℕ) (f : Option ForceSlot) : Still s (State.setForce s k f) := by
  unfold State.setForce
  repeat' first
    | with_reducible exact Rel.refl _
    | with_reducible assumption
    | (extract_lets +onlyGivenNames x)
    | extract_lets +onlyGivenNames x
    | simp -zeta -beta -eta -iota -proj -decide only [Rel.upd]

theorem State.noteForce_still (s : State) (i : ℕ) (v : Option Word) : Still s (State.noteForce s i v) := by
  unfold State.noteForce
  repeat' first
    | with_reducible exact Rel.refl _
    | with_reducible assumption
    | (extract_lets +onlyGivenNames x)
    | extract_lets +onlyGivenNames x
    | simp -zeta -beta -eta -iota -proj -decide only [Rel.upd]
    | dsimp -zeta only
    | with_reducible refine Rel.ite ?_ ?_

theorem State.forceSet_still (s : State) (i : ℕ) (v : Word) : Still s (State.forceSet s i v).1 := by
  unfold State.forceSet
  repeat' first
    | with_reducible exact Rel.refl _
    | with_reducible assumption
    | with_reducible refine (State.noteForce_still ..).into ?_
    | with_reducible refine (State.setForce_still ..).into ?_
    | simp -zeta -beta -eta -iota -proj -decide only [Rel.upd]
    | dsimp -zeta only
    | with_reducible refine Rel.ite ?_ ?_
    | split

theorem State.forceRelease_still (s : State) (i : ℕ) : Still s (State.forceRelease s i).1 := by
  unfold State.forceRelease
  repeat' first
    | with_reducible exact Rel.refl _
    | with_reducible assumption
    | with_reducible refine (State.noteForce_still ..).into ?_
    | with_reducible refine (State.setForce_still ..).into ?_
    | simp -zeta -beta -eta -iota -proj -decide only [Rel.upd]
    | dsimp -zeta only
    | with_reducible refine Rel.ite ?_ ?_
    | split

theorem State.forceReleaseAll_still (s : State) : Still s (State.forceReleaseAll s) := by
  unfold State.forceReleaseAll
  repeat' first
    | with_reducible exact Rel.refl _
    | with_reducible assumption
    | with_reducible refine Rel.each (fun t x => ?_) ?_
    | with_reducible refine (State.noteForce_still ..).into ?_
    | with_reducible refine (State.setForce_still ..).into ?_

theorem State.forceBoundary_still (s : State) : Still s (State.forceBoundary s) := by
  unfold State.forceBoundary
  repeat' first
    | with_reducible exact Rel.refl _
    | with_reducible assumption
    | with_reducible refine Rel.each (fun t x => ?_) ?_
    | with_reducible refine (State.setForce_still ..).into ?_

theorem State.setCur_still (s : State) (i : ℕ) (w : ℕ) : Still s (State.setCur s i w) := by
  unfold State.setCur
  repeat' first
    | with_reducible exact Rel.refl _
    | with_reducible assumption
    | with_reducible refine (State.setPw_still ..).into ?_

theorem State.turnGrp_still (s : State) (g : ℕ) : Still s (State.turnGrp s g) := by
  unfold State.turnGrp
  repeat' first
    | with_reducible exact Rel.refl _
    | with_reducible assumption
    | with_reducible refine (State.setPw_still ..).into ?_

theorem State.ageGrp_still (s : State) (g : ℕ) : Still s (State.ageGrp s g) := by
  unfold State.ageGrp
  repeat' first
    | with_reducible exact Rel.refl _
    | with_reducible assumption
    | with_reducible refine (State.setPbits_still ..).into ?_

theorem State.latchGrp_still (s : State) (g : ℕ) (st : ℕ) (sampled : Option ℕ) : Still s (State.latchGrp s g st sampled) := by
  unfold State.latchGrp
  repeat' first
    | with_reducible exact Rel.refl _
    | with_reducible assumption
    | with_reducible refine (State.setPw_still ..).into ?_
    | (extract_lets +onlyGivenNames x; with_reducible refine Rel.cut (x := ?y) ?_ ?_; (case y => apply x); subst x; rotate_left; clear_value x; intro _)
    | (extract_lets +onlyGivenNames x; clear_value x)
    | extract_lets +onlyGivenNames x
    | simp -zeta -beta -eta -iota -proj -decide only [Rel.upd]
    | dsimp -zeta only
    | with_reducible refine Rel.ite ?_ ?_
    | split

theorem State.turn_still (s : State) (released : List ℕ) : Still s (State.turn s released) := by
  unfold State.turn
  repeat' first
    | with_reducible exact Rel.refl _
    | with_reducible assumption
    | with_reducible refine Rel.each (fun t x => ?_) ?_
    | with_reducible refine (State.setCur_still ..).into ?_
    | with_reducible refine (State.turnGrp_still ..).into ?_
    | with_reducible refine (State.ageGrp_still ..).into ?_
    | with_reducible refine (State.peakFld_still ..).into ?_
    | with_reducible refine (State.setFld_still ..).into ?_
    | (extract_lets +onlyGivenNames x)
    | extract_lets +onlyGivenNames x
    | simp -zeta -beta -eta -iota -proj -decide only [Rel.upd]
    | dsimp -zeta only
    | with_reducible refine Rel.ite ?_ ?_

theorem State.applyParked_still (s : State) : Still s (State.applyParked s) := by
  unfold State.applyParked
  repeat' first
    | with_reducible exact Rel.refl _
    | with_reducible assumption
    | with_reducible refine Rel.each (fun t x => ?_) ?_
    | with_reducible refine (State.outNow_still ..).into ?_
    | (extract_lets +onlyGivenNames x; with_reducible refine Rel.cut (x := ?y) ?_ ?_; (case y => apply x); subst x; rotate_left; intro _)
    | (extract_lets +onlyGivenNames x)
    | extract_lets +onlyGivenNames x
    | simp -zeta -beta -eta -iota -proj -decide only [Rel.upd]

theorem State.freezeSets_still (s : State) : Still s (State.freezeSets s) := by
  unfold State.freezeSets
  repeat' first
    | with_reducible exact Rel.refl _
    | with_reducible assumption
    | (extract_lets +onlyGivenNames x)
    | extract_lets +onlyGivenNames x
    | simp -zeta -beta -eta -iota -proj -decide only [Rel.upd]

theorem State.remapForces_still (s : State) (keys : List (ℕ × ℕ)) (keyed : ℕ → Option ℕ) : Still s (State.remapForces s keys keyed) := by
  unfold State.remapForces
  repeat' first
    | with_reducible exact Rel.refl _
    | with_reducible assumption
    | with_reducible refine Rel.each (fun t x => ?_) ?_
    | with_reducible refine (State.setForce_still ..).into ?_
    | with_reducible refine (State.post_still ..).into ?_
    | (extract_lets +onlyGivenNames x)
    | extract_lets +onlyGivenNames x
    | simp -zeta -beta -eta -iota -proj -decide only [Rel.upd]
    | dsimp -zeta only
    | with_reducible refine Rel.ite ?_ ?_
    | split

theorem execForceSet_good (s : State) : Good s (execForceSet s) := by
  unfold execForceSet
  repeat' first
    | with_reducible exact Rel.refl _
    | with_reducible assumption
    | exact Good.fault _ _
    | with_reducible refine Good.next ?_
    | with_reducible refine Good.done ?_
    | with_reducible refine (State.regCommand_good (hf := fun t => ?_) ..).into ?_
    | with_reducible refine (State.forceSet_still ..).into ?_
    | with_reducible refine Rel.ofPair (by assumption) (State.forceSet_still ..) ?_
    | with_reducible refine (State.setFld_still ..).into ?_

theorem execForceRelease_good (s : State) : Good s (execForceRelease s) := by
  unfold execForceRelease
  repeat' first
    | with_reducible exact Rel.refl _
    | with_reducible assumption
    | exact Good.fault _ _
    | with_reducible refine Good.next ?_
    | with_reducible refine Good.done ?_
    | with_reducible refine (State.regCommand_good (hf := fun t => ?_) ..).into ?_
    | with_reducible refine (State.forceRelease_still ..).into ?_
    | with_reducible refine Rel.ofPair (by assumption) (State.forceRelease_still ..) ?_
    | with_reducible refine (State.setFld_still ..).into ?_

theorem execForceReleaseAll_good (s : State) : Good s (execForceReleaseAll s) := by
  unfold execForceReleaseAll
  repeat' first
    | with_reducible exact Rel.refl _
    | with_reducible assumption
    | exact Good.fault _ _
    | with_reducible refine Good.next ?_
    | with_reducible refine Good.done ?_
    | with_reducible refine (State.regCommand_good (hf := fun t => ?_) ..).into ?_
    | with_reducible refine (State.setFld_still ..).into ?_
    | with_reducible refine (State.forceReleaseAll_still ..).into ?_

theorem execSigClrStats_good (s : State) : Good s (execSigClrStats s) := by
  unfold execSigClrStats
  repeat' first
    | with_reducible exact Rel.refl _
    | with_reducible assumption
    | exact Good.fault _ _
    | with_reducible refine Good.next ?_
    | with_reducible refine Good.done ?_
    | with_reducible refine (State.clrReg_still ..).into ?_
    | with_reducible refine (State.setFld_still ..).into ?_

end Sys2Proof.Machine
end

