-- ==== Sys2Proof/Laws/KeepPlain.lean ====
section
/-!
SUPPORT. Laws/KeepPlain.lean: what the operations of Machine/Plain.lean keep.
-/

namespace Sys2Proof.Machine

theorem State.setPort_still (s : State) (p : ℕ) (v : PortState) : Still s (State.setPort s p v) := by
  unfold State.setPort
  repeat' first
    | with_reducible exact Rel.refl _
    | with_reducible assumption
    | (extract_lets +onlyGivenNames x)
    | extract_lets +onlyGivenNames x
    | simp -zeta -beta -eta -iota -proj -decide only [Rel.upd]

theorem State.eccCount_still (s : State) (e : EccEvent) (o : ℕ) : Still s (State.eccCount s e o) := by
  unfold State.eccCount
  repeat' first
    | with_reducible exact Rel.refl _
    | with_reducible assumption
    | with_reducible refine (State.incFld_still ..).into ?_
    | with_reducible refine (State.setReg_still ..).into ?_
    | simp -zeta -beta -eta -iota -proj -decide only [Rel.upd]
    | dsimp -zeta only
    | with_reducible refine Rel.ite ?_ ?_
    | split

theorem State.access_still (s : State) (t : Txn) (e : EccEvent) : Still s (State.access s t e) := by
  unfold State.access
  repeat' first
    | with_reducible exact Rel.refl _
    | with_reducible assumption
    | with_reducible refine (State.busWrite_still ..).into ?_
    | with_reducible refine (State.eccCount_still ..).into ?_
    | (extract_lets +onlyGivenNames x; with_reducible refine Rel.cut (x := ?y) ?_ ?_; (case y => apply x); subst x; rotate_left; clear_value x; intro _)
    | (extract_lets +onlyGivenNames x; with_reducible refine Rel.cutG (x := x) (fun _ _ _ => ?_) ?_; subst x; rotate_left; clear_value x; intro _)
    | (extract_lets +onlyGivenNames x; clear_value x)
    | extract_lets +onlyGivenNames x
    | with_reducible apply_assumption -exfalso -symm
    | simp -zeta -beta -eta -iota -proj -decide only [Rel.upd]
    | dsimp -zeta only
    | with_reducible refine Rel.ite ?_ ?_
    | split

theorem State.grant_still (s : State) (p : ℕ) (e : EccEvent) : Still s (State.grant s p e) := by
  unfold State.grant
  repeat' first
    | with_reducible exact Rel.refl _
    | with_reducible assumption
    | with_reducible refine (State.peakFld_still ..).into ?_
    | with_reducible refine (State.setBit_still ..).into ?_
    | with_reducible refine (State.pmc_still ..).into ?_
    | with_reducible refine (State.pmcHist_still ..).into ?_
    | with_reducible refine (State.access_still ..).into ?_
    | with_reducible refine (State.setPort_still ..).into ?_
    | (extract_lets +onlyGivenNames x; with_reducible refine Rel.cut (x := ?y) ?_ ?_; (case y => apply x); subst x; rotate_left; clear_value x; intro _)
    | (extract_lets +onlyGivenNames x; clear_value x)
    | extract_lets +onlyGivenNames x
    | simp -zeta -beta -eta -iota -proj -decide only [Rel.upd]
    | dsimp -zeta only
    | with_reducible refine Rel.ite ?_ ?_
    | split

theorem State.arbitrate_still (s : State) (e : EccEvent) : Still s (State.arbitrate s e) := by
  unfold State.arbitrate
  repeat' first
    | with_reducible exact Rel.refl _
    | with_reducible assumption
    | with_reducible refine (State.grant_still ..).into ?_
    | with_reducible refine (State.pmc_still ..).into ?_
    | (extract_lets +onlyGivenNames x; with_reducible refine Rel.cut (x := ?y) ?_ ?_; (case y => apply x); subst x; rotate_left; intro _)
    | (extract_lets +onlyGivenNames x)
    | extract_lets +onlyGivenNames x
    | simp -zeta -beta -eta -iota -proj -decide only [Rel.upd]
    | dsimp -zeta only
    | with_reducible refine Rel.ite ?_ ?_
    | split

theorem State.restartBlocked_still (s : State) : Still s (State.restartBlocked s) := by
  unfold State.restartBlocked
  repeat' first
    | with_reducible exact Rel.refl _
    | with_reducible assumption
    | with_reducible refine Rel.each (fun t x => ?_) ?_
    | with_reducible refine (State.setPort_still ..).into ?_
    | (extract_lets +onlyGivenNames x)
    | extract_lets +onlyGivenNames x
    | simp -zeta -beta -eta -iota -proj -decide only [Rel.upd]
    | dsimp -zeta only
    | with_reducible refine Rel.ite ?_ ?_

theorem State.pmcWaits_still (s : State) : Still s (State.pmcWaits s) := by
  unfold State.pmcWaits
  repeat' first
    | with_reducible exact Rel.refl _
    | with_reducible assumption
    | with_reducible refine Rel.each (fun t x => ?_) ?_
    | with_reducible refine (State.pmc_still ..).into ?_
    | simp -zeta -beta -eta -iota -proj -decide only [Rel.upd]
    | dsimp -zeta only
    | with_reducible refine Rel.ite ?_ ?_

theorem State.present_still (s : State) (p : ℕ) (ts : List Txn) : Still s (State.present s p ts) := by
  unfold State.present
  repeat' first
    | with_reducible exact Rel.refl _
    | with_reducible assumption
    | with_reducible refine (State.setPort_still ..).into ?_

theorem execPlnClrWait_good (s : State) : Good s (execPlnClrWait s) := by
  unfold execPlnClrWait
  repeat' first
    | with_reducible exact Rel.refl _
    | with_reducible assumption
    | exact Good.fault _ _
    | with_reducible refine Good.next ?_
    | with_reducible refine Good.done ?_
    | with_reducible refine (State.clrRegs_still ..).into ?_

theorem execPlnClrEcc_good (s : State) : Good s (execPlnClrEcc s) := by
  unfold execPlnClrEcc
  repeat' first
    | with_reducible exact Rel.refl _
    | with_reducible assumption
    | exact Good.fault _ _
    | with_reducible refine Good.next ?_
    | with_reducible refine Good.done ?_
    | with_reducible refine (State.clrRegs_still ..).into ?_

theorem execPlnClrWin_good (s : State) : Good s (execPlnClrWin s) := by
  unfold execPlnClrWin
  repeat' first
    | with_reducible exact Rel.refl _
    | with_reducible assumption
    | exact Good.fault _ _
    | with_reducible refine Good.next ?_
    | with_reducible refine Good.done ?_
    | with_reducible refine (State.clrReg_still ..).into ?_

end Sys2Proof.Machine
end

