-- ==== Sys2Proof/Laws/KeepSched.lean ====
section
/-!
SUPPORT. Laws/KeepSched.lean: what the operations of Machine/Sched.lean keep.
-/

namespace Sys2Proof.Machine

theorem State.setJState_still (s : State) (i : ℕ) (v : ℕ) : Still s (State.setJState s i v) := by
  unfold State.setJState
  repeat' first
    | with_reducible exact Rel.refl _
    | with_reducible assumption
    | with_reducible refine (State.setPbits_still ..).into ?_

theorem State.noteOcc_still (s : State) (c : ℕ) : Still s (State.noteOcc s c) := by
  unfold State.noteOcc
  repeat' first
    | with_reducible exact Rel.refl _
    | with_reducible assumption
    | with_reducible refine (State.peakFld_still ..).into ?_
    | with_reducible refine (State.setFld_still ..).into ?_

theorem State.setRunning_still (s : State) (e : ℕ) (j : Option ℕ) : Still s (State.setRunning s e j) := by
  unfold State.setRunning
  repeat' first
    | with_reducible exact Rel.refl _
    | with_reducible assumption
    | (extract_lets +onlyGivenNames x)
    | extract_lets +onlyGivenNames x
    | simp -zeta -beta -eta -iota -proj -decide only [Rel.upd]

theorem State.assign_still (s : State) (i : ℕ) (e : ℕ) : Still s (State.assign s i e) := by
  unfold State.assign
  repeat' first
    | with_reducible exact Rel.refl _
    | with_reducible assumption
    | with_reducible refine (State.setPbits_still ..).into ?_
    | with_reducible refine (State.setJState_still ..).into ?_
    | with_reducible refine (State.pmc_still ..).into ?_
    | with_reducible refine (State.setRunning_still ..).into ?_

theorem State.fillEngines_still (s : State) (es : List ℕ) : Still s (State.fillEngines s es) := by
  unfold State.fillEngines
  repeat' first
    | with_reducible exact Rel.refl _
    | with_reducible assumption
    | with_reducible refine Rel.each (fun t x => ?_) ?_
    | with_reducible refine (State.assign_still ..).into ?_
    | simp -zeta -beta -eta -iota -proj -decide only [Rel.upd]
    | dsimp -zeta only
    | with_reducible refine Rel.ite ?_ ?_
    | split

theorem State.preempt_still (s : State) : Still s (State.preempt s) := by
  unfold State.preempt
  repeat' first
    | with_reducible exact Rel.refl _
    | with_reducible assumption
    | with_reducible refine (State.pmc_still ..).into ?_
    | with_reducible refine (State.assign_still ..).into ?_
    | with_reducible refine (State.setRunning_still ..).into ?_
    | with_reducible refine (State.setJState_still ..).into ?_
    | simp -zeta -beta -eta -iota -proj -decide only [Rel.upd]
    | dsimp -zeta only
    | with_reducible refine Rel.ite ?_ ?_
    | split

theorem State.dispatch_still (s : State) : Still s (State.dispatch s) := by
  unfold State.dispatch
  repeat' first
    | with_reducible exact Rel.refl _
    | with_reducible assumption
    | with_reducible refine (State.fillEngines_still ..).into ?_
    | with_reducible refine (State.preempt_still ..).into ?_
    | (extract_lets +onlyGivenNames x; with_reducible refine Rel.cut (x := ?y) ?_ ?_; (case y => apply x); subst x; rotate_left; clear_value x; intro _)
    | extract_lets +onlyGivenNames x
    | simp -zeta -beta -eta -iota -proj -decide only [Rel.upd]
    | dsimp -zeta only
    | with_reducible refine Rel.ite ?_ ?_

theorem State.makeReady_still (s : State) (i : ℕ) : Still s (State.makeReady s i) := by
  unfold State.makeReady
  repeat' first
    | with_reducible exact Rel.refl _
    | with_reducible assumption
    | with_reducible refine (State.setJState_still ..).into ?_
    | (extract_lets +onlyGivenNames x; with_reducible refine Rel.cut (x := ?y) ?_ ?_; (case y => apply x); subst x; rotate_left; intro _)
    | (extract_lets +onlyGivenNames x)
    | extract_lets +onlyGivenNames x
    | simp -zeta -beta -eta -iota -proj -decide only [Rel.upd]

theorem State.readyOrLatch_still (s : State) (i : ℕ) : Still s (State.readyOrLatch s i) := by
  unfold State.readyOrLatch
  repeat' first
    | with_reducible exact Rel.refl _
    | with_reducible assumption
    | with_reducible refine (State.setJState_still ..).into ?_
    | with_reducible refine (State.makeReady_still ..).into ?_
    | (extract_lets +onlyGivenNames x; with_reducible refine Rel.cut (x := ?y) ?_ ?_; (case y => apply x); subst x; rotate_left; intro _)
    | (extract_lets +onlyGivenNames x)
    | extract_lets +onlyGivenNames x
    | simp -zeta -beta -eta -iota -proj -decide only [Rel.upd]
    | dsimp -zeta only
    | with_reducible refine Rel.ite ?_ ?_

theorem State.writeDesc_still (s : State) (i : ℕ) (r : JobReq) (rel : ℕ) (fseq : ℕ) (st : ℕ) : Still s (State.writeDesc s i r rel fseq st) := by
  unfold State.writeDesc
  repeat' first
    | with_reducible exact Rel.refl _
    | with_reducible assumption
    | with_reducible refine (State.setPw_still ..).into ?_

theorem State.release_still (s : State) (r : JobReq) : Still s (State.release s r).1 := by
  unfold State.release
  repeat' first
    | with_reducible exact Rel.refl _
    | with_reducible assumption
    | with_reducible refine (State.pmc_still ..).into ?_
    | with_reducible refine (State.incFld_still ..).into ?_
    | with_reducible refine (State.writeDesc_still ..).into ?_
    | with_reducible refine (State.setPbits_still ..).into ?_
    | with_reducible refine (State.noteOcc_still ..).into ?_
    | with_reducible refine (State.readyOrLatch_still ..).into ?_
    | (extract_lets +onlyGivenNames x; with_reducible refine Rel.cut (x := ?y) ?_ ?_; (case y => apply x); subst x; rotate_left; intro _)
    | (extract_lets +onlyGivenNames x)
    | extract_lets +onlyGivenNames x
    | simp -zeta -beta -eta -iota -proj -decide only [Rel.upd]
    | dsimp -zeta only
    | with_reducible refine Rel.ite ?_ ?_
    | split

theorem State.freeDesc_still (s : State) (i : ℕ) : Still s (State.freeDesc s i) := by
  unfold State.freeDesc
  repeat' first
    | with_reducible exact Rel.refl _
    | with_reducible assumption
    | with_reducible refine (State.setJState_still ..).into ?_
    | with_reducible refine (State.noteOcc_still ..).into ?_
    | (extract_lets +onlyGivenNames x)
    | extract_lets +onlyGivenNames x
    | simp -zeta -beta -eta -iota -proj -decide only [Rel.upd]

theorem State.flowPost_still (s : State) (f : ℕ) (i : ℕ) (miss : Bool) : Still s (State.flowPost s f i miss) := by
  unfold State.flowPost
  repeat' first
    | with_reducible exact Rel.refl _
    | with_reducible assumption
    | with_reducible refine (State.setPbits_still ..).into ?_
    | with_reducible refine (State.freeDesc_still ..).into ?_
    | (extract_lets +onlyGivenNames x)
    | extract_lets +onlyGivenNames x
    | simp -zeta -beta -eta -iota -proj -decide only [Rel.upd]

theorem State.flowDrain_still (s : State) (f : ℕ) (n : ℕ) : Still s (State.flowDrain s f n) := by
  induction n generalizing s with
  | zero => exact Rel.refl s
  | succ n ih =>
    unfold State.flowDrain
    split
    · exact Rel.refl s
    · exact (ih _).into (State.flowPost_still ..)

theorem State.flowOpen_still (s : State) (f : ℕ) (n : ℕ) : Still s (State.flowOpen s f n) := by
  induction n generalizing s with
  | zero => exact Rel.refl s
  | succ n ih =>
    unfold State.flowOpen
    extract_lets w; clear_value w
    split
    · exact Rel.refl s
    · exact (ih _).into (State.readyOrLatch_still ..)

theorem State.completeJob_still (s : State) (i : ℕ) (miss : Bool) : Still s (State.completeJob s i miss) := by
  unfold State.completeJob
  repeat' first
    | with_reducible exact Rel.refl _
    | with_reducible assumption
    | with_reducible refine (State.setRunning_still ..).into ?_
    | with_reducible refine (State.flowOpen_still ..).into ?_
    | with_reducible refine (State.flowDrain_still ..).into ?_
    | with_reducible refine (State.flowPost_still ..).into ?_
    | with_reducible refine (State.setJState_still ..).into ?_
    | with_reducible refine (State.freeDesc_still ..).into ?_
    | (extract_lets +onlyGivenNames x; with_reducible refine Rel.cut (x := ?y) ?_ ?_; (case y => apply x); subst x; rotate_left; intro _)
    | (extract_lets +onlyGivenNames x)
    | extract_lets +onlyGivenNames x
    | simp -zeta -beta -eta -iota -proj -decide only [Rel.upd]
    | dsimp -zeta only
    | with_reducible refine Rel.ite ?_ ?_
    | split

theorem State.releaseJob_still (s : State) (r : JobReq) : Still s (State.releaseJob s r).1 := by
  unfold State.releaseJob
  repeat' first
    | with_reducible exact Rel.refl _
    | with_reducible assumption
    | with_reducible refine (State.release_still ..).into ?_
    | with_reducible refine Rel.ofPair (by assumption) (State.release_still ..) ?_
    | with_reducible refine (State.dispatch_still ..).into ?_

end Sys2Proof.Machine
end

