-- ==== Sys2Proof/Laws/KeepLoop.lean ====
section
/-!
SUPPORT. Laws/KeepLoop.lean: what the operations of Machine/Loop.lean keep.
-/

namespace Sys2Proof.Machine

theorem State.setLoopHalf_still (s : State) (i : ℕ) (b : Bool) (h : LoopHalf) : Still s (State.setLoopHalf s i b h) := by
  unfold State.setLoopHalf
  repeat' first
    | with_reducible exact Rel.refl _
    | with_reducible assumption
    | with_reducible refine (State.setPw_still ..).into ?_

theorem State.putLoopStatus_still (s : State) (i : ℕ) (h : LoopHalf) (noCand : Bool) : Still s (State.putLoopStatus s i h noCand) := by
  unfold State.putLoopStatus
  repeat' first
    | with_reducible exact Rel.refl _
    | with_reducible assumption
    | with_reducible refine (State.putSig_still ..).into ?_
    | simp -zeta -beta -eta -iota -proj -decide only [Rel.upd]
    | dsimp -zeta only
    | with_reducible refine Rel.ite ?_ ?_

theorem State.putLoopOut_still (s : State) (i : ℕ) (y : ℤ) : Still s (State.putLoopOut s i y) := by
  unfold State.putLoopOut
  repeat' first
    | with_reducible exact Rel.refl _
    | with_reducible assumption
    | with_reducible refine (State.putSig_still ..).into ?_
    | simp -zeta -beta -eta -iota -proj -decide only [Rel.upd]
    | dsimp -zeta only
    | with_reducible refine Rel.ite ?_ ?_

theorem State.loopSample1_still (s : State) (i : ℕ) (b : Bool) : Still s (State.loopSample1 s i b) := by
  unfold State.loopSample1
  repeat' first
    | with_reducible exact Rel.refl _
    | with_reducible assumption
    | with_reducible refine (State.putLoopStatus_still ..).into ?_
    | with_reducible refine (State.setLoopHalf_still ..).into ?_
    | with_reducible refine (State.putLoopOut_still ..).into ?_
    | with_reducible refine (State.putSig_still ..).into ?_
    | (extract_lets +onlyGivenNames x; with_reducible refine Rel.cut (x := ?y) ?_ ?_; (case y => apply x); subst x; rotate_left; intro _)
    | (extract_lets +onlyGivenNames x)
    | extract_lets +onlyGivenNames x
    | with_reducible apply_assumption -exfalso -symm
    | simp -zeta -beta -eta -iota -proj -decide only [Rel.upd]
    | dsimp -zeta only
    | with_reducible refine Rel.ite ?_ ?_

theorem State.loopMemberEnd_still (s : State) (b : Bool) (sel : Option ℕ) (yo : ℤ) (c : ℕ × LoopHalf × PidOut) : Still s (State.loopMemberEnd s b sel yo c) := by
  unfold State.loopMemberEnd
  repeat' first
    | with_reducible exact Rel.refl _
    | with_reducible assumption
    | with_reducible refine (State.putLoopOut_still ..).into ?_
    | with_reducible refine (State.putLoopStatus_still ..).into ?_
    | with_reducible refine (State.setLoopHalf_still ..).into ?_

theorem State.loopOverride_still (s : State) (i : ℕ) (b : Bool) : Still s (State.loopOverride s i b) := by
  unfold State.loopOverride
  repeat' first
    | with_reducible exact Rel.refl _
    | with_reducible assumption
    | with_reducible refine Rel.each (fun t x => ?_) ?_
    | with_reducible refine (State.loopMemberEnd_still ..).into ?_
    | with_reducible refine (State.putLoopStatus_still ..).into ?_
    | with_reducible refine (State.setLoopHalf_still ..).into ?_
    | with_reducible refine (State.putLoopOut_still ..).into ?_

theorem State.loopPair_still (s : State) (i : ℕ) (b : Bool) : Still s (State.loopPair s i b) := by
  unfold State.loopPair
  repeat' first
    | with_reducible exact Rel.refl _
    | with_reducible assumption
    | with_reducible refine (State.putLoopOut_still ..).into ?_
    | with_reducible refine (State.putLoopStatus_still ..).into ?_
    | with_reducible refine (State.setLoopHalf_still ..).into ?_

theorem State.loopSample_still (s : State) (i : ℕ) (b : Bool) : Still s (State.loopSample s i b) := by
  unfold State.loopSample
  repeat' first
    | with_reducible exact Rel.refl _
    | with_reducible assumption
    | with_reducible refine (State.loopPair_still ..).into ?_
    | with_reducible refine (State.loopOverride_still ..).into ?_
    | with_reducible refine (State.loopSample1_still ..).into ?_
    | simp -zeta -beta -eta -iota -proj -decide only [Rel.upd]
    | dsimp -zeta only
    | with_reducible refine Rel.ite ?_ ?_
    | split

theorem State.loopTouch_still (s : State) (i : ℕ) (old : ℕ) : Still s (State.loopTouch s i old) := by
  unfold State.loopTouch
  repeat' first
    | with_reducible exact Rel.refl _
    | with_reducible assumption
    | with_reducible refine (State.setPbits_still ..).into ?_
    | with_reducible refine (State.putSig_still ..).into ?_
    | (extract_lets +onlyGivenNames x; with_reducible refine Rel.cut (x := ?y) ?_ ?_; (case y => apply x); subst x; rotate_left; intro _)
    | (extract_lets +onlyGivenNames x)
    | extract_lets +onlyGivenNames x
    | simp -zeta -beta -eta -iota -proj -decide only [Rel.upd]
    | dsimp -zeta only
    | with_reducible refine Rel.ite ?_ ?_

theorem State.loopEngine_still (s : State) (i : ℕ) (f : State → State) (hf : ∀ t, Still t (f t)) : Still s (State.loopEngine s i f) := by
  unfold State.loopEngine
  repeat' first
    | with_reducible exact Rel.refl _
    | with_reducible assumption
    | with_reducible refine (State.loopTouch_still ..).into ?_
    | with_reducible refine (hf ..).into ?_

theorem State.setLReq_still (s : State) (i : ℕ) (v : ℕ) : Still s (State.setLReq s i v) := by
  unfold State.setLReq
  repeat' first
    | with_reducible exact Rel.refl _
    | with_reducible assumption
    | with_reducible refine (State.setPbits_still ..).into ?_

theorem State.setLGen_still (s : State) (i : ℕ) (v : ℕ) : Still s (State.setLGen s i v) := by
  unfold State.setLGen
  repeat' first
    | with_reducible exact Rel.refl _
    | with_reducible assumption
    | with_reducible refine (State.setPbits_still ..).into ?_

theorem State.setLFault_still (s : State) (i : ℕ) (v : ℕ) : Still s (State.setLFault s i v) := by
  unfold State.setLFault
  repeat' first
    | with_reducible exact Rel.refl _
    | with_reducible assumption
    | with_reducible refine (State.setPbits_still ..).into ?_

theorem State.setLStopped_still (s : State) (i : ℕ) (v : ℕ) : Still s (State.setLStopped s i v) := by
  unfold State.setLStopped
  repeat' first
    | with_reducible exact Rel.refl _
    | with_reducible assumption
    | with_reducible refine (State.setPbits_still ..).into ?_

theorem State.setLConsec_still (s : State) (i : ℕ) (v : ℕ) : Still s (State.setLConsec s i v) := by
  unfold State.setLConsec
  repeat' first
    | with_reducible exact Rel.refl _
    | with_reducible assumption
    | with_reducible refine (State.setPbits_still ..).into ?_

theorem State.loopReenable_still (s : State) (i : ℕ) : Still s (State.loopReenable s i) := by
  unfold State.loopReenable
  repeat' first
    | with_reducible exact Rel.refl _
    | with_reducible assumption
    | with_reducible refine (State.setLGen_still ..).into ?_
    | with_reducible refine (State.setLStopped_still ..).into ?_
    | simp -zeta -beta -eta -iota -proj -decide only [Rel.upd]
    | dsimp -zeta only
    | with_reducible refine Rel.ite ?_ ?_

theorem State.loopFaultAct_still (s : State) (i : ℕ) (cause : ℕ) : Still s (State.loopFaultAct s i cause) := by
  unfold State.loopFaultAct
  repeat' first
    | with_reducible exact Rel.refl _
    | with_reducible assumption
    | with_reducible refine (State.post_still ..).into ?_
    | with_reducible refine (State.setLFault_still ..).into ?_
    | with_reducible refine (State.putGrp_still ..).into ?_
    | with_reducible refine (State.setLStopped_still ..).into ?_
    | with_reducible refine (State.putSig_still ..).into ?_
    | with_reducible refine (State.setLoopHalf_still ..).into ?_
    | (extract_lets +onlyGivenNames x; with_reducible refine Rel.cut (x := ?y) ?_ ?_; (case y => apply x); subst x; rotate_left; intro _)
    | (extract_lets +onlyGivenNames x)
    | extract_lets +onlyGivenNames x
    | simp -zeta -beta -eta -iota -proj -decide only [Rel.upd]
    | dsimp -zeta only
    | with_reducible refine Rel.ite ?_ ?_
    | split

theorem State.loopOverrun_still (s : State) (i : ℕ) (cause : ℕ) : Still s (State.loopOverrun s i cause) := by
  unfold State.loopOverrun
  repeat' first
    | with_reducible exact Rel.refl _
    | with_reducible assumption
    | with_reducible refine (State.incFld_still ..).into ?_
    | with_reducible refine (State.loopEngine_still (hf := fun t => ?_) ..).into ?_
    | with_reducible refine (State.setLConsec_still ..).into ?_
    | with_reducible refine (State.loopFaultAct_still ..).into ?_
    | (extract_lets +onlyGivenNames x; with_reducible refine Rel.cut (x := ?y) ?_ ?_; (case y => apply x); subst x; rotate_left; clear_value x; intro _)
    | (extract_lets +onlyGivenNames x; clear_value x)
    | extract_lets +onlyGivenNames x
    | simp -zeta -beta -eta -iota -proj -decide only [Rel.upd]
    | dsimp -zeta only
    | with_reducible refine Rel.ite ?_ ?_

theorem State.loopComplete_still (s : State) (i : ℕ) : Still s (State.loopComplete s i) := by
  unfold State.loopComplete
  repeat' first
    | with_reducible exact Rel.refl _
    | with_reducible assumption
    | with_reducible refine (State.setLConsec_still ..).into ?_
    | with_reducible refine Rel.each (fun t x => ?_) ?_
    | with_reducible refine (State.setPbits_still ..).into ?_
    | with_reducible refine (State.putGrp_still ..).into ?_
    | (extract_lets +onlyGivenNames x; with_reducible refine Rel.cut (x := ?y) ?_ ?_; (case y => apply x); subst x; rotate_left; intro _)
    | (extract_lets +onlyGivenNames x)
    | extract_lets +onlyGivenNames x
    | simp -zeta -beta -eta -iota -proj -decide only [Rel.upd]
    | dsimp -zeta only
    | with_reducible refine Rel.ite ?_ ?_

theorem State.loopAccept_still (s : State) (i : ℕ) (op : ℕ) (v : ℕ) : Still s (State.loopAccept s i op v) := by
  unfold State.loopAccept
  repeat' first
    | with_reducible exact Rel.refl _
    | with_reducible assumption
    | with_reducible refine (State.loopEngine_still (hf := fun t => ?_) ..).into ?_
    | (extract_lets +onlyGivenNames x)
    | extract_lets +onlyGivenNames x
    | simp -zeta -beta -eta -iota -proj -decide only [Rel.upd]

theorem State.loopRequest_still (s : State) (i : ℕ) (op : ℕ) (v : ℕ) : Still s (State.loopRequest s i op v).1 := by
  unfold State.loopRequest
  repeat' first
    | with_reducible exact Rel.refl _
    | with_reducible assumption
    | with_reducible refine (State.loopAccept_still ..).into ?_
    | with_reducible refine (State.post_still ..).into ?_
    | with_reducible refine (State.incFld_still ..).into ?_
    | (extract_lets +onlyGivenNames x)
    | extract_lets +onlyGivenNames x
    | simp -zeta -beta -eta -iota -proj -decide only [Rel.upd]
    | dsimp -zeta only
    | with_reducible refine Rel.ite ?_ ?_
    | split

theorem State.loopClear_still (s : State) (i : ℕ) : Still s (State.loopClear s i).1 := by
  unfold State.loopClear
  repeat' first
    | with_reducible exact Rel.refl _
    | with_reducible assumption
    | with_reducible refine (State.loopEngine_still (hf := fun t => ?_) ..).into ?_
    | with_reducible refine (State.setLConsec_still ..).into ?_
    | with_reducible refine (State.setLFault_still ..).into ?_
    | with_reducible refine (State.loopReenable_still ..).into ?_
    | simp -zeta -beta -eta -iota -proj -decide only [Rel.upd]
    | dsimp -zeta only
    | with_reducible refine Rel.ite ?_ ?_
    | split

theorem State.loopApply_still (s : State) (q : LoopReq) : Still s (State.loopApply s q) := by
  unfold State.loopApply
  repeat' first
    | with_reducible exact Rel.refl _
    | with_reducible assumption
    | with_reducible refine (State.loopEngine_still (hf := fun t => ?_) ..).into ?_
    | with_reducible refine (State.setLReq_still ..).into ?_
    | with_reducible refine (State.loopReenable_still ..).into ?_
    | with_reducible refine (State.setPbits_still ..).into ?_
    | simp -zeta -beta -eta -iota -proj -decide only [Rel.upd]
    | dsimp -zeta only
    | with_reducible refine Rel.ite ?_ ?_
    | split

theorem State.loopApplyAll_still (s : State) : Still s (State.loopApplyAll s) := by
  unfold State.loopApplyAll
  repeat' first
    | with_reducible exact Rel.refl _
    | with_reducible assumption
    | with_reducible refine (State.incFld_still ..).into ?_
    | with_reducible refine Rel.each (fun t x => ?_) ?_
    | with_reducible refine (State.loopApply_still ..).into ?_
    | (extract_lets +onlyGivenNames x)
    | extract_lets +onlyGivenNames x
    | simp -zeta -beta -eta -iota -proj -decide only [Rel.upd]

theorem State.loopRelease_still (s : State) (i : ℕ) : Still s (State.loopRelease s i) := by
  unfold State.loopRelease
  repeat' first
    | with_reducible exact Rel.refl _
    | with_reducible assumption
    | with_reducible refine (State.release_still ..).into ?_
    | with_reducible refine Rel.ofPair (by assumption) (State.release_still ..) ?_
    | with_reducible refine (State.loopOverrun_still ..).into ?_
    | (extract_lets +onlyGivenNames x; with_reducible refine Rel.cut (x := ?y) ?_ ?_; (case y => apply x.1); subst x; rotate_left; clear_value x; intro _)
    | (extract_lets +onlyGivenNames x; clear_value x)
    | extract_lets +onlyGivenNames x
    | simp -zeta -beta -eta -iota -proj -decide only [Rel.upd]
    | dsimp -zeta only
    | with_reducible refine Rel.ite ?_ ?_
    | split

theorem State.loopStart1_still (s : State) (i : ℕ) : Still s (State.loopStart1 s i) := by
  unfold State.loopStart1
  repeat' first
    | with_reducible exact Rel.refl _
    | with_reducible assumption
    | with_reducible refine (State.post_still ..).into ?_
    | with_reducible refine (State.setLoopHalf_still ..).into ?_
    | with_reducible refine (State.setPw_still ..).into ?_
    | with_reducible refine (State.setPbits_still ..).into ?_
    | (extract_lets +onlyGivenNames x)
    | extract_lets +onlyGivenNames x
    | simp -zeta -beta -eta -iota -proj -decide only [Rel.upd]
    | dsimp -zeta only
    | with_reducible refine Rel.ite ?_ ?_

theorem State.loopStart_still (s : State) : Still s (State.loopStart s) := by
  unfold State.loopStart
  repeat' first
    | with_reducible exact Rel.refl _
    | with_reducible assumption
    | with_reducible refine Rel.each (fun t x => ?_) ?_
    | with_reducible refine (State.setLGen_still ..).into ?_
    | with_reducible refine (State.loopStart1_still ..).into ?_
    | (extract_lets +onlyGivenNames x; with_reducible refine Rel.cut (x := ?y) ?_ ?_; (case y => apply x); subst x; rotate_left; intro _)
    | (extract_lets +onlyGivenNames x)
    | extract_lets +onlyGivenNames x
    | simp -zeta -beta -eta -iota -proj -decide only [Rel.upd]
    | dsimp -zeta only
    | with_reducible refine Rel.ite ?_ ?_

theorem State.loopStrobe_still (s : State) : Still s (State.loopStrobe s) := by
  unfold State.loopStrobe
  repeat' first
    | with_reducible exact Rel.refl _
    | with_reducible assumption
    | with_reducible refine (State.loopApplyAll_still ..).into ?_
    | with_reducible refine (State.loopStart_still ..).into ?_
    | with_reducible refine Rel.each (fun t x => ?_) ?_
    | with_reducible refine (State.loopRelease_still ..).into ?_
    | with_reducible refine (State.loopEngine_still (hf := fun t => ?_) ..).into ?_
    | with_reducible refine (State.loopReenable_still ..).into ?_
    | with_reducible refine (State.peakFld_still ..).into ?_
    | with_reducible refine (State.setFld_still ..).into ?_
    | (extract_lets +onlyGivenNames x; with_reducible refine Rel.cut (x := ?y) ?_ ?_; (case y => apply x); subst x; rotate_left; clear_value x; intro _)
    | (extract_lets +onlyGivenNames x; clear_value x)
    | extract_lets +onlyGivenNames x
    | simp -zeta -beta -eta -iota -proj -decide only [Rel.upd]
    | dsimp -zeta only
    | with_reducible refine Rel.ite ?_ ?_

theorem State.loopBumpGens_still (s : State) : Still s (State.loopBumpGens s) := by
  unfold State.loopBumpGens
  repeat' first
    | with_reducible exact Rel.refl _
    | with_reducible assumption
    | with_reducible refine Rel.each (fun t x => ?_) ?_
    | with_reducible refine (State.setLGen_still ..).into ?_

theorem State.loopCmdStat_still (s : State) (slot : ℕ) (r : ℕ) : Still s (State.loopCmdStat s slot r) := by
  unfold State.loopCmdStat
  repeat' first
    | with_reducible exact Rel.refl _
    | with_reducible assumption
    | with_reducible refine (State.setFld_still ..).into ?_

theorem execLoopMode_good (slot : ℕ) (mode : ℕ) (s : State) : Good s (execLoopMode slot mode s) := by
  unfold execLoopMode
  repeat' first
    | with_reducible exact Rel.refl _
    | with_reducible assumption
    | exact Good.fault _ _
    | with_reducible refine Good.next ?_
    | with_reducible refine Good.done ?_
    | with_reducible refine (State.regCommand_good (hf := fun t => ?_) ..).into ?_
    | with_reducible refine (State.loopRequest_still ..).into ?_
    | with_reducible refine Rel.ofPair (by assumption) (State.loopRequest_still ..) ?_
    | with_reducible refine (State.loopCmdStat_still ..).into ?_

theorem execLoopLimitLo_good (slot : ℕ) (value : ℕ) (s : State) : Good s (execLoopLimitLo slot value s) := by
  unfold execLoopLimitLo
  repeat' first
    | with_reducible exact Rel.refl _
    | with_reducible assumption
    | exact Good.fault _ _
    | with_reducible refine Good.next ?_
    | with_reducible refine Good.done ?_
    | with_reducible refine (State.regCommand_good (hf := fun t => ?_) ..).into ?_
    | with_reducible refine (State.loopRequest_still ..).into ?_
    | with_reducible refine Rel.ofPair (by assumption) (State.loopRequest_still ..) ?_
    | with_reducible refine (State.loopCmdStat_still ..).into ?_

theorem execLoopLimitHi_good (slot : ℕ) (value : ℕ) (s : State) : Good s (execLoopLimitHi slot value s) := by
  unfold execLoopLimitHi
  repeat' first
    | with_reducible exact Rel.refl _
    | with_reducible assumption
    | exact Good.fault _ _
    | with_reducible refine Good.next ?_
    | with_reducible refine Good.done ?_
    | with_reducible refine (State.regCommand_good (hf := fun t => ?_) ..).into ?_
    | with_reducible refine (State.loopRequest_still ..).into ?_
    | with_reducible refine Rel.ofPair (by assumption) (State.loopRequest_still ..) ?_
    | with_reducible refine (State.loopCmdStat_still ..).into ?_

theorem execLoopClearFault_good (slot : ℕ) (s : State) : Good s (execLoopClearFault slot s) := by
  unfold execLoopClearFault
  repeat' first
    | with_reducible exact Rel.refl _
    | with_reducible assumption
    | exact Good.fault _ _
    | with_reducible refine Good.next ?_
    | with_reducible refine Good.done ?_
    | with_reducible refine (State.regCommand_good (hf := fun t => ?_) ..).into ?_
    | with_reducible refine (State.loopClear_still ..).into ?_
    | with_reducible refine Rel.ofPair (by assumption) (State.loopClear_still ..) ?_
    | with_reducible refine (State.loopCmdStat_still ..).into ?_

theorem execLoopClrCounts_good (s : State) : Good s (execLoopClrCounts s) := by
  unfold execLoopClrCounts
  repeat' first
    | with_reducible exact Rel.refl _
    | with_reducible assumption
    | exact Good.fault _ _
    | with_reducible refine Good.next ?_
    | with_reducible refine Good.done ?_
    | with_reducible refine (State.clrRegs_still ..).into ?_
    | (extract_lets +onlyGivenNames x)
    | extract_lets +onlyGivenNames x
    | simp -zeta -beta -eta -iota -proj -decide only [Rel.upd]

theorem execLoopClrPeaks_good (s : State) : Good s (execLoopClrPeaks s) := by
  unfold execLoopClrPeaks
  repeat' first
    | with_reducible exact Rel.refl _
    | with_reducible assumption
    | exact Good.fault _ _
    | with_reducible refine Good.next ?_
    | with_reducible refine Good.done ?_
    | with_reducible refine (State.setFld_still ..).into ?_

end Sys2Proof.Machine
end

