-- ==== Sys2Proof/Laws/KeepSeq.lean ====
section
/-!
SUPPORT. Laws/KeepSeq.lean: what the operations of Machine/Seq.lean keep.
-/

namespace Sys2Proof.Machine

theorem State.abandonTest_still (s : State) : Still s (State.abandonTest s) := by
  unfold State.abandonTest
  repeat' first
    | with_reducible exact Rel.refl _
    | with_reducible assumption
    | with_reducible refine (State.incFld_still ..).into ?_
    | with_reducible refine (State.setFld_still ..).into ?_
    | (extract_lets +onlyGivenNames x; with_reducible refine Rel.cut (x := ?y) ?_ ?_; (case y => apply x); subst x; rotate_left; clear_value x; intro _)
    | (extract_lets +onlyGivenNames x; clear_value x)
    | extract_lets +onlyGivenNames x
    | simp -zeta -beta -eta -iota -proj -decide only [Rel.upd]
    | dsimp -zeta only
    | with_reducible refine Rel.ite ?_ ?_
    | split

theorem State.setCtx_still (s : State) (q : ℕ) (c : SeqCtx) : Still s (State.setCtx s q c) := by
  unfold State.setCtx
  repeat' first
    | with_reducible exact Rel.refl _
    | with_reducible assumption
    | (extract_lets +onlyGivenNames x)
    | extract_lets +onlyGivenNames x
    | simp -zeta -beta -eta -iota -proj -decide only [Rel.upd]

theorem State.modCtx_still (s : State) (q : ℕ) (f : SeqCtx → SeqCtx) : Still s (State.modCtx s q f) := by
  unfold State.modCtx
  repeat' first
    | with_reducible exact Rel.refl _
    | with_reducible assumption
    | with_reducible refine (State.setCtx_still ..).into ?_

theorem State.setRamp_still (s : State) (k : ℕ) (r : Option RampSlot) : Still s (State.setRamp s k r) := by
  unfold State.setRamp
  repeat' first
    | with_reducible exact Rel.refl _
    | with_reducible assumption
    | with_reducible refine (State.peakFld_still ..).into ?_
    | with_reducible refine (State.setFld_still ..).into ?_
    | (extract_lets +onlyGivenNames x)
    | extract_lets +onlyGivenNames x
    | simp -zeta -beta -eta -iota -proj -decide only [Rel.upd]

theorem State.dropRamps_still (s : State) (p : RampSlot → Bool) : Still s (State.dropRamps s p) := by
  unfold State.dropRamps
  repeat' first
    | with_reducible exact Rel.refl _
    | with_reducible assumption
    | with_reducible refine Rel.each (fun t x => ?_) ?_
    | with_reducible refine (State.setRamp_still ..).into ?_

theorem State.rampStep_still (s : State) (x : ℕ × RampSlot) : Still s (State.rampStep s x) := by
  unfold State.rampStep
  repeat' first
    | with_reducible exact Rel.refl _
    | with_reducible assumption
    | with_reducible refine (State.incFld_still ..).into ?_
    | with_reducible refine (State.putSig_still ..).into ?_
    | with_reducible refine (State.setRamp_still ..).into ?_
    | (extract_lets +onlyGivenNames x; with_reducible refine Rel.cut (x := ?y) ?_ ?_; (case y => apply x); subst x; rotate_left; clear_value x; intro _)
    | (extract_lets +onlyGivenNames x; clear_value x)
    | extract_lets +onlyGivenNames x
    | simp -zeta -beta -eta -iota -proj -decide only [Rel.upd]
    | dsimp -zeta only
    | with_reducible refine Rel.ite ?_ ?_

theorem State.seqSet_keep (s : State) (q : ℕ) (i : ℕ) (v : ℕ) : Keep s (State.seqSet s q i v) := by
  unfold State.seqSet
  repeat' first
    | with_reducible exact Rel.refl _
    | with_reducible assumption
    | with_reducible refine (State.undef_keep ..).into ?_
    | with_reducible refine (State.putSig_still ..).into ?_
    | with_reducible refine (State.dropRamps_still ..).into ?_
    | simp -zeta -beta -eta -iota -proj -decide only [Keep.upd]
    | dsimp -zeta only
    | with_reducible refine Rel.ite ?_ ?_

theorem State.seqPattern_keep (s : State) (q : ℕ) (i : ℕ) (v : ℕ) (mask : ℕ) : Keep s (State.seqPattern s q i v mask) := by
  unfold State.seqPattern
  repeat' first
    | with_reducible exact Rel.refl _
    | with_reducible assumption
    | with_reducible refine Rel.each (fun t x => ?_) ?_
    | with_reducible refine (State.undef_keep ..).into ?_
    | with_reducible refine (State.seqSet_keep ..).into ?_
    | simp -zeta -beta -eta -iota -proj -decide only [Keep.upd]
    | dsimp -zeta only
    | with_reducible refine Rel.ite ?_ ?_

theorem State.seqRamp_keep (s : State) (q : ℕ) (i : ℕ) (v : ℕ) (len : ℕ) : Keep s (State.seqRamp s q i v len) := by
  unfold State.seqRamp
  repeat' first
    | with_reducible exact Rel.refl _
    | with_reducible assumption
    | with_reducible refine (State.undef_keep ..).into ?_
    | with_reducible refine (State.seqSet_keep ..).into ?_
    | with_reducible refine (State.setRamp_still ..).into ?_
    | with_reducible refine (State.putSig_still ..).into ?_
    | with_reducible refine (State.post_still ..).into ?_
    | with_reducible refine (State.incFld_still ..).into ?_
    | (extract_lets +onlyGivenNames x; clear_value x)
    | extract_lets +onlyGivenNames x
    | simp -zeta -beta -eta -iota -proj -decide only [Keep.upd]
    | dsimp -zeta only
    | with_reducible refine Rel.ite ?_ ?_
    | split

theorem State.seqKernel_still (s : State) (r : JobReq) : Still s (State.seqKernel s r) := by
  unfold State.seqKernel
  repeat' first
    | with_reducible exact Rel.refl _
    | with_reducible assumption
    | with_reducible refine (State.releaseJob_still ..).into ?_
    | with_reducible refine Rel.ofPair (by assumption) (State.releaseJob_still ..) ?_
    | (extract_lets +onlyGivenNames x; with_reducible refine Rel.cut (x := ?y) ?_ ?_; (case y => apply x); subst x; rotate_left; intro _)
    | (extract_lets +onlyGivenNames x; with_reducible refine Rel.cut (x := ?y) ?_ ?_; (case y => apply x.1); subst x; rotate_left; intro _)
    | (extract_lets +onlyGivenNames x)
    | extract_lets +onlyGivenNames x
    | simp -zeta -beta -eta -iota -proj -decide only [Rel.upd]
    | dsimp -zeta only
    | with_reducible refine Rel.ite ?_ ?_
    | split

theorem State.seqAction_keep (s : State) (q : ℕ) (i : ℕ) : Keep s (State.seqAction s q i) := by
  unfold State.seqAction
  repeat' first
    | with_reducible exact Rel.refl _
    | with_reducible assumption
    | with_reducible refine (State.seqSet_keep ..).into ?_
    | with_reducible refine (State.seqRamp_keep ..).into ?_
    | with_reducible refine (State.seqPattern_keep ..).into ?_
    | with_reducible refine (State.loopRequest_still ..).into ?_
    | with_reducible refine Rel.ofPair (by assumption) (State.loopRequest_still ..) ?_
    | with_reducible refine (State.seqKernel_still ..).into ?_
    | with_reducible refine (State.post_still ..).into ?_
    | with_reducible refine (State.modCtx_still ..).into ?_
    | with_reducible refine (State.abandonTest_still ..).into ?_
    | with_reducible refine (State.undef_keep ..).into ?_
    | (extract_lets +onlyGivenNames x)
    | extract_lets +onlyGivenNames x
    | simp -zeta -beta -eta -iota -proj -decide only [Keep.upd]
    | dsimp -zeta only
    | with_reducible refine Rel.ite ?_ ?_
    | split

theorem State.seqActions_keep (s : State) (q : ℕ) : Keep s (State.seqActions s q) := by
  unfold State.seqActions
  repeat' first
    | with_reducible exact Rel.refl _
    | with_reducible assumption
    | with_reducible refine (State.undef_keep ..).into ?_
    | with_reducible refine Rel.each (fun t x => ?_) ?_
    | with_reducible refine (State.seqAction_keep ..).into ?_
    | (extract_lets +onlyGivenNames x)
    | extract_lets +onlyGivenNames x
    | simp -zeta -beta -eta -iota -proj -decide only [Keep.upd]
    | dsimp -zeta only
    | with_reducible refine Rel.ite ?_ ?_

theorem State.noteChange_still (s : State) (q : ℕ) (cause : ℕ) (old : ℕ) (new : ℕ) (step : ℕ) (leaves : Bool) (start : ℕ) : Still s (State.noteChange s q cause old new step leaves start) := by
  unfold State.noteChange
  repeat' first
    | with_reducible exact Rel.refl _
    | with_reducible assumption
    | (extract_lets +onlyGivenNames x)
    | extract_lets +onlyGivenNames x
    | simp -zeta -beta -eta -iota -proj -decide only [Rel.upd]

theorem State.seqLeave_still (s : State) (q : ℕ) (st : ℕ) (cause : ℕ) (old : ℕ) (start : ℕ) : Still s (State.seqLeave s q st cause old start) := by
  unfold State.seqLeave
  repeat' first
    | with_reducible exact Rel.refl _
    | with_reducible assumption
    | with_reducible refine (State.dropRamps_still ..).into ?_
    | with_reducible refine (State.modCtx_still ..).into ?_
    | with_reducible refine (State.noteChange_still ..).into ?_

theorem State.seqEnter_keep (s : State) (q : ℕ) (i : ℕ) (st : ℕ) (cause : ℕ) (old : ℕ) (start : ℕ) (hold : Bool) : Keep s (State.seqEnter s q i st cause old start hold) := by
  unfold State.seqEnter
  repeat' first
    | with_reducible exact Rel.refl _
    | with_reducible assumption
    | with_reducible refine (State.undef_keep ..).into ?_
    | with_reducible refine (State.dropRamps_still ..).into ?_
    | with_reducible refine (State.modCtx_still ..).into ?_
    | with_reducible refine (State.seqActions_keep ..).into ?_
    | with_reducible refine (State.noteChange_still ..).into ?_
    | (extract_lets +onlyGivenNames x; with_reducible refine Rel.cut (x := ?y) ?_ ?_; (case y => apply x); subst x; rotate_left; clear_value x; intro _)
    | (extract_lets +onlyGivenNames x; clear_value x)
    | extract_lets +onlyGivenNames x
    | simp -zeta -beta -eta -iota -proj -decide only [Keep.upd]
    | dsimp -zeta only
    | with_reducible refine Rel.ite ?_ ?_

theorem State.seqChange_keep (s : State) (q : ℕ) (ch : SeqChange) : Keep s (State.seqChange s q ch) := by
  unfold State.seqChange
  repeat' first
    | with_reducible exact Rel.refl _
    | with_reducible assumption
    | with_reducible refine (State.seqEnter_keep ..).into ?_
    | with_reducible refine (State.seqLeave_still ..).into ?_
    | with_reducible refine (State.post_still ..).into ?_
    | with_reducible refine (State.undef_keep ..).into ?_
    | (extract_lets +onlyGivenNames x)
    | extract_lets +onlyGivenNames x
    | simp -zeta -beta -eta -iota -proj -decide only [Keep.upd]
    | dsimp -zeta only
    | with_reducible refine Rel.ite ?_ ?_
    | split

theorem State.seqPend_still (s : State) (q : ℕ) (kind : ℕ) (target : ℕ) (cause : ℕ) (start : ℕ) (hold : Bool) : Still s (State.seqPend s q kind target cause start hold) := by
  unfold State.seqPend
  repeat' first
    | with_reducible exact Rel.refl _
    | with_reducible assumption
    | with_reducible refine (State.modCtx_still ..).into ?_

theorem State.seqStop_still (s : State) (q : ℕ) : Still s (State.seqStop s q) := by
  unfold State.seqStop
  repeat' first
    | with_reducible exact Rel.refl _
    | with_reducible assumption
    | with_reducible refine (State.modCtx_still ..).into ?_
    | with_reducible refine (State.dropRamps_still ..).into ?_

theorem State.seqResume_keep (s : State) (q : ℕ) (n : ℕ) : Keep s (State.seqResume s q n) := by
  unfold State.seqResume
  repeat' first
    | with_reducible exact Rel.refl _
    | with_reducible assumption
    | with_reducible refine (State.modCtx_still ..).into ?_
    | with_reducible refine (State.seqPend_still ..).into ?_
    | with_reducible refine (State.undef_keep ..).into ?_
    | (extract_lets +onlyGivenNames x; with_reducible refine Rel.cut (x := ?y) ?_ ?_; (case y => apply x); subst x; rotate_left; intro _)
    | (extract_lets +onlyGivenNames x)
    | extract_lets +onlyGivenNames x
    | simp -zeta -beta -eta -iota -proj -decide only [Keep.upd]
    | dsimp -zeta only
    | with_reducible refine Rel.ite ?_ ?_
    | split

theorem State.armPass_still (s : State) (q : ℕ) : Still s (State.armPass s q) := by
  unfold State.armPass
  repeat' first
    | with_reducible exact Rel.refl _
    | with_reducible assumption
    | with_reducible refine (State.setTimeout_still ..).into ?_

theorem State.passPost_still (s : State) (q : ℕ) (m : PassMsg) (policy : ℕ) (retries : ℕ) (path : ℕ) : Still s (State.passPost s q m policy retries path) := by
  unfold State.passPost
  repeat' first
    | with_reducible exact Rel.refl _
    | with_reducible assumption
    | with_reducible refine (State.armPass_still ..).into ?_
    | with_reducible refine (State.modCtx_still ..).into ?_

theorem State.passMaster_still (s : State) (q : ℕ) (kind : ℕ) (target : ℕ) (cause : ℕ) (arg : ℕ) (n : ℕ) : Still s (State.passMaster s q kind target cause arg n) := by
  unfold State.passMaster
  repeat' first
    | with_reducible exact Rel.refl _
    | with_reducible assumption
    | with_reducible refine (State.passPost_still ..).into ?_
    | with_reducible refine (State.modCtx_still ..).into ?_

theorem State.seqHold_still (s : State) (q : ℕ) (n : ℕ) : Still s (State.seqHold s q n).1 := by
  unfold State.seqHold
  repeat' first
    | with_reducible exact Rel.refl _
    | with_reducible assumption
    | with_reducible refine (State.modCtx_still ..).into ?_
    | simp -zeta -beta -eta -iota -proj -decide only [Rel.upd]
    | dsimp -zeta only
    | with_reducible refine Rel.ite ?_ ?_
    | split

theorem State.seqContinue_still (s : State) (q : ℕ) : Still s (State.seqContinue s q) := by
  unfold State.seqContinue
  repeat' first
    | with_reducible exact Rel.refl _
    | with_reducible assumption
    | with_reducible refine (State.modCtx_still ..).into ?_

theorem State.seqCommand_keep (s : State) (q : ℕ) (cmd : ℕ) (arg : ℕ) (n : ℕ) : Keep s (State.seqCommand s q cmd arg n).1 := by
  unfold State.seqCommand
  repeat' first
    | with_reducible exact Rel.refl _
    | with_reducible assumption
    | with_reducible refine Rel.each (fun t x => ?_) ?_
    | with_reducible refine (State.passMaster_still ..).into ?_
    | with_reducible refine (State.seqResume_keep ..).into ?_
    | with_reducible refine (State.modCtx_still ..).into ?_
    | with_reducible refine (State.seqPend_still ..).into ?_
    | with_reducible refine (State.seqHold_still ..).into ?_
    | with_reducible refine Rel.ofPair (by assumption) (State.seqHold_still ..) ?_
    | with_reducible refine (State.seqContinue_still ..).into ?_
    | with_reducible refine (State.seqStop_still ..).into ?_
    | (extract_lets +onlyGivenNames x)
    | extract_lets +onlyGivenNames x
    | simp -zeta -beta -eta -iota -proj -decide only [Keep.upd]
    | dsimp -zeta only
    | with_reducible refine Rel.ite ?_ ?_
    | split

theorem State.seqQueued_keep (s : State) (c : SeqCmd) (n : ℕ) : Keep s (State.seqQueued s c n) := by
  unfold State.seqQueued
  repeat' first
    | with_reducible exact Rel.refl _
    | with_reducible assumption
    | with_reducible refine (State.seqCommand_keep ..).into ?_
    | with_reducible refine Keep.ofPair (by assumption) (State.seqCommand_keep ..) ?_
    | with_reducible refine (State.setFld_still ..).into ?_
    | with_reducible refine (State.shpAnswer_still ..).into ?_
    | (extract_lets +onlyGivenNames x; with_reducible refine Rel.cut (x := ?y) ?_ ?_; (case y => apply x.1); subst x; rotate_left; clear_value x; intro _)
    | extract_lets +onlyGivenNames x
    | simp -zeta -beta -eta -iota -proj -decide only [Keep.upd]
    | dsimp -zeta only
    | with_reducible refine Rel.ite ?_ ?_
    | split

theorem State.seqEnqueue_still (s : State) (c : SeqCmd) : Still s (State.seqEnqueue s c).1 := by
  unfold State.seqEnqueue
  repeat' first
    | with_reducible exact Rel.refl _
    | with_reducible assumption
    | with_reducible refine (State.abandonTest_still ..).into ?_
    | (extract_lets +onlyGivenNames x; with_reducible refine Rel.cut (x := ?y) ?_ ?_; (case y => apply x); subst x; rotate_left; intro _)
    | (extract_lets +onlyGivenNames x)
    | extract_lets +onlyGivenNames x
    | simp -zeta -beta -eta -iota -proj -decide only [Rel.upd]
    | dsimp -zeta only
    | with_reducible refine Rel.ite ?_ ?_
    | split

theorem State.slotEval_keep (s : State) (q : ℕ) (k : ℕ) : Keep s (State.slotEval s q k).1 := by
  unfold State.slotEval
  repeat' first
    | with_reducible exact Rel.refl _
    | with_reducible assumption
    | with_reducible refine (State.modCtx_still ..).into ?_
    | with_reducible refine (State.undef_keep ..).into ?_
    | (extract_lets +onlyGivenNames x; with_reducible refine Rel.cut (x := ?y) ?_ ?_; (case y => apply x); subst x; rotate_left; intro _)
    | (extract_lets +onlyGivenNames x)
    | extract_lets +onlyGivenNames x
    | simp -zeta -beta -eta -iota -proj -decide only [Keep.upd]
    | dsimp -zeta only
    | with_reducible refine Rel.ite ?_ ?_
    | split

theorem State.slotsEval_keep (s : State) (q : ℕ) (ks : List ℕ) : Keep s (State.slotsEval s q ks).1 := by
  induction ks generalizing s with
  | nil => exact Rel.refl s
  | cons k t ih =>
    unfold State.slotsEval
    dsimp only
    split
    · exact ih s
    · exact (ih _).into (State.slotEval_keep ..)

theorem State.seqDecide_keep (s : State) (q : ℕ) : Keep s (State.seqDecide s q).1 := by
  unfold State.seqDecide
  repeat' first
    | with_reducible exact Rel.refl _
    | with_reducible assumption
    | with_reducible refine (State.modCtx_still ..).into ?_
    | with_reducible refine (State.slotsEval_keep ..).into ?_
    | with_reducible refine Keep.ofPair (by assumption) (State.slotsEval_keep ..) ?_
    | (extract_lets +onlyGivenNames x; with_reducible refine Rel.cut (x := ?y) ?_ ?_; (case y => apply x); subst x; rotate_left; clear_value x; intro _)
    | (extract_lets +onlyGivenNames x; with_reducible refine Rel.cut (x := ?y) ?_ ?_; (case y => apply x.1); subst x; rotate_left; clear_value x; intro _)
    | (extract_lets +onlyGivenNames x; clear_value x)
    | extract_lets +onlyGivenNames x
    | simp -zeta -beta -eta -iota -proj -decide only [Keep.upd]
    | dsimp -zeta only
    | with_reducible refine Rel.ite ?_ ?_
    | split

theorem State.seqPhase1_keep (s : State) (n : ℕ) : Keep s (State.seqPhase1 s n) := by
  unfold State.seqPhase1
  repeat' first
    | with_reducible exact Rel.refl _
    | with_reducible assumption
    | with_reducible refine Rel.each (fun t x => ?_) ?_
    | with_reducible refine (State.seqCommand_keep ..).into ?_
    | with_reducible refine Keep.ofPair (by assumption) (State.seqCommand_keep ..) ?_
    | with_reducible refine (State.modCtx_still ..).into ?_
    | with_reducible refine (State.seqQueued_keep ..).into ?_
    | (extract_lets +onlyGivenNames x)
    | extract_lets +onlyGivenNames x
    | simp -zeta -beta -eta -iota -proj -decide only [Keep.upd]
    | dsimp -zeta only
    | with_reducible refine Rel.ite ?_ ?_
    | split

theorem State.seqPhase2_still (s : State) (n : ℕ) : Still s (State.seqPhase2 s n) := by
  unfold State.seqPhase2
  repeat' first
    | with_reducible exact Rel.refl _
    | with_reducible assumption
    | with_reducible refine Rel.each (fun t x => ?_) ?_
    | with_reducible refine (State.rampStep_still ..).into ?_

theorem State.seqCommit_keep (s : State) (q : ℕ) (n : ℕ) (x : SeqChange) : Keep s (State.seqCommit s q n x) := by
  unfold State.seqCommit
  repeat' first
    | with_reducible exact Rel.refl _
    | with_reducible assumption
    | with_reducible refine (State.modCtx_still ..).into ?_
    | with_reducible refine (State.seqContinue_still ..).into ?_
    | with_reducible refine (State.seqStop_still ..).into ?_
    | with_reducible refine (State.seqResume_keep ..).into ?_
    | simp -zeta -beta -eta -iota -proj -decide only [Keep.upd]
    | dsimp -zeta only
    | with_reducible refine Rel.ite ?_ ?_
    | split

theorem State.seqPhase3One_keep (s : State) (n : ℕ) (q : ℕ) : Keep s (State.seqPhase3One s n q) := by
  unfold State.seqPhase3One
  repeat' first
    | with_reducible exact Rel.refl _
    | with_reducible assumption
    | with_reducible refine (State.modCtx_still ..).into ?_
    | with_reducible refine (State.setTimeout_still ..).into ?_
    | with_reducible refine Rel.each (fun t x => ?_) ?_
    | with_reducible refine (State.seqCommit_keep ..).into ?_
    | with_reducible refine (State.seqChange_keep ..).into ?_
    | (extract_lets +onlyGivenNames x; with_reducible refine Rel.cut (x := ?y) ?_ ?_; (case y => apply x); subst x; rotate_left; clear_value x; intro _)
    | (extract_lets +onlyGivenNames x; clear_value x)
    | extract_lets +onlyGivenNames x
    | simp -zeta -beta -eta -iota -proj -decide only [Keep.upd]
    | dsimp -zeta only
    | with_reducible refine Rel.ite ?_ ?_
    | split

theorem State.seqPhase4_keep (s : State) (n : ℕ) (qs : List ℕ) : Keep s (State.seqPhase4 s n qs).1 := by
  induction qs generalizing s with
  | nil => exact Rel.refl s
  | cons q t ih =>
    unfold State.seqPhase4
    dsimp only
    split
    · split
      · exact (ih _).into (State.seqDecide_keep ..)
      · split
        · exact (ih _).into ((State.passMaster_still ..).into (State.seqDecide_keep ..))
        · exact (ih _).into (State.seqDecide_keep ..)
    · exact ih s

theorem State.seqPhase5_keep (s : State) (n : ℕ) (cut : ℕ) (ds : List (ℕ × ℕ × ℕ)) : Keep s (State.seqPhase5 s n cut ds) := by
  unfold State.seqPhase5
  repeat' first
    | with_reducible exact Rel.refl _
    | with_reducible assumption
    | with_reducible refine Rel.each (fun t x => ?_) ?_
    | with_reducible refine (State.seqChange_keep ..).into ?_
    | with_reducible refine (State.incFld_still ..).into ?_
    | with_reducible refine (State.modCtx_still ..).into ?_
    | with_reducible refine (State.dropRamps_still ..).into ?_
    | with_reducible refine (State.seqPend_still ..).into ?_

theorem State.seqPostChange_still (s : State) (x : SeqNote) : Still s (State.seqPostChange s x) := by
  unfold State.seqPostChange
  repeat' first
    | with_reducible exact Rel.refl _
    | with_reducible assumption
    | with_reducible refine (State.post_still ..).into ?_
    | (extract_lets +onlyGivenNames x; with_reducible refine Rel.cut (x := ?y) ?_ ?_; (case y => apply x); subst x; rotate_left; intro _)
    | (extract_lets +onlyGivenNames x)
    | extract_lets +onlyGivenNames x
    | simp -zeta -beta -eta -iota -proj -decide only [Rel.upd]

theorem State.seqPhase6_still (s : State) : Still s (State.seqPhase6 s) := by
  unfold State.seqPhase6
  repeat' first
    | with_reducible exact Rel.refl _
    | with_reducible assumption
    | with_reducible refine Rel.each (fun t x => ?_) ?_
    | with_reducible refine (State.putSig_still ..).into ?_
    | with_reducible refine (State.seqPostChange_still ..).into ?_
    | with_reducible refine (State.modCtx_still ..).into ?_
    | (extract_lets +onlyGivenNames x; with_reducible refine Rel.cut (x := ?y) ?_ ?_; (case y => apply x); subst x; rotate_left; intro _)
    | (extract_lets +onlyGivenNames x)
    | extract_lets +onlyGivenNames x
    | simp -zeta -beta -eta -iota -proj -decide only [Rel.upd]

theorem State.seqEvaluate_keep (s : State) (n : ℕ) (cut : ℕ) : Keep s (State.seqEvaluate s n cut) := by
  unfold State.seqEvaluate
  repeat' first
    | with_reducible exact Rel.refl _
    | with_reducible assumption
    | with_reducible refine Rel.each (fun t x => ?_) ?_
    | with_reducible refine (State.seqKernel_still ..).into ?_
    | with_reducible refine (State.seqPhase2_still ..).into ?_
    | with_reducible refine (State.seqPhase1_keep ..).into ?_
    | with_reducible refine (State.seqPhase3One_keep ..).into ?_
    | with_reducible refine (State.seqPhase4_keep ..).into ?_
    | with_reducible refine Keep.ofPair (by assumption) (State.seqPhase4_keep ..) ?_
    | with_reducible refine (State.seqPhase6_still ..).into ?_
    | with_reducible refine (State.seqPhase5_keep ..).into ?_
    | (extract_lets +onlyGivenNames x; with_reducible refine Rel.cut (x := ?y) ?_ ?_; (case y => apply x); subst x; rotate_left; intro _)
    | (extract_lets +onlyGivenNames x; with_reducible refine Rel.cut (x := ?y) ?_ ?_; (case y => apply x.1); subst x; rotate_left; intro _)
    | (extract_lets +onlyGivenNames x)
    | extract_lets +onlyGivenNames x
    | simp -zeta -beta -eta -iota -proj -decide only [Keep.upd]

theorem execSeqEvaluation_good (cut : ℕ) (cycles : ℕ) (s : State) : Good s (execSeqEvaluation cut cycles s) := by
  unfold execSeqEvaluation
  repeat' first
    | with_reducible exact Rel.refl _
    | with_reducible assumption
    | exact Good.fault _ _
    | with_reducible refine Good.next ?_
    | with_reducible refine Good.done ?_
    | with_reducible refine (State.seqEvaluate_keep ..).into ?_
    | with_reducible refine (State.done_good ..).into ?_
    | with_reducible refine (State.peakFld_still ..).into ?_
    | with_reducible refine (State.setFld_still ..).into ?_
    | (extract_lets +onlyGivenNames x; with_reducible refine Good.cutK (x := ?y) ?_ ?_; (case y => apply x); subst x; rotate_left; clear_value x; intro _)
    | extract_lets +onlyGivenNames x
    | simp -zeta -beta -eta -iota -proj -decide only [Rel.upd]
    | dsimp -zeta only
    | with_reducible refine Rel.ite ?_ ?_
    | with_reducible refine Good.ite ?_ ?_

theorem State.seqHost_good (s : State) (q : ℕ) (cmd : ℕ) (arg : ℕ) : Good s (State.seqHost s q cmd arg) := by
  unfold State.seqHost
  repeat' first
    | with_reducible exact Rel.refl _
    | with_reducible assumption
    | exact Good.fault _ _
    | with_reducible refine Good.next ?_
    | with_reducible refine Good.done ?_
    | with_reducible refine (State.seqCommand_keep ..).into ?_
    | with_reducible refine Keep.ofPair (by assumption) (State.seqCommand_keep ..) ?_
    | with_reducible refine (State.seqPhase1_keep ..).into ?_
    | with_reducible refine (State.done_good ..).into ?_
    | with_reducible refine (State.setFld_still ..).into ?_
    | (extract_lets +onlyGivenNames x; with_reducible refine Good.cutK (x := ?y) ?_ ?_; (case y => apply x.1); subst x; rotate_left; clear_value x; intro _)
    | extract_lets +onlyGivenNames x
    | simp -zeta -beta -eta -iota -proj -decide only [Rel.upd]
    | dsimp -zeta only
    | with_reducible refine Rel.ite ?_ ?_
    | with_reducible refine Good.ite ?_ ?_

theorem execSeqNop_good (seq : ℕ) (arg : ℕ) (s : State) : Good s (execSeqNop seq arg s) := by
  unfold execSeqNop
  repeat' first
    | with_reducible exact Rel.refl _
    | with_reducible assumption
    | exact Good.fault _ _
    | with_reducible refine Good.next ?_
    | with_reducible refine Good.done ?_
    | with_reducible refine (State.seqHost_good ..).into ?_

theorem execSeqLoad_good (seq : ℕ) (arg : ℕ) (s : State) : Good s (execSeqLoad seq arg s) := by
  unfold execSeqLoad
  repeat' first
    | with_reducible exact Rel.refl _
    | with_reducible assumption
    | exact Good.fault _ _
    | with_reducible refine Good.next ?_
    | with_reducible refine Good.done ?_
    | with_reducible refine (State.seqHost_good ..).into ?_

theorem execSeqStart_good (seq : ℕ) (arg : ℕ) (s : State) : Good s (execSeqStart seq arg s) := by
  unfold execSeqStart
  repeat' first
    | with_reducible exact Rel.refl _
    | with_reducible assumption
    | exact Good.fault _ _
    | with_reducible refine Good.next ?_
    | with_reducible refine Good.done ?_
    | with_reducible refine (State.seqHost_good ..).into ?_
    | with_reducible refine (State.abandonTest_still ..).into ?_

theorem execSeqHold_good (seq : ℕ) (arg : ℕ) (s : State) : Good s (execSeqHold seq arg s) := by
  unfold execSeqHold
  repeat' first
    | with_reducible exact Rel.refl _
    | with_reducible assumption
    | exact Good.fault _ _
    | with_reducible refine Good.next ?_
    | with_reducible refine Good.done ?_
    | with_reducible refine (State.seqHost_good ..).into ?_

theorem execSeqContinue_good (seq : ℕ) (arg : ℕ) (s : State) : Good s (execSeqContinue seq arg s) := by
  unfold execSeqContinue
  repeat' first
    | with_reducible exact Rel.refl _
    | with_reducible assumption
    | exact Good.fault _ _
    | with_reducible refine Good.next ?_
    | with_reducible refine Good.done ?_
    | with_reducible refine (State.seqHost_good ..).into ?_

theorem execSeqSkip_good (seq : ℕ) (arg : ℕ) (s : State) : Good s (execSeqSkip seq arg s) := by
  unfold execSeqSkip
  repeat' first
    | with_reducible exact Rel.refl _
    | with_reducible assumption
    | exact Good.fault _ _
    | with_reducible refine Good.next ?_
    | with_reducible refine Good.done ?_
    | with_reducible refine (State.seqHost_good ..).into ?_

theorem execSeqAbort_good (seq : ℕ) (arg : ℕ) (s : State) : Good s (execSeqAbort seq arg s) := by
  unfold execSeqAbort
  repeat' first
    | with_reducible exact Rel.refl _
    | with_reducible assumption
    | exact Good.fault _ _
    | with_reducible refine Good.next ?_
    | with_reducible refine Good.done ?_
    | with_reducible refine (State.seqHost_good ..).into ?_

theorem execSeqStop_good (seq : ℕ) (arg : ℕ) (s : State) : Good s (execSeqStop seq arg s) := by
  unfold execSeqStop
  repeat' first
    | with_reducible exact Rel.refl _
    | with_reducible assumption
    | exact Good.fault _ _
    | with_reducible refine Good.next ?_
    | with_reducible refine Good.done ?_
    | with_reducible refine (State.seqHost_good ..).into ?_

theorem execSeqResumeCommit_good (seq : ℕ) (arg : ℕ) (s : State) : Good s (execSeqResumeCommit seq arg s) := by
  unfold execSeqResumeCommit
  repeat' first
    | with_reducible exact Rel.refl _
    | with_reducible assumption
    | exact Good.fault _ _
    | with_reducible refine Good.next ?_
    | with_reducible refine Good.done ?_
    | with_reducible refine (State.seqHost_good ..).into ?_

theorem execSeqClear_good (seq : ℕ) (arg : ℕ) (s : State) : Good s (execSeqClear seq arg s) := by
  unfold execSeqClear
  repeat' first
    | with_reducible exact Rel.refl _
    | with_reducible assumption
    | exact Good.fault _ _
    | with_reducible refine Good.next ?_
    | with_reducible refine Good.done ?_
    | with_reducible refine (State.seqHost_good ..).into ?_

theorem State.passHold_still (s : State) (q : ℕ) (m : PassMsg) : Still s (State.passHold s q m) := by
  unfold State.passHold
  repeat' first
    | with_reducible exact Rel.refl _
    | with_reducible assumption
    | with_reducible refine (State.modCtx_still ..).into ?_
    | with_reducible refine (State.setTimeout_still ..).into ?_
    | (extract_lets +onlyGivenNames x; with_reducible refine Rel.cut (x := ?y) ?_ ?_; (case y => apply x); subst x; rotate_left; clear_value x; intro _)
    | (extract_lets +onlyGivenNames x; clear_value x)
    | extract_lets +onlyGivenNames x
    | with_reducible apply_assumption -exfalso -symm
    | simp -zeta -beta -eta -iota -proj -decide only [Rel.upd]
    | dsimp -zeta only
    | with_reducible refine Rel.ite ?_ ?_

theorem State.passAnswer_still (s : State) (q : ℕ) (code : ℕ) (attempt : ℕ) : Still s (State.passAnswer s q code attempt) := by
  unfold State.passAnswer
  repeat' first
    | with_reducible exact Rel.refl _
    | with_reducible assumption
    | (extract_lets +onlyGivenNames x)
    | extract_lets +onlyGivenNames x
    | simp -zeta -beta -eta -iota -proj -decide only [Rel.upd]

theorem execPassCommit_good (kind : ℕ) (spanSeq : ℕ) (from_ : ℕ) (target : ℕ) (atSec : ℕ) (atNs : ℕ) (attempt : ℕ) (arg : ℕ) (s : State) : Good s (execPassCommit kind spanSeq from_ target atSec atNs attempt arg s) := by
  unfold execPassCommit
  repeat' first
    | with_reducible exact Rel.refl _
    | with_reducible assumption
    | exact Good.fault _ _
    | with_reducible refine Good.next ?_
    | with_reducible refine Good.done ?_
    | with_reducible refine (State.incFld_still ..).into ?_
    | with_reducible refine (State.passAnswer_still ..).into ?_
    | with_reducible refine (State.passHold_still ..).into ?_
    | (extract_lets +onlyGivenNames x)
    | extract_lets +onlyGivenNames x
    | simp -zeta -beta -eta -iota -proj -decide only [Rel.upd]
    | dsimp -zeta only
    | with_reducible refine Rel.ite ?_ ?_
    | with_reducible refine Good.ite ?_ ?_
    | split

theorem execPassAnswer_good (spanSeq : ℕ) (pos : ℕ) (code : ℕ) (attempt : ℕ) (s : State) : Good s (execPassAnswer spanSeq pos code attempt s) := by
  unfold execPassAnswer
  repeat' first
    | with_reducible exact Rel.refl _
    | with_reducible assumption
    | exact Good.fault _ _
    | with_reducible refine Good.next ?_
    | with_reducible refine Good.done ?_
    | with_reducible refine (State.modCtx_still ..).into ?_
    | simp -zeta -beta -eta -iota -proj -decide only [Rel.upd]
    | dsimp -zeta only
    | with_reducible refine Rel.ite ?_ ?_
    | with_reducible refine Good.ite ?_ ?_

theorem execPassMiss_good (seq : ℕ) (start : ℕ) (s : State) : Good s (execPassMiss seq start s) := by
  unfold execPassMiss
  repeat' first
    | with_reducible exact Rel.refl _
    | with_reducible assumption
    | exact Good.fault _ _
    | with_reducible refine Good.next ?_
    | with_reducible refine Good.done ?_
    | with_reducible refine (State.incFld_still ..).into ?_
    | with_reducible refine (State.post_still ..).into ?_
    | with_reducible refine (State.passAnswer_still ..).into ?_
    | with_reducible refine (State.setTimeout_still ..).into ?_
    | simp -zeta -beta -eta -iota -proj -decide only [Rel.upd]
    | dsimp -zeta only
    | with_reducible refine Rel.ite ?_ ?_
    | with_reducible refine Good.ite ?_ ?_

theorem State.passMissed_keep (s : State) (q : ℕ) (p : PassOut) (missed : List ℕ) : Keep s (State.passMissed s q p missed) := by
  unfold State.passMissed
  repeat' first
    | with_reducible exact Rel.refl _
    | with_reducible assumption
    | with_reducible refine (State.incFld_still ..).into ?_
    | with_reducible refine (State.undef_keep ..).into ?_
    | with_reducible refine (State.passPost_still ..).into ?_
    | with_reducible refine (State.passMaster_still ..).into ?_
    | (extract_lets +onlyGivenNames x; with_reducible refine Rel.cut (x := ?y) ?_ ?_; (case y => apply x); subst x; rotate_left; clear_value x; intro _)
    | (extract_lets +onlyGivenNames x; clear_value x)
    | extract_lets +onlyGivenNames x
    | simp -zeta -beta -eta -iota -proj -decide only [Keep.upd]
    | dsimp -zeta only
    | with_reducible refine Rel.ite ?_ ?_

theorem execPassAckDeadline_good (seq : ℕ) (s : State) : Good s (execPassAckDeadline seq s) := by
  unfold execPassAckDeadline
  repeat' first
    | with_reducible exact Rel.refl _
    | with_reducible assumption
    | exact Good.fault _ _
    | with_reducible refine Good.next ?_
    | with_reducible refine Good.done ?_
    | with_reducible refine (State.armPass_still ..).into ?_
    | with_reducible refine (State.modCtx_still ..).into ?_
    | with_reducible refine (State.done_good ..).into ?_
    | with_reducible refine (State.passMissed_keep ..).into ?_
    | (extract_lets +onlyGivenNames x; with_reducible refine Good.cut (x := ?y) ?_ ?_; (case y => apply x); subst x; rotate_left; intro _)
    | (extract_lets +onlyGivenNames x)
    | extract_lets +onlyGivenNames x
    | simp -zeta -beta -eta -iota -proj -decide only [Rel.upd]
    | dsimp -zeta only
    | with_reducible refine Rel.ite ?_ ?_
    | with_reducible refine Good.ite ?_ ?_
    | split

theorem execSeqClrCounts_good (s : State) : Good s (execSeqClrCounts s) := by
  unfold execSeqClrCounts
  repeat' first
    | with_reducible exact Rel.refl _
    | with_reducible assumption
    | exact Good.fault _ _
    | with_reducible refine Good.next ?_
    | with_reducible refine Good.done ?_
    | with_reducible refine (State.clrRegs_still ..).into ?_

theorem execSeqClrPeaks_good (s : State) : Good s (execSeqClrPeaks s) := by
  unfold execSeqClrPeaks
  repeat' first
    | with_reducible exact Rel.refl _
    | with_reducible assumption
    | exact Good.fault _ _
    | with_reducible refine Good.next ?_
    | with_reducible refine Good.done ?_
    | with_reducible refine (State.setFld_still ..).into ?_

end Sys2Proof.Machine
end

