-- ==== Sys2Proof/Laws/KeepOperands.lean ====
section
/-!
SUPPORT. Laws/KeepOperands.lean: what the operations of Machine/Operands.lean keep.
-/

namespace Sys2Proof.Machine

theorem State.setLane_still (s : State) (l : ℕ) (v : LaneSt) : Still s (State.setLane s l v) := by
  unfold State.setLane
  repeat' first
    | with_reducible exact Rel.refl _
    | with_reducible assumption
    | simp -zeta -beta -eta -iota -proj -decide only [Rel.upd]

theorem State.modLane_still (s : State) (l : ℕ) (f : LaneSt → LaneSt) : Still s (State.modLane s l f) := by
  unfold State.modLane
  repeat' first
    | with_reducible exact Rel.refl _
    | with_reducible assumption
    | with_reducible refine (State.setLane_still ..).into ?_

theorem State.modRset_still (s : State) (l : ℕ) (f : RegSet → RegSet) : Still s (State.modRset s l f) := by
  unfold State.modRset
  repeat' first
    | with_reducible exact Rel.refl _
    | with_reducible assumption
    | with_reducible refine (State.modLane_still ..).into ?_

theorem State.ptrAccess_keep (s : State) (l : ℕ) (p : ℕ) (m : ℕ) (f : State → State) (hf : ∀ t, Keep t (f t)) : Keep s (State.ptrAccess s l p m f) := by
  unfold State.ptrAccess
  repeat' first
    | with_reducible exact Rel.refl _
    | with_reducible assumption
    | with_reducible refine (State.modRset_still ..).into ?_
    | with_reducible refine (State.undef_keep ..).into ?_
    | with_reducible refine (hf ..).into ?_
    | simp -zeta -beta -eta -iota -proj -decide only [Keep.upd]
    | dsimp -zeta only
    | with_reducible refine Rel.ite ?_ ?_

end Sys2Proof.Machine
end

