-- ==== Sys2Proof/Laws/KeepLane.lean ====
section
/-!
SUPPORT. Laws/KeepLane.lean: what the operations of Machine/Lane.lean keep.
-/

namespace Sys2Proof.Machine

theorem State.laneNext_still (s : State) (l : ℕ) : Still s (State.laneNext s l) := by
  unfold State.laneNext
  repeat' first
    | with_reducible exact Rel.refl _
    | with_reducible assumption
    | with_reducible refine (State.modRset_still ..).into ?_

theorem State.laneRetire_still (s : State) (l : ℕ) (pc : ℕ) (word : ℕ) (daddr : ℕ) (put : Bool) : Still s (State.laneRetire s l pc word daddr put) := by
  unfold State.laneRetire
  repeat' first
    | with_reducible exact Rel.refl _
    | with_reducible assumption
    | with_reducible refine (State.psRetire_still ..).into ?_
    | with_reducible refine (State.modLane_still ..).into ?_

theorem State.laneOp_good (s : State) (l : ℕ) (i : Instr) (daddr : ℕ) (f : State → State) (put : Bool) (hf : ∀ t, Keep t (f t)) : Good s (State.laneOp s l i daddr f put) := by
  unfold State.laneOp
  repeat' first
    | with_reducible exact Rel.refl _
    | with_reducible assumption
    | exact Good.fault _ _
    | with_reducible refine Good.next ?_
    | with_reducible refine Good.done ?_
    | with_reducible refine (State.done_good ..).into ?_
    | with_reducible refine (State.laneRetire_still ..).into ?_
    | with_reducible refine (State.laneNext_still ..).into ?_
    | with_reducible refine (State.undef_keep ..).into ?_
    | with_reducible refine (hf ..).into ?_
    | (extract_lets +onlyGivenNames x)
    | extract_lets +onlyGivenNames x
    | simp -zeta -beta -eta -iota -proj -decide only [Rel.upd]
    | dsimp -zeta only
    | with_reducible refine Rel.ite ?_ ?_
    | with_reducible refine Good.ite ?_ ?_

theorem State.laneReg_good (s : State) (l : ℕ) (i : Instr) (f : RegSet → RegSet) : Good s (State.laneReg s l i f) := by
  unfold State.laneReg
  repeat' first
    | with_reducible exact Rel.refl _
    | with_reducible assumption
    | exact Good.fault _ _
    | with_reducible refine Good.next ?_
    | with_reducible refine Good.done ?_
    | with_reducible refine (State.laneOp_good (hf := fun t => ?_) ..).into ?_
    | with_reducible refine (State.modRset_still ..).into ?_

theorem State.laneJump_keep (s : State) (l : ℕ) (tgt : ℕ) : Keep s (State.laneJump s l tgt) := by
  unfold State.laneJump
  repeat' first
    | with_reducible exact Rel.refl _
    | with_reducible assumption
    | with_reducible refine (State.modRset_still ..).into ?_
    | with_reducible refine (State.undef_keep ..).into ?_
    | simp -zeta -beta -eta -iota -proj -decide only [Keep.upd]
    | dsimp -zeta only
    | with_reducible refine Rel.ite ?_ ?_

theorem State.laneGo_good (s : State) (l : ℕ) (i : Instr) (f : State → State) (hf : ∀ t, Keep t (f t)) : Good s (State.laneGo s l i f) := by
  unfold State.laneGo
  repeat' first
    | with_reducible exact Rel.refl _
    | with_reducible assumption
    | exact Good.fault _ _
    | with_reducible refine Good.next ?_
    | with_reducible refine Good.done ?_
    | with_reducible refine (State.done_good ..).into ?_
    | with_reducible refine (State.laneRetire_still ..).into ?_
    | with_reducible refine (State.undef_keep ..).into ?_
    | with_reducible refine (hf ..).into ?_
    | (extract_lets +onlyGivenNames x)
    | extract_lets +onlyGivenNames x
    | simp -zeta -beta -eta -iota -proj -decide only [Rel.upd]
    | dsimp -zeta only
    | with_reducible refine Rel.ite ?_ ?_
    | with_reducible refine Good.ite ?_ ?_

theorem State.laneEnd_still (s : State) (l : ℕ) (how : ℕ) : Still s (State.laneEnd s l how) := by
  unfold State.laneEnd
  repeat' first
    | with_reducible exact Rel.refl _
    | with_reducible assumption
    | with_reducible refine (State.setLane_still ..).into ?_
    | with_reducible refine (State.setRunning_still ..).into ?_
    | with_reducible refine (State.dispatch_still ..).into ?_
    | (extract_lets +onlyGivenNames x)
    | extract_lets +onlyGivenNames x
    | simp -zeta -beta -eta -iota -proj -decide only [Rel.upd]
    | dsimp -zeta only
    | with_reducible refine Rel.ite ?_ ?_
    | split

theorem State.laneInh_still (s : State) (l : ℕ) (b : Bool) : Still s (State.laneInh s l b) := by
  unfold State.laneInh
  repeat' first
    | with_reducible exact Rel.refl _
    | with_reducible assumption
    | with_reducible refine (State.modLane_still ..).into ?_
    | simp -zeta -beta -eta -iota -proj -decide only [Rel.upd]
    | dsimp -zeta only
    | with_reducible refine Rel.ite ?_ ?_

theorem State.arcStart_keep (s : State) (l : ℕ) : Keep s (State.arcStart s l) := by
  unfold State.arcStart
  repeat' first
    | with_reducible exact Rel.refl _
    | with_reducible assumption
    | with_reducible refine (State.undef_keep ..).into ?_
    | with_reducible refine (State.modLane_still ..).into ?_
    | with_reducible refine (State.laneInh_still ..).into ?_
    | (extract_lets +onlyGivenNames x; with_reducible refine Rel.cut (x := ?y) ?_ ?_; (case y => apply x); subst x; rotate_left; clear_value x; intro _)
    | (extract_lets +onlyGivenNames x; clear_value x)
    | extract_lets +onlyGivenNames x
    | simp -zeta -beta -eta -iota -proj -decide only [Keep.upd]
    | dsimp -zeta only
    | with_reducible refine Rel.ite ?_ ?_

theorem State.modArc_still (s : State) (l : ℕ) (f : ArcState → ArcState) : Still s (State.modArc s l f) := by
  unfold State.modArc
  repeat' first
    | with_reducible exact Rel.refl _
    | with_reducible assumption
    | with_reducible refine (State.modLane_still ..).into ?_

theorem State.arcFound_still (s : State) (l : ℕ) : Still s (State.arcFound s l) := by
  unfold State.arcFound
  repeat' first
    | with_reducible exact Rel.refl _
    | with_reducible assumption
    | with_reducible refine (State.post_still ..).into ?_
    | with_reducible refine (State.laneInh_still ..).into ?_
    | with_reducible refine (State.putSig_still ..).into ?_
    | with_reducible refine (State.modArc_still ..).into ?_
    | (extract_lets +onlyGivenNames x; with_reducible refine Rel.cut (x := ?y) ?_ ?_; (case y => apply x); subst x; rotate_left; clear_value x; intro _)
    | (extract_lets +onlyGivenNames x; clear_value x)
    | extract_lets +onlyGivenNames x
    | simp -zeta -beta -eta -iota -proj -decide only [Rel.upd]
    | dsimp -zeta only
    | with_reducible refine Rel.ite ?_ ?_

theorem State.arcSample_still (s : State) (l : ℕ) (x : ℤ) : Still s (State.arcSample s l x) := by
  unfold State.arcSample
  repeat' first
    | with_reducible exact Rel.refl _
    | with_reducible assumption
    | with_reducible refine (State.modArc_still ..).into ?_
    | with_reducible refine (State.laneInh_still ..).into ?_
    | with_reducible refine (State.arcFound_still ..).into ?_
    | with_reducible refine (State.putSig_still ..).into ?_
    | (extract_lets +onlyGivenNames x; with_reducible refine Rel.cut (x := ?y) ?_ ?_; (case y => apply x); subst x; rotate_left; clear_value x; intro _)
    | (extract_lets +onlyGivenNames x; clear_value x)
    | extract_lets +onlyGivenNames x
    | simp -zeta -beta -eta -iota -proj -decide only [Rel.upd]
    | dsimp -zeta only
    | with_reducible refine Rel.ite ?_ ?_

theorem State.noteDispatch_still (s : State) (j : ℕ) (d : ℕ) : Still s (State.noteDispatch s j d) := by
  unfold State.noteDispatch
  repeat' first
    | with_reducible exact Rel.refl _
    | with_reducible assumption
    | with_reducible refine (State.pmcHist_still ..).into ?_
    | with_reducible refine (State.peakFld_still ..).into ?_
    | with_reducible refine (State.setFld_still ..).into ?_
    | (extract_lets +onlyGivenNames x; with_reducible refine Rel.cut (x := ?y) ?_ ?_; (case y => apply x); subst x; rotate_left; clear_value x; intro _)
    | (extract_lets +onlyGivenNames x; clear_value x)
    | extract_lets +onlyGivenNames x
    | simp -zeta -beta -eta -iota -proj -decide only [Rel.upd]
    | dsimp -zeta only
    | with_reducible refine Rel.ite ?_ ?_

theorem execLaneJobStart_good (lane : ℕ) (dlat : ℕ) (s : State) : Good s (execLaneJobStart lane dlat s) := by
  unfold execLaneJobStart
  repeat' first
    | with_reducible exact Rel.refl _
    | with_reducible assumption
    | exact Good.fault _ _
    | with_reducible refine Good.next ?_
    | with_reducible refine Good.done ?_
    | with_reducible refine (State.noteDispatch_still ..).into ?_
    | with_reducible refine (State.setLane_still ..).into ?_
    | with_reducible refine (State.done_good ..).into ?_
    | with_reducible refine (State.arcStart_keep ..).into ?_
    | (extract_lets +onlyGivenNames x; with_reducible refine Good.cutK (x := ?y) ?_ ?_; (case y => apply x); subst x; rotate_left; clear_value x; intro _)
    | (extract_lets +onlyGivenNames x; clear_value x)
    | extract_lets +onlyGivenNames x
    | simp -zeta -beta -eta -iota -proj -decide only [Rel.upd]
    | dsimp -zeta only
    | with_reducible refine Rel.ite ?_ ?_
    | with_reducible refine Good.ite ?_ ?_
    | split

theorem State.templateSample_keep (s : State) (k : ℕ) (i : ℕ) (b : Bool) : Keep s (State.templateSample s k i b) := by
  unfold State.templateSample
  repeat' first
    | with_reducible exact Rel.refl _
    | with_reducible assumption
    | with_reducible refine (State.undef_keep ..).into ?_
    | with_reducible refine (State.loopSample_still ..).into ?_
    | with_reducible refine (State.setPbits_still ..).into ?_
    | (extract_lets +onlyGivenNames x; with_reducible refine Rel.cut (x := ?y) ?_ ?_; (case y => apply x); subst x; rotate_left; clear_value x; intro _)
    | extract_lets +onlyGivenNames x
    | simp -zeta -beta -eta -iota -proj -decide only [Keep.upd]
    | dsimp -zeta only
    | with_reducible refine Rel.ite ?_ ?_

theorem State.vendorKernel_keep (s : State) (l : ℕ) (pc : ℕ) : Keep s (State.vendorKernel s l pc) := by
  unfold State.vendorKernel
  repeat' first
    | with_reducible exact Rel.refl _
    | with_reducible assumption
    | with_reducible refine (State.templateSample_keep ..).into ?_
    | with_reducible refine (State.undef_keep ..).into ?_
    | (extract_lets +onlyGivenNames x)
    | extract_lets +onlyGivenNames x
    | simp -zeta -beta -eta -iota -proj -decide only [Keep.upd]
    | dsimp -zeta only
    | with_reducible refine Rel.ite ?_ ?_
    | split

theorem execLaneEnd_good (lane : ℕ) (s : State) : Good s (execLaneEnd lane s) := by
  unfold execLaneEnd
  repeat' first
    | with_reducible exact Rel.refl _
    | with_reducible assumption
    | exact Good.fault _ _
    | with_reducible refine Good.next ?_
    | with_reducible refine Good.done ?_
    | with_reducible refine (State.done_good ..).into ?_
    | with_reducible refine (State.laneEnd_still ..).into ?_
    | with_reducible refine (State.laneRetire_still ..).into ?_
    | with_reducible refine (State.vendorKernel_keep ..).into ?_
    | (extract_lets +onlyGivenNames x)
    | extract_lets +onlyGivenNames x
    | simp -zeta -beta -eta -iota -proj -decide only [Rel.upd]
    | dsimp -zeta only
    | with_reducible refine Rel.ite ?_ ?_
    | with_reducible refine Good.ite ?_ ?_

theorem execLaneDataError_good (lane : ℕ) (s : State) : Good s (execLaneDataError lane s) := by
  unfold execLaneDataError
  repeat' first
    | with_reducible exact Rel.refl _
    | with_reducible assumption
    | exact Good.fault _ _
    | with_reducible refine Good.next ?_
    | with_reducible refine Good.done ?_
    | with_reducible refine (State.laneEnd_still ..).into ?_
    | with_reducible refine (State.incFld_still ..).into ?_
    | simp -zeta -beta -eta -iota -proj -decide only [Rel.upd]
    | dsimp -zeta only
    | with_reducible refine Rel.ite ?_ ?_
    | with_reducible refine Good.ite ?_ ?_

theorem State.leaveStage_still (s : State) (g : ℕ) : Still s (State.leaveStage s g) := by
  unfold State.leaveStage
  repeat' first
    | with_reducible exact Rel.refl _
    | with_reducible assumption
    | (extract_lets +onlyGivenNames x)
    | extract_lets +onlyGivenNames x
    | simp -zeta -beta -eta -iota -proj -decide only [Rel.upd]

theorem execStreamSample_good (lane : ℕ) (sample : ℕ) (s : State) : Good s (execStreamSample lane sample s) := by
  unfold execStreamSample
  repeat' first
    | with_reducible exact Rel.refl _
    | with_reducible assumption
    | exact Good.fault _ _
    | with_reducible refine Good.next ?_
    | with_reducible refine Good.done ?_
    | with_reducible refine (State.leaveStage_still ..).into ?_
    | with_reducible refine (State.incFld_still ..).into ?_
    | with_reducible refine (State.setLane_still ..).into ?_
    | with_reducible refine (State.peakFld_still ..).into ?_
    | (extract_lets +onlyGivenNames x; with_reducible refine Good.cut (x := ?y) ?_ ?_; (case y => apply x); subst x; rotate_left; clear_value x; intro _)
    | (extract_lets +onlyGivenNames x; clear_value x)
    | extract_lets +onlyGivenNames x
    | simp -zeta -beta -eta -iota -proj -decide only [Rel.upd]
    | dsimp -zeta only
    | with_reducible refine Rel.ite ?_ ?_
    | with_reducible refine Good.ite ?_ ?_

theorem State.laneMemWrite_still (s : State) (w : ℕ) : Still s (State.laneMemWrite s w) := by
  unfold State.laneMemWrite
  repeat' first
    | with_reducible exact Rel.refl _
    | with_reducible assumption
    | with_reducible refine (State.modLane_still ..).into ?_
    | (extract_lets +onlyGivenNames x)
    | extract_lets +onlyGivenNames x
    | simp -zeta -beta -eta -iota -proj -decide only [Rel.upd]
    | dsimp -zeta only
    | with_reducible refine Rel.ite ?_ ?_
    | split

theorem execLaneMemAccess_good (isWrite : Bool) (data : ℕ) (s : State) : Good s (execLaneMemAccess isWrite data s) := by
  unfold execLaneMemAccess
  repeat' first
    | with_reducible exact Rel.refl _
    | with_reducible assumption
    | exact Good.fault _ _
    | with_reducible refine Good.next ?_
    | with_reducible refine Good.done ?_
    | with_reducible refine (State.laneMemWrite_still ..).into ?_
    | with_reducible refine (State.setReg_still ..).into ?_
    | with_reducible refine (State.useFree_still ..).into ?_
    | with_reducible refine (State.wrapFld_still ..).into ?_
    | (extract_lets +onlyGivenNames x; with_reducible refine Rel.cut (x := ?y) ?_ ?_; (case y => apply x); subst x; rotate_left; clear_value x; intro _)
    | extract_lets +onlyGivenNames x
    | simp -zeta -beta -eta -iota -proj -decide only [Rel.upd]
    | dsimp -zeta only
    | with_reducible refine Rel.ite ?_ ?_

theorem execLaneClrCounts_good (s : State) : Good s (execLaneClrCounts s) := by
  unfold execLaneClrCounts
  repeat' first
    | with_reducible exact Rel.refl _
    | with_reducible assumption
    | exact Good.fault _ _
    | with_reducible refine Good.next ?_
    | with_reducible refine Good.done ?_
    | with_reducible refine Rel.each (fun t x => ?_) ?_
    | with_reducible refine (State.clrRegs_still ..).into ?_
    | with_reducible refine (State.setFld_still ..).into ?_

theorem execLaneClrPeaks_good (s : State) : Good s (execLaneClrPeaks s) := by
  unfold execLaneClrPeaks
  repeat' first
    | with_reducible exact Rel.refl _
    | with_reducible assumption
    | exact Good.fault _ _
    | with_reducible refine Good.next ?_
    | with_reducible refine Good.done ?_
    | with_reducible refine Rel.each (fun t x => ?_) ?_
    | with_reducible refine (State.setFld_still ..).into ?_

theorem execLaneNop_good (lane : ℕ) (s : State) : Good s (execLaneNop lane s) := by
  unfold execLaneNop
  repeat' first
    | with_reducible exact Rel.refl _
    | with_reducible assumption
    | exact Good.fault _ _
    | with_reducible refine Good.next ?_
    | with_reducible refine Good.done ?_
    | with_reducible refine (State.laneOp_good (hf := fun t => ?_) ..).into ?_

theorem execLaneJmp_good (lane : ℕ) (tgt : ℕ) (s : State) : Good s (execLaneJmp lane tgt s) := by
  unfold execLaneJmp
  repeat' first
    | with_reducible exact Rel.refl _
    | with_reducible assumption
    | exact Good.fault _ _
    | with_reducible refine Good.next ?_
    | with_reducible refine Good.done ?_
    | with_reducible refine (State.laneGo_good (hf := fun t => ?_) ..).into ?_
    | with_reducible refine (State.laneJump_keep ..).into ?_

theorem execLaneBr_good (lane : ℕ) (cc : ℕ) (tgt : ℕ) (s : State) : Good s (execLaneBr lane cc tgt s) := by
  unfold execLaneBr
  repeat' first
    | with_reducible exact Rel.refl _
    | with_reducible assumption
    | exact Good.fault _ _
    | with_reducible refine Good.next ?_
    | with_reducible refine Good.done ?_
    | with_reducible refine (State.laneGo_good (hf := fun t => ?_) ..).into ?_
    | with_reducible refine (State.undef_keep ..).into ?_
    | with_reducible refine (State.laneJump_keep ..).into ?_
    | with_reducible refine (State.laneNext_still ..).into ?_
    | simp -zeta -beta -eta -iota -proj -decide only [Rel.upd]
    | dsimp -zeta only
    | with_reducible refine Rel.ite ?_ ?_

theorem execLaneCall_good (lane : ℕ) (tgt : ℕ) (s : State) : Good s (execLaneCall lane tgt s) := by
  unfold execLaneCall
  repeat' first
    | with_reducible exact Rel.refl _
    | with_reducible assumption
    | exact Good.fault _ _
    | with_reducible refine Good.next ?_
    | with_reducible refine Good.done ?_
    | with_reducible refine (State.laneGo_good (hf := fun t => ?_) ..).into ?_
    | with_reducible refine (State.undef_keep ..).into ?_
    | with_reducible refine (State.laneJump_keep ..).into ?_
    | with_reducible refine (State.modRset_still ..).into ?_
    | (extract_lets +onlyGivenNames x)
    | extract_lets +onlyGivenNames x
    | simp -zeta -beta -eta -iota -proj -decide only [Rel.upd]
    | dsimp -zeta only
    | with_reducible refine Rel.ite ?_ ?_

theorem execLaneRet_good (lane : ℕ) (s : State) : Good s (execLaneRet lane s) := by
  unfold execLaneRet
  repeat' first
    | with_reducible exact Rel.refl _
    | with_reducible assumption
    | exact Good.fault _ _
    | with_reducible refine Good.next ?_
    | with_reducible refine Good.done ?_
    | with_reducible refine (State.laneGo_good (hf := fun t => ?_) ..).into ?_
    | with_reducible refine (State.undef_keep ..).into ?_
    | with_reducible refine (State.laneJump_keep ..).into ?_
    | with_reducible refine (State.modRset_still ..).into ?_
    | simp -zeta -beta -eta -iota -proj -decide only [Rel.upd]
    | dsimp -zeta only
    | with_reducible refine Rel.ite ?_ ?_
    | with_reducible refine Good.ite ?_ ?_
    | split

theorem execLaneLoop_good (lane : ℕ) (i : Bool) (x : ℕ) (last : ℕ) (s : State) : Good s (execLaneLoop lane i x last s) := by
  unfold execLaneLoop
  repeat' first
    | with_reducible exact Rel.refl _
    | with_reducible assumption
    | exact Good.fault _ _
    | with_reducible refine Good.next ?_
    | with_reducible refine Good.done ?_
    | with_reducible refine (State.laneGo_good (hf := fun t => ?_) ..).into ?_
    | with_reducible refine (State.useFree_still ..).into ?_
    | with_reducible refine (State.undef_keep ..).into ?_
    | with_reducible refine (State.laneJump_keep ..).into ?_
    | with_reducible refine (State.modRset_still ..).into ?_
    | (extract_lets +onlyGivenNames x; with_reducible refine Rel.cut (x := ?y) ?_ ?_; (case y => apply x); subst x; rotate_left; intro _)
    | (extract_lets +onlyGivenNames x)
    | extract_lets +onlyGivenNames x
    | simp -zeta -beta -eta -iota -proj -decide only [Rel.upd]
    | dsimp -zeta only
    | with_reducible refine Rel.ite ?_ ?_

theorem execLaneWaits_good (lane : ℕ) (n : ℕ) (s : State) : Good s (execLaneWaits lane n s) := by
  unfold execLaneWaits
  repeat' first
    | with_reducible exact Rel.refl _
    | with_reducible assumption
    | exact Good.fault _ _
    | with_reducible refine Good.next ?_
    | with_reducible refine Good.done ?_
    | with_reducible refine (State.modLane_still ..).into ?_
    | with_reducible refine (State.laneOp_good (hf := fun t => ?_) ..).into ?_
    | with_reducible refine (State.undef_keep ..).into ?_
    | simp -zeta -beta -eta -iota -proj -decide only [Rel.upd]
    | dsimp -zeta only
    | with_reducible refine Rel.ite ?_ ?_
    | with_reducible refine Good.ite ?_ ?_

theorem execLaneInh_good (lane : ℕ) (v : Bool) (s : State) : Good s (execLaneInh lane v s) := by
  unfold execLaneInh
  repeat' first
    | with_reducible exact Rel.refl _
    | with_reducible assumption
    | exact Good.fault _ _
    | with_reducible refine Good.next ?_
    | with_reducible refine Good.done ?_
    | with_reducible refine (State.laneOp_good (hf := fun t => ?_) ..).into ?_
    | with_reducible refine (State.laneInh_still ..).into ?_

theorem execLaneEvt_good (lane : ℕ) (c : Bool) (code : ℕ) (s : State) : Good s (execLaneEvt lane c code s) := by
  unfold execLaneEvt
  repeat' first
    | with_reducible exact Rel.refl _
    | with_reducible assumption
    | exact Good.fault _ _
    | with_reducible refine Good.next ?_
    | with_reducible refine Good.done ?_
    | with_reducible refine (State.laneOp_good (hf := fun t => ?_) ..).into ?_
    | with_reducible refine (State.post_still ..).into ?_

theorem execLaneLdi_good (lane : ℕ) (d : ℕ) (imm : ℕ) (s : State) : Good s (execLaneLdi lane d imm s) := by
  unfold execLaneLdi
  repeat' first
    | with_reducible exact Rel.refl _
    | with_reducible assumption
    | exact Good.fault _ _
    | with_reducible refine Good.next ?_
    | with_reducible refine Good.done ?_
    | with_reducible refine (State.laneReg_good ..).into ?_

theorem execLaneLdp_good (lane : ℕ) (p : ℕ) (imm : ℕ) (s : State) : Good s (execLaneLdp lane p imm s) := by
  unfold execLaneLdp
  repeat' first
    | with_reducible exact Rel.refl _
    | with_reducible assumption
    | exact Good.fault _ _
    | with_reducible refine Good.next ?_
    | with_reducible refine Good.done ?_
    | with_reducible refine (State.laneReg_good ..).into ?_

theorem execLaneLdm_good (lane : ℕ) (p : ℕ) (imm : ℕ) (s : State) : Good s (execLaneLdm lane p imm s) := by
  unfold execLaneLdm
  repeat' first
    | with_reducible exact Rel.refl _
    | with_reducible assumption
    | exact Good.fault _ _
    | with_reducible refine Good.next ?_
    | with_reducible refine Good.done ?_
    | with_reducible refine (State.laneReg_good ..).into ?_

theorem execLaneLdz_good (lane : ℕ) (p : ℕ) (k : ℕ) (s : State) : Good s (execLaneLdz lane p k s) := by
  unfold execLaneLdz
  repeat' first
    | with_reducible exact Rel.refl _
    | with_reducible assumption
    | exact Good.fault _ _
    | with_reducible refine Good.next ?_
    | with_reducible refine Good.done ?_
    | with_reducible refine (State.laneReg_good ..).into ?_

theorem execLaneMovx_good (lane : ℕ) (d : ℕ) (sp : ℕ) (dir : Bool) (s : State) : Good s (execLaneMovx lane d sp dir s) := by
  unfold execLaneMovx
  repeat' first
    | with_reducible exact Rel.refl _
    | with_reducible assumption
    | exact Good.fault _ _
    | with_reducible refine Good.next ?_
    | with_reducible refine Good.done ?_
    | with_reducible refine (State.laneOp_good (hf := fun t => ?_) ..).into ?_
    | with_reducible refine (State.undef_keep ..).into ?_
    | with_reducible refine (State.modRset_still ..).into ?_
    | simp -zeta -beta -eta -iota -proj -decide only [Rel.upd]
    | dsimp -zeta only
    | with_reducible refine Rel.ite ?_ ?_

theorem execLaneSetm_good (lane : ℕ) (sat : Bool) (rnd : Bool) (msh : ℕ) (s : State) : Good s (execLaneSetm lane sat rnd msh s) := by
  unfold execLaneSetm
  repeat' first
    | with_reducible exact Rel.refl _
    | with_reducible assumption
    | exact Good.fault _ _
    | with_reducible refine Good.next ?_
    | with_reducible refine Good.done ?_
    | with_reducible refine (State.laneReg_good ..).into ?_

theorem execLaneLd_good (lane : ℕ) (d : ℕ) (p : ℕ) (m : ℕ) (s : State) : Good s (execLaneLd lane d p m s) := by
  unfold execLaneLd
  repeat' first
    | with_reducible exact Rel.refl _
    | with_reducible assumption
    | exact Good.fault _ _
    | with_reducible refine Good.next ?_
    | with_reducible refine Good.done ?_
    | with_reducible refine (State.laneOp_good (hf := fun t => ?_) ..).into ?_
    | with_reducible refine (State.ptrAccess_keep (hf := fun t => ?_) ..).into ?_
    | with_reducible refine (State.modRset_still ..).into ?_

theorem execLaneSt_good (lane : ℕ) (r : ℕ) (p : ℕ) (m : ℕ) (s : State) : Good s (execLaneSt lane r p m s) := by
  unfold execLaneSt
  repeat' first
    | with_reducible exact Rel.refl _
    | with_reducible assumption
    | exact Good.fault _ _
    | with_reducible refine Good.next ?_
    | with_reducible refine Good.done ?_
    | with_reducible refine (State.laneOp_good (hf := fun t => ?_) ..).into ?_
    | with_reducible refine (State.ptrAccess_keep (hf := fun t => ?_) ..).into ?_
    | with_reducible refine (State.modLane_still ..).into ?_

theorem execLaneLd2_good (lane : ℕ) (d : ℕ) (x : ℕ) (mx : ℕ) (y : ℕ) (my : ℕ) (s : State) : Good s (execLaneLd2 lane d x mx y my s) := by
  unfold execLaneLd2
  repeat' first
    | with_reducible exact Rel.refl _
    | with_reducible assumption
    | exact Good.fault _ _
    | with_reducible refine Good.next ?_
    | with_reducible refine Good.done ?_
    | with_reducible refine (State.laneOp_good (hf := fun t => ?_) ..).into ?_
    | with_reducible refine (State.undef_keep ..).into ?_
    | with_reducible refine (State.ptrAccess_keep (hf := fun t => ?_) ..).into ?_
    | with_reducible refine (State.modRset_still ..).into ?_
    | simp -zeta -beta -eta -iota -proj -decide only [Rel.upd]
    | dsimp -zeta only
    | with_reducible refine Rel.ite ?_ ?_

theorem execLaneLim_good (lane : ℕ) (d : ℕ) (r : ℕ) (t : ℕ) (s : State) : Good s (execLaneLim lane d r t s) := by
  unfold execLaneLim
  repeat' first
    | with_reducible exact Rel.refl _
    | with_reducible assumption
    | exact Good.fault _ _
    | with_reducible refine Good.next ?_
    | with_reducible refine Good.done ?_
    | with_reducible refine (State.laneOp_good (hf := fun t => ?_) ..).into ?_
    | with_reducible refine (State.useFree_still ..).into ?_
    | with_reducible refine (State.modRset_still ..).into ?_
    | (extract_lets +onlyGivenNames x)
    | extract_lets +onlyGivenNames x
    | simp -zeta -beta -eta -iota -proj -decide only [Rel.upd]
    | dsimp -zeta only
    | with_reducible refine Rel.ite ?_ ?_

theorem execLaneGet_good (lane : ℕ) (d : ℕ) (ind : Bool) (x : ℕ) (s : State) : Good s (execLaneGet lane d ind x s) := by
  unfold execLaneGet
  repeat' first
    | with_reducible exact Rel.refl _
    | with_reducible assumption
    | exact Good.fault _ _
    | with_reducible refine Good.next ?_
    | with_reducible refine Good.done ?_
    | with_reducible refine (State.laneOp_good (hf := fun t => ?_) ..).into ?_
    | with_reducible refine (State.modRset_still ..).into ?_
    | with_reducible refine (State.undef_keep ..).into ?_
    | (extract_lets +onlyGivenNames x)
    | extract_lets +onlyGivenNames x
    | simp -zeta -beta -eta -iota -proj -decide only [Rel.upd]
    | dsimp -zeta only
    | with_reducible refine Rel.ite ?_ ?_

theorem execLaneGetw_good (lane : ℕ) (d : ℕ) (ind : Bool) (x : ℕ) (s : State) : Good s (execLaneGetw lane d ind x s) := by
  unfold execLaneGetw
  repeat' first
    | with_reducible exact Rel.refl _
    | with_reducible assumption
    | exact Good.fault _ _
    | with_reducible refine Good.next ?_
    | with_reducible refine Good.done ?_
    | with_reducible refine (State.laneOp_good (hf := fun t => ?_) ..).into ?_
    | with_reducible refine (State.undef_keep ..).into ?_
    | with_reducible refine (State.modRset_still ..).into ?_
    | (extract_lets +onlyGivenNames x)
    | extract_lets +onlyGivenNames x
    | simp -zeta -beta -eta -iota -proj -decide only [Rel.upd]
    | dsimp -zeta only
    | with_reducible refine Rel.ite ?_ ?_

theorem State.lanePut_keep (s : State) (i : ℕ) (w : ℕ) : Keep s (State.lanePut s i w) := by
  unfold State.lanePut
  repeat' first
    | with_reducible exact Rel.refl _
    | with_reducible assumption
    | with_reducible refine (State.undef_keep ..).into ?_
    | with_reducible refine (State.putSig_still ..).into ?_
    | simp -zeta -beta -eta -iota -proj -decide only [Keep.upd]
    | dsimp -zeta only
    | with_reducible refine Rel.ite ?_ ?_

theorem execLanePut_good (lane : ℕ) (r : ℕ) (ind : Bool) (x : ℕ) (s : State) : Good s (execLanePut lane r ind x s) := by
  unfold execLanePut
  repeat' first
    | with_reducible exact Rel.refl _
    | with_reducible assumption
    | exact Good.fault _ _
    | with_reducible refine Good.next ?_
    | with_reducible refine Good.done ?_
    | with_reducible refine (State.laneOp_good (hf := fun t => ?_) ..).into ?_
    | with_reducible refine (State.lanePut_keep ..).into ?_

theorem execLanePutw_good (lane : ℕ) (r : ℕ) (ind : Bool) (x : ℕ) (s : State) : Good s (execLanePutw lane r ind x s) := by
  unfold execLanePutw
  repeat' first
    | with_reducible exact Rel.refl _
    | with_reducible assumption
    | exact Good.fault _ _
    | with_reducible refine Good.next ?_
    | with_reducible refine Good.done ?_
    | with_reducible refine (State.laneOp_good (hf := fun t => ?_) ..).into ?_
    | with_reducible refine (State.undef_keep ..).into ?_
    | with_reducible refine (State.lanePut_keep ..).into ?_
    | (extract_lets +onlyGivenNames x)
    | extract_lets +onlyGivenNames x
    | simp -zeta -beta -eta -iota -proj -decide only [Rel.upd]
    | dsimp -zeta only
    | with_reducible refine Rel.ite ?_ ?_

theorem execLaneFld_good (lane : ℕ) (d : ℕ) (disp : ℕ) (s : State) : Good s (execLaneFld lane d disp s) := by
  unfold execLaneFld
  repeat' first
    | with_reducible exact Rel.refl _
    | with_reducible assumption
    | exact Good.fault _ _
    | with_reducible refine Good.next ?_
    | with_reducible refine Good.done ?_
    | with_reducible refine (State.laneOp_good (hf := fun t => ?_) ..).into ?_
    | with_reducible refine (State.undef_keep ..).into ?_
    | with_reducible refine (State.modRset_still ..).into ?_
    | (extract_lets +onlyGivenNames x)
    | extract_lets +onlyGivenNames x
    | simp -zeta -beta -eta -iota -proj -decide only [Rel.upd]
    | dsimp -zeta only
    | with_reducible refine Rel.ite ?_ ?_

theorem execLaneFst_good (lane : ℕ) (r : ℕ) (disp : ℕ) (s : State) : Good s (execLaneFst lane r disp s) := by
  unfold execLaneFst
  repeat' first
    | with_reducible exact Rel.refl _
    | with_reducible assumption
    | exact Good.fault _ _
    | with_reducible refine Good.next ?_
    | with_reducible refine Good.done ?_
    | with_reducible refine (State.laneOp_good (hf := fun t => ?_) ..).into ?_
    | with_reducible refine (State.undef_keep ..).into ?_
    | with_reducible refine (State.busWord_still ..).into ?_
    | (extract_lets +onlyGivenNames x)
    | extract_lets +onlyGivenNames x
    | simp -zeta -beta -eta -iota -proj -decide only [Rel.upd]
    | dsimp -zeta only
    | with_reducible refine Rel.ite ?_ ?_

theorem State.fifoPop_still (s : State) (l : ℕ) : Still s (State.fifoPop s l) := by
  unfold State.fifoPop
  repeat' first
    | with_reducible exact Rel.refl _
    | with_reducible assumption
    | with_reducible refine (State.modLane_still ..).into ?_

theorem execLanePop_good (lane : ℕ) (d : ℕ) (s : State) : Good s (execLanePop lane d s) := by
  unfold execLanePop
  repeat' first
    | with_reducible exact Rel.refl _
    | with_reducible assumption
    | exact Good.fault _ _
    | with_reducible refine Good.next ?_
    | with_reducible refine Good.done ?_
    | with_reducible refine (State.modLane_still ..).into ?_
    | with_reducible refine (State.done_good ..).into ?_
    | with_reducible refine (State.arcSample_still ..).into ?_
    | with_reducible refine (State.fifoPop_still ..).into ?_
    | with_reducible refine (State.laneOp_good (hf := fun t => ?_) ..).into ?_
    | with_reducible refine (State.modRset_still ..).into ?_
    | (extract_lets +onlyGivenNames x)
    | extract_lets +onlyGivenNames x
    | simp -zeta -beta -eta -iota -proj -decide only [Rel.upd]
    | dsimp -zeta only
    | with_reducible refine Rel.ite ?_ ?_
    | with_reducible refine Good.ite ?_ ?_
    | split

theorem State.mulReg_good (s : State) (l : ℕ) (i : Instr) (a : Bool) (kind : ℕ) (r : ℕ) (t : ℕ) : Good s (State.mulReg s l i a kind r t) := by
  unfold State.mulReg
  repeat' first
    | with_reducible exact Rel.refl _
    | with_reducible assumption
    | exact Good.fault _ _
    | with_reducible refine Good.next ?_
    | with_reducible refine Good.done ?_
    | with_reducible refine (State.laneReg_good ..).into ?_

theorem State.mulMem_good (s : State) (l : ℕ) (i : Instr) (a : Bool) (kind : ℕ) (r : ℕ) (p : ℕ) (m : ℕ) : Good s (State.mulMem s l i a kind r p m) := by
  unfold State.mulMem
  repeat' first
    | with_reducible exact Rel.refl _
    | with_reducible assumption
    | exact Good.fault _ _
    | with_reducible refine Good.next ?_
    | with_reducible refine Good.done ?_
    | with_reducible refine (State.laneOp_good (hf := fun t => ?_) ..).into ?_
    | with_reducible refine (State.ptrAccess_keep (hf := fun t => ?_) ..).into ?_
    | with_reducible refine (State.modRset_still ..).into ?_

theorem State.mulDual_good (s : State) (l : ℕ) (i : Instr) (a : Bool) (kind : ℕ) (x : ℕ) (mx : ℕ) (y : ℕ) (my : ℕ) : Good s (State.mulDual s l i a kind x mx y my) := by
  unfold State.mulDual
  repeat' first
    | with_reducible exact Rel.refl _
    | with_reducible assumption
    | exact Good.fault _ _
    | with_reducible refine Good.next ?_
    | with_reducible refine Good.done ?_
    | with_reducible refine (State.laneOp_good (hf := fun t => ?_) ..).into ?_
    | with_reducible refine (State.modRset_still ..).into ?_
    | with_reducible refine (State.ptrAccess_keep (hf := fun t => ?_) ..).into ?_

theorem execLaneMpyReg_good (lane : ℕ) (a : Bool) (r : ℕ) (t : ℕ) (s : State) : Good s (execLaneMpyReg lane a r t s) := by
  unfold execLaneMpyReg
  repeat' first
    | with_reducible exact Rel.refl _
    | with_reducible assumption
    | exact Good.fault _ _
    | with_reducible refine Good.next ?_
    | with_reducible refine Good.done ?_
    | with_reducible refine (State.mulReg_good ..).into ?_

theorem execLaneMpyMem_good (lane : ℕ) (a : Bool) (r : ℕ) (p : ℕ) (m : ℕ) (s : State) : Good s (execLaneMpyMem lane a r p m s) := by
  unfold execLaneMpyMem
  repeat' first
    | with_reducible exact Rel.refl _
    | with_reducible assumption
    | exact Good.fault _ _
    | with_reducible refine Good.next ?_
    | with_reducible refine Good.done ?_
    | with_reducible refine (State.mulMem_good ..).into ?_

theorem execLaneMpyDual_good (lane : ℕ) (a : Bool) (x : ℕ) (mx : ℕ) (y : ℕ) (my : ℕ) (s : State) : Good s (execLaneMpyDual lane a x mx y my s) := by
  unfold execLaneMpyDual
  repeat' first
    | with_reducible exact Rel.refl _
    | with_reducible assumption
    | exact Good.fault _ _
    | with_reducible refine Good.next ?_
    | with_reducible refine Good.done ?_
    | with_reducible refine (State.mulDual_good ..).into ?_

theorem execLaneMacReg_good (lane : ℕ) (a : Bool) (r : ℕ) (t : ℕ) (s : State) : Good s (execLaneMacReg lane a r t s) := by
  unfold execLaneMacReg
  repeat' first
    | with_reducible exact Rel.refl _
    | with_reducible assumption
    | exact Good.fault _ _
    | with_reducible refine Good.next ?_
    | with_reducible refine Good.done ?_
    | with_reducible refine (State.mulReg_good ..).into ?_

theorem execLaneMacMem_good (lane : ℕ) (a : Bool) (r : ℕ) (p : ℕ) (m : ℕ) (s : State) : Good s (execLaneMacMem lane a r p m s) := by
  unfold execLaneMacMem
  repeat' first
    | with_reducible exact Rel.refl _
    | with_reducible assumption
    | exact Good.fault _ _
    | with_reducible refine Good.next ?_
    | with_reducible refine Good.done ?_
    | with_reducible refine (State.mulMem_good ..).into ?_

theorem execLaneMacDual_good (lane : ℕ) (a : Bool) (x : ℕ) (mx : ℕ) (y : ℕ) (my : ℕ) (s : State) : Good s (execLaneMacDual lane a x mx y my s) := by
  unfold execLaneMacDual
  repeat' first
    | with_reducible exact Rel.refl _
    | with_reducible assumption
    | exact Good.fault _ _
    | with_reducible refine Good.next ?_
    | with_reducible refine Good.done ?_
    | with_reducible refine (State.mulDual_good ..).into ?_

theorem execLaneMsuReg_good (lane : ℕ) (a : Bool) (r : ℕ) (t : ℕ) (s : State) : Good s (execLaneMsuReg lane a r t s) := by
  unfold execLaneMsuReg
  repeat' first
    | with_reducible exact Rel.refl _
    | with_reducible assumption
    | exact Good.fault _ _
    | with_reducible refine Good.next ?_
    | with_reducible refine Good.done ?_
    | with_reducible refine (State.mulReg_good ..).into ?_

theorem execLaneMsuMem_good (lane : ℕ) (a : Bool) (r : ℕ) (p : ℕ) (m : ℕ) (s : State) : Good s (execLaneMsuMem lane a r p m s) := by
  unfold execLaneMsuMem
  repeat' first
    | with_reducible exact Rel.refl _
    | with_reducible assumption
    | exact Good.fault _ _
    | with_reducible refine Good.next ?_
    | with_reducible refine Good.done ?_
    | with_reducible refine (State.mulMem_good ..).into ?_

theorem execLaneMsuDual_good (lane : ℕ) (a : Bool) (x : ℕ) (mx : ℕ) (y : ℕ) (my : ℕ) (s : State) : Good s (execLaneMsuDual lane a x mx y my s) := by
  unfold execLaneMsuDual
  repeat' first
    | with_reducible exact Rel.refl _
    | with_reducible assumption
    | exact Good.fault _ _
    | with_reducible refine Good.next ?_
    | with_reducible refine Good.done ?_
    | with_reducible refine (State.mulDual_good ..).into ?_

theorem execLaneMpyu_good (lane : ℕ) (a : Bool) (r : ℕ) (t : ℕ) (s : State) : Good s (execLaneMpyu lane a r t s) := by
  unfold execLaneMpyu
  repeat' first
    | with_reducible exact Rel.refl _
    | with_reducible assumption
    | exact Good.fault _ _
    | with_reducible refine Good.next ?_
    | with_reducible refine Good.done ?_
    | with_reducible refine (State.laneReg_good ..).into ?_

theorem execLaneAdd_good (lane : ℕ) (d : ℕ) (r : ℕ) (t : ℕ) (s : State) : Good s (execLaneAdd lane d r t s) := by
  unfold execLaneAdd
  repeat' first
    | with_reducible exact Rel.refl _
    | with_reducible assumption
    | exact Good.fault _ _
    | with_reducible refine Good.next ?_
    | with_reducible refine Good.done ?_
    | with_reducible refine (State.laneReg_good ..).into ?_

theorem execLaneSub_good (lane : ℕ) (d : ℕ) (r : ℕ) (t : ℕ) (s : State) : Good s (execLaneSub lane d r t s) := by
  unfold execLaneSub
  repeat' first
    | with_reducible exact Rel.refl _
    | with_reducible assumption
    | exact Good.fault _ _
    | with_reducible refine Good.next ?_
    | with_reducible refine Good.done ?_
    | with_reducible refine (State.laneReg_good ..).into ?_

theorem execLaneMinmax_good (lane : ℕ) (d : ℕ) (r : ℕ) (t : ℕ) (f : Bool) (s : State) : Good s (execLaneMinmax lane d r t f s) := by
  unfold execLaneMinmax
  repeat' first
    | with_reducible exact Rel.refl _
    | with_reducible assumption
    | exact Good.fault _ _
    | with_reducible refine Good.next ?_
    | with_reducible refine Good.done ?_
    | with_reducible refine (State.laneReg_good ..).into ?_

theorem execLaneLog_good (lane : ℕ) (d : ℕ) (r : ℕ) (t : ℕ) (f : ℕ) (s : State) : Good s (execLaneLog lane d r t f s) := by
  unfold execLaneLog
  repeat' first
    | with_reducible exact Rel.refl _
    | with_reducible assumption
    | exact Good.fault _ _
    | with_reducible refine Good.next ?_
    | with_reducible refine Good.done ?_
    | with_reducible refine (State.laneReg_good ..).into ?_

theorem execLaneShd_good (lane : ℕ) (d : ℕ) (r : ℕ) (k : Bool) (n : ℕ) (s : State) : Good s (execLaneShd lane d r k n s) := by
  unfold execLaneShd
  repeat' first
    | with_reducible exact Rel.refl _
    | with_reducible assumption
    | exact Good.fault _ _
    | with_reducible refine Good.next ?_
    | with_reducible refine Good.done ?_
    | with_reducible refine (State.laneReg_good ..).into ?_

theorem execLaneCmp_good (lane : ℕ) (r : ℕ) (t : ℕ) (s : State) : Good s (execLaneCmp lane r t s) := by
  unfold execLaneCmp
  repeat' first
    | with_reducible exact Rel.refl _
    | with_reducible assumption
    | exact Good.fault _ _
    | with_reducible refine Good.next ?_
    | with_reducible refine Good.done ?_
    | with_reducible refine (State.laneReg_good ..).into ?_

theorem execLaneAcc_good (lane : ℕ) (a : Bool) (f : ℕ) (s : State) : Good s (execLaneAcc lane a f s) := by
  unfold execLaneAcc
  repeat' first
    | with_reducible exact Rel.refl _
    | with_reducible assumption
    | exact Good.fault _ _
    | with_reducible refine Good.next ?_
    | with_reducible refine Good.done ?_
    | with_reducible refine (State.laneReg_good ..).into ?_

theorem execLaneSha_good (lane : ℕ) (a : Bool) (v : Bool) (x : ℕ) (s : State) : Good s (execLaneSha lane a v x s) := by
  unfold execLaneSha
  repeat' first
    | with_reducible exact Rel.refl _
    | with_reducible assumption
    | exact Good.fault _ _
    | with_reducible refine Good.next ?_
    | with_reducible refine Good.done ?_
    | with_reducible refine (State.laneReg_good ..).into ?_

theorem execLaneMva_good (lane : ℕ) (a : Bool) (d : ℕ) (r : Bool) (o : Bool) (sh : ℕ) (s : State) : Good s (execLaneMva lane a d r o sh s) := by
  unfold execLaneMva
  repeat' first
    | with_reducible exact Rel.refl _
    | with_reducible assumption
    | exact Good.fault _ _
    | with_reducible refine Good.next ?_
    | with_reducible refine Good.done ?_
    | with_reducible refine (State.laneReg_good ..).into ?_

theorem execLaneMvd_good (lane : ℕ) (a : Bool) (r : ℕ) (o : Bool) (sh : ℕ) (s : State) : Good s (execLaneMvd lane a r o sh s) := by
  unfold execLaneMvd
  repeat' first
    | with_reducible exact Rel.refl _
    | with_reducible assumption
    | exact Good.fault _ _
    | with_reducible refine Good.next ?_
    | with_reducible refine Good.done ?_
    | with_reducible refine (State.laneReg_good ..).into ?_

theorem execLaneNorm_good (lane : ℕ) (a : Bool) (d : ℕ) (e : Bool) (s : State) : Good s (execLaneNorm lane a d e s) := by
  unfold execLaneNorm
  repeat' first
    | with_reducible exact Rel.refl _
    | with_reducible assumption
    | exact Good.fault _ _
    | with_reducible refine Good.next ?_
    | with_reducible refine Good.done ?_
    | with_reducible refine (State.laneReg_good ..).into ?_

end Sys2Proof.Machine
end

