-- ==== Sys2Proof/Laws/KeepLogic.lean ====
section
/-!
SUPPORT. Laws/KeepLogic.lean: what the operations of Machine/Logic.lean keep.
-/

namespace Sys2Proof.Machine

theorem State.setTask_still (s : State) (n : ℕ) (c : TaskCtx) : Still s (State.setTask s n c) := by
  unfold State.setTask
  repeat' first
    | with_reducible exact Rel.refl _
    | with_reducible assumption
    | (extract_lets +onlyGivenNames x)
    | extract_lets +onlyGivenNames x
    | simp -zeta -beta -eta -iota -proj -decide only [Rel.upd]

theorem State.modTask_still (s : State) (n : ℕ) (f : TaskCtx → TaskCtx) : Still s (State.modTask s n f) := by
  unfold State.modTask
  repeat' first
    | with_reducible exact Rel.refl _
    | with_reducible assumption
    | with_reducible refine (State.setTask_still ..).into ?_

theorem State.vmPut_still (s : State) (a : ℕ) (bs : List Byte) : Still s (State.vmPut s a bs) := by
  unfold State.vmPut
  repeat' first
    | with_reducible exact Rel.refl _
    | with_reducible assumption
    | (extract_lets +onlyGivenNames x)
    | extract_lets +onlyGivenNames x
    | simp -zeta -beta -eta -iota -proj -decide only [Rel.upd]

theorem State.vmStore_still (s : State) (n : ℕ) (a : ℕ) (bs : List Byte) : Still s (State.vmStore s n a bs) := by
  unfold State.vmStore
  repeat' first
    | with_reducible exact Rel.refl _
    | with_reducible assumption
    | with_reducible refine (State.vmPut_still ..).into ?_
    | with_reducible refine (State.post_still ..).into ?_
    | with_reducible refine (State.incFld_still ..).into ?_
    | simp -zeta -beta -eta -iota -proj -decide only [Rel.upd]
    | dsimp -zeta only
    | with_reducible refine Rel.ite ?_ ?_

theorem State.logicGo_good (s : State) (k : ℕ) (i : Instr) (daddr : ℕ) (f : ℕ → State → State) (hf : ∀ n t, Keep t (f n t)) : Good s (State.logicGo s k i daddr f) := by
  unfold State.logicGo
  repeat' first
    | with_reducible exact Rel.refl _
    | with_reducible assumption
    | exact Good.fault _ _
    | with_reducible refine Good.next ?_
    | with_reducible refine Good.done ?_
    | with_reducible refine (State.done_good ..).into ?_
    | with_reducible refine (State.undef_keep ..).into ?_
    | with_reducible refine (State.psRetire_still ..).into ?_
    | with_reducible refine (hf ..).into ?_
    | simp -zeta -beta -eta -iota -proj -decide only [Rel.upd]
    | dsimp -zeta only
    | with_reducible refine Rel.ite ?_ ?_
    | with_reducible refine Good.ite ?_ ?_
    | split

theorem State.logicOp_good (s : State) (k : ℕ) (i : Instr) (daddr : ℕ) (f : ℕ → State → State) (hf : ∀ n t, Keep t (f n t)) : Good s (State.logicOp s k i daddr f) := by
  unfold State.logicOp
  repeat' first
    | with_reducible exact Rel.refl _
    | with_reducible assumption
    | exact Good.fault _ _
    | with_reducible refine Good.next ?_
    | with_reducible refine Good.done ?_
    | with_reducible refine (State.logicGo_good (hf := fun n t => ?_) ..).into ?_
    | with_reducible refine (State.modTask_still ..).into ?_
    | with_reducible refine (hf ..).into ?_

theorem State.logicReg_good (s : State) (k : ℕ) (i : Instr) (f : TaskCtx → TaskCtx) : Good s (State.logicReg s k i f) := by
  unfold State.logicReg
  repeat' first
    | with_reducible exact Rel.refl _
    | with_reducible assumption
    | exact Good.fault _ _
    | with_reducible refine Good.next ?_
    | with_reducible refine Good.done ?_
    | with_reducible refine (State.logicOp_good (hf := fun n t => ?_) ..).into ?_
    | with_reducible refine (State.modTask_still ..).into ?_

theorem State.logicJump_keep (s : State) (n : ℕ) (tgt : ℕ) : Keep s (State.logicJump s n tgt) := by
  unfold State.logicJump
  repeat' first
    | with_reducible exact Rel.refl _
    | with_reducible assumption
    | with_reducible refine (State.modTask_still ..).into ?_
    | with_reducible refine (State.undef_keep ..).into ?_
    | simp -zeta -beta -eta -iota -proj -decide only [Keep.upd]
    | dsimp -zeta only
    | with_reducible refine Rel.ite ?_ ?_

theorem State.logicAccess_keep (s : State) (a : ℕ) (size : ℕ) (f : State → State) (hf : ∀ t, Keep t (f t)) : Keep s (State.logicAccess s a size f) := by
  unfold State.logicAccess
  repeat' first
    | with_reducible exact Rel.refl _
    | with_reducible assumption
    | with_reducible refine (State.undef_keep ..).into ?_
    | with_reducible refine (hf ..).into ?_
    | simp -zeta -beta -eta -iota -proj -decide only [Keep.upd]
    | dsimp -zeta only
    | with_reducible refine Rel.ite ?_ ?_

theorem execLogicNop_good (core : ℕ) (s : State) : Good s (execLogicNop core s) := by
  unfold execLogicNop
  repeat' first
    | with_reducible exact Rel.refl _
    | with_reducible assumption
    | exact Good.fault _ _
    | with_reducible refine Good.next ?_
    | with_reducible refine Good.done ?_
    | with_reducible refine (State.logicReg_good ..).into ?_

theorem execLogicEnd_good (core : ℕ) (s : State) : Good s (execLogicEnd core s) := by
  unfold execLogicEnd
  repeat' first
    | with_reducible exact Rel.refl _
    | with_reducible assumption
    | exact Good.fault _ _
    | with_reducible refine Good.next ?_
    | with_reducible refine Good.done ?_
    | with_reducible refine (State.logicGo_good (hf := fun n t => ?_) ..).into ?_
    | with_reducible refine (State.modTask_still ..).into ?_

theorem execLogicJmp_good (core : ℕ) (tgt : ℕ) (s : State) : Good s (execLogicJmp core tgt s) := by
  unfold execLogicJmp
  repeat' first
    | with_reducible exact Rel.refl _
    | with_reducible assumption
    | exact Good.fault _ _
    | with_reducible refine Good.next ?_
    | with_reducible refine Good.done ?_
    | with_reducible refine (State.logicGo_good (hf := fun n t => ?_) ..).into ?_
    | with_reducible refine (State.logicJump_keep ..).into ?_

theorem execLogicBr_good (core : ℕ) (cc : ℕ) (tgt : ℕ) (s : State) : Good s (execLogicBr core cc tgt s) := by
  unfold execLogicBr
  repeat' first
    | with_reducible exact Rel.refl _
    | with_reducible assumption
    | exact Good.fault _ _
    | with_reducible refine Good.next ?_
    | with_reducible refine Good.done ?_
    | with_reducible refine (State.logicGo_good (hf := fun n t => ?_) ..).into ?_
    | with_reducible refine (State.undef_keep ..).into ?_
    | with_reducible refine (State.logicJump_keep ..).into ?_
    | with_reducible refine (State.modTask_still ..).into ?_
    | simp -zeta -beta -eta -iota -proj -decide only [Rel.upd]
    | dsimp -zeta only
    | with_reducible refine Rel.ite ?_ ?_

theorem execLogicCall_good (core : ℕ) (tgt : ℕ) (s : State) : Good s (execLogicCall core tgt s) := by
  unfold execLogicCall
  repeat' first
    | with_reducible exact Rel.refl _
    | with_reducible assumption
    | exact Good.fault _ _
    | with_reducible refine Good.next ?_
    | with_reducible refine Good.done ?_
    | with_reducible refine (State.logicGo_good (hf := fun n t => ?_) ..).into ?_
    | with_reducible refine (State.undef_keep ..).into ?_
    | with_reducible refine (State.logicJump_keep ..).into ?_
    | with_reducible refine (State.modTask_still ..).into ?_
    | simp -zeta -beta -eta -iota -proj -decide only [Rel.upd]
    | dsimp -zeta only
    | with_reducible refine Rel.ite ?_ ?_

theorem execLogicRet_good (core : ℕ) (s : State) : Good s (execLogicRet core s) := by
  unfold execLogicRet
  repeat' first
    | with_reducible exact Rel.refl _
    | with_reducible assumption
    | exact Good.fault _ _
    | with_reducible refine Good.next ?_
    | with_reducible refine Good.done ?_
    | with_reducible refine (State.logicGo_good (hf := fun n t => ?_) ..).into ?_
    | with_reducible refine (State.undef_keep ..).into ?_
    | with_reducible refine (State.modTask_still ..).into ?_
    | simp -zeta -beta -eta -iota -proj -decide only [Rel.upd]
    | dsimp -zeta only
    | with_reducible refine Rel.ite ?_ ?_
    | with_reducible refine Good.ite ?_ ?_
    | split

theorem execLogicBrb_good (core : ℕ) (r : ℕ) (v : Bool) (tgt : ℕ) (s : State) : Good s (execLogicBrb core r v tgt s) := by
  unfold execLogicBrb
  repeat' first
    | with_reducible exact Rel.refl _
    | with_reducible assumption
    | exact Good.fault _ _
    | with_reducible refine Good.next ?_
    | with_reducible refine Good.done ?_
    | with_reducible refine (State.logicGo_good (hf := fun n t => ?_) ..).into ?_
    | with_reducible refine (State.logicJump_keep ..).into ?_
    | with_reducible refine (State.modTask_still ..).into ?_
    | simp -zeta -beta -eta -iota -proj -decide only [Rel.upd]
    | dsimp -zeta only
    | with_reducible refine Rel.ite ?_ ?_

theorem execLogicLdw_good (core : ℕ) (d : ℕ) (r : ℕ) (off : ℕ) (s : State) : Good s (execLogicLdw core d r off s) := by
  unfold execLogicLdw
  repeat' first
    | with_reducible exact Rel.refl _
    | with_reducible assumption
    | exact Good.fault _ _
    | with_reducible refine Good.next ?_
    | with_reducible refine Good.done ?_
    | with_reducible refine (State.logicOp_good (hf := fun n t => ?_) ..).into ?_
    | with_reducible refine (State.logicAccess_keep (hf := fun t => ?_) ..).into ?_
    | with_reducible refine (State.modTask_still ..).into ?_

theorem execLogicLdh_good (core : ℕ) (d : ℕ) (r : ℕ) (off : ℕ) (s : State) : Good s (execLogicLdh core d r off s) := by
  unfold execLogicLdh
  repeat' first
    | with_reducible exact Rel.refl _
    | with_reducible assumption
    | exact Good.fault _ _
    | with_reducible refine Good.next ?_
    | with_reducible refine Good.done ?_
    | with_reducible refine (State.logicOp_good (hf := fun n t => ?_) ..).into ?_
    | with_reducible refine (State.logicAccess_keep (hf := fun t => ?_) ..).into ?_
    | with_reducible refine (State.modTask_still ..).into ?_

theorem execLogicLdb_good (core : ℕ) (d : ℕ) (r : ℕ) (off : ℕ) (s : State) : Good s (execLogicLdb core d r off s) := by
  unfold execLogicLdb
  repeat' first
    | with_reducible exact Rel.refl _
    | with_reducible assumption
    | exact Good.fault _ _
    | with_reducible refine Good.next ?_
    | with_reducible refine Good.done ?_
    | with_reducible refine (State.logicOp_good (hf := fun n t => ?_) ..).into ?_
    | with_reducible refine (State.logicAccess_keep (hf := fun t => ?_) ..).into ?_
    | with_reducible refine (State.modTask_still ..).into ?_

theorem execLogicStw_good (core : ℕ) (d : ℕ) (r : ℕ) (off : ℕ) (s : State) : Good s (execLogicStw core d r off s) := by
  unfold execLogicStw
  repeat' first
    | with_reducible exact Rel.refl _
    | with_reducible assumption
    | exact Good.fault _ _
    | with_reducible refine Good.next ?_
    | with_reducible refine Good.done ?_
    | with_reducible refine (State.logicOp_good (hf := fun n t => ?_) ..).into ?_
    | with_reducible refine (State.logicAccess_keep (hf := fun t => ?_) ..).into ?_
    | with_reducible refine (State.vmStore_still ..).into ?_

theorem execLogicSth_good (core : ℕ) (d : ℕ) (r : ℕ) (off : ℕ) (s : State) : Good s (execLogicSth core d r off s) := by
  unfold execLogicSth
  repeat' first
    | with_reducible exact Rel.refl _
    | with_reducible assumption
    | exact Good.fault _ _
    | with_reducible refine Good.next ?_
    | with_reducible refine Good.done ?_
    | with_reducible refine (State.logicOp_good (hf := fun n t => ?_) ..).into ?_
    | with_reducible refine (State.logicAccess_keep (hf := fun t => ?_) ..).into ?_
    | with_reducible refine (State.vmStore_still ..).into ?_

theorem execLogicStb_good (core : ℕ) (d : ℕ) (r : ℕ) (off : ℕ) (s : State) : Good s (execLogicStb core d r off s) := by
  unfold execLogicStb
  repeat' first
    | with_reducible exact Rel.refl _
    | with_reducible assumption
    | exact Good.fault _ _
    | with_reducible refine Good.next ?_
    | with_reducible refine Good.done ?_
    | with_reducible refine (State.logicOp_good (hf := fun n t => ?_) ..).into ?_
    | with_reducible refine (State.logicAccess_keep (hf := fun t => ?_) ..).into ?_
    | with_reducible refine (State.vmStore_still ..).into ?_

theorem execLogicLdx_good (core : ℕ) (d : ℕ) (r : ℕ) (off : ℕ) (b : ℕ) (s : State) : Good s (execLogicLdx core d r off b s) := by
  unfold execLogicLdx
  repeat' first
    | with_reducible exact Rel.refl _
    | with_reducible assumption
    | exact Good.fault _ _
    | with_reducible refine Good.next ?_
    | with_reducible refine Good.done ?_
    | with_reducible refine (State.logicOp_good (hf := fun n t => ?_) ..).into ?_
    | with_reducible refine (State.logicAccess_keep (hf := fun t => ?_) ..).into ?_
    | with_reducible refine (State.modTask_still ..).into ?_

theorem execLogicStx_good (core : ℕ) (d : ℕ) (r : ℕ) (off : ℕ) (b : ℕ) (s : State) : Good s (execLogicStx core d r off b s) := by
  unfold execLogicStx
  repeat' first
    | with_reducible exact Rel.refl _
    | with_reducible assumption
    | exact Good.fault _ _
    | with_reducible refine Good.next ?_
    | with_reducible refine Good.done ?_
    | with_reducible refine (State.logicOp_good (hf := fun n t => ?_) ..).into ?_
    | with_reducible refine (State.logicAccess_keep (hf := fun t => ?_) ..).into ?_
    | with_reducible refine (State.vmStore_still ..).into ?_

theorem execLogicLdi_good (core : ℕ) (d : ℕ) (imm : ℕ) (s : State) : Good s (execLogicLdi core d imm s) := by
  unfold execLogicLdi
  repeat' first
    | with_reducible exact Rel.refl _
    | with_reducible assumption
    | exact Good.fault _ _
    | with_reducible refine Good.next ?_
    | with_reducible refine Good.done ?_
    | with_reducible refine (State.logicReg_good ..).into ?_

theorem execLogicLdih_good (core : ℕ) (d : ℕ) (imm : ℕ) (s : State) : Good s (execLogicLdih core d imm s) := by
  unfold execLogicLdih
  repeat' first
    | with_reducible exact Rel.refl _
    | with_reducible assumption
    | exact Good.fault _ _
    | with_reducible refine Good.next ?_
    | with_reducible refine Good.done ?_
    | with_reducible refine (State.logicReg_good ..).into ?_

theorem execLogicMov_good (core : ℕ) (d : ℕ) (r : ℕ) (s : State) : Good s (execLogicMov core d r s) := by
  unfold execLogicMov
  repeat' first
    | with_reducible exact Rel.refl _
    | with_reducible assumption
    | exact Good.fault _ _
    | with_reducible refine Good.next ?_
    | with_reducible refine Good.done ?_
    | with_reducible refine (State.logicReg_good ..).into ?_

theorem execLogicAdd_good (core : ℕ) (d : ℕ) (r : ℕ) (t : ℕ) (s : State) : Good s (execLogicAdd core d r t s) := by
  unfold execLogicAdd
  repeat' first
    | with_reducible exact Rel.refl _
    | with_reducible assumption
    | exact Good.fault _ _
    | with_reducible refine Good.next ?_
    | with_reducible refine Good.done ?_
    | with_reducible refine (State.logicReg_good ..).into ?_

theorem execLogicSub_good (core : ℕ) (d : ℕ) (r : ℕ) (t : ℕ) (s : State) : Good s (execLogicSub core d r t s) := by
  unfold execLogicSub
  repeat' first
    | with_reducible exact Rel.refl _
    | with_reducible assumption
    | exact Good.fault _ _
    | with_reducible refine Good.next ?_
    | with_reducible refine Good.done ?_
    | with_reducible refine (State.logicReg_good ..).into ?_

theorem execLogicMul_good (core : ℕ) (d : ℕ) (r : ℕ) (t : ℕ) (s : State) : Good s (execLogicMul core d r t s) := by
  unfold execLogicMul
  repeat' first
    | with_reducible exact Rel.refl _
    | with_reducible assumption
    | exact Good.fault _ _
    | with_reducible refine Good.next ?_
    | with_reducible refine Good.done ?_
    | with_reducible refine (State.logicReg_good ..).into ?_

theorem State.noteDiv0_still (s : State) (n : ℕ) (t : ℕ) : Still s (State.noteDiv0 s n t) := by
  unfold State.noteDiv0
  repeat' first
    | with_reducible exact Rel.refl _
    | with_reducible assumption
    | with_reducible refine (State.incFld_still ..).into ?_
    | simp -zeta -beta -eta -iota -proj -decide only [Rel.upd]
    | dsimp -zeta only
    | with_reducible refine Rel.ite ?_ ?_

theorem execLogicDiv_good (core : ℕ) (d : ℕ) (r : ℕ) (t : ℕ) (s : State) : Good s (execLogicDiv core d r t s) := by
  unfold execLogicDiv
  repeat' first
    | with_reducible exact Rel.refl _
    | with_reducible assumption
    | exact Good.fault _ _
    | with_reducible refine Good.next ?_
    | with_reducible refine Good.done ?_
    | with_reducible refine (State.logicOp_good (hf := fun n t => ?_) ..).into ?_
    | with_reducible refine (State.modTask_still ..).into ?_
    | with_reducible refine (State.noteDiv0_still ..).into ?_

theorem execLogicMod_good (core : ℕ) (d : ℕ) (r : ℕ) (t : ℕ) (s : State) : Good s (execLogicMod core d r t s) := by
  unfold execLogicMod
  repeat' first
    | with_reducible exact Rel.refl _
    | with_reducible assumption
    | exact Good.fault _ _
    | with_reducible refine Good.next ?_
    | with_reducible refine Good.done ?_
    | with_reducible refine (State.logicOp_good (hf := fun n t => ?_) ..).into ?_
    | with_reducible refine (State.modTask_still ..).into ?_
    | with_reducible refine (State.noteDiv0_still ..).into ?_

theorem execLogicAddi_good (core : ℕ) (d : ℕ) (r : ℕ) (imm : ℕ) (s : State) : Good s (execLogicAddi core d r imm s) := by
  unfold execLogicAddi
  repeat' first
    | with_reducible exact Rel.refl _
    | with_reducible assumption
    | exact Good.fault _ _
    | with_reducible refine Good.next ?_
    | with_reducible refine Good.done ?_
    | with_reducible refine (State.logicReg_good ..).into ?_

theorem execLogicAdds_good (core : ℕ) (d : ℕ) (r : ℕ) (t : ℕ) (s : State) : Good s (execLogicAdds core d r t s) := by
  unfold execLogicAdds
  repeat' first
    | with_reducible exact Rel.refl _
    | with_reducible assumption
    | exact Good.fault _ _
    | with_reducible refine Good.next ?_
    | with_reducible refine Good.done ?_
    | with_reducible refine (State.logicReg_good ..).into ?_

theorem execLogicSubs_good (core : ℕ) (d : ℕ) (r : ℕ) (t : ℕ) (s : State) : Good s (execLogicSubs core d r t s) := by
  unfold execLogicSubs
  repeat' first
    | with_reducible exact Rel.refl _
    | with_reducible assumption
    | exact Good.fault _ _
    | with_reducible refine Good.next ?_
    | with_reducible refine Good.done ?_
    | with_reducible refine (State.logicReg_good ..).into ?_

theorem execLogicLgc_good (core : ℕ) (d : ℕ) (r : ℕ) (t : ℕ) (f : ℕ) (s : State) : Good s (execLogicLgc core d r t f s) := by
  unfold execLogicLgc
  repeat' first
    | with_reducible exact Rel.refl _
    | with_reducible assumption
    | exact Good.fault _ _
    | with_reducible refine Good.next ?_
    | with_reducible refine Good.done ?_
    | with_reducible refine (State.logicReg_good ..).into ?_

theorem execLogicNot_good (core : ℕ) (d : ℕ) (r : ℕ) (s : State) : Good s (execLogicNot core d r s) := by
  unfold execLogicNot
  repeat' first
    | with_reducible exact Rel.refl _
    | with_reducible assumption
    | exact Good.fault _ _
    | with_reducible refine Good.next ?_
    | with_reducible refine Good.done ?_
    | with_reducible refine (State.logicReg_good ..).into ?_

theorem execLogicShf_good (core : ℕ) (d : ℕ) (r : ℕ) (t : ℕ) (f : ℕ) (s : State) : Good s (execLogicShf core d r t f s) := by
  unfold execLogicShf
  repeat' first
    | with_reducible exact Rel.refl _
    | with_reducible assumption
    | exact Good.fault _ _
    | with_reducible refine Good.next ?_
    | with_reducible refine Good.done ?_
    | with_reducible refine (State.logicReg_good ..).into ?_

theorem execLogicShfi_good (core : ℕ) (d : ℕ) (r : ℕ) (n : ℕ) (f : ℕ) (s : State) : Good s (execLogicShfi core d r n f s) := by
  unfold execLogicShfi
  repeat' first
    | with_reducible exact Rel.refl _
    | with_reducible assumption
    | exact Good.fault _ _
    | with_reducible refine Good.next ?_
    | with_reducible refine Good.done ?_
    | with_reducible refine (State.logicReg_good ..).into ?_

theorem execLogicMinmax_good (core : ℕ) (d : ℕ) (r : ℕ) (t : ℕ) (f : Bool) (s : State) : Good s (execLogicMinmax core d r t f s) := by
  unfold execLogicMinmax
  repeat' first
    | with_reducible exact Rel.refl _
    | with_reducible assumption
    | exact Good.fault _ _
    | with_reducible refine Good.next ?_
    | with_reducible refine Good.done ?_
    | with_reducible refine (State.logicReg_good ..).into ?_

theorem execLogicLimit_good (core : ℕ) (d : ℕ) (r : ℕ) (t : ℕ) (s : State) : Good s (execLogicLimit core d r t s) := by
  unfold execLogicLimit
  repeat' first
    | with_reducible exact Rel.refl _
    | with_reducible assumption
    | exact Good.fault _ _
    | with_reducible refine Good.next ?_
    | with_reducible refine Good.done ?_
    | with_reducible refine (State.logicOp_good (hf := fun n t => ?_) ..).into ?_
    | with_reducible refine (State.useFree_still ..).into ?_
    | with_reducible refine (State.setTask_still ..).into ?_
    | (extract_lets +onlyGivenNames x)
    | extract_lets +onlyGivenNames x
    | simp -zeta -beta -eta -iota -proj -decide only [Rel.upd]
    | dsimp -zeta only
    | with_reducible refine Rel.ite ?_ ?_

theorem execLogicAbsneg_good (core : ℕ) (d : ℕ) (r : ℕ) (f : Bool) (s : State) : Good s (execLogicAbsneg core d r f s) := by
  unfold execLogicAbsneg
  repeat' first
    | with_reducible exact Rel.refl _
    | with_reducible assumption
    | exact Good.fault _ _
    | with_reducible refine Good.next ?_
    | with_reducible refine Good.done ?_
    | with_reducible refine (State.logicReg_good ..).into ?_

theorem execLogicCmp_good (core : ℕ) (r : ℕ) (t : ℕ) (s : State) : Good s (execLogicCmp core r t s) := by
  unfold execLogicCmp
  repeat' first
    | with_reducible exact Rel.refl _
    | with_reducible assumption
    | exact Good.fault _ _
    | with_reducible refine Good.next ?_
    | with_reducible refine Good.done ?_
    | with_reducible refine (State.logicReg_good ..).into ?_

theorem execLogicCmpi_good (core : ℕ) (r : ℕ) (imm : ℕ) (s : State) : Good s (execLogicCmpi core r imm s) := by
  unfold execLogicCmpi
  repeat' first
    | with_reducible exact Rel.refl _
    | with_reducible assumption
    | exact Good.fault _ _
    | with_reducible refine Good.next ?_
    | with_reducible refine Good.done ?_
    | with_reducible refine (State.logicReg_good ..).into ?_

theorem execLogicSetc_good (core : ℕ) (d : ℕ) (cc : ℕ) (s : State) : Good s (execLogicSetc core d cc s) := by
  unfold execLogicSetc
  repeat' first
    | with_reducible exact Rel.refl _
    | with_reducible assumption
    | exact Good.fault _ _
    | with_reducible refine Good.next ?_
    | with_reducible refine Good.done ?_
    | with_reducible refine (State.logicOp_good (hf := fun n t => ?_) ..).into ?_
    | with_reducible refine (State.undef_keep ..).into ?_
    | with_reducible refine (State.modTask_still ..).into ?_
    | simp -zeta -beta -eta -iota -proj -decide only [Rel.upd]
    | dsimp -zeta only
    | with_reducible refine Rel.ite ?_ ?_

theorem execLogicSel_good (core : ℕ) (d : ℕ) (r : ℕ) (t : ℕ) (s : State) : Good s (execLogicSel core d r t s) := by
  unfold execLogicSel
  repeat' first
    | with_reducible exact Rel.refl _
    | with_reducible assumption
    | exact Good.fault _ _
    | with_reducible refine Good.next ?_
    | with_reducible refine Good.done ?_
    | with_reducible refine (State.logicReg_good ..).into ?_

theorem execLogicBop_good (core : ℕ) (d : ℕ) (r : ℕ) (t : ℕ) (f : ℕ) (ns : Bool) (nt : Bool) (s : State) : Good s (execLogicBop core d r t f ns nt s) := by
  unfold execLogicBop
  repeat' first
    | with_reducible exact Rel.refl _
    | with_reducible assumption
    | exact Good.fault _ _
    | with_reducible refine Good.next ?_
    | with_reducible refine Good.done ?_
    | with_reducible refine (State.logicOp_good (hf := fun n t => ?_) ..).into ?_
    | with_reducible refine (State.undef_keep ..).into ?_
    | with_reducible refine (State.modTask_still ..).into ?_
    | (extract_lets +onlyGivenNames x)
    | extract_lets +onlyGivenNames x
    | simp -zeta -beta -eta -iota -proj -decide only [Rel.upd]
    | dsimp -zeta only
    | with_reducible refine Rel.ite ?_ ?_

theorem execLogicQmul_good (core : ℕ) (d : ℕ) (r : ℕ) (t : ℕ) (s : State) : Good s (execLogicQmul core d r t s) := by
  unfold execLogicQmul
  repeat' first
    | with_reducible exact Rel.refl _
    | with_reducible assumption
    | exact Good.fault _ _
    | with_reducible refine Good.next ?_
    | with_reducible refine Good.done ?_
    | with_reducible refine (State.logicReg_good ..).into ?_

theorem State.setFloat_still (s : State) (n : ℕ) (d : ℕ) (v : FVal) : Still s (State.setFloat s n d v) := by
  unfold State.setFloat
  repeat' first
    | with_reducible exact Rel.refl _
    | with_reducible assumption
    | with_reducible refine (State.useFree_still ..).into ?_
    | with_reducible refine (State.modTask_still ..).into ?_
    | (extract_lets +onlyGivenNames x)
    | extract_lets +onlyGivenNames x
    | simp -zeta -beta -eta -iota -proj -decide only [Rel.upd]
    | dsimp -zeta only
    | with_reducible refine Rel.ite ?_ ?_
    | split

theorem execLogicFadd_good (core : ℕ) (d : ℕ) (r : ℕ) (t : ℕ) (s : State) : Good s (execLogicFadd core d r t s) := by
  unfold execLogicFadd
  repeat' first
    | with_reducible exact Rel.refl _
    | with_reducible assumption
    | exact Good.fault _ _
    | with_reducible refine Good.next ?_
    | with_reducible refine Good.done ?_
    | with_reducible refine (State.logicOp_good (hf := fun n t => ?_) ..).into ?_
    | with_reducible refine (State.setFloat_still ..).into ?_

theorem execLogicFsub_good (core : ℕ) (d : ℕ) (r : ℕ) (t : ℕ) (s : State) : Good s (execLogicFsub core d r t s) := by
  unfold execLogicFsub
  repeat' first
    | with_reducible exact Rel.refl _
    | with_reducible assumption
    | exact Good.fault _ _
    | with_reducible refine Good.next ?_
    | with_reducible refine Good.done ?_
    | with_reducible refine (State.logicOp_good (hf := fun n t => ?_) ..).into ?_
    | with_reducible refine (State.setFloat_still ..).into ?_

theorem execLogicFmul_good (core : ℕ) (d : ℕ) (r : ℕ) (t : ℕ) (s : State) : Good s (execLogicFmul core d r t s) := by
  unfold execLogicFmul
  repeat' first
    | with_reducible exact Rel.refl _
    | with_reducible assumption
    | exact Good.fault _ _
    | with_reducible refine Good.next ?_
    | with_reducible refine Good.done ?_
    | with_reducible refine (State.logicOp_good (hf := fun n t => ?_) ..).into ?_
    | with_reducible refine (State.setFloat_still ..).into ?_

theorem execLogicFdiv_good (core : ℕ) (d : ℕ) (r : ℕ) (t : ℕ) (s : State) : Good s (execLogicFdiv core d r t s) := by
  unfold execLogicFdiv
  repeat' first
    | with_reducible exact Rel.refl _
    | with_reducible assumption
    | exact Good.fault _ _
    | with_reducible refine Good.next ?_
    | with_reducible refine Good.done ?_
    | with_reducible refine (State.logicOp_good (hf := fun n t => ?_) ..).into ?_
    | with_reducible refine (State.setFloat_still ..).into ?_

theorem execLogicFcmp_good (core : ℕ) (r : ℕ) (t : ℕ) (s : State) : Good s (execLogicFcmp core r t s) := by
  unfold execLogicFcmp
  repeat' first
    | with_reducible exact Rel.refl _
    | with_reducible assumption
    | exact Good.fault _ _
    | with_reducible refine Good.next ?_
    | with_reducible refine Good.done ?_
    | with_reducible refine (State.logicOp_good (hf := fun n t => ?_) ..).into ?_
    | with_reducible refine (State.useFree_still ..).into ?_
    | with_reducible refine (State.modTask_still ..).into ?_

theorem execLogicFcvt_good (core : ℕ) (d : ℕ) (r : ℕ) (f : ℕ) (s : State) : Good s (execLogicFcvt core d r f s) := by
  unfold execLogicFcvt
  repeat' first
    | with_reducible exact Rel.refl _
    | with_reducible assumption
    | exact Good.fault _ _
    | with_reducible refine Good.next ?_
    | with_reducible refine Good.done ?_
    | with_reducible refine (State.logicReg_good ..).into ?_

theorem execLogicGetd_good (core : ℕ) (d : ℕ) (ind : Bool) (x : ℕ) (s : State) : Good s (execLogicGetd core d ind x s) := by
  unfold execLogicGetd
  repeat' first
    | with_reducible exact Rel.refl _
    | with_reducible assumption
    | exact Good.fault _ _
    | with_reducible refine Good.next ?_
    | with_reducible refine Good.done ?_
    | with_reducible refine (State.logicOp_good (hf := fun n t => ?_) ..).into ?_
    | with_reducible refine (State.modTask_still ..).into ?_
    | with_reducible refine (State.undef_keep ..).into ?_
    | (extract_lets +onlyGivenNames x)
    | extract_lets +onlyGivenNames x
    | simp -zeta -beta -eta -iota -proj -decide only [Rel.upd]
    | dsimp -zeta only
    | with_reducible refine Rel.ite ?_ ?_

theorem State.logPut_keep (s : State) (i : ℕ) (w : ℕ) : Keep s (State.logPut s i w) := by
  unfold State.logPut
  repeat' first
    | with_reducible exact Rel.refl _
    | with_reducible assumption
    | with_reducible refine (State.putSig_still ..).into ?_
    | with_reducible refine (State.undef_keep ..).into ?_
    | simp -zeta -beta -eta -iota -proj -decide only [Keep.upd]
    | dsimp -zeta only
    | with_reducible refine Rel.ite ?_ ?_

theorem execLogicPutd_good (core : ℕ) (d : ℕ) (ind : Bool) (x : ℕ) (s : State) : Good s (execLogicPutd core d ind x s) := by
  unfold execLogicPutd
  repeat' first
    | with_reducible exact Rel.refl _
    | with_reducible assumption
    | exact Good.fault _ _
    | with_reducible refine Good.next ?_
    | with_reducible refine Good.done ?_
    | with_reducible refine (State.logicOp_good (hf := fun n t => ?_) ..).into ?_
    | with_reducible refine (State.logPut_keep ..).into ?_

theorem execLogicGrp_good (core : ℕ) (d : ℕ) (g : ℕ) (s : State) : Good s (execLogicGrp core d g s) := by
  unfold execLogicGrp
  repeat' first
    | with_reducible exact Rel.refl _
    | with_reducible assumption
    | exact Good.fault _ _
    | with_reducible refine Good.next ?_
    | with_reducible refine Good.done ?_
    | with_reducible refine (State.logicOp_good (hf := fun n t => ?_) ..).into ?_
    | with_reducible refine (State.undef_keep ..).into ?_
    | with_reducible refine (State.modTask_still ..).into ?_
    | simp -zeta -beta -eta -iota -proj -decide only [Rel.upd]
    | dsimp -zeta only
    | with_reducible refine Rel.ite ?_ ?_

theorem execLogicTmr_good (core : ℕ) (d : ℕ) (r : ℕ) (f : ℕ) (i : ℕ) (s : State) : Good s (execLogicTmr core d r f i s) := by
  unfold execLogicTmr
  repeat' first
    | with_reducible exact Rel.refl _
    | with_reducible assumption
    | exact Good.fault _ _
    | with_reducible refine Good.next ?_
    | with_reducible refine Good.done ?_
    | with_reducible refine (State.logicOp_good (hf := fun n t => ?_) ..).into ?_
    | with_reducible refine (State.undef_keep ..).into ?_
    | with_reducible refine (State.vmStore_still ..).into ?_
    | with_reducible refine (State.modTask_still ..).into ?_
    | (extract_lets +onlyGivenNames x; with_reducible refine Rel.cut (x := ?y) ?_ ?_; (case y => apply x); subst x; rotate_left; clear_value x; intro _)
    | (extract_lets +onlyGivenNames x; clear_value x)
    | extract_lets +onlyGivenNames x
    | simp -zeta -beta -eta -iota -proj -decide only [Rel.upd]
    | dsimp -zeta only
    | with_reducible refine Rel.ite ?_ ?_

theorem execLogicTpt_good (core : ℕ) (r : ℕ) (i : ℕ) (s : State) : Good s (execLogicTpt core r i s) := by
  unfold execLogicTpt
  repeat' first
    | with_reducible exact Rel.refl _
    | with_reducible assumption
    | exact Good.fault _ _
    | with_reducible refine Good.next ?_
    | with_reducible refine Good.done ?_
    | with_reducible refine (State.logicOp_good (hf := fun n t => ?_) ..).into ?_
    | with_reducible refine (State.vmStore_still ..).into ?_

theorem execLogicTrd_good (core : ℕ) (d : ℕ) (i : ℕ) (s : State) : Good s (execLogicTrd core d i s) := by
  unfold execLogicTrd
  repeat' first
    | with_reducible exact Rel.refl _
    | with_reducible assumption
    | exact Good.fault _ _
    | with_reducible refine Good.next ?_
    | with_reducible refine Good.done ?_
    | with_reducible refine (State.logicOp_good (hf := fun n t => ?_) ..).into ?_
    | with_reducible refine (State.modTask_still ..).into ?_

theorem execLogicCnt_good (core : ℕ) (d : ℕ) (r : ℕ) (f : ℕ) (i : ℕ) (s : State) : Good s (execLogicCnt core d r f i s) := by
  unfold execLogicCnt
  repeat' first
    | with_reducible exact Rel.refl _
    | with_reducible assumption
    | exact Good.fault _ _
    | with_reducible refine Good.next ?_
    | with_reducible refine Good.done ?_
    | with_reducible refine (State.logicOp_good (hf := fun n t => ?_) ..).into ?_
    | with_reducible refine (State.undef_keep ..).into ?_
    | with_reducible refine (State.vmStore_still ..).into ?_
    | with_reducible refine (State.modTask_still ..).into ?_
    | (extract_lets +onlyGivenNames x; with_reducible refine Rel.cut (x := ?y) ?_ ?_; (case y => apply x); subst x; rotate_left; clear_value x; intro _)
    | (extract_lets +onlyGivenNames x; clear_value x)
    | extract_lets +onlyGivenNames x
    | simp -zeta -beta -eta -iota -proj -decide only [Rel.upd]
    | dsimp -zeta only
    | with_reducible refine Rel.ite ?_ ?_

theorem execLogicCpv_good (core : ℕ) (r : ℕ) (i : ℕ) (s : State) : Good s (execLogicCpv core r i s) := by
  unfold execLogicCpv
  repeat' first
    | with_reducible exact Rel.refl _
    | with_reducible assumption
    | exact Good.fault _ _
    | with_reducible refine Good.next ?_
    | with_reducible refine Good.done ?_
    | with_reducible refine (State.logicOp_good (hf := fun n t => ?_) ..).into ?_
    | with_reducible refine (State.vmStore_still ..).into ?_

theorem execLogicCrd_good (core : ℕ) (d : ℕ) (i : ℕ) (s : State) : Good s (execLogicCrd core d i s) := by
  unfold execLogicCrd
  repeat' first
    | with_reducible exact Rel.refl _
    | with_reducible assumption
    | exact Good.fault _ _
    | with_reducible refine Good.next ?_
    | with_reducible refine Good.done ?_
    | with_reducible refine (State.logicOp_good (hf := fun n t => ?_) ..).into ?_
    | with_reducible refine (State.modTask_still ..).into ?_

theorem execLogicEdge_good (core : ℕ) (d : ℕ) (r : ℕ) (f : Bool) (i : ℕ) (s : State) : Good s (execLogicEdge core d r f i s) := by
  unfold execLogicEdge
  repeat' first
    | with_reducible exact Rel.refl _
    | with_reducible assumption
    | exact Good.fault _ _
    | with_reducible refine Good.next ?_
    | with_reducible refine Good.done ?_
    | with_reducible refine (State.logicOp_good (hf := fun n t => ?_) ..).into ?_
    | with_reducible refine (State.vmStore_still ..).into ?_
    | with_reducible refine (State.modTask_still ..).into ?_

theorem execLogicEvt_good (core : ℕ) (c : Bool) (code : ℕ) (s : State) : Good s (execLogicEvt core c code s) := by
  unfold execLogicEvt
  repeat' first
    | with_reducible exact Rel.refl _
    | with_reducible assumption
    | exact Good.fault _ _
    | with_reducible refine Good.next ?_
    | with_reducible refine Good.done ?_
    | with_reducible refine (State.logicOp_good (hf := fun n t => ?_) ..).into ?_
    | with_reducible refine (State.post_still ..).into ?_

theorem State.taskStop_still (s : State) (n : ℕ) : Still s (State.taskStop s n) := by
  unfold State.taskStop
  repeat' first
    | with_reducible exact Rel.refl _
    | with_reducible assumption
    | with_reducible refine (State.completeJob_still ..).into ?_
    | with_reducible refine (State.post_still ..).into ?_
    | with_reducible refine (State.setFld_still ..).into ?_
    | with_reducible refine (State.modTask_still ..).into ?_
    | (extract_lets +onlyGivenNames x)
    | extract_lets +onlyGivenNames x
    | simp -zeta -beta -eta -iota -proj -decide only [Rel.upd]
    | dsimp -zeta only
    | with_reducible refine Rel.ite ?_ ?_
    | split

theorem State.taskSkip_still (s : State) (n : ℕ) : Still s (State.taskSkip s n) := by
  unfold State.taskSkip
  repeat' first
    | with_reducible exact Rel.refl _
    | with_reducible assumption
    | with_reducible refine (State.post_still ..).into ?_
    | with_reducible refine (State.incFld_still ..).into ?_
    | with_reducible refine (State.modTask_still ..).into ?_
    | with_reducible refine (State.taskStop_still ..).into ?_
    | (extract_lets +onlyGivenNames x; with_reducible refine Rel.cut (x := ?y) ?_ ?_; (case y => apply x); subst x; rotate_left; intro _)
    | (extract_lets +onlyGivenNames x)
    | extract_lets +onlyGivenNames x
    | simp -zeta -beta -eta -iota -proj -decide only [Rel.upd]
    | dsimp -zeta only
    | with_reducible refine Rel.ite ?_ ?_

theorem State.taskRelease_still (s : State) (n : ℕ) (t : ℕ) : Still s (State.taskRelease s n t) := by
  unfold State.taskRelease
  repeat' first
    | with_reducible exact Rel.refl _
    | with_reducible assumption
    | with_reducible refine (State.release_still ..).into ?_
    | with_reducible refine Rel.ofPair (by assumption) (State.release_still ..) ?_
    | with_reducible refine (State.taskSkip_still ..).into ?_
    | with_reducible refine (State.setFld_still ..).into ?_
    | with_reducible refine (State.modTask_still ..).into ?_
    | (extract_lets +onlyGivenNames x; with_reducible refine Rel.cut (x := ?y) ?_ ?_; (case y => apply x); subst x; rotate_left; clear_value x; intro _)
    | (extract_lets +onlyGivenNames x; with_reducible refine Rel.cut (x := ?y) ?_ ?_; (case y => apply x.1); subst x; rotate_left; clear_value x; intro _)
    | extract_lets +onlyGivenNames x
    | simp -zeta -beta -eta -iota -proj -decide only [Rel.upd]
    | dsimp -zeta only
    | with_reducible refine Rel.ite ?_ ?_
    | split

theorem State.exchReleases_still (s : State) : Still s (State.exchReleases s) := by
  unfold State.exchReleases
  repeat' first
    | with_reducible exact Rel.refl _
    | with_reducible assumption
    | with_reducible refine Rel.each (fun t x => ?_) ?_
    | with_reducible refine (State.taskRelease_still ..).into ?_
    | simp -zeta -beta -eta -iota -proj -decide only [Rel.upd]
    | dsimp -zeta only
    | with_reducible refine Rel.ite ?_ ?_
    | split

theorem State.exchFinish_still (s : State) (t : ℕ) : Still s (State.exchFinish s t) := by
  unfold State.exchFinish
  repeat' first
    | with_reducible exact Rel.refl _
    | with_reducible assumption
    | with_reducible refine (State.setFld_still ..).into ?_
    | (extract_lets +onlyGivenNames x; with_reducible refine Rel.cut (x := ?y) ?_ ?_; (case y => apply x); subst x; rotate_left; intro _)
    | (extract_lets +onlyGivenNames x)
    | extract_lets +onlyGivenNames x
    | simp -zeta -beta -eta -iota -proj -decide only [Rel.upd]
    | dsimp -zeta only
    | with_reducible refine Rel.ite ?_ ?_
    | split

theorem State.logStrobe_still (s : State) (t : ℕ) : Still s (State.logStrobe s t) := by
  unfold State.logStrobe
  repeat' first
    | with_reducible exact Rel.refl _
    | with_reducible assumption
    | with_reducible refine Rel.each (fun t x => ?_) ?_
    | with_reducible refine (State.incFld_still ..).into ?_
    | with_reducible refine (State.exchFinish_still ..).into ?_
    | with_reducible refine (State.taskRelease_still ..).into ?_
    | with_reducible refine (State.taskSkip_still ..).into ?_
    | with_reducible refine (State.exchReleases_still ..).into ?_
    | (extract_lets +onlyGivenNames x; with_reducible refine Rel.cut (x := ?y) ?_ ?_; (case y => apply x); subst x; rotate_left; clear_value x; intro _)
    | (extract_lets +onlyGivenNames x; clear_value x)
    | extract_lets +onlyGivenNames x
    | simp -zeta -beta -eta -iota -proj -decide only [Rel.upd]
    | dsimp -zeta only
    | with_reducible refine Rel.ite ?_ ?_

theorem State.taskRead_keep (s : State) (n : ℕ) : Keep s (State.taskRead s n) := by
  unfold State.taskRead
  repeat' first
    | with_reducible exact Rel.refl _
    | with_reducible assumption
    | with_reducible refine Rel.each (fun t x => ?_) ?_
    | with_reducible refine (State.vmPut_still ..).into ?_
    | with_reducible refine (State.undef_keep ..).into ?_
    | with_reducible refine (State.modTask_still ..).into ?_
    | (extract_lets +onlyGivenNames x)
    | extract_lets +onlyGivenNames x
    | simp -zeta -beta -eta -iota -proj -decide only [Keep.upd]
    | dsimp -zeta only
    | with_reducible refine Rel.ite ?_ ?_

theorem State.logInputClose_keep (s : State) : Keep s (State.logInputClose s) := by
  unfold State.logInputClose
  repeat' first
    | with_reducible exact Rel.refl _
    | with_reducible assumption
    | with_reducible refine Rel.each (fun t x => ?_) ?_
    | with_reducible refine (State.taskRead_keep ..).into ?_
    | simp -zeta -beta -eta -iota -proj -decide only [Keep.upd]
    | dsimp -zeta only
    | with_reducible refine Rel.ite ?_ ?_

theorem State.dirtyPage_still (s : State) (p : ℕ) : Still s (State.dirtyPage s p) := by
  unfold State.dirtyPage
  repeat' first
    | with_reducible exact Rel.refl _
    | with_reducible assumption
    | with_reducible refine Rel.each (fun t x => ?_) ?_
    | (extract_lets +onlyGivenNames x)
    | extract_lets +onlyGivenNames x
    | simp -zeta -beta -eta -iota -proj -decide only [Rel.upd]

theorem State.exchEntry_still (s : State) (e : ExchEntry) : Still s (State.exchEntry s e) := by
  unfold State.exchEntry
  repeat' first
    | with_reducible exact Rel.refl _
    | with_reducible assumption
    | with_reducible refine (State.dirtyPage_still ..).into ?_
    | with_reducible refine (State.vmPut_still ..).into ?_
    | (extract_lets +onlyGivenNames x; with_reducible refine Rel.cut (x := ?y) ?_ ?_; (case y => apply x); subst x; rotate_left; clear_value x; intro _)
    | (extract_lets +onlyGivenNames x; clear_value x)
    | extract_lets +onlyGivenNames x
    | simp -zeta -beta -eta -iota -proj -decide only [Rel.upd]
    | dsimp -zeta only
    | with_reducible refine Rel.ite ?_ ?_
    | split

theorem State.taskConfig_still (s : State) (n : ℕ) : Still s (State.taskConfig s n) := by
  unfold State.taskConfig
  repeat' first
    | with_reducible exact Rel.refl _
    | with_reducible assumption
    | with_reducible refine (State.setReg_still ..).into ?_

theorem State.taskExchange_still (s : State) (n : ℕ) : Still s (State.taskExchange s n) := by
  unfold State.taskExchange
  repeat' first
    | with_reducible exact Rel.refl _
    | with_reducible assumption
    | with_reducible refine (State.setFld_still ..).into ?_
    | with_reducible refine (State.taskConfig_still ..).into ?_
    | with_reducible refine Rel.each (fun t x => ?_) ?_
    | with_reducible refine (State.modTask_still ..).into ?_
    | with_reducible refine (State.exchEntry_still ..).into ?_
    | (extract_lets +onlyGivenNames x)
    | extract_lets +onlyGivenNames x
    | simp -zeta -beta -eta -iota -proj -decide only [Rel.upd]
    | dsimp -zeta only
    | with_reducible refine Rel.ite ?_ ?_

theorem execCycleStart_good (core : ℕ) (whole : Bool) (dlat : ℕ) (s : State) : Good s (execCycleStart core whole dlat s) := by
  unfold execCycleStart
  repeat' first
    | with_reducible exact Rel.refl _
    | with_reducible assumption
    | exact Good.fault _ _
    | with_reducible refine Good.next ?_
    | with_reducible refine Good.done ?_
    | with_reducible refine (State.noteDispatch_still ..).into ?_
    | with_reducible refine (State.taskExchange_still ..).into ?_
    | with_reducible refine (State.modTask_still ..).into ?_
    | with_reducible refine (State.done_good ..).into ?_
    | with_reducible refine (State.taskRead_keep ..).into ?_
    | (extract_lets +onlyGivenNames x; with_reducible refine Good.cutK (x := ?y) ?_ ?_; (case y => apply x); subst x; rotate_left; clear_value x; intro _)
    | (extract_lets +onlyGivenNames x; clear_value x)
    | extract_lets +onlyGivenNames x
    | simp -zeta -beta -eta -iota -proj -decide only [Rel.upd]
    | dsimp -zeta only
    | with_reducible refine Rel.ite ?_ ?_
    | with_reducible refine Good.ite ?_ ?_
    | split

theorem State.taskFlush_keep (s : State) (n : ℕ) : Keep s (State.taskFlush s n) := by
  unfold State.taskFlush
  repeat' first
    | with_reducible exact Rel.refl _
    | with_reducible assumption
    | with_reducible refine Rel.each (fun t x => ?_) ?_
    | with_reducible refine (State.logPut_keep ..).into ?_

theorem State.retainFlush_still (s : State) (n : ℕ) (port : ℕ) : Still s (State.retainFlush s n port) := by
  unfold State.retainFlush
  repeat' first
    | with_reducible exact Rel.refl _
    | with_reducible assumption
    | with_reducible refine Rel.each (fun t x => ?_) ?_
    | with_reducible refine (State.busWrite_still ..).into ?_
    | with_reducible refine (State.busWord_still ..).into ?_
    | (extract_lets +onlyGivenNames x; with_reducible refine Rel.cut (x := ?y) ?_ ?_; (case y => apply x); subst x; rotate_left; intro _)
    | (extract_lets +onlyGivenNames x)
    | extract_lets +onlyGivenNames x
    | simp -zeta -beta -eta -iota -proj -decide only [Rel.upd]
    | dsimp -zeta only
    | with_reducible refine Rel.ite ?_ ?_

theorem execCycleComplete_good (core : ℕ) (s : State) : Good s (execCycleComplete core s) := by
  unfold execCycleComplete
  repeat' first
    | with_reducible exact Rel.refl _
    | with_reducible assumption
    | exact Good.fault _ _
    | with_reducible refine Good.next ?_
    | with_reducible refine Good.done ?_
    | with_reducible refine (State.retainFlush_still ..).into ?_
    | with_reducible refine (State.taskFlush_keep ..).into ?_
    | with_reducible refine (State.peakFld_still ..).into ?_
    | with_reducible refine (State.setFld_still ..).into ?_
    | with_reducible refine (State.modTask_still ..).into ?_
    | with_reducible refine (State.setRunning_still ..).into ?_
    | with_reducible refine (State.done_good ..).into ?_
    | with_reducible refine (State.dispatch_still ..).into ?_
    | (extract_lets +onlyGivenNames x; with_reducible refine Good.cutK (x := ?y) ?_ ?_; (case y => apply x); subst x; rotate_left; clear_value x; intro _)
    | (extract_lets +onlyGivenNames x; clear_value x)
    | extract_lets +onlyGivenNames x
    | simp -zeta -beta -eta -iota -proj -decide only [Rel.upd]
    | dsimp -zeta only
    | with_reducible refine Rel.ite ?_ ?_
    | with_reducible refine Good.ite ?_ ?_
    | split

theorem execTaskStart_good (task : ℕ) (s : State) : Good s (execTaskStart task s) := by
  unfold execTaskStart
  repeat' first
    | with_reducible exact Rel.refl _
    | with_reducible assumption
    | exact Good.fault _ _
    | with_reducible refine Good.next ?_
    | with_reducible refine Good.done ?_
    | with_reducible refine (State.setFld_still ..).into ?_
    | simp -zeta -beta -eta -iota -proj -decide only [Rel.upd]
    | dsimp -zeta only
    | with_reducible refine Rel.ite ?_ ?_
    | with_reducible refine Good.ite ?_ ?_

theorem execTaskStop_good (task : ℕ) (s : State) : Good s (execTaskStop task s) := by
  unfold execTaskStop
  repeat' first
    | with_reducible exact Rel.refl _
    | with_reducible assumption
    | exact Good.fault _ _
    | with_reducible refine Good.next ?_
    | with_reducible refine Good.done ?_
    | with_reducible refine (State.dispatch_still ..).into ?_
    | with_reducible refine (State.taskStop_still ..).into ?_
    | simp -zeta -beta -eta -iota -proj -decide only [Rel.upd]
    | dsimp -zeta only
    | with_reducible refine Rel.ite ?_ ?_
    | with_reducible refine Good.ite ?_ ?_

theorem execLogClrCounts_good (s : State) : Good s (execLogClrCounts s) := by
  unfold execLogClrCounts
  repeat' first
    | with_reducible exact Rel.refl _
    | with_reducible assumption
    | exact Good.fault _ _
    | with_reducible refine Good.next ?_
    | with_reducible refine Good.done ?_
    | with_reducible refine (State.clrRegs_still ..).into ?_

theorem execLogClrPeaks_good (s : State) : Good s (execLogClrPeaks s) := by
  unfold execLogClrPeaks
  repeat' first
    | with_reducible exact Rel.refl _
    | with_reducible assumption
    | exact Good.fault _ _
    | with_reducible refine Good.next ?_
    | with_reducible refine Good.done ?_
    | with_reducible refine Rel.each (fun t x => ?_) ?_
    | with_reducible refine (State.setFld_still ..).into ?_

theorem State.exchRefuse_still (s : State) (reason : ℕ) : Still s (State.exchRefuse s reason) := by
  unfold State.exchRefuse
  repeat' first
    | with_reducible exact Rel.refl _
    | with_reducible assumption
    | with_reducible refine (State.setFld_still ..).into ?_
    | (extract_lets +onlyGivenNames x)
    | extract_lets +onlyGivenNames x
    | simp -zeta -beta -eta -iota -proj -decide only [Rel.upd]

theorem State.exchAsk_still (s : State) : Still s (State.exchAsk s) := by
  unfold State.exchAsk
  repeat' first
    | with_reducible exact Rel.refl _
    | with_reducible assumption
    | with_reducible refine (State.exchRefuse_still ..).into ?_
    | with_reducible refine Rel.each (fun t x => ?_) ?_
    | with_reducible refine (State.setFld_still ..).into ?_
    | (extract_lets +onlyGivenNames x; with_reducible refine Rel.cut (x := ?y) ?_ ?_; (case y => apply x); subst x; rotate_left; intro _)
    | (extract_lets +onlyGivenNames x)
    | extract_lets +onlyGivenNames x
    | simp -zeta -beta -eta -iota -proj -decide only [Rel.upd]
    | dsimp -zeta only
    | with_reducible refine Rel.ite ?_ ?_

theorem execExchRequest_good (s : State) : Good s (execExchRequest s) := by
  unfold execExchRequest
  repeat' first
    | with_reducible exact Rel.refl _
    | with_reducible assumption
    | exact Good.fault _ _
    | with_reducible refine Good.next ?_
    | with_reducible refine Good.done ?_
    | with_reducible refine (State.regCommand_good (hf := fun t => ?_) ..).into ?_
    | with_reducible refine (State.exchAsk_still ..).into ?_

theorem execExchCheckDone_good (s : State) : Good s (execExchCheckDone s) := by
  unfold execExchCheckDone
  repeat' first
    | with_reducible exact Rel.refl _
    | with_reducible assumption
    | exact Good.fault _ _
    | with_reducible refine Good.next ?_
    | with_reducible refine Good.done ?_
    | with_reducible refine (State.exchRefuse_still ..).into ?_
    | with_reducible refine (State.setFld_still ..).into ?_
    | simp -zeta -beta -eta -iota -proj -decide only [Rel.upd]
    | dsimp -zeta only
    | with_reducible refine Rel.ite ?_ ?_
    | with_reducible refine Good.ite ?_ ?_

theorem State.exchOpenAt_still (s : State) (t : ℕ) : Still s (State.exchOpenAt s t) := by
  unfold State.exchOpenAt
  repeat' first
    | with_reducible exact Rel.refl _
    | with_reducible assumption
    | with_reducible refine (State.setFld_still ..).into ?_
    | with_reducible refine Rel.each (fun t x => ?_) ?_
    | with_reducible refine (State.taskConfig_still ..).into ?_
    | (extract_lets +onlyGivenNames x)
    | extract_lets +onlyGivenNames x
    | with_reducible apply_assumption -exfalso -symm
    | simp -zeta -beta -eta -iota -proj -decide only [Rel.upd]

theorem execExchTimeout_good (s : State) : Good s (execExchTimeout s) := by
  unfold execExchTimeout
  repeat' first
    | with_reducible exact Rel.refl _
    | with_reducible assumption
    | exact Good.fault _ _
    | with_reducible refine Good.next ?_
    | with_reducible refine Good.done ?_
    | with_reducible refine (State.exchRefuse_still ..).into ?_
    | simp -zeta -beta -eta -iota -proj -decide only [Rel.upd]
    | dsimp -zeta only
    | with_reducible refine Rel.ite ?_ ?_
    | with_reducible refine Good.ite ?_ ?_

theorem execExchCancel_good (s : State) : Good s (execExchCancel s) := by
  unfold execExchCancel
  repeat' first
    | with_reducible exact Rel.refl _
    | with_reducible assumption
    | exact Good.fault _ _
    | with_reducible refine Good.next ?_
    | with_reducible refine Good.done ?_
    | with_reducible refine (State.regCommand_good (hf := fun t => ?_) ..).into ?_
    | with_reducible refine (State.exchRefuse_still ..).into ?_
    | simp -zeta -beta -eta -iota -proj -decide only [Rel.upd]
    | dsimp -zeta only
    | with_reducible refine Rel.ite ?_ ?_

theorem State.logCommit_still (s : State) : Still s (State.logCommit s) := by
  unfold State.logCommit
  repeat' first
    | with_reducible exact Rel.refl _
    | with_reducible assumption
    | (extract_lets +onlyGivenNames x)
    | extract_lets +onlyGivenNames x
    | simp -zeta -beta -eta -iota -proj -decide only [Rel.upd]

theorem State.logRestore_still (s : State) : Still s (State.logRestore s) := by
  unfold State.logRestore
  repeat' first
    | with_reducible exact Rel.refl _
    | with_reducible assumption
    | with_reducible refine Rel.each (fun t x => ?_) ?_
    | with_reducible refine (State.vmPut_still ..).into ?_
    | with_reducible refine (State.modTask_still ..).into ?_
    | (extract_lets +onlyGivenNames x)
    | extract_lets +onlyGivenNames x
    | simp -zeta -beta -eta -iota -proj -decide only [Rel.upd]

theorem State.taskLate_still (s : State) (j : ℕ) : Still s (State.taskLate s j) := by
  unfold State.taskLate
  repeat' first
    | with_reducible exact Rel.refl _
    | with_reducible assumption
    | with_reducible refine (State.incFld_still ..).into ?_
    | simp -zeta -beta -eta -iota -proj -decide only [Rel.upd]
    | dsimp -zeta only
    | with_reducible refine Rel.ite ?_ ?_

end Sys2Proof.Machine
end

