-- ==== Sys2Proof/Laws/KeepOutputs.lean ====
section
/-!
SUPPORT. Laws/KeepOutputs.lean: what the operations of Machine/Outputs.lean keep.
-/

namespace Sys2Proof.Machine

theorem State.latchSig_still (s : State) (i : ℕ) (w : ℕ) : Still s (State.latchSig s i w) := by
  unfold State.latchSig
  repeat' first
    | with_reducible exact Rel.refl _
    | with_reducible assumption
    | with_reducible refine (State.setCur_still ..).into ?_
    | simp -zeta -beta -eta -iota -proj -decide only [Rel.upd]
    | dsimp -zeta only
    | with_reducible refine Rel.ite ?_ ?_

theorem execOutputPrefetch_good (unit : OutUnit) (s : State) : Good s (execOutputPrefetch unit s) := by
  unfold execOutputPrefetch
  repeat' first
    | with_reducible exact Rel.refl _
    | with_reducible assumption
    | exact Good.fault _ _
    | with_reducible refine Good.next ?_
    | with_reducible refine Good.done ?_
    | with_reducible refine Rel.each (fun t x => ?_) ?_
    | (extract_lets +onlyGivenNames x; with_reducible refine Good.cut (x := ?y) ?_ ?_; (case y => apply x); subst x; rotate_left; intro _)
    | (extract_lets +onlyGivenNames x)
    | extract_lets +onlyGivenNames x
    | simp -zeta -beta -eta -iota -proj -decide only [Rel.upd]
    | dsimp -zeta only
    | with_reducible refine Rel.ite ?_ ?_
    | with_reducible refine Good.ite ?_ ?_

theorem State.setDriven_still (s : State) (i : ℕ) (w : Option Word) : Still s (State.setDriven s i w) := by
  unfold State.setDriven
  repeat' first
    | with_reducible exact Rel.refl _
    | with_reducible assumption
    | (extract_lets +onlyGivenNames x)
    | extract_lets +onlyGivenNames x
    | simp -zeta -beta -eta -iota -proj -decide only [Rel.upd]

theorem State.setHeld_still (s : State) (i : ℕ) (b : Bool) : Still s (State.setHeld s i b) := by
  unfold State.setHeld
  repeat' first
    | with_reducible exact Rel.refl _
    | with_reducible assumption
    | (extract_lets +onlyGivenNames x)
    | extract_lets +onlyGivenNames x
    | simp -zeta -beta -eta -iota -proj -decide only [Rel.upd]

theorem State.takeUnit_still (s : State) (u : OutUnit) : Still s (State.takeUnit s u) := by
  unfold State.takeUnit
  repeat' first
    | with_reducible exact Rel.refl _
    | with_reducible assumption
    | with_reducible refine Rel.each (fun t x => ?_) ?_
    | with_reducible refine (State.setDriven_still ..).into ?_
    | with_reducible refine (State.setFld_still ..).into ?_
    | with_reducible refine (State.incFld_still ..).into ?_
    | (extract_lets +onlyGivenNames x)
    | extract_lets +onlyGivenNames x
    | simp -zeta -beta -eta -iota -proj -decide only [Rel.upd]
    | dsimp -zeta only
    | with_reducible refine Rel.ite ?_ ?_

theorem State.takeOutputs_still (s : State) : Still s (State.takeOutputs s) := by
  unfold State.takeOutputs
  repeat' first
    | with_reducible exact Rel.refl _
    | with_reducible assumption
    | with_reducible refine Rel.each (fun t x => ?_) ?_
    | with_reducible refine (State.takeUnit_still ..).into ?_
    | (extract_lets +onlyGivenNames x; with_reducible refine Rel.cut (x := ?y) ?_ ?_; (case y => apply x); subst x; rotate_left; intro _)
    | (extract_lets +onlyGivenNames x)
    | extract_lets +onlyGivenNames x
    | simp -zeta -beta -eta -iota -proj -decide only [Rel.upd]
    | dsimp -zeta only
    | with_reducible refine Rel.ite ?_ ?_

theorem State.holdOut_keep (s : State) (i : ℕ) (mode : ℕ) (last : Option Word) : Keep s (State.holdOut s i mode last) := by
  unfold State.holdOut
  repeat' first
    | with_reducible exact Rel.refl _
    | with_reducible assumption
    | with_reducible refine (State.setHeld_still ..).into ?_
    | with_reducible refine (State.setDriven_still ..).into ?_
    | with_reducible refine (State.undef_keep ..).into ?_
    | (extract_lets +onlyGivenNames x; with_reducible refine Rel.cut (x := ?y) ?_ ?_; (case y => apply x); subst x; rotate_left; clear_value x; intro _)
    | extract_lets +onlyGivenNames x
    | simp -zeta -beta -eta -iota -proj -decide only [Keep.upd]
    | dsimp -zeta only
    | with_reducible refine Rel.ite ?_ ?_
    | split

end Sys2Proof.Machine
end

