-- ==== Sys2Proof/Laws/KeepAdc.lean ====
section
/-!
SUPPORT. Laws/KeepAdc.lean: what the operations of Machine/Adc.lean keep.
-/

namespace Sys2Proof.Machine

theorem State.setAdcG_still (s : State) (g : ℕ) (v : AdcGroup) : Still s (State.setAdcG s g v) := by
  unfold State.setAdcG
  repeat' first
    | with_reducible exact Rel.refl _
    | with_reducible assumption
    | (extract_lets +onlyGivenNames x)
    | extract_lets +onlyGivenNames x
    | simp -zeta -beta -eta -iota -proj -decide only [Rel.upd]

theorem State.modAdcG_still (s : State) (g : ℕ) (f : AdcGroup → AdcGroup) : Still s (State.modAdcG s g f) := by
  unfold State.modAdcG
  repeat' first
    | with_reducible exact Rel.refl _
    | with_reducible assumption
    | with_reducible refine (State.setAdcG_still ..).into ?_

theorem State.setSlice_still (s : State) (g : ℕ) (k : ℕ) (v : AdcSlice) : Still s (State.setSlice s g k v) := by
  unfold State.setSlice
  repeat' first
    | with_reducible exact Rel.refl _
    | with_reducible assumption
    | with_reducible refine (State.modAdcG_still ..).into ?_

theorem State.modSlice_still (s : State) (g : ℕ) (k : ℕ) (f : AdcSlice → AdcSlice) : Still s (State.modSlice s g k f) := by
  unfold State.modSlice
  repeat' first
    | with_reducible exact Rel.refl _
    | with_reducible assumption
    | with_reducible refine (State.setSlice_still ..).into ?_

theorem State.adcTake_still (s : State) (g : ℕ) (k : ℕ) : Still s (State.adcTake s g k) := by
  unfold State.adcTake
  repeat' first
    | with_reducible exact Rel.refl _
    | with_reducible assumption
    | with_reducible refine (State.setSlice_still ..).into ?_
    | (extract_lets +onlyGivenNames x)
    | extract_lets +onlyGivenNames x
    | simp -zeta -beta -eta -iota -proj -decide only [Rel.upd]
    | dsimp -zeta only
    | with_reducible refine Rel.ite ?_ ?_
    | split

theorem State.adcEnd_still (s : State) (g : ℕ) (k : ℕ) : Still s (State.adcEnd s g k) := by
  unfold State.adcEnd
  repeat' first
    | with_reducible exact Rel.refl _
    | with_reducible assumption
    | with_reducible refine (State.adcTake_still ..).into ?_
    | with_reducible refine (State.modSlice_still ..).into ?_
    | simp -zeta -beta -eta -iota -proj -decide only [Rel.upd]
    | dsimp -zeta only
    | with_reducible refine Rel.ite ?_ ?_
    | split

theorem State.adcTrigger_keep (s : State) (g : ℕ) (k : ℕ) : Keep s (State.adcTrigger s g k) := by
  unfold State.adcTrigger
  repeat' first
    | with_reducible exact Rel.refl _
    | with_reducible assumption
    | with_reducible refine (State.undef_keep ..).into ?_
    | with_reducible refine (State.incFld_still ..).into ?_
    | with_reducible refine (State.modSlice_still ..).into ?_
    | (extract_lets +onlyGivenNames x)
    | extract_lets +onlyGivenNames x
    | simp -zeta -beta -eta -iota -proj -decide only [Keep.upd]
    | dsimp -zeta only
    | with_reducible refine Rel.ite ?_ ?_

theorem State.adcFire_keep (s : State) (g : ℕ) (src : ℕ) : Keep s (State.adcFire s g src) := by
  unfold State.adcFire
  repeat' first
    | with_reducible exact Rel.refl _
    | with_reducible assumption
    | with_reducible refine Rel.each (fun t x => ?_) ?_
    | with_reducible refine (State.adcTrigger_keep ..).into ?_

theorem State.adcDue_still (s : State) (g : ℕ) (k : ℕ) : Still s (State.adcDue s g k) := by
  unfold State.adcDue
  repeat' first
    | with_reducible exact Rel.refl _
    | with_reducible assumption
    | with_reducible refine (State.modSlice_still ..).into ?_
    | with_reducible refine (State.setSlice_still ..).into ?_
    | with_reducible refine (State.incFld_still ..).into ?_
    | (extract_lets +onlyGivenNames x; with_reducible refine Rel.cut (x := ?y) ?_ ?_; (case y => apply x); subst x; rotate_left; intro _)
    | (extract_lets +onlyGivenNames x)
    | extract_lets +onlyGivenNames x
    | simp -zeta -beta -eta -iota -proj -decide only [Rel.upd]
    | dsimp -zeta only
    | with_reducible refine Rel.ite ?_ ?_
    | split

theorem State.adcJob_still (s : State) (g : ℕ) (k : ℕ) (q : ℕ) (at_ : ℕ) : Still s (State.adcJob s g k q at_) := by
  unfold State.adcJob
  repeat' first
    | with_reducible exact Rel.refl _
    | with_reducible assumption
    | with_reducible refine (State.releaseJob_still ..).into ?_

theorem State.adcRecord_still (s : State) (g : ℕ) (k : ℕ) (kind : ℕ) (y : ℕ) (at_ : ℕ) : Still s (State.adcRecord s g k kind y at_) := by
  unfold State.adcRecord
  repeat' first
    | with_reducible exact Rel.refl _
    | with_reducible assumption
    | with_reducible refine (State.modSlice_still ..).into ?_

theorem execAdcResult_good (group : ℕ) (slice : ℕ) (raw : ℕ) (s : State) : Good s (execAdcResult group slice raw s) := by
  unfold execAdcResult
  repeat' first
    | with_reducible exact Rel.refl _
    | with_reducible assumption
    | exact Rel.weak (by with_reducible assumption)
    | exact Good.fault _ _
    | with_reducible refine Good.next ?_
    | with_reducible refine Good.done ?_
    | with_reducible refine (State.incFld_still ..).into ?_
    | with_reducible refine (State.adcEnd_still ..).into ?_
    | with_reducible refine (State.modSlice_still ..).into ?_
    | with_reducible refine (State.adcRecord_still ..).into ?_
    | with_reducible refine (State.done_good ..).into ?_
    | with_reducible refine (State.adcJob_still ..).into ?_
    | with_reducible refine (State.undef_keep ..).into ?_
    | with_reducible refine (State.modAdcG_still ..).into ?_
    | (extract_lets +onlyGivenNames x; with_reducible refine Good.cut (x := ?y) ?_ ?_; (case y => apply x); (focus subst x; repeat' first | with_reducible exact Rel.refl _ | with_reducible assumption | with_reducible refine (State.incFld_still ..).into ?_ | with_reducible refine (State.adcEnd_still ..).into ?_ | with_reducible refine (State.modSlice_still ..).into ?_ | with_reducible refine (State.adcRecord_still ..).into ?_ | with_reducible refine (State.adcJob_still ..).into ?_ | with_reducible refine (State.undef_keep ..).into ?_ | with_reducible refine (State.modAdcG_still ..).into ?_ | (extract_lets +onlyGivenNames x; with_reducible refine Rel.cut (x := ?y) ?_ ?_; (case y => apply x); subst x; rotate_left; clear_value x; intro _) | (extract_lets +onlyGivenNames x; with_reducible refine Rel.cutG0 (x := x) (fun _ _ => ?_) ?_; subst x; rotate_left; clear_value x; intro _) | (extract_lets +onlyGivenNames x; clear_value x) | extract_lets +onlyGivenNames x | with_reducible apply_assumption -exfalso -symm | simp -zeta -beta -eta -iota -proj -decide only [Rel.upd] | dsimp -zeta only | with_reducible refine Rel.ite ?_ ?_ | split); clear_value x; intro _)
    | (extract_lets +onlyGivenNames x; with_reducible refine Good.cutK (x := ?y) ?_ ?_; (case y => apply x); subst x; rotate_left; clear_value x; intro _)
    | (extract_lets +onlyGivenNames x; with_reducible refine Rel.cut (x := ?y) ?_ ?_; (case y => apply x); subst x; rotate_left; clear_value x; intro _)
    | (extract_lets +onlyGivenNames x; with_reducible refine Rel.cutG0 (x := x) (fun _ _ => ?_) ?_; subst x; rotate_left; clear_value x; intro _)
    | (extract_lets +onlyGivenNames x; with_reducible refine Good.cutG0 (x := x) (fun _ _ _ => ?_) ?_; subst x; rotate_left; clear_value x; intro _)
    | (extract_lets +onlyGivenNames x; clear_value x)
    | extract_lets +onlyGivenNames x
    | with_reducible apply_assumption -exfalso -symm
    | simp -zeta -beta -eta -iota -proj -decide only [Rel.upd]
    | dsimp -zeta only
    | with_reducible refine Rel.ite ?_ ?_
    | with_reducible refine Good.ite ?_ ?_
    | split

theorem execTriggerTimer_good (group : ℕ) (timer : ℕ) (s : State) : Good s (execTriggerTimer group timer s) := by
  unfold execTriggerTimer
  repeat' first
    | with_reducible exact Rel.refl _
    | with_reducible assumption
    | exact Good.fault _ _
    | with_reducible refine Good.next ?_
    | with_reducible refine Good.done ?_
    | with_reducible refine (State.modAdcG_still ..).into ?_
    | with_reducible refine (State.done_good ..).into ?_
    | with_reducible refine (State.adcFire_keep ..).into ?_
    | (extract_lets +onlyGivenNames x; with_reducible refine Good.cutK (x := ?y) ?_ ?_; (case y => apply x); subst x; rotate_left; clear_value x; intro _)
    | extract_lets +onlyGivenNames x
    | simp -zeta -beta -eta -iota -proj -decide only [Rel.upd]
    | dsimp -zeta only
    | with_reducible refine Rel.ite ?_ ?_
    | with_reducible refine Good.ite ?_ ?_

theorem execAdcTrigger_good (group : ℕ) (slice : ℕ) (s : State) : Good s (execAdcTrigger group slice s) := by
  unfold execAdcTrigger
  repeat' first
    | with_reducible exact Rel.refl _
    | with_reducible assumption
    | exact Good.fault _ _
    | with_reducible refine Good.next ?_
    | with_reducible refine Good.done ?_
    | with_reducible refine (State.done_good ..).into ?_
    | with_reducible refine (State.adcTrigger_keep ..).into ?_
    | simp -zeta -beta -eta -iota -proj -decide only [Rel.upd]
    | dsimp -zeta only
    | with_reducible refine Rel.ite ?_ ?_
    | with_reducible refine Good.ite ?_ ?_

theorem execConversionDue_good (group : ℕ) (slice : ℕ) (ended : Bool) (s : State) : Good s (execConversionDue group slice ended s) := by
  unfold execConversionDue
  repeat' first
    | with_reducible exact Rel.refl _
    | with_reducible assumption
    | exact Good.fault _ _
    | with_reducible refine Good.next ?_
    | with_reducible refine Good.done ?_
    | with_reducible refine (State.adcDue_still ..).into ?_
    | with_reducible refine (State.modSlice_still ..).into ?_
    | with_reducible refine (State.adcTake_still ..).into ?_
    | (extract_lets +onlyGivenNames x; with_reducible refine Good.cut (x := ?y) ?_ ?_; (case y => apply x); subst x; rotate_left; intro _)
    | (extract_lets +onlyGivenNames x)
    | extract_lets +onlyGivenNames x
    | simp -zeta -beta -eta -iota -proj -decide only [Rel.upd]
    | dsimp -zeta only
    | with_reducible refine Rel.ite ?_ ?_
    | with_reducible refine Good.ite ?_ ?_
    | split

theorem State.adcCalReq_still (s : State) (g : ℕ) : Still s (State.adcCalReq s g) := by
  unfold State.adcCalReq
  repeat' first
    | with_reducible exact Rel.refl _
    | with_reducible assumption
    | with_reducible refine (State.modAdcG_still ..).into ?_
    | simp -zeta -beta -eta -iota -proj -decide only [Rel.upd]
    | dsimp -zeta only
    | with_reducible refine Rel.ite ?_ ?_

theorem execAdcCalibrate_good (groups : ℕ) (s : State) : Good s (execAdcCalibrate groups s) := by
  unfold execAdcCalibrate
  repeat' first
    | with_reducible exact Rel.refl _
    | with_reducible assumption
    | exact Good.fault _ _
    | with_reducible refine Good.next ?_
    | with_reducible refine Good.done ?_
    | with_reducible refine (State.regCommand_good (hf := fun t => ?_) ..).into ?_
    | with_reducible refine Rel.each (fun t x => ?_) ?_
    | with_reducible refine (State.adcCalReq_still ..).into ?_

theorem execCalibrationStart_good (group : ℕ) (s : State) : Good s (execCalibrationStart group s) := by
  unfold execCalibrationStart
  repeat' first
    | with_reducible exact Rel.refl _
    | with_reducible assumption
    | exact Good.fault _ _
    | with_reducible refine Good.next ?_
    | with_reducible refine Good.done ?_
    | with_reducible refine (State.modAdcG_still ..).into ?_
    | with_reducible refine (State.setBit_still ..).into ?_
    | (extract_lets +onlyGivenNames x; with_reducible refine Good.cut (x := ?y) ?_ ?_; (case y => apply x); subst x; rotate_left; clear_value x; intro _)
    | (extract_lets +onlyGivenNames x; clear_value x)
    | extract_lets +onlyGivenNames x
    | simp -zeta -beta -eta -iota -proj -decide only [Rel.upd]
    | dsimp -zeta only
    | with_reducible refine Rel.ite ?_ ?_
    | with_reducible refine Good.ite ?_ ?_

theorem execCalibrationEnd_good (group : ℕ) (lo : List ℕ) (hi : List ℕ) (s : State) : Good s (execCalibrationEnd group lo hi s) := by
  unfold execCalibrationEnd
  repeat' first
    | with_reducible exact Rel.refl _
    | with_reducible assumption
    | exact Good.fault _ _
    | with_reducible refine Good.next ?_
    | with_reducible refine Good.done ?_
    | with_reducible refine Rel.each (fun t x => ?_) ?_
    | with_reducible refine (State.setFld_still ..).into ?_
    | with_reducible refine (State.post_still ..).into ?_
    | with_reducible refine (State.setBit_still ..).into ?_
    | with_reducible refine (State.modAdcG_still ..).into ?_
    | with_reducible refine (State.clrBit_still ..).into ?_
    | with_reducible refine (State.adcTake_still ..).into ?_
    | (extract_lets +onlyGivenNames x; with_reducible refine Good.cut (x := ?y) ?_ ?_; (case y => apply x); subst x; rotate_left; clear_value x; intro _)
    | (extract_lets +onlyGivenNames x; clear_value x)
    | extract_lets +onlyGivenNames x
    | with_reducible apply_assumption -exfalso -symm
    | simp -zeta -beta -eta -iota -proj -decide only [Rel.upd]
    | dsimp -zeta only
    | with_reducible refine Rel.ite ?_ ?_
    | with_reducible refine Good.ite ?_ ?_
    | split

theorem execAdcSupplyFault_good (s : State) : Good s (execAdcSupplyFault s) := by
  unfold execAdcSupplyFault
  repeat' first
    | with_reducible exact Rel.refl _
    | with_reducible assumption
    | exact Good.fault _ _
    | with_reducible refine Good.next ?_
    | with_reducible refine Good.done ?_
    | with_reducible refine (State.setFld_still ..).into ?_

theorem execAdcSupplyGood_good (s : State) : Good s (execAdcSupplyGood s) := by
  unfold execAdcSupplyGood
  repeat' first
    | with_reducible exact Rel.refl _
    | with_reducible assumption
    | exact Good.fault _ _
    | with_reducible refine Good.next ?_
    | with_reducible refine Good.done ?_
    | with_reducible refine (State.setFld_still ..).into ?_

theorem execAdcClrCounts_good (s : State) : Good s (execAdcClrCounts s) := by
  unfold execAdcClrCounts
  repeat' first
    | with_reducible exact Rel.refl _
    | with_reducible assumption
    | exact Good.fault _ _
    | with_reducible refine Good.next ?_
    | with_reducible refine Good.done ?_
    | with_reducible refine (State.clrRegs_still ..).into ?_

theorem State.adcStrobe_keep (s : State) : Keep s (State.adcStrobe s) := by
  unfold State.adcStrobe
  repeat' first
    | with_reducible exact Rel.refl _
    | with_reducible assumption
    | with_reducible refine (State.undef_keep ..).into ?_
    | with_reducible refine Rel.each (fun t x => ?_) ?_
    | with_reducible refine (State.latchSig_still ..).into ?_
    | with_reducible refine (State.latchGrp_still ..).into ?_
    | with_reducible refine (State.modSlice_still ..).into ?_
    | with_reducible refine (State.modAdcG_still ..).into ?_
    | with_reducible refine (State.adcFire_keep ..).into ?_
    | (extract_lets +onlyGivenNames x; with_reducible refine Rel.cut (x := ?y) ?_ ?_; (case y => apply x); subst x; rotate_left; clear_value x; intro _)
    | (extract_lets +onlyGivenNames x; clear_value x)
    | extract_lets +onlyGivenNames x
    | with_reducible apply_assumption -exfalso -symm
    | simp -zeta -beta -eta -iota -proj -decide only [Keep.upd]
    | dsimp -zeta only
    | with_reducible refine Rel.ite ?_ ?_
    | split

theorem State.dacDrive_still (s : State) : Still s (State.dacDrive s) := by
  unfold State.dacDrive
  repeat' first
    | with_reducible exact Rel.refl _
    | with_reducible assumption
    | with_reducible refine Rel.each (fun t x => ?_) ?_
    | with_reducible refine (State.setFld_still ..).into ?_
    | with_reducible refine (State.setBit_still ..).into ?_
    | with_reducible refine (State.clrBit_still ..).into ?_
    | (extract_lets +onlyGivenNames x; with_reducible refine Rel.cut (x := ?y) ?_ ?_; (case y => apply x); subst x; rotate_left; clear_value x; intro _)
    | (extract_lets +onlyGivenNames x; clear_value x)
    | extract_lets +onlyGivenNames x
    | simp -zeta -beta -eta -iota -proj -decide only [Rel.upd]
    | dsimp -zeta only
    | with_reducible refine Rel.ite ?_ ?_

theorem State.dacStrobe_keep (s : State) : Keep s (State.dacStrobe s) := by
  unfold State.dacStrobe
  repeat' first
    | with_reducible exact Rel.refl _
    | with_reducible assumption
    | with_reducible refine (State.undef_keep ..).into ?_
    | with_reducible refine (State.dacDrive_still ..).into ?_
    | (extract_lets +onlyGivenNames x; with_reducible refine Rel.cut (x := ?y) ?_ ?_; (case y => apply x); subst x; rotate_left; clear_value x; intro _)
    | (extract_lets +onlyGivenNames x; clear_value x)
    | extract_lets +onlyGivenNames x
    | simp -zeta -beta -eta -iota -proj -decide only [Keep.upd]
    | dsimp -zeta only
    | with_reducible refine Rel.ite ?_ ?_

theorem State.adcCommit_still (s : State) : Still s (State.adcCommit s) := by
  unfold State.adcCommit
  repeat' first
    | with_reducible exact Rel.refl _
    | with_reducible assumption
    | with_reducible refine Rel.each (fun t x => ?_) ?_
    | with_reducible refine (State.adcCalReq_still ..).into ?_
    | simp -zeta -beta -eta -iota -proj -decide only [Rel.upd]

end Sys2Proof.Machine
end

