-- ==== Sys2Proof/Laws/KeepMotion.lean ====
section
/-!
SUPPORT. Laws/KeepMotion.lean: what the operations of Machine/Motion.lean keep.
-/

namespace Sys2Proof.Machine

theorem State.setLine_still (s : State) (n : ℕ) (b : Bool) : Still s (State.setLine s n b) := by
  unfold State.setLine
  repeat' first
    | with_reducible exact Rel.refl _
    | with_reducible assumption
    | with_reducible refine (State.setBit_still ..).into ?_
    | with_reducible refine (State.clrBit_still ..).into ?_
    | simp -zeta -beta -eta -iota -proj -decide only [Rel.upd]
    | dsimp -zeta only
    | with_reducible refine Rel.ite ?_ ?_

theorem State.setLines_still (s : State) (ls : List (ℕ × Bool)) : Still s (State.setLines s ls) := by
  unfold State.setLines
  repeat' first
    | with_reducible exact Rel.refl _
    | with_reducible assumption
    | with_reducible refine Rel.each (fun t x => ?_) ?_
    | with_reducible refine (State.setLine_still ..).into ?_

theorem State.driveLine_still (s : State) (n : ℕ) (b : Bool) : Still s (State.driveLine s n b) := by
  unfold State.driveLine
  repeat' first
    | with_reducible exact Rel.refl _
    | with_reducible assumption
    | with_reducible refine (State.setBit_still ..).into ?_
    | with_reducible refine (State.clrBit_still ..).into ?_
    | with_reducible refine (State.setLine_still ..).into ?_
    | (extract_lets +onlyGivenNames x; with_reducible refine Rel.cut (x := ?y) ?_ ?_; (case y => apply x); subst x; rotate_left; clear_value x; intro _)
    | extract_lets +onlyGivenNames x
    | simp -zeta -beta -eta -iota -proj -decide only [Rel.upd]
    | dsimp -zeta only
    | with_reducible refine Rel.ite ?_ ?_

theorem State.gpioDrive_still (s : State) : Still s (State.gpioDrive s) := by
  unfold State.gpioDrive
  repeat' first
    | with_reducible exact Rel.refl _
    | with_reducible assumption
    | with_reducible refine Rel.each (fun t x => ?_) ?_
    | with_reducible refine (State.setLine_still ..).into ?_
    | with_reducible refine (State.setBit_still ..).into ?_
    | with_reducible refine (State.clrBit_still ..).into ?_
    | with_reducible refine (State.driveLine_still ..).into ?_
    | (extract_lets +onlyGivenNames x)
    | extract_lets +onlyGivenNames x
    | simp -zeta -beta -eta -iota -proj -decide only [Rel.upd]
    | dsimp -zeta only
    | with_reducible refine Rel.ite ?_ ?_

theorem State.setAxis_still (s : State) (a : ℕ) (v : AxisSt) : Still s (State.setAxis s a v) := by
  unfold State.setAxis
  repeat' first
    | with_reducible exact Rel.refl _
    | with_reducible assumption
    | (extract_lets +onlyGivenNames x)
    | extract_lets +onlyGivenNames x
    | simp -zeta -beta -eta -iota -proj -decide only [Rel.upd]

theorem State.modAxis_still (s : State) (a : ℕ) (f : AxisSt → AxisSt) : Still s (State.modAxis s a f) := by
  unfold State.modAxis
  repeat' first
    | with_reducible exact Rel.refl _
    | with_reducible assumption
    | with_reducible refine (State.setAxis_still ..).into ?_

theorem State.setMotGroup_still (s : State) (g : ℕ) (v : MotGroup) : Still s (State.setMotGroup s g v) := by
  unfold State.setMotGroup
  repeat' first
    | with_reducible exact Rel.refl _
    | with_reducible assumption
    | (extract_lets +onlyGivenNames x)
    | extract_lets +onlyGivenNames x
    | simp -zeta -beta -eta -iota -proj -decide only [Rel.upd]

theorem State.setHstate_still (s : State) (a : ℕ) (v : ℕ) : Still s (State.setHstate s a v) := by
  unfold State.setHstate
  repeat' first
    | with_reducible exact Rel.refl _
    | with_reducible assumption
    | with_reducible refine (State.setFld_still ..).into ?_

theorem State.axStop_still (s : State) (a : ℕ) (hard : Bool) : Still s (State.axStop s a hard) := by
  unfold State.axStop
  repeat' first
    | with_reducible exact Rel.refl _
    | with_reducible assumption
    | with_reducible refine (State.setMotGroup_still ..).into ?_
    | with_reducible refine (State.modAxis_still ..).into ?_
    | (extract_lets +onlyGivenNames x)
    | extract_lets +onlyGivenNames x
    | simp -zeta -beta -eta -iota -proj -decide only [Rel.upd]
    | dsimp -zeta only
    | with_reducible refine Rel.ite ?_ ?_
    | split

theorem State.homingFault_still (s : State) (a : ℕ) : Still s (State.homingFault s a) := by
  unfold State.homingFault
  repeat' first
    | with_reducible exact Rel.refl _
    | with_reducible assumption
    | with_reducible refine (State.post_still ..).into ?_
    | with_reducible refine (State.setFld_still ..).into ?_
    | with_reducible refine (State.setHstate_still ..).into ?_

theorem State.axTarget_keep (s : State) (a : ℕ) (t : ℤ) : Keep s (State.axTarget s a t) := by
  unfold State.axTarget
  repeat' first
    | with_reducible exact Rel.refl _
    | with_reducible assumption
    | with_reducible refine (State.undef_keep ..).into ?_
    | with_reducible refine (State.modAxis_still ..).into ?_
    | (extract_lets +onlyGivenNames x)
    | extract_lets +onlyGivenNames x
    | simp -zeta -beta -eta -iota -proj -decide only [Keep.upd]
    | dsimp -zeta only
    | with_reducible refine Rel.ite ?_ ?_

theorem State.axSample_still (s : State) (a : ℕ) (i : ℕ) : Still s (State.axSample s a i).1 := by
  unfold State.axSample
  repeat' first
    | with_reducible exact Rel.refl _
    | with_reducible assumption
    | with_reducible refine (State.modAxis_still ..).into ?_
    | with_reducible refine (State.setFld_still ..).into ?_
    | (extract_lets +onlyGivenNames x; with_reducible refine Rel.cutG (x := x) (fun _ _ _ => ?_) ?_; subst x; rotate_left; clear_value x; intro _)
    | (extract_lets +onlyGivenNames x; clear_value x)
    | extract_lets +onlyGivenNames x
    | with_reducible apply_assumption -exfalso -symm
    | simp -zeta -beta -eta -iota -proj -decide only [Rel.upd]
    | dsimp -zeta only
    | with_reducible refine Rel.ite ?_ ?_
    | split

theorem State.axTrip_still (s : State) (a : ℕ) (lneg : Bool) (lpos : Bool) (home : Bool) : Still s (State.axTrip s a lneg lpos home) := by
  unfold State.axTrip
  repeat' first
    | with_reducible exact Rel.refl _
    | with_reducible assumption
    | with_reducible refine (State.homingFault_still ..).into ?_
    | with_reducible refine (State.axStop_still ..).into ?_
    | with_reducible refine (State.modAxis_still ..).into ?_
    | with_reducible refine (State.setHstate_still ..).into ?_
    | with_reducible refine (State.post_still ..).into ?_
    | (extract_lets +onlyGivenNames x; with_reducible refine Rel.cut (x := ?y) ?_ ?_; (case y => apply x); subst x; rotate_left; clear_value x; intro _)
    | (extract_lets +onlyGivenNames x; with_reducible refine Rel.cutG0 (x := x) (fun _ _ => ?_) ?_; subst x; rotate_left; clear_value x; intro _)
    | (extract_lets +onlyGivenNames x; clear_value x)
    | extract_lets +onlyGivenNames x
    | with_reducible apply_assumption -exfalso -symm
    | simp -zeta -beta -eta -iota -proj -decide only [Rel.upd]
    | dsimp -zeta only
    | with_reducible refine Rel.ite ?_ ?_
    | split

theorem State.axLimits_still (s : State) (a : ℕ) : Still s (State.axLimits s a) := by
  unfold State.axLimits
  repeat' first
    | with_reducible exact Rel.refl _
    | with_reducible assumption
    | with_reducible refine (State.axSample_still ..).into ?_
    | with_reducible refine Rel.ofPair (by assumption) (State.axSample_still ..) ?_
    | with_reducible refine (State.axTrip_still ..).into ?_

theorem State.setCurLevel_still (s : State) (a : ℕ) (i : ℤ) : Still s (State.setCurLevel s a i) := by
  unfold State.setCurLevel
  repeat' first
    | with_reducible exact Rel.refl _
    | with_reducible assumption
    | with_reducible refine (State.setFld_still ..).into ?_
    | with_reducible refine (State.modAxis_still ..).into ?_

theorem State.axStall_still (s : State) (a : ℕ) : Still s (State.axStall s a) := by
  unfold State.axStall
  repeat' first
    | with_reducible exact Rel.refl _
    | with_reducible assumption
    | with_reducible refine (State.modAxis_still ..).into ?_
    | with_reducible refine (State.setFld_still ..).into ?_
    | with_reducible refine (State.post_still ..).into ?_
    | with_reducible refine (State.setHstate_still ..).into ?_
    | with_reducible refine (State.axStop_still ..).into ?_
    | (extract_lets +onlyGivenNames x; with_reducible refine Rel.cut (x := ?y) ?_ ?_; (case y => apply x); subst x; rotate_left; clear_value x; intro _)
    | extract_lets +onlyGivenNames x
    | simp -zeta -beta -eta -iota -proj -decide only [Rel.upd]
    | dsimp -zeta only
    | with_reducible refine Rel.ite ?_ ?_
    | split

theorem State.axLoad_still (s : State) (a : ℕ) : Still s (State.axLoad s a) := by
  unfold State.axLoad
  repeat' first
    | with_reducible exact Rel.refl _
    | with_reducible assumption
    | with_reducible refine (State.setCurLevel_still ..).into ?_
    | with_reducible refine (State.setFld_still ..).into ?_
    | with_reducible refine (State.modAxis_still ..).into ?_
    | with_reducible refine (State.axStall_still ..).into ?_
    | (extract_lets +onlyGivenNames x; with_reducible refine Rel.cut (x := ?y) ?_ ?_; (case y => apply x); subst x; rotate_left; clear_value x; intro _)
    | (extract_lets +onlyGivenNames x; clear_value x)
    | extract_lets +onlyGivenNames x
    | simp -zeta -beta -eta -iota -proj -decide only [Rel.upd]
    | dsimp -zeta only
    | with_reducible refine Rel.ite ?_ ?_

theorem State.axEvalLoad_still (s : State) (a : ℕ) : Still s (State.axEvalLoad s a) := by
  unfold State.axEvalLoad
  repeat' first
    | with_reducible exact Rel.refl _
    | with_reducible assumption
    | with_reducible refine (State.setFld_still ..).into ?_
    | with_reducible refine (State.setCurLevel_still ..).into ?_
    | with_reducible refine (State.axLoad_still ..).into ?_
    | with_reducible refine (State.modAxis_still ..).into ?_
    | (extract_lets +onlyGivenNames x; with_reducible refine Rel.cut (x := ?y) ?_ ?_; (case y => apply x); subst x; rotate_left; clear_value x; intro _)
    | (extract_lets +onlyGivenNames x; clear_value x)
    | extract_lets +onlyGivenNames x
    | simp -zeta -beta -eta -iota -proj -decide only [Rel.upd]
    | dsimp -zeta only
    | with_reducible refine Rel.ite ?_ ?_

theorem State.axBegin_still (s : State) (a : ℕ) : Still s (State.axBegin s a) := by
  unfold State.axBegin
  repeat' first
    | with_reducible exact Rel.refl _
    | with_reducible assumption
    | with_reducible refine (State.setFld_still ..).into ?_
    | with_reducible refine (State.modAxis_still ..).into ?_
    | with_reducible refine (State.setCurLevel_still ..).into ?_
    | (extract_lets +onlyGivenNames x; with_reducible refine Rel.cut (x := ?y) ?_ ?_; (case y => apply x); subst x; rotate_left; clear_value x; intro _)
    | extract_lets +onlyGivenNames x
    | simp -zeta -beta -eta -iota -proj -decide only [Rel.upd]
    | dsimp -zeta only
    | with_reducible refine Rel.ite ?_ ?_

theorem State.axRebase_still (s : State) (a : ℕ) (l : ℤ) : Still s (State.axRebase s a l) := by
  unfold State.axRebase
  repeat' first
    | with_reducible exact Rel.refl _
    | with_reducible assumption
    | with_reducible refine (State.modAxis_still ..).into ?_
    | with_reducible refine (State.setFld_still ..).into ?_
    | with_reducible refine (State.setHstate_still ..).into ?_

theorem State.axAfter_still (s : State) (a : ℕ) (x0 : ℤ) : Still s (State.axAfter s a x0) := by
  unfold State.axAfter
  repeat' first
    | with_reducible exact Rel.refl _
    | with_reducible assumption
    | with_reducible refine (State.modAxis_still ..).into ?_
    | with_reducible refine (State.driveLine_still ..).into ?_
    | with_reducible refine (State.axEvalLoad_still ..).into ?_
    | with_reducible refine (State.axRebase_still ..).into ?_
    | with_reducible refine (State.homingFault_still ..).into ?_
    | with_reducible refine (State.setFld_still ..).into ?_
    | (extract_lets +onlyGivenNames x; with_reducible refine Rel.cut (x := ?y) ?_ ?_; (case y => apply x); subst x; rotate_left; clear_value x; intro _)
    | extract_lets +onlyGivenNames x
    | simp -zeta -beta -eta -iota -proj -decide only [Rel.upd]
    | dsimp -zeta only
    | with_reducible refine Rel.ite ?_ ?_
    | split

theorem State.axUpdate_still (s : State) (a : ℕ) : Still s (State.axUpdate s a) := by
  unfold State.axUpdate
  repeat' first
    | with_reducible exact Rel.refl _
    | with_reducible assumption
    | with_reducible refine (State.axBegin_still ..).into ?_
    | with_reducible refine (State.axAfter_still ..).into ?_
    | with_reducible refine (State.modAxis_still ..).into ?_
    | (extract_lets +onlyGivenNames x)
    | extract_lets +onlyGivenNames x
    | simp -zeta -beta -eta -iota -proj -decide only [Rel.upd]
    | dsimp -zeta only
    | with_reducible refine Rel.ite ?_ ?_

theorem State.pathUpdate_still (s : State) (g : ℕ) : Still s (State.pathUpdate s g) := by
  unfold State.pathUpdate
  repeat' first
    | with_reducible exact Rel.refl _
    | with_reducible assumption
    | with_reducible refine (State.setMotGroup_still ..).into ?_
    | with_reducible refine Rel.each (fun t x => ?_) ?_
    | with_reducible refine (State.modAxis_still ..).into ?_
    | with_reducible refine (State.axAfter_still ..).into ?_
    | (extract_lets +onlyGivenNames x; with_reducible refine Rel.cut (x := ?y) ?_ ?_; (case y => apply x); subst x; rotate_left; clear_value x; intro _)
    | (extract_lets +onlyGivenNames x; clear_value x)
    | extract_lets +onlyGivenNames x
    | simp -zeta -beta -eta -iota -proj -decide only [Rel.upd]
    | dsimp -zeta only
    | with_reducible refine Rel.ite ?_ ?_

theorem State.refuseSignal_still (s : State) (a : ℕ) : Still s (State.refuseSignal s a) := by
  unfold State.refuseSignal
  repeat' first
    | with_reducible exact Rel.refl _
    | with_reducible assumption
    | with_reducible refine (State.post_still ..).into ?_
    | with_reducible refine (State.modAxis_still ..).into ?_
    | simp -zeta -beta -eta -iota -proj -decide only [Rel.upd]
    | dsimp -zeta only
    | with_reducible refine Rel.ite ?_ ?_

theorem State.axSignal_keep (s : State) (a : ℕ) : Keep s (State.axSignal s a) := by
  unfold State.axSignal
  repeat' first
    | with_reducible exact Rel.refl _
    | with_reducible assumption
    | with_reducible refine (State.refuseSignal_still ..).into ?_
    | with_reducible refine (State.axTarget_keep ..).into ?_
    | with_reducible refine (State.modAxis_still ..).into ?_
    | (extract_lets +onlyGivenNames x)
    | extract_lets +onlyGivenNames x
    | simp -zeta -beta -eta -iota -proj -decide only [Keep.upd]
    | dsimp -zeta only
    | with_reducible refine Rel.ite ?_ ?_
    | split

theorem State.groupSignal_keep (s : State) (g : ℕ) : Keep s (State.groupSignal s g) := by
  unfold State.groupSignal
  repeat' first
    | with_reducible exact Rel.refl _
    | with_reducible assumption
    | with_reducible refine Rel.each (fun t x => ?_) ?_
    | with_reducible refine (State.refuseSignal_still ..).into ?_
    | with_reducible refine (State.undef_keep ..).into ?_
    | with_reducible refine (State.setMotGroup_still ..).into ?_
    | with_reducible refine (State.axBegin_still ..).into ?_
    | with_reducible refine (State.modAxis_still ..).into ?_
    | (extract_lets +onlyGivenNames x)
    | extract_lets +onlyGivenNames x
    | simp -zeta -beta -eta -iota -proj -decide only [Keep.upd]
    | dsimp -zeta only
    | with_reducible refine Rel.ite ?_ ?_

theorem State.motResult_still (s : State) (a : ℕ) (r : ℕ) : Still s (State.motResult s a r) := by
  unfold State.motResult
  repeat' first
    | with_reducible exact Rel.refl _
    | with_reducible assumption
    | with_reducible refine (State.setFld_still ..).into ?_

theorem State.motCommand_good (s : State) (a : ℕ) (f : State → State × ℕ) (hf : ∀ t, Keep t (f t).1) : Good s (State.motCommand s a f) := by
  unfold State.motCommand
  repeat' first
    | with_reducible exact Rel.refl _
    | with_reducible assumption
    | exact Good.fault _ _
    | with_reducible refine Good.next ?_
    | with_reducible refine Good.done ?_
    | with_reducible refine (State.motResult_still ..).into ?_
    | with_reducible refine (State.done_good ..).into ?_
    | with_reducible refine (hf ..).into ?_
    | (extract_lets +onlyGivenNames x; with_reducible refine Good.cutK (x := ?y) ?_ ?_; (case y => apply x.1); subst x; rotate_left; clear_value x; intro _)
    | extract_lets +onlyGivenNames x
    | simp -zeta -beta -eta -iota -proj -decide only [Rel.upd]
    | dsimp -zeta only
    | with_reducible refine Rel.ite ?_ ?_
    | with_reducible refine Good.ite ?_ ?_

theorem State.regMove_keep (s : State) (a : ℕ) (t : ℤ) : Keep s (State.regMove s a t).1 := by
  unfold State.regMove
  repeat' first
    | with_reducible exact Rel.refl _
    | with_reducible assumption
    | with_reducible refine (State.axTarget_keep ..).into ?_
    | simp -zeta -beta -eta -iota -proj -decide only [Keep.upd]
    | dsimp -zeta only
    | with_reducible refine Rel.ite ?_ ?_
    | split

theorem execMoveAbs_good (axis : ℕ) (arg : ℕ) (s : State) : Good s (execMoveAbs axis arg s) := by
  unfold execMoveAbs
  repeat' first
    | with_reducible exact Rel.refl _
    | with_reducible assumption
    | exact Good.fault _ _
    | with_reducible refine Good.next ?_
    | with_reducible refine Good.done ?_
    | with_reducible refine (State.motCommand_good (hf := fun t => ?_) ..).into ?_
    | with_reducible refine (State.regMove_keep ..).into ?_

theorem execMoveRel_good (axis : ℕ) (arg : ℕ) (s : State) : Good s (execMoveRel axis arg s) := by
  unfold execMoveRel
  repeat' first
    | with_reducible exact Rel.refl _
    | with_reducible assumption
    | exact Good.fault _ _
    | with_reducible refine Good.next ?_
    | with_reducible refine Good.done ?_
    | with_reducible refine (State.motCommand_good (hf := fun t => ?_) ..).into ?_
    | with_reducible refine (State.regMove_keep ..).into ?_

theorem State.motStop_still (s : State) (a : ℕ) (hard : Bool) : Still s (State.motStop s a hard).1 := by
  unfold State.motStop
  repeat' first
    | with_reducible exact Rel.refl _
    | with_reducible assumption
    | with_reducible refine (State.setHstate_still ..).into ?_
    | with_reducible refine (State.axStop_still ..).into ?_
    | (extract_lets +onlyGivenNames x)
    | extract_lets +onlyGivenNames x
    | simp -zeta -beta -eta -iota -proj -decide only [Rel.upd]
    | dsimp -zeta only
    | with_reducible refine Rel.ite ?_ ?_

theorem execStopRamped_good (axis : ℕ) (s : State) : Good s (execStopRamped axis s) := by
  unfold execStopRamped
  repeat' first
    | with_reducible exact Rel.refl _
    | with_reducible assumption
    | exact Good.fault _ _
    | with_reducible refine Good.next ?_
    | with_reducible refine Good.done ?_
    | with_reducible refine (State.motCommand_good (hf := fun t => ?_) ..).into ?_
    | with_reducible refine (State.motStop_still ..).into ?_

theorem execStopHard_good (axis : ℕ) (s : State) : Good s (execStopHard axis s) := by
  unfold execStopHard
  repeat' first
    | with_reducible exact Rel.refl _
    | with_reducible assumption
    | exact Good.fault _ _
    | with_reducible refine Good.next ?_
    | with_reducible refine Good.done ?_
    | with_reducible refine (State.motCommand_good (hf := fun t => ?_) ..).into ?_
    | with_reducible refine (State.motStop_still ..).into ?_

theorem State.motHome_keep (s : State) (a : ℕ) : Keep s (State.motHome s a).1 := by
  unfold State.motHome
  repeat' first
    | with_reducible exact Rel.refl _
    | with_reducible assumption
    | with_reducible refine (State.modAxis_still ..).into ?_
    | with_reducible refine (State.axTarget_keep ..).into ?_
    | with_reducible refine (State.setHstate_still ..).into ?_
    | (extract_lets +onlyGivenNames x; with_reducible refine Rel.cut (x := ?y) ?_ ?_; (case y => apply x); subst x; rotate_left; clear_value x; intro _)
    | (extract_lets +onlyGivenNames x; clear_value x)
    | extract_lets +onlyGivenNames x
    | simp -zeta -beta -eta -iota -proj -decide only [Keep.upd]
    | dsimp -zeta only
    | with_reducible refine Rel.ite ?_ ?_
    | split

theorem execMotHome_good (axis : ℕ) (s : State) : Good s (execMotHome axis s) := by
  unfold execMotHome
  repeat' first
    | with_reducible exact Rel.refl _
    | with_reducible assumption
    | exact Good.fault _ _
    | with_reducible refine Good.next ?_
    | with_reducible refine Good.done ?_
    | with_reducible refine (State.motCommand_good (hf := fun t => ?_) ..).into ?_
    | with_reducible refine (State.motHome_keep ..).into ?_

theorem execMotClearFault_good (axis : ℕ) (s : State) : Good s (execMotClearFault axis s) := by
  unfold execMotClearFault
  repeat' first
    | with_reducible exact Rel.refl _
    | with_reducible assumption
    | exact Good.fault _ _
    | with_reducible refine Good.next ?_
    | with_reducible refine Good.done ?_
    | with_reducible refine (State.motCommand_good (hf := fun t => ?_) ..).into ?_
    | with_reducible refine (State.setFld_still ..).into ?_
    | with_reducible refine (State.setCurLevel_still ..).into ?_
    | (extract_lets +onlyGivenNames x; with_reducible refine Rel.cut (x := ?y) ?_ ?_; (case y => apply x); subst x; rotate_left; clear_value x; intro _)
    | extract_lets +onlyGivenNames x
    | simp -zeta -beta -eta -iota -proj -decide only [Rel.upd]
    | dsimp -zeta only
    | with_reducible refine Rel.ite ?_ ?_
    | with_reducible refine Good.ite ?_ ?_
    | split

theorem State.axValley_still (s : State) (a : ℕ) : Still s (State.axValley s a) := by
  unfold State.axValley
  repeat' first
    | with_reducible exact Rel.refl _
    | with_reducible assumption
    | with_reducible refine Rel.each (fun t x => ?_) ?_
    | with_reducible refine (State.setFld_still ..).into ?_
    | with_reducible refine (State.modAxis_still ..).into ?_
    | (extract_lets +onlyGivenNames x; with_reducible refine Rel.cut (x := ?y) ?_ ?_; (case y => apply x); subst x; rotate_left; intro _)
    | (extract_lets +onlyGivenNames x)
    | extract_lets +onlyGivenNames x
    | with_reducible apply_assumption -exfalso -symm
    | simp -zeta -beta -eta -iota -proj -decide only [Rel.upd]
    | dsimp -zeta only
    | with_reducible refine Rel.ite ?_ ?_

theorem execPwmValley_good (channel : ℕ) (s : State) : Good s (execPwmValley channel s) := by
  unfold execPwmValley
  repeat' first
    | with_reducible exact Rel.refl _
    | with_reducible assumption
    | exact Good.fault _ _
    | with_reducible refine Good.next ?_
    | with_reducible refine Good.done ?_
    | with_reducible refine (State.done_good ..).into ?_
    | with_reducible refine (State.undef_keep ..).into ?_
    | with_reducible refine Rel.each (fun t x => ?_) ?_
    | with_reducible refine (State.setFld_still ..).into ?_
    | with_reducible refine (State.axValley_still ..).into ?_
    | (extract_lets +onlyGivenNames x; with_reducible refine Good.cutK (x := ?y) ?_ ?_; (case y => apply x); subst x; rotate_left; clear_value x; intro _)
    | (extract_lets +onlyGivenNames x; clear_value x)
    | extract_lets +onlyGivenNames x
    | simp -zeta -beta -eta -iota -proj -decide only [Rel.upd]
    | dsimp -zeta only
    | with_reducible refine Rel.ite ?_ ?_
    | with_reducible refine Good.ite ?_ ?_

theorem execPwmConverterTrigger_good (channel : ℕ) (s : State) : Good s (execPwmConverterTrigger channel s) := by
  unfold execPwmConverterTrigger
  repeat' first
    | with_reducible exact Rel.refl _
    | with_reducible assumption
    | exact Good.fault _ _
    | with_reducible refine Good.next ?_
    | with_reducible refine Good.done ?_
    | with_reducible refine (State.done_good ..).into ?_
    | with_reducible refine Rel.each (fun t x => ?_) ?_
    | with_reducible refine (State.adcFire_keep ..).into ?_
    | (extract_lets +onlyGivenNames x)
    | extract_lets +onlyGivenNames x
    | simp -zeta -beta -eta -iota -proj -decide only [Rel.upd]
    | dsimp -zeta only
    | with_reducible refine Rel.ite ?_ ?_
    | with_reducible refine Good.ite ?_ ?_

theorem execPwmInhibit_good (input : ℕ) (s : State) : Good s (execPwmInhibit input s) := by
  unfold execPwmInhibit
  repeat' first
    | with_reducible exact Rel.refl _
    | with_reducible assumption
    | exact Good.fault _ _
    | with_reducible refine Good.next ?_
    | with_reducible refine Good.done ?_
    | with_reducible refine (State.setBit_still ..).into ?_
    | with_reducible refine (State.clrBit_still ..).into ?_
    | with_reducible refine Rel.each (fun t x => ?_) ?_
    | with_reducible refine (State.setFld_still ..).into ?_
    | (extract_lets +onlyGivenNames x; with_reducible refine Good.cut (x := ?y) ?_ ?_; (case y => apply x); subst x; rotate_left; clear_value x; intro _)
    | extract_lets +onlyGivenNames x
    | simp -zeta -beta -eta -iota -proj -decide only [Rel.upd]
    | dsimp -zeta only
    | with_reducible refine Rel.ite ?_ ?_
    | with_reducible refine Good.ite ?_ ?_

theorem State.pwmDrive_still (s : State) : Still s (State.pwmDrive s) := by
  unfold State.pwmDrive
  repeat' first
    | with_reducible exact Rel.refl _
    | with_reducible assumption
    | with_reducible refine Rel.each (fun t x => ?_) ?_
    | with_reducible refine (State.setFld_still ..).into ?_
    | (extract_lets +onlyGivenNames x; with_reducible refine Rel.cut (x := ?y) ?_ ?_; (case y => apply x); subst x; rotate_left; clear_value x; intro _)
    | (extract_lets +onlyGivenNames x; with_reducible refine Rel.cutG (x := x) (fun _ _ _ => ?_) ?_; subst x; rotate_left; clear_value x; intro _)
    | extract_lets +onlyGivenNames x
    | with_reducible apply_assumption -exfalso -symm
    | simp -zeta -beta -eta -iota -proj -decide only [Rel.upd]
    | dsimp -zeta only
    | with_reducible refine Rel.ite ?_ ?_
    | split

theorem execStandstillReduce_good (axis : ℕ) (s : State) : Good s (execStandstillReduce axis s) := by
  unfold execStandstillReduce
  repeat' first
    | with_reducible exact Rel.refl _
    | with_reducible assumption
    | exact Good.fault _ _
    | with_reducible refine Good.next ?_
    | with_reducible refine Good.done ?_
    | with_reducible refine (State.setFld_still ..).into ?_
    | with_reducible refine (State.setCurLevel_still ..).into ?_
    | (extract_lets +onlyGivenNames x)
    | extract_lets +onlyGivenNames x
    | simp -zeta -beta -eta -iota -proj -decide only [Rel.upd]
    | dsimp -zeta only
    | with_reducible refine Rel.ite ?_ ?_
    | with_reducible refine Good.ite ?_ ?_

theorem execSdmOutput_good (input : ℕ) (output : ℤ) (s : State) : Good s (execSdmOutput input output s) := by
  unfold execSdmOutput
  repeat' first
    | with_reducible exact Rel.refl _
    | with_reducible assumption
    | exact Good.fault _ _
    | with_reducible refine Good.next ?_
    | with_reducible refine Good.done ?_
    | with_reducible refine (State.done_good ..).into ?_
    | with_reducible refine (State.undef_keep ..).into ?_
    | with_reducible refine (State.setFld_still ..).into ?_
    | (extract_lets +onlyGivenNames x; with_reducible refine Good.cut (x := ?y) ?_ ?_; (case y => apply x); subst x; rotate_left; intro _)
    | (extract_lets +onlyGivenNames x)
    | extract_lets +onlyGivenNames x
    | simp -zeta -beta -eta -iota -proj -decide only [Rel.upd]
    | dsimp -zeta only
    | with_reducible refine Rel.ite ?_ ?_
    | with_reducible refine Good.ite ?_ ?_

theorem State.sdmFault_still (s : State) (n : ℕ) (code : ℕ) (cause : ℕ) : Still s (State.sdmFault s n code cause) := by
  unfold State.sdmFault
  repeat' first
    | with_reducible exact Rel.refl _
    | with_reducible assumption
    | with_reducible refine (State.post_still ..).into ?_
    | with_reducible refine (State.setBit_still ..).into ?_
    | with_reducible refine (State.axStop_still ..).into ?_
    | with_reducible refine (State.modAxis_still ..).into ?_
    | with_reducible refine (State.setFld_still ..).into ?_
    | (extract_lets +onlyGivenNames x; with_reducible refine Rel.cut (x := ?y) ?_ ?_; (case y => apply x); subst x; rotate_left; clear_value x; intro _)
    | (extract_lets +onlyGivenNames x; clear_value x)
    | extract_lets +onlyGivenNames x
    | simp -zeta -beta -eta -iota -proj -decide only [Rel.upd]
    | dsimp -zeta only
    | with_reducible refine Rel.ite ?_ ?_

theorem execOverCurrent_good (input : ℕ) (output : ℤ) (s : State) : Good s (execOverCurrent input output s) := by
  unfold execOverCurrent
  repeat' first
    | with_reducible exact Rel.refl _
    | with_reducible assumption
    | exact Good.fault _ _
    | with_reducible refine Good.next ?_
    | with_reducible refine Good.done ?_
    | with_reducible refine (State.sdmFault_still ..).into ?_
    | with_reducible refine (State.setFld_still ..).into ?_
    | simp -zeta -beta -eta -iota -proj -decide only [Rel.upd]
    | dsimp -zeta only
    | with_reducible refine Rel.ite ?_ ?_
    | with_reducible refine Good.ite ?_ ?_

theorem execDataStuck_good (input : ℕ) (s : State) : Good s (execDataStuck input s) := by
  unfold execDataStuck
  repeat' first
    | with_reducible exact Rel.refl _
    | with_reducible assumption
    | exact Good.fault _ _
    | with_reducible refine Good.next ?_
    | with_reducible refine Good.done ?_
    | with_reducible refine (State.sdmFault_still ..).into ?_
    | with_reducible refine (State.setFld_still ..).into ?_
    | simp -zeta -beta -eta -iota -proj -decide only [Rel.upd]
    | dsimp -zeta only
    | with_reducible refine Rel.ite ?_ ?_
    | with_reducible refine Good.ite ?_ ?_

theorem execMotSignalWrite_good (s : State) : Good s (execMotSignalWrite s) := by
  unfold execMotSignalWrite
  repeat' first
    | with_reducible exact Rel.refl _
    | with_reducible assumption
    | exact Good.fault _ _
    | with_reducible refine Good.next ?_
    | with_reducible refine Good.done ?_
    | with_reducible refine (State.done_good ..).into ?_
    | with_reducible refine Rel.each (fun t x => ?_) ?_
    | with_reducible refine (State.putSig_still ..).into ?_
    | with_reducible refine (State.undef_keep ..).into ?_
    | (extract_lets +onlyGivenNames x)
    | extract_lets +onlyGivenNames x
    | simp -zeta -beta -eta -iota -proj -decide only [Rel.upd]
    | dsimp -zeta only
    | with_reducible refine Rel.ite ?_ ?_
    | with_reducible refine Good.ite ?_ ?_
    | split

theorem State.sdmStrobe_still (s : State) : Still s (State.sdmStrobe s) := by
  unfold State.sdmStrobe
  repeat' first
    | with_reducible exact Rel.refl _
    | with_reducible assumption
    | with_reducible refine Rel.each (fun t x => ?_) ?_
    | with_reducible refine (State.latchSig_still ..).into ?_
    | with_reducible refine (State.latchGrp_still ..).into ?_
    | (extract_lets +onlyGivenNames x; with_reducible refine Rel.cut (x := ?y) ?_ ?_; (case y => apply x); subst x; rotate_left; intro _)
    | (extract_lets +onlyGivenNames x)
    | extract_lets +onlyGivenNames x
    | with_reducible apply_assumption -exfalso -symm
    | simp -zeta -beta -eta -iota -proj -decide only [Rel.upd]
    | dsimp -zeta only
    | with_reducible refine Rel.ite ?_ ?_
    | split

theorem State.gpioStrobe_still (s : State) : Still s (State.gpioStrobe s) := by
  unfold State.gpioStrobe
  repeat' first
    | with_reducible exact Rel.refl _
    | with_reducible assumption
    | with_reducible refine Rel.each (fun t x => ?_) ?_
    | with_reducible refine (State.latchSig_still ..).into ?_
    | with_reducible refine (State.latchGrp_still ..).into ?_

theorem State.motStrobe_still (s : State) : Still s (State.motStrobe s) := by
  unfold State.motStrobe
  repeat' first
    | with_reducible exact Rel.refl _
    | with_reducible assumption
    | with_reducible refine Rel.each (fun t x => ?_) ?_
    | with_reducible refine (State.modAxis_still ..).into ?_
    | with_reducible refine (State.gpioDrive_still ..).into ?_
    | with_reducible refine (State.pwmDrive_still ..).into ?_
    | with_reducible refine (State.gpioStrobe_still ..).into ?_
    | with_reducible refine (State.sdmStrobe_still ..).into ?_
    | (extract_lets +onlyGivenNames x; with_reducible refine Rel.cut (x := ?y) ?_ ?_; (case y => apply x); subst x; rotate_left; clear_value x; intro _)
    | (extract_lets +onlyGivenNames x; clear_value x)
    | extract_lets +onlyGivenNames x
    | simp -zeta -beta -eta -iota -proj -decide only [Rel.upd]
    | dsimp -zeta only
    | with_reducible refine Rel.ite ?_ ?_

theorem State.motTable_still (s : State) : Still s (State.motTable s) := by
  unfold State.motTable
  repeat' first
    | with_reducible exact Rel.refl _
    | with_reducible assumption
    | (extract_lets +onlyGivenNames x)
    | extract_lets +onlyGivenNames x
    | simp -zeta -beta -eta -iota -proj -decide only [Rel.upd]

theorem State.motCommit_still (s : State) : Still s (State.motCommit s) := by
  unfold State.motCommit
  repeat' first
    | with_reducible exact Rel.refl _
    | with_reducible assumption
    | with_reducible refine (State.motTable_still ..).into ?_
    | with_reducible refine Rel.each (fun t x => ?_) ?_
    | with_reducible refine (State.modAxis_still ..).into ?_
    | (extract_lets +onlyGivenNames x)
    | extract_lets +onlyGivenNames x
    | simp -zeta -beta -eta -iota -proj -decide only [Rel.upd]

theorem State.motPowerFail_still (s : State) : Still s (State.motPowerFail s) := by
  unfold State.motPowerFail
  repeat' first
    | with_reducible exact Rel.refl _
    | with_reducible assumption
    | with_reducible refine Rel.each (fun t x => ?_) ?_
    | with_reducible refine (State.axStop_still ..).into ?_
    | with_reducible refine (State.modAxis_still ..).into ?_
    | with_reducible refine (State.setCurLevel_still ..).into ?_
    | (extract_lets +onlyGivenNames x; with_reducible refine Rel.cut (x := ?y) ?_ ?_; (case y => apply x); subst x; rotate_left; clear_value x; intro _)
    | extract_lets +onlyGivenNames x
    | simp -zeta -beta -eta -iota -proj -decide only [Rel.upd]
    | dsimp -zeta only
    | with_reducible refine Rel.ite ?_ ?_

theorem State.axRestore_still (s : State) (a : ℕ) (v : AxisSnap) : Still s (State.axRestore s a v) := by
  unfold State.axRestore
  repeat' first
    | with_reducible exact Rel.refl _
    | with_reducible assumption
    | with_reducible refine (State.modAxis_still ..).into ?_
    | with_reducible refine (State.setFld_still ..).into ?_
    | with_reducible refine (State.post_still ..).into ?_
    | (extract_lets +onlyGivenNames x; with_reducible refine Rel.cut (x := ?y) ?_ ?_; (case y => apply x); subst x; rotate_left; clear_value x; intro _)
    | (extract_lets +onlyGivenNames x; clear_value x)
    | extract_lets +onlyGivenNames x
    | simp -zeta -beta -eta -iota -proj -decide only [Rel.upd]
    | dsimp -zeta only
    | with_reducible refine Rel.ite ?_ ?_

theorem State.motResume_keep (s : State) : Keep s (State.motResume s) := by
  unfold State.motResume
  repeat' first
    | with_reducible exact Rel.refl _
    | with_reducible assumption
    | with_reducible refine Rel.each (fun t x => ?_) ?_
    | with_reducible refine (State.modAxis_still ..).into ?_
    | with_reducible refine (State.axTarget_keep ..).into ?_
    | (extract_lets +onlyGivenNames x; with_reducible refine Rel.cut (x := ?y) ?_ ?_; (case y => apply x); subst x; rotate_left; clear_value x; intro _)
    | (extract_lets +onlyGivenNames x; clear_value x)
    | extract_lets +onlyGivenNames x
    | simp -zeta -beta -eta -iota -proj -decide only [Keep.upd]
    | dsimp -zeta only
    | with_reducible refine Rel.ite ?_ ?_
    | split

end Sys2Proof.Machine
end

