-- ==== Sys2Proof/Laws/KeepPosition.lean ====
section
/-!
SUPPORT. Laws/KeepPosition.lean: what the operations of Machine/Position.lean keep.
-/

namespace Sys2Proof.Machine

theorem State.modEnc_still (s : State) (n : ℕ) (f : EncSt → EncSt) : Still s (State.modEnc s n f) := by
  unfold State.modEnc
  repeat' first
    | with_reducible exact Rel.refl _
    | with_reducible assumption
    | (extract_lets +onlyGivenNames x)
    | extract_lets +onlyGivenNames x
    | simp -zeta -beta -eta -iota -proj -decide only [Rel.upd]

theorem State.modSsi_still (s : State) (n : ℕ) (f : SsiSt → SsiSt) : Still s (State.modSsi s n f) := by
  unfold State.modSsi
  repeat' first
    | with_reducible exact Rel.refl _
    | with_reducible assumption
    | (extract_lets +onlyGivenNames x)
    | extract_lets +onlyGivenNames x
    | simp -zeta -beta -eta -iota -proj -decide only [Rel.upd]

theorem State.modCmpU_still (s : State) (u : ℕ) (f : CmpUnit → CmpUnit) : Still s (State.modCmpU s u f) := by
  unfold State.modCmpU
  repeat' first
    | with_reducible exact Rel.refl _
    | with_reducible assumption
    | (extract_lets +onlyGivenNames x)
    | extract_lets +onlyGivenNames x
    | simp -zeta -beta -eta -iota -proj -decide only [Rel.upd]

theorem State.cmpOut_still (s : State) (u : ℕ) (on : Bool) : Still s (State.cmpOut s u on) := by
  unfold State.cmpOut
  repeat' first
    | with_reducible exact Rel.refl _
    | with_reducible assumption
    | with_reducible refine (State.modCmpU_still ..).into ?_
    | with_reducible refine (State.driveLine_still ..).into ?_
    | (extract_lets +onlyGivenNames x)
    | extract_lets +onlyGivenNames x
    | simp -zeta -beta -eta -iota -proj -decide only [Rel.upd]
    | dsimp -zeta only
    | with_reducible refine Rel.ite ?_ ?_

theorem State.cmpCurrent_still (s : State) (u : ℕ) : Still s (State.cmpCurrent s u) := by
  unfold State.cmpCurrent
  repeat' first
    | with_reducible exact Rel.refl _
    | with_reducible assumption
    | with_reducible refine (State.post_still ..).into ?_
    | with_reducible refine (State.setFld_still ..).into ?_
    | (extract_lets +onlyGivenNames x)
    | extract_lets +onlyGivenNames x
    | simp -zeta -beta -eta -iota -proj -decide only [Rel.upd]
    | dsimp -zeta only
    | with_reducible refine Rel.ite ?_ ?_

theorem State.cmpFire_still (s : State) (u : ℕ) (c : ℤ) : Still s (State.cmpFire s u c) := by
  unfold State.cmpFire
  repeat' first
    | with_reducible exact Rel.refl _
    | with_reducible assumption
    | with_reducible refine (State.setFld_still ..).into ?_
    | with_reducible refine (State.incFld_still ..).into ?_
    | with_reducible refine (State.cmpOut_still ..).into ?_
    | with_reducible refine (State.post_still ..).into ?_
    | with_reducible refine (State.modCmpU_still ..).into ?_
    | with_reducible refine (State.cmpCurrent_still ..).into ?_
    | (extract_lets +onlyGivenNames x; with_reducible refine Rel.cut (x := ?y) ?_ ?_; (case y => apply x); subst x; rotate_left; intro _)
    | (extract_lets +onlyGivenNames x)
    | extract_lets +onlyGivenNames x
    | simp -zeta -beta -eta -iota -proj -decide only [Rel.upd]
    | dsimp -zeta only
    | with_reducible refine Rel.ite ?_ ?_

theorem State.cmpEval_still (s : State) (u : ℕ) : Still s (State.cmpEval s u).1 := by
  unfold State.cmpEval
  repeat' first
    | with_reducible exact Rel.refl _
    | with_reducible assumption
    | with_reducible refine (State.cmpFire_still ..).into ?_
    | with_reducible refine (State.modCmpU_still ..).into ?_
    | (extract_lets +onlyGivenNames x)
    | extract_lets +onlyGivenNames x
    | simp -zeta -beta -eta -iota -proj -decide only [Rel.upd]
    | dsimp -zeta only
    | with_reducible refine Rel.ite ?_ ?_
    | split

theorem State.cmpRun_still (s : State) (u : ℕ) (k : ℕ) : Still s (State.cmpRun s u k) := by
  induction k generalizing s with
  | zero => exact Rel.refl s
  | succ k ih =>
    unfold State.cmpRun
    dsimp only
    split
    · exact (ih _).into (State.cmpEval_still ..)
    · exact State.cmpEval_still ..

theorem State.cmpEnc_still (s : State) (n : ℕ) : Still s (State.cmpEnc s n) := by
  unfold State.cmpEnc
  repeat' first
    | with_reducible exact Rel.refl _
    | with_reducible assumption
    | with_reducible refine Rel.each (fun t x => ?_) ?_
    | with_reducible refine (State.cmpRun_still ..).into ?_
    | simp -zeta -beta -eta -iota -proj -decide only [Rel.upd]
    | dsimp -zeta only
    | with_reducible refine Rel.ite ?_ ?_

theorem State.cmpAxis_still (s : State) (u : ℕ) : Still s (State.cmpAxis s u) := by
  unfold State.cmpAxis
  repeat' first
    | with_reducible exact Rel.refl _
    | with_reducible assumption
    | with_reducible refine (State.cmpEval_still ..).into ?_
    | with_reducible refine Rel.ofPair (by assumption) (State.cmpEval_still ..) ?_
    | simp -zeta -beta -eta -iota -proj -decide only [Rel.upd]
    | dsimp -zeta only
    | with_reducible refine Rel.ite ?_ ?_

theorem execComparePulseEnd_good (unit : ℕ) (s : State) : Good s (execComparePulseEnd unit s) := by
  unfold execComparePulseEnd
  repeat' first
    | with_reducible exact Rel.refl _
    | with_reducible assumption
    | exact Good.fault _ _
    | with_reducible refine Good.next ?_
    | with_reducible refine Good.done ?_
    | with_reducible refine (State.cmpOut_still ..).into ?_
    | simp -zeta -beta -eta -iota -proj -decide only [Rel.upd]
    | dsimp -zeta only
    | with_reducible refine Rel.ite ?_ ?_
    | with_reducible refine Good.ite ?_ ?_

theorem State.cmpWrite_still (s : State) (unit : ℕ) (entry : ℕ) (value : ℕ) : Still s (State.cmpWrite s unit entry value) := by
  unfold State.cmpWrite
  repeat' first
    | with_reducible exact Rel.refl _
    | with_reducible assumption
    | with_reducible refine (State.setFld_still ..).into ?_
    | with_reducible refine (State.cmpCurrent_still ..).into ?_
    | with_reducible refine (State.cmpRun_still ..).into ?_
    | (extract_lets +onlyGivenNames x; with_reducible refine Rel.cut (x := ?y) ?_ ?_; (case y => apply x); subst x; rotate_left; clear_value x; intro _)
    | extract_lets +onlyGivenNames x
    | simp -zeta -beta -eta -iota -proj -decide only [Rel.upd]
    | dsimp -zeta only
    | with_reducible refine Rel.ite ?_ ?_

theorem execCompareEntryWrite_good (unit : ℕ) (entry : ℕ) (value : ℕ) (s : State) : Good s (execCompareEntryWrite unit entry value s) := by
  unfold execCompareEntryWrite
  repeat' first
    | with_reducible exact Rel.refl _
    | with_reducible assumption
    | exact Good.fault _ _
    | with_reducible refine Good.next ?_
    | with_reducible refine Good.done ?_
    | with_reducible refine (State.cmpWrite_still ..).into ?_
    | simp -zeta -beta -eta -iota -proj -decide only [Rel.upd]
    | dsimp -zeta only
    | with_reducible refine Rel.ite ?_ ?_
    | with_reducible refine Good.ite ?_ ?_

theorem State.posCommand_good (s : State) (n : ℕ) (max_ : ℕ) (f : State → State) (hf : ∀ t, Keep t (f t)) : Good s (State.posCommand s n max_ f) := by
  unfold State.posCommand
  repeat' first
    | with_reducible exact Rel.refl _
    | with_reducible assumption
    | exact Good.fault _ _
    | with_reducible refine Good.next ?_
    | with_reducible refine Good.done ?_
    | with_reducible refine (State.done_good ..).into ?_
    | with_reducible refine (hf ..).into ?_
    | simp -zeta -beta -eta -iota -proj -decide only [Rel.upd]
    | dsimp -zeta only
    | with_reducible refine Rel.ite ?_ ?_
    | with_reducible refine Good.ite ?_ ?_

theorem execCmpArm_good (unit : ℕ) (s : State) : Good s (execCmpArm unit s) := by
  unfold execCmpArm
  repeat' first
    | with_reducible exact Rel.refl _
    | with_reducible assumption
    | exact Good.fault _ _
    | with_reducible refine Good.next ?_
    | with_reducible refine Good.done ?_
    | with_reducible refine (State.posCommand_good (hf := fun t => ?_) ..).into ?_
    | with_reducible refine (State.undef_keep ..).into ?_
    | with_reducible refine (State.setFld_still ..).into ?_
    | with_reducible refine (State.cmpCurrent_still ..).into ?_
    | with_reducible refine (State.modCmpU_still ..).into ?_
    | (extract_lets +onlyGivenNames x; with_reducible refine Rel.cut (x := ?y) ?_ ?_; (case y => apply x); subst x; rotate_left; clear_value x; intro _)
    | extract_lets +onlyGivenNames x
    | simp -zeta -beta -eta -iota -proj -decide only [Rel.upd]
    | dsimp -zeta only
    | with_reducible refine Rel.ite ?_ ?_

theorem execCmpDisarm_good (unit : ℕ) (s : State) : Good s (execCmpDisarm unit s) := by
  unfold execCmpDisarm
  repeat' first
    | with_reducible exact Rel.refl _
    | with_reducible assumption
    | exact Good.fault _ _
    | with_reducible refine Good.next ?_
    | with_reducible refine Good.done ?_
    | with_reducible refine (State.posCommand_good (hf := fun t => ?_) ..).into ?_
    | with_reducible refine (State.setFld_still ..).into ?_

theorem execQuadratureTransition_good (channel : ℕ) (ab : ℕ) (s : State) : Good s (execQuadratureTransition channel ab s) := by
  unfold execQuadratureTransition
  repeat' first
    | with_reducible exact Rel.refl _
    | with_reducible assumption
    | exact Good.fault _ _
    | with_reducible refine Good.next ?_
    | with_reducible refine Good.done ?_
    | with_reducible refine (State.modEnc_still ..).into ?_
    | with_reducible refine (State.incFld_still ..).into ?_
    | with_reducible refine (State.cmpEnc_still ..).into ?_
    | with_reducible refine (State.setFld_still ..).into ?_
    | (extract_lets +onlyGivenNames x; with_reducible refine Good.cut (x := ?y) ?_ ?_; (case y => apply x); subst x; rotate_left; clear_value x; intro _)
    | (extract_lets +onlyGivenNames x; clear_value x)
    | extract_lets +onlyGivenNames x
    | simp -zeta -beta -eta -iota -proj -decide only [Rel.upd]
    | dsimp -zeta only
    | with_reducible refine Rel.ite ?_ ?_
    | with_reducible refine Good.ite ?_ ?_
    | split

theorem execZCapture_good (channel : ℕ) (s : State) : Good s (execZCapture channel s) := by
  unfold execZCapture
  repeat' first
    | with_reducible exact Rel.refl _
    | with_reducible assumption
    | exact Good.fault _ _
    | with_reducible refine Good.next ?_
    | with_reducible refine Good.done ?_
    | with_reducible refine (State.setFld_still ..).into ?_
    | with_reducible refine (State.done_good ..).into ?_
    | with_reducible refine (State.undef_keep ..).into ?_
    | (extract_lets +onlyGivenNames x; with_reducible refine Good.cutG0 (x := x) (fun _ _ _ => ?_) ?_; subst x; rotate_left; clear_value x; intro _)
    | extract_lets +onlyGivenNames x
    | with_reducible apply_assumption -exfalso -symm
    | simp -zeta -beta -eta -iota -proj -decide only [Rel.upd]
    | dsimp -zeta only
    | with_reducible refine Rel.ite ?_ ?_
    | with_reducible refine Good.ite ?_ ?_
    | split

theorem State.encFault_still (s : State) (n : ℕ) : Still s (State.encFault s n) := by
  unfold State.encFault
  repeat' first
    | with_reducible exact Rel.refl _
    | with_reducible assumption
    | with_reducible refine (State.post_still ..).into ?_
    | with_reducible refine (State.setFld_still ..).into ?_
    | with_reducible refine (State.setBit_still ..).into ?_
    | simp -zeta -beta -eta -iota -proj -decide only [Rel.upd]
    | dsimp -zeta only
    | with_reducible refine Rel.ite ?_ ?_

theorem State.wireFault_still (s : State) (n : ℕ) : Still s (State.wireFault s n) := by
  unfold State.wireFault
  repeat' first
    | with_reducible exact Rel.refl _
    | with_reducible assumption
    | with_reducible refine (State.setFld_still ..).into ?_
    | with_reducible refine (State.post_still ..).into ?_
    | with_reducible refine (State.setBit_still ..).into ?_
    | (extract_lets +onlyGivenNames x; with_reducible refine Rel.cut (x := ?y) ?_ ?_; (case y => apply x); subst x; rotate_left; clear_value x; intro _)
    | extract_lets +onlyGivenNames x
    | simp -zeta -beta -eta -iota -proj -decide only [Rel.upd]
    | dsimp -zeta only
    | with_reducible refine Rel.ite ?_ ?_

theorem execWireFault_good (channel : ℕ) (lines : ℕ) (s : State) : Good s (execWireFault channel lines s) := by
  unfold execWireFault
  repeat' first
    | with_reducible exact Rel.refl _
    | with_reducible assumption
    | exact Good.fault _ _
    | with_reducible refine Good.next ?_
    | with_reducible refine Good.done ?_
    | with_reducible refine (State.modEnc_still ..).into ?_
    | with_reducible refine (State.wireFault_still ..).into ?_
    | (extract_lets +onlyGivenNames x; with_reducible refine Good.cut (x := ?y) ?_ ?_; (case y => apply x); subst x; rotate_left; clear_value x; intro _)
    | (extract_lets +onlyGivenNames x; clear_value x)
    | extract_lets +onlyGivenNames x
    | simp -zeta -beta -eta -iota -proj -decide only [Rel.upd]
    | dsimp -zeta only
    | with_reducible refine Rel.ite ?_ ?_
    | with_reducible refine Good.ite ?_ ?_

theorem execArmZ_good (channel : ℕ) (s : State) : Good s (execArmZ channel s) := by
  unfold execArmZ
  repeat' first
    | with_reducible exact Rel.refl _
    | with_reducible assumption
    | exact Good.fault _ _
    | with_reducible refine Good.next ?_
    | with_reducible refine Good.done ?_
    | with_reducible refine (State.posCommand_good (hf := fun t => ?_) ..).into ?_
    | with_reducible refine (State.setFld_still ..).into ?_

theorem execPosClear_good (channel : ℕ) (s : State) : Good s (execPosClear channel s) := by
  unfold execPosClear
  repeat' first
    | with_reducible exact Rel.refl _
    | with_reducible assumption
    | exact Good.fault _ _
    | with_reducible refine Good.next ?_
    | with_reducible refine Good.done ?_
    | with_reducible refine (State.posCommand_good (hf := fun t => ?_) ..).into ?_
    | with_reducible refine (State.clrBit_still ..).into ?_
    | with_reducible refine (State.setFld_still ..).into ?_

theorem execLoadCount_good (channel : ℕ) (arg : ℕ) (s : State) : Good s (execLoadCount channel arg s) := by
  unfold execLoadCount
  repeat' first
    | with_reducible exact Rel.refl _
    | with_reducible assumption
    | exact Good.fault _ _
    | with_reducible refine Good.next ?_
    | with_reducible refine Good.done ?_
    | with_reducible refine (State.posCommand_good (hf := fun t => ?_) ..).into ?_
    | with_reducible refine (State.cmpEnc_still ..).into ?_
    | with_reducible refine (State.setFld_still ..).into ?_

theorem execSsiFrame_good (channel : ℕ) (ready : Bool) (bits : ℕ) (parity : Bool) (s : State) : Good s (execSsiFrame channel ready bits parity s) := by
  unfold execSsiFrame
  repeat' first
    | with_reducible exact Rel.refl _
    | with_reducible assumption
    | exact Good.fault _ _
    | with_reducible refine Good.next ?_
    | with_reducible refine Good.done ?_
    | with_reducible refine (State.done_good ..).into ?_
    | with_reducible refine (State.undef_keep ..).into ?_
    | with_reducible refine (State.setFld_still ..).into ?_
    | with_reducible refine (State.modSsi_still ..).into ?_
    | with_reducible refine (State.incFld_still ..).into ?_
    | with_reducible refine (State.post_still ..).into ?_
    | (extract_lets +onlyGivenNames x; with_reducible refine Good.cut (x := ?y) ?_ ?_; (case y => apply x); subst x; rotate_left; intro _)
    | (extract_lets +onlyGivenNames x)
    | extract_lets +onlyGivenNames x
    | simp -zeta -beta -eta -iota -proj -decide only [Rel.upd]
    | dsimp -zeta only
    | with_reducible refine Rel.ite ?_ ?_
    | with_reducible refine Good.ite ?_ ?_
    | split

theorem execClearSsi_good (channel : ℕ) (s : State) : Good s (execClearSsi channel s) := by
  unfold execClearSsi
  repeat' first
    | with_reducible exact Rel.refl _
    | with_reducible assumption
    | exact Good.fault _ _
    | with_reducible refine Good.next ?_
    | with_reducible refine Good.done ?_
    | with_reducible refine (State.posCommand_good (hf := fun t => ?_) ..).into ?_
    | with_reducible refine (State.setFld_still ..).into ?_

theorem State.encStrobe_keep (s : State) : Keep s (State.encStrobe s) := by
  unfold State.encStrobe
  repeat' first
    | with_reducible exact Rel.refl _
    | with_reducible assumption
    | with_reducible refine Rel.each (fun t x => ?_) ?_
    | with_reducible refine (State.encFault_still ..).into ?_
    | with_reducible refine (State.wireFault_still ..).into ?_
    | with_reducible refine (State.modEnc_still ..).into ?_
    | with_reducible refine (State.undef_keep ..).into ?_
    | with_reducible refine (State.latchSig_still ..).into ?_
    | with_reducible refine (State.latchGrp_still ..).into ?_
    | (extract_lets +onlyGivenNames x; with_reducible refine Rel.cut (x := ?y) ?_ ?_; (case y => apply x); subst x; rotate_left; clear_value x; intro _)
    | (extract_lets +onlyGivenNames x; clear_value x)
    | extract_lets +onlyGivenNames x
    | simp -zeta -beta -eta -iota -proj -decide only [Keep.upd]
    | dsimp -zeta only
    | with_reducible refine Rel.ite ?_ ?_
    | split

theorem State.ssiStrobe_keep (s : State) : Keep s (State.ssiStrobe s) := by
  unfold State.ssiStrobe
  repeat' first
    | with_reducible exact Rel.refl _
    | with_reducible assumption
    | with_reducible refine Rel.each (fun t x => ?_) ?_
    | with_reducible refine (State.latchSig_still ..).into ?_
    | with_reducible refine (State.undef_keep ..).into ?_
    | with_reducible refine (State.latchGrp_still ..).into ?_
    | with_reducible refine (State.modSsi_still ..).into ?_
    | (extract_lets +onlyGivenNames x)
    | extract_lets +onlyGivenNames x
    | simp -zeta -beta -eta -iota -proj -decide only [Keep.upd]
    | dsimp -zeta only
    | with_reducible refine Rel.ite ?_ ?_
    | split

theorem State.posStrobe_keep (s : State) : Keep s (State.posStrobe s) := by
  unfold State.posStrobe
  repeat' first
    | with_reducible exact Rel.refl _
    | with_reducible assumption
    | with_reducible refine (State.ssiStrobe_keep ..).into ?_
    | with_reducible refine (State.encStrobe_keep ..).into ?_
    | simp -zeta -beta -eta -iota -proj -decide only [Keep.upd]
    | dsimp -zeta only
    | with_reducible refine Rel.ite ?_ ?_

theorem State.posCommit_still (s : State) : Still s (State.posCommit s) := by
  unfold State.posCommit
  repeat' first
    | with_reducible exact Rel.refl _
    | with_reducible assumption
    | with_reducible refine (State.clrRegs_still ..).into ?_
    | with_reducible refine Rel.each (fun t x => ?_) ?_
    | with_reducible refine (State.setFld_still ..).into ?_
    | (extract_lets +onlyGivenNames x)
    | extract_lets +onlyGivenNames x
    | simp -zeta -beta -eta -iota -proj -decide only [Rel.upd]

theorem execProfileInterval_good (k : ℕ) (lines : List (ℕ × Bool)) (s : State) : Good s (execProfileInterval k lines s) := by
  unfold execProfileInterval
  repeat' first
    | with_reducible exact Rel.refl _
    | with_reducible assumption
    | exact Rel.weak (by with_reducible assumption)
    | exact Good.fault _ _
    | with_reducible refine Good.next ?_
    | with_reducible refine Good.done ?_
    | with_reducible refine (State.setLines_still ..).into ?_
    | with_reducible refine (State.done_good ..).into ?_
    | with_reducible refine (State.undef_keep ..).into ?_
    | with_reducible refine Rel.each (fun t x => ?_) ?_
    | with_reducible refine (State.axLimits_still ..).into ?_
    | with_reducible refine (State.axSignal_keep ..).into ?_
    | with_reducible refine (State.groupSignal_keep ..).into ?_
    | with_reducible refine (State.pathUpdate_still ..).into ?_
    | with_reducible refine (State.axUpdate_still ..).into ?_
    | with_reducible refine (State.cmpAxis_still ..).into ?_
    | (extract_lets +onlyGivenNames x; with_reducible refine Good.cut (x := ?y) ?_ ?_; (case y => apply x); (focus subst x; repeat' first | with_reducible exact Rel.refl _ | with_reducible assumption | with_reducible refine (State.setLines_still ..).into ?_ | with_reducible refine (State.undef_keep ..).into ?_ | with_reducible refine Rel.each (fun t x => ?_) ?_ | with_reducible refine (State.axLimits_still ..).into ?_ | with_reducible refine (State.axSignal_keep ..).into ?_ | with_reducible refine (State.groupSignal_keep ..).into ?_ | with_reducible refine (State.pathUpdate_still ..).into ?_ | with_reducible refine (State.axUpdate_still ..).into ?_ | with_reducible refine (State.cmpAxis_still ..).into ?_ | (extract_lets +onlyGivenNames x; with_reducible refine Rel.cut (x := ?y) ?_ ?_; (case y => apply x); subst x; rotate_left; clear_value x; intro _) | (extract_lets +onlyGivenNames x; clear_value x) | extract_lets +onlyGivenNames x | simp -zeta -beta -eta -iota -proj -decide only [Rel.upd] | dsimp -zeta only | with_reducible refine Rel.ite ?_ ?_ | split); clear_value x; intro _)
    | (extract_lets +onlyGivenNames x; with_reducible refine Good.cutK (x := ?y) ?_ ?_; (case y => apply x); subst x; rotate_left; clear_value x; intro _)
    | (extract_lets +onlyGivenNames x; with_reducible refine Rel.cut (x := ?y) ?_ ?_; (case y => apply x); subst x; rotate_left; clear_value x; intro _)
    | (extract_lets +onlyGivenNames x; clear_value x)
    | extract_lets +onlyGivenNames x
    | simp -zeta -beta -eta -iota -proj -decide only [Rel.upd]
    | dsimp -zeta only
    | with_reducible refine Rel.ite ?_ ?_
    | with_reducible refine Good.ite ?_ ?_

end Sys2Proof.Machine
end

