-- ==== Sys2Proof/Laws/KeepIsland.lean ====
section
/-!
SUPPORT. Laws/KeepIsland.lean: what the operations of Machine/Island.lean keep.
-/

namespace Sys2Proof.Machine

theorem State.island_still (s : State) (f : SafState → SafState) : Still s (State.island s f) := by
  unfold State.island
  repeat' first
    | with_reducible exact Rel.refl _
    | with_reducible assumption
    | simp -zeta -beta -eta -iota -proj -decide only [Rel.upd]

theorem State.winW_still (s0 : State) (o : ℕ) (v : ℕ) : Still s0 (State.winW s0 o v) := by
  unfold State.winW
  repeat' first
    | with_reducible exact Rel.refl _
    | with_reducible assumption
    | with_reducible refine (State.wakeUp_still ..).into ?_
    | with_reducible refine (State.setPw_still ..).into ?_
    | (extract_lets +onlyGivenNames x; with_reducible refine Rel.cut (x := ?y) ?_ ?_; (case y => apply x); subst x; rotate_left; clear_value x; intro _)
    | extract_lets +onlyGivenNames x
    | simp -zeta -beta -eta -iota -proj -decide only [Rel.upd]
    | dsimp -zeta only
    | with_reducible refine Rel.ite ?_ ?_

theorem State.safEvent_still (s : State) (code : ℕ) (item : ℕ) (data : ℕ) : Still s (State.safEvent s code item data) := by
  unfold State.safEvent
  repeat' first
    | with_reducible exact Rel.refl _
    | with_reducible assumption
    | with_reducible refine (State.winW_still ..).into ?_
    | with_reducible refine (State.island_still ..).into ?_

theorem State.safGo_still (s : State) (st : ℕ) : Still s (State.safGo s st) := by
  unfold State.safGo
  repeat' first
    | with_reducible exact Rel.refl _
    | with_reducible assumption
    | with_reducible refine (State.safEvent_still ..).into ?_
    | with_reducible refine (State.island_still ..).into ?_
    | (extract_lets +onlyGivenNames x)
    | extract_lets +onlyGivenNames x
    | simp -zeta -beta -eta -iota -proj -decide only [Rel.upd]
    | dsimp -zeta only
    | with_reducible refine Rel.ite ?_ ?_

theorem State.safFault_still (s : State) (b : ℕ) : Still s (State.safFault s b) := by
  unfold State.safFault
  repeat' first
    | with_reducible exact Rel.refl _
    | with_reducible assumption
    | with_reducible refine (State.safEvent_still ..).into ?_
    | with_reducible refine (State.island_still ..).into ?_
    | with_reducible refine (State.safGo_still ..).into ?_
    | (extract_lets +onlyGivenNames x)
    | extract_lets +onlyGivenNames x
    | simp -zeta -beta -eta -iota -proj -decide only [Rel.upd]
    | dsimp -zeta only
    | with_reducible refine Rel.ite ?_ ?_

theorem State.safPublish_still (s : State) : Still s (State.safPublish s) := by
  unfold State.safPublish
  repeat' first
    | with_reducible exact Rel.refl _
    | with_reducible assumption
    | with_reducible refine (State.winW_still ..).into ?_
    | with_reducible refine Rel.each (fun t x => ?_) ?_

theorem State.inputFault_still (s : State) (n : ℕ) (overdue : Bool) : Still s (State.inputFault s n overdue) := by
  unfold State.inputFault
  repeat' first
    | with_reducible exact Rel.refl _
    | with_reducible assumption
    | with_reducible refine (State.safEvent_still ..).into ?_
    | with_reducible refine (State.island_still ..).into ?_
    | (extract_lets +onlyGivenNames x)
    | extract_lets +onlyGivenNames x
    | simp -zeta -beta -eta -iota -proj -decide only [Rel.upd]
    | dsimp -zeta only
    | with_reducible refine Rel.ite ?_ ?_

theorem State.safOverdue_still (s : State) : Still s (State.safOverdue s) := by
  unfold State.safOverdue
  repeat' first
    | with_reducible exact Rel.refl _
    | with_reducible assumption
    | with_reducible refine Rel.each (fun t x => ?_) ?_
    | with_reducible refine (State.inputFault_still ..).into ?_
    | (extract_lets +onlyGivenNames x)
    | extract_lets +onlyGivenNames x
    | simp -zeta -beta -eta -iota -proj -decide only [Rel.upd]
    | dsimp -zeta only
    | with_reducible refine Rel.ite ?_ ?_

theorem State.safReset_still (s : State) (ps : List (ℕ × ℕ)) : Still s (State.safReset s ps) := by
  unfold State.safReset
  repeat' first
    | with_reducible exact Rel.refl _
    | with_reducible assumption
    | with_reducible refine Rel.each (fun t x => ?_) ?_
    | with_reducible refine (State.safEvent_still ..).into ?_
    | with_reducible refine (State.island_still ..).into ?_
    | (extract_lets +onlyGivenNames x; with_reducible refine Rel.cut (x := ?y) ?_ ?_; (case y => apply x); subst x; rotate_left; clear_value x; intro _)
    | (extract_lets +onlyGivenNames x; clear_value x)
    | extract_lets +onlyGivenNames x
    | simp -zeta -beta -eta -iota -proj -decide only [Rel.upd]
    | dsimp -zeta only
    | with_reducible refine Rel.ite ?_ ?_
    | split

theorem State.safEmo_still (s : State) (ps : List (ℕ × ℕ)) : Still s (State.safEmo s ps) := by
  unfold State.safEmo
  repeat' first
    | with_reducible exact Rel.refl _
    | with_reducible assumption
    | with_reducible refine (State.island_still ..).into ?_
    | with_reducible refine (State.safEvent_still ..).into ?_
    | (extract_lets +onlyGivenNames x; with_reducible refine Rel.cut (x := ?y) ?_ ?_; (case y => apply x); subst x; rotate_left; clear_value x; intro _)
    | (extract_lets +onlyGivenNames x; clear_value x)
    | extract_lets +onlyGivenNames x
    | simp -zeta -beta -eta -iota -proj -decide only [Rel.upd]
    | dsimp -zeta only
    | with_reducible refine Rel.ite ?_ ?_
    | split

theorem State.safSend_still (s : State) (ty : ℕ) (c : ℕ) : Still s (State.safSend s ty c) := by
  unfold State.safSend
  repeat' first
    | with_reducible exact Rel.refl _
    | with_reducible assumption
    | with_reducible refine (State.island_still ..).into ?_
    | with_reducible refine (State.setPlain_still ..).into ?_
    | (extract_lets +onlyGivenNames x; with_reducible refine Rel.cut (x := ?y) ?_ ?_; (case y => apply x); subst x; rotate_left; clear_value x; intro _)
    | (extract_lets +onlyGivenNames x; clear_value x)
    | extract_lets +onlyGivenNames x
    | simp -zeta -beta -eta -iota -proj -decide only [Rel.upd]
    | dsimp -zeta only
    | with_reducible refine Rel.ite ?_ ?_

theorem State.safEventFrames_still (s : State) : Still s (State.safEventFrames s) := by
  unfold State.safEventFrames
  repeat' first
    | with_reducible exact Rel.refl _
    | with_reducible assumption
    | with_reducible refine Rel.each (fun t x => ?_) ?_
    | with_reducible refine (State.safSend_still ..).into ?_

theorem State.safReceive_still (s : State) (path : ℕ) (bs : List Byte) : Still s (State.safReceive s path bs).1 := by
  unfold State.safReceive
  repeat' first
    | with_reducible exact Rel.refl _
    | with_reducible assumption
    | with_reducible refine (State.island_still ..).into ?_
    | with_reducible refine (State.safEvent_still ..).into ?_
    | (extract_lets +onlyGivenNames x; with_reducible refine Rel.cut (x := ?y) ?_ ?_; (case y => apply x); subst x; rotate_left; clear_value x; intro _)
    | (extract_lets +onlyGivenNames x; clear_value x)
    | extract_lets +onlyGivenNames x
    | with_reducible apply_assumption -exfalso -symm
    | simp -zeta -beta -eta -iota -proj -decide only [Rel.upd]
    | dsimp -zeta only
    | with_reducible refine Rel.ite ?_ ?_
    | split

theorem State.safDerive_still (s : State) : Still s (State.safDerive s) := by
  unfold State.safDerive
  repeat' first
    | with_reducible exact Rel.refl _
    | with_reducible assumption
    | with_reducible refine (State.island_still ..).into ?_

theorem State.safEvalFn_still (s : State) (ps : List (ℕ × ℕ)) (f : ℕ) : Still s (State.safEvalFn s ps f) := by
  unfold State.safEvalFn
  repeat' first
    | with_reducible exact Rel.refl _
    | with_reducible assumption
    | with_reducible refine (State.island_still ..).into ?_
    | with_reducible refine (State.safEvent_still ..).into ?_
    | (extract_lets +onlyGivenNames x; with_reducible refine Rel.cut (x := ?y) ?_ ?_; (case y => apply x); subst x; rotate_left; clear_value x; intro _)
    | (extract_lets +onlyGivenNames x; clear_value x)
    | extract_lets +onlyGivenNames x
    | simp -zeta -beta -eta -iota -proj -decide only [Rel.upd]
    | dsimp -zeta only
    | with_reducible refine Rel.ite ?_ ?_

theorem State.safCommand_still (s : State) : Still s (State.safCommand s) := by
  unfold State.safCommand
  repeat' first
    | with_reducible exact Rel.refl _
    | with_reducible assumption
    | with_reducible refine (State.island_still ..).into ?_

theorem State.safReadback_still (s : State) (rb : ℕ) : Still s (State.safReadback s rb) := by
  unfold State.safReadback
  repeat' first
    | with_reducible exact Rel.refl _
    | with_reducible assumption
    | with_reducible refine (State.island_still ..).into ?_

theorem State.outputFault_still (s : State) (n : ℕ) (off : Bool) : Still s (State.outputFault s n off) := by
  unfold State.outputFault
  repeat' first
    | with_reducible exact Rel.refl _
    | with_reducible assumption
    | with_reducible refine (State.safEvent_still ..).into ?_
    | with_reducible refine (State.island_still ..).into ?_
    | with_reducible refine (State.safCommand_still ..).into ?_
    | (extract_lets +onlyGivenNames x; with_reducible refine Rel.cut (x := ?y) ?_ ?_; (case y => apply x); subst x; rotate_left; clear_value x; intro _)
    | extract_lets +onlyGivenNames x
    | simp -zeta -beta -eta -iota -proj -decide only [Rel.upd]
    | dsimp -zeta only
    | with_reducible refine Rel.ite ?_ ?_

theorem State.safDrop_still (s : State) (why : ℕ) : Still s (State.safDrop s why) := by
  unfold State.safDrop
  repeat' first
    | with_reducible exact Rel.refl _
    | with_reducible assumption
    | with_reducible refine (State.safEvent_still ..).into ?_
    | with_reducible refine (State.island_still ..).into ?_
    | simp -zeta -beta -eta -iota -proj -decide only [Rel.upd]
    | dsimp -zeta only
    | with_reducible refine Rel.ite ?_ ?_

theorem State.safOffer_still (s : State) (b : List Byte) : Still s (State.safOffer s b).1 := by
  unfold State.safOffer
  repeat' first
    | with_reducible exact Rel.refl _
    | with_reducible assumption
    | with_reducible refine (State.useFree_still ..).into ?_
    | with_reducible refine (State.safEvent_still ..).into ?_
    | with_reducible refine (State.island_still ..).into ?_
    | simp -zeta -beta -eta -iota -proj -decide only [Rel.upd]
    | dsimp -zeta only
    | with_reducible refine Rel.ite ?_ ?_
    | split

theorem State.safConfirm_still (s : State) (crc : ℕ) : Still s (State.safConfirm s crc).1 := by
  unfold State.safConfirm
  repeat' first
    | with_reducible exact Rel.refl _
    | with_reducible assumption
    | with_reducible refine (State.safGo_still ..).into ?_
    | with_reducible refine (State.island_still ..).into ?_
    | with_reducible refine (State.safEvent_still ..).into ?_
    | (extract_lets +onlyGivenNames x; with_reducible refine Rel.cut (x := ?y) ?_ ?_; (case y => apply x); subst x; rotate_left; clear_value x; intro _)
    | (extract_lets +onlyGivenNames x; clear_value x)
    | extract_lets +onlyGivenNames x
    | simp -zeta -beta -eta -iota -proj -decide only [Rel.upd]
    | dsimp -zeta only
    | with_reducible refine Rel.ite ?_ ?_
    | split

theorem State.safMessage_still (s : State) (x0 : MboxMsg) : Still s (State.safMessage s x0).1 := by
  unfold State.safMessage
  repeat' first
    | with_reducible exact Rel.refl _
    | with_reducible assumption
    | with_reducible refine (State.safReceive_still ..).into ?_
    | with_reducible refine Rel.ofPair (by assumption) (State.safReceive_still ..) ?_
    | with_reducible refine (State.safOffer_still ..).into ?_
    | with_reducible refine Rel.ofPair (by assumption) (State.safOffer_still ..) ?_
    | with_reducible refine (State.island_still ..).into ?_
    | with_reducible refine (State.safConfirm_still ..).into ?_
    | with_reducible refine Rel.ofPair (by assumption) (State.safConfirm_still ..) ?_
    | with_reducible refine (State.safDrop_still ..).into ?_
    | (extract_lets +onlyGivenNames x)
    | extract_lets +onlyGivenNames x
    | simp -zeta -beta -eta -iota -proj -decide only [Rel.upd]
    | dsimp -zeta only
    | with_reducible refine Rel.ite ?_ ?_
    | split

theorem State.safTake_still (s : State) : Still s (State.safTake s) := by
  unfold State.safTake
  repeat' first
    | with_reducible exact Rel.refl _
    | with_reducible assumption
    | with_reducible refine (State.island_still ..).into ?_
    | with_reducible refine (State.safMessage_still ..).into ?_
    | with_reducible refine Rel.ofPair (by assumption) (State.safMessage_still ..) ?_
    | with_reducible refine Rel.each (fun t x => ?_) ?_
    | with_reducible refine (State.useFree_still ..).into ?_
    | with_reducible refine (State.winW_still ..).into ?_
    | with_reducible refine (State.shpIsland_still ..).into ?_
    | with_reducible refine (State.incFld_still ..).into ?_
    | with_reducible refine (State.setTimeout_still ..).into ?_
    | (extract_lets +onlyGivenNames x; with_reducible refine Rel.cut (x := ?y) ?_ ?_; (case y => apply x); subst x; rotate_left; clear_value x; intro _)
    | (extract_lets +onlyGivenNames x; with_reducible refine Rel.cut (x := ?y) ?_ ?_; (case y => apply x.1); subst x; rotate_left; clear_value x; intro _)
    | (extract_lets +onlyGivenNames x; clear_value x)
    | extract_lets +onlyGivenNames x
    | simp -zeta -beta -eta -iota -proj -decide only [Rel.upd]
    | dsimp -zeta only
    | with_reducible refine Rel.ite ?_ ?_
    | split

theorem State.mbox_still (s : State) (m : MboxMsg) : Still s (State.mbox s m).1 := by
  unfold State.mbox
  repeat' first
    | with_reducible exact Rel.refl _
    | with_reducible assumption
    | with_reducible refine (State.incFld_still ..).into ?_
    | with_reducible refine (State.setTimeout_still ..).into ?_
    | with_reducible refine (State.island_still ..).into ?_
    | (extract_lets +onlyGivenNames x; with_reducible refine Rel.cut (x := ?y) ?_ ?_; (case y => apply x); subst x; rotate_left; clear_value x; intro _)
    | (extract_lets +onlyGivenNames x; clear_value x)
    | extract_lets +onlyGivenNames x
    | simp -zeta -beta -eta -iota -proj -decide only [Rel.upd]
    | dsimp -zeta only
    | with_reducible refine Rel.ite ?_ ?_
    | split

theorem execIslandPor_good (s : State) : Good s (execIslandPor s) := by
  unfold execIslandPor
  repeat' first
    | with_reducible exact Rel.refl _
    | with_reducible assumption
    | exact Good.fault _ _
    | with_reducible refine Good.next ?_
    | with_reducible refine Good.done ?_
    | with_reducible refine (State.island_still ..).into ?_
    | (extract_lets +onlyGivenNames x)
    | extract_lets +onlyGivenNames x
    | simp -zeta -beta -eta -iota -proj -decide only [Rel.upd]

theorem execIslandPorRelease_good (s : State) : Good s (execIslandPorRelease s) := by
  unfold execIslandPorRelease
  repeat' first
    | with_reducible exact Rel.refl _
    | with_reducible assumption
    | exact Good.fault _ _
    | with_reducible refine Good.next ?_
    | with_reducible refine Good.done ?_
    | with_reducible refine (State.island_still ..).into ?_
    | (extract_lets +onlyGivenNames x)
    | extract_lets +onlyGivenNames x
    | simp -zeta -beta -eta -iota -proj -decide only [Rel.upd]
    | dsimp -zeta only
    | with_reducible refine Rel.ite ?_ ?_
    | with_reducible refine Good.ite ?_ ?_

theorem execSelfTestDone_good (s : State) : Good s (execSelfTestDone s) := by
  unfold execSelfTestDone
  repeat' first
    | with_reducible exact Rel.refl _
    | with_reducible assumption
    | exact Good.fault _ _
    | with_reducible refine Good.next ?_
    | with_reducible refine Good.done ?_
    | with_reducible refine (State.safGo_still ..).into ?_
    | with_reducible refine (State.island_still ..).into ?_
    | (extract_lets +onlyGivenNames x)
    | extract_lets +onlyGivenNames x
    | simp -zeta -beta -eta -iota -proj -decide only [Rel.upd]
    | dsimp -zeta only
    | with_reducible refine Rel.ite ?_ ?_
    | with_reducible refine Good.ite ?_ ?_

theorem execIslandScan_good (inputs : ℕ) (emo : ℕ) (readback : ℕ) (clockOk : Bool) (s : State) : Good s (execIslandScan inputs emo readback clockOk s) := by
  unfold execIslandScan
  repeat' first
    | with_reducible exact Rel.refl _
    | with_reducible assumption
    | exact Good.fault _ _
    | with_reducible refine Good.next ?_
    | with_reducible refine Good.done ?_
    | with_reducible refine (State.island_still ..).into ?_
    | with_reducible refine (State.safPublish_still ..).into ?_
    | with_reducible refine (State.safFault_still ..).into ?_
    | with_reducible refine (State.safOverdue_still ..).into ?_
    | with_reducible refine Rel.each (fun t x => ?_) ?_
    | with_reducible refine (State.safReadback_still ..).into ?_
    | with_reducible refine (State.safTake_still ..).into ?_
    | with_reducible refine (State.safEmo_still ..).into ?_
    | with_reducible refine (State.safReset_still ..).into ?_
    | with_reducible refine (State.safGo_still ..).into ?_
    | with_reducible refine (State.safDerive_still ..).into ?_
    | with_reducible refine (State.safEvalFn_still ..).into ?_
    | with_reducible refine (State.safCommand_still ..).into ?_
    | with_reducible refine (State.safEventFrames_still ..).into ?_
    | (extract_lets +onlyGivenNames x; with_reducible refine Good.cut (x := ?y) ?_ ?_; (case y => apply x); subst x; rotate_left; clear_value x; intro _)
    | (extract_lets +onlyGivenNames x; clear_value x)
    | extract_lets +onlyGivenNames x
    | simp -zeta -beta -eta -iota -proj -decide only [Rel.upd]
    | dsimp -zeta only
    | with_reducible refine Rel.ite ?_ ?_
    | with_reducible refine Good.ite ?_ ?_

theorem execInputTestPulse_good (source : ℕ) (offset : ℕ) (s : State) : Good s (execInputTestPulse source offset s) := by
  unfold execInputTestPulse
  repeat' first
    | with_reducible exact Rel.refl _
    | with_reducible assumption
    | exact Good.fault _ _
    | with_reducible refine Good.next ?_
    | with_reducible refine Good.done ?_
    | with_reducible refine (State.island_still ..).into ?_
    | (extract_lets +onlyGivenNames x)
    | extract_lets +onlyGivenNames x
    | simp -zeta -beta -eta -iota -proj -decide only [Rel.upd]
    | dsimp -zeta only
    | with_reducible refine Rel.ite ?_ ?_
    | with_reducible refine Good.ite ?_ ?_

theorem execInputTestSample_good (source : ℕ) (inputs : ℕ) (emo : ℕ) (s : State) : Good s (execInputTestSample source inputs emo s) := by
  unfold execInputTestSample
  repeat' first
    | with_reducible exact Rel.refl _
    | with_reducible assumption
    | exact Good.fault _ _
    | with_reducible refine Good.next ?_
    | with_reducible refine Good.done ?_
    | with_reducible refine Rel.each (fun t x => ?_) ?_
    | with_reducible refine (State.island_still ..).into ?_
    | with_reducible refine (State.inputFault_still ..).into ?_
    | (extract_lets +onlyGivenNames x; with_reducible refine Rel.cut (x := ?y) ?_ ?_; (case y => apply x); subst x; rotate_left; clear_value x; intro _)
    | (extract_lets +onlyGivenNames x; clear_value x)
    | extract_lets +onlyGivenNames x
    | simp -zeta -beta -eta -iota -proj -decide only [Rel.upd]
    | dsimp -zeta only
    | with_reducible refine Rel.ite ?_ ?_
    | with_reducible refine Good.ite ?_ ?_

theorem execOutputTestPulse_good (output : ℕ) (offset : ℕ) (s : State) : Good s (execOutputTestPulse output offset s) := by
  unfold execOutputTestPulse
  repeat' first
    | with_reducible exact Rel.refl _
    | with_reducible assumption
    | exact Good.fault _ _
    | with_reducible refine Good.next ?_
    | with_reducible refine Good.done ?_
    | with_reducible refine (State.island_still ..).into ?_
    | (extract_lets +onlyGivenNames x)
    | extract_lets +onlyGivenNames x
    | simp -zeta -beta -eta -iota -proj -decide only [Rel.upd]
    | dsimp -zeta only
    | with_reducible refine Rel.ite ?_ ?_
    | with_reducible refine Good.ite ?_ ?_

theorem execOutputPulseCheck_good (output : ℕ) (energised : Bool) (s : State) : Good s (execOutputPulseCheck output energised s) := by
  unfold execOutputPulseCheck
  repeat' first
    | with_reducible exact Rel.refl _
    | with_reducible assumption
    | exact Good.fault _ _
    | with_reducible refine Good.next ?_
    | with_reducible refine Good.done ?_
    | with_reducible refine (State.outputFault_still ..).into ?_
    | simp -zeta -beta -eta -iota -proj -decide only [Rel.upd]
    | dsimp -zeta only
    | with_reducible refine Rel.ite ?_ ?_
    | with_reducible refine Good.ite ?_ ?_

theorem execOutputFault_good (output : ℕ) (energised : Bool) (offset : ℕ) (s : State) : Good s (execOutputFault output energised offset s) := by
  unfold execOutputFault
  repeat' first
    | with_reducible exact Rel.refl _
    | with_reducible assumption
    | exact Good.fault _ _
    | with_reducible refine Good.next ?_
    | with_reducible refine Good.done ?_
    | with_reducible refine (State.outputFault_still ..).into ?_
    | (extract_lets +onlyGivenNames x)
    | extract_lets +onlyGivenNames x
    | simp -zeta -beta -eta -iota -proj -decide only [Rel.upd]
    | dsimp -zeta only
    | with_reducible refine Rel.ite ?_ ?_
    | with_reducible refine Good.ite ?_ ?_

theorem execKeepaliveExpiry_good (output : ℕ) (s : State) : Good s (execKeepaliveExpiry output s) := by
  unfold execKeepaliveExpiry
  repeat' first
    | with_reducible exact Rel.refl _
    | with_reducible assumption
    | exact Good.fault _ _
    | with_reducible refine Good.next ?_
    | with_reducible refine Good.done ?_
    | with_reducible refine (State.island_still ..).into ?_
    | (extract_lets +onlyGivenNames x)
    | extract_lets +onlyGivenNames x
    | simp -zeta -beta -eta -iota -proj -decide only [Rel.upd]
    | dsimp -zeta only
    | with_reducible refine Rel.ite ?_ ?_
    | with_reducible refine Good.ite ?_ ?_

theorem execLockstepFault_good (s : State) : Good s (execLockstepFault s) := by
  unfold execLockstepFault
  repeat' first
    | with_reducible exact Rel.refl _
    | with_reducible assumption
    | exact Good.fault _ _
    | with_reducible refine Good.next ?_
    | with_reducible refine Good.done ?_
    | with_reducible refine (State.safFault_still ..).into ?_
    | simp -zeta -beta -eta -iota -proj -decide only [Rel.upd]
    | dsimp -zeta only
    | with_reducible refine Rel.ite ?_ ?_
    | with_reducible refine Good.ite ?_ ?_

theorem execMemoryFault_good (s : State) : Good s (execMemoryFault s) := by
  unfold execMemoryFault
  repeat' first
    | with_reducible exact Rel.refl _
    | with_reducible assumption
    | exact Good.fault _ _
    | with_reducible refine Good.next ?_
    | with_reducible refine Good.done ?_
    | with_reducible refine (State.safFault_still ..).into ?_
    | simp -zeta -beta -eta -iota -proj -decide only [Rel.upd]
    | dsimp -zeta only
    | with_reducible refine Rel.ite ?_ ?_
    | with_reducible refine Good.ite ?_ ?_

theorem execConfigCrcCheck_good (crc : ℕ) (s : State) : Good s (execConfigCrcCheck crc s) := by
  unfold execConfigCrcCheck
  repeat' first
    | with_reducible exact Rel.refl _
    | with_reducible assumption
    | exact Good.fault _ _
    | with_reducible refine Good.next ?_
    | with_reducible refine Good.done ?_
    | with_reducible refine (State.safFault_still ..).into ?_
    | simp -zeta -beta -eta -iota -proj -decide only [Rel.upd]
    | dsimp -zeta only
    | with_reducible refine Rel.ite ?_ ?_
    | with_reducible refine Good.ite ?_ ?_

theorem execSafeSupplyFault_good (temp : Bool) (s : State) : Good s (execSafeSupplyFault temp s) := by
  unfold execSafeSupplyFault
  repeat' first
    | with_reducible exact Rel.refl _
    | with_reducible assumption
    | exact Good.fault _ _
    | with_reducible refine Good.next ?_
    | with_reducible refine Good.done ?_
    | with_reducible refine (State.safFault_still ..).into ?_
    | simp -zeta -beta -eta -iota -proj -decide only [Rel.upd]
    | dsimp -zeta only
    | with_reducible refine Rel.ite ?_ ?_
    | with_reducible refine Good.ite ?_ ?_

theorem execEmoDiscrepancy_good (s : State) : Good s (execEmoDiscrepancy s) := by
  unfold execEmoDiscrepancy
  repeat' first
    | with_reducible exact Rel.refl _
    | with_reducible assumption
    | exact Good.fault _ _
    | with_reducible refine Good.next ?_
    | with_reducible refine Good.done ?_
    | with_reducible refine (State.safEvent_still ..).into ?_
    | with_reducible refine (State.island_still ..).into ?_
    | (extract_lets +onlyGivenNames x)
    | extract_lets +onlyGivenNames x
    | simp -zeta -beta -eta -iota -proj -decide only [Rel.upd]
    | dsimp -zeta only
    | with_reducible refine Rel.ite ?_ ?_
    | with_reducible refine Good.ite ?_ ?_
    | split

theorem execDiscrepancy_good (function : ℕ) (s : State) : Good s (execDiscrepancy function s) := by
  unfold execDiscrepancy
  repeat' first
    | with_reducible exact Rel.refl _
    | with_reducible assumption
    | exact Good.fault _ _
    | with_reducible refine Good.next ?_
    | with_reducible refine Good.done ?_
    | with_reducible refine (State.island_still ..).into ?_
    | with_reducible refine (State.safCommand_still ..).into ?_
    | with_reducible refine (State.safEvent_still ..).into ?_
    | (extract_lets +onlyGivenNames x; with_reducible refine Good.cut (x := ?y) ?_ ?_; (case y => apply x); subst x; rotate_left; clear_value x; intro _)
    | (extract_lets +onlyGivenNames x; clear_value x)
    | extract_lets +onlyGivenNames x
    | simp -zeta -beta -eta -iota -proj -decide only [Rel.upd]
    | dsimp -zeta only
    | with_reducible refine Rel.ite ?_ ?_
    | with_reducible refine Good.ite ?_ ?_
    | split

theorem execFunctionDelayExpiry_good (function : ℕ) (s : State) : Good s (execFunctionDelayExpiry function s) := by
  unfold execFunctionDelayExpiry
  repeat' first
    | with_reducible exact Rel.refl _
    | with_reducible assumption
    | exact Good.fault _ _
    | with_reducible refine Good.next ?_
    | with_reducible refine Good.done ?_
    | with_reducible refine (State.safCommand_still ..).into ?_
    | with_reducible refine (State.island_still ..).into ?_
    | (extract_lets +onlyGivenNames x)
    | extract_lets +onlyGivenNames x
    | simp -zeta -beta -eta -iota -proj -decide only [Rel.upd]
    | dsimp -zeta only
    | with_reducible refine Rel.ite ?_ ?_
    | with_reducible refine Good.ite ?_ ?_
    | split

theorem execSafeFrameSend_good (s : State) : Good s (execSafeFrameSend s) := by
  unfold execSafeFrameSend
  repeat' first
    | with_reducible exact Rel.refl _
    | with_reducible assumption
    | exact Good.fault _ _
    | with_reducible refine Good.next ?_
    | with_reducible refine Good.done ?_
    | with_reducible refine Rel.each (fun t x => ?_) ?_
    | with_reducible refine (State.safSend_still ..).into ?_
    | simp -zeta -beta -eta -iota -proj -decide only [Rel.upd]
    | dsimp -zeta only
    | with_reducible refine Rel.ite ?_ ?_
    | with_reducible refine Good.ite ?_ ?_

theorem execMailboxMessage_good (sender : ℕ) (msg : MboxMsg) (s : State) : Good s (execMailboxMessage sender msg s) := by
  unfold execMailboxMessage
  repeat' first
    | with_reducible exact Rel.refl _
    | with_reducible assumption
    | exact Good.fault _ _
    | with_reducible refine Good.next ?_
    | with_reducible refine Good.done ?_
    | with_reducible refine (State.mbox_still ..).into ?_
    | with_reducible refine Rel.ofPair (by assumption) (State.mbox_still ..) ?_
    | simp -zeta -beta -eta -iota -proj -decide only [Rel.upd]
    | dsimp -zeta only
    | with_reducible refine Rel.ite ?_ ?_
    | with_reducible refine Good.ite ?_ ?_

theorem execPathSilent_good (connection : ℕ) (path : ℕ) (s : State) : Good s (execPathSilent connection path s) := by
  unfold execPathSilent
  repeat' first
    | with_reducible exact Rel.refl _
    | with_reducible assumption
    | exact Good.fault _ _
    | with_reducible refine Good.next ?_
    | with_reducible refine Good.done ?_
    | with_reducible refine (State.safEvent_still ..).into ?_
    | with_reducible refine (State.island_still ..).into ?_
    | (extract_lets +onlyGivenNames x)
    | extract_lets +onlyGivenNames x
    | simp -zeta -beta -eta -iota -proj -decide only [Rel.upd]
    | dsimp -zeta only
    | with_reducible refine Rel.ite ?_ ?_
    | with_reducible refine Good.ite ?_ ?_
    | split

theorem execFrameMismatch_good (connection : ℕ) (s : State) : Good s (execFrameMismatch connection s) := by
  unfold execFrameMismatch
  repeat' first
    | with_reducible exact Rel.refl _
    | with_reducible assumption
    | exact Good.fault _ _
    | with_reducible refine Good.next ?_
    | with_reducible refine Good.done ?_
    | with_reducible refine (State.safEvent_still ..).into ?_
    | with_reducible refine (State.island_still ..).into ?_
    | (extract_lets +onlyGivenNames x)
    | extract_lets +onlyGivenNames x
    | simp -zeta -beta -eta -iota -proj -decide only [Rel.upd]
    | dsimp -zeta only
    | with_reducible refine Rel.ite ?_ ?_
    | with_reducible refine Good.ite ?_ ?_

theorem execConfigDropped_good (s : State) : Good s (execConfigDropped s) := by
  unfold execConfigDropped
  repeat' first
    | with_reducible exact Rel.refl _
    | with_reducible assumption
    | exact Good.fault _ _
    | with_reducible refine Good.next ?_
    | with_reducible refine Good.done ?_
    | with_reducible refine (State.safDrop_still ..).into ?_
    | simp -zeta -beta -eta -iota -proj -decide only [Rel.upd]
    | dsimp -zeta only
    | with_reducible refine Rel.ite ?_ ?_
    | with_reducible refine Good.ite ?_ ?_

theorem execIslandPfail_good (s : State) : Good s (execIslandPfail s) := by
  unfold execIslandPfail
  repeat' first
    | with_reducible exact Rel.refl _
    | with_reducible assumption
    | exact Good.fault _ _
    | with_reducible refine Good.next ?_
    | with_reducible refine Good.done ?_
    | with_reducible refine (State.safEvent_still ..).into ?_
    | with_reducible refine (State.island_still ..).into ?_
    | simp -zeta -beta -eta -iota -proj -decide only [Rel.upd]
    | dsimp -zeta only
    | with_reducible refine Rel.ite ?_ ?_
    | with_reducible refine Good.ite ?_ ?_

theorem execIslandPfailReturn_good (s : State) : Good s (execIslandPfailReturn s) := by
  unfold execIslandPfailReturn
  repeat' first
    | with_reducible exact Rel.refl _
    | with_reducible assumption
    | exact Good.fault _ _
    | with_reducible refine Good.next ?_
    | with_reducible refine Good.done ?_
    | with_reducible refine (State.safEvent_still ..).into ?_
    | with_reducible refine (State.island_still ..).into ?_
    | simp -zeta -beta -eta -iota -proj -decide only [Rel.upd]
    | dsimp -zeta only
    | with_reducible refine Rel.ite ?_ ?_
    | with_reducible refine Good.ite ?_ ?_

theorem execMailboxTimeout_good (unit : ℕ) (s : State) : Good s (execMailboxTimeout unit s) := by
  unfold execMailboxTimeout
  repeat' first
    | with_reducible exact Rel.refl _
    | with_reducible assumption
    | exact Good.fault _ _
    | with_reducible refine Good.next ?_
    | with_reducible refine Good.done ?_
    | with_reducible refine (State.setTimeout_still ..).into ?_
    | simp -zeta -beta -eta -iota -proj -decide only [Rel.upd]
    | dsimp -zeta only
    | with_reducible refine Rel.ite ?_ ?_
    | with_reducible refine Good.ite ?_ ?_

end Sys2Proof.Machine
end

