-- ==== Sys2Proof/Laws/KeepCascade.lean ====
section
/-!
SUPPORT. Laws/KeepCascade.lean: what the operations of Machine/Cascade.lean keep.
-/

namespace Sys2Proof.Machine

theorem State.modCas_still (s : State) (f : CasState → CasState) : Still s (State.modCas s f) := by
  unfold State.modCas
  repeat' first
    | with_reducible exact Rel.refl _
    | with_reducible assumption
    | simp -zeta -beta -eta -iota -proj -decide only [Rel.upd]

theorem State.modPair_still (s : State) (f : PairState → PairState) : Still s (State.modPair s f) := by
  unfold State.modPair
  repeat' first
    | with_reducible exact Rel.refl _
    | with_reducible assumption
    | simp -zeta -beta -eta -iota -proj -decide only [Rel.upd]

theorem State.setCasPort_still (s : State) (p : ℕ) (v : CasPort) : Still s (State.setCasPort s p v) := by
  unfold State.setCasPort
  repeat' first
    | with_reducible exact Rel.refl _
    | with_reducible assumption
    | with_reducible refine (State.modCas_still ..).into ?_

theorem State.casReach_still (s : State) : Still s (State.casReach s) := by
  unfold State.casReach
  repeat' first
    | with_reducible exact Rel.refl _
    | with_reducible assumption
    | with_reducible refine (State.setFld_still ..).into ?_

theorem State.casQueue_still (s : State) (p : ℕ) (f : CasFrame) : Still s (State.casQueue s p f) := by
  unfold State.casQueue
  repeat' first
    | with_reducible exact Rel.refl _
    | with_reducible assumption
    | with_reducible refine (State.setCasPort_still ..).into ?_

theorem State.casSend_still (s : State) (d : ℕ) (ty : ℕ) (cls : ℕ) (len : ℕ) (words : List ℕ) : Still s (State.casSend s d ty cls len words) := by
  unfold State.casSend
  repeat' first
    | with_reducible exact Rel.refl _
    | with_reducible assumption
    | with_reducible refine (State.casQueue_still ..).into ?_
    | simp -zeta -beta -eta -iota -proj -decide only [Rel.upd]
    | dsimp -zeta only
    | with_reducible refine Rel.ite ?_ ?_
    | split

theorem State.casSendOpen_still (s : State) (d : ℕ) (ty : ℕ) (cls : ℕ) (words : List ℕ) : Still s (State.casSendOpen s d ty cls words) := by
  unfold State.casSendOpen
  repeat' first
    | with_reducible exact Rel.refl _
    | with_reducible assumption
    | with_reducible refine (State.useFree_still ..).into ?_
    | with_reducible refine (State.casSend_still ..).into ?_

theorem State.pairSend_still (s : State) (ty : ℕ) (cls : ℕ) (words : List ℕ) : Still s (State.pairSend s ty cls words) := by
  unfold State.pairSend
  repeat' first
    | with_reducible exact Rel.refl _
    | with_reducible assumption
    | with_reducible refine (State.useFree_still ..).into ?_
    | with_reducible refine (State.casQueue_still ..).into ?_
    | (extract_lets +onlyGivenNames x)
    | extract_lets +onlyGivenNames x
    | simp -zeta -beta -eta -iota -proj -decide only [Rel.upd]
    | dsimp -zeta only
    | with_reducible refine Rel.ite ?_ ?_

theorem State.casCollect_still (s : State) : Still s (State.casCollect s) := by
  unfold State.casCollect
  repeat' first
    | with_reducible exact Rel.refl _
    | with_reducible assumption
    | with_reducible refine Rel.each (fun t x => ?_) ?_
    | with_reducible refine (State.modCtx_still ..).into ?_
    | with_reducible refine (State.casSend_still ..).into ?_
    | (extract_lets +onlyGivenNames x; with_reducible refine Rel.cut (x := ?y) ?_ ?_; (case y => apply x); subst x; rotate_left; clear_value x; intro _)
    | (extract_lets +onlyGivenNames x; clear_value x)
    | extract_lets +onlyGivenNames x
    | simp -zeta -beta -eta -iota -proj -decide only [Rel.upd]
    | dsimp -zeta only
    | with_reducible refine Rel.ite ?_ ?_
    | split

theorem State.casTransmit_still (s : State) (p : ℕ) (f : CasFrame) : Still s (State.casTransmit s p f) := by
  unfold State.casTransmit
  repeat' first
    | with_reducible exact Rel.refl _
    | with_reducible assumption
    | with_reducible refine (State.setCasPort_still ..).into ?_

theorem execLinkSignalDetect_good (port : ℕ) (s : State) : Good s (execLinkSignalDetect port s) := by
  unfold execLinkSignalDetect
  repeat' first
    | with_reducible exact Rel.refl _
    | with_reducible assumption
    | exact Good.fault _ _
    | with_reducible refine Good.next ?_
    | with_reducible refine Good.done ?_
    | with_reducible refine (State.setFld_still ..).into ?_
    | simp -zeta -beta -eta -iota -proj -decide only [Rel.upd]
    | dsimp -zeta only
    | with_reducible refine Rel.ite ?_ ?_
    | with_reducible refine Good.ite ?_ ?_

theorem execBlockLock_good (port : ℕ) (s : State) : Good s (execBlockLock port s) := by
  unfold execBlockLock
  repeat' first
    | with_reducible exact Rel.refl _
    | with_reducible assumption
    | exact Good.fault _ _
    | with_reducible refine Good.next ?_
    | with_reducible refine Good.done ?_
    | with_reducible refine (State.setFld_still ..).into ?_
    | simp -zeta -beta -eta -iota -proj -decide only [Rel.upd]
    | dsimp -zeta only
    | with_reducible refine Rel.ite ?_ ?_
    | with_reducible refine Good.ite ?_ ?_

theorem execHelloSend_good (port : ℕ) (s : State) : Good s (execHelloSend port s) := by
  unfold execHelloSend
  repeat' first
    | with_reducible exact Rel.refl _
    | with_reducible assumption
    | exact Good.fault _ _
    | with_reducible refine Good.next ?_
    | with_reducible refine Good.done ?_
    | with_reducible refine (State.useFree_still ..).into ?_
    | with_reducible refine (State.setCasPort_still ..).into ?_
    | (extract_lets +onlyGivenNames x)
    | extract_lets +onlyGivenNames x
    | simp -zeta -beta -eta -iota -proj -decide only [Rel.upd]
    | dsimp -zeta only
    | with_reducible refine Rel.ite ?_ ?_
    | with_reducible refine Good.ite ?_ ?_

theorem State.pairStepDown_still (s : State) : Still s (State.pairStepDown s) := by
  unfold State.pairStepDown
  repeat' first
    | with_reducible exact Rel.refl _
    | with_reducible assumption
    | with_reducible refine (State.setFld_still ..).into ?_
    | with_reducible refine Rel.each (fun t x => ?_) ?_
    | with_reducible refine (State.setHeld_still ..).into ?_
    | with_reducible refine (State.setDriven_still ..).into ?_
    | with_reducible refine (State.modPair_still ..).into ?_
    | with_reducible refine (State.setLine_still ..).into ?_
    | with_reducible refine (State.post_still ..).into ?_
    | with_reducible refine (State.driveAll_still ..).into ?_
    | (extract_lets +onlyGivenNames x)
    | extract_lets +onlyGivenNames x
    | simp -zeta -beta -eta -iota -proj -decide only [Rel.upd]
    | dsimp -zeta only
    | with_reducible refine Rel.ite ?_ ?_

theorem State.pairMeet_still (s : State) (peer : PairPeer) : Still s (State.pairMeet s peer) := by
  unfold State.pairMeet
  repeat' first
    | with_reducible exact Rel.refl _
    | with_reducible assumption
    | with_reducible refine (State.setFld_still ..).into ?_
    | with_reducible refine (State.modPair_still ..).into ?_
    | with_reducible refine (State.pairStepDown_still ..).into ?_
    | (extract_lets +onlyGivenNames x; with_reducible refine Rel.cut (x := ?y) ?_ ?_; (case y => apply x); subst x; rotate_left; clear_value x; intro _)
    | extract_lets +onlyGivenNames x
    | simp -zeta -beta -eta -iota -proj -decide only [Rel.upd]
    | dsimp -zeta only
    | with_reducible refine Rel.ite ?_ ?_

theorem execLinkHello_good (port : ℕ) (vmin : ℕ) (vmax : ℕ) (pos : ℕ) (node : ℕ) (uid : ℕ) (role : ℕ) (strap : Bool) (image : List Byte) (since : ℕ) (s : State) : Good s (execLinkHello port vmin vmax pos node uid role strap image since s) := by
  unfold execLinkHello
  repeat' first
    | with_reducible exact Rel.refl _
    | with_reducible assumption
    | exact Good.fault _ _
    | with_reducible refine Good.next ?_
    | with_reducible refine Good.done ?_
    | with_reducible refine (State.setFld_still ..).into ?_
    | with_reducible refine (State.setCasPort_still ..).into ?_
    | with_reducible refine (State.casReach_still ..).into ?_
    | with_reducible refine (State.pairMeet_still ..).into ?_
    | (extract_lets +onlyGivenNames x; with_reducible refine Good.cut (x := ?y) ?_ ?_; (case y => apply x); subst x; rotate_left; clear_value x; intro _)
    | (extract_lets +onlyGivenNames x; clear_value x)
    | extract_lets +onlyGivenNames x
    | simp -zeta -beta -eta -iota -proj -decide only [Rel.upd]
    | dsimp -zeta only
    | with_reducible refine Rel.ite ?_ ?_
    | with_reducible refine Good.ite ?_ ?_

theorem State.linkLoss_still (s : State) (port : ℕ) : Still s (State.linkLoss s port) := by
  unfold State.linkLoss
  repeat' first
    | with_reducible exact Rel.refl _
    | with_reducible assumption
    | with_reducible refine (State.incFld_still ..).into ?_
    | with_reducible refine (State.setFld_still ..).into ?_
    | with_reducible refine (State.casReach_still ..).into ?_
    | (extract_lets +onlyGivenNames x; with_reducible refine Rel.cut (x := ?y) ?_ ?_; (case y => apply x); subst x; rotate_left; clear_value x; intro _)
    | (extract_lets +onlyGivenNames x; clear_value x)
    | extract_lets +onlyGivenNames x
    | simp -zeta -beta -eta -iota -proj -decide only [Rel.upd]
    | dsimp -zeta only
    | with_reducible refine Rel.ite ?_ ?_

theorem execBlockLockLoss_good (port : ℕ) (s : State) : Good s (execBlockLockLoss port s) := by
  unfold execBlockLockLoss
  repeat' first
    | with_reducible exact Rel.refl _
    | with_reducible assumption
    | exact Good.fault _ _
    | with_reducible refine Good.next ?_
    | with_reducible refine Good.done ?_
    | with_reducible refine (State.linkLoss_still ..).into ?_

theorem execCreditFrame_good (port : ℕ) (cls : ℕ) (terrace : ℕ) (lines : ℕ) (s : State) : Good s (execCreditFrame port cls terrace lines s) := by
  unfold execCreditFrame
  repeat' first
    | with_reducible exact Rel.refl _
    | with_reducible assumption
    | exact Good.fault _ _
    | with_reducible refine Good.next ?_
    | with_reducible refine Good.done ?_
    | with_reducible refine (State.setCasPort_still ..).into ?_
    | (extract_lets +onlyGivenNames x)
    | extract_lets +onlyGivenNames x
    | simp -zeta -beta -eta -iota -proj -decide only [Rel.upd]
    | dsimp -zeta only
    | with_reducible refine Rel.ite ?_ ?_
    | with_reducible refine Good.ite ?_ ?_

theorem execLinkTransmit_good (port : ℕ) (s : State) : Good s (execLinkTransmit port s) := by
  unfold execLinkTransmit
  repeat' first
    | with_reducible exact Rel.refl _
    | with_reducible assumption
    | exact Good.fault _ _
    | with_reducible refine Good.next ?_
    | with_reducible refine Good.done ?_
    | with_reducible refine (State.casCollect_still ..).into ?_
    | with_reducible refine (State.casTransmit_still ..).into ?_
    | (extract_lets +onlyGivenNames x; with_reducible refine Good.cut (x := ?y) ?_ ?_; (case y => apply x); subst x; rotate_left; clear_value x; intro _)
    | extract_lets +onlyGivenNames x
    | simp -zeta -beta -eta -iota -proj -decide only [Rel.upd]
    | dsimp -zeta only
    | with_reducible refine Rel.ite ?_ ?_
    | with_reducible refine Good.ite ?_ ?_
    | split

theorem execCasFrameTransit_good (port : ℕ) (frame : CasFrame) (s : State) : Good s (execCasFrameTransit port frame s) := by
  unfold execCasFrameTransit
  repeat' first
    | with_reducible exact Rel.refl _
    | with_reducible assumption
    | exact Good.fault _ _
    | with_reducible refine Good.next ?_
    | with_reducible refine Good.done ?_
    | with_reducible refine (State.incFld_still ..).into ?_
    | with_reducible refine (State.casQueue_still ..).into ?_
    | simp -zeta -beta -eta -iota -proj -decide only [Rel.upd]
    | dsimp -zeta only
    | with_reducible refine Rel.ite ?_ ?_
    | with_reducible refine Good.ite ?_ ?_
    | split

theorem execCasFrameBad_good (port : ℕ) (s : State) : Good s (execCasFrameBad port s) := by
  unfold execCasFrameBad
  repeat' first
    | with_reducible exact Rel.refl _
    | with_reducible assumption
    | exact Good.fault _ _
    | with_reducible refine Good.next ?_
    | with_reducible refine Good.done ?_
    | with_reducible refine (State.incFld_still ..).into ?_
    | simp -zeta -beta -eta -iota -proj -decide only [Rel.upd]
    | dsimp -zeta only
    | with_reducible refine Rel.ite ?_ ?_
    | with_reducible refine Good.ite ?_ ?_

theorem execCasClrCounts_good (s : State) : Good s (execCasClrCounts s) := by
  unfold execCasClrCounts
  repeat' first
    | with_reducible exact Rel.refl _
    | with_reducible assumption
    | exact Good.fault _ _
    | with_reducible refine Good.next ?_
    | with_reducible refine Good.done ?_
    | with_reducible refine Rel.each (fun t x => ?_) ?_
    | with_reducible refine (State.setFld_still ..).into ?_
    | with_reducible refine (State.clrRegs_still ..).into ?_

theorem State.casBeacons_still (s : State) : Still s (State.casBeacons s) := by
  unfold State.casBeacons
  repeat' first
    | with_reducible exact Rel.refl _
    | with_reducible assumption
    | with_reducible refine Rel.each (fun t x => ?_) ?_
    | with_reducible refine (State.casSendOpen_still ..).into ?_

theorem State.casFrame_still (s : State) : Still s (State.casFrame s) := by
  unfold State.casFrame
  repeat' first
    | with_reducible exact Rel.refl _
    | with_reducible assumption
    | with_reducible refine (State.casBeacons_still ..).into ?_
    | with_reducible refine (State.setFld_still ..).into ?_
    | with_reducible refine (State.modCas_still ..).into ?_
    | with_reducible refine (State.incFld_still ..).into ?_
    | (extract_lets +onlyGivenNames x; with_reducible refine Rel.cut (x := ?y) ?_ ?_; (case y => apply x); subst x; rotate_left; clear_value x; intro _)
    | extract_lets +onlyGivenNames x
    | simp -zeta -beta -eta -iota -proj -decide only [Rel.upd]
    | dsimp -zeta only
    | with_reducible refine Rel.ite ?_ ?_

theorem execBeacon_good (uid : ℕ) (s : State) : Good s (execBeacon uid s) := by
  unfold execBeacon
  repeat' first
    | with_reducible exact Rel.refl _
    | with_reducible assumption
    | exact Good.fault _ _
    | with_reducible refine Good.next ?_
    | with_reducible refine Good.done ?_
    | with_reducible refine (State.modCas_still ..).into ?_
    | with_reducible refine (State.setFld_still ..).into ?_
    | with_reducible refine Rel.each (fun t x => ?_) ?_
    | with_reducible refine (State.passAnswer_still ..).into ?_
    | (extract_lets +onlyGivenNames x; with_reducible refine Good.cut (x := ?y) ?_ ?_; (case y => apply x); subst x; rotate_left; clear_value x; intro _)
    | (extract_lets +onlyGivenNames x; clear_value x)
    | extract_lets +onlyGivenNames x
    | simp -zeta -beta -eta -iota -proj -decide only [Rel.upd]
    | dsimp -zeta only
    | with_reducible refine Rel.ite ?_ ?_
    | with_reducible refine Good.ite ?_ ?_

theorem execMasterLost_good (s : State) : Good s (execMasterLost s) := by
  unfold execMasterLost
  repeat' first
    | with_reducible exact Rel.refl _
    | with_reducible assumption
    | exact Good.fault _ _
    | with_reducible refine Good.next ?_
    | with_reducible refine Good.done ?_
    | with_reducible refine (State.modCas_still ..).into ?_
    | with_reducible refine (State.post_still ..).into ?_
    | with_reducible refine (State.incFld_still ..).into ?_
    | with_reducible refine (State.setFld_still ..).into ?_
    | (extract_lets +onlyGivenNames x; with_reducible refine Good.cut (x := ?y) ?_ ?_; (case y => apply x); subst x; rotate_left; clear_value x; intro _)
    | extract_lets +onlyGivenNames x
    | simp -zeta -beta -eta -iota -proj -decide only [Rel.upd]
    | dsimp -zeta only
    | with_reducible refine Rel.ite ?_ ?_
    | with_reducible refine Good.ite ?_ ?_

theorem execMasterLostAbort_good (s : State) : Good s (execMasterLostAbort s) := by
  unfold execMasterLostAbort
  repeat' first
    | with_reducible exact Rel.refl _
    | with_reducible assumption
    | exact Good.fault _ _
    | with_reducible refine Good.next ?_
    | with_reducible refine Good.done ?_
    | with_reducible refine (State.modCas_still ..).into ?_
    | with_reducible refine Rel.each (fun t x => ?_) ?_
    | with_reducible refine (State.seqPend_still ..).into ?_
    | with_reducible refine (State.modCtx_still ..).into ?_
    | (extract_lets +onlyGivenNames x; with_reducible refine Good.cut (x := ?y) ?_ ?_; (case y => apply x); subst x; rotate_left; clear_value x; intro _)
    | (extract_lets +onlyGivenNames x; clear_value x)
    | extract_lets +onlyGivenNames x
    | simp -zeta -beta -eta -iota -proj -decide only [Rel.upd]
    | dsimp -zeta only
    | with_reducible refine Rel.ite ?_ ?_
    | with_reducible refine Good.ite ?_ ?_

theorem execSafeFrame_good (path : ℕ) (bytes : List Byte) (s : State) : Good s (execSafeFrame path bytes s) := by
  unfold execSafeFrame
  repeat' first
    | with_reducible exact Rel.refl _
    | with_reducible assumption
    | exact Good.fault _ _
    | with_reducible refine Good.next ?_
    | with_reducible refine Good.done ?_
    | with_reducible refine (State.mbox_still ..).into ?_

theorem execSignalFrame_good (pos : ℕ) (values : List (ℕ × Word)) (s : State) : Good s (execSignalFrame pos values s) := by
  unfold execSignalFrame
  repeat' first
    | with_reducible exact Rel.refl _
    | with_reducible assumption
    | exact Good.fault _ _
    | with_reducible refine Good.next ?_
    | with_reducible refine Good.done ?_
    | with_reducible refine (State.modCas_still ..).into ?_
    | with_reducible refine Rel.each (fun t x => ?_) ?_
    | with_reducible refine (State.incFld_still ..).into ?_
    | with_reducible refine (State.putSig_still ..).into ?_
    | (extract_lets +onlyGivenNames x; with_reducible refine Good.cut (x := ?y) ?_ ?_; (case y => apply x); subst x; rotate_left; clear_value x; intro _)
    | (extract_lets +onlyGivenNames x; with_reducible refine Rel.cut (x := ?y) ?_ ?_; (case y => apply x); subst x; rotate_left; clear_value x; intro _)
    | extract_lets +onlyGivenNames x
    | simp -zeta -beta -eta -iota -proj -decide only [Rel.upd]
    | dsimp -zeta only
    | with_reducible refine Rel.ite ?_ ?_
    | with_reducible refine Good.ite ?_ ?_

theorem State.casOutputClose_still (s : State) : Still s (State.casOutputClose s) := by
  unfold State.casOutputClose
  repeat' first
    | with_reducible exact Rel.refl _
    | with_reducible assumption
    | with_reducible refine Rel.each (fun t x => ?_) ?_
    | with_reducible refine (State.putGrp_still ..).into ?_
    | with_reducible refine (State.modCas_still ..).into ?_

theorem State.casExport_still (s : State) : Still s (State.casExport s) := by
  unfold State.casExport
  repeat' first
    | with_reducible exact Rel.refl _
    | with_reducible assumption
    | with_reducible refine Rel.each (fun t x => ?_) ?_
    | with_reducible refine (State.casSendOpen_still ..).into ?_
    | (extract_lets +onlyGivenNames x)
    | extract_lets +onlyGivenNames x
    | simp -zeta -beta -eta -iota -proj -decide only [Rel.upd]
    | dsimp -zeta only
    | with_reducible refine Rel.ite ?_ ?_

theorem execShpFwd_good (request : List Byte) (s : State) : Good s (execShpFwd request s) := by
  unfold execShpFwd
  repeat' first
    | with_reducible exact Rel.refl _
    | with_reducible assumption
    | exact Good.fault _ _
    | with_reducible refine Good.next ?_
    | with_reducible refine Good.done ?_
    | with_reducible refine (State.modPair_still ..).into ?_
    | simp -zeta -beta -eta -iota -proj -decide only [Rel.upd]
    | dsimp -zeta only
    | with_reducible refine Rel.ite ?_ ?_
    | with_reducible refine Good.ite ?_ ?_

end Sys2Proof.Machine
end

