-- ==== Sys2Proof/Laws/KeepPair.lean ====
section
/-!
SUPPORT. Laws/KeepPair.lean: what the operations of Machine/Pair.lean keep.
-/

namespace Sys2Proof.Machine

theorem State.pairBecome_still (s : State) (role : ℕ) : Still s (State.pairBecome s role) := by
  unfold State.pairBecome
  repeat' first
    | with_reducible exact Rel.refl _
    | with_reducible assumption
    | with_reducible refine (State.modPair_still ..).into ?_
    | with_reducible refine (State.setFld_still ..).into ?_

theorem State.pairStand_still (s : State) (resync : Bool) : Still s (State.pairStand s resync) := by
  unfold State.pairStand
  repeat' first
    | with_reducible exact Rel.refl _
    | with_reducible assumption
    | with_reducible refine (State.setFld_still ..).into ?_
    | with_reducible refine (State.driveAll_still ..).into ?_
    | with_reducible refine (State.modPair_still ..).into ?_
    | (extract_lets +onlyGivenNames x)
    | extract_lets +onlyGivenNames x
    | simp -zeta -beta -eta -iota -proj -decide only [Rel.upd]

theorem execPairElection_good (s : State) : Good s (execPairElection s) := by
  unfold execPairElection
  repeat' first
    | with_reducible exact Rel.refl _
    | with_reducible assumption
    | exact Good.fault _ _
    | with_reducible refine Good.next ?_
    | with_reducible refine Good.done ?_
    | with_reducible refine (State.setFld_still ..).into ?_
    | with_reducible refine (State.pairBecome_still ..).into ?_
    | with_reducible refine (State.pairStand_still ..).into ?_
    | (extract_lets +onlyGivenNames x; with_reducible refine Good.cut (x := ?y) ?_ ?_; (case y => apply x); subst x; rotate_left; clear_value x; intro _)
    | (extract_lets +onlyGivenNames x; clear_value x)
    | extract_lets +onlyGivenNames x
    | simp -zeta -beta -eta -iota -proj -decide only [Rel.upd]
    | dsimp -zeta only
    | with_reducible refine Rel.ite ?_ ?_
    | with_reducible refine Good.ite ?_ ?_
    | split

theorem State.pairSendTick_still (s : State) : Still s (State.pairSendTick s) := by
  unfold State.pairSendTick
  repeat' first
    | with_reducible exact Rel.refl _
    | with_reducible assumption
    | with_reducible refine (State.modPair_still ..).into ?_
    | with_reducible refine (State.pairSend_still ..).into ?_
    | (extract_lets +onlyGivenNames x)
    | extract_lets +onlyGivenNames x
    | simp -zeta -beta -eta -iota -proj -decide only [Rel.upd]
    | dsimp -zeta only
    | with_reducible refine Rel.ite ?_ ?_

theorem State.pairReadyCheck_still (s : State) : Still s (State.pairReadyCheck s) := by
  unfold State.pairReadyCheck
  repeat' first
    | with_reducible exact Rel.refl _
    | with_reducible assumption
    | with_reducible refine (State.setFld_still ..).into ?_
    | simp -zeta -beta -eta -iota -proj -decide only [Rel.upd]
    | dsimp -zeta only
    | with_reducible refine Rel.ite ?_ ?_

theorem execTickRec_good (record : TickRec) (s : State) : Good s (execTickRec record s) := by
  unfold execTickRec
  repeat' first
    | with_reducible exact Rel.refl _
    | with_reducible assumption
    | exact Good.fault _ _
    | with_reducible refine Good.next ?_
    | with_reducible refine Good.done ?_
    | with_reducible refine (State.modPair_still ..).into ?_
    | with_reducible refine Rel.each (fun t x => ?_) ?_
    | with_reducible refine (State.forceSet_still ..).into ?_
    | with_reducible refine Rel.ofPair (by assumption) (State.forceSet_still ..) ?_
    | with_reducible refine (State.forceRelease_still ..).into ?_
    | with_reducible refine Rel.ofPair (by assumption) (State.forceRelease_still ..) ?_
    | with_reducible refine (State.pairReadyCheck_still ..).into ?_
    | (extract_lets +onlyGivenNames x; with_reducible refine Good.cut (x := ?y) ?_ ?_; (case y => apply x); subst x; rotate_left; clear_value x; intro _)
    | (extract_lets +onlyGivenNames x; clear_value x)
    | extract_lets +onlyGivenNames x
    | simp -zeta -beta -eta -iota -proj -decide only [Rel.upd]
    | dsimp -zeta only
    | with_reducible refine Rel.ite ?_ ?_
    | with_reducible refine Good.ite ?_ ?_
    | split

theorem State.pairLogic_still (s : State) (ls : List (List Byte)) (n : ℕ) : Still s (State.pairLogic s ls n) := by
  induction n generalizing s ls with
  | zero => cases ls <;> exact Rel.refl s
  | succ n ih =>
    cases ls with
    | nil => exact Rel.refl s
    | cons d t =>
      refine (ih _ _).into ?_
      refine Rel.each (fun _ _ => ?_) (Rel.refl _)
      exact (State.setPlain_still ..).into (State.setPlain_still ..)

theorem State.pairApply_still (s : State) (ls : List (List Byte)) (stage : StageSnap) : Still s (State.pairApply s ls stage) := by
  unfold State.pairApply
  repeat' first
    | with_reducible exact Rel.refl _
    | with_reducible assumption
    | with_reducible refine Rel.each (fun t x => ?_) ?_
    | with_reducible refine (State.setPlain_still ..).into ?_
    | with_reducible refine (State.setPw_still ..).into ?_
    | with_reducible refine (State.setCur_still ..).into ?_
    | with_reducible refine (State.pairLogic_still ..).into ?_
    | with_reducible refine (State.pairReadyCheck_still ..).into ?_
    | with_reducible refine (State.modPair_still ..).into ?_
    | (extract_lets +onlyGivenNames x)
    | extract_lets +onlyGivenNames x
    | with_reducible apply_assumption -exfalso -symm
    | simp -zeta -beta -eta -iota -proj -decide only [Rel.upd]
    | dsimp -zeta only
    | with_reducible refine Rel.ite ?_ ?_

theorem State.pairLine_still (s : State) (stage : StageSnap) (b : List Byte) : Still s (State.pairLine s stage b) := by
  unfold State.pairLine
  repeat' first
    | with_reducible exact Rel.refl _
    | with_reducible assumption
    | with_reducible refine (State.modPair_still ..).into ?_
    | with_reducible refine (State.pairApply_still ..).into ?_
    | (extract_lets +onlyGivenNames x; with_reducible refine Rel.cut (x := ?y) ?_ ?_; (case y => apply x); subst x; rotate_left; clear_value x; intro _)
    | (extract_lets +onlyGivenNames x; clear_value x)
    | extract_lets +onlyGivenNames x
    | simp -zeta -beta -eta -iota -proj -decide only [Rel.upd]
    | dsimp -zeta only
    | with_reducible refine Rel.ite ?_ ?_

theorem execJournalFrame_good (mirror : Option ℕ) (line : List Byte) (stage : StageSnap) (s : State) : Good s (execJournalFrame mirror line stage s) := by
  unfold execJournalFrame
  repeat' first
    | with_reducible exact Rel.refl _
    | with_reducible assumption
    | exact Good.fault _ _
    | with_reducible refine Good.next ?_
    | with_reducible refine Good.done ?_
    | with_reducible refine (State.setPlain_still ..).into ?_
    | with_reducible refine (State.pairLine_still ..).into ?_
    | simp -zeta -beta -eta -iota -proj -decide only [Rel.upd]
    | dsimp -zeta only
    | with_reducible refine Rel.ite ?_ ?_
    | with_reducible refine Good.ite ?_ ?_
    | split

theorem execSyncRec_good (lines : List (List Byte)) (stage : StageSnap) (s : State) : Good s (execSyncRec lines stage s) := by
  unfold execSyncRec
  repeat' first
    | with_reducible exact Rel.refl _
    | with_reducible assumption
    | exact Good.fault _ _
    | with_reducible refine Good.next ?_
    | with_reducible refine Good.done ?_
    | with_reducible refine Rel.each (fun t x => ?_) ?_
    | with_reducible refine (State.pairLine_still ..).into ?_
    | simp -zeta -beta -eta -iota -proj -decide only [Rel.upd]
    | dsimp -zeta only
    | with_reducible refine Rel.ite ?_ ?_
    | with_reducible refine Good.ite ?_ ?_

theorem execResyncFrame_good (region : ℕ) (off : ℕ) (bytes : List Byte) (forces : List (ℕ × Word)) (last : Bool) (s : State) : Good s (execResyncFrame region off bytes forces last s) := by
  unfold execResyncFrame
  repeat' first
    | with_reducible exact Rel.refl _
    | with_reducible assumption
    | exact Good.fault _ _
    | with_reducible refine Good.next ?_
    | with_reducible refine Good.done ?_
    | with_reducible refine (State.setPlain_still ..).into ?_
    | with_reducible refine Rel.each (fun t x => ?_) ?_
    | with_reducible refine (State.forceSet_still ..).into ?_
    | with_reducible refine Rel.ofPair (by assumption) (State.forceSet_still ..) ?_
    | with_reducible refine (State.modPair_still ..).into ?_
    | with_reducible refine (State.setFld_still ..).into ?_
    | (extract_lets +onlyGivenNames x; with_reducible refine Good.cut (x := ?y) ?_ ?_; (case y => apply x); subst x; rotate_left; clear_value x; intro _)
    | extract_lets +onlyGivenNames x
    | simp -zeta -beta -eta -iota -proj -decide only [Rel.upd]
    | dsimp -zeta only
    | with_reducible refine Rel.ite ?_ ?_
    | with_reducible refine Good.ite ?_ ?_
    | split

theorem State.pairCheck_still (s : State) : Still s (State.pairCheck s) := by
  unfold State.pairCheck
  repeat' first
    | with_reducible exact Rel.refl _
    | with_reducible assumption
    | with_reducible refine (State.driveAll_still ..).into ?_
    | with_reducible refine (State.modPair_still ..).into ?_
    | (extract_lets +onlyGivenNames x; with_reducible refine Rel.cut (x := ?y) ?_ ?_; (case y => apply x); subst x; rotate_left; intro _)
    | (extract_lets +onlyGivenNames x)
    | extract_lets +onlyGivenNames x
    | simp -zeta -beta -eta -iota -proj -decide only [Rel.upd]
    | dsimp -zeta only
    | with_reducible refine Rel.ite ?_ ?_

theorem State.pairFrame_still (s : State) : Still s (State.pairFrame s) := by
  unfold State.pairFrame
  repeat' first
    | with_reducible exact Rel.refl _
    | with_reducible assumption
    | with_reducible refine (State.modPair_still ..).into ?_
    | with_reducible refine (State.pairSend_still ..).into ?_
    | (extract_lets +onlyGivenNames x)
    | extract_lets +onlyGivenNames x
    | simp -zeta -beta -eta -iota -proj -decide only [Rel.upd]
    | dsimp -zeta only
    | with_reducible refine Rel.ite ?_ ?_

theorem execPairCompare_good (fails : List ℕ) (fatal : Bool) (s : State) : Good s (execPairCompare fails fatal s) := by
  unfold execPairCompare
  repeat' first
    | with_reducible exact Rel.refl _
    | with_reducible assumption
    | exact Good.fault _ _
    | with_reducible refine Good.next ?_
    | with_reducible refine Good.done ?_
    | with_reducible refine (State.modPair_still ..).into ?_
    | with_reducible refine (State.incFld_still ..).into ?_
    | (extract_lets +onlyGivenNames x; with_reducible refine Good.cut (x := ?y) ?_ ?_; (case y => apply x); subst x; rotate_left; clear_value x; intro _)
    | extract_lets +onlyGivenNames x
    | simp -zeta -beta -eta -iota -proj -decide only [Rel.upd]
    | dsimp -zeta only
    | with_reducible refine Rel.ite ?_ ?_
    | with_reducible refine Good.ite ?_ ?_

theorem State.pairNotReady_still (s : State) : Still s (State.pairNotReady s) := by
  unfold State.pairNotReady
  repeat' first
    | with_reducible exact Rel.refl _
    | with_reducible assumption
    | with_reducible refine (State.modPair_still ..).into ?_
    | with_reducible refine (State.setFld_still ..).into ?_
    | simp -zeta -beta -eta -iota -proj -decide only [Rel.upd]
    | dsimp -zeta only
    | with_reducible refine Rel.ite ?_ ?_

theorem State.pairSwitchOver_still (s : State) (cause : ℕ) : Still s (State.pairSwitchOver s cause) := by
  unfold State.pairSwitchOver
  repeat' first
    | with_reducible exact Rel.refl _
    | with_reducible assumption
    | with_reducible refine (State.modPair_still ..).into ?_
    | (extract_lets +onlyGivenNames x)
    | extract_lets +onlyGivenNames x
    | simp -zeta -beta -eta -iota -proj -decide only [Rel.upd]
    | dsimp -zeta only
    | with_reducible refine Rel.ite ?_ ?_

theorem execPairDecision_good (standbyReady : Bool) (s : State) : Good s (execPairDecision standbyReady s) := by
  unfold execPairDecision
  repeat' first
    | with_reducible exact Rel.refl _
    | with_reducible assumption
    | exact Good.fault _ _
    | with_reducible refine Good.next ?_
    | with_reducible refine Good.done ?_
    | with_reducible refine (State.modPair_still ..).into ?_
    | with_reducible refine (State.setFld_still ..).into ?_
    | with_reducible refine (State.post_still ..).into ?_
    | with_reducible refine (State.pairSwitchOver_still ..).into ?_
    | with_reducible refine (State.pairNotReady_still ..).into ?_
    | (extract_lets +onlyGivenNames x; with_reducible refine Good.cut (x := ?y) ?_ ?_; (case y => apply x); subst x; rotate_left; clear_value x; intro _)
    | (extract_lets +onlyGivenNames x; clear_value x)
    | extract_lets +onlyGivenNames x
    | with_reducible apply_assumption -exfalso -symm
    | simp -zeta -beta -eta -iota -proj -decide only [Rel.upd]
    | dsimp -zeta only
    | with_reducible refine Rel.ite ?_ ?_
    | with_reducible refine Good.ite ?_ ?_
    | split

theorem State.pairWatch_still (s : State) (toggled : Bool) : Still s (State.pairWatch s toggled) := by
  unfold State.pairWatch
  repeat' first
    | with_reducible exact Rel.refl _
    | with_reducible assumption
    | with_reducible refine (State.modPair_still ..).into ?_
    | with_reducible refine (State.post_still ..).into ?_
    | with_reducible refine (State.pairNotReady_still ..).into ?_
    | (extract_lets +onlyGivenNames x; with_reducible refine Rel.cut (x := ?y) ?_ ?_; (case y => apply x); subst x; rotate_left; clear_value x; intro _)
    | (extract_lets +onlyGivenNames x; clear_value x)
    | extract_lets +onlyGivenNames x
    | simp -zeta -beta -eta -iota -proj -decide only [Rel.upd]
    | dsimp -zeta only
    | with_reducible refine Rel.ite ?_ ?_

theorem State.pairLoad_still (s : State) : Still s (State.pairLoad s) := by
  unfold State.pairLoad
  repeat' first
    | with_reducible exact Rel.refl _
    | with_reducible assumption
    | with_reducible refine (State.driveAll_still ..).into ?_
    | with_reducible refine (State.modPair_still ..).into ?_
    | with_reducible refine Rel.each (fun t x => ?_) ?_
    | with_reducible refine (State.setDriven_still ..).into ?_
    | simp -zeta -beta -eta -iota -proj -decide only [Rel.upd]
    | dsimp -zeta only
    | with_reducible refine Rel.ite ?_ ?_
    | split

theorem State.pairSwitchDue_still (s : State) : Still s (State.pairSwitchDue s) := by
  unfold State.pairSwitchDue
  repeat' first
    | with_reducible exact Rel.refl _
    | with_reducible assumption
    | with_reducible refine (State.modPair_still ..).into ?_
    | with_reducible refine (State.pairSwitchOver_still ..).into ?_
    | with_reducible refine (State.setFld_still ..).into ?_
    | (extract_lets +onlyGivenNames x; with_reducible refine Rel.cut (x := ?y) ?_ ?_; (case y => apply x); subst x; rotate_left; intro _)
    | (extract_lets +onlyGivenNames x)
    | extract_lets +onlyGivenNames x
    | simp -zeta -beta -eta -iota -proj -decide only [Rel.upd]
    | dsimp -zeta only
    | with_reducible refine Rel.ite ?_ ?_
    | split

theorem State.pairStrobe_still (s : State) : Still s s.pairStrobe := by
  unfold State.pairStrobe
  split
  · exact Rel.refl s
  · extract_lets a toggled s1 s2 out s3 s4 s5 s6
    have h1 : Still s s1 := (State.modPair_still ..).into (State.setFld_still ..)
    have h2 : Still s s2 := by
      show Still s (match s1.pair.stepAt with
        | some k => if k ≤ s1.time.tick && s1.pairActive then s1.pairStepDown else s1
        | none => s1)
      split
      · exact Rel.ite ((State.pairStepDown_still ..).into h1) h1
      · exact h1
    have h3 : Still s s3 := (State.modPair_still ..).into h2
    have h4 : Still s s4 := Rel.ite ((State.setLine_still ..).into h3) h3
    have h5 : Still s s5 := Rel.ite ((State.pairWatch_still ..).into ((State.pairLoad_still ..).into h4)) h4
    have h6 : Still s s6 := (State.pairSwitchDue_still ..).into h5
    exact Rel.ite ((State.pairFrame_still ..).into h6) h6

theorem State.pairActions_keep (s : State) (q : ℕ) (k : ℕ) : Keep s (State.pairActions s q k) := by
  unfold State.pairActions
  repeat' first
    | with_reducible exact Rel.refl _
    | with_reducible assumption
    | with_reducible refine Rel.each (fun t x => ?_) ?_
    | with_reducible refine (State.seqAction_keep ..).into ?_
    | (extract_lets +onlyGivenNames x; with_reducible refine Rel.cut (x := ?y) ?_ ?_; (case y => apply x); subst x; rotate_left; intro _)
    | (extract_lets +onlyGivenNames x)
    | extract_lets +onlyGivenNames x
    | simp -zeta -beta -eta -iota -proj -decide only [Keep.upd]
    | dsimp -zeta only
    | with_reducible refine Rel.ite ?_ ?_

theorem State.pairSeq_keep (s : State) (ahead : ℕ) (snap : StageSnap) (x : SeqLine) : Keep s (State.pairSeq s ahead snap x) := by
  unfold State.pairSeq
  repeat' first
    | with_reducible exact Rel.refl _
    | with_reducible assumption
    | with_reducible refine (State.modCtx_still ..).into ?_
    | with_reducible refine Rel.each (fun t x => ?_) ?_
    | with_reducible refine (State.setRamp_still ..).into ?_
    | with_reducible refine (State.pairActions_keep ..).into ?_
    | (extract_lets +onlyGivenNames x; with_reducible refine Rel.cut (x := ?y) ?_ ?_; (case y => apply x); subst x; rotate_left; clear_value x; intro _)
    | (extract_lets +onlyGivenNames x; clear_value x)
    | extract_lets +onlyGivenNames x
    | simp -zeta -beta -eta -iota -proj -decide only [Keep.upd]
    | dsimp -zeta only
    | with_reducible refine Rel.ite ?_ ?_
    | split

theorem State.pairCommit_still (s : State) (m : PassMsg) : Still s (State.pairCommit s m) := by
  unfold State.pairCommit
  repeat' first
    | with_reducible exact Rel.refl _
    | with_reducible assumption
    | with_reducible refine (State.modCtx_still ..).into ?_
    | with_reducible refine (State.passHold_still ..).into ?_
    | (extract_lets +onlyGivenNames x)
    | extract_lets +onlyGivenNames x
    | simp -zeta -beta -eta -iota -proj -decide only [Rel.upd]
    | dsimp -zeta only
    | with_reducible refine Rel.ite ?_ ?_
    | split

theorem State.pairVars_still (s : State) : Still s (State.pairVars s) := by
  unfold State.pairVars
  repeat' first
    | with_reducible exact Rel.refl _
    | with_reducible assumption
    | with_reducible refine Rel.each (fun t x => ?_) ?_
    | with_reducible refine (State.vmPut_still ..).into ?_

theorem State.pairContinue_keep (s : State) (r : TickRec) (t : ℕ) : Keep s (State.pairContinue s r t) := by
  unfold State.pairContinue
  repeat' first
    | with_reducible exact Rel.refl _
    | with_reducible assumption
    | with_reducible refine Rel.each (fun t x => ?_) ?_
    | with_reducible refine (State.pairSeq_keep ..).into ?_
    | with_reducible refine (State.pairCommit_still ..).into ?_
    | with_reducible refine (State.setLGen_still ..).into ?_
    | with_reducible refine (State.setLoopHalf_still ..).into ?_
    | with_reducible refine (State.logRestore_still ..).into ?_
    | with_reducible refine (State.pairVars_still ..).into ?_
    | with_reducible refine (State.axRestore_still ..).into ?_
    | with_reducible refine (State.setFld_still ..).into ?_
    | with_reducible refine (State.motResume_keep ..).into ?_
    | (extract_lets +onlyGivenNames x; with_reducible refine Rel.cut (x := ?y) ?_ ?_; (case y => apply x); subst x; rotate_left; intro _)
    | (extract_lets +onlyGivenNames x)
    | extract_lets +onlyGivenNames x
    | simp -zeta -beta -eta -iota -proj -decide only [Keep.upd]
    | dsimp -zeta only
    | with_reducible refine Rel.ite ?_ ?_
    | split

theorem State.pairFresh_still (s : State) : Still s (State.pairFresh s) := by
  unfold State.pairFresh
  repeat' first
    | with_reducible exact Rel.refl _
    | with_reducible assumption
    | with_reducible refine (State.jrnFresh_still ..).into ?_
    | with_reducible refine (State.post_still ..).into ?_
    | (extract_lets +onlyGivenNames x)
    | extract_lets +onlyGivenNames x
    | simp -zeta -beta -eta -iota -proj -decide only [Rel.upd]
    | dsimp -zeta only
    | with_reducible refine Rel.ite ?_ ?_

theorem State.pairOutputs_keep (s : State) : Keep s (State.pairOutputs s) := by
  unfold State.pairOutputs
  repeat' first
    | with_reducible exact Rel.refl _
    | with_reducible assumption
    | with_reducible refine Rel.each (fun t x => ?_) ?_
    | with_reducible refine (State.holdOut_keep ..).into ?_
    | with_reducible refine (State.setHeld_still ..).into ?_
    | with_reducible refine (State.driveAll_still ..).into ?_
    | with_reducible refine (State.setFld_still ..).into ?_
    | (extract_lets +onlyGivenNames x; with_reducible refine Rel.cut (x := ?y) ?_ ?_; (case y => apply x); subst x; rotate_left; clear_value x; intro _)
    | (extract_lets +onlyGivenNames x; clear_value x)
    | extract_lets +onlyGivenNames x
    | simp -zeta -beta -eta -iota -proj -decide only [Keep.upd]
    | dsimp -zeta only
    | with_reducible refine Rel.ite ?_ ?_

theorem State.timeTakeover_still (s : State) : Still s (State.timeTakeover s) := by
  unfold State.timeTakeover
  repeat' first
    | with_reducible exact Rel.refl _
    | with_reducible assumption
    | with_reducible refine (State.setFld_still ..).into ?_
    | (extract_lets +onlyGivenNames x)
    | extract_lets +onlyGivenNames x
    | simp -zeta -beta -eta -iota -proj -decide only [Rel.upd]

theorem execPairTakeover_good (s : State) : Good s (execPairTakeover s) := by
  unfold execPairTakeover
  repeat' first
    | with_reducible exact Rel.refl _
    | with_reducible assumption
    | exact Good.fault _ _
    | with_reducible refine Good.next ?_
    | with_reducible refine Good.done ?_
    | with_reducible refine (State.modPair_still ..).into ?_
    | with_reducible refine (State.timeTakeover_still ..).into ?_
    | with_reducible refine (State.pairBecome_still ..).into ?_
    | with_reducible refine (State.incFld_still ..).into ?_
    | with_reducible refine (State.pairFresh_still ..).into ?_
    | with_reducible refine (State.setFld_still ..).into ?_
    | with_reducible refine (State.pairContinue_keep ..).into ?_
    | with_reducible refine (State.done_good ..).into ?_
    | with_reducible refine (State.casBeacons_still ..).into ?_
    | with_reducible refine (State.pairOutputs_keep ..).into ?_
    | (extract_lets +onlyGivenNames x; with_reducible refine Good.cutK (x := ?y) ?_ ?_; (case y => apply x); subst x; rotate_left; clear_value x; intro _)
    | (extract_lets +onlyGivenNames x; clear_value x)
    | extract_lets +onlyGivenNames x
    | simp -zeta -beta -eta -iota -proj -decide only [Rel.upd]
    | dsimp -zeta only
    | with_reducible refine Rel.ite ?_ ?_
    | with_reducible refine Good.ite ?_ ?_
    | split

theorem execPairSwitch_good (standbyReady : Bool) (s : State) : Good s (execPairSwitch standbyReady s) := by
  unfold execPairSwitch
  repeat' first
    | with_reducible exact Rel.refl _
    | with_reducible assumption
    | exact Good.fault _ _
    | with_reducible refine Good.next ?_
    | with_reducible refine Good.done ?_
    | with_reducible refine (State.setFld_still ..).into ?_
    | with_reducible refine (State.modPair_still ..).into ?_
    | (extract_lets +onlyGivenNames x)
    | extract_lets +onlyGivenNames x
    | simp -zeta -beta -eta -iota -proj -decide only [Rel.upd]
    | dsimp -zeta only
    | with_reducible refine Rel.ite ?_ ?_
    | with_reducible refine Good.ite ?_ ?_

theorem execPairResync_good (s : State) : Good s (execPairResync s) := by
  unfold execPairResync
  repeat' first
    | with_reducible exact Rel.refl _
    | with_reducible assumption
    | exact Good.fault _ _
    | with_reducible refine Good.next ?_
    | with_reducible refine Good.done ?_
    | with_reducible refine (State.setFld_still ..).into ?_
    | with_reducible refine (State.modPair_still ..).into ?_
    | simp -zeta -beta -eta -iota -proj -decide only [Rel.upd]
    | dsimp -zeta only
    | with_reducible refine Rel.ite ?_ ?_
    | with_reducible refine Good.ite ?_ ?_

theorem execPairRelease_good (s : State) : Good s (execPairRelease s) := by
  unfold execPairRelease
  repeat' first
    | with_reducible exact Rel.refl _
    | with_reducible assumption
    | exact Good.fault _ _
    | with_reducible refine Good.next ?_
    | with_reducible refine Good.done ?_
    | with_reducible refine (State.setFld_still ..).into ?_
    | (extract_lets +onlyGivenNames x; with_reducible refine Good.cut (x := ?y) ?_ ?_; (case y => apply x); subst x; rotate_left; clear_value x; intro _)
    | (extract_lets +onlyGivenNames x; clear_value x)
    | extract_lets +onlyGivenNames x
    | simp -zeta -beta -eta -iota -proj -decide only [Rel.upd]
    | dsimp -zeta only
    | with_reducible refine Rel.ite ?_ ?_
    | with_reducible refine Good.ite ?_ ?_

theorem execPairClrCounts_good (s : State) : Good s (execPairClrCounts s) := by
  unfold execPairClrCounts
  repeat' first
    | with_reducible exact Rel.refl _
    | with_reducible assumption
    | exact Good.fault _ _
    | with_reducible refine Good.next ?_
    | with_reducible refine Good.done ?_
    | with_reducible refine (State.clrReg_still ..).into ?_

end Sys2Proof.Machine
end

