-- ==== Sys2Proof/Laws/KeepCan.lean ====
section
/-!
SUPPORT. Laws/KeepCan.lean: what the operations of Machine/Can.lean keep.
-/

namespace Sys2Proof.Machine

theorem State.setCanCtl_still (s : State) (c : ℕ) (v : CanCtl) : Still s (State.setCanCtl s c v) := by
  unfold State.setCanCtl
  repeat' first
    | with_reducible exact Rel.refl _
    | with_reducible assumption
    | (extract_lets +onlyGivenNames x)
    | extract_lets +onlyGivenNames x
    | simp -zeta -beta -eta -iota -proj -decide only [Rel.upd]

theorem State.setCanObj_still (s : State) (c : ℕ) (o : ℕ) (v : CanObj) : Still s (State.setCanObj s c o v) := by
  unfold State.setCanObj
  repeat' first
    | with_reducible exact Rel.refl _
    | with_reducible assumption
    | with_reducible refine (State.setCanCtl_still ..).into ?_

theorem State.modCanObj_still (s : State) (c : ℕ) (o : ℕ) (f : CanObj → CanObj) : Still s (State.modCanObj s c o f) := by
  unfold State.modCanObj
  repeat' first
    | with_reducible exact Rel.refl _
    | with_reducible assumption
    | with_reducible refine (State.setCanObj_still ..).into ?_

theorem State.canTable_keep (s : State) : Keep s (State.canTable s) := by
  unfold State.canTable
  repeat' first
    | with_reducible exact Rel.refl _
    | with_reducible assumption
    | with_reducible refine Rel.each (fun t x => ?_) ?_
    | with_reducible refine (State.setCanCtl_still ..).into ?_
    | with_reducible refine (State.undef_keep ..).into ?_
    | (extract_lets +onlyGivenNames x; with_reducible refine Rel.cut (x := ?y) ?_ ?_; (case y => apply x); subst x; rotate_left; clear_value x; intro _)
    | (extract_lets +onlyGivenNames x; clear_value x)
    | extract_lets +onlyGivenNames x
    | simp -zeta -beta -eta -iota -proj -decide only [Keep.upd]
    | dsimp -zeta only
    | with_reducible refine Rel.ite ?_ ?_

theorem State.canCommit_keep (s : State) : Keep s (State.canCommit s) := by
  unfold State.canCommit
  repeat' first
    | with_reducible exact Rel.refl _
    | with_reducible assumption
    | with_reducible refine (State.canTable_keep ..).into ?_
    | with_reducible refine Rel.each (fun t x => ?_) ?_
    | with_reducible refine (State.setCanCtl_still ..).into ?_

theorem State.canPutData_still (s : State) (c : ℕ) (n : ℕ) (kind : ℕ) (data : List Byte) : Still s (State.canPutData s c n kind data) := by
  unfold State.canPutData
  repeat' first
    | with_reducible exact Rel.refl _
    | with_reducible assumption
    | with_reducible refine Rel.each (fun t x => ?_) ?_
    | with_reducible refine (State.putSig_still ..).into ?_
    | with_reducible refine (State.useFree_still ..).into ?_
    | (extract_lets +onlyGivenNames x)
    | extract_lets +onlyGivenNames x
    | simp -zeta -beta -eta -iota -proj -decide only [Rel.upd]
    | dsimp -zeta only
    | with_reducible refine Rel.ite ?_ ?_

theorem State.canPutStatus_still (s : State) (c : ℕ) (n : ℕ) (kind : ℕ) (id : ℕ) (dlc : ℕ) (count : ℕ) (mark : Bool) : Still s (State.canPutStatus s c n kind id dlc count mark) := by
  unfold State.canPutStatus
  repeat' first
    | with_reducible exact Rel.refl _
    | with_reducible assumption
    | with_reducible refine Rel.each (fun t x => ?_) ?_
    | with_reducible refine (State.putSig_still ..).into ?_

theorem State.canFifoPut_still (s : State) (c : ℕ) (q : ℕ) (id : ℕ) (dlc : ℕ) (flt : ℕ) (sof : ℕ) (esi : Bool) (data : List Byte) : Still s (State.canFifoPut s c q id dlc flt sof esi data) := by
  unfold State.canFifoPut
  repeat' first
    | with_reducible exact Rel.refl _
    | with_reducible assumption
    | with_reducible refine (State.incFld_still ..).into ?_
    | with_reducible refine (State.busWrite_still ..).into ?_
    | with_reducible refine (State.setFld_still ..).into ?_
    | with_reducible refine (State.setCanCtl_still ..).into ?_
    | (extract_lets +onlyGivenNames x; with_reducible refine Rel.cut (x := ?y) ?_ ?_; (case y => apply x); subst x; rotate_left; intro _)
    | (extract_lets +onlyGivenNames x)
    | extract_lets +onlyGivenNames x
    | simp -zeta -beta -eta -iota -proj -decide only [Rel.upd]
    | dsimp -zeta only
    | with_reducible refine Rel.ite ?_ ?_

theorem State.canObjPut_still (s : State) (c : ℕ) (o : ℕ) (id : ℕ) (dlc : ℕ) (sof : ℕ) (data : List Byte) : Still s (State.canObjPut s c o id dlc sof data) := by
  unfold State.canObjPut
  repeat' first
    | with_reducible exact Rel.refl _
    | with_reducible assumption
    | with_reducible refine (State.setCanObj_still ..).into ?_
    | with_reducible refine (State.canPutStatus_still ..).into ?_
    | with_reducible refine (State.canPutData_still ..).into ?_

theorem State.canState_still (s : State) (c : ℕ) : Still s (State.canState s c) := by
  unfold State.canState
  repeat' first
    | with_reducible exact Rel.refl _
    | with_reducible assumption
    | with_reducible refine (State.setFld_still ..).into ?_
    | simp -zeta -beta -eta -iota -proj -decide only [Rel.upd]
    | dsimp -zeta only
    | with_reducible refine Rel.ite ?_ ?_

theorem State.canRecDown_still (s : State) (c : ℕ) : Still s (State.canRecDown s c) := by
  unfold State.canRecDown
  repeat' first
    | with_reducible exact Rel.refl _
    | with_reducible assumption
    | with_reducible refine (State.useFree_still ..).into ?_
    | with_reducible refine (State.setFld_still ..).into ?_
    | (extract_lets +onlyGivenNames x)
    | extract_lets +onlyGivenNames x
    | simp -zeta -beta -eta -iota -proj -decide only [Rel.upd]
    | dsimp -zeta only
    | with_reducible refine Rel.ite ?_ ?_

theorem State.canAttemptFails_still (s : State) (c : ℕ) (o : ℕ) : Still s (State.canAttemptFails s c o) := by
  unfold State.canAttemptFails
  repeat' first
    | with_reducible exact Rel.refl _
    | with_reducible assumption
    | with_reducible refine (State.modCanObj_still ..).into ?_
    | with_reducible refine (State.setFld_still ..).into ?_
    | (extract_lets +onlyGivenNames x; with_reducible refine Rel.cut (x := ?y) ?_ ?_; (case y => apply x); subst x; rotate_left; clear_value x; intro _)
    | extract_lets +onlyGivenNames x
    | simp -zeta -beta -eta -iota -proj -decide only [Rel.upd]
    | dsimp -zeta only
    | with_reducible refine Rel.ite ?_ ?_

theorem execCanFrameReceive_good (ctrl : ℕ) (id : ℕ) (dlc : ℕ) (esi : Bool) (rtr : Bool) (data : List Byte) (sof : ℕ) (lost : Option ℕ) (s : State) : Good s (execCanFrameReceive ctrl id dlc esi rtr data sof lost s) := by
  unfold execCanFrameReceive
  repeat' first
    | with_reducible exact Rel.refl _
    | with_reducible assumption
    | exact Good.fault _ _
    | with_reducible refine Good.next ?_
    | with_reducible refine Good.done ?_
    | with_reducible refine (State.canAttemptFails_still ..).into ?_
    | with_reducible refine (State.modCanObj_still ..).into ?_
    | with_reducible refine (State.canState_still ..).into ?_
    | with_reducible refine (State.canRecDown_still ..).into ?_
    | with_reducible refine (State.incFld_still ..).into ?_
    | with_reducible refine (State.canObjPut_still ..).into ?_
    | with_reducible refine (State.canFifoPut_still ..).into ?_
    | (extract_lets +onlyGivenNames x; with_reducible refine Good.cut (x := ?y) ?_ ?_; (case y => apply x); subst x; rotate_left; clear_value x; intro _)
    | (extract_lets +onlyGivenNames x; clear_value x)
    | extract_lets +onlyGivenNames x
    | simp -zeta -beta -eta -iota -proj -decide only [Rel.upd]
    | dsimp -zeta only
    | with_reducible refine Rel.ite ?_ ?_
    | with_reducible refine Good.ite ?_ ?_
    | split

theorem execCanFifoReadAdvance_good (ctrl : ℕ) (fifo : ℕ) (rd : ℕ) (s : State) : Good s (execCanFifoReadAdvance ctrl fifo rd s) := by
  unfold execCanFifoReadAdvance
  repeat' first
    | with_reducible exact Rel.refl _
    | with_reducible assumption
    | exact Good.fault _ _
    | with_reducible refine Good.next ?_
    | with_reducible refine Good.done ?_
    | with_reducible refine (State.done_good ..).into ?_
    | with_reducible refine (State.undef_keep ..).into ?_
    | with_reducible refine (State.setFld_still ..).into ?_
    | simp -zeta -beta -eta -iota -proj -decide only [Rel.upd]
    | dsimp -zeta only
    | with_reducible refine Rel.ite ?_ ?_
    | with_reducible refine Good.ite ?_ ?_

theorem execCanClrCounts_good (s : State) : Good s (execCanClrCounts s) := by
  unfold execCanClrCounts
  repeat' first
    | with_reducible exact Rel.refl _
    | with_reducible assumption
    | exact Good.fault _ _
    | with_reducible refine Good.next ?_
    | with_reducible refine Good.done ?_
    | with_reducible refine (State.clrRegs_still ..).into ?_

theorem State.canDeliver_still (s : State) (c : ℕ) (q : ℕ) : Still s (State.canDeliver s c q) := by
  unfold State.canDeliver
  repeat' first
    | with_reducible exact Rel.refl _
    | with_reducible assumption
    | with_reducible refine (State.setCanCtl_still ..).into ?_
    | with_reducible refine (State.canPutData_still ..).into ?_
    | with_reducible refine (State.canPutStatus_still ..).into ?_
    | with_reducible refine (State.setFld_still ..).into ?_
    | (extract_lets +onlyGivenNames x; with_reducible refine Rel.cut (x := ?y) ?_ ?_; (case y => apply x); subst x; rotate_left; clear_value x; intro _)
    | (extract_lets +onlyGivenNames x; with_reducible refine Rel.cutG (x := x) (fun _ _ _ => ?_) ?_; subst x; rotate_left; clear_value x; intro _)
    | (extract_lets +onlyGivenNames x; clear_value x)
    | extract_lets +onlyGivenNames x
    | with_reducible apply_assumption -exfalso -symm
    | simp -zeta -beta -eta -iota -proj -decide only [Rel.upd]
    | dsimp -zeta only
    | with_reducible refine Rel.ite ?_ ?_

theorem State.canOutputClose_still (s : State) : Still s (State.canOutputClose s) := by
  unfold State.canOutputClose
  repeat' first
    | with_reducible exact Rel.refl _
    | with_reducible assumption
    | with_reducible refine Rel.each (fun t x => ?_) ?_
    | with_reducible refine (State.canDeliver_still ..).into ?_
    | with_reducible refine (State.putGrp_still ..).into ?_
    | with_reducible refine (State.setCanObj_still ..).into ?_
    | with_reducible refine (State.canPutStatus_still ..).into ?_
    | (extract_lets +onlyGivenNames x; with_reducible refine Rel.cut (x := ?y) ?_ ?_; (case y => apply x); subst x; rotate_left; clear_value x; intro _)
    | (extract_lets +onlyGivenNames x; clear_value x)
    | extract_lets +onlyGivenNames x
    | simp -zeta -beta -eta -iota -proj -decide only [Rel.upd]
    | dsimp -zeta only
    | with_reducible refine Rel.ite ?_ ?_

theorem State.canTake_keep (s : State) (c : ℕ) (o : ℕ) : Keep s (State.canTake s c o) := by
  unfold State.canTake
  repeat' first
    | with_reducible exact Rel.refl _
    | with_reducible assumption
    | with_reducible refine (State.setCanObj_still ..).into ?_
    | with_reducible refine (State.undef_keep ..).into ?_
    | (extract_lets +onlyGivenNames x; with_reducible refine Rel.cut (x := ?y) ?_ ?_; (case y => apply x); subst x; rotate_left; clear_value x; intro _)
    | (extract_lets +onlyGivenNames x; clear_value x)
    | extract_lets +onlyGivenNames x
    | simp -zeta -beta -eta -iota -proj -decide only [Keep.upd]
    | dsimp -zeta only
    | with_reducible refine Rel.ite ?_ ?_

theorem State.canStrobe_keep (s : State) : Keep s (State.canStrobe s) := by
  unfold State.canStrobe
  repeat' first
    | with_reducible exact Rel.refl _
    | with_reducible assumption
    | with_reducible refine Rel.each (fun t x => ?_) ?_
    | with_reducible refine (State.canTake_keep ..).into ?_
    | simp -zeta -beta -eta -iota -proj -decide only [Keep.upd]
    | dsimp -zeta only
    | with_reducible refine Rel.ite ?_ ?_

theorem execCanFrameSent_good (ctrl : ℕ) (obj : ℕ) (age : ℕ) (s : State) : Good s (execCanFrameSent ctrl obj age s) := by
  unfold execCanFrameSent
  repeat' first
    | with_reducible exact Rel.refl _
    | with_reducible assumption
    | exact Good.fault _ _
    | with_reducible refine Good.next ?_
    | with_reducible refine Good.done ?_
    | with_reducible refine (State.setCanCtl_still ..).into ?_
    | with_reducible refine (State.setCanObj_still ..).into ?_
    | with_reducible refine (State.setFld_still ..).into ?_
    | with_reducible refine (State.canState_still ..).into ?_
    | (extract_lets +onlyGivenNames x; with_reducible refine Good.cut (x := ?y) ?_ ?_; (case y => apply x); subst x; rotate_left; clear_value x; intro _)
    | (extract_lets +onlyGivenNames x; clear_value x)
    | extract_lets +onlyGivenNames x
    | simp -zeta -beta -eta -iota -proj -decide only [Rel.upd]
    | dsimp -zeta only
    | with_reducible refine Rel.ite ?_ ?_
    | with_reducible refine Good.ite ?_ ?_

theorem execCanSend_good (ctrl : ℕ) (obj : ℕ) (started : Bool) (s : State) : Good s (execCanSend ctrl obj started s) := by
  unfold execCanSend
  repeat' first
    | with_reducible exact Rel.refl _
    | with_reducible assumption
    | exact Good.fault _ _
    | with_reducible refine Good.next ?_
    | with_reducible refine Good.done ?_
    | with_reducible refine (State.setFld_still ..).into ?_
    | with_reducible refine (State.done_good ..).into ?_
    | with_reducible refine (State.undef_keep ..).into ?_
    | with_reducible refine (State.modCanObj_still ..).into ?_
    | (extract_lets +onlyGivenNames x; with_reducible refine Good.cut (x := ?y) ?_ ?_; (case y => apply x); subst x; rotate_left; clear_value x; intro _)
    | extract_lets +onlyGivenNames x
    | simp -zeta -beta -eta -iota -proj -decide only [Rel.upd]
    | dsimp -zeta only
    | with_reducible refine Rel.ite ?_ ?_
    | with_reducible refine Good.ite ?_ ?_

theorem execCanCancel_good (ctrl : ℕ) (obj : ℕ) (tooLate : Bool) (s : State) : Good s (execCanCancel ctrl obj tooLate s) := by
  unfold execCanCancel
  repeat' first
    | with_reducible exact Rel.refl _
    | with_reducible assumption
    | exact Good.fault _ _
    | with_reducible refine Good.next ?_
    | with_reducible refine Good.done ?_
    | with_reducible refine (State.setFld_still ..).into ?_
    | with_reducible refine (State.modCanObj_still ..).into ?_
    | (extract_lets +onlyGivenNames x; with_reducible refine Good.cut (x := ?y) ?_ ?_; (case y => apply x); subst x; rotate_left; clear_value x; intro _)
    | extract_lets +onlyGivenNames x
    | simp -zeta -beta -eta -iota -proj -decide only [Rel.upd]
    | dsimp -zeta only
    | with_reducible refine Rel.ite ?_ ?_
    | with_reducible refine Good.ite ?_ ?_

theorem State.canEnterBusOff_still (s : State) (c : ℕ) : Still s (State.canEnterBusOff s c) := by
  unfold State.canEnterBusOff
  repeat' first
    | with_reducible exact Rel.refl _
    | with_reducible assumption
    | with_reducible refine (State.incFld_still ..).into ?_
    | with_reducible refine (State.setFld_still ..).into ?_
    | with_reducible refine (State.post_still ..).into ?_
    | with_reducible refine (State.useFree_still ..).into ?_

theorem State.canAttempt_still (s : State) (c : ℕ) (o : ℕ) (kind : CanErr) : Still s (State.canAttempt s c o kind) := by
  unfold State.canAttempt
  repeat' first
    | with_reducible exact Rel.refl _
    | with_reducible assumption
    | with_reducible refine (State.setCanObj_still ..).into ?_
    | with_reducible refine (State.post_still ..).into ?_
    | with_reducible refine (State.setFld_still ..).into ?_
    | with_reducible refine (State.canAttemptFails_still ..).into ?_
    | (extract_lets +onlyGivenNames x)
    | extract_lets +onlyGivenNames x
    | simp -zeta -beta -eta -iota -proj -decide only [Rel.upd]
    | dsimp -zeta only
    | with_reducible refine Rel.ite ?_ ?_

theorem State.canAckRun_still (s : State) (c : ℕ) (kind : CanErr) : Still s (State.canAckRun s c kind) := by
  unfold State.canAckRun
  repeat' first
    | with_reducible exact Rel.refl _
    | with_reducible assumption
    | with_reducible refine (State.setCanCtl_still ..).into ?_
    | with_reducible refine (State.post_still ..).into ?_
    | with_reducible refine (State.setFld_still ..).into ?_
    | (extract_lets +onlyGivenNames x; with_reducible refine Rel.cut (x := ?y) ?_ ?_; (case y => apply x); subst x; rotate_left; clear_value x; intro _)
    | (extract_lets +onlyGivenNames x; clear_value x)
    | extract_lets +onlyGivenNames x
    | simp -zeta -beta -eta -iota -proj -decide only [Rel.upd]
    | dsimp -zeta only
    | with_reducible refine Rel.ite ?_ ?_

theorem execCanError_good (ctrl : ℕ) (obj : Option ℕ) (kind : CanErr) (tecUp : ℕ) (recUp : ℕ) (s : State) : Good s (execCanError ctrl obj kind tecUp recUp s) := by
  unfold execCanError
  repeat' first
    | with_reducible exact Rel.refl _
    | with_reducible assumption
    | exact Good.fault _ _
    | with_reducible refine Good.next ?_
    | with_reducible refine Good.done ?_
    | with_reducible refine (State.canAckRun_still ..).into ?_
    | with_reducible refine (State.canAttempt_still ..).into ?_
    | with_reducible refine (State.setFld_still ..).into ?_
    | with_reducible refine (State.canEnterBusOff_still ..).into ?_
    | with_reducible refine (State.canState_still ..).into ?_
    | (extract_lets +onlyGivenNames x; with_reducible refine Good.cut (x := ?y) ?_ ?_; (case y => apply x); subst x; rotate_left; clear_value x; intro _)
    | (extract_lets +onlyGivenNames x; clear_value x)
    | extract_lets +onlyGivenNames x
    | simp -zeta -beta -eta -iota -proj -decide only [Rel.upd]
    | dsimp -zeta only
    | with_reducible refine Rel.ite ?_ ?_
    | with_reducible refine Good.ite ?_ ?_
    | split

theorem execBusOffRecovery_good (ctrl : ℕ) (s : State) : Good s (execBusOffRecovery ctrl s) := by
  unfold execBusOffRecovery
  repeat' first
    | with_reducible exact Rel.refl _
    | with_reducible assumption
    | exact Good.fault _ _
    | with_reducible refine Good.next ?_
    | with_reducible refine Good.done ?_
    | with_reducible refine (State.setFld_still ..).into ?_
    | with_reducible refine (State.post_still ..).into ?_
    | (extract_lets +onlyGivenNames x; with_reducible refine Good.cut (x := ?y) ?_ ?_; (case y => apply x); subst x; rotate_left; clear_value x; intro _)
    | extract_lets +onlyGivenNames x
    | simp -zeta -beta -eta -iota -proj -decide only [Rel.upd]
    | dsimp -zeta only
    | with_reducible refine Rel.ite ?_ ?_
    | with_reducible refine Good.ite ?_ ?_

theorem State.canPowerFail_still (s : State) : Still s (State.canPowerFail s) := by
  unfold State.canPowerFail
  repeat' first
    | with_reducible exact Rel.refl _
    | with_reducible assumption
    | (extract_lets +onlyGivenNames x)
    | extract_lets +onlyGivenNames x
    | simp -zeta -beta -eta -iota -proj -decide only [Rel.upd]

theorem State.canEnable_still (s : State) (c : ℕ) (on : Bool) : Still s (State.canEnable s c on) := by
  unfold State.canEnable
  repeat' first
    | with_reducible exact Rel.refl _
    | with_reducible assumption
    | with_reducible refine (State.canState_still ..).into ?_
    | with_reducible refine (State.setFld_still ..).into ?_
    | simp -zeta -beta -eta -iota -proj -decide only [Rel.upd]
    | dsimp -zeta only
    | with_reducible refine Rel.ite ?_ ?_

end Sys2Proof.Machine
end

