-- ==== Sys2Proof/Laws/KeepMeadow.lean ====
section
/-!
SUPPORT. Laws/KeepMeadow.lean: what the operations of Machine/Meadow.lean keep.
-/

namespace Sys2Proof.Machine

theorem State.modMdw_still (s : State) (f : MdwState → MdwState) : Still s (State.modMdw s f) := by
  unfold State.modMdw
  repeat' first
    | with_reducible exact Rel.refl _
    | with_reducible assumption
    | simp -zeta -beta -eta -iota -proj -decide only [Rel.upd]

theorem State.setFold_still (s : State) (i : ℕ) (f : Fold) : Still s (State.setFold s i f) := by
  unfold State.setFold
  repeat' first
    | with_reducible exact Rel.refl _
    | with_reducible assumption
    | with_reducible refine (State.modMdw_still ..).into ?_

theorem State.foldSig_keep (s : State) (i : ℕ) : Keep s (State.foldSig s i) := by
  unfold State.foldSig
  repeat' first
    | with_reducible exact Rel.refl _
    | with_reducible assumption
    | with_reducible refine (State.undef_keep ..).into ?_
    | with_reducible refine (State.setFold_still ..).into ?_
    | (extract_lets +onlyGivenNames x)
    | extract_lets +onlyGivenNames x
    | simp -zeta -beta -eta -iota -proj -decide only [Keep.upd]
    | dsimp -zeta only
    | with_reducible refine Rel.ite ?_ ?_

theorem State.foldTick_keep (s : State) (skips : List ℕ) : Keep s (State.foldTick s skips) := by
  unfold State.foldTick
  repeat' first
    | with_reducible exact Rel.refl _
    | with_reducible assumption
    | with_reducible refine Rel.each (fun t x => ?_) ?_
    | with_reducible refine (State.setFold_still ..).into ?_
    | with_reducible refine (State.incFld_still ..).into ?_
    | with_reducible refine (State.foldSig_keep ..).into ?_
    | (extract_lets +onlyGivenNames x)
    | extract_lets +onlyGivenNames x
    | simp -zeta -beta -eta -iota -proj -decide only [Keep.upd]
    | dsimp -zeta only
    | with_reducible refine Rel.ite ?_ ?_

theorem State.writeSummary_still (s : State) (i : ℕ) (f : Fold) : Still s (State.writeSummary s i f) := by
  unfold State.writeSummary
  repeat' first
    | with_reducible exact Rel.refl _
    | with_reducible assumption
    | with_reducible refine (State.busWrite_still ..).into ?_

theorem State.closeSig_still (s : State) (i : ℕ) (stepId : ℕ) (recipeId : ℕ) : Still s (State.closeSig s i stepId recipeId) := by
  unfold State.closeSig
  repeat' first
    | with_reducible exact Rel.refl _
    | with_reducible assumption
    | with_reducible refine (State.writeSummary_still ..).into ?_
    | with_reducible refine (State.modMdw_still ..).into ?_
    | with_reducible refine (State.incFld_still ..).into ?_
    | with_reducible refine (State.setFold_still ..).into ?_
    | (extract_lets +onlyGivenNames x)
    | extract_lets +onlyGivenNames x
    | simp -zeta -beta -eta -iota -proj -decide only [Rel.upd]
    | dsimp -zeta only
    | with_reducible refine Rel.ite ?_ ?_

theorem State.releaseReductions_still (s : State) : Still s (State.releaseReductions s) := by
  unfold State.releaseReductions
  repeat' first
    | with_reducible exact Rel.refl _
    | with_reducible assumption
    | with_reducible refine Rel.each (fun t x => ?_) ?_
    | with_reducible refine (State.releaseJob_still ..).into ?_
    | with_reducible refine Rel.ofPair (by assumption) (State.releaseJob_still ..) ?_
    | with_reducible refine (State.modMdw_still ..).into ?_
    | (extract_lets +onlyGivenNames x; with_reducible refine Rel.cut (x := ?y) ?_ ?_; (case y => apply x.1); subst x; rotate_left; clear_value x; intro _)
    | (extract_lets +onlyGivenNames x; clear_value x)
    | extract_lets +onlyGivenNames x
    | simp -zeta -beta -eta -iota -proj -decide only [Rel.upd]
    | dsimp -zeta only
    | with_reducible refine Rel.ite ?_ ?_
    | split

theorem State.foldStart_still (s : State) : Still s (State.foldStart s) := by
  unfold State.foldStart
  repeat' first
    | with_reducible exact Rel.refl _
    | with_reducible assumption
    | with_reducible refine (State.modMdw_still ..).into ?_
    | with_reducible refine Rel.each (fun t x => ?_) ?_
    | with_reducible refine (State.setFold_still ..).into ?_

theorem State.takeRing_still (s : State) : Still s (State.takeRing s) := by
  unfold State.takeRing
  repeat' first
    | with_reducible exact Rel.refl _
    | with_reducible assumption
    | with_reducible refine (State.post_still ..).into ?_
    | with_reducible refine Rel.each (fun t x => ?_) ?_
    | with_reducible refine (State.modMdw_still ..).into ?_
    | (extract_lets +onlyGivenNames x)
    | extract_lets +onlyGivenNames x
    | simp -zeta -beta -eta -iota -proj -decide only [Rel.upd]
    | dsimp -zeta only
    | with_reducible refine Rel.ite ?_ ?_
    | split

theorem State.mdwStrobe_still (s : State) : Still s (State.mdwStrobe s) := by
  unfold State.mdwStrobe
  repeat' first
    | with_reducible exact Rel.refl _
    | with_reducible assumption
    | with_reducible refine (State.takeRing_still ..).into ?_
    | with_reducible refine (State.foldStart_still ..).into ?_
    | with_reducible refine Rel.each (fun t x => ?_) ?_
    | with_reducible refine (State.closeSig_still ..).into ?_
    | with_reducible refine (State.modMdw_still ..).into ?_
    | with_reducible refine (State.releaseReductions_still ..).into ?_
    | (extract_lets +onlyGivenNames x; with_reducible refine Rel.cut (x := ?y) ?_ ?_; (case y => apply x); subst x; rotate_left; intro _)
    | (extract_lets +onlyGivenNames x)
    | extract_lets +onlyGivenNames x
    | simp -zeta -beta -eta -iota -proj -decide only [Rel.upd]
    | dsimp -zeta only
    | with_reducible refine Rel.ite ?_ ?_

theorem State.setTraceSt_still (s : State) (b : ℕ) (v : TraceState) : Still s (State.setTraceSt s b v) := by
  unfold State.setTraceSt
  repeat' first
    | with_reducible exact Rel.refl _
    | with_reducible assumption
    | with_reducible refine (State.modMdw_still ..).into ?_

theorem State.frameUp_still (s : State) (b : ℕ) : Still s (State.frameUp s b) := by
  unfold State.frameUp
  repeat' first
    | with_reducible exact Rel.refl _
    | with_reducible assumption
    | with_reducible refine (State.setTraceSt_still ..).into ?_
    | (extract_lets +onlyGivenNames x)
    | extract_lets +onlyGivenNames x
    | simp -zeta -beta -eta -iota -proj -decide only [Rel.upd]
    | dsimp -zeta only
    | with_reducible refine Rel.ite ?_ ?_
    | split

theorem State.traceRow_still (s : State) (b : ℕ) (missed : Bool) : Still s (s.traceRow b missed) := by
  unfold State.traceRow
  extract_lets n a v s1 v1 s2
  have h1 : Still s s1 := by
    show Still s (match (s.traceSt b).rows with
      | [] => s
      | r :: _ => if r.2.1 = s.epoch then s else s.frameUp b)
    split
    · exact Rel.refl s
    · exact Rel.ite (Rel.refl s) (State.frameUp_still ..)
  have h2 : Still s s2 := (State.setTraceSt_still ..).into h1
  exact Rel.ite ((State.incFld_still ..).into ((State.setTraceSt_still ..).into (State.frameUp_still ..)))
    (Rel.ite ((State.frameUp_still ..).into h2) h2)

theorem State.traceTick_keep (s : State) (missed : List ℕ) : Keep s (State.traceTick s missed) := by
  unfold State.traceTick
  repeat' first
    | with_reducible exact Rel.refl _
    | with_reducible assumption
    | with_reducible refine Rel.each (fun t x => ?_) ?_
    | with_reducible refine (State.undef_keep ..).into ?_
    | with_reducible refine (State.traceRow_still ..).into ?_
    | simp -zeta -beta -eta -iota -proj -decide only [Keep.upd]
    | dsimp -zeta only
    | with_reducible refine Rel.ite ?_ ?_

theorem State.mdwInputClose_keep (s : State) (skips : List ℕ) (missed : List ℕ) : Keep s (State.mdwInputClose s skips missed) := by
  unfold State.mdwInputClose
  repeat' first
    | with_reducible exact Rel.refl _
    | with_reducible assumption
    | with_reducible refine (State.traceTick_keep ..).into ?_
    | with_reducible refine (State.foldTick_keep ..).into ?_
    | simp -zeta -beta -eta -iota -proj -decide only [Keep.upd]
    | dsimp -zeta only
    | with_reducible refine Rel.ite ?_ ?_

theorem State.traceSend_still (s : State) (b : ℕ) (f : TraceFrame) : Still s (State.traceSend s b f) := by
  unfold State.traceSend
  repeat' first
    | with_reducible exact Rel.refl _
    | with_reducible assumption
    | with_reducible refine (State.setTraceSt_still ..).into ?_
    | with_reducible refine (State.modMdw_still ..).into ?_
    | with_reducible refine (State.netSend_still ..).into ?_
    | with_reducible refine (State.wrapFld_still ..).into ?_

theorem execTraceFrameSend_good (sub : ℕ) (s : State) : Good s (execTraceFrameSend sub s) := by
  unfold execTraceFrameSend
  repeat' first
    | with_reducible exact Rel.refl _
    | with_reducible assumption
    | exact Good.fault _ _
    | with_reducible refine Good.next ?_
    | with_reducible refine Good.done ?_
    | with_reducible refine (State.traceSend_still ..).into ?_
    | with_reducible refine (State.setTraceSt_still ..).into ?_
    | (extract_lets +onlyGivenNames x)
    | extract_lets +onlyGivenNames x
    | simp -zeta -beta -eta -iota -proj -decide only [Rel.upd]
    | dsimp -zeta only
    | with_reducible refine Rel.ite ?_ ?_
    | with_reducible refine Good.ite ?_ ?_
    | split

theorem State.reduceSig_still (s : State) (i : ℕ) : Still s (State.reduceSig s i) := by
  unfold State.reduceSig
  repeat' first
    | with_reducible exact Rel.refl _
    | with_reducible assumption
    | with_reducible refine (State.busWord_still ..).into ?_
    | with_reducible refine (State.setFold_still ..).into ?_
    | with_reducible refine Rel.each (fun t x => ?_) ?_
    | with_reducible refine (State.setTraceSt_still ..).into ?_

theorem State.reductionEnds_still (s : State) (d : ℕ) (missed : Bool) : Still s (State.reductionEnds s d missed) := by
  unfold State.reductionEnds
  repeat' first
    | with_reducible exact Rel.refl _
    | with_reducible assumption
    | with_reducible refine (State.modMdw_still ..).into ?_
    | with_reducible refine Rel.each (fun t x => ?_) ?_
    | with_reducible refine (State.reduceSig_still ..).into ?_
    | simp -zeta -beta -eta -iota -proj -decide only [Rel.upd]
    | dsimp -zeta only
    | with_reducible refine Rel.ite ?_ ?_
    | split

theorem State.routeRecord_still (s : State) (e : EventRec) (ws : List ℕ) : Still s (State.routeRecord s e ws) := by
  unfold State.routeRecord
  repeat' first
    | with_reducible exact Rel.refl _
    | with_reducible assumption
    | with_reducible refine Rel.each (fun t x => ?_) ?_
    | with_reducible refine (State.casSendOpen_still ..).into ?_
    | with_reducible refine (State.useFree_still ..).into ?_
    | with_reducible refine (State.netSend_still ..).into ?_
    | simp -zeta -beta -eta -iota -proj -decide only [Rel.upd]
    | dsimp -zeta only
    | with_reducible refine Rel.ite ?_ ?_

theorem State.writeStoreHeader_still (s : State) : Still s (State.writeStoreHeader s) := by
  unfold State.writeStoreHeader
  repeat' first
    | with_reducible exact Rel.refl _
    | with_reducible assumption
    | with_reducible refine (State.busWrite_still ..).into ?_

theorem execRecordWrite_good (s : State) : Good s (execRecordWrite s) := by
  unfold execRecordWrite
  repeat' first
    | with_reducible exact Rel.refl _
    | with_reducible assumption
    | exact Good.fault _ _
    | with_reducible refine Good.next ?_
    | with_reducible refine Good.done ?_
    | with_reducible refine (State.setFld_still ..).into ?_
    | with_reducible refine (State.modMdw_still ..).into ?_
    | with_reducible refine (State.incFld_still ..).into ?_
    | with_reducible refine (State.busWrite_still ..).into ?_
    | with_reducible refine (State.routeRecord_still ..).into ?_
    | (extract_lets +onlyGivenNames x; with_reducible refine Good.cut (x := ?y) ?_ ?_; (case y => apply x); subst x; rotate_left; clear_value x; intro _)
    | (extract_lets +onlyGivenNames x; clear_value x)
    | extract_lets +onlyGivenNames x
    | simp -zeta -beta -eta -iota -proj -decide only [Rel.upd]
    | dsimp -zeta only
    | with_reducible refine Rel.ite ?_ ?_
    | with_reducible refine Good.ite ?_ ?_
    | split

theorem execMdwClearFault_good (s : State) : Good s (execMdwClearFault s) := by
  unfold execMdwClearFault
  repeat' first
    | with_reducible exact Rel.refl _
    | with_reducible assumption
    | exact Good.fault _ _
    | with_reducible refine Good.next ?_
    | with_reducible refine Good.done ?_
    | with_reducible refine (State.writeStoreHeader_still ..).into ?_
    | with_reducible refine (State.setFld_still ..).into ?_
    | simp -zeta -beta -eta -iota -proj -decide only [Rel.upd]
    | dsimp -zeta only
    | with_reducible refine Rel.ite ?_ ?_
    | with_reducible refine Good.ite ?_ ?_

theorem execClearProcess_good (s : State) : Good s (execClearProcess s) := by
  unfold execClearProcess
  repeat' first
    | with_reducible exact Rel.refl _
    | with_reducible assumption
    | exact Good.fault _ _
    | with_reducible refine Good.next ?_
    | with_reducible refine Good.done ?_
    | with_reducible refine (State.writeStoreHeader_still ..).into ?_
    | with_reducible refine (State.setFld_still ..).into ?_
    | simp -zeta -beta -eta -iota -proj -decide only [Rel.upd]
    | dsimp -zeta only
    | with_reducible refine Rel.ite ?_ ?_
    | with_reducible refine Good.ite ?_ ?_

theorem execCloseFree_good (s : State) : Good s (execCloseFree s) := by
  unfold execCloseFree
  repeat' first
    | with_reducible exact Rel.refl _
    | with_reducible assumption
    | exact Good.fault _ _
    | with_reducible refine Good.next ?_
    | with_reducible refine Good.done ?_
    | with_reducible refine (State.modMdw_still ..).into ?_
    | simp -zeta -beta -eta -iota -proj -decide only [Rel.upd]
    | dsimp -zeta only
    | with_reducible refine Rel.ite ?_ ?_
    | with_reducible refine Good.ite ?_ ?_

theorem execMdwClrCounts_good (s : State) : Good s (execMdwClrCounts s) := by
  unfold execMdwClrCounts
  repeat' first
    | with_reducible exact Rel.refl _
    | with_reducible assumption
    | exact Good.fault _ _
    | with_reducible refine Good.next ?_
    | with_reducible refine Good.done ?_
    | with_reducible refine (State.clrRegs_still ..).into ?_

theorem execMdwClrPeaks_good (s : State) : Good s (execMdwClrPeaks s) := by
  unfold execMdwClrPeaks
  repeat' first
    | with_reducible exact Rel.refl _
    | with_reducible assumption
    | exact Good.fault _ _
    | with_reducible refine Good.next ?_
    | with_reducible refine Good.done ?_
    | with_reducible refine (State.setFld_still ..).into ?_

theorem State.mdwCommit_still (s : State) (cold : Bool) : Still s (s.mdwCommit cold) := by
  unfold State.mdwCommit
  split
  · exact Rel.refl s
  · dsimp only
    refine (State.post_still ..).into ?_
    split
    · exact (State.setFld_still ..).into ((State.setFld_still ..).into ((State.setFld_still ..).into (State.setFld_still ..)))
    · refine (State.writeStoreHeader_still ..).into ((State.clrRegs_still ..).into ?_)
      refine ⟨⟨fun h => ?_, rfl⟩, fun _ => rfl⟩
      simp only [State.canonical, Bool.and_eq_true] at *
      exact ⟨⟨wf_filter _ _ _ h.1.1, h.1.2⟩, h.2⟩

theorem State.rdLoad_still (s : State) : Still s (State.rdLoad s) := by
  unfold State.rdLoad
  repeat' first
    | with_reducible exact Rel.refl _
    | with_reducible assumption
    | with_reducible refine (State.clrRegs_still ..).into ?_
    | with_reducible refine (State.modMdw_still ..).into ?_
    | with_reducible refine (State.setFld_still ..).into ?_
    | (extract_lets +onlyGivenNames x; with_reducible refine Rel.cut (x := ?y) ?_ ?_; (case y => apply x); subst x; rotate_left; clear_value x; intro _)
    | extract_lets +onlyGivenNames x
    | simp -zeta -beta -eta -iota -proj -decide only [Rel.upd]
    | dsimp -zeta only
    | with_reducible refine Rel.ite ?_ ?_

theorem execMdwRdSerialWrite_good (serial : ℕ) (s : State) : Good s (execMdwRdSerialWrite serial s) := by
  unfold execMdwRdSerialWrite
  repeat' first
    | with_reducible exact Rel.refl _
    | with_reducible assumption
    | exact Good.fault _ _
    | with_reducible refine Good.next ?_
    | with_reducible refine Good.done ?_
    | with_reducible refine (State.rdLoad_still ..).into ?_
    | with_reducible refine (State.setFld_still ..).into ?_

theorem execMdwAdv_good (s : State) : Good s (execMdwAdv s) := by
  unfold execMdwAdv
  repeat' first
    | with_reducible exact Rel.refl _
    | with_reducible assumption
    | exact Good.fault _ _
    | with_reducible refine Good.next ?_
    | with_reducible refine Good.done ?_
    | with_reducible refine (State.rdLoad_still ..).into ?_
    | with_reducible refine (State.wrapFld_still ..).into ?_

theorem execMdwRdLoadDone_good (s : State) : Good s (execMdwRdLoadDone s) := by
  unfold execMdwRdLoadDone
  repeat' first
    | with_reducible exact Rel.refl _
    | with_reducible assumption
    | exact Good.fault _ _
    | with_reducible refine Good.next ?_
    | with_reducible refine Good.done ?_
    | with_reducible refine (State.modMdw_still ..).into ?_
    | with_reducible refine (State.setFld_still ..).into ?_
    | with_reducible refine Rel.each (fun t x => ?_) ?_
    | with_reducible refine (State.setReg_still ..).into ?_
    | (extract_lets +onlyGivenNames x; with_reducible refine Good.cut (x := ?y) ?_ ?_; (case y => apply x); subst x; rotate_left; intro _)
    | (extract_lets +onlyGivenNames x)
    | extract_lets +onlyGivenNames x
    | simp -zeta -beta -eta -iota -proj -decide only [Rel.upd]
    | dsimp -zeta only
    | with_reducible refine Rel.ite ?_ ?_
    | with_reducible refine Good.ite ?_ ?_

theorem execRecordFrame_good (src : ℕ) (msg : RecMsg) (s : State) : Good s (execRecordFrame src msg s) := by
  unfold execRecordFrame
  repeat' first
    | with_reducible exact Rel.refl _
    | with_reducible assumption
    | exact Good.fault _ _
    | with_reducible refine Good.next ?_
    | with_reducible refine Good.done ?_
    | with_reducible refine (State.postRec_still ..).into ?_
    | with_reducible refine (State.modMdw_still ..).into ?_
    | with_reducible refine (State.releaseJob_still ..).into ?_
    | with_reducible refine Rel.ofPair (by assumption) (State.releaseJob_still ..) ?_
    | with_reducible refine (State.useFree_still ..).into ?_
    | with_reducible refine (State.casSendOpen_still ..).into ?_
    | (extract_lets +onlyGivenNames x; with_reducible refine Good.cut (x := ?y) ?_ ?_; (case y => apply x); subst x; rotate_left; clear_value x; intro _)
    | (extract_lets +onlyGivenNames x; with_reducible refine Good.cut (x := ?y) ?_ ?_; (case y => apply x.1); subst x; rotate_left; clear_value x; intro _)
    | extract_lets +onlyGivenNames x
    | simp -zeta -beta -eta -iota -proj -decide only [Rel.upd]
    | dsimp -zeta only
    | with_reducible refine Rel.ite ?_ ?_
    | with_reducible refine Good.ite ?_ ?_
    | split

theorem State.mdwPowerFail_still (s : State) : Still s (State.mdwPowerFail s) := by
  unfold State.mdwPowerFail
  repeat' first
    | with_reducible exact Rel.refl _
    | with_reducible assumption
    | with_reducible refine (State.modMdw_still ..).into ?_

end Sys2Proof.Machine
end

