-- ==== Sys2Proof/Laws/KeepJobs.lean ====
section
/-!
SUPPORT. Laws/KeepJobs.lean: what the operations of Machine/Jobs.lean keep.
-/

namespace Sys2Proof.Machine

theorem State.residentStart_still (s : State) : Still s (State.residentStart s) := by
  unfold State.residentStart
  repeat' first
    | with_reducible exact Rel.refl _
    | with_reducible assumption
    | with_reducible refine Rel.each (fun t x => ?_) ?_
    | with_reducible refine (State.release_still ..).into ?_
    | with_reducible refine Rel.ofPair (by assumption) (State.release_still ..) ?_
    | with_reducible refine (State.modLane_still ..).into ?_
    | simp -zeta -beta -eta -iota -proj -decide only [Rel.upd]
    | dsimp -zeta only
    | with_reducible refine Rel.ite ?_ ?_

theorem State.residentRestart_keep (s : State) (l : ℕ) (j : ℕ) : Keep s (State.residentRestart s l j) := by
  unfold State.residentRestart
  repeat' first
    | with_reducible exact Rel.refl _
    | with_reducible assumption
    | with_reducible refine (State.incFld_still ..).into ?_
    | with_reducible refine (State.makeReady_still ..).into ?_
    | with_reducible refine (State.setLane_still ..).into ?_
    | with_reducible refine (State.assign_still ..).into ?_
    | with_reducible refine (State.arcStart_keep ..).into ?_
    | (extract_lets +onlyGivenNames x; with_reducible refine Rel.cut (x := ?y) ?_ ?_; (case y => apply x); subst x; rotate_left; clear_value x; intro _)
    | (extract_lets +onlyGivenNames x; clear_value x)
    | extract_lets +onlyGivenNames x
    | simp -zeta -beta -eta -iota -proj -decide only [Keep.upd]
    | dsimp -zeta only
    | with_reducible refine Rel.ite ?_ ?_

theorem State.jobReport_still (s : State) (source : ℕ) (job : ℕ) (arg : ℕ) (how : ℕ) : Still s (State.jobReport s source job arg how) := by
  unfold State.jobReport
  repeat' first
    | with_reducible exact Rel.refl _
    | with_reducible assumption
    | with_reducible refine (State.loopComplete_still ..).into ?_
    | with_reducible refine (State.loopOverrun_still ..).into ?_
    | with_reducible refine (State.reductionEnds_still ..).into ?_
    | simp -zeta -beta -eta -iota -proj -decide only [Rel.upd]
    | dsimp -zeta only
    | with_reducible refine Rel.ite ?_ ?_

theorem State.jobRefused_still (s : State) (r : JobReq) : Still s (State.jobRefused s r) := by
  unfold State.jobRefused
  repeat' first
    | with_reducible exact Rel.refl _
    | with_reducible assumption
    | with_reducible refine (State.loopOverrun_still ..).into ?_
    | with_reducible refine (State.taskSkip_still ..).into ?_
    | (extract_lets +onlyGivenNames x)
    | extract_lets +onlyGivenNames x
    | simp -zeta -beta -eta -iota -proj -decide only [Rel.upd]
    | dsimp -zeta only
    | with_reducible refine Rel.ite ?_ ?_

theorem execJobRelease_good (job : JobReq) (s : State) : Good s (execJobRelease job s) := by
  unfold execJobRelease
  repeat' first
    | with_reducible exact Rel.refl _
    | with_reducible assumption
    | exact Good.fault _ _
    | with_reducible refine Good.next ?_
    | with_reducible refine Good.done ?_
    | with_reducible refine (State.done_good ..).into ?_
    | with_reducible refine (State.undef_keep ..).into ?_
    | with_reducible refine (State.releaseJob_still ..).into ?_
    | with_reducible refine Rel.ofPair (by assumption) (State.releaseJob_still ..) ?_
    | with_reducible refine (State.jobRefused_still ..).into ?_
    | (extract_lets +onlyGivenNames x; with_reducible refine Good.cut (x := ?y) ?_ ?_; (case y => apply x.1); subst x; rotate_left; clear_value x; intro _)
    | extract_lets +onlyGivenNames x
    | simp -zeta -beta -eta -iota -proj -decide only [Rel.upd]
    | dsimp -zeta only
    | with_reducible refine Rel.ite ?_ ?_
    | with_reducible refine Good.ite ?_ ?_
    | split

theorem execJobComplete_good (engine : ℕ) (s : State) : Good s (execJobComplete engine s) := by
  unfold execJobComplete
  repeat' first
    | with_reducible exact Rel.refl _
    | with_reducible assumption
    | exact Rel.weak (by with_reducible assumption)
    | exact Good.fault _ _
    | with_reducible refine Good.next ?_
    | with_reducible refine Good.done ?_
    | with_reducible refine (State.done_good ..).into ?_
    | with_reducible refine (State.residentRestart_keep ..).into ?_
    | with_reducible refine (State.dispatch_still ..).into ?_
    | with_reducible refine (State.jobReport_still ..).into ?_
    | with_reducible refine (State.completeJob_still ..).into ?_
    | (extract_lets +onlyGivenNames x; with_reducible refine Good.cut (x := ?y) ?_ ?_; (case y => apply x); (focus subst x; repeat' first | with_reducible exact Rel.refl _ | with_reducible assumption | with_reducible refine (State.residentRestart_keep ..).into ?_ | with_reducible refine (State.dispatch_still ..).into ?_ | with_reducible refine (State.jobReport_still ..).into ?_ | with_reducible refine (State.completeJob_still ..).into ?_ | (extract_lets +onlyGivenNames x; with_reducible refine Rel.cut (x := ?y) ?_ ?_; (case y => apply x); subst x; rotate_left; clear_value x; intro _) | (extract_lets +onlyGivenNames x; clear_value x) | extract_lets +onlyGivenNames x | simp -zeta -beta -eta -iota -proj -decide only [Rel.upd] | dsimp -zeta only | with_reducible refine Rel.ite ?_ ?_ | split); clear_value x; intro _)
    | (extract_lets +onlyGivenNames x; with_reducible refine Good.cutK (x := ?y) ?_ ?_; (case y => apply x); subst x; rotate_left; clear_value x; intro _)
    | (extract_lets +onlyGivenNames x; with_reducible refine Rel.cut (x := ?y) ?_ ?_; (case y => apply x); subst x; rotate_left; clear_value x; intro _)
    | (extract_lets +onlyGivenNames x; clear_value x)
    | extract_lets +onlyGivenNames x
    | simp -zeta -beta -eta -iota -proj -decide only [Rel.upd]
    | dsimp -zeta only
    | with_reducible refine Rel.ite ?_ ?_
    | with_reducible refine Good.ite ?_ ?_
    | split

theorem State.laneStop_keep (s : State) (l : ℕ) (how : ℕ) (issued : Bool) : Keep s (State.laneStop s l how issued) := by
  unfold State.laneStop
  repeat' first
    | with_reducible exact Rel.refl _
    | with_reducible assumption
    | with_reducible refine (State.laneEnd_still ..).into ?_
    | with_reducible refine (State.laneRetire_still ..).into ?_
    | with_reducible refine (State.vendorKernel_keep ..).into ?_
    | (extract_lets +onlyGivenNames x)
    | extract_lets +onlyGivenNames x
    | simp -zeta -beta -eta -iota -proj -decide only [Keep.upd]
    | dsimp -zeta only
    | with_reducible refine Rel.ite ?_ ?_

theorem execRunLimit_good (lane : ℕ) (issued : Bool) (s : State) : Good s (execRunLimit lane issued s) := by
  unfold execRunLimit
  repeat' first
    | with_reducible exact Rel.refl _
    | with_reducible assumption
    | exact Good.fault _ _
    | with_reducible refine Good.next ?_
    | with_reducible refine Good.done ?_
    | with_reducible refine (State.done_good ..).into ?_
    | with_reducible refine (State.laneStop_keep ..).into ?_
    | with_reducible refine (State.incFld_still ..).into ?_
    | simp -zeta -beta -eta -iota -proj -decide only [Rel.upd]
    | dsimp -zeta only
    | with_reducible refine Rel.ite ?_ ?_
    | with_reducible refine Good.ite ?_ ?_

theorem State.countMiss_still (s : State) (i : ℕ) : Still s (State.countMiss s i) := by
  unfold State.countMiss
  repeat' first
    | with_reducible exact Rel.refl _
    | with_reducible assumption
    | with_reducible refine (State.pmc_still ..).into ?_
    | with_reducible refine (State.incFld_still ..).into ?_
    | simp -zeta -beta -eta -iota -proj -decide only [Rel.upd]
    | dsimp -zeta only
    | with_reducible refine Rel.ite ?_ ?_

theorem State.terminate_keep (s : State) (i : ℕ) (issued : Bool) : Keep s (State.terminate s i issued) := by
  unfold State.terminate
  repeat' first
    | with_reducible exact Rel.refl _
    | with_reducible assumption
    | with_reducible refine (State.laneStop_keep ..).into ?_
    | with_reducible refine (State.countMiss_still ..).into ?_
    | with_reducible refine (State.dispatch_still ..).into ?_
    | with_reducible refine (State.jobReport_still ..).into ?_
    | with_reducible refine (State.completeJob_still ..).into ?_
    | (extract_lets +onlyGivenNames x)
    | extract_lets +onlyGivenNames x
    | simp -zeta -beta -eta -iota -proj -decide only [Keep.upd]
    | dsimp -zeta only
    | with_reducible refine Rel.ite ?_ ?_
    | split

theorem State.extendJob_still (s : State) (i : ℕ) : Still s (State.extendJob s i) := by
  unfold State.extendJob
  repeat' first
    | with_reducible exact Rel.refl _
    | with_reducible assumption
    | with_reducible refine (State.taskLate_still ..).into ?_
    | with_reducible refine (State.setPw_still ..).into ?_
    | with_reducible refine (State.countMiss_still ..).into ?_

theorem execDeadlinePass_good (job : ℕ) (issued : Bool) (s : State) : Good s (execDeadlinePass job issued s) := by
  unfold execDeadlinePass
  repeat' first
    | with_reducible exact Rel.refl _
    | with_reducible assumption
    | exact Good.fault _ _
    | with_reducible refine Good.next ?_
    | with_reducible refine Good.done ?_
    | with_reducible refine (State.done_good ..).into ?_
    | with_reducible refine (State.terminate_keep ..).into ?_
    | with_reducible refine (State.extendJob_still ..).into ?_
    | with_reducible refine (State.undef_keep ..).into ?_
    | simp -zeta -beta -eta -iota -proj -decide only [Rel.upd]
    | dsimp -zeta only
    | with_reducible refine Rel.ite ?_ ?_
    | with_reducible refine Good.ite ?_ ?_
    | split

theorem execExpiry_good (s : State) : Good s (execExpiry s) := by
  unfold execExpiry
  repeat' first
    | with_reducible exact Rel.refl _
    | with_reducible assumption
    | exact Good.fault _ _
    | with_reducible refine Good.next ?_
    | with_reducible refine Good.done ?_
    | with_reducible refine Rel.each (fun t x => ?_) ?_
    | with_reducible refine (State.readyOrLatch_still ..).into ?_
    | with_reducible refine (State.dispatch_still ..).into ?_
    | with_reducible refine (State.incFld_still ..).into ?_
    | (extract_lets +onlyGivenNames x; with_reducible refine Good.cut (x := ?y) ?_ ?_; (case y => apply x); subst x; rotate_left; clear_value x; intro _)
    | (extract_lets +onlyGivenNames x; clear_value x)
    | extract_lets +onlyGivenNames x
    | simp -zeta -beta -eta -iota -proj -decide only [Rel.upd]
    | dsimp -zeta only
    | with_reducible refine Rel.ite ?_ ?_
    | with_reducible refine Good.ite ?_ ?_

theorem execWaitEvent_good (event : ℕ) (s : State) : Good s (execWaitEvent event s) := by
  unfold execWaitEvent
  repeat' first
    | with_reducible exact Rel.refl _
    | with_reducible assumption
    | exact Good.fault _ _
    | with_reducible refine Good.next ?_
    | with_reducible refine Good.done ?_
    | with_reducible refine (State.incFld_still ..).into ?_
    | with_reducible refine (State.dispatch_still ..).into ?_
    | with_reducible refine Rel.each (fun t x => ?_) ?_
    | with_reducible refine (State.readyOrLatch_still ..).into ?_
    | simp -zeta -beta -eta -iota -proj -decide only [Rel.upd]
    | dsimp -zeta only
    | with_reducible refine Rel.ite ?_ ?_
    | with_reducible refine Good.ite ?_ ?_
    | split

theorem execLoadIntervalEnd_good (lane : ℕ) (logic : ℕ) (s : State) : Good s (execLoadIntervalEnd lane logic s) := by
  unfold execLoadIntervalEnd
  repeat' first
    | with_reducible exact Rel.refl _
    | with_reducible assumption
    | exact Good.fault _ _
    | with_reducible refine Good.next ?_
    | with_reducible refine Good.done ?_
    | with_reducible refine (State.setFld_still ..).into ?_
    | (extract_lets +onlyGivenNames x; with_reducible refine Good.cut (x := ?y) ?_ ?_; (case y => apply x); subst x; rotate_left; clear_value x; intro _)
    | (extract_lets +onlyGivenNames x; clear_value x)
    | extract_lets +onlyGivenNames x
    | simp -zeta -beta -eta -iota -proj -decide only [Rel.upd]
    | dsimp -zeta only
    | with_reducible refine Rel.ite ?_ ?_
    | with_reducible refine Good.ite ?_ ?_

theorem execSchClrCounts_good (s : State) : Good s (execSchClrCounts s) := by
  unfold execSchClrCounts
  repeat' first
    | with_reducible exact Rel.refl _
    | with_reducible assumption
    | exact Good.fault _ _
    | with_reducible refine Good.next ?_
    | with_reducible refine Good.done ?_
    | with_reducible refine (State.clrRegs_still ..).into ?_

theorem execSchClrPeaks_good (s : State) : Good s (execSchClrPeaks s) := by
  unfold execSchClrPeaks
  repeat' first
    | with_reducible exact Rel.refl _
    | with_reducible assumption
    | exact Good.fault _ _
    | with_reducible refine Good.next ?_
    | with_reducible refine Good.done ?_
    | with_reducible refine (State.clrReg_still ..).into ?_
    | with_reducible refine Rel.each (fun t x => ?_) ?_
    | with_reducible refine (State.setFld_still ..).into ?_

end Sys2Proof.Machine
end

