-- ==== Sys2Proof/Laws/KeepResets.lean ====
section
/-!
SUPPORT. Laws/KeepResets.lean: what the operations of Machine/Resets.lean keep.
-/

namespace Sys2Proof.Machine

theorem State.finishLine_still (s : State) : Still s (State.finishLine s) := by
  unfold State.finishLine
  repeat' first
    | with_reducible exact Rel.refl _
    | with_reducible assumption
    | with_reducible refine (State.setRet_still ..).into ?_
    | simp -zeta -beta -eta -iota -proj -decide only [Rel.upd]
    | dsimp -zeta only
    | with_reducible refine Rel.ite ?_ ?_
    | split

theorem State.resetRegs_still (s : State) (k : ResetKind) : Still s (s.resetRegs k) := by
  unfold State.resetRegs
  have hf : Still s { s with regs := s.regs.filter fun p => k.keeps p.1 } := by
    refine ⟨⟨fun h => ?_, rfl⟩, fun _ => rfl⟩
    simp only [State.canonical, Bool.and_eq_true] at *
    exact ⟨h.1, wf_filter _ _ _ h.2⟩
  revert hf
  generalize ({ s with regs := s.regs.filter fun p => k.keeps p.1 } : State) = u
  intro hf
  dsimp only
  split
  · exact hf
  · exact (State.setFld_still ..).into ((State.setFld_still ..).into ((State.setFld_still ..).into
      ((State.setBit_still ..).into ((State.setReg_still ..).into hf))))

theorem State.dieReset_still (s : State) (k : ResetKind) : Still s (s.dieReset k) := by
  unfold State.dieReset
  refine (State.resetRegs_still ..).into (Still.into (s := s.finishLine) ?_ (State.finishLine_still s))
  have ht := (State.finishLine_still s).2 rfl
  have hp := (State.finishLine_still s).1.2
  refine ⟨⟨fun h => ?_, rfl⟩, fun _ => rfl⟩
  simp only [State.canonical, Bool.and_eq_true] at *
  refine ⟨⟨?_, h.1.2⟩, h.2⟩
  split
  · rfl
  · exact h.1.1

theorem State.valeOn_still (s : State) (v : ℕ) : Still s (State.valeOn s v) := by
  unfold State.valeOn
  repeat' first
    | with_reducible exact Rel.refl _
    | with_reducible assumption
    | with_reducible refine (State.setBit_still ..).into ?_
    | (extract_lets +onlyGivenNames x)
    | extract_lets +onlyGivenNames x
    | simp -zeta -beta -eta -iota -proj -decide only [Rel.upd]
    | dsimp -zeta only
    | with_reducible refine Rel.ite ?_ ?_

theorem State.valeOff_still (s : State) (v : ℕ) : Still s (State.valeOff s v) := by
  unfold State.valeOff
  repeat' first
    | with_reducible exact Rel.refl _
    | with_reducible assumption
    | with_reducible refine (State.clrBit_still ..).into ?_
    | (extract_lets +onlyGivenNames x; with_reducible refine Rel.cut (x := ?y) ?_ ?_; (case y => apply x); subst x; rotate_left; intro _)
    | (extract_lets +onlyGivenNames x)
    | extract_lets +onlyGivenNames x
    | simp -zeta -beta -eta -iota -proj -decide only [Rel.upd]

theorem State.optionalVales_still (s : State) : Still s (State.optionalVales s) := by
  unfold State.optionalVales
  repeat' first
    | with_reducible exact Rel.refl _
    | with_reducible assumption
    | with_reducible refine (State.valeOn_still ..).into ?_
    | (extract_lets +onlyGivenNames x; with_reducible refine Rel.cut (x := ?y) ?_ ?_; (case y => apply x); subst x; rotate_left; clear_value x; intro _)
    | extract_lets +onlyGivenNames x
    | simp -zeta -beta -eta -iota -proj -decide only [Rel.upd]
    | dsimp -zeta only
    | with_reducible refine Rel.ite ?_ ?_

theorem State.loaderStart_still (s : State) : Still s (State.loaderStart s) := by
  unfold State.loaderStart
  repeat' first
    | with_reducible exact Rel.refl _
    | with_reducible assumption
    | with_reducible refine (State.clrRegs_still ..).into ?_
    | with_reducible refine (State.setFld_still ..).into ?_
    | (extract_lets +onlyGivenNames x; with_reducible refine Rel.cut (x := ?y) ?_ ?_; (case y => apply x); subst x; rotate_left; clear_value x; intro _)
    | (extract_lets +onlyGivenNames x; clear_value x)
    | extract_lets +onlyGivenNames x
    | simp -zeta -beta -eta -iota -proj -decide only [Rel.upd]
    | dsimp -zeta only
    | with_reducible refine Rel.ite ?_ ?_

theorem State.goRunning_still (s : State) : Still s (State.goRunning s) := by
  unfold State.goRunning
  repeat' first
    | with_reducible exact Rel.refl _
    | with_reducible assumption
    | with_reducible refine (State.setBit_still ..).into ?_
    | with_reducible refine (State.loaderStart_still ..).into ?_
    | (extract_lets +onlyGivenNames x)
    | extract_lets +onlyGivenNames x
    | simp -zeta -beta -eta -iota -proj -decide only [Rel.upd]

theorem State.retiredErase_still (s : State) : Still s s.retiredErase := by
  unfold State.retiredErase
  split
  · refine ⟨⟨fun h => ?_, rfl⟩, fun _ => rfl⟩
    simp only [State.canonical, Bool.and_eq_true] at *
    exact ⟨⟨h.1.1, wf_filter _ _ _ h.1.2⟩, h.2⟩
  · exact Rel.refl s

theorem State.release__still (s : State) (bootSel : ℕ) (cascPos : ℕ) (pairRole : Bool) : Still s (State.release_ s bootSel cascPos pairRole) := by
  unfold State.release_
  repeat' first
    | with_reducible exact Rel.refl _
    | with_reducible assumption
    | with_reducible refine (State.retiredErase_still ..).into ?_
    | with_reducible refine (State.goRunning_still ..).into ?_
    | (extract_lets +onlyGivenNames x; with_reducible refine Rel.cut (x := ?y) ?_ ?_; (case y => apply x); subst x; rotate_left; clear_value x; intro _)
    | (extract_lets +onlyGivenNames x; clear_value x)
    | extract_lets +onlyGivenNames x
    | simp -zeta -beta -eta -iota -proj -decide only [Rel.upd]
    | dsimp -zeta only
    | with_reducible refine Rel.ite ?_ ?_

theorem execResetRelease_good (bootSel : ℕ) (cascPos : ℕ) (pairRole : Bool) (s : State) : Good s (execResetRelease bootSel cascPos pairRole s) := by
  unfold execResetRelease
  repeat' first
    | with_reducible exact Rel.refl _
    | with_reducible assumption
    | exact Good.fault _ _
    | with_reducible refine Good.next ?_
    | with_reducible refine Good.done ?_
    | with_reducible refine (State.release__still ..).into ?_
    | simp -zeta -beta -eta -iota -proj -decide only [Rel.upd]
    | dsimp -zeta only
    | with_reducible refine Rel.ite ?_ ?_
    | with_reducible refine Good.ite ?_ ?_

theorem execPllLock_good (s : State) : Good s (execPllLock s) := by
  unfold execPllLock
  repeat' first
    | with_reducible exact Rel.refl _
    | with_reducible assumption
    | exact Good.fault _ _
    | with_reducible refine Good.next ?_
    | with_reducible refine Good.done ?_
    | with_reducible refine (State.setFld_still ..).into ?_
    | with_reducible refine (State.goRunning_still ..).into ?_
    | (extract_lets +onlyGivenNames x; with_reducible refine Good.cut (x := ?y) ?_ ?_; (case y => apply x); subst x; rotate_left; intro _)
    | (extract_lets +onlyGivenNames x)
    | extract_lets +onlyGivenNames x
    | simp -zeta -beta -eta -iota -proj -decide only [Rel.upd]
    | dsimp -zeta only
    | with_reducible refine Rel.ite ?_ ?_
    | with_reducible refine Good.ite ?_ ?_
    | split

theorem execPor_good (s : State) : Good s (execPor s) := by
  unfold execPor
  repeat' first
    | with_reducible exact Rel.refl _
    | with_reducible assumption
    | exact Good.fault _ _
    | with_reducible refine Good.next ?_
    | with_reducible refine Good.done ?_
    | with_reducible refine (State.porEpoch_still ..).into ?_
    | with_reducible refine (State.dieReset_still ..).into ?_

theorem execPinReset_good (s : State) : Good s (execPinReset s) := by
  unfold execPinReset
  repeat' first
    | with_reducible exact Rel.refl _
    | with_reducible assumption
    | exact Good.fault _ _
    | with_reducible refine Good.next ?_
    | with_reducible refine Good.done ?_
    | with_reducible refine (State.dieReset_still ..).into ?_
    | (extract_lets +onlyGivenNames x)
    | extract_lets +onlyGivenNames x
    | simp -zeta -beta -eta -iota -proj -decide only [Rel.upd]

theorem execSoftReset_good (s : State) : Good s (execSoftReset s) := by
  unfold execSoftReset
  repeat' first
    | with_reducible exact Rel.refl _
    | with_reducible assumption
    | exact Good.fault _ _
    | with_reducible refine Good.next ?_
    | with_reducible refine Good.done ?_
    | with_reducible refine (State.dieReset_still ..).into ?_
    | simp -zeta -beta -eta -iota -proj -decide only [Rel.upd]
    | dsimp -zeta only
    | with_reducible refine Rel.ite ?_ ?_
    | with_reducible refine Good.ite ?_ ?_

theorem execClockReset_good (s : State) : Good s (execClockReset s) := by
  unfold execClockReset
  repeat' first
    | with_reducible exact Rel.refl _
    | with_reducible assumption
    | exact Good.fault _ _
    | with_reducible refine Good.next ?_
    | with_reducible refine Good.done ?_
    | with_reducible refine (State.dieReset_still ..).into ?_
    | (extract_lets +onlyGivenNames x; with_reducible refine Good.cut (x := ?y) ?_ ?_; (case y => apply x); subst x; rotate_left; intro _)
    | (extract_lets +onlyGivenNames x)
    | extract_lets +onlyGivenNames x
    | simp -zeta -beta -eta -iota -proj -decide only [Rel.upd]
    | dsimp -zeta only
    | with_reducible refine Rel.ite ?_ ?_
    | with_reducible refine Good.ite ?_ ?_

theorem execXinStop_good (s : State) : Good s (execXinStop s) := by
  unfold execXinStop
  repeat' first
    | with_reducible exact Rel.refl _
    | with_reducible assumption
    | exact Good.fault _ _
    | with_reducible refine Good.next ?_
    | with_reducible refine Good.done ?_
    | with_reducible refine (State.dieReset_still ..).into ?_
    | (extract_lets +onlyGivenNames x)
    | extract_lets +onlyGivenNames x
    | simp -zeta -beta -eta -iota -proj -decide only [Rel.upd]

theorem execXinReturn_good (s : State) : Good s (execXinReturn s) := by
  unfold execXinReturn
  repeat' first
    | with_reducible exact Rel.refl _
    | with_reducible assumption
    | exact Good.fault _ _
    | with_reducible refine Good.next ?_
    | with_reducible refine Good.done ?_
    | (extract_lets +onlyGivenNames x)
    | extract_lets +onlyGivenNames x
    | simp -zeta -beta -eta -iota -proj -decide only [Rel.upd]

theorem execDebugReset_good (s : State) : Good s (execDebugReset s) := by
  unfold execDebugReset
  repeat' first
    | with_reducible exact Rel.refl _
    | with_reducible assumption
    | exact Good.fault _ _
    | with_reducible refine Good.next ?_
    | with_reducible refine Good.done ?_
    | with_reducible refine (State.dieReset_still ..).into ?_
    | simp -zeta -beta -eta -iota -proj -decide only [Rel.upd]
    | dsimp -zeta only
    | with_reducible refine Rel.ite ?_ ?_
    | with_reducible refine Good.ite ?_ ?_

theorem execSerdesPllLoss_good (lost : ℕ) (s : State) : Good s (execSerdesPllLoss lost s) := by
  unfold execSerdesPllLoss
  repeat' first
    | with_reducible exact Rel.refl _
    | with_reducible assumption
    | exact Good.fault _ _
    | with_reducible refine Good.next ?_
    | with_reducible refine Good.done ?_
    | with_reducible refine (State.setReg_still ..).into ?_
    | with_reducible refine Rel.each (fun t x => ?_) ?_
    | with_reducible refine (State.clrBit_still ..).into ?_
    | with_reducible refine (State.linkLoss_still ..).into ?_
    | with_reducible refine (State.ringLoss_still ..).into ?_
    | with_reducible refine (State.valeOff_still ..).into ?_
    | (extract_lets +onlyGivenNames x)
    | extract_lets +onlyGivenNames x
    | simp -zeta -beta -eta -iota -proj -decide only [Rel.upd]
    | dsimp -zeta only
    | with_reducible refine Rel.ite ?_ ?_

theorem execSpllLock_good (good : ℕ) (s : State) : Good s (execSpllLock good s) := by
  unfold execSpllLock
  repeat' first
    | with_reducible exact Rel.refl _
    | with_reducible assumption
    | exact Good.fault _ _
    | with_reducible refine Good.next ?_
    | with_reducible refine Good.done ?_
    | with_reducible refine Rel.each (fun t x => ?_) ?_
    | with_reducible refine (State.setBit_still ..).into ?_
    | with_reducible refine (State.optionalVales_still ..).into ?_
    | (extract_lets +onlyGivenNames x)
    | extract_lets +onlyGivenNames x
    | simp -zeta -beta -eta -iota -proj -decide only [Rel.upd]
    | dsimp -zeta only
    | with_reducible refine Rel.ite ?_ ?_

theorem execColStall_good (pair : ℕ) (dir : Bool) (s : State) : Good s (execColStall pair dir s) := by
  unfold execColStall
  repeat' first
    | with_reducible exact Rel.refl _
    | with_reducible assumption
    | exact Good.fault _ _
    | with_reducible refine Good.next ?_
    | with_reducible refine Good.done ?_
    | with_reducible refine (State.setFld_still ..).into ?_
    | simp -zeta -beta -eta -iota -proj -decide only [Rel.upd]
    | dsimp -zeta only
    | with_reducible refine Rel.ite ?_ ?_
    | with_reducible refine Good.ite ?_ ?_

theorem execColStallClear_good (s : State) : Good s (execColStallClear s) := by
  unfold execColStallClear
  repeat' first
    | with_reducible exact Rel.refl _
    | with_reducible assumption
    | exact Good.fault _ _
    | with_reducible refine Good.next ?_
    | with_reducible refine Good.done ?_
    | with_reducible refine (State.setFld_still ..).into ?_

theorem State.retWrite_still (s : State) (o : ℕ) (bs : List Byte) : Still s (State.retWrite s o bs) := by
  unfold State.retWrite
  repeat' first
    | with_reducible exact Rel.refl _
    | with_reducible assumption
    | with_reducible refine Rel.each (fun t x => ?_) ?_
    | with_reducible refine (State.setRet_still ..).into ?_
    | simp -zeta -beta -eta -iota -proj -decide only [Rel.upd]
    | dsimp -zeta only
    | with_reducible refine Rel.ite ?_ ?_

theorem execRetainedStoreAccess_good (s : State) : Good s (execRetainedStoreAccess s) := by
  unfold execRetainedStoreAccess
  repeat' first
    | with_reducible exact Rel.refl _
    | with_reducible assumption
    | exact Good.fault _ _
    | with_reducible refine Good.next ?_
    | with_reducible refine Good.done ?_
    | with_reducible refine (State.pmc_still ..).into ?_
    | with_reducible refine (State.retWrite_still ..).into ?_
    | (extract_lets +onlyGivenNames x; with_reducible refine Good.cut (x := ?y) ?_ ?_; (case y => apply x); subst x; rotate_left; clear_value x; intro _)
    | (extract_lets +onlyGivenNames x; with_reducible refine Good.cutG (x := x) (fun _ _ _ _ => ?_) ?_; subst x; rotate_left; clear_value x; intro _)
    | (extract_lets +onlyGivenNames x; clear_value x)
    | extract_lets +onlyGivenNames x
    | with_reducible apply_assumption -exfalso -symm
    | simp -zeta -beta -eta -iota -proj -decide only [Rel.upd]
    | dsimp -zeta only
    | with_reducible refine Rel.ite ?_ ?_
    | with_reducible refine Good.ite ?_ ?_
    | split

theorem execTickClr_good (s : State) : Good s (execTickClr s) := by
  unfold execTickClr
  repeat' first
    | with_reducible exact Rel.refl _
    | with_reducible assumption
    | exact Good.fault _ _
    | with_reducible refine Good.next ?_
    | with_reducible refine Good.done ?_
    | with_reducible refine (State.clrRegs_still ..).into ?_

end Sys2Proof.Machine
end

