-- ==== Sys2Proof/Laws/KeepPowerFail.lean ====
section
/-!
SUPPORT. Laws/KeepPowerFail.lean: what the operations of Machine/PowerFail.lean keep.
-/

namespace Sys2Proof.Machine

theorem State.pfailReset_still (s : State) : Still s (State.pfailReset s) := by
  unfold State.pfailReset
  repeat' first
    | with_reducible exact Rel.refl _
    | with_reducible assumption
    | with_reducible refine (State.incFld_still ..).into ?_
    | with_reducible refine (State.dieReset_still ..).into ?_

theorem State.pfOutputs_keep (s : State) : Keep s (State.pfOutputs s) := by
  unfold State.pfOutputs
  repeat' first
    | with_reducible exact Rel.refl _
    | with_reducible assumption
    | with_reducible refine (State.driveAll_still ..).into ?_
    | with_reducible refine Rel.each (fun t x => ?_) ?_
    | with_reducible refine (State.holdOut_keep ..).into ?_

theorem State.pfailRaise_keep (s : State) : Keep s (State.pfailRaise s) := by
  unfold State.pfailRaise
  repeat' first
    | with_reducible exact Rel.refl _
    | with_reducible assumption
    | with_reducible refine (State.setFld_still ..).into ?_
    | with_reducible refine (State.abandonTest_still ..).into ?_
    | with_reducible refine (State.pfOutputs_keep ..).into ?_
    | with_reducible refine (State.motPowerFail_still ..).into ?_
    | with_reducible refine (State.mdwPowerFail_still ..).into ?_
    | with_reducible refine (State.canPowerFail_still ..).into ?_
    | with_reducible refine (State.rioPowerFail_still ..).into ?_
    | with_reducible refine (State.pfailReset_still ..).into ?_
    | (extract_lets +onlyGivenNames x; with_reducible refine Rel.cut (x := ?y) ?_ ?_; (case y => apply x); subst x; rotate_left; clear_value x; intro _)
    | extract_lets +onlyGivenNames x
    | simp -zeta -beta -eta -iota -proj -decide only [Keep.upd]
    | dsimp -zeta only
    | with_reducible refine Rel.ite ?_ ?_

theorem execPfailAccept_good (s : State) : Good s (execPfailAccept s) := by
  unfold execPfailAccept
  repeat' first
    | with_reducible exact Rel.refl _
    | with_reducible assumption
    | exact Rel.weak (by with_reducible assumption)
    | exact Good.fault _ _
    | with_reducible refine Good.next ?_
    | with_reducible refine Good.done ?_
    | with_reducible refine (State.pfailReset_still ..).into ?_
    | with_reducible refine (State.done_good ..).into ?_
    | with_reducible refine (State.pfailRaise_keep ..).into ?_
    | (extract_lets +onlyGivenNames x; with_reducible refine Good.cut (x := ?y) ?_ ?_; (case y => apply x); (focus subst x; repeat' first | with_reducible exact Rel.refl _ | with_reducible assumption | with_reducible refine (State.pfailReset_still ..).into ?_ | with_reducible refine (State.pfailRaise_keep ..).into ?_ | (extract_lets +onlyGivenNames x; with_reducible refine Rel.cut (x := ?y) ?_ ?_; (case y => apply x); subst x; rotate_left; clear_value x; intro _) | (extract_lets +onlyGivenNames x; clear_value x) | extract_lets +onlyGivenNames x | simp -zeta -beta -eta -iota -proj -decide only [Rel.upd] | dsimp -zeta only | with_reducible refine Rel.ite ?_ ?_ | split); clear_value x; intro _)
    | (extract_lets +onlyGivenNames x; with_reducible refine Good.cutK (x := ?y) ?_ ?_; (case y => apply x); subst x; rotate_left; clear_value x; intro _)
    | (extract_lets +onlyGivenNames x; with_reducible refine Rel.cut (x := ?y) ?_ ?_; (case y => apply x); subst x; rotate_left; clear_value x; intro _)
    | (extract_lets +onlyGivenNames x; clear_value x)
    | extract_lets +onlyGivenNames x
    | simp -zeta -beta -eta -iota -proj -decide only [Rel.upd]
    | dsimp -zeta only
    | with_reducible refine Rel.ite ?_ ?_
    | with_reducible refine Good.ite ?_ ?_

theorem execPfailRelease_good (bootSel : ℕ) (cascPos : ℕ) (pairRole : Bool) (s : State) : Good s (execPfailRelease bootSel cascPos pairRole s) := by
  unfold execPfailRelease
  repeat' first
    | with_reducible exact Rel.refl _
    | with_reducible assumption
    | exact Good.fault _ _
    | with_reducible refine Good.next ?_
    | with_reducible refine Good.done ?_
    | with_reducible refine (State.release__still ..).into ?_
    | (extract_lets +onlyGivenNames x; with_reducible refine Good.cut (x := ?y) ?_ ?_; (case y => apply x); subst x; rotate_left; clear_value x; intro _)
    | (extract_lets +onlyGivenNames x; clear_value x)
    | extract_lets +onlyGivenNames x
    | simp -zeta -beta -eta -iota -proj -decide only [Rel.upd]
    | dsimp -zeta only
    | with_reducible refine Rel.ite ?_ ?_
    | with_reducible refine Good.ite ?_ ?_

theorem State.pairLines_still (s : State) (ls : List (List Byte)) : Still s (State.pairLines s ls) := by
  unfold State.pairLines
  repeat' first
    | with_reducible exact Rel.refl _
    | with_reducible assumption
    | with_reducible refine Rel.each (fun t x => ?_) ?_
    | with_reducible refine (State.pairSend_still ..).into ?_
    | simp -zeta -beta -eta -iota -proj -decide only [Rel.upd]
    | dsimp -zeta only
    | with_reducible refine Rel.ite ?_ ?_

theorem execJournalRecordDone_good (unstable : List ℕ) (s : State) : Good s (execJournalRecordDone unstable s) := by
  unfold execJournalRecordDone
  repeat' first
    | with_reducible exact Rel.refl _
    | with_reducible assumption
    | exact Good.fault _ _
    | with_reducible refine Good.next ?_
    | with_reducible refine Good.done ?_
    | with_reducible refine (State.jrnRecord_still ..).into ?_
    | with_reducible refine (State.pairLines_still ..).into ?_
    | with_reducible refine (State.pfailReset_still ..).into ?_
    | (extract_lets +onlyGivenNames x; with_reducible refine Good.cut (x := ?y) ?_ ?_; (case y => apply x); subst x; rotate_left; clear_value x; intro _)
    | (extract_lets +onlyGivenNames x; clear_value x)
    | extract_lets +onlyGivenNames x
    | simp -zeta -beta -eta -iota -proj -decide only [Rel.upd]
    | dsimp -zeta only
    | with_reducible refine Rel.ite ?_ ?_
    | with_reducible refine Good.ite ?_ ?_
    | split

end Sys2Proof.Machine
end

