-- ==== Sys2Proof/Laws/KeepBoot.lean ====
section
/-!
SUPPORT. Laws/KeepBoot.lean: what the operations of Machine/Boot.lean keep.
-/

namespace Sys2Proof.Machine

theorem State.loaderStop_still (s : State) (code : ℕ) (item : ℕ) : Still s (State.loaderStop s code item) := by
  unfold State.loaderStop
  repeat' first
    | with_reducible exact Rel.refl _
    | with_reducible assumption
    | with_reducible refine (State.setFld_still ..).into ?_

theorem State.takeCopy_still (s : State) (n : ℕ) (c : CopyInfo) : Still s (State.takeCopy s n c) := by
  unfold State.takeCopy
  repeat' first
    | with_reducible exact Rel.refl _
    | with_reducible assumption
    | with_reducible refine (State.clrReg_still ..).into ?_
    | with_reducible refine (State.setFld_still ..).into ?_
    | (extract_lets +onlyGivenNames x)
    | extract_lets +onlyGivenNames x
    | simp -zeta -beta -eta -iota -proj -decide only [Rel.upd]

theorem State.copySelect_still (s : State) : Still s (State.copySelect s) := by
  unfold State.copySelect
  repeat' first
    | with_reducible exact Rel.refl _
    | with_reducible assumption
    | with_reducible refine (State.setFld_still ..).into ?_
    | with_reducible refine (State.clrRegs_still ..).into ?_
    | with_reducible refine (State.takeCopy_still ..).into ?_
    | with_reducible refine (State.loaderStop_still ..).into ?_
    | (extract_lets +onlyGivenNames x; with_reducible refine Rel.cut (x := ?y) ?_ ?_; (case y => apply x); subst x; rotate_left; clear_value x; intro _)
    | (extract_lets +onlyGivenNames x; clear_value x)
    | extract_lets +onlyGivenNames x
    | simp -zeta -beta -eta -iota -proj -decide only [Rel.upd]
    | dsimp -zeta only
    | with_reducible refine Rel.ite ?_ ?_
    | split

theorem execDirectoryRead_good (first : List Byte) (second : List Byte) (s : State) : Good s (execDirectoryRead first second s) := by
  unfold execDirectoryRead
  repeat' first
    | with_reducible exact Rel.refl _
    | with_reducible assumption
    | exact Good.fault _ _
    | with_reducible refine Good.next ?_
    | with_reducible refine Good.done ?_
    | with_reducible refine (State.loaderStop_still ..).into ?_
    | with_reducible refine (State.done_good ..).into ?_
    | with_reducible refine (State.undef_keep ..).into ?_
    | with_reducible refine (State.setFld_still ..).into ?_
    | with_reducible refine (State.copySelect_still ..).into ?_
    | (extract_lets +onlyGivenNames x; with_reducible refine Good.cut (x := ?y) ?_ ?_; (case y => apply x); subst x; rotate_left; clear_value x; intro _)
    | (extract_lets +onlyGivenNames x; clear_value x)
    | extract_lets +onlyGivenNames x
    | simp -zeta -beta -eta -iota -proj -decide only [Rel.upd]
    | dsimp -zeta only
    | with_reducible refine Rel.ite ?_ ?_
    | with_reducible refine Good.ite ?_ ?_
    | split

theorem execCopyVerify_good (copy : ℕ) (data : CopyBytes) (s : State) : Good s (execCopyVerify copy data s) := by
  unfold execCopyVerify
  repeat' first
    | with_reducible exact Rel.refl _
    | with_reducible assumption
    | exact Good.fault _ _
    | with_reducible refine Good.next ?_
    | with_reducible refine Good.done ?_
    | with_reducible refine (State.setFld_still ..).into ?_
    | with_reducible refine (State.copySelect_still ..).into ?_
    | (extract_lets +onlyGivenNames x; with_reducible refine Good.cut (x := ?y) ?_ ?_; (case y => apply x); subst x; rotate_left; clear_value x; intro _)
    | (extract_lets +onlyGivenNames x; clear_value x)
    | extract_lets +onlyGivenNames x
    | simp -zeta -beta -eta -iota -proj -decide only [Rel.upd]
    | dsimp -zeta only
    | with_reducible refine Rel.ite ?_ ?_
    | with_reducible refine Good.ite ?_ ?_

theorem execBootSelect_good (copy : ℕ) (s : State) : Good s (execBootSelect copy s) := by
  unfold execBootSelect
  repeat' first
    | with_reducible exact Rel.refl _
    | with_reducible assumption
    | exact Good.fault _ _
    | with_reducible refine Good.next ?_
    | with_reducible refine Good.done ?_
    | with_reducible refine (State.takeCopy_still ..).into ?_
    | simp -zeta -beta -eta -iota -proj -decide only [Rel.upd]
    | dsimp -zeta only
    | with_reducible refine Rel.ite ?_ ?_
    | with_reducible refine Good.ite ?_ ?_
    | split

theorem execBootLoadHost_good (s : State) : Good s (execBootLoadHost s) := by
  unfold execBootLoadHost
  repeat' first
    | with_reducible exact Rel.refl _
    | with_reducible assumption
    | exact Good.fault _ _
    | with_reducible refine Good.next ?_
    | with_reducible refine Good.done ?_
    | with_reducible refine (State.setFld_still ..).into ?_
    | with_reducible refine (State.takeCopy_still ..).into ?_
    | with_reducible refine (State.loaderStop_still ..).into ?_
    | (extract_lets +onlyGivenNames x)
    | extract_lets +onlyGivenNames x
    | simp -zeta -beta -eta -iota -proj -decide only [Rel.upd]
    | dsimp -zeta only
    | with_reducible refine Rel.ite ?_ ?_
    | with_reducible refine Good.ite ?_ ?_
    | split

theorem execBootRetry_good (s : State) : Good s (execBootRetry s) := by
  unfold execBootRetry
  repeat' first
    | with_reducible exact Rel.refl _
    | with_reducible assumption
    | exact Good.fault _ _
    | with_reducible refine Good.next ?_
    | with_reducible refine Good.done ?_
    | with_reducible refine (State.loaderStart_still ..).into ?_
    | simp -zeta -beta -eta -iota -proj -decide only [Rel.upd]
    | dsimp -zeta only
    | with_reducible refine Rel.ite ?_ ?_
    | with_reducible refine Good.ite ?_ ?_

theorem State.loadPair_still (s : State) (p : ℕ × ℕ) : Still s (State.loadPair s p) := by
  unfold State.loadPair
  repeat' first
    | with_reducible exact Rel.refl _
    | with_reducible assumption
    | with_reducible refine Rel.each (fun t x => ?_) ?_
    | with_reducible refine (State.setFld_still ..).into ?_
    | simp -zeta -beta -eta -iota -proj -decide only [Rel.upd]
    | dsimp -zeta only
    | with_reducible refine Rel.ite ?_ ?_
    | split

theorem State.loadPlain_still (s : State) (o : ℕ) (bs : List Byte) : Still s (State.loadPlain s o bs) := by
  unfold State.loadPlain
  repeat' first
    | with_reducible exact Rel.refl _
    | with_reducible assumption
    | with_reducible refine (State.setPlain_still ..).into ?_
    | with_reducible refine (State.setFld_still ..).into ?_
    | with_reducible refine (State.incFld_still ..).into ?_
    | (extract_lets +onlyGivenNames x; with_reducible refine Rel.cut (x := ?y) ?_ ?_; (case y => apply x); subst x; rotate_left; clear_value x; intro _)
    | extract_lets +onlyGivenNames x
    | simp -zeta -beta -eta -iota -proj -decide only [Rel.upd]
    | dsimp -zeta only
    | with_reducible refine Rel.ite ?_ ?_

theorem State.setBankProg_still (s : State) (b : Bool) (p : LogProg) : Still s (State.setBankProg s b p) := by
  unfold State.setBankProg
  repeat' first
    | with_reducible exact Rel.refl _
    | with_reducible assumption
    | (extract_lets +onlyGivenNames x)
    | extract_lets +onlyGivenNames x
    | simp -zeta -beta -eta -iota -proj -decide only [Rel.upd]
    | dsimp -zeta only
    | with_reducible refine Rel.ite ?_ ?_

theorem State.putBank_still (s : State) (b : Bool) (a : ℕ) (w : ℕ) : Still s (State.putBank s b a w) := by
  unfold State.putBank
  repeat' first
    | with_reducible exact Rel.refl _
    | with_reducible assumption
    | (extract_lets +onlyGivenNames x)
    | extract_lets +onlyGivenNames x
    | simp -zeta -beta -eta -iota -proj -decide only [Rel.upd]
    | dsimp -zeta only
    | with_reducible refine Rel.ite ?_ ?_

theorem State.loadLocal_still (s : State) (b : Bool) (dest : ℕ) (bs : List Byte) (x : ImgExtra) :
    StillO s (s.loadLocal b dest bs x) := by
  have lanes : ∀ (k cap lo : ℕ) (put : LaneSt → ℕ → ℕ → LaneSt), StillO s
      (if (8 ≤ bitsOf dest 24 4 && bitsOf dest 24 4 < 15) || bitsOf dest 0 24 < lo ||
          cap < bitsOf dest 0 24 + (unitsOf k bs).length then none
       else some (s.each (s.laneSel (bitsOf dest 24 4)) fun t n => t.modLane n fun v =>
         (unitsOf k bs).zipIdx.foldl (fun v p => put v (bitsOf dest 0 24 + p.2) p.1) v)) := by
    intro k cap lo put t ht
    split at ht
    · cases ht
    · cases ht
      exact Rel.each (fun _ _ => State.modLane_still ..) (Rel.refl _)
  unfold State.loadLocal
  dsimp only
  split
  · exact lanes 4 0x1000 0x600 fun v i w => { v with prog := Sparse.set (fun _ => 0) v.prog i (BitVec.ofNat 32 w) }
  · exact lanes 2 32768 0 fun v i w => { v with data := Sparse.set (fun _ => 0) v.data i (BitVec.ofNat 16 w) }
  · exact lanes 2 16384 0 fun v i w => { v with coef := Sparse.set (fun _ => 0) v.coef i (BitVec.ofNat 16 w) }
  · intro t ht
    split at ht
    · cases ht
    · cases ht
      exact (State.setBankProg_still ..).into (Rel.each (fun _ _ => State.putBank_still ..) (Rel.refl _))
  · intro t ht
    split at ht
    · cases ht
    · cases ht
      exact State.vmPut_still ..
  · intro t ht
    split at ht
    · cases ht
      exact State.setBankProg_still ..
    · cases ht
      exact Rel.refl s
  · intro t ht
    cases ht

theorem State.loadSect_still (s : State) (host : Bool) (b : List Byte) (x : ImgExtra) (i : ℕ) (t : Sect) :
    KeepE s (s.loadSect host b x i t) := by
  unfold State.loadSect
  dsimp only
  intro u hu
  split at hu
  · cases hu
  · split at hu
    · cases hu; exact Rel.refl s
    · cases hu; exact Rel.refl s
    · cases hu; exact Rel.refl s
    · cases hu; exact Rel.each (fun _ _ => Rel.weak (State.loadPair_still ..)) (Rel.refl _)
    · split at hu
      · cases hu
      · cases hu; exact Rel.weak (State.loadPlain_still ..)
    · split at hu
      · cases hu
      · cases hu; exact Rel.weak (State.loadPlain_still ..)
    · split at hu
      · rename_i h; cases hu; exact Rel.weak (State.loadLocal_still _ _ _ _ _ _ h)
      · cases hu
    · split at hu
      · cases hu
      · cases hu; exact Rel.refl s
    · split at hu
      · cases hu; exact Rel.refl s
      · cases hu

theorem State.loadExtra_still (s : State) (change : Bool) (x : ImgExtra) : Still s (State.loadExtra s change x) := by
  unfold State.loadExtra
  repeat' first
    | with_reducible exact Rel.refl _
    | with_reducible assumption
    | (extract_lets +onlyGivenNames x; with_reducible refine Rel.cut (x := ?y) ?_ ?_; (case y => apply x); subst x; rotate_left; intro _)
    | (extract_lets +onlyGivenNames x)
    | extract_lets +onlyGivenNames x
    | simp -zeta -beta -eta -iota -proj -decide only [Rel.upd]
    | dsimp -zeta only
    | with_reducible refine Rel.ite ?_ ?_

theorem State.loadOne_keep (s : State) (host : Bool) (b : List Byte) (x : ImgExtra) : KeepE s (s.loadOne host b x) := by
  intro u hu
  unfold State.loadOne at hu
  split at hu
  · cases hu; exact State.undef_keep ..
  · split at hu
    · cases hu
    · split at hu
      · rename_i h
        cases hu
        exact (State.loadExtra_still ..).into (KeepE.foldlM (fun _ _ => State.loadSect_still _ _ _ _ _ _) _ h)
      · cases hu

theorem State.loadAll_keep (s : State) (host : Bool) (bs : List (List Byte)) (xs : List ImgExtra) :
    KeepE s (s.loadAll host bs xs) := KeepE.foldlM fun _ _ => State.loadOne_keep _ _ _ _

theorem wf_split (m : List Host.Cell) (g : ℕ) (h : Memory.wf m = true) :
    Memory.wf (m.filter (fun c => c.1 < g + 0x2000) ++ ((m.filter fun c => g ≤ c.1 && c.1 < g + 0x2000).map fun c => (c.1 + 0x2000, c.2)) ++
      m.filter fun c => g + 0x4000 ≤ c.1) = true := by
  obtain ⟨hp, hv⟩ := (wf_iff plainInit m).mp h
  refine (wf_iff plainInit _).mpr ⟨?_, ?_⟩
  · rw [List.pairwise_append, List.pairwise_append]
    refine ⟨⟨hp.filter _, ?_, ?_⟩, hp.filter _, ?_⟩
    · exact (hp.filter _).map _ fun a b hab => by simpa using hab
    · intro a ha b hb
      simp only [List.mem_filter, List.mem_map, decide_eq_true_eq, Bool.and_eq_true] at ha hb
      obtain ⟨c, hc, rfl⟩ := hb
      have := ha.2
      have := hc.2.1
      simp only
      omega
    · intro a ha b hb
      simp only [List.mem_append, List.mem_filter, List.mem_map, decide_eq_true_eq, Bool.and_eq_true] at ha hb
      rcases ha with ha | ⟨c, hc, rfl⟩
      · have := ha.2
        have := hb.2
        omega
      · have := hc.2.2
        have := hb.2
        simp only
        omega
  · intro p hm
    simp only [List.mem_append, List.mem_filter, List.mem_map] at hm
    rcases hm with (hm | ⟨c, hc, rfl⟩) | hm
    · exact hv p hm.1
    · exact hv c hc.1
    · exact hv p hm.1

theorem State.loadGroups_still (s : State) : Still s s.loadGroups := by
  unfold State.loadGroups
  refine ⟨⟨fun h => ?_, rfl⟩, fun _ => rfl⟩
  simp only [State.canonical, Bool.and_eq_true] at *
  exact ⟨⟨wf_split _ _ h.1.1, h.1.2⟩, h.2⟩

theorem State.clearUnused_still (s : State) : Still s s.clearUnused := by
  unfold State.clearUnused
  refine ⟨⟨fun h => ?_, rfl⟩, fun _ => rfl⟩
  simp only [State.canonical, Bool.and_eq_true] at *
  exact ⟨⟨wf_filter _ _ _ h.1.1, h.1.2⟩, h.2⟩

theorem State.snapHead_still (s : State) (n : ℕ) (id : List Byte) : Still s (State.snapHead s n id) := by
  unfold State.snapHead
  repeat' first
    | with_reducible exact Rel.refl _
    | with_reducible assumption
    | with_reducible refine (State.setRet_still ..).into ?_

theorem State.writeSnap_still (s : State) (raw : List (List Byte × Option ℕ)) (id : List Byte) : Still s (State.writeSnap s raw id) := by
  unfold State.writeSnap
  repeat' first
    | with_reducible exact Rel.refl _
    | with_reducible assumption
    | with_reducible refine (State.setFld_still ..).into ?_
    | with_reducible refine (State.snapHead_still ..).into ?_
    | with_reducible refine (State.setRet_still ..).into ?_
    | (extract_lets +onlyGivenNames x)
    | extract_lets +onlyGivenNames x
    | simp -zeta -beta -eta -iota -proj -decide only [Rel.upd]
    | dsimp -zeta only
    | with_reducible refine Rel.ite ?_ ?_

theorem State.offerSafety_still (s : State) (b : List Byte) : Still s (State.offerSafety s b) := by
  unfold State.offerSafety
  repeat' first
    | with_reducible exact Rel.refl _
    | with_reducible assumption
    | with_reducible refine Rel.each (fun t x => ?_) ?_
    | with_reducible refine (State.mbox_still ..).into ?_

theorem State.commitRegs_still (s : State) (digest : List Byte) (chain : ℕ) : Still s (State.commitRegs s digest chain) := by
  unfold State.commitRegs
  repeat' first
    | with_reducible exact Rel.refl _
    | with_reducible assumption
    | with_reducible refine (State.setFld_still ..).into ?_
    | with_reducible refine Rel.each (fun t x => ?_) ?_
    | with_reducible refine (State.setReg_still ..).into ?_

theorem State.commitUnits_keep (s : State) (cold : Bool) : Keep s (State.commitUnits s cold) := by
  unfold State.commitUnits
  repeat' first
    | with_reducible exact Rel.refl _
    | with_reducible assumption
    | with_reducible refine (State.optionalVales_still ..).into ?_
    | with_reducible refine Rel.each (fun t x => ?_) ?_
    | with_reducible refine (State.valeOn_still ..).into ?_
    | with_reducible refine (State.setBankProg_still ..).into ?_
    | with_reducible refine (State.posCommit_still ..).into ?_
    | with_reducible refine (State.motCommit_still ..).into ?_
    | with_reducible refine (State.adcCommit_still ..).into ?_
    | with_reducible refine (State.logCommit_still ..).into ?_
    | with_reducible refine (State.jrnDecide_still ..).into ?_
    | with_reducible refine (State.mdwCommit_still ..).into ?_
    | with_reducible refine (State.canCommit_keep ..).into ?_

theorem State.commitImage_keep (s : State) (imgs : List (Img × Option ℕ)) (xs : List ImgExtra) (cold : Bool) : Keep s (State.commitImage s imgs xs cold) := by
  unfold State.commitImage
  repeat' first
    | with_reducible exact Rel.refl _
    | with_reducible assumption
    | with_reducible refine (State.clearUnused_still ..).into ?_
    | with_reducible refine (State.loadGroups_still ..).into ?_
    | with_reducible refine (State.offerSafety_still ..).into ?_
    | with_reducible refine (State.optionalVales_still ..).into ?_
    | with_reducible refine (State.commitUnits_keep ..).into ?_
    | with_reducible refine (State.writeSnap_still ..).into ?_
    | with_reducible refine (State.commitRegs_still ..).into ?_
    | (extract_lets +onlyGivenNames x; with_reducible refine Rel.cut (x := ?y) ?_ ?_; (case y => apply x); subst x; rotate_left; intro _)
    | (extract_lets +onlyGivenNames x)
    | extract_lets +onlyGivenNames x
    | simp -zeta -beta -eta -iota -proj -decide only [Keep.upd]
    | dsimp -zeta only
    | with_reducible refine Rel.ite ?_ ?_
    | split

theorem State.loadCommit_keep (s : State) (imgs : List (Img × Option ℕ)) (xs : List ImgExtra) (cold : Bool) :
    Keep s (s.loadCommit imgs xs cold) := by
  unfold State.loadCommit
  dsimp only
  split
  · exact Rel.weak (State.loaderStop_still ..)
  · rename_i t ht
    have ht := State.loadAll_keep _ _ _ _ _ ht
    split
    · exact ht
    · split
      · exact (State.commitImage_keep ..).into ht
      · exact Rel.weak (State.loaderStop_still ..)

theorem execLoadPass_good (data : CopyBytes) (extra : List ImgExtra) (s : State) : Good s (execLoadPass data extra s) := by
  unfold execLoadPass
  repeat' first
    | with_reducible exact Rel.refl _
    | with_reducible assumption
    | exact Good.fault _ _
    | with_reducible refine Good.next ?_
    | with_reducible refine Good.done ?_
    | with_reducible refine (State.done_good ..).into ?_
    | with_reducible refine (State.loadCommit_keep ..).into ?_
    | with_reducible refine (State.loaderStop_still ..).into ?_
    | (extract_lets +onlyGivenNames x)
    | extract_lets +onlyGivenNames x
    | simp -zeta -beta -eta -iota -proj -decide only [Rel.upd]
    | dsimp -zeta only
    | with_reducible refine Rel.ite ?_ ?_
    | with_reducible refine Good.ite ?_ ?_
    | split

theorem State.hibRelease_still (s : State) (cause : ℕ) : Still s (State.hibRelease s cause) := by
  unfold State.hibRelease
  repeat' first
    | with_reducible exact Rel.refl _
    | with_reducible assumption
    | with_reducible refine (State.setBit_still ..).into ?_
    | with_reducible refine (State.setFld_still ..).into ?_
    | with_reducible refine (State.goRunning_still ..).into ?_
    | (extract_lets +onlyGivenNames x)
    | extract_lets +onlyGivenNames x
    | simp -zeta -beta -eta -iota -proj -decide only [Rel.upd]

theorem execHibWake_good (extra : List ImgExtra) (s : State) : Good s (execHibWake extra s) := by
  unfold execHibWake
  repeat' first
    | with_reducible exact Rel.refl _
    | with_reducible assumption
    | exact Rel.weak (by with_reducible assumption)
    | exact Good.fault _ _
    | with_reducible refine Good.next ?_
    | with_reducible refine Good.done ?_
    | with_reducible refine (State.hibRelease_still ..).into ?_
    | with_reducible refine (State.loadCommit_keep ..).into ?_
    | with_reducible refine (State.clrReg_still ..).into ?_
    | with_reducible refine (State.done_good ..).into ?_
    | (extract_lets +onlyGivenNames x; with_reducible refine Good.cut (x := ?y) ?_ ?_; (case y => apply x); (focus subst x; repeat' first | with_reducible exact Rel.refl _ | with_reducible assumption | with_reducible refine (State.hibRelease_still ..).into ?_ | with_reducible refine (State.loadCommit_keep ..).into ?_ | with_reducible refine (State.clrReg_still ..).into ?_ | (extract_lets +onlyGivenNames x; with_reducible refine Rel.cut (x := ?y) ?_ ?_; (case y => apply x); subst x; rotate_left; clear_value x; intro _) | (extract_lets +onlyGivenNames x; clear_value x) | extract_lets +onlyGivenNames x | simp -zeta -beta -eta -iota -proj -decide only [Rel.upd] | dsimp -zeta only | with_reducible refine Rel.ite ?_ ?_ | split); clear_value x; intro _)
    | (extract_lets +onlyGivenNames x; with_reducible refine Good.cutK (x := ?y) ?_ ?_; (case y => apply x); subst x; rotate_left; clear_value x; intro _)
    | (extract_lets +onlyGivenNames x; with_reducible refine Rel.cut (x := ?y) ?_ ?_; (case y => apply x); subst x; rotate_left; clear_value x; intro _)
    | (extract_lets +onlyGivenNames x; clear_value x)
    | extract_lets +onlyGivenNames x
    | simp -zeta -beta -eta -iota -proj -decide only [Rel.upd]
    | dsimp -zeta only
    | with_reducible refine Rel.ite ?_ ?_
    | with_reducible refine Good.ite ?_ ?_
    | split

end Sys2Proof.Machine
end

