-- ==== Sys2Proof/Laws/KeepChange.lean ====
section
/-!
SUPPORT. Laws/KeepChange.lean: what the operations of Machine/Change.lean keep.
-/

namespace Sys2Proof.Machine

theorem State.withChange_still (s : State) (b : List Byte) : Still s (State.withChange s b) := by
  unfold State.withChange
  repeat' first
    | with_reducible exact Rel.refl _
    | with_reducible assumption
    | with_reducible refine Rel.each (fun t x => ?_) ?_
    | with_reducible refine (State.loadPair_still ..).into ?_
    | with_reducible refine (State.loadPlain_still ..).into ?_
    | simp -zeta -beta -eta -iota -proj -decide only [Rel.upd]
    | dsimp -zeta only
    | with_reducible refine Rel.ite ?_ ?_
    | split

theorem State.changeRefuse_still (s : State) (e : ℕ × ℕ) : Still s (State.changeRefuse s e) := by
  unfold State.changeRefuse
  repeat' first
    | with_reducible exact Rel.refl _
    | with_reducible assumption
    | with_reducible refine (State.setFld_still ..).into ?_

theorem State.changeAsk_keep (s : State) (b : List Byte) (x : ImgExtra) : Keep s (State.changeAsk s b x).1 := by
  unfold State.changeAsk
  repeat' first
    | with_reducible exact Rel.refl _
    | with_reducible assumption
    | with_reducible refine (State.changeRefuse_still ..).into ?_
    | with_reducible refine (State.undef_keep ..).into ?_
    | with_reducible refine (State.clrReg_still ..).into ?_
    | with_reducible refine (State.setFld_still ..).into ?_
    | (extract_lets +onlyGivenNames x; with_reducible refine Rel.cut (x := ?y) ?_ ?_; (case y => apply x); subst x; rotate_left; clear_value x; intro _)
    | (extract_lets +onlyGivenNames x; clear_value x)
    | extract_lets +onlyGivenNames x
    | simp -zeta -beta -eta -iota -proj -decide only [Keep.upd]
    | dsimp -zeta only
    | with_reducible refine Rel.ite ?_ ?_
    | split

theorem execBootApply_good (extra : ImgExtra) (s : State) : Good s (execBootApply extra s) := by
  unfold execBootApply
  repeat' first
    | with_reducible exact Rel.refl _
    | with_reducible assumption
    | exact Good.fault _ _
    | with_reducible refine Good.next ?_
    | with_reducible refine Good.done ?_
    | with_reducible refine (State.done_good ..).into ?_
    | with_reducible refine (State.changeAsk_keep ..).into ?_
    | with_reducible refine Keep.ofPair (by assumption) (State.changeAsk_keep ..) ?_
    | simp -zeta -beta -eta -iota -proj -decide only [Rel.upd]
    | dsimp -zeta only
    | with_reducible refine Rel.ite ?_ ?_
    | with_reducible refine Good.ite ?_ ?_

theorem State.changeDrop_still (s : State) (code : ℕ) : Still s (State.changeDrop s code) := by
  unfold State.changeDrop
  repeat' first
    | with_reducible exact Rel.refl _
    | with_reducible assumption
    | with_reducible refine (State.changeRefuse_still ..).into ?_
    | with_reducible refine (State.setFld_still ..).into ?_
    | (extract_lets +onlyGivenNames x)
    | extract_lets +onlyGivenNames x
    | simp -zeta -beta -eta -iota -proj -decide only [Rel.upd]

theorem State.snapAppend_still (s : State) (b : List Byte) : Still s (State.snapAppend s b) := by
  unfold State.snapAppend
  repeat' first
    | with_reducible exact Rel.refl _
    | with_reducible assumption
    | with_reducible refine (State.setFld_still ..).into ?_
    | with_reducible refine (State.snapHead_still ..).into ?_
    | with_reducible refine (State.setRet_still ..).into ?_
    | (extract_lets +onlyGivenNames x)
    | extract_lets +onlyGivenNames x
    | simp -zeta -beta -eta -iota -proj -decide only [Rel.upd]
    | dsimp -zeta only
    | with_reducible refine Rel.ite ?_ ?_

theorem State.stageLogic_still (s : State) (b : List Byte) (x : ImgExtra) : Still s (State.stageLogic s b x) := by
  unfold State.stageLogic
  repeat' first
    | with_reducible exact Rel.refl _
    | with_reducible assumption
    | with_reducible refine (State.setBankProg_still ..).into ?_
    | with_reducible refine Rel.each (fun t x => ?_) ?_
    | with_reducible refine StillO.getD (State.loadLocal_still ..) ?_
    | with_reducible refine (State.withChange_still ..).into ?_
    | (extract_lets +onlyGivenNames x; with_reducible refine Rel.cut (x := ?y) ?_ ?_; (case y => apply x); subst x; rotate_left; clear_value x; intro _)
    | (extract_lets +onlyGivenNames x; clear_value x)
    | extract_lets +onlyGivenNames x
    | simp -zeta -beta -eta -iota -proj -decide only [Rel.upd]
    | dsimp -zeta only
    | with_reducible refine Rel.ite ?_ ?_

theorem execChangePersist_good (copies : List (ℕ × CopyBytes)) (s : State) : Good s (execChangePersist copies s) := by
  unfold execChangePersist
  repeat' first
    | with_reducible exact Rel.refl _
    | with_reducible assumption
    | exact Good.fault _ _
    | with_reducible refine Good.next ?_
    | with_reducible refine Good.done ?_
    | with_reducible refine (State.changeDrop_still ..).into ?_
    | with_reducible refine (State.exchAsk_still ..).into ?_
    | with_reducible refine (State.setFld_still ..).into ?_
    | with_reducible refine (State.stageLogic_still ..).into ?_
    | with_reducible refine (State.snapAppend_still ..).into ?_
    | with_reducible refine (State.done_good ..).into ?_
    | (extract_lets +onlyGivenNames x; with_reducible refine Good.cutK (x := ?y) ?_ ?_; (case y => apply x); subst x; rotate_left; clear_value x; intro _)
    | (extract_lets +onlyGivenNames x; clear_value x)
    | extract_lets +onlyGivenNames x
    | simp -zeta -beta -eta -iota -proj -decide only [Rel.upd]
    | dsimp -zeta only
    | with_reducible refine Rel.ite ?_ ?_
    | with_reducible refine Good.ite ?_ ?_
    | split

theorem State.applyPlain_still (s : State) (o : ℕ) (bs : List Byte) : Still s (State.applyPlain s o bs) := by
  unfold State.applyPlain
  repeat' first
    | with_reducible exact Rel.refl _
    | with_reducible assumption
    | with_reducible refine Rel.each (fun t x => ?_) ?_
    | with_reducible refine (State.busWrite_still ..).into ?_
    | (extract_lets +onlyGivenNames x)
    | extract_lets +onlyGivenNames x
    | simp -zeta -beta -eta -iota -proj -decide only [Rel.upd]
    | dsimp -zeta only
    | with_reducible refine Rel.ite ?_ ?_

theorem State.applySections_still (s : State) (b : List Byte) : Still s (State.applySections s b) := by
  unfold State.applySections
  repeat' first
    | with_reducible exact Rel.refl _
    | with_reducible assumption
    | with_reducible refine Rel.each (fun t x => ?_) ?_
    | with_reducible refine (State.loadPair_still ..).into ?_
    | with_reducible refine (State.applyPlain_still ..).into ?_
    | simp -zeta -beta -eta -iota -proj -decide only [Rel.upd]
    | dsimp -zeta only
    | with_reducible refine Rel.ite ?_ ?_
    | split

theorem State.bumpChanged_still (s : State) (old : List (ℕ × List Byte)) : Still s (State.bumpChanged s old) := by
  unfold State.bumpChanged
  repeat' first
    | with_reducible exact Rel.refl _
    | with_reducible assumption
    | with_reducible refine Rel.each (fun t x => ?_) ?_
    | with_reducible refine (State.setLGen_still ..).into ?_
    | simp -zeta -beta -eta -iota -proj -decide only [Rel.upd]
    | dsimp -zeta only
    | with_reducible refine Rel.ite ?_ ?_
    | split

theorem State.snapApplied_still (s : State) (x : ℕ) : Still s (State.snapApplied s x) := by
  unfold State.snapApplied
  repeat' first
    | with_reducible exact Rel.refl _
    | with_reducible assumption
    | with_reducible refine (State.setRet_still ..).into ?_
    | simp -zeta -beta -eta -iota -proj -decide only [Rel.upd]
    | dsimp -zeta only
    | with_reducible refine Rel.ite ?_ ?_

theorem State.changeApply_keep (s : State) (x : ℕ) : Keep s (State.changeApply s x) := by
  unfold State.changeApply
  repeat' first
    | with_reducible exact Rel.refl _
    | with_reducible assumption
    | with_reducible refine (State.loadExtra_still ..).into ?_
    | with_reducible refine (State.applySections_still ..).into ?_
    | with_reducible refine (State.bumpChanged_still ..).into ?_
    | with_reducible refine (State.remapForces_still ..).into ?_
    | with_reducible refine (State.clearUnused_still ..).into ?_
    | with_reducible refine (State.canTable_keep ..).into ?_
    | with_reducible refine (State.motTable_still ..).into ?_
    | with_reducible refine (State.setFld_still ..).into ?_
    | with_reducible refine (State.snapApplied_still ..).into ?_
    | (extract_lets +onlyGivenNames x; with_reducible refine Rel.cut (x := ?y) ?_ ?_; (case y => apply x); subst x; rotate_left; clear_value x; intro _)
    | (extract_lets +onlyGivenNames x; clear_value x)
    | extract_lets +onlyGivenNames x
    | simp -zeta -beta -eta -iota -proj -decide only [Keep.upd]
    | dsimp -zeta only
    | with_reducible refine Rel.ite ?_ ?_
    | split

theorem execExchWindowOpen_good (s : State) : Good s (execExchWindowOpen s) := by
  unfold execExchWindowOpen
  repeat' first
    | with_reducible exact Rel.refl _
    | with_reducible assumption
    | exact Good.fault _ _
    | with_reducible refine Good.next ?_
    | with_reducible refine Good.done ?_
    | with_reducible refine (State.changeApply_keep ..).into ?_
    | with_reducible refine (State.exchOpenAt_still ..).into ?_
    | with_reducible refine (State.done_good ..).into ?_
    | with_reducible refine (State.exchReleases_still ..).into ?_
    | (extract_lets +onlyGivenNames x; with_reducible refine Good.cutK (x := ?y) ?_ ?_; (case y => apply x); subst x; rotate_left; clear_value x; intro _)
    | (extract_lets +onlyGivenNames x; clear_value x)
    | extract_lets +onlyGivenNames x
    | simp -zeta -beta -eta -iota -proj -decide only [Rel.upd]
    | dsimp -zeta only
    | with_reducible refine Rel.ite ?_ ?_
    | with_reducible refine Good.ite ?_ ?_

end Sys2Proof.Machine
end

