-- ==== Sys2Proof/Laws/KeepLive.lean ====
section
/-!
SUPPORT. Laws/KeepLive.lean: what the operations of Machine/Live.lean keep.
-/

namespace Sys2Proof.Machine

theorem execPlainTransaction_good (port : ℕ) (requester : ℕ) (addr : ℕ) (isWrite : Bool) (data : List Byte) (len : ℕ) (s : State) : Good s (execPlainTransaction port requester addr isWrite data len s) := by
  unfold execPlainTransaction
  repeat' first
    | with_reducible exact Rel.refl _
    | with_reducible assumption
    | exact Good.fault _ _
    | with_reducible refine Good.next ?_
    | with_reducible refine Good.done ?_
    | with_reducible refine (State.done_good ..).into ?_
    | with_reducible refine (State.awake_keep (hf := fun t => ?_) ..).into ?_
    | with_reducible refine (State.present_still ..).into ?_
    | (extract_lets +onlyGivenNames x)
    | extract_lets +onlyGivenNames x
    | simp -zeta -beta -eta -iota -proj -decide only [Rel.upd]
    | dsimp -zeta only
    | with_reducible refine Rel.ite ?_ ?_
    | with_reducible refine Good.ite ?_ ?_

theorem execGrant_good (ecc : EccEvent) (s : State) : Good s (execGrant ecc s) := by
  unfold execGrant
  repeat' first
    | with_reducible exact Rel.refl _
    | with_reducible assumption
    | exact Good.fault _ _
    | with_reducible refine Good.next ?_
    | with_reducible refine Good.done ?_
    | with_reducible refine (State.pmcWaits_still ..).into ?_
    | with_reducible refine (State.pmc_still ..).into ?_
    | with_reducible refine (State.arbitrate_still ..).into ?_
    | with_reducible refine (State.undef_keep ..).into ?_
    | with_reducible refine (State.restartBlocked_still ..).into ?_
    | with_reducible refine (State.done_good ..).into ?_
    | (extract_lets +onlyGivenNames x; with_reducible refine Good.cutK (x := ?y) ?_ ?_; (case y => apply x); subst x; rotate_left; clear_value x; intro _)
    | (extract_lets +onlyGivenNames x; clear_value x)
    | extract_lets +onlyGivenNames x
    | simp -zeta -beta -eta -iota -proj -decide only [Rel.upd]
    | dsimp -zeta only
    | with_reducible refine Rel.ite ?_ ?_
    | with_reducible refine Good.ite ?_ ?_
    | split

end Sys2Proof.Machine
end

