-- ==== Sys2Proof/Laws/KeepRegisters.lean ====
section
/-!
SUPPORT. Laws/KeepRegisters.lean: what the operations of Machine/Registers.lean keep.
-/

namespace Sys2Proof.Machine

theorem State.dropReq_still (s : State) : Still s (State.dropReq s) := by
  unfold State.dropReq
  repeat' first
    | with_reducible exact Rel.refl _
    | with_reducible assumption
    | (extract_lets +onlyGivenNames x)
    | extract_lets +onlyGivenNames x
    | simp -zeta -beta -eta -iota -proj -decide only [Rel.upd]

theorem State.ran_keep {s : State} {r : Res} (h : Good s r) : Keep s (s.ran r) := by
  unfold State.ran
  split
  · exact (h.1 _ rfl).1
  · exact State.undef_keep ..
  · exact Rel.refl s
  · exact Rel.refl s

theorem State.zeroFields_still (s : State) (a : ℕ) : Still s (State.zeroFields s a) := by
  unfold State.zeroFields
  repeat' first
    | with_reducible exact Rel.refl _
    | with_reducible assumption
    | with_reducible refine Rel.each (fun t x => ?_) ?_
    | with_reducible refine (State.setFld_still ..).into ?_

theorem State.clrBits_keep {s : State} {w : ℕ} {fs : List (State → Res)} (h : ∀ f ∈ fs, ∀ t, Good t (f t)) :
    Keep s (s.clrBits w fs) := by
  have h' : ∀ p ∈ fs.zipIdx, ∀ t, Good t (p.1 t) := fun p hp => h _ (List.fst_mem_of_mem_zipIdx hp)
  unfold State.clrBits State.each
  revert h'
  generalize fs.zipIdx = l
  intro h'
  induction l generalizing s with
  | nil => exact Rel.refl s
  | cons a l ih =>
    refine (ih fun p hp => h' p (List.mem_cons_of_mem _ hp)).into ?_
    dsimp only
    split
    · exact State.ran_keep (h' a List.mem_cons_self s)
    · exact Rel.refl s

theorem State.seqCmdWrite_still (s : State) (w : ℕ) : Still s (State.seqCmdWrite s w) := by
  unfold State.seqCmdWrite
  repeat' first
    | with_reducible exact Rel.refl _
    | with_reducible assumption
    | with_reducible refine (State.setFld_still ..).into ?_
    | with_reducible refine (State.seqEnqueue_still ..).into ?_
    | with_reducible refine Rel.ofPair (by assumption) (State.seqEnqueue_still ..) ?_
    | (extract_lets +onlyGivenNames x; with_reducible refine Rel.cut (x := ?y) ?_ ?_; (case y => apply x.1); subst x; rotate_left; clear_value x; intro _)
    | (extract_lets +onlyGivenNames x; clear_value x)
    | extract_lets +onlyGivenNames x
    | simp -zeta -beta -eta -iota -proj -decide only [Rel.upd]
    | dsimp -zeta only
    | with_reducible refine Rel.ite ?_ ?_

theorem State.loopCmdWrite_keep (s : State) (w : ℕ) : Keep s (State.loopCmdWrite s w) := by
  unfold State.loopCmdWrite
  repeat' first
    | with_reducible exact Rel.refl _
    | with_reducible assumption
    | with_reducible refine (State.ran_keep ?_).into ?_
    | with_reducible exact execLoopMode_good ..
    | with_reducible exact execLoopLimitLo_good ..
    | with_reducible exact execLoopLimitHi_good ..
    | with_reducible exact execLoopClearFault_good ..
    | with_reducible refine (State.loopCmdStat_still ..).into ?_
    | (extract_lets +onlyGivenNames x)
    | extract_lets +onlyGivenNames x
    | simp -zeta -beta -eta -iota -proj -decide only [Keep.upd]
    | dsimp -zeta only
    | with_reducible refine Rel.ite ?_ ?_
    | split

theorem State.motCmd_good (s : State) (w : ℕ) (arg : ℕ) : Good s (State.motCmd s w arg) := by
  unfold State.motCmd
  repeat' first
    | with_reducible exact Rel.refl _
    | with_reducible assumption
    | exact Good.fault _ _
    | with_reducible refine Good.next ?_
    | with_reducible refine Good.done ?_
    | with_reducible refine (execMoveAbs_good ..).into ?_
    | with_reducible refine (execMoveRel_good ..).into ?_
    | with_reducible refine (execStopRamped_good ..).into ?_
    | with_reducible refine (execStopHard_good ..).into ?_
    | with_reducible refine (execMotHome_good ..).into ?_
    | with_reducible refine (execMotClearFault_good ..).into ?_
    | with_reducible refine (State.motCommand_good (hf := fun t => ?_) ..).into ?_
    | (extract_lets +onlyGivenNames x)
    | extract_lets +onlyGivenNames x
    | simp -zeta -beta -eta -iota -proj -decide only [Rel.upd]
    | dsimp -zeta only
    | with_reducible refine Rel.ite ?_ ?_
    | with_reducible refine Good.ite ?_ ?_
    | split

theorem State.posCmd_good (s : State) (w : ℕ) : Good s (State.posCmd s w) := by
  unfold State.posCmd
  repeat' first
    | with_reducible exact Rel.refl _
    | with_reducible assumption
    | exact Good.fault _ _
    | with_reducible refine Good.next ?_
    | with_reducible refine Good.done ?_
    | with_reducible refine (execArmZ_good ..).into ?_
    | with_reducible refine (execPosClear_good ..).into ?_
    | with_reducible refine (execCmpArm_good ..).into ?_
    | with_reducible refine (execCmpDisarm_good ..).into ?_
    | with_reducible refine (execLoadCount_good ..).into ?_
    | with_reducible refine (execClearSsi_good ..).into ?_
    | (extract_lets +onlyGivenNames x)
    | extract_lets +onlyGivenNames x
    | simp -zeta -beta -eta -iota -proj -decide only [Rel.upd]
    | dsimp -zeta only
    | with_reducible refine Rel.ite ?_ ?_
    | with_reducible refine Good.ite ?_ ?_
    | split

theorem State.secCmdWrite_keep (s : State) (w : ℕ) : Keep s (State.secCmdWrite s w) := by
  unfold State.secCmdWrite
  repeat' first
    | with_reducible exact Rel.refl _
    | with_reducible assumption
    | with_reducible refine (State.secResult_still ..).into ?_
    | with_reducible refine (State.ran_keep ?_).into ?_
    | with_reducible exact execSecProvision_good ..
    | with_reducible exact execSecLock_good ..
    | with_reducible exact execSecRetire_good ..
    | with_reducible exact execSecRaiseSvn_good ..
    | with_reducible exact execSecKeyWrite_good ..
    | (extract_lets +onlyGivenNames x; clear_value x)
    | extract_lets +onlyGivenNames x
    | simp -zeta -beta -eta -iota -proj -decide only [Keep.upd]
    | dsimp -zeta only
    | with_reducible refine Rel.ite ?_ ?_
    | split

theorem State.dbgCmdWrite_keep (s : State) (w : ℕ) : Keep s (State.dbgCmdWrite s w) := by
  unfold State.dbgCmdWrite
  repeat' first
    | with_reducible exact Rel.refl _
    | with_reducible assumption
    | with_reducible refine (State.ran_keep ?_).into ?_
    | with_reducible exact execDbgChallenge_good ..
    | with_reducible exact execDbgVerify_good ..
    | with_reducible exact execDbgRequestFull_good ..
    | with_reducible exact execDbgHalt_good ..
    | with_reducible exact execDbgResume_good ..
    | with_reducible exact execDbgDrop_good ..
    | simp -zeta -beta -eta -iota -proj -decide only [Keep.upd]
    | dsimp -zeta only
    | with_reducible refine Rel.ite ?_ ?_
    | split

theorem State.bootCmdWrite_keep (s : State) (w : ℕ) : Keep s (State.bootCmdWrite s w) := by
  unfold State.bootCmdWrite
  repeat' first
    | with_reducible exact Rel.refl _
    | with_reducible assumption
    | with_reducible refine (State.ran_keep ?_).into ?_
    | with_reducible exact execBootSelect_good ..
    | with_reducible exact execBootLoadHost_good ..
    | with_reducible exact execBootRetry_good ..
    | with_reducible exact execBootApply_good ..
    | simp -zeta -beta -eta -iota -proj -decide only [Keep.upd]
    | dsimp -zeta only
    | with_reducible refine Rel.ite ?_ ?_
    | split

theorem State.canRegWrite_keep (s : State) (old : State) (a : ℕ) (w : ℕ) : Keep s (State.canRegWrite s old a w) := by
  unfold State.canRegWrite
  repeat' first
    | with_reducible exact Rel.refl _
    | with_reducible assumption
    | with_reducible refine (State.canEnable_still ..).into ?_
    | with_reducible refine (State.undef_keep ..).into ?_
    | with_reducible refine (State.ran_keep ?_).into ?_
    | with_reducible refine (State.useFree_still ..).into ?_
    | with_reducible exact execCanSend_good ..
    | with_reducible exact execCanCancel_good ..
    | (extract_lets +onlyGivenNames x; with_reducible refine Rel.cut (x := ?y) ?_ ?_; (case y => apply x); subst x; rotate_left; clear_value x; intro _)
    | (extract_lets +onlyGivenNames x; clear_value x)
    | extract_lets +onlyGivenNames x
    | simp -zeta -beta -eta -iota -proj -decide only [Keep.upd]
    | dsimp -zeta only
    | with_reducible refine Rel.ite ?_ ?_
    | split

theorem State.posStatSync_still (s : State) : Still s (State.posStatSync s) := by
  unfold State.posStatSync
  repeat' first
    | with_reducible exact Rel.refl _
    | with_reducible assumption
    | with_reducible refine Rel.each (fun t x => ?_) ?_
    | with_reducible refine (State.setFld_still ..).into ?_

theorem State.regOpen_keep (s : State) (old : State) (a : ℕ) (w : ℕ) : Keep s (State.regOpen s old a w) := by
  unfold State.regOpen
  repeat' first
    | with_reducible exact Rel.refl _
    | with_reducible assumption
    | with_reducible refine (State.clrBits_keep ?_).into ?_
    | with_reducible refine List.forall_mem_cons.2 ⟨fun t => ?_, ?_⟩
    | exact List.forall_mem_nil _
    | with_reducible exact execTickClr_good ..
    | with_reducible exact execPlnClrWait_good ..
    | with_reducible exact execPlnClrEcc_good ..
    | with_reducible exact execPlnClrWin_good ..
    | with_reducible exact execSchClrCounts_good ..
    | with_reducible exact execSchClrPeaks_good ..
    | with_reducible exact execSigClrStats_good ..
    | with_reducible exact execSeqClrCounts_good ..
    | with_reducible exact execSeqClrPeaks_good ..
    | with_reducible exact execLoopClrCounts_good ..
    | with_reducible exact execLoopClrPeaks_good ..
    | with_reducible exact execLaneClrCounts_good ..
    | with_reducible exact execLaneClrPeaks_good ..
    | with_reducible exact execLogClrCounts_good ..
    | with_reducible exact execLogClrPeaks_good ..
    | with_reducible exact execJrnClrCounts_good ..
    | with_reducible exact execJrnClrPeaks_good ..
    | with_reducible exact execAdcClrCounts_good ..
    | with_reducible refine (State.ran_keep ?_).into ?_
    | with_reducible exact execAdcCalibrate_good ..
    | with_reducible exact execPairClrCounts_good ..
    | with_reducible exact execCasClrCounts_good ..
    | with_reducible exact execNetClrCounts_good ..
    | with_reducible exact execRioClrCounts_good ..
    | with_reducible exact execCanClrCounts_good ..
    | with_reducible exact execMdwClrCounts_good ..
    | with_reducible exact execMdwClrPeaks_good ..
    | with_reducible exact execMdwAdv_good ..
    | with_reducible exact execMdwRdSerialWrite_good ..
    | with_reducible refine (State.posStatSync_still ..).into ?_
    | with_reducible exact execKeyDataWrite_good ..
    | with_reducible refine (State.undef_keep ..).into ?_
    | with_reducible refine (State.setFld_still ..).into ?_
    | with_reducible exact execCanFifoReadAdvance_good ..
    | (extract_lets +onlyGivenNames x)
    | extract_lets +onlyGivenNames x
    | simp -zeta -beta -eta -iota -proj -decide only [Keep.upd]
    | dsimp -zeta only
    | with_reducible refine Rel.ite ?_ ?_
    | split

theorem State.regPriv_keep (s : State) (old : State) (a : ℕ) (w : ℕ) : Keep s (State.regPriv s old a w) := by
  unfold State.regPriv
  repeat' first
    | with_reducible exact Rel.refl _
    | with_reducible assumption
    | with_reducible refine (State.ran_keep ?_).into ?_
    | with_reducible exact execSoftReset_good ..
    | with_reducible exact execForceSet_good ..
    | with_reducible exact execForceRelease_good ..
    | with_reducible exact execForceReleaseAll_good ..
    | with_reducible refine (State.seqCmdWrite_still ..).into ?_
    | with_reducible refine (State.loopCmdWrite_keep ..).into ?_
    | with_reducible exact execLaneMemAccess_good ..
    | with_reducible exact execExchRequest_good ..
    | with_reducible exact execExchCancel_good ..
    | with_reducible exact execTaskStart_good ..
    | with_reducible exact execTaskStop_good ..
    | with_reducible exact execJrnTest_good ..
    | with_reducible exact execJrnSelect_good ..
    | with_reducible exact execJrnDiscard_good ..
    | with_reducible exact State.motCmd_good ..
    | with_reducible exact State.posCmd_good ..
    | with_reducible exact execCompareEntryWrite_good ..
    | with_reducible exact execPairSwitch_good ..
    | with_reducible exact execPairResync_good ..
    | with_reducible exact execPairRelease_good ..
    | with_reducible exact execTimeSet_good ..
    | with_reducible exact execGclSwap_good ..
    | with_reducible exact execGclEntryAccess_good ..
    | with_reducible refine (State.canRegWrite_keep ..).into ?_
    | with_reducible exact execMdwClearFault_good ..
    | with_reducible exact execClearProcess_good ..
    | with_reducible exact execCloseFree_good ..
    | with_reducible refine (State.bootCmdWrite_keep ..).into ?_
    | with_reducible refine (State.secCmdWrite_keep ..).into ?_
    | with_reducible refine (State.dbgCmdWrite_keep ..).into ?_
    | with_reducible exact execPwrHold_good ..
    | with_reducible exact execPmcSnap_good ..
    | with_reducible exact execPmcClear_good ..
    | with_reducible refine (State.undef_keep ..).into ?_
    | (extract_lets +onlyGivenNames x; with_reducible refine Rel.cut (x := ?y) ?_ ?_; (case y => apply x); subst x; rotate_left; clear_value x; intro _)
    | extract_lets +onlyGivenNames x
    | simp -zeta -beta -eta -iota -proj -decide only [Keep.upd]
    | dsimp -zeta only
    | with_reducible refine Rel.ite ?_ ?_
    | split

theorem State.regWriteIn_keep (s : State) (a : ℕ) (w : Word) (priv : Bool) : Keep s (State.regWriteIn s a w priv) := by
  unfold State.regWriteIn
  repeat' first
    | with_reducible exact Rel.refl _
    | with_reducible assumption
    | with_reducible refine (State.dropReq_still ..).into ?_
    | with_reducible refine (State.notPriv_still ..).into ?_
    | with_reducible refine (State.zeroFields_still ..).into ?_
    | with_reducible refine (State.setReg_still ..).into ?_
    | with_reducible refine (State.regOpen_keep ..).into ?_
    | with_reducible refine (State.regPriv_keep ..).into ?_
    | (extract_lets +onlyGivenNames x; with_reducible refine Rel.cut (x := ?y) ?_ ?_; (case y => apply x); subst x; rotate_left; clear_value x; intro _)
    | (extract_lets +onlyGivenNames x; clear_value x)
    | extract_lets +onlyGivenNames x
    | simp -zeta -beta -eta -iota -proj -decide only [Keep.upd]
    | dsimp -zeta only
    | with_reducible refine Rel.ite ?_ ?_
    | split

theorem State.regWrite_keep (s : State) (a : ℕ) (w : Word) (priv : Bool) : Keep s (State.regWrite s a w priv) := by
  unfold State.regWrite
  repeat' first
    | with_reducible exact Rel.refl _
    | with_reducible assumption
    | with_reducible refine (State.awake_keep (hf := fun t => ?_) ..).into ?_
    | with_reducible refine (State.regWriteIn_keep ..).into ?_
    | simp -zeta -beta -eta -iota -proj -decide only [Keep.upd]
    | dsimp -zeta only
    | with_reducible refine Rel.ite ?_ ?_

theorem execRegisterWrite_good (addr : ℕ) (data : Word) (priv : Bool) (s : State) : Good s (execRegisterWrite addr data priv s) := by
  unfold execRegisterWrite
  repeat' first
    | with_reducible exact Rel.refl _
    | with_reducible assumption
    | exact Good.fault _ _
    | with_reducible refine Good.next ?_
    | with_reducible refine Good.done ?_
    | with_reducible refine (State.done_good ..).into ?_
    | with_reducible refine (State.regWrite_keep ..).into ?_

theorem State.regTouch_keep (s : State) (a : ℕ) : Keep s (State.regTouch s a) := by
  unfold State.regTouch
  repeat' first
    | with_reducible exact Rel.refl _
    | with_reducible assumption
    | with_reducible refine (State.timeLatch_still ..).into ?_
    | with_reducible refine (State.ran_keep ?_).into ?_
    | with_reducible exact execLaneMemAccess_good ..
    | with_reducible exact execGclEntryAccess_good ..
    | simp -zeta -beta -eta -iota -proj -decide only [Keep.upd]
    | dsimp -zeta only
    | with_reducible refine Rel.ite ?_ ?_

theorem State.regReadIn_keep (s : State) (a : ℕ) (priv : Bool) : Keep s (State.regReadIn s a priv).1 := by
  unfold State.regReadIn
  repeat' first
    | with_reducible exact Rel.refl _
    | with_reducible assumption
    | with_reducible refine (State.useFree_still ..).into ?_
    | with_reducible refine (State.dropReq_still ..).into ?_
    | with_reducible refine (State.notPriv_still ..).into ?_
    | with_reducible refine (State.regTouch_keep ..).into ?_
    | (extract_lets +onlyGivenNames x; with_reducible refine Rel.cut (x := ?y) ?_ ?_; (case y => apply x); subst x; rotate_left; clear_value x; intro _)
    | extract_lets +onlyGivenNames x
    | simp -zeta -beta -eta -iota -proj -decide only [Keep.upd]
    | dsimp -zeta only
    | with_reducible refine Rel.ite ?_ ?_
    | split

theorem State.regRead_keep (s : State) (a : ℕ) (priv : Bool) : Keep s (State.regRead s a priv).1 := by
  unfold State.regRead
  repeat' first
    | with_reducible exact Rel.refl _
    | with_reducible assumption
    | with_reducible refine (State.regReadIn_keep ..).into ?_
    | with_reducible refine Keep.ofPair (by assumption) (State.regReadIn_keep ..) ?_
    | with_reducible refine (State.wakeUp_still ..).into ?_
    | with_reducible refine (State.powerSelect_keep ..).into ?_
    | (extract_lets +onlyGivenNames x; with_reducible refine Rel.cut (x := ?y) ?_ ?_; (case y => apply x.1); subst x; rotate_left; clear_value x; intro _)
    | extract_lets +onlyGivenNames x
    | simp -zeta -beta -eta -iota -proj -decide only [Keep.upd]
    | dsimp -zeta only
    | with_reducible refine Rel.ite ?_ ?_
    | split

end Sys2Proof.Machine
end

