-- ==== Sys2Proof/Laws/KeepHost.lean ====
section
/-!
SUPPORT. Laws/KeepHost.lean: what the operations of Machine/Host.lean keep.
-/

namespace Sys2Proof.Machine

theorem State.shpJob_keep (s : State) (r : ShpReq) (ty : ℕ) (f : State → State) (hf : ∀ t, Keep t (f t)) :
    Keep s (State.shpJob s r ty f) := by
  unfold State.shpJob
  have h := (State.release_still s.useFree (simpleJob 5 true true 0 0 (s.freeNat % 65536) srcHst r.session)).into
    (State.useFree_still s)
  revert h
  generalize s.useFree.release (simpleJob 5 true true 0 0 (s.freeNat % 65536) srcHst r.session) = p
  intro h
  dsimp only
  split
  · exact Rel.weak ((State.shpSend_still ..).into h)
  · exact (hf _).into (Rel.weak ((State.completeJob_still ..).into h))

theorem State.shpGate_good (s : State) (r : ShpReq) (ty : ℕ) (f : State → State) (hf : ∀ t, Keep t (f t)) : Good s (State.shpGate s r ty f) := by
  unfold State.shpGate
  repeat' first
    | with_reducible exact Rel.refl _
    | with_reducible assumption
    | exact Good.fault _ _
    | with_reducible refine Good.next ?_
    | with_reducible refine Good.done ?_
    | with_reducible refine (State.done_good ..).into ?_
    | with_reducible refine (State.awake_keep (hf := fun t => ?_) ..).into ?_
    | with_reducible refine (State.undef_keep ..).into ?_
    | with_reducible refine (State.shpSend_still ..).into ?_
    | with_reducible refine (State.pairSend_still ..).into ?_
    | with_reducible refine (hf ..).into ?_
    | simp -zeta -beta -eta -iota -proj -decide only [Rel.upd]
    | dsimp -zeta only
    | with_reducible refine Rel.ite ?_ ?_
    | with_reducible refine Good.ite ?_ ?_

theorem State.shpServe_good (s : State) (r : ShpReq) (ty : ℕ) (f : State → State) (hf : ∀ t, Keep t (f t)) : Good s (State.shpServe s r ty f) := by
  unfold State.shpServe
  repeat' first
    | with_reducible exact Rel.refl _
    | with_reducible assumption
    | exact Good.fault _ _
    | with_reducible refine Good.next ?_
    | with_reducible refine Good.done ?_
    | with_reducible refine (State.shpGate_good (hf := fun t => ?_) ..).into ?_
    | with_reducible refine (State.shpSend_still ..).into ?_
    | with_reducible refine (State.setSess_still ..).into ?_
    | with_reducible refine (State.shpReply_still ..).into ?_
    | with_reducible refine (State.shpJob_keep (hf := fun t => ?_) ..).into ?_
    | with_reducible refine (hf ..).into ?_
    | (extract_lets +onlyGivenNames x; with_reducible refine Good.cut (x := ?y) ?_ ?_; (case y => apply x); subst x; rotate_left; intro _)
    | (extract_lets +onlyGivenNames x; with_reducible refine Good.cutK (x := ?y) ?_ ?_; (case y => apply x); subst x; rotate_left; intro _)
    | (extract_lets +onlyGivenNames x; with_reducible refine Rel.cut (x := ?y) ?_ ?_; (case y => apply x); subst x; rotate_left; intro _)
    | (extract_lets +onlyGivenNames x)
    | extract_lets +onlyGivenNames x
    | simp -zeta -beta -eta -iota -proj -decide only [Rel.upd]
    | dsimp -zeta only
    | with_reducible refine Rel.ite ?_ ?_
    | with_reducible refine Good.ite ?_ ?_
    | split

theorem State.shpWait_still (s : State) (r : ShpReq) (ty : ℕ) (serial : ℕ) (remote : List (ℕ × ℕ)) : Still s (State.shpWait s r ty serial remote) := by
  unfold State.shpWait
  repeat' first
    | with_reducible exact Rel.refl _
    | with_reducible assumption
    | with_reducible refine (State.setTimeout_still ..).into ?_
    | with_reducible refine (State.setSess_still ..).into ?_
    | simp -zeta -beta -eta -iota -proj -decide only [Rel.upd]
    | dsimp -zeta only
    | with_reducible refine Rel.ite ?_ ?_
    | split

theorem State.shpClose_still (s : State) (k : ℕ) : Still s (State.shpClose s k) := by
  unfold State.shpClose
  repeat' first
    | with_reducible exact Rel.refl _
    | with_reducible assumption
    | with_reducible refine (State.setTimeout_still ..).into ?_
    | with_reducible refine (State.setSess_still ..).into ?_

theorem execShpHello_good (req : ShpReq) (rand : List Byte) (s : State) : Good s (execShpHello req rand s) := by
  unfold execShpHello
  repeat' first
    | with_reducible exact Rel.refl _
    | with_reducible assumption
    | exact Good.fault _ _
    | with_reducible refine Good.next ?_
    | with_reducible refine Good.done ?_
    | with_reducible refine (State.shpGate_good (hf := fun t => ?_) ..).into ?_
    | with_reducible refine (State.shpJob_keep (hf := fun t => ?_) ..).into ?_
    | with_reducible refine (State.shpSend_still ..).into ?_
    | (extract_lets +onlyGivenNames x; with_reducible refine Good.cut (x := ?y) ?_ ?_; (case y => apply x); subst x; rotate_left; intro _)
    | (extract_lets +onlyGivenNames x; with_reducible refine Good.cutK (x := ?y) ?_ ?_; (case y => apply x); subst x; rotate_left; intro _)
    | (extract_lets +onlyGivenNames x; with_reducible refine Rel.cut (x := ?y) ?_ ?_; (case y => apply x); subst x; rotate_left; intro _)
    | (extract_lets +onlyGivenNames x)
    | extract_lets +onlyGivenNames x
    | simp -zeta -beta -eta -iota -proj -decide only [Rel.upd]
    | dsimp -zeta only
    | with_reducible refine Rel.ite ?_ ?_

theorem execShpOpen_good (req : ShpReq) (s : State) : Good s (execShpOpen req s) := by
  unfold execShpOpen
  repeat' first
    | with_reducible exact Rel.refl _
    | with_reducible assumption
    | exact Good.fault _ _
    | with_reducible refine Good.next ?_
    | with_reducible refine Good.done ?_
    | with_reducible refine (State.shpGate_good (hf := fun t => ?_) ..).into ?_
    | with_reducible refine (State.shpJob_keep (hf := fun t => ?_) ..).into ?_
    | with_reducible refine (State.shpSend_still ..).into ?_
    | with_reducible refine (State.setSess_still ..).into ?_
    | (extract_lets +onlyGivenNames x)
    | extract_lets +onlyGivenNames x
    | simp -zeta -beta -eta -iota -proj -decide only [Rel.upd]
    | dsimp -zeta only
    | with_reducible refine Rel.ite ?_ ?_
    | with_reducible refine Good.ite ?_ ?_
    | split

theorem execShpClose_good (req : ShpReq) (s : State) : Good s (execShpClose req s) := by
  unfold execShpClose
  repeat' first
    | with_reducible exact Rel.refl _
    | with_reducible assumption
    | exact Good.fault _ _
    | with_reducible refine Good.next ?_
    | with_reducible refine Good.done ?_
    | with_reducible refine (State.shpServe_good (hf := fun t => ?_) ..).into ?_
    | with_reducible refine (State.shpClose_still ..).into ?_
    | with_reducible refine (State.shpReply_still ..).into ?_
    | simp -zeta -beta -eta -iota -proj -decide only [Rel.upd]
    | dsimp -zeta only
    | with_reducible refine Rel.ite ?_ ?_

theorem execShpKeepalive_good (req : ShpReq) (s : State) : Good s (execShpKeepalive req s) := by
  unfold execShpKeepalive
  repeat' first
    | with_reducible exact Rel.refl _
    | with_reducible assumption
    | exact Good.fault _ _
    | with_reducible refine Good.next ?_
    | with_reducible refine Good.done ?_
    | with_reducible refine (State.shpServe_good (hf := fun t => ?_) ..).into ?_
    | with_reducible refine (State.shpReply_still ..).into ?_

theorem execSessionIdle_good (session : ℕ) (s : State) : Good s (execSessionIdle session s) := by
  unfold execSessionIdle
  repeat' first
    | with_reducible exact Rel.refl _
    | with_reducible assumption
    | exact Good.fault _ _
    | with_reducible refine Good.next ?_
    | with_reducible refine Good.done ?_
    | with_reducible refine (State.shpClose_still ..).into ?_
    | simp -zeta -beta -eta -iota -proj -decide only [Rel.upd]
    | dsimp -zeta only
    | with_reducible refine Rel.ite ?_ ?_
    | with_reducible refine Good.ite ?_ ?_
    | split

theorem execShpTimeout_good (session : ℕ) (s : State) : Good s (execShpTimeout session s) := by
  unfold execShpTimeout
  repeat' first
    | with_reducible exact Rel.refl _
    | with_reducible assumption
    | exact Good.fault _ _
    | with_reducible refine Good.next ?_
    | with_reducible refine Good.done ?_
    | with_reducible refine (State.shpReply_still ..).into ?_
    | with_reducible refine (State.setTimeout_still ..).into ?_
    | simp -zeta -beta -eta -iota -proj -decide only [Rel.upd]
    | dsimp -zeta only
    | with_reducible refine Rel.ite ?_ ?_
    | with_reducible refine Good.ite ?_ ?_
    | split

theorem execUnknownType_good (ty : ℕ) (req : ShpReq) (s : State) : Good s (execUnknownType ty req s) := by
  unfold execUnknownType
  repeat' first
    | with_reducible exact Rel.refl _
    | with_reducible assumption
    | exact Good.fault _ _
    | with_reducible refine Good.next ?_
    | with_reducible refine Good.done ?_
    | with_reducible refine (State.shpGate_good (hf := fun t => ?_) ..).into ?_
    | with_reducible refine (State.shpSend_still ..).into ?_
    | simp -zeta -beta -eta -iota -proj -decide only [Rel.upd]
    | dsimp -zeta only
    | with_reducible refine Rel.ite ?_ ?_
    | with_reducible refine Good.ite ?_ ?_

theorem State.regReads_keep (s : State) (priv : Bool) (l : List ℕ) : Keep s (State.regReads s priv l).1 := by
  induction l generalizing s with
  | nil => exact Rel.refl s
  | cons a l ih => exact (ih _).into (State.regRead_keep ..)

theorem execRegRead_good (req : ShpReq) (s : State) : Good s (execRegRead req s) := by
  unfold execRegRead
  repeat' first
    | with_reducible exact Rel.refl _
    | with_reducible assumption
    | exact Good.fault _ _
    | with_reducible refine Good.next ?_
    | with_reducible refine Good.done ?_
    | with_reducible refine (State.shpServe_good (hf := fun t => ?_) ..).into ?_
    | with_reducible refine (State.shpReply_still ..).into ?_
    | with_reducible refine (State.regReads_keep ..).into ?_
    | with_reducible refine Keep.ofPair (by assumption) (State.regReads_keep ..) ?_
    | (extract_lets +onlyGivenNames x; with_reducible refine Rel.cut (x := ?y) ?_ ?_; (case y => apply x.1); subst x; rotate_left; clear_value x; intro _)
    | (extract_lets +onlyGivenNames x; clear_value x)
    | extract_lets +onlyGivenNames x
    | simp -zeta -beta -eta -iota -proj -decide only [Rel.upd]
    | dsimp -zeta only
    | with_reducible refine Rel.ite ?_ ?_

theorem execRegWrite_good (req : ShpReq) (s : State) : Good s (execRegWrite req s) := by
  unfold execRegWrite
  repeat' first
    | with_reducible exact Rel.refl _
    | with_reducible assumption
    | exact Good.fault _ _
    | with_reducible refine Good.next ?_
    | with_reducible refine Good.done ?_
    | with_reducible refine (State.shpServe_good (hf := fun t => ?_) ..).into ?_
    | with_reducible refine (State.shpReply_still ..).into ?_
    | with_reducible refine Rel.each (fun t x => ?_) ?_
    | with_reducible refine (State.regWrite_keep ..).into ?_
    | (extract_lets +onlyGivenNames x; with_reducible refine Rel.cut (x := ?y) ?_ ?_; (case y => apply x); subst x; rotate_left; clear_value x; intro _)
    | (extract_lets +onlyGivenNames x; clear_value x)
    | extract_lets +onlyGivenNames x
    | simp -zeta -beta -eta -iota -proj -decide only [Rel.upd]
    | dsimp -zeta only
    | with_reducible refine Rel.ite ?_ ?_

theorem execPlainRead_good (req : ShpReq) (s : State) : Good s (execPlainRead req s) := by
  unfold execPlainRead
  repeat' first
    | with_reducible exact Rel.refl _
    | with_reducible assumption
    | exact Good.fault _ _
    | with_reducible refine Good.next ?_
    | with_reducible refine Good.done ?_
    | with_reducible refine (State.shpServe_good (hf := fun t => ?_) ..).into ?_
    | with_reducible refine (State.shpReply_still ..).into ?_
    | (extract_lets +onlyGivenNames x)
    | extract_lets +onlyGivenNames x
    | simp -zeta -beta -eta -iota -proj -decide only [Rel.upd]
    | dsimp -zeta only
    | with_reducible refine Rel.ite ?_ ?_

theorem execSigRead_good (req : ShpReq) (mixed : Option ℕ) (remote : List (ℕ × ℕ)) (s : State) :
    Good s (execSigRead req mixed remote s) := by
  have hfold : ∀ (l : List (ℕ × ℕ)) (t : State) (b : List (ℕ × ℕ)), Still t (l.foldl (fun (a : State × List (ℕ × ℕ)) v =>
      if v.2 = 0 then (a.1.useFree, a.2 ++ [(a.1.freeNat % 2 ^ 32, 0)]) else (a.1, a.2 ++ [v])) (t, b)).1 := by
    intro l
    induction l with
    | nil => exact fun t _ => Rel.refl t
    | cons v l ih =>
      intro t b
      rw [List.foldl_cons]
      split
      · exact (ih _ _).into (State.useFree_still t)
      · exact ih _ _
  unfold execSigRead
  refine State.shpServe_good _ _ _ _ fun t => ?_
  dsimp only
  split
  · exact Rel.weak (State.shpReply_still ..)
  · split
    · exact Rel.weak ((State.shpReply_still ..).into (hfold _ _ _))
    · split
      · exact Rel.weak (State.shpWait_still ..)
      · exact Rel.weak (State.shpReply_still ..)

theorem State.shpInputClose_still (s : State) : Still s (State.shpInputClose s) := by
  unfold State.shpInputClose
  repeat' first
    | with_reducible exact Rel.refl _
    | with_reducible assumption
    | with_reducible refine Rel.each (fun t x => ?_) ?_
    | with_reducible refine (State.shpAnswer_still ..).into ?_
    | simp -zeta -beta -eta -iota -proj -decide only [Rel.upd]
    | dsimp -zeta only
    | with_reducible refine Rel.ite ?_ ?_
    | split

theorem execSigWrite_good (req : ShpReq) (s : State) : Good s (execSigWrite req s) := by
  unfold execSigWrite
  repeat' first
    | with_reducible exact Rel.refl _
    | with_reducible assumption
    | exact Good.fault _ _
    | with_reducible refine Good.next ?_
    | with_reducible refine Good.done ?_
    | with_reducible refine (State.shpServe_good (hf := fun t => ?_) ..).into ?_
    | with_reducible refine (State.shpReply_still ..).into ?_
    | with_reducible refine (State.undef_keep ..).into ?_
    | with_reducible refine Rel.each (fun t x => ?_) ?_
    | with_reducible refine (State.putSig_still ..).into ?_
    | (extract_lets +onlyGivenNames x)
    | extract_lets +onlyGivenNames x
    | simp -zeta -beta -eta -iota -proj -decide only [Rel.upd]
    | dsimp -zeta only
    | with_reducible refine Rel.ite ?_ ?_
    | with_reducible refine Good.ite ?_ ?_
    | split

theorem forceAnswer_still (r : ShpReq) (p : State × ℕ) : Still p.1 (forceAnswer r p) :=
  (State.shpReply_still ..).into (State.setFld_still ..)

theorem execShpForce_good (req : ShpReq) (s : State) : Good s (execShpForce req s) := by
  unfold execShpForce
  repeat' first
    | with_reducible exact Rel.refl _
    | with_reducible assumption
    | exact Good.fault _ _
    | with_reducible refine Good.next ?_
    | with_reducible refine Good.done ?_
    | with_reducible refine (State.shpServe_good (hf := fun t => ?_) ..).into ?_
    | with_reducible refine (State.shpReply_still ..).into ?_
    | with_reducible refine (forceAnswer_still ..).into ?_
    | with_reducible refine (State.forceReleaseAll_still ..).into ?_
    | with_reducible refine (State.forceRelease_still ..).into ?_
    | with_reducible refine Rel.ofPair (by assumption) (State.forceRelease_still ..) ?_
    | with_reducible refine (State.forceSet_still ..).into ?_
    | with_reducible refine Rel.ofPair (by assumption) (State.forceSet_still ..) ?_
    | (extract_lets +onlyGivenNames x)
    | extract_lets +onlyGivenNames x
    | simp -zeta -beta -eta -iota -proj -decide only [Rel.upd]
    | dsimp -zeta only
    | with_reducible refine Rel.ite ?_ ?_
    | with_reducible refine Good.ite ?_ ?_
    | split

theorem execShpSeq_good (req : ShpReq) (s : State) : Good s (execShpSeq req s) := by
  unfold execShpSeq
  repeat' first
    | with_reducible exact Rel.refl _
    | with_reducible assumption
    | exact Good.fault _ _
    | with_reducible refine Good.next ?_
    | with_reducible refine Good.done ?_
    | with_reducible refine (State.shpServe_good (hf := fun t => ?_) ..).into ?_
    | with_reducible refine (State.shpReply_still ..).into ?_
    | with_reducible refine (State.seqEnqueue_still ..).into ?_
    | with_reducible refine Rel.ofPair (by assumption) (State.seqEnqueue_still ..) ?_
    | with_reducible refine (State.shpWait_still ..).into ?_
    | (extract_lets +onlyGivenNames x; with_reducible refine Rel.cut (x := ?y) ?_ ?_; (case y => apply x.1); subst x; rotate_left; clear_value x; intro _)
    | (extract_lets +onlyGivenNames x; clear_value x)
    | extract_lets +onlyGivenNames x
    | simp -zeta -beta -eta -iota -proj -decide only [Rel.upd]
    | dsimp -zeta only
    | with_reducible refine Rel.ite ?_ ?_

theorem execShpLoop_good (req : ShpReq) (s : State) : Good s (execShpLoop req s) := by
  unfold execShpLoop
  repeat' first
    | with_reducible exact Rel.refl _
    | with_reducible assumption
    | exact Good.fault _ _
    | with_reducible refine Good.next ?_
    | with_reducible refine Good.done ?_
    | with_reducible refine (State.shpServe_good (hf := fun t => ?_) ..).into ?_
    | with_reducible refine (State.shpReply_still ..).into ?_
    | with_reducible refine (State.loopRequest_still ..).into ?_
    | with_reducible refine Rel.ofPair (by assumption) (State.loopRequest_still ..) ?_
    | with_reducible refine (State.loopClear_still ..).into ?_
    | with_reducible refine Rel.ofPair (by assumption) (State.loopClear_still ..) ?_
    | (extract_lets +onlyGivenNames x; with_reducible refine Rel.cut (x := ?y) ?_ ?_; (case y => apply x.1); subst x; rotate_left; clear_value x; intro _)
    | (extract_lets +onlyGivenNames x; clear_value x)
    | extract_lets +onlyGivenNames x
    | simp -zeta -beta -eta -iota -proj -decide only [Rel.upd]
    | dsimp -zeta only
    | with_reducible refine Rel.ite ?_ ?_
    | with_reducible refine Good.ite ?_ ?_
    | split

theorem execShpAxis_good (req : ShpReq) (s : State) : Good s (execShpAxis req s) := by
  unfold execShpAxis
  repeat' first
    | with_reducible exact Rel.refl _
    | with_reducible assumption
    | exact Good.fault _ _
    | with_reducible refine Good.next ?_
    | with_reducible refine Good.done ?_
    | with_reducible refine (State.shpServe_good (hf := fun t => ?_) ..).into ?_
    | with_reducible refine (State.shpReply_still ..).into ?_
    | with_reducible refine (State.ran_keep ?_).into ?_
    | with_reducible refine (State.motCmd_good ..).into ?_
    | (extract_lets +onlyGivenNames x; with_reducible refine Rel.cut (x := ?y) ?_ ?_; (case y => apply x); subst x; rotate_left; intro _)
    | (extract_lets +onlyGivenNames x)
    | extract_lets +onlyGivenNames x
    | simp -zeta -beta -eta -iota -proj -decide only [Rel.upd]
    | dsimp -zeta only
    | with_reducible refine Rel.ite ?_ ?_

theorem execRecRead_good (req : ShpReq) (s : State) : Good s (execRecRead req s) := by
  unfold execRecRead
  repeat' first
    | with_reducible exact Rel.refl _
    | with_reducible assumption
    | exact Good.fault _ _
    | with_reducible refine Good.next ?_
    | with_reducible refine Good.done ?_
    | with_reducible refine (State.shpServe_good (hf := fun t => ?_) ..).into ?_
    | with_reducible refine (State.shpReply_still ..).into ?_
    | (extract_lets +onlyGivenNames x)
    | extract_lets +onlyGivenNames x
    | simp -zeta -beta -eta -iota -proj -decide only [Rel.upd]
    | dsimp -zeta only
    | with_reducible refine Rel.ite ?_ ?_

theorem State.withSub_still (s : State) (b : ℕ) (e : List Byte) : Still s (State.withSub s b e) := by
  unfold State.withSub
  repeat' first
    | with_reducible exact Rel.refl _
    | with_reducible assumption
    | with_reducible refine (State.setPlain_still ..).into ?_

theorem execShpTrace_good (req : ShpReq) (s : State) : Good s (execShpTrace req s) := by
  unfold execShpTrace
  repeat' first
    | with_reducible exact Rel.refl _
    | with_reducible assumption
    | exact Good.fault _ _
    | with_reducible refine Good.next ?_
    | with_reducible refine Good.done ?_
    | with_reducible refine (State.shpServe_good (hf := fun t => ?_) ..).into ?_
    | with_reducible refine (State.shpReply_still ..).into ?_
    | with_reducible refine (State.setPlain_still ..).into ?_
    | with_reducible refine (State.withSub_still ..).into ?_
    | (extract_lets +onlyGivenNames x; with_reducible refine Rel.cut (x := ?y) ?_ ?_; (case y => apply x); subst x; rotate_left; intro _)
    | (extract_lets +onlyGivenNames x)
    | extract_lets +onlyGivenNames x
    | simp -zeta -beta -eta -iota -proj -decide only [Rel.upd]
    | dsimp -zeta only
    | with_reducible refine Rel.ite ?_ ?_
    | with_reducible refine Good.ite ?_ ?_
    | split

theorem State.subsStrobe_still (s : State) : Still s (State.subsStrobe s) := by
  unfold State.subsStrobe
  repeat' first
    | with_reducible exact Rel.refl _
    | with_reducible assumption
    | with_reducible refine Rel.each (fun t x => ?_) ?_
    | with_reducible refine (State.withSub_still ..).into ?_
    | (extract_lets +onlyGivenNames x; with_reducible refine Rel.cut (x := ?y) ?_ ?_; (case y => apply x); subst x; rotate_left; intro _)
    | (extract_lets +onlyGivenNames x)
    | extract_lets +onlyGivenNames x
    | simp -zeta -beta -eta -iota -proj -decide only [Rel.upd]

theorem execShpSafety_good (req : ShpReq) (msg : MboxMsg) (s : State) : Good s (execShpSafety req msg s) := by
  unfold execShpSafety
  repeat' first
    | with_reducible exact Rel.refl _
    | with_reducible assumption
    | exact Good.fault _ _
    | with_reducible refine Good.next ?_
    | with_reducible refine Good.done ?_
    | with_reducible refine (State.shpServe_good (hf := fun t => ?_) ..).into ?_
    | with_reducible refine (State.shpReply_still ..).into ?_
    | with_reducible refine (State.mbox_still ..).into ?_
    | with_reducible refine Rel.ofPair (by assumption) (State.mbox_still ..) ?_
    | with_reducible refine (State.shpWait_still ..).into ?_
    | (extract_lets +onlyGivenNames x; with_reducible refine Rel.cut (x := ?y) ?_ ?_; (case y => apply x.1); subst x; rotate_left; clear_value x; intro _)
    | (extract_lets +onlyGivenNames x; clear_value x)
    | extract_lets +onlyGivenNames x
    | simp -zeta -beta -eta -iota -proj -decide only [Rel.upd]
    | dsimp -zeta only
    | with_reducible refine Rel.ite ?_ ?_

theorem execImagePut_good (req : ShpReq) (s : State) : Good s (execImagePut req s) := by
  unfold execImagePut
  repeat' first
    | with_reducible exact Rel.refl _
    | with_reducible assumption
    | exact Good.fault _ _
    | with_reducible refine Good.next ?_
    | with_reducible refine Good.done ?_
    | with_reducible refine (State.shpServe_good (hf := fun t => ?_) ..).into ?_
    | with_reducible refine (State.shpReply_still ..).into ?_
    | with_reducible refine (State.undef_keep ..).into ?_
    | with_reducible refine (State.setPlain_still ..).into ?_
    | (extract_lets +onlyGivenNames x)
    | extract_lets +onlyGivenNames x
    | simp -zeta -beta -eta -iota -proj -decide only [Rel.upd]
    | dsimp -zeta only
    | with_reducible refine Rel.ite ?_ ?_

theorem execImageApply_good (req : ShpReq) (extra : ImgExtra) (s : State) : Good s (execImageApply req extra s) := by
  unfold execImageApply
  repeat' first
    | with_reducible exact Rel.refl _
    | with_reducible assumption
    | exact Good.fault _ _
    | with_reducible refine Good.next ?_
    | with_reducible refine Good.done ?_
    | with_reducible refine (State.shpServe_good (hf := fun t => ?_) ..).into ?_
    | with_reducible refine (State.shpReply_still ..).into ?_
    | with_reducible refine (State.changeAsk_keep ..).into ?_
    | with_reducible refine Keep.ofPair (by assumption) (State.changeAsk_keep ..) ?_
    | (extract_lets +onlyGivenNames x; with_reducible refine Rel.cut (x := ?y) ?_ ?_; (case y => apply x.1); subst x; rotate_left; clear_value x; intro _)
    | (extract_lets +onlyGivenNames x; clear_value x)
    | extract_lets +onlyGivenNames x
    | simp -zeta -beta -eta -iota -proj -decide only [Rel.upd]
    | dsimp -zeta only
    | with_reducible refine Rel.ite ?_ ?_
    | with_reducible refine Good.ite ?_ ?_
    | split

theorem execCopyWrite_good (req : ShpReq) (s : State) : Good s (execCopyWrite req s) := by
  unfold execCopyWrite
  repeat' first
    | with_reducible exact Rel.refl _
    | with_reducible assumption
    | exact Good.fault _ _
    | with_reducible refine Good.next ?_
    | with_reducible refine Good.done ?_
    | with_reducible refine (State.shpServe_good (hf := fun t => ?_) ..).into ?_
    | with_reducible refine (State.shpReply_still ..).into ?_
    | (extract_lets +onlyGivenNames x)
    | extract_lets +onlyGivenNames x
    | simp -zeta -beta -eta -iota -proj -decide only [Rel.upd]
    | dsimp -zeta only
    | with_reducible refine Rel.ite ?_ ?_

theorem execTestRecord_good (req : ShpReq) (s : State) : Good s (execTestRecord req s) := by
  unfold execTestRecord
  repeat' first
    | with_reducible exact Rel.refl _
    | with_reducible assumption
    | exact Good.fault _ _
    | with_reducible refine Good.next ?_
    | with_reducible refine Good.done ?_
    | with_reducible refine (State.shpServe_good (hf := fun t => ?_) ..).into ?_
    | with_reducible refine (State.shpReply_still ..).into ?_
    | simp -zeta -beta -eta -iota -proj -decide only [Rel.upd]
    | dsimp -zeta only
    | with_reducible refine Rel.ite ?_ ?_

theorem execBar0Access_good (off : ℕ) (size : ℕ) (write : Option Word) (s : State) : Good s (execBar0Access off size write s) := by
  unfold execBar0Access
  repeat' first
    | with_reducible exact Rel.refl _
    | with_reducible assumption
    | exact Good.fault _ _
    | with_reducible refine Good.next ?_
    | with_reducible refine Good.done ?_
    | with_reducible refine (State.done_good ..).into ?_
    | with_reducible refine (State.undef_keep ..).into ?_
    | with_reducible refine (State.regWrite_keep ..).into ?_
    | with_reducible refine (State.regRead_keep ..).into ?_
    | with_reducible refine Keep.ofPair (by assumption) (State.regRead_keep ..) ?_
    | (extract_lets +onlyGivenNames x; with_reducible refine Good.cutK (x := ?y) ?_ ?_; (case y => apply x); subst x; rotate_left; intro _)
    | (extract_lets +onlyGivenNames x; with_reducible refine Good.cutK (x := ?y) ?_ ?_; (case y => apply x.1); subst x; rotate_left; intro _)
    | (extract_lets +onlyGivenNames x)
    | extract_lets +onlyGivenNames x
    | simp -zeta -beta -eta -iota -proj -decide only [Rel.upd]
    | dsimp -zeta only
    | with_reducible refine Rel.ite ?_ ?_
    | with_reducible refine Good.ite ?_ ?_
    | split

theorem State.bar2Put_still (s : State) (o : ℕ) (bs : List Byte) : Still s (State.bar2Put s o bs) := by
  unfold State.bar2Put
  repeat' first
    | with_reducible exact Rel.refl _
    | with_reducible assumption
    | with_reducible refine (State.busWrite_still ..).into ?_
    | (extract_lets +onlyGivenNames x; with_reducible refine Rel.cut (x := ?y) ?_ ?_; (case y => apply x); subst x; rotate_left; clear_value x; intro _)
    | (extract_lets +onlyGivenNames x; clear_value x)
    | extract_lets +onlyGivenNames x
    | simp -zeta -beta -eta -iota -proj -decide only [Rel.upd]
    | dsimp -zeta only
    | with_reducible refine Rel.ite ?_ ?_

theorem execBar2Access_good (off : ℕ) (write : Option (List Byte)) (len : ℕ) (s : State) : Good s (execBar2Access off write len s) := by
  unfold execBar2Access
  repeat' first
    | with_reducible exact Rel.refl _
    | with_reducible assumption
    | exact Good.fault _ _
    | with_reducible refine Good.next ?_
    | with_reducible refine Good.done ?_
    | with_reducible refine (State.done_good ..).into ?_
    | with_reducible refine (State.awake_keep (hf := fun t => ?_) ..).into ?_
    | with_reducible refine (State.undef_keep ..).into ?_
    | with_reducible refine (State.bar2Put_still ..).into ?_
    | (extract_lets +onlyGivenNames x)
    | extract_lets +onlyGivenNames x
    | simp -zeta -beta -eta -iota -proj -decide only [Rel.upd]
    | dsimp -zeta only
    | with_reducible refine Rel.ite ?_ ?_
    | with_reducible refine Good.ite ?_ ?_
    | split

theorem State.msixStrobe_keep (s : State) : Keep s (State.msixStrobe s) := by
  unfold State.msixStrobe
  repeat' first
    | with_reducible exact Rel.refl _
    | with_reducible assumption
    | with_reducible refine Rel.each (fun t x => ?_) ?_
    | with_reducible refine (State.undef_keep ..).into ?_
    | with_reducible refine (State.setFld_still ..).into ?_
    | (extract_lets +onlyGivenNames x; with_reducible refine Rel.cut (x := ?y) ?_ ?_; (case y => apply x); subst x; rotate_left; intro _)
    | (extract_lets +onlyGivenNames x)
    | extract_lets +onlyGivenNames x
    | simp -zeta -beta -eta -iota -proj -decide only [Keep.upd]
    | dsimp -zeta only
    | with_reducible refine Rel.ite ?_ ?_

theorem State.notify_still (s : State) (k : ℕ) (kind : ℕ) (n : ℕ) (body : List Byte) : Still s (State.notify s k kind n body) := by
  unfold State.notify
  repeat' first
    | with_reducible exact Rel.refl _
    | with_reducible assumption
    | with_reducible refine (State.setSess_still ..).into ?_
    | (extract_lets +onlyGivenNames x; with_reducible refine Rel.cut (x := ?y) ?_ ?_; (case y => apply x); subst x; rotate_left; intro _)
    | (extract_lets +onlyGivenNames x)
    | extract_lets +onlyGivenNames x
    | simp -zeta -beta -eta -iota -proj -decide only [Rel.upd]
    | dsimp -zeta only
    | with_reducible refine Rel.ite ?_ ?_
    | split

theorem State.notifySess_still (s : State) (k : ℕ) : Still s (State.notifySess s k) := by
  unfold State.notifySess
  repeat' first
    | with_reducible exact Rel.refl _
    | with_reducible assumption
    | with_reducible refine (State.setSess_still ..).into ?_
    | with_reducible refine (State.notify_still ..).into ?_
    | (extract_lets +onlyGivenNames x; with_reducible refine Rel.cut (x := ?y) ?_ ?_; (case y => apply x); subst x; rotate_left; clear_value x; intro _)
    | (extract_lets +onlyGivenNames x; clear_value x)
    | extract_lets +onlyGivenNames x
    | simp -zeta -beta -eta -iota -proj -decide only [Rel.upd]
    | dsimp -zeta only
    | with_reducible refine Rel.ite ?_ ?_
    | split

theorem State.hostStrobe_keep (s : State) : Keep s (State.hostStrobe s) := by
  unfold State.hostStrobe
  repeat' first
    | with_reducible exact Rel.refl _
    | with_reducible assumption
    | with_reducible refine Rel.each (fun t x => ?_) ?_
    | with_reducible refine (State.notifySess_still ..).into ?_
    | with_reducible refine (State.msixStrobe_keep ..).into ?_
    | (extract_lets +onlyGivenNames x; with_reducible refine Rel.cut (x := ?y) ?_ ?_; (case y => apply x); subst x; rotate_left; intro _)
    | (extract_lets +onlyGivenNames x)
    | extract_lets +onlyGivenNames x
    | simp -zeta -beta -eta -iota -proj -decide only [Keep.upd]
    | dsimp -zeta only
    | with_reducible refine Rel.ite ?_ ?_

theorem State.debugGot_still (s : State) (v : ℕ) : Still s (State.debugGot s v) := by
  unfold State.debugGot
  repeat' first
    | with_reducible exact Rel.refl _
    | with_reducible assumption
    | (extract_lets +onlyGivenNames x)
    | extract_lets +onlyGivenNames x
    | simp -zeta -beta -eta -iota -proj -decide only [Rel.upd]

theorem State.debugBus_keep (s : State) (l : ℕ) (a : ℕ) (write : Option Word) : Keep s (State.debugBus s l a write) := by
  unfold State.debugBus
  repeat' first
    | with_reducible exact Rel.refl _
    | with_reducible assumption
    | with_reducible refine (State.regWrite_keep ..).into ?_
    | with_reducible refine (State.regRead_keep ..).into ?_
    | with_reducible refine Keep.ofPair (by assumption) (State.regRead_keep ..) ?_
    | with_reducible refine (State.debugGot_still ..).into ?_
    | with_reducible refine (State.undef_keep ..).into ?_
    | with_reducible refine (State.busWord_still ..).into ?_
    | with_reducible refine (State.retWrite_still ..).into ?_
    | (extract_lets +onlyGivenNames x; with_reducible refine Rel.cut (x := ?y) ?_ ?_; (case y => apply x.1); subst x; rotate_left; clear_value x; intro _)
    | extract_lets +onlyGivenNames x
    | simp -zeta -beta -eta -iota -proj -decide only [Keep.upd]
    | dsimp -zeta only
    | with_reducible refine Rel.ite ?_ ?_
    | split

theorem State.debugLocal_keep (s : State) (unit : ℕ) (mem : ℕ) (a : ℕ) (write : Option Word) : Keep s (State.debugLocal s unit mem a write) := by
  unfold State.debugLocal
  repeat' first
    | with_reducible exact Rel.refl _
    | with_reducible assumption
    | with_reducible refine (State.useFree_still ..).into ?_
    | with_reducible refine (State.debugGot_still ..).into ?_
    | with_reducible refine (State.modLane_still ..).into ?_
    | with_reducible refine (State.undef_keep ..).into ?_
    | with_reducible refine (State.putBank_still ..).into ?_
    | with_reducible refine (State.vmPut_still ..).into ?_
    | (extract_lets +onlyGivenNames x)
    | extract_lets +onlyGivenNames x
    | simp -zeta -beta -eta -iota -proj -decide only [Keep.upd]
    | dsimp -zeta only
    | with_reducible refine Rel.ite ?_ ?_
    | split

theorem execDebugPortAccess_good (access : DebugAccess) (s : State) : Good s (execDebugPortAccess access s) := by
  unfold execDebugPortAccess
  repeat' first
    | with_reducible exact Rel.refl _
    | with_reducible assumption
    | exact Good.fault _ _
    | with_reducible refine Good.next ?_
    | with_reducible refine Good.done ?_
    | with_reducible refine (State.done_good ..).into ?_
    | with_reducible refine (State.awake_keep (hf := fun t => ?_) ..).into ?_
    | with_reducible refine (State.debugBus_keep ..).into ?_
    | with_reducible refine (State.debugLocal_keep ..).into ?_
    | (extract_lets +onlyGivenNames x)
    | extract_lets +onlyGivenNames x
    | simp -zeta -beta -eta -iota -proj -decide only [Rel.upd]
    | dsimp -zeta only
    | with_reducible refine Rel.ite ?_ ?_
    | with_reducible refine Good.ite ?_ ?_
    | split

end Sys2Proof.Machine
end

