-- ==== Sys2Proof/Laws/KeepTick.lean ====
section
/-!
SUPPORT. Laws/KeepTick.lean: what the operations of Machine/Tick.lean keep.
-/

namespace Sys2Proof.Machine

theorem State.advanceTo_still (s : State) (t : ℕ) : Still s (State.advanceTo s t) := by
  unfold State.advanceTo
  repeat' first
    | with_reducible exact Rel.refl _
    | with_reducible assumption
    | (extract_lets +onlyGivenNames x)
    | extract_lets +onlyGivenNames x
    | simp -zeta -beta -eta -iota -proj -decide only [Rel.upd]

theorem execTickStrobe_good (s : State) : Good s (execTickStrobe s) := by
  unfold execTickStrobe
  repeat' first
    | with_reducible exact Rel.refl _
    | with_reducible assumption
    | exact Good.fault _ _
    | with_reducible refine Good.next ?_
    | with_reducible refine Good.done ?_
    | with_reducible refine (State.wrapFld_still ..).into ?_
    | with_reducible refine (State.advanceTo_still ..).into ?_
    | with_reducible refine (State.setFld_still ..).into ?_
    | with_reducible refine (State.done_good ..).into ?_
    | with_reducible refine (State.powerSelect_keep ..).into ?_
    | with_reducible refine (State.pmc_still ..).into ?_
    | (extract_lets +onlyGivenNames x; with_reducible refine Good.cutK (x := ?y) ?_ ?_; (case y => apply x); subst x; rotate_left; clear_value x; intro _)
    | (extract_lets +onlyGivenNames x; clear_value x)
    | extract_lets +onlyGivenNames x
    | simp -zeta -beta -eta -iota -proj -decide only [Rel.upd]
    | dsimp -zeta only
    | with_reducible refine Rel.ite ?_ ?_
    | with_reducible refine Good.ite ?_ ?_

theorem State.safStrobe_still (s : State) : Still s (State.safStrobe s) := by
  unfold State.safStrobe
  repeat' first
    | with_reducible exact Rel.refl _
    | with_reducible assumption
    | with_reducible refine Rel.each (fun t x => ?_) ?_
    | with_reducible refine (State.latchSig_still ..).into ?_
    | with_reducible refine (State.latchGrp_still ..).into ?_
    | with_reducible refine (State.useFree_still ..).into ?_

theorem State.strobeTurn_still (s : State) : Still s (State.strobeTurn s) := by
  unfold State.strobeTurn
  repeat' first
    | with_reducible exact Rel.refl _
    | with_reducible assumption
    | with_reducible refine (State.applyParked_still ..).into ?_
    | with_reducible refine (State.takeOutputs_still ..).into ?_
    | with_reducible refine (State.turn_still ..).into ?_
    | with_reducible refine (State.forceBoundary_still ..).into ?_

theorem State.strobeUnits_keep (s : State) : Keep s (State.strobeUnits s) := by
  unfold State.strobeUnits
  repeat' first
    | with_reducible exact Rel.refl _
    | with_reducible assumption
    | with_reducible refine (State.canStrobe_keep ..).into ?_
    | with_reducible refine (State.safStrobe_still ..).into ?_
    | with_reducible refine (State.rioStrobe_still ..).into ?_
    | with_reducible refine (State.posStrobe_keep ..).into ?_
    | with_reducible refine (State.motStrobe_still ..).into ?_
    | with_reducible refine (State.dacStrobe_keep ..).into ?_
    | with_reducible refine (State.adcStrobe_keep ..).into ?_

theorem State.strobeEngines_keep (s : State) : Keep s (State.strobeEngines s) := by
  unfold State.strobeEngines
  repeat' first
    | with_reducible exact Rel.refl _
    | with_reducible assumption
    | with_reducible refine (State.logStrobe_still ..).into ?_
    | with_reducible refine (State.undef_keep ..).into ?_
    | with_reducible refine (State.loopStrobe_still ..).into ?_
    | with_reducible refine (State.pairStrobe_still ..).into ?_
    | with_reducible refine (State.residentStart_still ..).into ?_
    | with_reducible refine (State.jrnStrobe_still ..).into ?_
    | (extract_lets +onlyGivenNames x)
    | extract_lets +onlyGivenNames x
    | simp -zeta -beta -eta -iota -proj -decide only [Keep.upd]
    | dsimp -zeta only
    | with_reducible refine Rel.ite ?_ ?_

theorem State.strobeLinks_keep (s : State) : Keep s (State.strobeLinks s) := by
  unfold State.strobeLinks
  repeat' first
    | with_reducible exact Rel.refl _
    | with_reducible assumption
    | with_reducible refine (State.timeFrames_still ..).into ?_
    | with_reducible refine (State.casFrame_still ..).into ?_
    | with_reducible refine (State.mdwStrobe_still ..).into ?_
    | with_reducible refine (State.hostStrobe_keep ..).into ?_
    | (extract_lets +onlyGivenNames x)
    | extract_lets +onlyGivenNames x
    | simp -zeta -beta -eta -iota -proj -decide only [Keep.upd]
    | dsimp -zeta only
    | with_reducible refine Rel.ite ?_ ?_

theorem State.strobeFirst_keep (s : State) (lines : List (ℕ × Bool)) (late : List (ℕ × ℕ)) : Keep s (State.strobeFirst s lines late) := by
  unfold State.strobeFirst
  repeat' first
    | with_reducible exact Rel.refl _
    | with_reducible assumption
    | with_reducible refine (State.subsStrobe_still ..).into ?_
    | with_reducible refine (State.jrnBoundary_keep ..).into ?_
    | with_reducible refine (State.pairCheck_still ..).into ?_
    | with_reducible refine (State.timeRealign_keep ..).into ?_
    | with_reducible refine (State.haltStrobe_keep ..).into ?_
    | with_reducible refine (State.setLines_still ..).into ?_
    | (extract_lets +onlyGivenNames x)
    | extract_lets +onlyGivenNames x
    | simp -zeta -beta -eta -iota -proj -decide only [Keep.upd]

theorem execStrobeArrival_good (lines : List (ℕ × Bool)) (late : List (ℕ × ℕ)) (s : State) : Good s (execStrobeArrival lines late s) := by
  unfold execStrobeArrival
  repeat' first
    | with_reducible exact Rel.refl _
    | with_reducible assumption
    | exact Good.fault _ _
    | with_reducible refine Good.next ?_
    | with_reducible refine Good.done ?_
    | with_reducible refine (State.done_good ..).into ?_
    | with_reducible refine (State.strobeLinks_keep ..).into ?_
    | with_reducible refine (State.strobeEngines_keep ..).into ?_
    | with_reducible refine (State.strobeUnits_keep ..).into ?_
    | with_reducible refine (State.strobeTurn_still ..).into ?_
    | with_reducible refine (State.strobeFirst_keep ..).into ?_
    | simp -zeta -beta -eta -iota -proj -decide only [Rel.upd]
    | dsimp -zeta only
    | with_reducible refine Rel.ite ?_ ?_
    | with_reducible refine Good.ite ?_ ?_

theorem State.countLate_still (s : State) : Still s (State.countLate s) := by
  unfold State.countLate
  repeat' first
    | with_reducible exact Rel.refl _
    | with_reducible assumption
    | with_reducible refine Rel.each (fun t x => ?_) ?_
    | with_reducible refine (State.setFld_still ..).into ?_
    | with_reducible refine (State.incFld_still ..).into ?_

theorem State.readyLatched_still (s : State) : Still s (State.readyLatched s) := by
  unfold State.readyLatched
  repeat' first
    | with_reducible exact Rel.refl _
    | with_reducible assumption
    | with_reducible refine (State.dispatch_still ..).into ?_
    | with_reducible refine Rel.each (fun t x => ?_) ?_
    | with_reducible refine (State.makeReady_still ..).into ?_
    | simp -zeta -beta -eta -iota -proj -decide only [Rel.upd]
    | dsimp -zeta only
    | with_reducible refine Rel.ite ?_ ?_

theorem execInputClose_good (skips missed : List ℕ) (s : State) : Good s (execInputClose skips missed s) := by
  unfold execInputClose
  split
  · exact Good.next (Rel.refl s)
  · have h := State.advanceTo_still s (boundaryNs s.time.tick + 4000)
    revert h
    generalize s.advanceTo (boundaryNs s.time.tick + 4000) = t
    intro h
    have h1 : Still s (State.countLate { t with time := { t.time with phase := .inputClosed } }) :=
      (State.countLate_still ..).into (Rel.upd.mpr h)
    revert h1
    dsimp only
    generalize (State.countLate { t with time := { t.time with phase := .inputClosed } }) = u
    intro h1
    have h2 : Still s { u with sig := { u.sig with late := [] } } := Rel.upd.mpr h1
    revert h2
    generalize ({ u with sig := { u.sig with late := [] } } : State) = v
    intro h2
    have h3 : Keep s (if v.halted = true then v else v.logInputClose) :=
      Rel.ite (Rel.weak h2) ((State.logInputClose_keep ..).into (Rel.weak h2))
    revert h3
    generalize (if v.halted = true then v else v.logInputClose) = w
    intro h3
    exact Good.done ((State.shpInputClose_still ..).into ((State.netSafe_still ..).into ((State.casExport_still ..).into
      ((State.pairSendTick_still ..).into ((State.jrnInputClose_still ..).into ((State.mdwInputClose_keep ..).into
        ((State.readyLatched_still ..).into h3)))))))

theorem execOutputClose_good (s : State) : Good s (execOutputClose s) := by
  unfold execOutputClose
  repeat' first
    | with_reducible exact Rel.refl _
    | with_reducible assumption
    | exact Good.fault _ _
    | with_reducible refine Good.next ?_
    | with_reducible refine Good.done ?_
    | with_reducible refine (State.advanceTo_still ..).into ?_
    | with_reducible refine (State.done_good ..).into ?_
    | with_reducible refine (State.jrnOutputClose_still ..).into ?_
    | with_reducible refine (State.freezeSets_still ..).into ?_
    | with_reducible refine (State.canOutputClose_still ..).into ?_
    | with_reducible refine (State.casOutputClose_still ..).into ?_
    | (extract_lets +onlyGivenNames x; with_reducible refine Good.cutK (x := ?y) ?_ ?_; (case y => apply x); subst x; rotate_left; clear_value x; intro _)
    | (extract_lets +onlyGivenNames x; clear_value x)
    | extract_lets +onlyGivenNames x
    | simp -zeta -beta -eta -iota -proj -decide only [Rel.upd]
    | dsimp -zeta only
    | with_reducible refine Rel.ite ?_ ?_
    | with_reducible refine Good.ite ?_ ?_

end Sys2Proof.Machine
end

