-- ==== Sys2Proof/Laws/KeepStep.lean ====
section
/-!
SUPPORT. Laws/KeepStep.lean: what every command keeps.
-/

namespace Sys2Proof.Machine

/-- No command touches the queue, leaves a table out of its form, or goes on after an undefined case. -/
theorem exec_good (c : Instr) (s : State) : Good s (exec c s) := by
  cases c
  case por => exact execPor_good s
  case pinReset => exact execPinReset_good s
  case softReset => exact execSoftReset_good s
  case clockReset => exact execClockReset_good s
  case xinStop => exact execXinStop_good s
  case xinReturn => exact execXinReturn_good s
  case serdesPllLoss lost => exact execSerdesPllLoss_good lost s
  case resetRelease bootSel cascPos pairRole => exact execResetRelease_good bootSel cascPos pairRole s
  case pllLock => exact execPllLock_good s
  case colStall pair dir => exact execColStall_good pair dir s
  case colStallClear => exact execColStallClear_good s
  case tickStrobe => exact execTickStrobe_good s
  case strobeArrival lines late => exact execStrobeArrival_good lines late s
  case inputClose skips missed => exact execInputClose_good skips missed s
  case outputClose => exact execOutputClose_good s
  case outputPrefetch unit => exact execOutputPrefetch_good unit s
  case tickClr => exact execTickClr_good s
  case registerWrite addr data priv => exact execRegisterWrite_good addr data priv s
  case plainTransaction port requester addr isWrite data len => exact execPlainTransaction_good port requester addr isWrite data len s
  case grant ecc => exact execGrant_good ecc s
  case retainedStoreAccess => exact execRetainedStoreAccess_good s
  case plnClrWait => exact execPlnClrWait_good s
  case plnClrEcc => exact execPlnClrEcc_good s
  case plnClrWin => exact execPlnClrWin_good s
  case jobRelease job => exact execJobRelease_good job s
  case runLimit lane issued => exact execRunLimit_good lane issued s
  case jobComplete engine => exact execJobComplete_good engine s
  case deadlinePass job issued => exact execDeadlinePass_good job issued s
  case expiry => exact execExpiry_good s
  case waitEvent event => exact execWaitEvent_good event s
  case loadIntervalEnd lane logic => exact execLoadIntervalEnd_good lane logic s
  case schClrCounts => exact execSchClrCounts_good s
  case schClrPeaks => exact execSchClrPeaks_good s
  case forceSet => exact execForceSet_good s
  case forceRelease => exact execForceRelease_good s
  case forceReleaseAll => exact execForceReleaseAll_good s
  case sigClrStats => exact execSigClrStats_good s
  case seqEvaluation cut cycles => exact execSeqEvaluation_good cut cycles s
  case seqNop seq arg => exact execSeqNop_good seq arg s
  case seqLoad seq arg => exact execSeqLoad_good seq arg s
  case seqStart seq arg => exact execSeqStart_good seq arg s
  case seqHold seq arg => exact execSeqHold_good seq arg s
  case seqContinue seq arg => exact execSeqContinue_good seq arg s
  case seqSkip seq arg => exact execSeqSkip_good seq arg s
  case seqAbort seq arg => exact execSeqAbort_good seq arg s
  case seqStop seq arg => exact execSeqStop_good seq arg s
  case seqResumeCommit seq arg => exact execSeqResumeCommit_good seq arg s
  case seqClear seq arg => exact execSeqClear_good seq arg s
  case passCommit kind spanSeq from_ target atSec atNs attempt arg => exact execPassCommit_good kind spanSeq from_ target atSec atNs attempt arg s
  case passAnswer spanSeq pos code attempt => exact execPassAnswer_good spanSeq pos code attempt s
  case passMiss seq start => exact execPassMiss_good seq start s
  case passAckDeadline seq => exact execPassAckDeadline_good seq s
  case seqClrCounts => exact execSeqClrCounts_good s
  case seqClrPeaks => exact execSeqClrPeaks_good s
  case loopMode slot mode => exact execLoopMode_good slot mode s
  case loopLimitLo slot value => exact execLoopLimitLo_good slot value s
  case loopLimitHi slot value => exact execLoopLimitHi_good slot value s
  case loopClearFault slot => exact execLoopClearFault_good slot s
  case loopClrCounts => exact execLoopClrCounts_good s
  case loopClrPeaks => exact execLoopClrPeaks_good s
  case laneJobStart lane dlat => exact execLaneJobStart_good lane dlat s
  case laneNop lane => exact execLaneNop_good lane s
  case laneEnd lane => exact execLaneEnd_good lane s
  case laneJmp lane tgt => exact execLaneJmp_good lane tgt s
  case laneBr lane cc tgt => exact execLaneBr_good lane cc tgt s
  case laneCall lane tgt => exact execLaneCall_good lane tgt s
  case laneRet lane => exact execLaneRet_good lane s
  case laneLoop lane i x last => exact execLaneLoop_good lane i x last s
  case laneWaits lane n => exact execLaneWaits_good lane n s
  case laneInh lane v => exact execLaneInh_good lane v s
  case laneEvt lane c code => exact execLaneEvt_good lane c code s
  case laneLdi lane d imm => exact execLaneLdi_good lane d imm s
  case laneLdp lane p imm => exact execLaneLdp_good lane p imm s
  case laneLdm lane p imm => exact execLaneLdm_good lane p imm s
  case laneLdz lane p k => exact execLaneLdz_good lane p k s
  case laneMovx lane d sp dir => exact execLaneMovx_good lane d sp dir s
  case laneSetm lane sat rnd msh => exact execLaneSetm_good lane sat rnd msh s
  case laneLd lane d p m => exact execLaneLd_good lane d p m s
  case laneSt lane r p m => exact execLaneSt_good lane r p m s
  case laneLd2 lane d x mx y my => exact execLaneLd2_good lane d x mx y my s
  case laneLim lane d r t => exact execLaneLim_good lane d r t s
  case laneGet lane d ind x => exact execLaneGet_good lane d ind x s
  case laneGetw lane d ind x => exact execLaneGetw_good lane d ind x s
  case lanePut lane r ind x => exact execLanePut_good lane r ind x s
  case lanePutw lane r ind x => exact execLanePutw_good lane r ind x s
  case laneFld lane d disp => exact execLaneFld_good lane d disp s
  case laneFst lane r disp => exact execLaneFst_good lane r disp s
  case lanePop lane d => exact execLanePop_good lane d s
  case laneMpyReg lane a r t => exact execLaneMpyReg_good lane a r t s
  case laneMpyMem lane a r p m => exact execLaneMpyMem_good lane a r p m s
  case laneMpyDual lane a x mx y my => exact execLaneMpyDual_good lane a x mx y my s
  case laneMacReg lane a r t => exact execLaneMacReg_good lane a r t s
  case laneMacMem lane a r p m => exact execLaneMacMem_good lane a r p m s
  case laneMacDual lane a x mx y my => exact execLaneMacDual_good lane a x mx y my s
  case laneMsuReg lane a r t => exact execLaneMsuReg_good lane a r t s
  case laneMsuMem lane a r p m => exact execLaneMsuMem_good lane a r p m s
  case laneMsuDual lane a x mx y my => exact execLaneMsuDual_good lane a x mx y my s
  case laneMpyu lane a r t => exact execLaneMpyu_good lane a r t s
  case laneAdd lane d r t => exact execLaneAdd_good lane d r t s
  case laneSub lane d r t => exact execLaneSub_good lane d r t s
  case laneMinmax lane d r t f => exact execLaneMinmax_good lane d r t f s
  case laneLog lane d r t f => exact execLaneLog_good lane d r t f s
  case laneShd lane d r k n => exact execLaneShd_good lane d r k n s
  case laneCmp lane r t => exact execLaneCmp_good lane r t s
  case laneAcc lane a f => exact execLaneAcc_good lane a f s
  case laneSha lane a v x => exact execLaneSha_good lane a v x s
  case laneMva lane a d r o sh => exact execLaneMva_good lane a d r o sh s
  case laneMvd lane a r o sh => exact execLaneMvd_good lane a r o sh s
  case laneNorm lane a d e => exact execLaneNorm_good lane a d e s
  case laneDataError lane => exact execLaneDataError_good lane s
  case streamSample lane sample => exact execStreamSample_good lane sample s
  case laneMemAccess isWrite data => exact execLaneMemAccess_good isWrite data s
  case laneClrCounts => exact execLaneClrCounts_good s
  case laneClrPeaks => exact execLaneClrPeaks_good s
  case cycleStart core whole dlat => exact execCycleStart_good core whole dlat s
  case cycleComplete core => exact execCycleComplete_good core s
  case logicNop core => exact execLogicNop_good core s
  case logicEnd core => exact execLogicEnd_good core s
  case logicJmp core tgt => exact execLogicJmp_good core tgt s
  case logicBr core cc tgt => exact execLogicBr_good core cc tgt s
  case logicCall core tgt => exact execLogicCall_good core tgt s
  case logicRet core => exact execLogicRet_good core s
  case logicBrb core r v tgt => exact execLogicBrb_good core r v tgt s
  case logicLdw core d r off => exact execLogicLdw_good core d r off s
  case logicLdh core d r off => exact execLogicLdh_good core d r off s
  case logicLdb core d r off => exact execLogicLdb_good core d r off s
  case logicStw core d r off => exact execLogicStw_good core d r off s
  case logicSth core d r off => exact execLogicSth_good core d r off s
  case logicStb core d r off => exact execLogicStb_good core d r off s
  case logicLdx core d r off b => exact execLogicLdx_good core d r off b s
  case logicStx core d r off b => exact execLogicStx_good core d r off b s
  case logicLdi core d imm => exact execLogicLdi_good core d imm s
  case logicLdih core d imm => exact execLogicLdih_good core d imm s
  case logicMov core d r => exact execLogicMov_good core d r s
  case logicAdd core d r t => exact execLogicAdd_good core d r t s
  case logicSub core d r t => exact execLogicSub_good core d r t s
  case logicMul core d r t => exact execLogicMul_good core d r t s
  case logicDiv core d r t => exact execLogicDiv_good core d r t s
  case logicMod core d r t => exact execLogicMod_good core d r t s
  case logicAddi core d r imm => exact execLogicAddi_good core d r imm s
  case logicAdds core d r t => exact execLogicAdds_good core d r t s
  case logicSubs core d r t => exact execLogicSubs_good core d r t s
  case logicLgc core d r t f => exact execLogicLgc_good core d r t f s
  case logicNot core d r => exact execLogicNot_good core d r s
  case logicShf core d r t f => exact execLogicShf_good core d r t f s
  case logicShfi core d r n f => exact execLogicShfi_good core d r n f s
  case logicMinmax core d r t f => exact execLogicMinmax_good core d r t f s
  case logicLimit core d r t => exact execLogicLimit_good core d r t s
  case logicAbsneg core d r f => exact execLogicAbsneg_good core d r f s
  case logicCmp core r t => exact execLogicCmp_good core r t s
  case logicCmpi core r imm => exact execLogicCmpi_good core r imm s
  case logicSetc core d cc => exact execLogicSetc_good core d cc s
  case logicSel core d r t => exact execLogicSel_good core d r t s
  case logicBop core d r t f ns nt => exact execLogicBop_good core d r t f ns nt s
  case logicQmul core d r t => exact execLogicQmul_good core d r t s
  case logicFadd core d r t => exact execLogicFadd_good core d r t s
  case logicFsub core d r t => exact execLogicFsub_good core d r t s
  case logicFmul core d r t => exact execLogicFmul_good core d r t s
  case logicFdiv core d r t => exact execLogicFdiv_good core d r t s
  case logicFcmp core r t => exact execLogicFcmp_good core r t s
  case logicFcvt core d r f => exact execLogicFcvt_good core d r f s
  case logicGetd core d ind x => exact execLogicGetd_good core d ind x s
  case logicPutd core d ind x => exact execLogicPutd_good core d ind x s
  case logicGrp core d g => exact execLogicGrp_good core d g s
  case logicTmr core d r f i => exact execLogicTmr_good core d r f i s
  case logicTpt core r i => exact execLogicTpt_good core r i s
  case logicTrd core d i => exact execLogicTrd_good core d i s
  case logicCnt core d r f i => exact execLogicCnt_good core d r f i s
  case logicCpv core r i => exact execLogicCpv_good core r i s
  case logicCrd core d i => exact execLogicCrd_good core d i s
  case logicEdge core d r f i => exact execLogicEdge_good core d r f i s
  case logicEvt core c code => exact execLogicEvt_good core c code s
  case exchRequest => exact execExchRequest_good s
  case exchCheckDone => exact execExchCheckDone_good s
  case exchWindowOpen => exact execExchWindowOpen_good s
  case exchTimeout => exact execExchTimeout_good s
  case exchCancel => exact execExchCancel_good s
  case taskStart task => exact execTaskStart_good task s
  case taskStop task => exact execTaskStop_good task s
  case logClrCounts => exact execLogClrCounts_good s
  case logClrPeaks => exact execLogClrPeaks_good s
  case journalRecordDone unstable => exact execJournalRecordDone_good unstable s
  case holdupTestStart samples => exact execHoldupTestStart_good samples s
  case holdLoadOn => exact execHoldLoadOn_good s
  case holdupTestEnd samples => exact execHoldupTestEnd_good samples s
  case idleRetest => exact execIdleRetest_good s
  case jrnTest => exact execJrnTest_good s
  case jrnSelect copy => exact execJrnSelect_good copy s
  case jrnDiscard => exact execJrnDiscard_good s
  case pfailAccept => exact execPfailAccept_good s
  case pfailRelease bootSel cascPos pairRole => exact execPfailRelease_good bootSel cascPos pairRole s
  case restoreEnd => exact execRestoreEnd_good s
  case autoResume => exact execAutoResume_good s
  case jrnClrCounts => exact execJrnClrCounts_good s
  case jrnClrPeaks => exact execJrnClrPeaks_good s
  case adcResult group slice raw => exact execAdcResult_good group slice raw s
  case triggerTimer group timer => exact execTriggerTimer_good group timer s
  case adcTrigger group slice => exact execAdcTrigger_good group slice s
  case conversionDue group slice ended => exact execConversionDue_good group slice ended s
  case adcCalibrate groups => exact execAdcCalibrate_good groups s
  case calibrationStart group => exact execCalibrationStart_good group s
  case calibrationEnd group lo hi => exact execCalibrationEnd_good group lo hi s
  case adcSupplyFault => exact execAdcSupplyFault_good s
  case adcClrCounts => exact execAdcClrCounts_good s
  case profileInterval k lines => exact execProfileInterval_good k lines s
  case moveAbs axis arg => exact execMoveAbs_good axis arg s
  case moveRel axis arg => exact execMoveRel_good axis arg s
  case stopRamped axis => exact execStopRamped_good axis s
  case stopHard axis => exact execStopHard_good axis s
  case motHome axis => exact execMotHome_good axis s
  case motClearFault axis => exact execMotClearFault_good axis s
  case pwmValley channel => exact execPwmValley_good channel s
  case pwmConverterTrigger channel => exact execPwmConverterTrigger_good channel s
  case pwmInhibit input => exact execPwmInhibit_good input s
  case standstillReduce axis => exact execStandstillReduce_good axis s
  case motSignalWrite => exact execMotSignalWrite_good s
  case sdmOutput input output => exact execSdmOutput_good input output s
  case overCurrent input output => exact execOverCurrent_good input output s
  case dataStuck input => exact execDataStuck_good input s
  case quadratureTransition channel ab => exact execQuadratureTransition_good channel ab s
  case zCapture channel => exact execZCapture_good channel s
  case wireFault channel lines => exact execWireFault_good channel lines s
  case ssiFrame channel ready bits parity => exact execSsiFrame_good channel ready bits parity s
  case comparePulseEnd unit => exact execComparePulseEnd_good unit s
  case compareEntryWrite unit entry value => exact execCompareEntryWrite_good unit entry value s
  case armZ channel => exact execArmZ_good channel s
  case posClear channel => exact execPosClear_good channel s
  case cmpArm unit => exact execCmpArm_good unit s
  case cmpDisarm unit => exact execCmpDisarm_good unit s
  case loadCount channel arg => exact execLoadCount_good channel arg s
  case clearSsi channel => exact execClearSsi_good channel s
  case islandPor => exact execIslandPor_good s
  case selfTestDone => exact execSelfTestDone_good s
  case islandScan inputs emo readback clockOk => exact execIslandScan_good inputs emo readback clockOk s
  case inputTestPulse source offset => exact execInputTestPulse_good source offset s
  case inputTestSample source inputs emo => exact execInputTestSample_good source inputs emo s
  case outputTestPulse output offset => exact execOutputTestPulse_good output offset s
  case outputPulseCheck output energised => exact execOutputPulseCheck_good output energised s
  case outputFault output energised offset => exact execOutputFault_good output energised offset s
  case keepaliveExpiry output => exact execKeepaliveExpiry_good output s
  case lockstepFault => exact execLockstepFault_good s
  case memoryFault => exact execMemoryFault_good s
  case configCrcCheck crc => exact execConfigCrcCheck_good crc s
  case safeSupplyFault temp => exact execSafeSupplyFault_good temp s
  case emoDiscrepancy => exact execEmoDiscrepancy_good s
  case discrepancy function => exact execDiscrepancy_good function s
  case functionDelayExpiry function => exact execFunctionDelayExpiry_good function s
  case safeFrameSend => exact execSafeFrameSend_good s
  case mailboxMessage sender msg => exact execMailboxMessage_good sender msg s
  case pathSilent connection path => exact execPathSilent_good connection path s
  case frameMismatch connection => exact execFrameMismatch_good connection s
  case configDropped => exact execConfigDropped_good s
  case islandPfail => exact execIslandPfail_good s
  case islandPfailReturn => exact execIslandPfailReturn_good s
  case pairElection => exact execPairElection_good s
  case tickRec record => exact execTickRec_good record s
  case journalFrame mirror line stage => exact execJournalFrame_good mirror line stage s
  case pairCompare fails fatal => exact execPairCompare_good fails fatal s
  case pairDecision standbyReady => exact execPairDecision_good standbyReady s
  case pairTakeover => exact execPairTakeover_good s
  case pairSwitch standbyReady => exact execPairSwitch_good standbyReady s
  case pairResync => exact execPairResync_good s
  case pairRelease => exact execPairRelease_good s
  case pairClrCounts => exact execPairClrCounts_good s
  case linkSignalDetect port => exact execLinkSignalDetect_good port s
  case blockLock port => exact execBlockLock_good port s
  case helloSend port => exact execHelloSend_good port s
  case linkHello port vmin vmax pos node uid role strap image since => exact execLinkHello_good port vmin vmax pos node uid role strap image since s
  case blockLockLoss port => exact execBlockLockLoss_good port s
  case creditFrame port cls terrace lines => exact execCreditFrame_good port cls terrace lines s
  case linkTransmit port => exact execLinkTransmit_good port s
  case casFrameTransit port frame => exact execCasFrameTransit_good port frame s
  case casFrameBad port => exact execCasFrameBad_good port s
  case beacon uid => exact execBeacon_good uid s
  case masterLost => exact execMasterLost_good s
  case masterLostAbort => exact execMasterLostAbort_good s
  case safeFrame path bytes => exact execSafeFrame_good path bytes s
  case signalFrame pos values => exact execSignalFrame_good pos values s
  case syncRec lines stage => exact execSyncRec_good lines stage s
  case recordFrame src msg => exact execRecordFrame_good src msg s
  case shpFwd request => exact execShpFwd_good request s
  case resyncFrame region off bytes forces last => exact execResyncFrame_good region off bytes forces last s
  case casClrCounts => exact execCasClrCounts_good s
  case timNowRead => exact execTimNowRead_good s
  case timeFrame port sent peerRx ourTx valid => exact execTimeFrame_good port sent peerRx ourTx valid s
  case ptpMessage port msg => exact execPtpMessage_good port msg s
  case ptpSend port next => exact execPtpSend_good port next s
  case servoUpdate => exact execServoUpdate_good s
  case holdover => exact execHoldover_good s
  case stepApply => exact execStepApply_good s
  case timeSet => exact execTimeSet_good s
  case frameIngress port frame => exact execFrameIngress_good port frame s
  case frameEgress port => exact execFrameEgress_good port s
  case frameAged port queue => exact execFrameAged_good port queue s
  case gateListEntry port => exact execGateListEntry_good port s
  case gclSwap port => exact execGclSwap_good port s
  case gclEntryAccess write => exact execGclEntryAccess_good write s
  case addressAge mac vid => exact execAddressAge_good mac vid s
  case domainFrame node pos ty => exact execDomainFrame_good node pos ty s
  case netClrCounts => exact execNetClrCounts_good s
  case ringCycleStart ring => exact execRingCycleStart_good ring s
  case rioCycle ring frame fcsOk segs => exact execRioCycle_good ring frame fcsOk segs s
  case rioEnum ring upper ids => exact execRioEnum_good ring upper ids s
  case rioProbe ring module trip => exact execRioProbe_good ring module trip s
  case rioConfig ring module => exact execRioConfig_good ring module s
  case rioDiag ring module bytes => exact execRioDiag_good ring module bytes s
  case ringSyncLoss ring => exact execRingSyncLoss_good ring s
  case rioClrCounts => exact execRioClrCounts_good s
  case canFrameReceive ctrl id dlc esi rtr data sof lost => exact execCanFrameReceive_good ctrl id dlc esi rtr data sof lost s
  case canFrameSent ctrl obj age => exact execCanFrameSent_good ctrl obj age s
  case canError ctrl obj kind tecUp recUp => exact execCanError_good ctrl obj kind tecUp recUp s
  case busOffRecovery ctrl => exact execBusOffRecovery_good ctrl s
  case canSend ctrl obj started => exact execCanSend_good ctrl obj started s
  case canCancel ctrl obj tooLate => exact execCanCancel_good ctrl obj tooLate s
  case canFifoReadAdvance ctrl fifo rd => exact execCanFifoReadAdvance_good ctrl fifo rd s
  case canClrCounts => exact execCanClrCounts_good s
  case recordWrite => exact execRecordWrite_good s
  case mdwClearFault => exact execMdwClearFault_good s
  case clearProcess => exact execClearProcess_good s
  case closeFree => exact execCloseFree_good s
  case mdwRdSerialWrite serial => exact execMdwRdSerialWrite_good serial s
  case mdwAdv => exact execMdwAdv_good s
  case mdwRdLoadDone => exact execMdwRdLoadDone_good s
  case traceFrameSend sub => exact execTraceFrameSend_good sub s
  case mdwClrCounts => exact execMdwClrCounts_good s
  case mdwClrPeaks => exact execMdwClrPeaks_good s
  case directoryRead first second => exact execDirectoryRead_good first second s
  case copyVerify copy data => exact execCopyVerify_good copy data s
  case loadPass data extra => exact execLoadPass_good data extra s
  case bootSelect copy => exact execBootSelect_good copy s
  case bootLoadHost => exact execBootLoadHost_good s
  case bootRetry => exact execBootRetry_good s
  case bootApply extra => exact execBootApply_good extra s
  case changePersist copies => exact execChangePersist_good copies s
  case shpHello req rand => exact execShpHello_good req rand s
  case shpOpen req => exact execShpOpen_good req s
  case shpClose req => exact execShpClose_good req s
  case shpKeepalive req => exact execShpKeepalive_good req s
  case sessionIdle session => exact execSessionIdle_good session s
  case regRead req => exact execRegRead_good req s
  case regWrite req => exact execRegWrite_good req s
  case plainRead req => exact execPlainRead_good req s
  case sigRead req mixed remote => exact execSigRead_good req mixed remote s
  case sigWrite req => exact execSigWrite_good req s
  case shpForce req => exact execShpForce_good req s
  case shpSeq req => exact execShpSeq_good req s
  case shpLoop req => exact execShpLoop_good req s
  case shpAxis req => exact execShpAxis_good req s
  case recRead req => exact execRecRead_good req s
  case shpTrace req => exact execShpTrace_good req s
  case shpSafety req msg => exact execShpSafety_good req msg s
  case imagePut req => exact execImagePut_good req s
  case imageApply req extra => exact execImageApply_good req extra s
  case copyWrite req => exact execCopyWrite_good req s
  case testRecord req => exact execTestRecord_good req s
  case shpTimeout session => exact execShpTimeout_good session s
  case mailboxTimeout unit => exact execMailboxTimeout_good unit s
  case bar0Access off size write => exact execBar0Access_good off size write s
  case bar2Access off write len => exact execBar2Access_good off write len s
  case secProvision priv => exact execSecProvision_good priv s
  case secLock priv => exact execSecLock_good priv s
  case secRetire priv => exact execSecRetire_good priv s
  case secRaiseSvn priv => exact execSecRaiseSvn_good priv s
  case secKeyWrite priv => exact execSecKeyWrite_good priv s
  case keyDataWrite data => exact execKeyDataWrite_good data s
  case dbgChallenge => exact execDbgChallenge_good s
  case challengeReady rand => exact execChallengeReady_good rand s
  case dbgVerify => exact execDbgVerify_good s
  case verifyResult => exact execVerifyResult_good s
  case challengeExpiry => exact execChallengeExpiry_good s
  case dbgRequestFull => exact execDbgRequestFull_good s
  case dbgHalt => exact execDbgHalt_good s
  case dbgResume => exact execDbgResume_good s
  case dbgDrop => exact execDbgDrop_good s
  case wakeTimer => exact execWakeTimer_good s
  case wakeLine line => exact execWakeLine_good line s
  case wakeComplete => exact execWakeComplete_good s
  case hibWake extra => exact execHibWake_good extra s
  case pwrHold hold => exact execPwrHold_good hold s
  case pmcSnap => exact execPmcSnap_good s
  case pmcClear => exact execPmcClear_good s
  case debugReset => exact execDebugReset_good s
  case debugPortAccess access => exact execDebugPortAccess_good access s
  case spllLock good => exact execSpllLock_good good s
  case islandPorRelease => exact execIslandPorRelease_good s
  case adcSupplyGood => exact execAdcSupplyGood_good s
  case sgmiiSynchronisation ring => exact execSgmiiSynchronisation_good ring s
  case pcieL1Exit => exact execPcieL1Exit_good s
  case unknownType ty req => exact execUnknownType_good ty req s

end Sys2Proof.Machine
end

