-- ==== Sys2Proof/Laws/State.lean ====
section
/-!
SUPPORT. Laws/State.lean: what each update of State leaves in each field: one lemma per field per update, each true by
unfolding.
-/

namespace Sys2Proof.Machine

section SetReg

variable (s : State) (a : Nat) (w : Word)

@[simp] theorem State.setReg_regs : (s.setReg a w).regs = Sparse.set resetValue s.regs a w := rfl
@[simp] theorem State.setReg_plain : (s.setReg a w).plain = s.plain := rfl
@[simp] theorem State.setReg_retained : (s.setReg a w).retained = s.retained := rfl
@[simp] theorem State.setReg_unitc : (s.setReg a w).unitc = s.unitc := rfl
@[simp] theorem State.setReg_vales : (s.setReg a w).vales = s.vales := rfl
@[simp] theorem State.setReg_time : (s.setReg a w).time = s.time := rfl
@[simp] theorem State.setReg_arb : (s.setReg a w).arb = s.arb := rfl
@[simp] theorem State.setReg_sch : (s.setReg a w).sch = s.sch := rfl
@[simp] theorem State.setReg_sig : (s.setReg a w).sig = s.sig := rfl
@[simp] theorem State.setReg_seq : (s.setReg a w).seq = s.seq := rfl
@[simp] theorem State.setReg_loop : (s.setReg a w).loop = s.loop := rfl
@[simp] theorem State.setReg_lanes : (s.setReg a w).lanes = s.lanes := rfl
@[simp] theorem State.setReg_log : (s.setReg a w).log = s.log := rfl
@[simp] theorem State.setReg_psRetired : (s.setReg a w).psRetired = s.psRetired := rfl
@[simp] theorem State.setReg_psNext : (s.setReg a w).psNext = s.psNext := rfl
@[simp] theorem State.setReg_jrn : (s.setReg a w).jrn = s.jrn := rfl
@[simp] theorem State.setReg_mdw : (s.setReg a w).mdw = s.mdw := rfl
@[simp] theorem State.setReg_adc : (s.setReg a w).adc = s.adc := rfl
@[simp] theorem State.setReg_mot : (s.setReg a w).mot = s.mot := rfl
@[simp] theorem State.setReg_pos : (s.setReg a w).pos = s.pos := rfl
@[simp] theorem State.setReg_saf : (s.setReg a w).saf = s.saf := rfl
@[simp] theorem State.setReg_pair : (s.setReg a w).pair = s.pair := rfl
@[simp] theorem State.setReg_cas : (s.setReg a w).cas = s.cas := rfl
@[simp] theorem State.setReg_net : (s.setReg a w).net = s.net := rfl
@[simp] theorem State.setReg_rio : (s.setReg a w).rio = s.rio := rfl
@[simp] theorem State.setReg_can : (s.setReg a w).can = s.can := rfl
@[simp] theorem State.setReg_boot : (s.setReg a w).boot = s.boot := rfl
@[simp] theorem State.setReg_sec : (s.setReg a w).sec = s.sec := rfl
@[simp] theorem State.setReg_pwr : (s.setReg a w).pwr = s.pwr := rfl
@[simp] theorem State.setReg_hst : (s.setReg a w).hst = s.hst := rfl
@[simp] theorem State.setReg_free : (s.setReg a w).free = s.free := rfl
@[simp] theorem State.setReg_trap : (s.setReg a w).trap = s.trap := rfl
@[simp] theorem State.setReg_pending : (s.setReg a w).pending = s.pending := rfl

end SetReg

section SetFld

variable (s : State) (f : Fld) (v : Nat)

@[simp] theorem State.setFld_plain : (s.setFld f v).plain = s.plain := rfl
@[simp] theorem State.setFld_retained : (s.setFld f v).retained = s.retained := rfl
@[simp] theorem State.setFld_unitc : (s.setFld f v).unitc = s.unitc := rfl
@[simp] theorem State.setFld_vales : (s.setFld f v).vales = s.vales := rfl
@[simp] theorem State.setFld_time : (s.setFld f v).time = s.time := rfl
@[simp] theorem State.setFld_arb : (s.setFld f v).arb = s.arb := rfl
@[simp] theorem State.setFld_sch : (s.setFld f v).sch = s.sch := rfl
@[simp] theorem State.setFld_sig : (s.setFld f v).sig = s.sig := rfl
@[simp] theorem State.setFld_seq : (s.setFld f v).seq = s.seq := rfl
@[simp] theorem State.setFld_loop : (s.setFld f v).loop = s.loop := rfl
@[simp] theorem State.setFld_lanes : (s.setFld f v).lanes = s.lanes := rfl
@[simp] theorem State.setFld_log : (s.setFld f v).log = s.log := rfl
@[simp] theorem State.setFld_psRetired : (s.setFld f v).psRetired = s.psRetired := rfl
@[simp] theorem State.setFld_psNext : (s.setFld f v).psNext = s.psNext := rfl
@[simp] theorem State.setFld_jrn : (s.setFld f v).jrn = s.jrn := rfl
@[simp] theorem State.setFld_mdw : (s.setFld f v).mdw = s.mdw := rfl
@[simp] theorem State.setFld_adc : (s.setFld f v).adc = s.adc := rfl
@[simp] theorem State.setFld_mot : (s.setFld f v).mot = s.mot := rfl
@[simp] theorem State.setFld_pos : (s.setFld f v).pos = s.pos := rfl
@[simp] theorem State.setFld_saf : (s.setFld f v).saf = s.saf := rfl
@[simp] theorem State.setFld_pair : (s.setFld f v).pair = s.pair := rfl
@[simp] theorem State.setFld_cas : (s.setFld f v).cas = s.cas := rfl
@[simp] theorem State.setFld_net : (s.setFld f v).net = s.net := rfl
@[simp] theorem State.setFld_rio : (s.setFld f v).rio = s.rio := rfl
@[simp] theorem State.setFld_can : (s.setFld f v).can = s.can := rfl
@[simp] theorem State.setFld_boot : (s.setFld f v).boot = s.boot := rfl
@[simp] theorem State.setFld_sec : (s.setFld f v).sec = s.sec := rfl
@[simp] theorem State.setFld_pwr : (s.setFld f v).pwr = s.pwr := rfl
@[simp] theorem State.setFld_hst : (s.setFld f v).hst = s.hst := rfl
@[simp] theorem State.setFld_free : (s.setFld f v).free = s.free := rfl
@[simp] theorem State.setFld_trap : (s.setFld f v).trap = s.trap := rfl
@[simp] theorem State.setFld_pending : (s.setFld f v).pending = s.pending := rfl

end SetFld

section SetBit

variable (s : State) (f : Fld) (k : Nat)

@[simp] theorem State.setBit_plain : (s.setBit f k).plain = s.plain := rfl
@[simp] theorem State.setBit_retained : (s.setBit f k).retained = s.retained := rfl
@[simp] theorem State.setBit_unitc : (s.setBit f k).unitc = s.unitc := rfl
@[simp] theorem State.setBit_vales : (s.setBit f k).vales = s.vales := rfl
@[simp] theorem State.setBit_time : (s.setBit f k).time = s.time := rfl
@[simp] theorem State.setBit_arb : (s.setBit f k).arb = s.arb := rfl
@[simp] theorem State.setBit_sch : (s.setBit f k).sch = s.sch := rfl
@[simp] theorem State.setBit_sig : (s.setBit f k).sig = s.sig := rfl
@[simp] theorem State.setBit_seq : (s.setBit f k).seq = s.seq := rfl
@[simp] theorem State.setBit_loop : (s.setBit f k).loop = s.loop := rfl
@[simp] theorem State.setBit_lanes : (s.setBit f k).lanes = s.lanes := rfl
@[simp] theorem State.setBit_log : (s.setBit f k).log = s.log := rfl
@[simp] theorem State.setBit_psRetired : (s.setBit f k).psRetired = s.psRetired := rfl
@[simp] theorem State.setBit_psNext : (s.setBit f k).psNext = s.psNext := rfl
@[simp] theorem State.setBit_jrn : (s.setBit f k).jrn = s.jrn := rfl
@[simp] theorem State.setBit_mdw : (s.setBit f k).mdw = s.mdw := rfl
@[simp] theorem State.setBit_adc : (s.setBit f k).adc = s.adc := rfl
@[simp] theorem State.setBit_mot : (s.setBit f k).mot = s.mot := rfl
@[simp] theorem State.setBit_pos : (s.setBit f k).pos = s.pos := rfl
@[simp] theorem State.setBit_saf : (s.setBit f k).saf = s.saf := rfl
@[simp] theorem State.setBit_pair : (s.setBit f k).pair = s.pair := rfl
@[simp] theorem State.setBit_cas : (s.setBit f k).cas = s.cas := rfl
@[simp] theorem State.setBit_net : (s.setBit f k).net = s.net := rfl
@[simp] theorem State.setBit_rio : (s.setBit f k).rio = s.rio := rfl
@[simp] theorem State.setBit_can : (s.setBit f k).can = s.can := rfl
@[simp] theorem State.setBit_boot : (s.setBit f k).boot = s.boot := rfl
@[simp] theorem State.setBit_sec : (s.setBit f k).sec = s.sec := rfl
@[simp] theorem State.setBit_pwr : (s.setBit f k).pwr = s.pwr := rfl
@[simp] theorem State.setBit_hst : (s.setBit f k).hst = s.hst := rfl
@[simp] theorem State.setBit_free : (s.setBit f k).free = s.free := rfl
@[simp] theorem State.setBit_trap : (s.setBit f k).trap = s.trap := rfl
@[simp] theorem State.setBit_pending : (s.setBit f k).pending = s.pending := rfl

end SetBit

section ClrBit

variable (s : State) (f : Fld) (k : Nat)

@[simp] theorem State.clrBit_plain : (s.clrBit f k).plain = s.plain := rfl
@[simp] theorem State.clrBit_retained : (s.clrBit f k).retained = s.retained := rfl
@[simp] theorem State.clrBit_unitc : (s.clrBit f k).unitc = s.unitc := rfl
@[simp] theorem State.clrBit_vales : (s.clrBit f k).vales = s.vales := rfl
@[simp] theorem State.clrBit_time : (s.clrBit f k).time = s.time := rfl
@[simp] theorem State.clrBit_arb : (s.clrBit f k).arb = s.arb := rfl
@[simp] theorem State.clrBit_sch : (s.clrBit f k).sch = s.sch := rfl
@[simp] theorem State.clrBit_sig : (s.clrBit f k).sig = s.sig := rfl
@[simp] theorem State.clrBit_seq : (s.clrBit f k).seq = s.seq := rfl
@[simp] theorem State.clrBit_loop : (s.clrBit f k).loop = s.loop := rfl
@[simp] theorem State.clrBit_lanes : (s.clrBit f k).lanes = s.lanes := rfl
@[simp] theorem State.clrBit_log : (s.clrBit f k).log = s.log := rfl
@[simp] theorem State.clrBit_psRetired : (s.clrBit f k).psRetired = s.psRetired := rfl
@[simp] theorem State.clrBit_psNext : (s.clrBit f k).psNext = s.psNext := rfl
@[simp] theorem State.clrBit_jrn : (s.clrBit f k).jrn = s.jrn := rfl
@[simp] theorem State.clrBit_mdw : (s.clrBit f k).mdw = s.mdw := rfl
@[simp] theorem State.clrBit_adc : (s.clrBit f k).adc = s.adc := rfl
@[simp] theorem State.clrBit_mot : (s.clrBit f k).mot = s.mot := rfl
@[simp] theorem State.clrBit_pos : (s.clrBit f k).pos = s.pos := rfl
@[simp] theorem State.clrBit_saf : (s.clrBit f k).saf = s.saf := rfl
@[simp] theorem State.clrBit_pair : (s.clrBit f k).pair = s.pair := rfl
@[simp] theorem State.clrBit_cas : (s.clrBit f k).cas = s.cas := rfl
@[simp] theorem State.clrBit_net : (s.clrBit f k).net = s.net := rfl
@[simp] theorem State.clrBit_rio : (s.clrBit f k).rio = s.rio := rfl
@[simp] theorem State.clrBit_can : (s.clrBit f k).can = s.can := rfl
@[simp] theorem State.clrBit_boot : (s.clrBit f k).boot = s.boot := rfl
@[simp] theorem State.clrBit_sec : (s.clrBit f k).sec = s.sec := rfl
@[simp] theorem State.clrBit_pwr : (s.clrBit f k).pwr = s.pwr := rfl
@[simp] theorem State.clrBit_hst : (s.clrBit f k).hst = s.hst := rfl
@[simp] theorem State.clrBit_free : (s.clrBit f k).free = s.free := rfl
@[simp] theorem State.clrBit_trap : (s.clrBit f k).trap = s.trap := rfl
@[simp] theorem State.clrBit_pending : (s.clrBit f k).pending = s.pending := rfl

end ClrBit

section IncFld

variable (s : State) (f : Fld) (k : Nat)

@[simp] theorem State.incFld_plain : (s.incFld f k).plain = s.plain := rfl
@[simp] theorem State.incFld_retained : (s.incFld f k).retained = s.retained := rfl
@[simp] theorem State.incFld_unitc : (s.incFld f k).unitc = s.unitc := rfl
@[simp] theorem State.incFld_vales : (s.incFld f k).vales = s.vales := rfl
@[simp] theorem State.incFld_time : (s.incFld f k).time = s.time := rfl
@[simp] theorem State.incFld_arb : (s.incFld f k).arb = s.arb := rfl
@[simp] theorem State.incFld_sch : (s.incFld f k).sch = s.sch := rfl
@[simp] theorem State.incFld_sig : (s.incFld f k).sig = s.sig := rfl
@[simp] theorem State.incFld_seq : (s.incFld f k).seq = s.seq := rfl
@[simp] theorem State.incFld_loop : (s.incFld f k).loop = s.loop := rfl
@[simp] theorem State.incFld_lanes : (s.incFld f k).lanes = s.lanes := rfl
@[simp] theorem State.incFld_log : (s.incFld f k).log = s.log := rfl
@[simp] theorem State.incFld_psRetired : (s.incFld f k).psRetired = s.psRetired := rfl
@[simp] theorem State.incFld_psNext : (s.incFld f k).psNext = s.psNext := rfl
@[simp] theorem State.incFld_jrn : (s.incFld f k).jrn = s.jrn := rfl
@[simp] theorem State.incFld_mdw : (s.incFld f k).mdw = s.mdw := rfl
@[simp] theorem State.incFld_adc : (s.incFld f k).adc = s.adc := rfl
@[simp] theorem State.incFld_mot : (s.incFld f k).mot = s.mot := rfl
@[simp] theorem State.incFld_pos : (s.incFld f k).pos = s.pos := rfl
@[simp] theorem State.incFld_saf : (s.incFld f k).saf = s.saf := rfl
@[simp] theorem State.incFld_pair : (s.incFld f k).pair = s.pair := rfl
@[simp] theorem State.incFld_cas : (s.incFld f k).cas = s.cas := rfl
@[simp] theorem State.incFld_net : (s.incFld f k).net = s.net := rfl
@[simp] theorem State.incFld_rio : (s.incFld f k).rio = s.rio := rfl
@[simp] theorem State.incFld_can : (s.incFld f k).can = s.can := rfl
@[simp] theorem State.incFld_boot : (s.incFld f k).boot = s.boot := rfl
@[simp] theorem State.incFld_sec : (s.incFld f k).sec = s.sec := rfl
@[simp] theorem State.incFld_pwr : (s.incFld f k).pwr = s.pwr := rfl
@[simp] theorem State.incFld_hst : (s.incFld f k).hst = s.hst := rfl
@[simp] theorem State.incFld_free : (s.incFld f k).free = s.free := rfl
@[simp] theorem State.incFld_trap : (s.incFld f k).trap = s.trap := rfl
@[simp] theorem State.incFld_pending : (s.incFld f k).pending = s.pending := rfl

end IncFld

section WrapFld

variable (s : State) (f : Fld) (k : Nat)

@[simp] theorem State.wrapFld_plain : (s.wrapFld f k).plain = s.plain := rfl
@[simp] theorem State.wrapFld_retained : (s.wrapFld f k).retained = s.retained := rfl
@[simp] theorem State.wrapFld_unitc : (s.wrapFld f k).unitc = s.unitc := rfl
@[simp] theorem State.wrapFld_vales : (s.wrapFld f k).vales = s.vales := rfl
@[simp] theorem State.wrapFld_time : (s.wrapFld f k).time = s.time := rfl
@[simp] theorem State.wrapFld_arb : (s.wrapFld f k).arb = s.arb := rfl
@[simp] theorem State.wrapFld_sch : (s.wrapFld f k).sch = s.sch := rfl
@[simp] theorem State.wrapFld_sig : (s.wrapFld f k).sig = s.sig := rfl
@[simp] theorem State.wrapFld_seq : (s.wrapFld f k).seq = s.seq := rfl
@[simp] theorem State.wrapFld_loop : (s.wrapFld f k).loop = s.loop := rfl
@[simp] theorem State.wrapFld_lanes : (s.wrapFld f k).lanes = s.lanes := rfl
@[simp] theorem State.wrapFld_log : (s.wrapFld f k).log = s.log := rfl
@[simp] theorem State.wrapFld_psRetired : (s.wrapFld f k).psRetired = s.psRetired := rfl
@[simp] theorem State.wrapFld_psNext : (s.wrapFld f k).psNext = s.psNext := rfl
@[simp] theorem State.wrapFld_jrn : (s.wrapFld f k).jrn = s.jrn := rfl
@[simp] theorem State.wrapFld_mdw : (s.wrapFld f k).mdw = s.mdw := rfl
@[simp] theorem State.wrapFld_adc : (s.wrapFld f k).adc = s.adc := rfl
@[simp] theorem State.wrapFld_mot : (s.wrapFld f k).mot = s.mot := rfl
@[simp] theorem State.wrapFld_pos : (s.wrapFld f k).pos = s.pos := rfl
@[simp] theorem State.wrapFld_saf : (s.wrapFld f k).saf = s.saf := rfl
@[simp] theorem State.wrapFld_pair : (s.wrapFld f k).pair = s.pair := rfl
@[simp] theorem State.wrapFld_cas : (s.wrapFld f k).cas = s.cas := rfl
@[simp] theorem State.wrapFld_net : (s.wrapFld f k).net = s.net := rfl
@[simp] theorem State.wrapFld_rio : (s.wrapFld f k).rio = s.rio := rfl
@[simp] theorem State.wrapFld_can : (s.wrapFld f k).can = s.can := rfl
@[simp] theorem State.wrapFld_boot : (s.wrapFld f k).boot = s.boot := rfl
@[simp] theorem State.wrapFld_sec : (s.wrapFld f k).sec = s.sec := rfl
@[simp] theorem State.wrapFld_pwr : (s.wrapFld f k).pwr = s.pwr := rfl
@[simp] theorem State.wrapFld_hst : (s.wrapFld f k).hst = s.hst := rfl
@[simp] theorem State.wrapFld_free : (s.wrapFld f k).free = s.free := rfl
@[simp] theorem State.wrapFld_trap : (s.wrapFld f k).trap = s.trap := rfl
@[simp] theorem State.wrapFld_pending : (s.wrapFld f k).pending = s.pending := rfl

end WrapFld

section ClrReg

variable (s : State) (a : Nat)

@[simp] theorem State.clrReg_plain : (s.clrReg a).plain = s.plain := rfl
@[simp] theorem State.clrReg_retained : (s.clrReg a).retained = s.retained := rfl
@[simp] theorem State.clrReg_unitc : (s.clrReg a).unitc = s.unitc := rfl
@[simp] theorem State.clrReg_vales : (s.clrReg a).vales = s.vales := rfl
@[simp] theorem State.clrReg_time : (s.clrReg a).time = s.time := rfl
@[simp] theorem State.clrReg_arb : (s.clrReg a).arb = s.arb := rfl
@[simp] theorem State.clrReg_sch : (s.clrReg a).sch = s.sch := rfl
@[simp] theorem State.clrReg_sig : (s.clrReg a).sig = s.sig := rfl
@[simp] theorem State.clrReg_seq : (s.clrReg a).seq = s.seq := rfl
@[simp] theorem State.clrReg_loop : (s.clrReg a).loop = s.loop := rfl
@[simp] theorem State.clrReg_lanes : (s.clrReg a).lanes = s.lanes := rfl
@[simp] theorem State.clrReg_log : (s.clrReg a).log = s.log := rfl
@[simp] theorem State.clrReg_psRetired : (s.clrReg a).psRetired = s.psRetired := rfl
@[simp] theorem State.clrReg_psNext : (s.clrReg a).psNext = s.psNext := rfl
@[simp] theorem State.clrReg_jrn : (s.clrReg a).jrn = s.jrn := rfl
@[simp] theorem State.clrReg_mdw : (s.clrReg a).mdw = s.mdw := rfl
@[simp] theorem State.clrReg_adc : (s.clrReg a).adc = s.adc := rfl
@[simp] theorem State.clrReg_mot : (s.clrReg a).mot = s.mot := rfl
@[simp] theorem State.clrReg_pos : (s.clrReg a).pos = s.pos := rfl
@[simp] theorem State.clrReg_saf : (s.clrReg a).saf = s.saf := rfl
@[simp] theorem State.clrReg_pair : (s.clrReg a).pair = s.pair := rfl
@[simp] theorem State.clrReg_cas : (s.clrReg a).cas = s.cas := rfl
@[simp] theorem State.clrReg_net : (s.clrReg a).net = s.net := rfl
@[simp] theorem State.clrReg_rio : (s.clrReg a).rio = s.rio := rfl
@[simp] theorem State.clrReg_can : (s.clrReg a).can = s.can := rfl
@[simp] theorem State.clrReg_boot : (s.clrReg a).boot = s.boot := rfl
@[simp] theorem State.clrReg_sec : (s.clrReg a).sec = s.sec := rfl
@[simp] theorem State.clrReg_pwr : (s.clrReg a).pwr = s.pwr := rfl
@[simp] theorem State.clrReg_hst : (s.clrReg a).hst = s.hst := rfl
@[simp] theorem State.clrReg_free : (s.clrReg a).free = s.free := rfl
@[simp] theorem State.clrReg_trap : (s.clrReg a).trap = s.trap := rfl
@[simp] theorem State.clrReg_pending : (s.clrReg a).pending = s.pending := rfl

end ClrReg

section SetPlain

variable (s : State) (o : Nat) (bs : List Byte)

@[simp] theorem State.setPlain_regs : (s.setPlain o bs).regs = s.regs := rfl
@[simp] theorem State.setPlain_plain : (s.setPlain o bs).plain = Memory.store s.plain o bs := rfl
@[simp] theorem State.setPlain_retained : (s.setPlain o bs).retained = s.retained := rfl
@[simp] theorem State.setPlain_unitc : (s.setPlain o bs).unitc = s.unitc := rfl
@[simp] theorem State.setPlain_vales : (s.setPlain o bs).vales = s.vales := rfl
@[simp] theorem State.setPlain_time : (s.setPlain o bs).time = s.time := rfl
@[simp] theorem State.setPlain_arb : (s.setPlain o bs).arb = s.arb := rfl
@[simp] theorem State.setPlain_sch : (s.setPlain o bs).sch = s.sch := rfl
@[simp] theorem State.setPlain_sig : (s.setPlain o bs).sig = s.sig := rfl
@[simp] theorem State.setPlain_seq : (s.setPlain o bs).seq = s.seq := rfl
@[simp] theorem State.setPlain_loop : (s.setPlain o bs).loop = s.loop := rfl
@[simp] theorem State.setPlain_lanes : (s.setPlain o bs).lanes = s.lanes := rfl
@[simp] theorem State.setPlain_log : (s.setPlain o bs).log = s.log := rfl
@[simp] theorem State.setPlain_psRetired : (s.setPlain o bs).psRetired = s.psRetired := rfl
@[simp] theorem State.setPlain_psNext : (s.setPlain o bs).psNext = s.psNext := rfl
@[simp] theorem State.setPlain_jrn : (s.setPlain o bs).jrn = s.jrn := rfl
@[simp] theorem State.setPlain_mdw : (s.setPlain o bs).mdw = s.mdw := rfl
@[simp] theorem State.setPlain_adc : (s.setPlain o bs).adc = s.adc := rfl
@[simp] theorem State.setPlain_mot : (s.setPlain o bs).mot = s.mot := rfl
@[simp] theorem State.setPlain_pos : (s.setPlain o bs).pos = s.pos := rfl
@[simp] theorem State.setPlain_saf : (s.setPlain o bs).saf = s.saf := rfl
@[simp] theorem State.setPlain_pair : (s.setPlain o bs).pair = s.pair := rfl
@[simp] theorem State.setPlain_cas : (s.setPlain o bs).cas = s.cas := rfl
@[simp] theorem State.setPlain_net : (s.setPlain o bs).net = s.net := rfl
@[simp] theorem State.setPlain_rio : (s.setPlain o bs).rio = s.rio := rfl
@[simp] theorem State.setPlain_can : (s.setPlain o bs).can = s.can := rfl
@[simp] theorem State.setPlain_boot : (s.setPlain o bs).boot = s.boot := rfl
@[simp] theorem State.setPlain_sec : (s.setPlain o bs).sec = s.sec := rfl
@[simp] theorem State.setPlain_pwr : (s.setPlain o bs).pwr = s.pwr := rfl
@[simp] theorem State.setPlain_hst : (s.setPlain o bs).hst = s.hst := rfl
@[simp] theorem State.setPlain_free : (s.setPlain o bs).free = s.free := rfl
@[simp] theorem State.setPlain_trap : (s.setPlain o bs).trap = s.trap := rfl
@[simp] theorem State.setPlain_pending : (s.setPlain o bs).pending = s.pending := rfl

end SetPlain

section SetPw

variable (s : State) (o v : Nat)

@[simp] theorem State.setPw_regs : (s.setPw o v).regs = s.regs := rfl
@[simp] theorem State.setPw_plain : (s.setPw o v).plain = Memory.store s.plain o (natBytes 4 v) := rfl
@[simp] theorem State.setPw_retained : (s.setPw o v).retained = s.retained := rfl
@[simp] theorem State.setPw_unitc : (s.setPw o v).unitc = s.unitc := rfl
@[simp] theorem State.setPw_vales : (s.setPw o v).vales = s.vales := rfl
@[simp] theorem State.setPw_time : (s.setPw o v).time = s.time := rfl
@[simp] theorem State.setPw_arb : (s.setPw o v).arb = s.arb := rfl
@[simp] theorem State.setPw_sch : (s.setPw o v).sch = s.sch := rfl
@[simp] theorem State.setPw_sig : (s.setPw o v).sig = s.sig := rfl
@[simp] theorem State.setPw_seq : (s.setPw o v).seq = s.seq := rfl
@[simp] theorem State.setPw_loop : (s.setPw o v).loop = s.loop := rfl
@[simp] theorem State.setPw_lanes : (s.setPw o v).lanes = s.lanes := rfl
@[simp] theorem State.setPw_log : (s.setPw o v).log = s.log := rfl
@[simp] theorem State.setPw_psRetired : (s.setPw o v).psRetired = s.psRetired := rfl
@[simp] theorem State.setPw_psNext : (s.setPw o v).psNext = s.psNext := rfl
@[simp] theorem State.setPw_jrn : (s.setPw o v).jrn = s.jrn := rfl
@[simp] theorem State.setPw_mdw : (s.setPw o v).mdw = s.mdw := rfl
@[simp] theorem State.setPw_adc : (s.setPw o v).adc = s.adc := rfl
@[simp] theorem State.setPw_mot : (s.setPw o v).mot = s.mot := rfl
@[simp] theorem State.setPw_pos : (s.setPw o v).pos = s.pos := rfl
@[simp] theorem State.setPw_saf : (s.setPw o v).saf = s.saf := rfl
@[simp] theorem State.setPw_pair : (s.setPw o v).pair = s.pair := rfl
@[simp] theorem State.setPw_cas : (s.setPw o v).cas = s.cas := rfl
@[simp] theorem State.setPw_net : (s.setPw o v).net = s.net := rfl
@[simp] theorem State.setPw_rio : (s.setPw o v).rio = s.rio := rfl
@[simp] theorem State.setPw_can : (s.setPw o v).can = s.can := rfl
@[simp] theorem State.setPw_boot : (s.setPw o v).boot = s.boot := rfl
@[simp] theorem State.setPw_sec : (s.setPw o v).sec = s.sec := rfl
@[simp] theorem State.setPw_pwr : (s.setPw o v).pwr = s.pwr := rfl
@[simp] theorem State.setPw_hst : (s.setPw o v).hst = s.hst := rfl
@[simp] theorem State.setPw_free : (s.setPw o v).free = s.free := rfl
@[simp] theorem State.setPw_trap : (s.setPw o v).trap = s.trap := rfl
@[simp] theorem State.setPw_pending : (s.setPw o v).pending = s.pending := rfl

end SetPw

section SetPbits

variable (s : State) (o lo w v : Nat)

@[simp] theorem State.setPbits_regs : (s.setPbits o lo w v).regs = s.regs := rfl
@[simp] theorem State.setPbits_plain : (s.setPbits o lo w v).plain = Memory.store s.plain o (natBytes 4 (putBits (s.pw o) lo w v)) := rfl
@[simp] theorem State.setPbits_retained : (s.setPbits o lo w v).retained = s.retained := rfl
@[simp] theorem State.setPbits_unitc : (s.setPbits o lo w v).unitc = s.unitc := rfl
@[simp] theorem State.setPbits_vales : (s.setPbits o lo w v).vales = s.vales := rfl
@[simp] theorem State.setPbits_time : (s.setPbits o lo w v).time = s.time := rfl
@[simp] theorem State.setPbits_arb : (s.setPbits o lo w v).arb = s.arb := rfl
@[simp] theorem State.setPbits_sch : (s.setPbits o lo w v).sch = s.sch := rfl
@[simp] theorem State.setPbits_sig : (s.setPbits o lo w v).sig = s.sig := rfl
@[simp] theorem State.setPbits_seq : (s.setPbits o lo w v).seq = s.seq := rfl
@[simp] theorem State.setPbits_loop : (s.setPbits o lo w v).loop = s.loop := rfl
@[simp] theorem State.setPbits_lanes : (s.setPbits o lo w v).lanes = s.lanes := rfl
@[simp] theorem State.setPbits_log : (s.setPbits o lo w v).log = s.log := rfl
@[simp] theorem State.setPbits_psRetired : (s.setPbits o lo w v).psRetired = s.psRetired := rfl
@[simp] theorem State.setPbits_psNext : (s.setPbits o lo w v).psNext = s.psNext := rfl
@[simp] theorem State.setPbits_jrn : (s.setPbits o lo w v).jrn = s.jrn := rfl
@[simp] theorem State.setPbits_mdw : (s.setPbits o lo w v).mdw = s.mdw := rfl
@[simp] theorem State.setPbits_adc : (s.setPbits o lo w v).adc = s.adc := rfl
@[simp] theorem State.setPbits_mot : (s.setPbits o lo w v).mot = s.mot := rfl
@[simp] theorem State.setPbits_pos : (s.setPbits o lo w v).pos = s.pos := rfl
@[simp] theorem State.setPbits_saf : (s.setPbits o lo w v).saf = s.saf := rfl
@[simp] theorem State.setPbits_pair : (s.setPbits o lo w v).pair = s.pair := rfl
@[simp] theorem State.setPbits_cas : (s.setPbits o lo w v).cas = s.cas := rfl
@[simp] theorem State.setPbits_net : (s.setPbits o lo w v).net = s.net := rfl
@[simp] theorem State.setPbits_rio : (s.setPbits o lo w v).rio = s.rio := rfl
@[simp] theorem State.setPbits_can : (s.setPbits o lo w v).can = s.can := rfl
@[simp] theorem State.setPbits_boot : (s.setPbits o lo w v).boot = s.boot := rfl
@[simp] theorem State.setPbits_sec : (s.setPbits o lo w v).sec = s.sec := rfl
@[simp] theorem State.setPbits_pwr : (s.setPbits o lo w v).pwr = s.pwr := rfl
@[simp] theorem State.setPbits_hst : (s.setPbits o lo w v).hst = s.hst := rfl
@[simp] theorem State.setPbits_free : (s.setPbits o lo w v).free = s.free := rfl
@[simp] theorem State.setPbits_trap : (s.setPbits o lo w v).trap = s.trap := rfl
@[simp] theorem State.setPbits_pending : (s.setPbits o lo w v).pending = s.pending := rfl

end SetPbits

section SetRet

variable (s : State) (o : Nat) (bs : List Byte)

@[simp] theorem State.setRet_regs : (s.setRet o bs).regs = s.regs := rfl
@[simp] theorem State.setRet_plain : (s.setRet o bs).plain = s.plain := rfl
@[simp] theorem State.setRet_retained : (s.setRet o bs).retained = Memory.store s.retained o bs := rfl
@[simp] theorem State.setRet_unitc : (s.setRet o bs).unitc = s.unitc := rfl
@[simp] theorem State.setRet_vales : (s.setRet o bs).vales = s.vales := rfl
@[simp] theorem State.setRet_time : (s.setRet o bs).time = s.time := rfl
@[simp] theorem State.setRet_arb : (s.setRet o bs).arb = s.arb := rfl
@[simp] theorem State.setRet_sch : (s.setRet o bs).sch = s.sch := rfl
@[simp] theorem State.setRet_sig : (s.setRet o bs).sig = s.sig := rfl
@[simp] theorem State.setRet_seq : (s.setRet o bs).seq = s.seq := rfl
@[simp] theorem State.setRet_loop : (s.setRet o bs).loop = s.loop := rfl
@[simp] theorem State.setRet_lanes : (s.setRet o bs).lanes = s.lanes := rfl
@[simp] theorem State.setRet_log : (s.setRet o bs).log = s.log := rfl
@[simp] theorem State.setRet_psRetired : (s.setRet o bs).psRetired = s.psRetired := rfl
@[simp] theorem State.setRet_psNext : (s.setRet o bs).psNext = s.psNext := rfl
@[simp] theorem State.setRet_jrn : (s.setRet o bs).jrn = s.jrn := rfl
@[simp] theorem State.setRet_mdw : (s.setRet o bs).mdw = s.mdw := rfl
@[simp] theorem State.setRet_adc : (s.setRet o bs).adc = s.adc := rfl
@[simp] theorem State.setRet_mot : (s.setRet o bs).mot = s.mot := rfl
@[simp] theorem State.setRet_pos : (s.setRet o bs).pos = s.pos := rfl
@[simp] theorem State.setRet_saf : (s.setRet o bs).saf = s.saf := rfl
@[simp] theorem State.setRet_pair : (s.setRet o bs).pair = s.pair := rfl
@[simp] theorem State.setRet_cas : (s.setRet o bs).cas = s.cas := rfl
@[simp] theorem State.setRet_net : (s.setRet o bs).net = s.net := rfl
@[simp] theorem State.setRet_rio : (s.setRet o bs).rio = s.rio := rfl
@[simp] theorem State.setRet_can : (s.setRet o bs).can = s.can := rfl
@[simp] theorem State.setRet_boot : (s.setRet o bs).boot = s.boot := rfl
@[simp] theorem State.setRet_sec : (s.setRet o bs).sec = s.sec := rfl
@[simp] theorem State.setRet_pwr : (s.setRet o bs).pwr = s.pwr := rfl
@[simp] theorem State.setRet_hst : (s.setRet o bs).hst = s.hst := rfl
@[simp] theorem State.setRet_free : (s.setRet o bs).free = s.free := rfl
@[simp] theorem State.setRet_trap : (s.setRet o bs).trap = s.trap := rfl
@[simp] theorem State.setRet_pending : (s.setRet o bs).pending = s.pending := rfl

end SetRet

section SetRw

variable (s : State) (o v : Nat)

@[simp] theorem State.setRw_regs : (s.setRw o v).regs = s.regs := rfl
@[simp] theorem State.setRw_plain : (s.setRw o v).plain = s.plain := rfl
@[simp] theorem State.setRw_retained : (s.setRw o v).retained = Memory.store s.retained o (natBytes 4 v) := rfl
@[simp] theorem State.setRw_unitc : (s.setRw o v).unitc = s.unitc := rfl
@[simp] theorem State.setRw_vales : (s.setRw o v).vales = s.vales := rfl
@[simp] theorem State.setRw_time : (s.setRw o v).time = s.time := rfl
@[simp] theorem State.setRw_arb : (s.setRw o v).arb = s.arb := rfl
@[simp] theorem State.setRw_sch : (s.setRw o v).sch = s.sch := rfl
@[simp] theorem State.setRw_sig : (s.setRw o v).sig = s.sig := rfl
@[simp] theorem State.setRw_seq : (s.setRw o v).seq = s.seq := rfl
@[simp] theorem State.setRw_loop : (s.setRw o v).loop = s.loop := rfl
@[simp] theorem State.setRw_lanes : (s.setRw o v).lanes = s.lanes := rfl
@[simp] theorem State.setRw_log : (s.setRw o v).log = s.log := rfl
@[simp] theorem State.setRw_psRetired : (s.setRw o v).psRetired = s.psRetired := rfl
@[simp] theorem State.setRw_psNext : (s.setRw o v).psNext = s.psNext := rfl
@[simp] theorem State.setRw_jrn : (s.setRw o v).jrn = s.jrn := rfl
@[simp] theorem State.setRw_mdw : (s.setRw o v).mdw = s.mdw := rfl
@[simp] theorem State.setRw_adc : (s.setRw o v).adc = s.adc := rfl
@[simp] theorem State.setRw_mot : (s.setRw o v).mot = s.mot := rfl
@[simp] theorem State.setRw_pos : (s.setRw o v).pos = s.pos := rfl
@[simp] theorem State.setRw_saf : (s.setRw o v).saf = s.saf := rfl
@[simp] theorem State.setRw_pair : (s.setRw o v).pair = s.pair := rfl
@[simp] theorem State.setRw_cas : (s.setRw o v).cas = s.cas := rfl
@[simp] theorem State.setRw_net : (s.setRw o v).net = s.net := rfl
@[simp] theorem State.setRw_rio : (s.setRw o v).rio = s.rio := rfl
@[simp] theorem State.setRw_can : (s.setRw o v).can = s.can := rfl
@[simp] theorem State.setRw_boot : (s.setRw o v).boot = s.boot := rfl
@[simp] theorem State.setRw_sec : (s.setRw o v).sec = s.sec := rfl
@[simp] theorem State.setRw_pwr : (s.setRw o v).pwr = s.pwr := rfl
@[simp] theorem State.setRw_hst : (s.setRw o v).hst = s.hst := rfl
@[simp] theorem State.setRw_free : (s.setRw o v).free = s.free := rfl
@[simp] theorem State.setRw_trap : (s.setRw o v).trap = s.trap := rfl
@[simp] theorem State.setRw_pending : (s.setRw o v).pending = s.pending := rfl

end SetRw

section Undef

variable (s : State) (r : Nat)

@[simp] theorem State.undef_regs : (s.undef r).regs = s.regs := rfl
@[simp] theorem State.undef_plain : (s.undef r).plain = s.plain := rfl
@[simp] theorem State.undef_retained : (s.undef r).retained = s.retained := rfl
@[simp] theorem State.undef_unitc : (s.undef r).unitc = s.unitc := rfl
@[simp] theorem State.undef_vales : (s.undef r).vales = s.vales := rfl
@[simp] theorem State.undef_time : (s.undef r).time = s.time := rfl
@[simp] theorem State.undef_arb : (s.undef r).arb = s.arb := rfl
@[simp] theorem State.undef_sch : (s.undef r).sch = s.sch := rfl
@[simp] theorem State.undef_sig : (s.undef r).sig = s.sig := rfl
@[simp] theorem State.undef_seq : (s.undef r).seq = s.seq := rfl
@[simp] theorem State.undef_loop : (s.undef r).loop = s.loop := rfl
@[simp] theorem State.undef_lanes : (s.undef r).lanes = s.lanes := rfl
@[simp] theorem State.undef_log : (s.undef r).log = s.log := rfl
@[simp] theorem State.undef_psRetired : (s.undef r).psRetired = s.psRetired := rfl
@[simp] theorem State.undef_psNext : (s.undef r).psNext = s.psNext := rfl
@[simp] theorem State.undef_jrn : (s.undef r).jrn = s.jrn := rfl
@[simp] theorem State.undef_mdw : (s.undef r).mdw = s.mdw := rfl
@[simp] theorem State.undef_adc : (s.undef r).adc = s.adc := rfl
@[simp] theorem State.undef_mot : (s.undef r).mot = s.mot := rfl
@[simp] theorem State.undef_pos : (s.undef r).pos = s.pos := rfl
@[simp] theorem State.undef_saf : (s.undef r).saf = s.saf := rfl
@[simp] theorem State.undef_pair : (s.undef r).pair = s.pair := rfl
@[simp] theorem State.undef_cas : (s.undef r).cas = s.cas := rfl
@[simp] theorem State.undef_net : (s.undef r).net = s.net := rfl
@[simp] theorem State.undef_rio : (s.undef r).rio = s.rio := rfl
@[simp] theorem State.undef_can : (s.undef r).can = s.can := rfl
@[simp] theorem State.undef_boot : (s.undef r).boot = s.boot := rfl
@[simp] theorem State.undef_sec : (s.undef r).sec = s.sec := rfl
@[simp] theorem State.undef_pwr : (s.undef r).pwr = s.pwr := rfl
@[simp] theorem State.undef_hst : (s.undef r).hst = s.hst := rfl
@[simp] theorem State.undef_free : (s.undef r).free = s.free := rfl
@[simp] theorem State.undef_trap : (s.undef r).trap = some r := rfl
@[simp] theorem State.undef_pending : (s.undef r).pending = s.pending := rfl

end Undef

section UseFree

variable (s : State)

@[simp] theorem State.useFree_regs : (s.useFree).regs = s.regs := rfl
@[simp] theorem State.useFree_plain : (s.useFree).plain = s.plain := rfl
@[simp] theorem State.useFree_retained : (s.useFree).retained = s.retained := rfl
@[simp] theorem State.useFree_unitc : (s.useFree).unitc = s.unitc := rfl
@[simp] theorem State.useFree_vales : (s.useFree).vales = s.vales := rfl
@[simp] theorem State.useFree_time : (s.useFree).time = s.time := rfl
@[simp] theorem State.useFree_arb : (s.useFree).arb = s.arb := rfl
@[simp] theorem State.useFree_sch : (s.useFree).sch = s.sch := rfl
@[simp] theorem State.useFree_sig : (s.useFree).sig = s.sig := rfl
@[simp] theorem State.useFree_seq : (s.useFree).seq = s.seq := rfl
@[simp] theorem State.useFree_loop : (s.useFree).loop = s.loop := rfl
@[simp] theorem State.useFree_lanes : (s.useFree).lanes = s.lanes := rfl
@[simp] theorem State.useFree_log : (s.useFree).log = s.log := rfl
@[simp] theorem State.useFree_psRetired : (s.useFree).psRetired = s.psRetired := rfl
@[simp] theorem State.useFree_psNext : (s.useFree).psNext = s.psNext := rfl
@[simp] theorem State.useFree_jrn : (s.useFree).jrn = s.jrn := rfl
@[simp] theorem State.useFree_mdw : (s.useFree).mdw = s.mdw := rfl
@[simp] theorem State.useFree_adc : (s.useFree).adc = s.adc := rfl
@[simp] theorem State.useFree_mot : (s.useFree).mot = s.mot := rfl
@[simp] theorem State.useFree_pos : (s.useFree).pos = s.pos := rfl
@[simp] theorem State.useFree_saf : (s.useFree).saf = s.saf := rfl
@[simp] theorem State.useFree_pair : (s.useFree).pair = s.pair := rfl
@[simp] theorem State.useFree_cas : (s.useFree).cas = s.cas := rfl
@[simp] theorem State.useFree_net : (s.useFree).net = s.net := rfl
@[simp] theorem State.useFree_rio : (s.useFree).rio = s.rio := rfl
@[simp] theorem State.useFree_can : (s.useFree).can = s.can := rfl
@[simp] theorem State.useFree_boot : (s.useFree).boot = s.boot := rfl
@[simp] theorem State.useFree_sec : (s.useFree).sec = s.sec := rfl
@[simp] theorem State.useFree_pwr : (s.useFree).pwr = s.pwr := rfl
@[simp] theorem State.useFree_hst : (s.useFree).hst = s.hst := rfl
@[simp] theorem State.useFree_free : (s.useFree).free = s.free + 1 := rfl
@[simp] theorem State.useFree_trap : (s.useFree).trap = s.trap := rfl
@[simp] theorem State.useFree_pending : (s.useFree).pending = s.pending := rfl

end UseFree

section SetTimeout

variable (s : State) (u : Nat) (e : Option Nat)

@[simp] theorem State.setTimeout_regs : (s.setTimeout u e).regs = s.regs := rfl
@[simp] theorem State.setTimeout_plain : (s.setTimeout u e).plain = s.plain := rfl
@[simp] theorem State.setTimeout_retained : (s.setTimeout u e).retained = s.retained := rfl
@[simp] theorem State.setTimeout_unitc : (s.setTimeout u e).unitc = s.unitc := rfl
@[simp] theorem State.setTimeout_vales : (s.setTimeout u e).vales = s.vales := rfl
@[simp] theorem State.setTimeout_time : (s.setTimeout u e).time = s.time := rfl
@[simp] theorem State.setTimeout_arb : (s.setTimeout u e).arb = s.arb := rfl
@[simp] theorem State.setTimeout_sig : (s.setTimeout u e).sig = s.sig := rfl
@[simp] theorem State.setTimeout_seq : (s.setTimeout u e).seq = s.seq := rfl
@[simp] theorem State.setTimeout_loop : (s.setTimeout u e).loop = s.loop := rfl
@[simp] theorem State.setTimeout_lanes : (s.setTimeout u e).lanes = s.lanes := rfl
@[simp] theorem State.setTimeout_log : (s.setTimeout u e).log = s.log := rfl
@[simp] theorem State.setTimeout_psRetired : (s.setTimeout u e).psRetired = s.psRetired := rfl
@[simp] theorem State.setTimeout_psNext : (s.setTimeout u e).psNext = s.psNext := rfl
@[simp] theorem State.setTimeout_jrn : (s.setTimeout u e).jrn = s.jrn := rfl
@[simp] theorem State.setTimeout_mdw : (s.setTimeout u e).mdw = s.mdw := rfl
@[simp] theorem State.setTimeout_adc : (s.setTimeout u e).adc = s.adc := rfl
@[simp] theorem State.setTimeout_mot : (s.setTimeout u e).mot = s.mot := rfl
@[simp] theorem State.setTimeout_pos : (s.setTimeout u e).pos = s.pos := rfl
@[simp] theorem State.setTimeout_saf : (s.setTimeout u e).saf = s.saf := rfl
@[simp] theorem State.setTimeout_pair : (s.setTimeout u e).pair = s.pair := rfl
@[simp] theorem State.setTimeout_cas : (s.setTimeout u e).cas = s.cas := rfl
@[simp] theorem State.setTimeout_net : (s.setTimeout u e).net = s.net := rfl
@[simp] theorem State.setTimeout_rio : (s.setTimeout u e).rio = s.rio := rfl
@[simp] theorem State.setTimeout_can : (s.setTimeout u e).can = s.can := rfl
@[simp] theorem State.setTimeout_boot : (s.setTimeout u e).boot = s.boot := rfl
@[simp] theorem State.setTimeout_sec : (s.setTimeout u e).sec = s.sec := rfl
@[simp] theorem State.setTimeout_pwr : (s.setTimeout u e).pwr = s.pwr := rfl
@[simp] theorem State.setTimeout_hst : (s.setTimeout u e).hst = s.hst := rfl
@[simp] theorem State.setTimeout_free : (s.setTimeout u e).free = s.free := rfl
@[simp] theorem State.setTimeout_trap : (s.setTimeout u e).trap = s.trap := rfl
@[simp] theorem State.setTimeout_pending : (s.setTimeout u e).pending = s.pending := rfl

end SetTimeout

end Sys2Proof.Machine
end

