-- ==== Sys2Proof/Laws/Regs.lean ====
section
/-!
SUPPORT. Laws/Regs.lean: what reading gives after a write: tables, registers, fields of registers and bytes of a memory.
-/

namespace Sys2Proof.Machine

/-! ## Tables -/

theorem get_of_above {α : Type} (d : Nat → α) (k : Nat) (m : Sparse α) (h : Sparse.above k m = true) :
    Sparse.get d m k = d k := by
  induction m with
  | nil => rfl
  | cons p t ih =>
    simp only [Sparse.above, List.all_cons, Bool.and_eq_true, decide_eq_true_eq] at h
    have hne : p.1 ≠ k := by omega
    simpa [Sparse.get, hne] using ih h.2

/-- A table in canonical form reads at a key what was last written there. -/
theorem get_set_same {α : Type} [DecidableEq α] (d : Nat → α) (m : Sparse α) (k : Nat) (v : α) (h : Sparse.wf d m = true) :
    Sparse.get d (Sparse.set d m k v) k = v := by
  induction m with
  | nil => by_cases hv : v = d k <;> simp [Sparse.set, Sparse.get, hv]
  | cons p t ih =>
    obtain ⟨a, w⟩ := p
    simp only [Sparse.wf, Bool.and_eq_true, decide_eq_true_eq] at h
    simp only [Sparse.set]
    split
    · rename_i hk
      split
      · rename_i hv
        have hne : a ≠ k := by omega
        simp [Sparse.get, hne, get_of_above d k t (above_of_lt k a t h.1.1 hk), hv]
      · simp [Sparse.get]
    · split
      · rename_i he
        subst he
        split
        · rename_i hv
          rw [get_of_above d k t h.1.1, hv]
        · simp [Sparse.get]
      · rename_i he
        have hne : a ≠ k := fun e => he e.symm
        simp [Sparse.get, hne, ih h.2]

/-- A write at a key leaves every other key's value. -/
theorem get_set_other {α : Type} [DecidableEq α] (d : Nat → α) (m : Sparse α) (k j : Nat) (v : α) (hj : j ≠ k) :
    Sparse.get d (Sparse.set d m k v) j = Sparse.get d m j := by
  have hk : k ≠ j := fun e => hj e.symm
  induction m with
  | nil => by_cases hv : v = d k <;> simp [Sparse.set, Sparse.get, hv, hk]
  | cons p t ih =>
    obtain ⟨a, w⟩ := p
    simp only [Sparse.set]
    split
    · split <;> simp [Sparse.get, hk]
    · split
      · rename_i he
        subst he
        split <;> simp [Sparse.get, hk]
      · simp [Sparse.get, ih]

/-- Leaving out the entries of some keys: those keys read as unlisted, the others as before. -/
theorem get_filter {α : Type} (d : Nat → α) (p : Nat → Bool) (m : Sparse α) (k : Nat) :
    Sparse.get d (m.filter fun e => p e.1) k = if p k then Sparse.get d m k else d k := by
  induction m with
  | nil => simp [Sparse.get]
  | cons q t ih =>
    obtain ⟨a, w⟩ := q
    simp only [List.filter_cons]
    by_cases ha : a = k
    · subst ha
      cases hp : p a <;> simp_all [Sparse.get]
    · cases hp : p a <;> simp [Sparse.get, ha, ih]

/-! ## Registers -/

theorem wf_regs {s : State} (h : s.canonical = true) : Sparse.wf resetValue s.regs = true := by
  simp [State.canonical] at h; exact h.2

@[simp] theorem reg_setReg_same (s : State) (a : Nat) (w : Word) (h : s.canonical = true) : (s.setReg a w).reg a = w :=
  get_set_same _ _ _ _ (wf_regs h)

@[simp] theorem reg_setReg_other (s : State) (a b : Nat) (w : Word) (h : b ≠ a) : (s.setReg a w).reg b = s.reg b :=
  get_set_other _ _ _ _ _ h

theorem canonical_setReg {s : State} (a : Nat) (w : Word) (h : s.canonical = true) : (s.setReg a w).canonical = true := by
  simp only [State.canonical, State.setReg, Bool.and_eq_true] at *
  exact ⟨h.1, wf_set _ _ _ _ h.2⟩

theorem canonical_setFld {s : State} (f : Fld) (v : Nat) (h : s.canonical = true) : (s.setFld f v).canonical = true :=
  canonical_setReg _ _ h

theorem canonical_clrReg {s : State} (a : Nat) (h : s.canonical = true) : (s.clrReg a).canonical = true :=
  canonical_setReg _ _ h

theorem canonical_clrRegs (l : List Nat) : ∀ {s : State}, s.canonical = true → (s.clrRegs l).canonical = true := by
  induction l with
  | nil => exact fun h => h
  | cons a t ih => exact fun h => ih (canonical_clrReg a h)

/-- Clearing registers: those of the list read their reset values, every other register reads as before. -/
theorem reg_clrRegs (l : List Nat) : ∀ (s : State), s.canonical = true → ∀ b,
    (s.clrRegs l).reg b = if b ∈ l then resetValue b else s.reg b := by
  induction l with
  | nil => intro s _ b; simp [State.clrRegs]
  | cons a t ih =>
    intro s h b
    have e := ih (s.clrReg a) (canonical_clrReg a h) b
    change ((s.clrReg a).clrRegs t).reg b = _
    rw [e]
    by_cases hb : b ∈ t
    · simp [hb]
    · by_cases ha : b = a
      · subst ha; simp [hb, State.clrReg, h]
      · simp [hb, ha, State.clrReg]

/-- Clearing registers changes the register table only. -/
theorem clrRegs_frame (l : List Nat) : ∀ (s : State), s.clrRegs l = { s with regs := (s.clrRegs l).regs } := by
  induction l with
  | nil => intro s; rfl
  | cons a t ih =>
    intro s
    change (s.clrReg a).clrRegs t = { s with regs := ((s.clrReg a).clrRegs t).regs }
    rw [ih (s.clrReg a)]
    rfl

/-! ## Fields -/

theorem bitsOf_lt (x lo w : Nat) : bitsOf x lo w < 2 ^ w := Nat.mod_lt _ (by positivity)

theorem bitsOf_mul_le (x lo w : Nat) : bitsOf x lo w * 2 ^ lo ≤ x := by
  calc bitsOf x lo w * 2 ^ lo ≤ x / 2 ^ lo * 2 ^ lo := Nat.mul_le_mul_right _ (Nat.mod_le _ _)
    _ ≤ x := Nat.div_mul_le_self _ _

/-- A number around its bits from `lo`, `w` of them. -/
theorem split_bits (x lo w : Nat) :
    x = x / 2 ^ (lo + w) * 2 ^ (lo + w) + bitsOf x lo w * 2 ^ lo + x % 2 ^ lo := by
  have h1 : x / 2 ^ lo = x / 2 ^ (lo + w) * 2 ^ w + bitsOf x lo w := by
    rw [Nat.pow_add, ← Nat.div_div_eq_div_mul, bitsOf]
    exact (Nat.div_add_mod' _ _).symm
  calc x = x / 2 ^ lo * 2 ^ lo + x % 2 ^ lo := (Nat.div_add_mod' _ _).symm
    _ = _ := by rw [h1, Nat.pow_add]; ring

theorem putBits_eq (x lo w v : Nat) :
    putBits x lo w v = x / 2 ^ (lo + w) * 2 ^ (lo + w) + v % 2 ^ w * 2 ^ lo + x % 2 ^ lo := by
  have h := split_bits x lo w
  unfold putBits
  omega

theorem low_lt (x lo w v : Nat) : v % 2 ^ w * 2 ^ lo + x % 2 ^ lo < 2 ^ (lo + w) := by
  have h1 : v % 2 ^ w < 2 ^ w := Nat.mod_lt _ (by positivity)
  have h2 : x % 2 ^ lo < 2 ^ lo := Nat.mod_lt _ (by positivity)
  calc v % 2 ^ w * 2 ^ lo + x % 2 ^ lo < v % 2 ^ w * 2 ^ lo + 2 ^ lo := by omega
    _ = (v % 2 ^ w + 1) * 2 ^ lo := by ring
    _ ≤ 2 ^ w * 2 ^ lo := Nat.mul_le_mul_right _ h1
    _ = 2 ^ (lo + w) := by rw [Nat.pow_add, Nat.mul_comm]

/-- The bits put in read back, cut to their width. -/
theorem bitsOf_putBits_same (x lo w v : Nat) : bitsOf (putBits x lo w v) lo w = v % 2 ^ w := by
  have e : putBits x lo w v = (x / 2 ^ (lo + w) * 2 ^ w + v % 2 ^ w) * 2 ^ lo + x % 2 ^ lo := by
    rw [putBits_eq, Nat.pow_add]; ring
  unfold bitsOf
  rw [e, Nat.add_comm, Nat.add_mul_div_right _ _ (by positivity), Nat.div_eq_of_lt (Nat.mod_lt _ (by positivity)),
    Nat.zero_add, Nat.add_comm, Nat.add_mul_mod_self_right, Nat.mod_mod]

/-- Bits above the ones put in read as before. -/
theorem bitsOf_putBits_above (x lo w v l n : Nat) (h : lo + w ≤ l) : bitsOf (putBits x lo w v) l n = bitsOf x l n := by
  have e1 : putBits x lo w v / 2 ^ (lo + w) = x / 2 ^ (lo + w) := by
    rw [putBits_eq, Nat.add_assoc, Nat.add_comm, Nat.add_mul_div_right _ _ (by positivity),
      Nat.div_eq_of_lt (low_lt x lo w v), Nat.zero_add]
  obtain ⟨k, rfl⟩ := Nat.exists_eq_add_of_le h
  unfold bitsOf
  rw [Nat.pow_add 2 (lo + w) k, ← Nat.div_div_eq_div_mul, e1, Nat.div_div_eq_div_mul]

/-- Bits below the ones put in read as before. -/
theorem bitsOf_putBits_below (x lo w v l n : Nat) (h : l + n ≤ lo) : bitsOf (putBits x lo w v) l n = bitsOf x l n := by
  have e1 : putBits x lo w v % 2 ^ lo = x % 2 ^ lo := by
    rw [putBits_eq, Nat.pow_add]
    have : x / (2 ^ lo * 2 ^ w) * (2 ^ lo * 2 ^ w) + v % 2 ^ w * 2 ^ lo + x % 2 ^ lo
        = x % 2 ^ lo + 2 ^ lo * (x / (2 ^ lo * 2 ^ w) * 2 ^ w + v % 2 ^ w) := by ring
    rw [this, Nat.add_mul_mod_self_left, Nat.mod_mod]
  have key : ∀ y : Nat, bitsOf y l n = bitsOf (y % 2 ^ lo) l n := by
    intro y
    obtain ⟨k, rfl⟩ := Nat.exists_eq_add_of_le h
    unfold bitsOf
    have hd : (y % 2 ^ (l + n + k)) / 2 ^ l = y / 2 ^ l % 2 ^ (n + k) := by
      rw [Nat.add_assoc, Nat.pow_add, Nat.mod_mul_right_div_self]
    rw [hd, Nat.mod_mod_of_dvd]
    exact Nat.pow_dvd_pow 2 (by omega)
  rw [key, e1, ← key]

theorem putBits_lt (x lo w v : Nat) (hx : x < 2 ^ 32) (h : lo + w ≤ 32) : putBits x lo w v < 2 ^ 32 := by
  rw [putBits_eq]
  have h2 := low_lt x lo w v
  have h1 : x / 2 ^ (lo + w) + 1 ≤ 2 ^ (32 - (lo + w)) := by
    have : x / 2 ^ (lo + w) < 2 ^ (32 - (lo + w)) := by
      rw [Nat.div_lt_iff_lt_mul (by positivity), ← Nat.pow_add]
      rwa [Nat.sub_add_cancel h]
    omega
  calc x / 2 ^ (lo + w) * 2 ^ (lo + w) + v % 2 ^ w * 2 ^ lo + x % 2 ^ lo
      < x / 2 ^ (lo + w) * 2 ^ (lo + w) + 2 ^ (lo + w) := by omega
    _ = (x / 2 ^ (lo + w) + 1) * 2 ^ (lo + w) := by ring
    _ ≤ 2 ^ (32 - (lo + w)) * 2 ^ (lo + w) := Nat.mul_le_mul_right _ h1
    _ = 2 ^ 32 := by rw [← Nat.pow_add, Nat.sub_add_cancel h]

theorem reg_setFld_toNat (s : State) (f : Fld) (v : Nat) (h : s.canonical = true) (hf : f.lo + f.width ≤ 32) :
    ((s.setFld f v).reg f.addr).toNat = putBits (s.reg f.addr).toNat f.lo f.width v := by
  have hlt := putBits_lt (s.reg f.addr).toNat f.lo f.width v (s.reg f.addr).isLt hf
  simp only [State.setFld, reg_setReg_same s _ _ h, BitVec.toNat_ofNat]
  exact Nat.mod_eq_of_lt hlt

/-- A field reads back what was written, cut to its width. -/
theorem fld_setFld_same (s : State) (f : Fld) (v : Nat) (h : s.canonical = true) (hf : f.lo + f.width ≤ 32) :
    (s.setFld f v).fld f = v % 2 ^ f.width := by
  rw [State.fld, reg_setFld_toNat s f v h hf, bitsOf_putBits_same]

/-- Another field reads as before: one of another register, or bits apart in the same register. -/
theorem fld_setFld_other (s : State) (f g : Fld) (v : Nat) (h : s.canonical = true) (hf : f.lo + f.width ≤ 32)
    (hg : g.addr ≠ f.addr ∨ f.lo + f.width ≤ g.lo ∨ g.lo + g.width ≤ f.lo) : (s.setFld f v).fld g = s.fld g := by
  by_cases ha : g.addr = f.addr
  · unfold State.fld
    rw [ha, reg_setFld_toNat s f v h hf]
    rcases hg with h1 | h1 | h1
    · exact absurd ha h1
    · exact bitsOf_putBits_above _ _ _ _ _ _ h1
    · exact bitsOf_putBits_below _ _ _ _ _ _ h1
  · unfold State.fld State.setFld
    rw [reg_setReg_other _ _ _ _ ha]

/-- Writing a field leaves every other register. -/
theorem reg_setFld_other (s : State) (f : Fld) (v a : Nat) (h : a ≠ f.addr) : (s.setFld f v).reg a = s.reg a :=
  reg_setReg_other _ _ _ _ h

/-! ## Operations that change registers only -/

theorem OnlyRegs.refl (s : State) : OnlyRegs s s := rfl

theorem OnlyRegs.trans {s t u : State} (h : OnlyRegs s t) (k : OnlyRegs t u) : OnlyRegs s u := by
  unfold OnlyRegs at *
  rw [k, h]

theorem OnlyRegs.each {α : Type} (l : List α) (f : State → α → State) (h : ∀ t x, OnlyRegs t (f t x)) :
    ∀ s : State, OnlyRegs s (s.each l f) := by
  induction l with
  | nil => exact fun s => .refl s
  | cons x t ih => exact fun s => (h s x).trans (ih (f s x))

theorem setReg_only (s : State) (a : Nat) (w : Word) : OnlyRegs s (s.setReg a w) := rfl
theorem setFld_only (s : State) (f : Fld) (v : Nat) : OnlyRegs s (s.setFld f v) := rfl
theorem setBit_only (s : State) (f : Fld) (k : Nat) : OnlyRegs s (s.setBit f k) := rfl
theorem clrBit_only (s : State) (f : Fld) (k : Nat) : OnlyRegs s (s.clrBit f k) := rfl
theorem incFld_only (s : State) (f : Fld) (k : Nat) : OnlyRegs s (s.incFld f k) := rfl

theorem clrRegs_only (s : State) (l : List Nat) : OnlyRegs s (s.clrRegs l) :=
  OnlyRegs.each l State.clrReg (fun _ _ => rfl) s

theorem peakFld_only (s : State) (f : Fld) (v : Nat) : OnlyRegs s (s.peakFld f v) := by
  unfold State.peakFld
  split
  · exact setFld_only s f v
  · exact .refl s

theorem pmcBump_only (s : State) (k n : Nat) : OnlyRegs s (s.pmcBump k n) := by
  unfold State.pmcBump
  dsimp only
  repeat' split
  all_goals rfl

/-- A performance count changes registers only. -/
theorem pmc_only (s : State) (ev arg n : Nat) : OnlyRegs s (s.pmc ev arg n) := by
  unfold State.pmc
  split
  · refine OnlyRegs.each _ _ (fun t k => ?_) s
    split
    · exact pmcBump_only t k n
    · exact .refl t
  · exact .refl s

theorem pmcHist_only (s : State) (bin : Nat → Fld) (sh v : Nat) : OnlyRegs s (s.pmcHist bin sh v) := by
  unfold State.pmcHist
  split
  · exact incFld_only s _ _
  · exact .refl s

/-! ## Outcomes -/

/-- A state that met no undefined case goes on. -/
theorem done_next {t : State} (h : t.trap = none) : t.done = .next t := by simp [State.done, h]

/-- A command goes on exactly where it met no undefined case. -/
theorem done_eq_next {s t : State} : s.done = .next t ↔ s.trap = none ∧ t = s := by
  unfold State.done
  cases h : s.trap <;> simp [eq_comm]

/-! ## Memories -/

/-- The canonical form holds after a store. -/
theorem wf_memory_store (bs : List Byte) : ∀ (m : List Host.Cell) (a : Nat), Memory.wf m = true →
    Memory.wf (Memory.store m a bs) = true := by
  induction bs with
  | nil => exact fun _ _ h => h
  | cons b t ih => exact fun m a h => ih _ _ (wf_set _ _ _ _ h)

/-- A byte after a store: the stored one inside the stored range, the old one outside. -/
theorem get_memory_store (bs : List Byte) : ∀ (m : List Host.Cell) (a o : Nat), Memory.wf m = true →
    Sparse.get plainInit (Memory.store m a bs) o =
      if a ≤ o ∧ o < a + bs.length then bs.getD (o - a) 0 else Sparse.get plainInit m o := by
  induction bs with
  | nil =>
    intro m a o _
    simp [Memory.store]
  | cons b t ih =>
    intro m a o h
    simp only [Memory.store, List.length_cons]
    rw [ih _ (a + 1) o (wf_set _ _ _ _ h)]
    by_cases ho : o = a
    · subst ho
      simp [get_set_same plainInit m o b h]
    · rw [get_set_other _ _ _ _ _ ho]
      by_cases hr : a ≤ o ∧ o < a + (t.length + 1)
      · have h1 : a + 1 ≤ o ∧ o < a + 1 + t.length := by omega
        obtain ⟨k, rfl⟩ := Nat.exists_eq_add_of_le h1.1
        have h2 : a + 1 + k - a = k + 1 := by omega
        rw [if_pos h1, if_pos hr, h2, Nat.add_sub_cancel_left]
        rfl
      · have h1 : ¬ (a + 1 ≤ o ∧ o < a + 1 + t.length) := by omega
        rw [if_neg h1, if_neg hr]

/-- The bytes of a range after a store of as many bytes there. -/
theorem bytes_memory_store (bs : List Byte) : ∀ (m : List Host.Cell) (a : Nat), Memory.wf m = true →
    Memory.bytes (Memory.store m a bs) a bs.length = bs := by
  intro m a h
  have key : ∀ (n o : Nat), n + o = bs.length → Memory.bytes (Memory.store m a bs) (a + o) n = bs.drop o := by
    intro n
    induction n with
    | zero => intro o ho; simp [Memory.bytes, show o = bs.length by omega]
    | succ n ih =>
      intro o ho
      have hlt : o < bs.length := by omega
      have hin : a ≤ a + o ∧ a + o < a + bs.length := by omega
      simp only [Memory.bytes]
      rw [get_memory_store bs m a (a + o) h, if_pos hin, Nat.add_sub_cancel_left, Nat.add_assoc, ih (o + 1) (by omega),
        List.drop_eq_getElem_cons hlt]
      simp [List.getD_eq_getElem?_getD, hlt]
  simpa using key bs.length 0 (by omega)

/-- The bytes of a range that lies outside a store. -/
theorem bytes_memory_store_other (bs : List Byte) (m : List Host.Cell) (a : Nat) (h : Memory.wf m = true) :
    ∀ n o, (o + n ≤ a ∨ a + bs.length ≤ o) → Memory.bytes (Memory.store m a bs) o n = Memory.bytes m o n := by
  intro n
  induction n with
  | zero => exact fun _ _ => rfl
  | succ n ih =>
    intro o ho
    have hout : ¬ (a ≤ o ∧ o < a + bs.length) := by omega
    simp only [Memory.bytes]
    rw [get_memory_store bs m a o h, if_neg hout, ih (o + 1) (by omega)]

theorem length_natBytes (n v : Nat) : (natBytes n v).length = n := by
  induction n generalizing v with
  | zero => rfl
  | succ n ih => simp [natBytes, ih]

/-- The bytes of a number spell it again, cut to their width. -/
theorem bytesNat_natBytes (n v : Nat) : bytesNat (natBytes n v) = v % 256 ^ n := by
  induction n generalizing v with
  | zero => simp [natBytes, bytesNat, Nat.mod_one]
  | succ n ih =>
    rw [natBytes, bytesNat, ih, BitVec.toNat_ofNat]
    have e : 256 ^ (n + 1) = 256 * 256 ^ n := Nat.pow_succ'
    rw [e, Nat.mod_mul]

theorem wf_plain {s : State} (h : s.canonical = true) : Memory.wf s.plain = true := by
  simp [State.canonical] at h; exact h.1.1

theorem canonical_setPlain {s : State} (o : Nat) (bs : List Byte) (h : s.canonical = true) :
    (s.setPlain o bs).canonical = true := by
  simp only [State.canonical, State.setPlain, Bool.and_eq_true] at *
  exact ⟨⟨wf_memory_store bs _ _ h.1.1, h.1.2⟩, h.2⟩

/-- A word of the Plain reads back what was written, cut to 32 bits. -/
theorem pw_setPw_same (s : State) (o v : Nat) (h : s.canonical = true) : (s.setPw o v).pw o = v % 2 ^ 32 := by
  have e := bytes_memory_store (natBytes 4 v) s.plain o (wf_plain h)
  rw [length_natBytes] at e
  simp only [State.pw, State.plainNat, State.setPw, State.setPlain]
  rw [e, bytesNat_natBytes]
  norm_num

/-- A word of the Plain that a write does not touch reads as before. -/
theorem pw_setPw_other (s : State) (o p v : Nat) (h : s.canonical = true) (hp : p + 4 ≤ o ∨ o + 4 ≤ p) :
    (s.setPw o v).pw p = s.pw p := by
  have e := bytes_memory_store_other (natBytes 4 v) s.plain o (wf_plain h) 4 p (by rw [length_natBytes]; exact hp)
  simp only [State.pw, State.plainNat, State.setPw, State.setPlain]
  rw [e]

/-- Bits put into a word of the Plain read back, cut to their width. -/
theorem pbits_setPbits_same (s : State) (o lo w v : Nat) (h : s.canonical = true) (hw : lo + w ≤ 32) :
    (s.setPbits o lo w v).pbits o lo w = v % 2 ^ w := by
  have hx : s.pw o < 2 ^ 32 := by
    unfold State.pw State.plainNat
    simp only [Memory.bytes, bytesNat]
    omega
  unfold State.pbits State.setPbits
  rw [pw_setPw_same s _ _ h, Nat.mod_eq_of_lt (putBits_lt _ _ _ _ hx hw), bitsOf_putBits_same]

end Sys2Proof.Machine
end

