-- ==== Sys2Proof/Laws/LaneStep.lean ====
section
/-!
SUPPORT. Laws/LaneStep.lean: what a LANE command of an instruction does where the lane stands at that instruction.
-/

namespace Sys2Proof.Machine

/-- At its instruction a lane retires it; the command goes on where the effect meets no undefined case. -/
theorem laneOp_next {s : State} {l : Nat} {i : Instr} {daddr : Nat} {f : State → State} {put : Bool}
    (h : s.laneAt l i = true) (hf : (f s).trap = none) :
    s.laneOp l i daddr f put = .next (s.laneAfter l daddr put f) := by
  unfold State.laneOp
  rw [if_pos h]
  refine done_next ?_
  exact (((State.laneNext_still _ _).trans (State.laneRetire_still _ _ _ _ _ _)).2 rfl).trans hf

/-- The same for an instruction that changes the register set only. -/
theorem laneReg_next {s : State} {l : Nat} {i : Instr} {f : RegSet → RegSet} (h : s.laneAt l i = true) (ht : s.trap = none) :
    s.laneReg l i f = .next (s.laneAfterReg l f) := laneOp_next h ht

/-- The same for a jump. -/
theorem laneGo_next {s : State} {l : Nat} {i : Instr} {f : State → State} (h : s.laneAt l i = true)
    (hf : (f s).trap = none) : s.laneGo l i f = .next (s.laneAfterGo l f) := by
  unfold State.laneGo
  rw [if_pos h]
  exact done_next (((State.laneRetire_still _ _ _ _ _ _).2 rfl).trans hf)

/-- A lane's word of an instruction that the lane does not stand at, in a lane that runs nothing, does nothing. -/
theorem laneOp_idle {s : State} {l : Nat} {i : Instr} {daddr : Nat} {f : State → State} {put : Bool}
    (h : (s.lane l).busy = false) : s.laneOp l i daddr f put = .next s := by
  unfold State.laneOp State.laneAt State.laneBad
  simp [h]

end Sys2Proof.Machine
end

