-- ==== Sys2Proof/Laws/LogicStep.lean ====
section
/-!
SUPPORT. Laws/LogicStep.lean: what a LOGIC command of an instruction does where the core stands at that instruction.
-/

namespace Sys2Proof.Machine

/-- At its instruction a core retires a jump; the command goes on where the effect meets no undefined case. -/
theorem logicGo_next {s : State} {k n : Nat} {i : Instr} {daddr : Nat} {f : Nat → State → State}
    (h : s.coreAt k n i = true) (hf : (f n s).trap = none) :
    s.logicGo k i daddr f = .next (s.coreAfterGo k n daddr (f n)) := by
  simp only [State.coreAt, Bool.and_eq_true, decide_eq_true_eq] at h
  unfold State.logicGo
  rw [h.1]
  dsimp only
  rw [h.2]
  dsimp only
  rw [if_pos rfl]
  exact done_next (((State.psRetire_still _ _ _ _ _).2 rfl).trans hf)

/-- The same for an instruction that does not jump. -/
theorem logicOp_next {s : State} {k n : Nat} {i : Instr} {daddr : Nat} {f : Nat → State → State}
    (h : s.coreAt k n i = true) (hf : (f n s).trap = none) :
    s.logicOp k i daddr f = .next (s.coreAfter k n daddr (f n)) := logicGo_next h hf

/-- The same for an instruction that changes the context only. -/
theorem logicReg_next {s : State} {k n : Nat} {i : Instr} {f : TaskCtx → TaskCtx}
    (h : s.coreAt k n i = true) (ht : s.trap = none) : s.logicReg k i f = .next (s.coreAfterReg k n f) := logicOp_next h ht

/-- A core that runs no program does nothing. -/
theorem logicGo_idle {s : State} {k : Nat} {i : Instr} {daddr : Nat} {f : Nat → State → State} (h : s.coreRuns k = none) :
    s.logicGo k i daddr f = .next s := by
  unfold State.logicGo
  rw [h]

end Sys2Proof.Machine
end

