-- ==== Sys2Proof/Laws/PerInstr.lean ====
section
/-!
SUPPORT. Laws/PerInstr.lean: the family Wf, one lemma for each constructor: the word of a well-formed instruction has 32 bits
(R176, R204). Commands that are no instruction of a lane or a core have no word.
-/

open Sys2Proof Sys2Proof.Machine

/-- A flag has one bit. -/
theorem Sys2Proof.Laws.Wf.b2n_lt (b : Bool) : Sys2Proof.Machine.b2n b < 2 ^ 1 := by cases b <;> decide

/-- A value of `k` bits, placed at bit `n`. -/
theorem Sys2Proof.Laws.Wf.place {x k : Nat} (h : x < 2 ^ k) (n : Nat) : x * 2 ^ n ≤ 2 ^ (k + n) - 2 ^ n := by
  have h2 : x * 2 ^ n + 2 ^ n ≤ 2 ^ (k + n) := by
    rw [pow_add, ← Nat.succ_mul]
    exact Nat.mul_le_mul_right _ h
  omega

/-- A word whose fields stay below bounds stays below their sum. -/
theorem Sys2Proof.Laws.Wf.word_lt {op w m : Nat} {fs : List (Nat × Nat)} (bs : List Nat) (h : placed op fs = some w)
    (hb : List.Forall₂ (fun f b => f.2 * 2 ^ f.1 ≤ b) fs bs) (hs : op * 2 ^ 26 + bs.sum < m) : w < m := by
  have hsum : (fs.map fun f => f.2 * 2 ^ f.1).sum ≤ bs.sum := by
    clear h hs
    induction hb with
    | nil => exact Nat.le_refl _
    | cons h1 _ ih => simp only [List.map_cons, List.sum_cons]; exact Nat.add_le_add h1 ih
  cases h
  omega

/-- The word of a well-formed instruction has 32 bits. -/
def Sys2Proof.Laws.Wf.Statement (i : Sys2Proof.Instr) : Prop :=
  i.wf = true → ∀ w, Sys2Proof.instrWord i = some w → w < 4294967296


theorem Sys2Proof.Laws.Wf.por : Sys2Proof.Laws.Wf.Statement .por := by
  intro _ w h; cases h

theorem Sys2Proof.Laws.Wf.pinReset : Sys2Proof.Laws.Wf.Statement .pinReset := by
  intro _ w h; cases h

theorem Sys2Proof.Laws.Wf.softReset : Sys2Proof.Laws.Wf.Statement .softReset := by
  intro _ w h; cases h

theorem Sys2Proof.Laws.Wf.clockReset : Sys2Proof.Laws.Wf.Statement .clockReset := by
  intro _ w h; cases h

theorem Sys2Proof.Laws.Wf.xinStop : Sys2Proof.Laws.Wf.Statement .xinStop := by
  intro _ w h; cases h

theorem Sys2Proof.Laws.Wf.xinReturn : Sys2Proof.Laws.Wf.Statement .xinReturn := by
  intro _ w h; cases h

theorem Sys2Proof.Laws.Wf.serdesPllLoss (x0 : Nat) : Sys2Proof.Laws.Wf.Statement (.serdesPllLoss x0) := by
  intro _ w h; cases h

theorem Sys2Proof.Laws.Wf.resetRelease (x0 : Nat) (x1 : Nat) (x2 : Bool) : Sys2Proof.Laws.Wf.Statement (.resetRelease x0 x1 x2) := by
  intro _ w h; cases h

theorem Sys2Proof.Laws.Wf.pllLock : Sys2Proof.Laws.Wf.Statement .pllLock := by
  intro _ w h; cases h

theorem Sys2Proof.Laws.Wf.colStall (x0 : Nat) (x1 : Bool) : Sys2Proof.Laws.Wf.Statement (.colStall x0 x1) := by
  intro _ w h; cases h

theorem Sys2Proof.Laws.Wf.colStallClear : Sys2Proof.Laws.Wf.Statement .colStallClear := by
  intro _ w h; cases h

theorem Sys2Proof.Laws.Wf.tickStrobe : Sys2Proof.Laws.Wf.Statement .tickStrobe := by
  intro _ w h; cases h

theorem Sys2Proof.Laws.Wf.strobeArrival (x0 : List (Nat × Bool)) (x1 : List (Nat × Nat)) : Sys2Proof.Laws.Wf.Statement (.strobeArrival x0 x1) := by
  intro _ w h; cases h

theorem Sys2Proof.Laws.Wf.inputClose (x0 : List Nat) (x1 : List Nat) : Sys2Proof.Laws.Wf.Statement (.inputClose x0 x1) := by
  intro _ w h; cases h

theorem Sys2Proof.Laws.Wf.outputClose : Sys2Proof.Laws.Wf.Statement .outputClose := by
  intro _ w h; cases h

theorem Sys2Proof.Laws.Wf.outputPrefetch (x0 : OutUnit) : Sys2Proof.Laws.Wf.Statement (.outputPrefetch x0) := by
  intro _ w h; cases h

theorem Sys2Proof.Laws.Wf.tickClr : Sys2Proof.Laws.Wf.Statement .tickClr := by
  intro _ w h; cases h

theorem Sys2Proof.Laws.Wf.registerWrite (x0 : Nat) (x1 : Word) (x2 : Bool) : Sys2Proof.Laws.Wf.Statement (.registerWrite x0 x1 x2) := by
  intro _ w h; cases h

theorem Sys2Proof.Laws.Wf.plainTransaction (x0 : Nat) (x1 : Nat) (x2 : Nat) (x3 : Bool) (x4 : List Byte) (x5 : Nat) : Sys2Proof.Laws.Wf.Statement (.plainTransaction x0 x1 x2 x3 x4 x5) := by
  intro _ w h; cases h

theorem Sys2Proof.Laws.Wf.grant (x0 : EccEvent) : Sys2Proof.Laws.Wf.Statement (.grant x0) := by
  intro _ w h; cases h

theorem Sys2Proof.Laws.Wf.retainedStoreAccess : Sys2Proof.Laws.Wf.Statement .retainedStoreAccess := by
  intro _ w h; cases h

theorem Sys2Proof.Laws.Wf.plnClrWait : Sys2Proof.Laws.Wf.Statement .plnClrWait := by
  intro _ w h; cases h

theorem Sys2Proof.Laws.Wf.plnClrEcc : Sys2Proof.Laws.Wf.Statement .plnClrEcc := by
  intro _ w h; cases h

theorem Sys2Proof.Laws.Wf.plnClrWin : Sys2Proof.Laws.Wf.Statement .plnClrWin := by
  intro _ w h; cases h

theorem Sys2Proof.Laws.Wf.jobRelease (x0 : JobReq) : Sys2Proof.Laws.Wf.Statement (.jobRelease x0) := by
  intro _ w h; cases h

theorem Sys2Proof.Laws.Wf.runLimit (x0 : Nat) (x1 : Bool) : Sys2Proof.Laws.Wf.Statement (.runLimit x0 x1) := by
  intro _ w h; cases h

theorem Sys2Proof.Laws.Wf.jobComplete (x0 : Nat) : Sys2Proof.Laws.Wf.Statement (.jobComplete x0) := by
  intro _ w h; cases h

theorem Sys2Proof.Laws.Wf.deadlinePass (x0 : Nat) (x1 : Bool) : Sys2Proof.Laws.Wf.Statement (.deadlinePass x0 x1) := by
  intro _ w h; cases h

theorem Sys2Proof.Laws.Wf.expiry : Sys2Proof.Laws.Wf.Statement .expiry := by
  intro _ w h; cases h

theorem Sys2Proof.Laws.Wf.waitEvent (x0 : Nat) : Sys2Proof.Laws.Wf.Statement (.waitEvent x0) := by
  intro _ w h; cases h

theorem Sys2Proof.Laws.Wf.loadIntervalEnd (x0 : Nat) (x1 : Nat) : Sys2Proof.Laws.Wf.Statement (.loadIntervalEnd x0 x1) := by
  intro _ w h; cases h

theorem Sys2Proof.Laws.Wf.schClrCounts : Sys2Proof.Laws.Wf.Statement .schClrCounts := by
  intro _ w h; cases h

theorem Sys2Proof.Laws.Wf.schClrPeaks : Sys2Proof.Laws.Wf.Statement .schClrPeaks := by
  intro _ w h; cases h

theorem Sys2Proof.Laws.Wf.forceSet : Sys2Proof.Laws.Wf.Statement .forceSet := by
  intro _ w h; cases h

theorem Sys2Proof.Laws.Wf.forceRelease : Sys2Proof.Laws.Wf.Statement .forceRelease := by
  intro _ w h; cases h

theorem Sys2Proof.Laws.Wf.forceReleaseAll : Sys2Proof.Laws.Wf.Statement .forceReleaseAll := by
  intro _ w h; cases h

theorem Sys2Proof.Laws.Wf.sigClrStats : Sys2Proof.Laws.Wf.Statement .sigClrStats := by
  intro _ w h; cases h

theorem Sys2Proof.Laws.Wf.seqEvaluation (x0 : Nat) (x1 : Nat) : Sys2Proof.Laws.Wf.Statement (.seqEvaluation x0 x1) := by
  intro _ w h; cases h

theorem Sys2Proof.Laws.Wf.seqNop (x0 : Nat) (x1 : Nat) : Sys2Proof.Laws.Wf.Statement (.seqNop x0 x1) := by
  intro _ w h; cases h

theorem Sys2Proof.Laws.Wf.seqLoad (x0 : Nat) (x1 : Nat) : Sys2Proof.Laws.Wf.Statement (.seqLoad x0 x1) := by
  intro _ w h; cases h

theorem Sys2Proof.Laws.Wf.seqStart (x0 : Nat) (x1 : Nat) : Sys2Proof.Laws.Wf.Statement (.seqStart x0 x1) := by
  intro _ w h; cases h

theorem Sys2Proof.Laws.Wf.seqHold (x0 : Nat) (x1 : Nat) : Sys2Proof.Laws.Wf.Statement (.seqHold x0 x1) := by
  intro _ w h; cases h

theorem Sys2Proof.Laws.Wf.seqContinue (x0 : Nat) (x1 : Nat) : Sys2Proof.Laws.Wf.Statement (.seqContinue x0 x1) := by
  intro _ w h; cases h

theorem Sys2Proof.Laws.Wf.seqSkip (x0 : Nat) (x1 : Nat) : Sys2Proof.Laws.Wf.Statement (.seqSkip x0 x1) := by
  intro _ w h; cases h

theorem Sys2Proof.Laws.Wf.seqAbort (x0 : Nat) (x1 : Nat) : Sys2Proof.Laws.Wf.Statement (.seqAbort x0 x1) := by
  intro _ w h; cases h

theorem Sys2Proof.Laws.Wf.seqStop (x0 : Nat) (x1 : Nat) : Sys2Proof.Laws.Wf.Statement (.seqStop x0 x1) := by
  intro _ w h; cases h

theorem Sys2Proof.Laws.Wf.seqResumeCommit (x0 : Nat) (x1 : Nat) : Sys2Proof.Laws.Wf.Statement (.seqResumeCommit x0 x1) := by
  intro _ w h; cases h

theorem Sys2Proof.Laws.Wf.seqClear (x0 : Nat) (x1 : Nat) : Sys2Proof.Laws.Wf.Statement (.seqClear x0 x1) := by
  intro _ w h; cases h

theorem Sys2Proof.Laws.Wf.passCommit (x0 : Nat) (x1 : Nat) (x2 : Nat) (x3 : Nat) (x4 : Nat) (x5 : Nat) (x6 : Nat) (x7 : Nat) : Sys2Proof.Laws.Wf.Statement (.passCommit x0 x1 x2 x3 x4 x5 x6 x7) := by
  intro _ w h; cases h

theorem Sys2Proof.Laws.Wf.passAnswer (x0 : Nat) (x1 : Nat) (x2 : Nat) (x3 : Nat) : Sys2Proof.Laws.Wf.Statement (.passAnswer x0 x1 x2 x3) := by
  intro _ w h; cases h

theorem Sys2Proof.Laws.Wf.passMiss (x0 : Nat) (x1 : Nat) : Sys2Proof.Laws.Wf.Statement (.passMiss x0 x1) := by
  intro _ w h; cases h

theorem Sys2Proof.Laws.Wf.passAckDeadline (x0 : Nat) : Sys2Proof.Laws.Wf.Statement (.passAckDeadline x0) := by
  intro _ w h; cases h

theorem Sys2Proof.Laws.Wf.seqClrCounts : Sys2Proof.Laws.Wf.Statement .seqClrCounts := by
  intro _ w h; cases h

theorem Sys2Proof.Laws.Wf.seqClrPeaks : Sys2Proof.Laws.Wf.Statement .seqClrPeaks := by
  intro _ w h; cases h

theorem Sys2Proof.Laws.Wf.loopMode (x0 : Nat) (x1 : Nat) : Sys2Proof.Laws.Wf.Statement (.loopMode x0 x1) := by
  intro _ w h; cases h

theorem Sys2Proof.Laws.Wf.loopLimitLo (x0 : Nat) (x1 : Nat) : Sys2Proof.Laws.Wf.Statement (.loopLimitLo x0 x1) := by
  intro _ w h; cases h

theorem Sys2Proof.Laws.Wf.loopLimitHi (x0 : Nat) (x1 : Nat) : Sys2Proof.Laws.Wf.Statement (.loopLimitHi x0 x1) := by
  intro _ w h; cases h

theorem Sys2Proof.Laws.Wf.loopClearFault (x0 : Nat) : Sys2Proof.Laws.Wf.Statement (.loopClearFault x0) := by
  intro _ w h; cases h

theorem Sys2Proof.Laws.Wf.loopClrCounts : Sys2Proof.Laws.Wf.Statement .loopClrCounts := by
  intro _ w h; cases h

theorem Sys2Proof.Laws.Wf.loopClrPeaks : Sys2Proof.Laws.Wf.Statement .loopClrPeaks := by
  intro _ w h; cases h

theorem Sys2Proof.Laws.Wf.laneJobStart (x0 : Nat) (x1 : Nat) : Sys2Proof.Laws.Wf.Statement (.laneJobStart x0 x1) := by
  intro _ w h; cases h

theorem Sys2Proof.Laws.Wf.laneNop (x0 : Nat) : Sys2Proof.Laws.Wf.Statement (.laneNop x0) := by
  intro hf w h
  replace hf : (fits [(x0, 3)]) = true := hf
  replace h : placed 0x00 [] = some w := h
  simp only [fits, List.all_cons, List.all_nil, Bool.and_eq_true, decide_eq_true_eq] at hf
  exact Sys2Proof.Laws.Wf.word_lt [] h
      (.nil) (by decide)

theorem Sys2Proof.Laws.Wf.laneEnd (x0 : Nat) : Sys2Proof.Laws.Wf.Statement (.laneEnd x0) := by
  intro hf w h
  replace hf : (fits [(x0, 3)]) = true := hf
  replace h : placed 0x01 [] = some w := h
  simp only [fits, List.all_cons, List.all_nil, Bool.and_eq_true, decide_eq_true_eq] at hf
  exact Sys2Proof.Laws.Wf.word_lt [] h
      (.nil) (by decide)

theorem Sys2Proof.Laws.Wf.laneJmp (x0 : Nat) (x1 : Nat) : Sys2Proof.Laws.Wf.Statement (.laneJmp x0 x1) := by
  intro hf w h
  replace hf : (fits [(x0, 3), (x1, 12)]) = true := hf
  replace h : placed 0x02 [(0, x1)] = some w := h
  simp only [fits, List.all_cons, List.all_nil, Bool.and_eq_true, decide_eq_true_eq] at hf
  obtain ⟨hx0, hx1, _⟩ := hf
  exact Sys2Proof.Laws.Wf.word_lt [2 ^ (12 + 0) - 2 ^ 0] h
      (.cons (Sys2Proof.Laws.Wf.place hx1 0) (.nil)) (by decide)

theorem Sys2Proof.Laws.Wf.laneBr (x0 : Nat) (x1 : Nat) (x2 : Nat) : Sys2Proof.Laws.Wf.Statement (.laneBr x0 x1 x2) := by
  intro hf w h
  replace hf : (fits [(x0, 3), (x1, 4), (x2, 12)]) = true := hf
  replace h : placed 0x03 [(22, x1), (0, x2)] = some w := h
  simp only [fits, List.all_cons, List.all_nil, Bool.and_eq_true, decide_eq_true_eq] at hf
  obtain ⟨hx0, hx1, hx2, _⟩ := hf
  exact Sys2Proof.Laws.Wf.word_lt [2 ^ (4 + 22) - 2 ^ 22, 2 ^ (12 + 0) - 2 ^ 0] h
      (.cons (Sys2Proof.Laws.Wf.place hx1 22) (.cons (Sys2Proof.Laws.Wf.place hx2 0) (.nil))) (by decide)

theorem Sys2Proof.Laws.Wf.laneCall (x0 : Nat) (x1 : Nat) : Sys2Proof.Laws.Wf.Statement (.laneCall x0 x1) := by
  intro hf w h
  replace hf : (fits [(x0, 3), (x1, 12)]) = true := hf
  replace h : placed 0x04 [(0, x1)] = some w := h
  simp only [fits, List.all_cons, List.all_nil, Bool.and_eq_true, decide_eq_true_eq] at hf
  obtain ⟨hx0, hx1, _⟩ := hf
  exact Sys2Proof.Laws.Wf.word_lt [2 ^ (12 + 0) - 2 ^ 0] h
      (.cons (Sys2Proof.Laws.Wf.place hx1 0) (.nil)) (by decide)

theorem Sys2Proof.Laws.Wf.laneRet (x0 : Nat) : Sys2Proof.Laws.Wf.Statement (.laneRet x0) := by
  intro hf w h
  replace hf : (fits [(x0, 3)]) = true := hf
  replace h : placed 0x05 [] = some w := h
  simp only [fits, List.all_cons, List.all_nil, Bool.and_eq_true, decide_eq_true_eq] at hf
  exact Sys2Proof.Laws.Wf.word_lt [] h
      (.nil) (by decide)

theorem Sys2Proof.Laws.Wf.laneLoop (x0 : Nat) (x1 : Bool) (x2 : Nat) (x3 : Nat) : Sys2Proof.Laws.Wf.Statement (.laneLoop x0 x1 x2 x3) := by
  intro hf w h
  cases x1
  · replace hf : (fits [(x0, 3), (x2, 4), (x3, 12)]) = true := hf
    replace h : placed 0x06 [(25, b2n false), (12, x2), (0, x3)] = some w := h
    simp only [fits, List.all_cons, List.all_nil, Bool.and_eq_true, decide_eq_true_eq] at hf
    obtain ⟨hx0, hx2, hx3, _⟩ := hf
    exact Sys2Proof.Laws.Wf.word_lt [2 ^ (1 + 25) - 2 ^ 25, 2 ^ (4 + 12) - 2 ^ 12, 2 ^ (12 + 0) - 2 ^ 0] h
      (.cons (Sys2Proof.Laws.Wf.place (Sys2Proof.Laws.Wf.b2n_lt false) 25) (.cons (Sys2Proof.Laws.Wf.place hx2 12) (.cons (Sys2Proof.Laws.Wf.place hx3 0) (.nil)))) (by decide)
  · replace hf : (fits [(x0, 3), (x2, 13), (x3, 12)]) = true := hf
    replace h : placed 0x06 [(25, b2n true), (12, x2), (0, x3)] = some w := h
    simp only [fits, List.all_cons, List.all_nil, Bool.and_eq_true, decide_eq_true_eq] at hf
    obtain ⟨hx0, hx2, hx3, _⟩ := hf
    exact Sys2Proof.Laws.Wf.word_lt [2 ^ (1 + 25) - 2 ^ 25, 2 ^ (13 + 12) - 2 ^ 12, 2 ^ (12 + 0) - 2 ^ 0] h
      (.cons (Sys2Proof.Laws.Wf.place (Sys2Proof.Laws.Wf.b2n_lt true) 25) (.cons (Sys2Proof.Laws.Wf.place hx2 12) (.cons (Sys2Proof.Laws.Wf.place hx3 0) (.nil)))) (by decide)

theorem Sys2Proof.Laws.Wf.laneWaits (x0 : Nat) (x1 : Nat) : Sys2Proof.Laws.Wf.Statement (.laneWaits x0 x1) := by
  intro hf w h
  replace hf : (fits [(x0, 3), (x1, 7)]) = true := hf
  replace h : placed 0x07 [(0, x1)] = some w := h
  simp only [fits, List.all_cons, List.all_nil, Bool.and_eq_true, decide_eq_true_eq] at hf
  obtain ⟨hx0, hx1, _⟩ := hf
  exact Sys2Proof.Laws.Wf.word_lt [2 ^ (7 + 0) - 2 ^ 0] h
      (.cons (Sys2Proof.Laws.Wf.place hx1 0) (.nil)) (by decide)

theorem Sys2Proof.Laws.Wf.laneInh (x0 : Nat) (x1 : Bool) : Sys2Proof.Laws.Wf.Statement (.laneInh x0 x1) := by
  intro hf w h
  replace hf : (fits [(x0, 3)]) = true := hf
  replace h : placed 0x08 [(0, b2n x1)] = some w := h
  simp only [fits, List.all_cons, List.all_nil, Bool.and_eq_true, decide_eq_true_eq] at hf
  obtain ⟨hx0, _⟩ := hf
  exact Sys2Proof.Laws.Wf.word_lt [2 ^ (1 + 0) - 2 ^ 0] h
      (.cons (Sys2Proof.Laws.Wf.place (Sys2Proof.Laws.Wf.b2n_lt x1) 0) (.nil)) (by decide)

theorem Sys2Proof.Laws.Wf.laneEvt (x0 : Nat) (x1 : Bool) (x2 : Nat) : Sys2Proof.Laws.Wf.Statement (.laneEvt x0 x1 x2) := by
  intro hf w h
  replace hf : (fits [(x0, 3), (x2, 16)]) = true := hf
  replace h : placed 0x09 [(16, b2n x1), (0, x2)] = some w := h
  simp only [fits, List.all_cons, List.all_nil, Bool.and_eq_true, decide_eq_true_eq] at hf
  obtain ⟨hx0, hx2, _⟩ := hf
  exact Sys2Proof.Laws.Wf.word_lt [2 ^ (1 + 16) - 2 ^ 16, 2 ^ (16 + 0) - 2 ^ 0] h
      (.cons (Sys2Proof.Laws.Wf.place (Sys2Proof.Laws.Wf.b2n_lt x1) 16) (.cons (Sys2Proof.Laws.Wf.place hx2 0) (.nil))) (by decide)

theorem Sys2Proof.Laws.Wf.laneLdi (x0 : Nat) (x1 : Nat) (x2 : Nat) : Sys2Proof.Laws.Wf.Statement (.laneLdi x0 x1 x2) := by
  intro hf w h
  replace hf : (fits [(x0, 3), (x1, 4), (x2, 16)]) = true := hf
  replace h : placed 0x0A [(22, x1), (0, x2)] = some w := h
  simp only [fits, List.all_cons, List.all_nil, Bool.and_eq_true, decide_eq_true_eq] at hf
  obtain ⟨hx0, hx1, hx2, _⟩ := hf
  exact Sys2Proof.Laws.Wf.word_lt [2 ^ (4 + 22) - 2 ^ 22, 2 ^ (16 + 0) - 2 ^ 0] h
      (.cons (Sys2Proof.Laws.Wf.place hx1 22) (.cons (Sys2Proof.Laws.Wf.place hx2 0) (.nil))) (by decide)

theorem Sys2Proof.Laws.Wf.laneLdp (x0 : Nat) (x1 : Nat) (x2 : Nat) : Sys2Proof.Laws.Wf.Statement (.laneLdp x0 x1 x2) := by
  intro hf w h
  replace hf : (fits [(x0, 3), (x1, 3), (x2, 16)]) = true := hf
  replace h : placed 0x0B [(22, x1), (0, x2)] = some w := h
  simp only [fits, List.all_cons, List.all_nil, Bool.and_eq_true, decide_eq_true_eq] at hf
  obtain ⟨hx0, hx1, hx2, _⟩ := hf
  exact Sys2Proof.Laws.Wf.word_lt [2 ^ (3 + 22) - 2 ^ 22, 2 ^ (16 + 0) - 2 ^ 0] h
      (.cons (Sys2Proof.Laws.Wf.place hx1 22) (.cons (Sys2Proof.Laws.Wf.place hx2 0) (.nil))) (by decide)

theorem Sys2Proof.Laws.Wf.laneLdm (x0 : Nat) (x1 : Nat) (x2 : Nat) : Sys2Proof.Laws.Wf.Statement (.laneLdm x0 x1 x2) := by
  intro hf w h
  replace hf : (fits [(x0, 3), (x1, 3), (x2, 16)]) = true := hf
  replace h : placed 0x0C [(22, x1), (0, x2)] = some w := h
  simp only [fits, List.all_cons, List.all_nil, Bool.and_eq_true, decide_eq_true_eq] at hf
  obtain ⟨hx0, hx1, hx2, _⟩ := hf
  exact Sys2Proof.Laws.Wf.word_lt [2 ^ (3 + 22) - 2 ^ 22, 2 ^ (16 + 0) - 2 ^ 0] h
      (.cons (Sys2Proof.Laws.Wf.place hx1 22) (.cons (Sys2Proof.Laws.Wf.place hx2 0) (.nil))) (by decide)

theorem Sys2Proof.Laws.Wf.laneLdz (x0 : Nat) (x1 : Nat) (x2 : Nat) : Sys2Proof.Laws.Wf.Statement (.laneLdz x0 x1 x2) := by
  intro hf w h
  replace hf : (fits [(x0, 3), (x1, 3), (x2, 4)]) = true := hf
  replace h : placed 0x0D [(22, x1), (0, x2)] = some w := h
  simp only [fits, List.all_cons, List.all_nil, Bool.and_eq_true, decide_eq_true_eq] at hf
  obtain ⟨hx0, hx1, hx2, _⟩ := hf
  exact Sys2Proof.Laws.Wf.word_lt [2 ^ (3 + 22) - 2 ^ 22, 2 ^ (4 + 0) - 2 ^ 0] h
      (.cons (Sys2Proof.Laws.Wf.place hx1 22) (.cons (Sys2Proof.Laws.Wf.place hx2 0) (.nil))) (by decide)

theorem Sys2Proof.Laws.Wf.laneMovx (x0 : Nat) (x1 : Nat) (x2 : Nat) (x3 : Bool) : Sys2Proof.Laws.Wf.Statement (.laneMovx x0 x1 x2 x3) := by
  intro hf w h
  replace hf : (fits [(x0, 3), (x1, 4), (x2, 5)]) = true := hf
  replace h : placed 0x0E [(22, x1), (17, x2), (16, b2n x3)] = some w := h
  simp only [fits, List.all_cons, List.all_nil, Bool.and_eq_true, decide_eq_true_eq] at hf
  obtain ⟨hx0, hx1, hx2, _⟩ := hf
  exact Sys2Proof.Laws.Wf.word_lt [2 ^ (4 + 22) - 2 ^ 22, 2 ^ (5 + 17) - 2 ^ 17, 2 ^ (1 + 16) - 2 ^ 16] h
      (.cons (Sys2Proof.Laws.Wf.place hx1 22) (.cons (Sys2Proof.Laws.Wf.place hx2 17) (.cons (Sys2Proof.Laws.Wf.place (Sys2Proof.Laws.Wf.b2n_lt x3) 16) (.nil)))) (by decide)

theorem Sys2Proof.Laws.Wf.laneSetm (x0 : Nat) (x1 : Bool) (x2 : Bool) (x3 : Nat) : Sys2Proof.Laws.Wf.Statement (.laneSetm x0 x1 x2 x3) := by
  intro hf w h
  replace hf : (fits [(x0, 3), (x3, 5)]) = true := hf
  replace h : placed 0x0F [(9, b2n x1), (8, b2n x2), (0, x3)] = some w := h
  simp only [fits, List.all_cons, List.all_nil, Bool.and_eq_true, decide_eq_true_eq] at hf
  obtain ⟨hx0, hx3, _⟩ := hf
  exact Sys2Proof.Laws.Wf.word_lt [2 ^ (1 + 9) - 2 ^ 9, 2 ^ (1 + 8) - 2 ^ 8, 2 ^ (5 + 0) - 2 ^ 0] h
      (.cons (Sys2Proof.Laws.Wf.place (Sys2Proof.Laws.Wf.b2n_lt x1) 9) (.cons (Sys2Proof.Laws.Wf.place (Sys2Proof.Laws.Wf.b2n_lt x2) 8) (.cons (Sys2Proof.Laws.Wf.place hx3 0) (.nil)))) (by decide)

theorem Sys2Proof.Laws.Wf.laneLd (x0 : Nat) (x1 : Nat) (x2 : Nat) (x3 : Nat) : Sys2Proof.Laws.Wf.Statement (.laneLd x0 x1 x2 x3) := by
  intro hf w h
  replace hf : (fits [(x0, 3), (x1, 4), (x2, 3), (x3, 2)]) = true := hf
  replace h : placed 0x10 [(22, x1), (19, x2), (17, x3)] = some w := h
  simp only [fits, List.all_cons, List.all_nil, Bool.and_eq_true, decide_eq_true_eq] at hf
  obtain ⟨hx0, hx1, hx2, hx3, _⟩ := hf
  exact Sys2Proof.Laws.Wf.word_lt [2 ^ (4 + 22) - 2 ^ 22, 2 ^ (3 + 19) - 2 ^ 19, 2 ^ (2 + 17) - 2 ^ 17] h
      (.cons (Sys2Proof.Laws.Wf.place hx1 22) (.cons (Sys2Proof.Laws.Wf.place hx2 19) (.cons (Sys2Proof.Laws.Wf.place hx3 17) (.nil)))) (by decide)

theorem Sys2Proof.Laws.Wf.laneSt (x0 : Nat) (x1 : Nat) (x2 : Nat) (x3 : Nat) : Sys2Proof.Laws.Wf.Statement (.laneSt x0 x1 x2 x3) := by
  intro hf w h
  replace hf : (fits [(x0, 3), (x1, 4), (x2, 3), (x3, 2)]) = true := hf
  replace h : placed 0x11 [(22, x1), (19, x2), (17, x3)] = some w := h
  simp only [fits, List.all_cons, List.all_nil, Bool.and_eq_true, decide_eq_true_eq] at hf
  obtain ⟨hx0, hx1, hx2, hx3, _⟩ := hf
  exact Sys2Proof.Laws.Wf.word_lt [2 ^ (4 + 22) - 2 ^ 22, 2 ^ (3 + 19) - 2 ^ 19, 2 ^ (2 + 17) - 2 ^ 17] h
      (.cons (Sys2Proof.Laws.Wf.place hx1 22) (.cons (Sys2Proof.Laws.Wf.place hx2 19) (.cons (Sys2Proof.Laws.Wf.place hx3 17) (.nil)))) (by decide)

theorem Sys2Proof.Laws.Wf.laneLd2 (x0 : Nat) (x1 : Nat) (x2 : Nat) (x3 : Nat) (x4 : Nat) (x5 : Nat) : Sys2Proof.Laws.Wf.Statement (.laneLd2 x0 x1 x2 x3 x4 x5) := by
  intro hf w h
  replace hf : (fits [(x0, 3), (x1, 4), (x2, 2), (x3, 2), (x4, 2), (x5, 2)]) = true := hf
  replace h : placed 0x12 [(22, x1), (20, x2), (18, x3), (16, x4), (14, x5)] = some w := h
  simp only [fits, List.all_cons, List.all_nil, Bool.and_eq_true, decide_eq_true_eq] at hf
  obtain ⟨hx0, hx1, hx2, hx3, hx4, hx5, _⟩ := hf
  exact Sys2Proof.Laws.Wf.word_lt [2 ^ (4 + 22) - 2 ^ 22, 2 ^ (2 + 20) - 2 ^ 20, 2 ^ (2 + 18) - 2 ^ 18, 2 ^ (2 + 16) - 2 ^ 16, 2 ^ (2 + 14) - 2 ^ 14] h
      (.cons (Sys2Proof.Laws.Wf.place hx1 22) (.cons (Sys2Proof.Laws.Wf.place hx2 20) (.cons (Sys2Proof.Laws.Wf.place hx3 18) (.cons (Sys2Proof.Laws.Wf.place hx4 16) (.cons (Sys2Proof.Laws.Wf.place hx5 14) (.nil)))))) (by decide)

theorem Sys2Proof.Laws.Wf.laneLim (x0 : Nat) (x1 : Nat) (x2 : Nat) (x3 : Nat) : Sys2Proof.Laws.Wf.Statement (.laneLim x0 x1 x2 x3) := by
  intro hf w h
  replace hf : (fits [(x0, 3), (x1, 4), (x2, 4), (x3, 4)]) = true := hf
  replace h : placed 0x13 [(22, x1), (18, x2), (14, x3)] = some w := h
  simp only [fits, List.all_cons, List.all_nil, Bool.and_eq_true, decide_eq_true_eq] at hf
  obtain ⟨hx0, hx1, hx2, hx3, _⟩ := hf
  exact Sys2Proof.Laws.Wf.word_lt [2 ^ (4 + 22) - 2 ^ 22, 2 ^ (4 + 18) - 2 ^ 18, 2 ^ (4 + 14) - 2 ^ 14] h
      (.cons (Sys2Proof.Laws.Wf.place hx1 22) (.cons (Sys2Proof.Laws.Wf.place hx2 18) (.cons (Sys2Proof.Laws.Wf.place hx3 14) (.nil)))) (by decide)

theorem Sys2Proof.Laws.Wf.laneGet (x0 : Nat) (x1 : Nat) (x2 : Bool) (x3 : Nat) : Sys2Proof.Laws.Wf.Statement (.laneGet x0 x1 x2 x3) := by
  intro hf w h
  cases x2
  · replace hf : (fits [(x0, 3), (x1, 4), (x3, 14)]) = true := hf
    replace h : placed 0x14 [(22, x1), (14, b2n false), (0, x3)] = some w := h
    simp only [fits, List.all_cons, List.all_nil, Bool.and_eq_true, decide_eq_true_eq] at hf
    obtain ⟨hx0, hx1, hx3, _⟩ := hf
    exact Sys2Proof.Laws.Wf.word_lt [2 ^ (4 + 22) - 2 ^ 22, 2 ^ (1 + 14) - 2 ^ 14, 2 ^ (14 + 0) - 2 ^ 0] h
      (.cons (Sys2Proof.Laws.Wf.place hx1 22) (.cons (Sys2Proof.Laws.Wf.place (Sys2Proof.Laws.Wf.b2n_lt false) 14) (.cons (Sys2Proof.Laws.Wf.place hx3 0) (.nil)))) (by decide)
  · replace hf : (fits [(x0, 3), (x1, 4), (x3, 4)]) = true := hf
    replace h : placed 0x14 [(22, x1), (14, b2n true), (0, x3)] = some w := h
    simp only [fits, List.all_cons, List.all_nil, Bool.and_eq_true, decide_eq_true_eq] at hf
    obtain ⟨hx0, hx1, hx3, _⟩ := hf
    exact Sys2Proof.Laws.Wf.word_lt [2 ^ (4 + 22) - 2 ^ 22, 2 ^ (1 + 14) - 2 ^ 14, 2 ^ (4 + 0) - 2 ^ 0] h
      (.cons (Sys2Proof.Laws.Wf.place hx1 22) (.cons (Sys2Proof.Laws.Wf.place (Sys2Proof.Laws.Wf.b2n_lt true) 14) (.cons (Sys2Proof.Laws.Wf.place hx3 0) (.nil)))) (by decide)

theorem Sys2Proof.Laws.Wf.laneGetw (x0 : Nat) (x1 : Nat) (x2 : Bool) (x3 : Nat) : Sys2Proof.Laws.Wf.Statement (.laneGetw x0 x1 x2 x3) := by
  intro hf w h
  cases x2
  · replace hf : (fits [(x0, 3), (x1, 4), (x3, 14)]) = true := hf
    replace h : placed 0x15 [(22, x1), (14, b2n false), (0, x3)] = some w := h
    simp only [fits, List.all_cons, List.all_nil, Bool.and_eq_true, decide_eq_true_eq] at hf
    obtain ⟨hx0, hx1, hx3, _⟩ := hf
    exact Sys2Proof.Laws.Wf.word_lt [2 ^ (4 + 22) - 2 ^ 22, 2 ^ (1 + 14) - 2 ^ 14, 2 ^ (14 + 0) - 2 ^ 0] h
      (.cons (Sys2Proof.Laws.Wf.place hx1 22) (.cons (Sys2Proof.Laws.Wf.place (Sys2Proof.Laws.Wf.b2n_lt false) 14) (.cons (Sys2Proof.Laws.Wf.place hx3 0) (.nil)))) (by decide)
  · replace hf : (fits [(x0, 3), (x1, 4), (x3, 4)]) = true := hf
    replace h : placed 0x15 [(22, x1), (14, b2n true), (0, x3)] = some w := h
    simp only [fits, List.all_cons, List.all_nil, Bool.and_eq_true, decide_eq_true_eq] at hf
    obtain ⟨hx0, hx1, hx3, _⟩ := hf
    exact Sys2Proof.Laws.Wf.word_lt [2 ^ (4 + 22) - 2 ^ 22, 2 ^ (1 + 14) - 2 ^ 14, 2 ^ (4 + 0) - 2 ^ 0] h
      (.cons (Sys2Proof.Laws.Wf.place hx1 22) (.cons (Sys2Proof.Laws.Wf.place (Sys2Proof.Laws.Wf.b2n_lt true) 14) (.cons (Sys2Proof.Laws.Wf.place hx3 0) (.nil)))) (by decide)

theorem Sys2Proof.Laws.Wf.lanePut (x0 : Nat) (x1 : Nat) (x2 : Bool) (x3 : Nat) : Sys2Proof.Laws.Wf.Statement (.lanePut x0 x1 x2 x3) := by
  intro hf w h
  cases x2
  · replace hf : (fits [(x0, 3), (x1, 4), (x3, 14)]) = true := hf
    replace h : placed 0x16 [(22, x1), (14, b2n false), (0, x3)] = some w := h
    simp only [fits, List.all_cons, List.all_nil, Bool.and_eq_true, decide_eq_true_eq] at hf
    obtain ⟨hx0, hx1, hx3, _⟩ := hf
    exact Sys2Proof.Laws.Wf.word_lt [2 ^ (4 + 22) - 2 ^ 22, 2 ^ (1 + 14) - 2 ^ 14, 2 ^ (14 + 0) - 2 ^ 0] h
      (.cons (Sys2Proof.Laws.Wf.place hx1 22) (.cons (Sys2Proof.Laws.Wf.place (Sys2Proof.Laws.Wf.b2n_lt false) 14) (.cons (Sys2Proof.Laws.Wf.place hx3 0) (.nil)))) (by decide)
  · replace hf : (fits [(x0, 3), (x1, 4), (x3, 4)]) = true := hf
    replace h : placed 0x16 [(22, x1), (14, b2n true), (0, x3)] = some w := h
    simp only [fits, List.all_cons, List.all_nil, Bool.and_eq_true, decide_eq_true_eq] at hf
    obtain ⟨hx0, hx1, hx3, _⟩ := hf
    exact Sys2Proof.Laws.Wf.word_lt [2 ^ (4 + 22) - 2 ^ 22, 2 ^ (1 + 14) - 2 ^ 14, 2 ^ (4 + 0) - 2 ^ 0] h
      (.cons (Sys2Proof.Laws.Wf.place hx1 22) (.cons (Sys2Proof.Laws.Wf.place (Sys2Proof.Laws.Wf.b2n_lt true) 14) (.cons (Sys2Proof.Laws.Wf.place hx3 0) (.nil)))) (by decide)

theorem Sys2Proof.Laws.Wf.lanePutw (x0 : Nat) (x1 : Nat) (x2 : Bool) (x3 : Nat) : Sys2Proof.Laws.Wf.Statement (.lanePutw x0 x1 x2 x3) := by
  intro hf w h
  cases x2
  · replace hf : (fits [(x0, 3), (x1, 4), (x3, 14)]) = true := hf
    replace h : placed 0x17 [(22, x1), (14, b2n false), (0, x3)] = some w := h
    simp only [fits, List.all_cons, List.all_nil, Bool.and_eq_true, decide_eq_true_eq] at hf
    obtain ⟨hx0, hx1, hx3, _⟩ := hf
    exact Sys2Proof.Laws.Wf.word_lt [2 ^ (4 + 22) - 2 ^ 22, 2 ^ (1 + 14) - 2 ^ 14, 2 ^ (14 + 0) - 2 ^ 0] h
      (.cons (Sys2Proof.Laws.Wf.place hx1 22) (.cons (Sys2Proof.Laws.Wf.place (Sys2Proof.Laws.Wf.b2n_lt false) 14) (.cons (Sys2Proof.Laws.Wf.place hx3 0) (.nil)))) (by decide)
  · replace hf : (fits [(x0, 3), (x1, 4), (x3, 4)]) = true := hf
    replace h : placed 0x17 [(22, x1), (14, b2n true), (0, x3)] = some w := h
    simp only [fits, List.all_cons, List.all_nil, Bool.and_eq_true, decide_eq_true_eq] at hf
    obtain ⟨hx0, hx1, hx3, _⟩ := hf
    exact Sys2Proof.Laws.Wf.word_lt [2 ^ (4 + 22) - 2 ^ 22, 2 ^ (1 + 14) - 2 ^ 14, 2 ^ (4 + 0) - 2 ^ 0] h
      (.cons (Sys2Proof.Laws.Wf.place hx1 22) (.cons (Sys2Proof.Laws.Wf.place (Sys2Proof.Laws.Wf.b2n_lt true) 14) (.cons (Sys2Proof.Laws.Wf.place hx3 0) (.nil)))) (by decide)

theorem Sys2Proof.Laws.Wf.laneFld (x0 : Nat) (x1 : Nat) (x2 : Nat) : Sys2Proof.Laws.Wf.Statement (.laneFld x0 x1 x2) := by
  intro hf w h
  replace hf : (fits [(x0, 3), (x1, 4), (x2, 12)]) = true := hf
  replace h : placed 0x18 [(22, x1), (0, x2)] = some w := h
  simp only [fits, List.all_cons, List.all_nil, Bool.and_eq_true, decide_eq_true_eq] at hf
  obtain ⟨hx0, hx1, hx2, _⟩ := hf
  exact Sys2Proof.Laws.Wf.word_lt [2 ^ (4 + 22) - 2 ^ 22, 2 ^ (12 + 0) - 2 ^ 0] h
      (.cons (Sys2Proof.Laws.Wf.place hx1 22) (.cons (Sys2Proof.Laws.Wf.place hx2 0) (.nil))) (by decide)

theorem Sys2Proof.Laws.Wf.laneFst (x0 : Nat) (x1 : Nat) (x2 : Nat) : Sys2Proof.Laws.Wf.Statement (.laneFst x0 x1 x2) := by
  intro hf w h
  replace hf : (fits [(x0, 3), (x1, 4), (x2, 12)]) = true := hf
  replace h : placed 0x19 [(22, x1), (0, x2)] = some w := h
  simp only [fits, List.all_cons, List.all_nil, Bool.and_eq_true, decide_eq_true_eq] at hf
  obtain ⟨hx0, hx1, hx2, _⟩ := hf
  exact Sys2Proof.Laws.Wf.word_lt [2 ^ (4 + 22) - 2 ^ 22, 2 ^ (12 + 0) - 2 ^ 0] h
      (.cons (Sys2Proof.Laws.Wf.place hx1 22) (.cons (Sys2Proof.Laws.Wf.place hx2 0) (.nil))) (by decide)

theorem Sys2Proof.Laws.Wf.lanePop (x0 : Nat) (x1 : Nat) : Sys2Proof.Laws.Wf.Statement (.lanePop x0 x1) := by
  intro hf w h
  replace hf : (fits [(x0, 3), (x1, 4)]) = true := hf
  replace h : placed 0x1A [(22, x1)] = some w := h
  simp only [fits, List.all_cons, List.all_nil, Bool.and_eq_true, decide_eq_true_eq] at hf
  obtain ⟨hx0, hx1, _⟩ := hf
  exact Sys2Proof.Laws.Wf.word_lt [2 ^ (4 + 22) - 2 ^ 22] h
      (.cons (Sys2Proof.Laws.Wf.place hx1 22) (.nil)) (by decide)

theorem Sys2Proof.Laws.Wf.laneMpyReg (x0 : Nat) (x1 : Bool) (x2 : Nat) (x3 : Nat) : Sys2Proof.Laws.Wf.Statement (.laneMpyReg x0 x1 x2 x3) := by
  intro hf w h
  replace hf : (fits [(x0, 3), (x2, 4), (x3, 4)]) = true := hf
  replace h : placed 0x1B [(25, b2n x1), (18, x2), (14, x3)] = some w := h
  simp only [fits, List.all_cons, List.all_nil, Bool.and_eq_true, decide_eq_true_eq] at hf
  obtain ⟨hx0, hx2, hx3, _⟩ := hf
  exact Sys2Proof.Laws.Wf.word_lt [2 ^ (1 + 25) - 2 ^ 25, 2 ^ (4 + 18) - 2 ^ 18, 2 ^ (4 + 14) - 2 ^ 14] h
      (.cons (Sys2Proof.Laws.Wf.place (Sys2Proof.Laws.Wf.b2n_lt x1) 25) (.cons (Sys2Proof.Laws.Wf.place hx2 18) (.cons (Sys2Proof.Laws.Wf.place hx3 14) (.nil)))) (by decide)

theorem Sys2Proof.Laws.Wf.laneMpyMem (x0 : Nat) (x1 : Bool) (x2 : Nat) (x3 : Nat) (x4 : Nat) : Sys2Proof.Laws.Wf.Statement (.laneMpyMem x0 x1 x2 x3 x4) := by
  intro hf w h
  replace hf : (fits [(x0, 3), (x2, 4), (x3, 3), (x4, 2)]) = true := hf
  replace h : placed 0x1C [(25, b2n x1), (18, x2), (15, x3), (13, x4)] = some w := h
  simp only [fits, List.all_cons, List.all_nil, Bool.and_eq_true, decide_eq_true_eq] at hf
  obtain ⟨hx0, hx2, hx3, hx4, _⟩ := hf
  exact Sys2Proof.Laws.Wf.word_lt [2 ^ (1 + 25) - 2 ^ 25, 2 ^ (4 + 18) - 2 ^ 18, 2 ^ (3 + 15) - 2 ^ 15, 2 ^ (2 + 13) - 2 ^ 13] h
      (.cons (Sys2Proof.Laws.Wf.place (Sys2Proof.Laws.Wf.b2n_lt x1) 25) (.cons (Sys2Proof.Laws.Wf.place hx2 18) (.cons (Sys2Proof.Laws.Wf.place hx3 15) (.cons (Sys2Proof.Laws.Wf.place hx4 13) (.nil))))) (by decide)

theorem Sys2Proof.Laws.Wf.laneMpyDual (x0 : Nat) (x1 : Bool) (x2 : Nat) (x3 : Nat) (x4 : Nat) (x5 : Nat) : Sys2Proof.Laws.Wf.Statement (.laneMpyDual x0 x1 x2 x3 x4 x5) := by
  intro hf w h
  replace hf : (fits [(x0, 3), (x2, 2), (x3, 2), (x4, 2), (x5, 2)]) = true := hf
  replace h : placed 0x1D [(25, b2n x1), (23, x2), (21, x3), (19, x4), (17, x5)] = some w := h
  simp only [fits, List.all_cons, List.all_nil, Bool.and_eq_true, decide_eq_true_eq] at hf
  obtain ⟨hx0, hx2, hx3, hx4, hx5, _⟩ := hf
  exact Sys2Proof.Laws.Wf.word_lt [2 ^ (1 + 25) - 2 ^ 25, 2 ^ (2 + 23) - 2 ^ 23, 2 ^ (2 + 21) - 2 ^ 21, 2 ^ (2 + 19) - 2 ^ 19, 2 ^ (2 + 17) - 2 ^ 17] h
      (.cons (Sys2Proof.Laws.Wf.place (Sys2Proof.Laws.Wf.b2n_lt x1) 25) (.cons (Sys2Proof.Laws.Wf.place hx2 23) (.cons (Sys2Proof.Laws.Wf.place hx3 21) (.cons (Sys2Proof.Laws.Wf.place hx4 19) (.cons (Sys2Proof.Laws.Wf.place hx5 17) (.nil)))))) (by decide)

theorem Sys2Proof.Laws.Wf.laneMacReg (x0 : Nat) (x1 : Bool) (x2 : Nat) (x3 : Nat) : Sys2Proof.Laws.Wf.Statement (.laneMacReg x0 x1 x2 x3) := by
  intro hf w h
  replace hf : (fits [(x0, 3), (x2, 4), (x3, 4)]) = true := hf
  replace h : placed 0x1E [(25, b2n x1), (18, x2), (14, x3)] = some w := h
  simp only [fits, List.all_cons, List.all_nil, Bool.and_eq_true, decide_eq_true_eq] at hf
  obtain ⟨hx0, hx2, hx3, _⟩ := hf
  exact Sys2Proof.Laws.Wf.word_lt [2 ^ (1 + 25) - 2 ^ 25, 2 ^ (4 + 18) - 2 ^ 18, 2 ^ (4 + 14) - 2 ^ 14] h
      (.cons (Sys2Proof.Laws.Wf.place (Sys2Proof.Laws.Wf.b2n_lt x1) 25) (.cons (Sys2Proof.Laws.Wf.place hx2 18) (.cons (Sys2Proof.Laws.Wf.place hx3 14) (.nil)))) (by decide)

theorem Sys2Proof.Laws.Wf.laneMacMem (x0 : Nat) (x1 : Bool) (x2 : Nat) (x3 : Nat) (x4 : Nat) : Sys2Proof.Laws.Wf.Statement (.laneMacMem x0 x1 x2 x3 x4) := by
  intro hf w h
  replace hf : (fits [(x0, 3), (x2, 4), (x3, 3), (x4, 2)]) = true := hf
  replace h : placed 0x1F [(25, b2n x1), (18, x2), (15, x3), (13, x4)] = some w := h
  simp only [fits, List.all_cons, List.all_nil, Bool.and_eq_true, decide_eq_true_eq] at hf
  obtain ⟨hx0, hx2, hx3, hx4, _⟩ := hf
  exact Sys2Proof.Laws.Wf.word_lt [2 ^ (1 + 25) - 2 ^ 25, 2 ^ (4 + 18) - 2 ^ 18, 2 ^ (3 + 15) - 2 ^ 15, 2 ^ (2 + 13) - 2 ^ 13] h
      (.cons (Sys2Proof.Laws.Wf.place (Sys2Proof.Laws.Wf.b2n_lt x1) 25) (.cons (Sys2Proof.Laws.Wf.place hx2 18) (.cons (Sys2Proof.Laws.Wf.place hx3 15) (.cons (Sys2Proof.Laws.Wf.place hx4 13) (.nil))))) (by decide)

theorem Sys2Proof.Laws.Wf.laneMacDual (x0 : Nat) (x1 : Bool) (x2 : Nat) (x3 : Nat) (x4 : Nat) (x5 : Nat) : Sys2Proof.Laws.Wf.Statement (.laneMacDual x0 x1 x2 x3 x4 x5) := by
  intro hf w h
  replace hf : (fits [(x0, 3), (x2, 2), (x3, 2), (x4, 2), (x5, 2)]) = true := hf
  replace h : placed 0x20 [(25, b2n x1), (23, x2), (21, x3), (19, x4), (17, x5)] = some w := h
  simp only [fits, List.all_cons, List.all_nil, Bool.and_eq_true, decide_eq_true_eq] at hf
  obtain ⟨hx0, hx2, hx3, hx4, hx5, _⟩ := hf
  exact Sys2Proof.Laws.Wf.word_lt [2 ^ (1 + 25) - 2 ^ 25, 2 ^ (2 + 23) - 2 ^ 23, 2 ^ (2 + 21) - 2 ^ 21, 2 ^ (2 + 19) - 2 ^ 19, 2 ^ (2 + 17) - 2 ^ 17] h
      (.cons (Sys2Proof.Laws.Wf.place (Sys2Proof.Laws.Wf.b2n_lt x1) 25) (.cons (Sys2Proof.Laws.Wf.place hx2 23) (.cons (Sys2Proof.Laws.Wf.place hx3 21) (.cons (Sys2Proof.Laws.Wf.place hx4 19) (.cons (Sys2Proof.Laws.Wf.place hx5 17) (.nil)))))) (by decide)

theorem Sys2Proof.Laws.Wf.laneMsuReg (x0 : Nat) (x1 : Bool) (x2 : Nat) (x3 : Nat) : Sys2Proof.Laws.Wf.Statement (.laneMsuReg x0 x1 x2 x3) := by
  intro hf w h
  replace hf : (fits [(x0, 3), (x2, 4), (x3, 4)]) = true := hf
  replace h : placed 0x21 [(25, b2n x1), (18, x2), (14, x3)] = some w := h
  simp only [fits, List.all_cons, List.all_nil, Bool.and_eq_true, decide_eq_true_eq] at hf
  obtain ⟨hx0, hx2, hx3, _⟩ := hf
  exact Sys2Proof.Laws.Wf.word_lt [2 ^ (1 + 25) - 2 ^ 25, 2 ^ (4 + 18) - 2 ^ 18, 2 ^ (4 + 14) - 2 ^ 14] h
      (.cons (Sys2Proof.Laws.Wf.place (Sys2Proof.Laws.Wf.b2n_lt x1) 25) (.cons (Sys2Proof.Laws.Wf.place hx2 18) (.cons (Sys2Proof.Laws.Wf.place hx3 14) (.nil)))) (by decide)

theorem Sys2Proof.Laws.Wf.laneMsuMem (x0 : Nat) (x1 : Bool) (x2 : Nat) (x3 : Nat) (x4 : Nat) : Sys2Proof.Laws.Wf.Statement (.laneMsuMem x0 x1 x2 x3 x4) := by
  intro hf w h
  replace hf : (fits [(x0, 3), (x2, 4), (x3, 3), (x4, 2)]) = true := hf
  replace h : placed 0x22 [(25, b2n x1), (18, x2), (15, x3), (13, x4)] = some w := h
  simp only [fits, List.all_cons, List.all_nil, Bool.and_eq_true, decide_eq_true_eq] at hf
  obtain ⟨hx0, hx2, hx3, hx4, _⟩ := hf
  exact Sys2Proof.Laws.Wf.word_lt [2 ^ (1 + 25) - 2 ^ 25, 2 ^ (4 + 18) - 2 ^ 18, 2 ^ (3 + 15) - 2 ^ 15, 2 ^ (2 + 13) - 2 ^ 13] h
      (.cons (Sys2Proof.Laws.Wf.place (Sys2Proof.Laws.Wf.b2n_lt x1) 25) (.cons (Sys2Proof.Laws.Wf.place hx2 18) (.cons (Sys2Proof.Laws.Wf.place hx3 15) (.cons (Sys2Proof.Laws.Wf.place hx4 13) (.nil))))) (by decide)

theorem Sys2Proof.Laws.Wf.laneMsuDual (x0 : Nat) (x1 : Bool) (x2 : Nat) (x3 : Nat) (x4 : Nat) (x5 : Nat) : Sys2Proof.Laws.Wf.Statement (.laneMsuDual x0 x1 x2 x3 x4 x5) := by
  intro hf w h
  replace hf : (fits [(x0, 3), (x2, 2), (x3, 2), (x4, 2), (x5, 2)]) = true := hf
  replace h : placed 0x23 [(25, b2n x1), (23, x2), (21, x3), (19, x4), (17, x5)] = some w := h
  simp only [fits, List.all_cons, List.all_nil, Bool.and_eq_true, decide_eq_true_eq] at hf
  obtain ⟨hx0, hx2, hx3, hx4, hx5, _⟩ := hf
  exact Sys2Proof.Laws.Wf.word_lt [2 ^ (1 + 25) - 2 ^ 25, 2 ^ (2 + 23) - 2 ^ 23, 2 ^ (2 + 21) - 2 ^ 21, 2 ^ (2 + 19) - 2 ^ 19, 2 ^ (2 + 17) - 2 ^ 17] h
      (.cons (Sys2Proof.Laws.Wf.place (Sys2Proof.Laws.Wf.b2n_lt x1) 25) (.cons (Sys2Proof.Laws.Wf.place hx2 23) (.cons (Sys2Proof.Laws.Wf.place hx3 21) (.cons (Sys2Proof.Laws.Wf.place hx4 19) (.cons (Sys2Proof.Laws.Wf.place hx5 17) (.nil)))))) (by decide)

theorem Sys2Proof.Laws.Wf.laneMpyu (x0 : Nat) (x1 : Bool) (x2 : Nat) (x3 : Nat) : Sys2Proof.Laws.Wf.Statement (.laneMpyu x0 x1 x2 x3) := by
  intro hf w h
  replace hf : (fits [(x0, 3), (x2, 4), (x3, 4)]) = true := hf
  replace h : placed 0x24 [(25, b2n x1), (18, x2), (14, x3)] = some w := h
  simp only [fits, List.all_cons, List.all_nil, Bool.and_eq_true, decide_eq_true_eq] at hf
  obtain ⟨hx0, hx2, hx3, _⟩ := hf
  exact Sys2Proof.Laws.Wf.word_lt [2 ^ (1 + 25) - 2 ^ 25, 2 ^ (4 + 18) - 2 ^ 18, 2 ^ (4 + 14) - 2 ^ 14] h
      (.cons (Sys2Proof.Laws.Wf.place (Sys2Proof.Laws.Wf.b2n_lt x1) 25) (.cons (Sys2Proof.Laws.Wf.place hx2 18) (.cons (Sys2Proof.Laws.Wf.place hx3 14) (.nil)))) (by decide)

theorem Sys2Proof.Laws.Wf.laneAdd (x0 : Nat) (x1 : Nat) (x2 : Nat) (x3 : Nat) : Sys2Proof.Laws.Wf.Statement (.laneAdd x0 x1 x2 x3) := by
  intro hf w h
  replace hf : (fits [(x0, 3), (x1, 4), (x2, 4), (x3, 4)]) = true := hf
  replace h : placed 0x25 [(22, x1), (18, x2), (14, x3)] = some w := h
  simp only [fits, List.all_cons, List.all_nil, Bool.and_eq_true, decide_eq_true_eq] at hf
  obtain ⟨hx0, hx1, hx2, hx3, _⟩ := hf
  exact Sys2Proof.Laws.Wf.word_lt [2 ^ (4 + 22) - 2 ^ 22, 2 ^ (4 + 18) - 2 ^ 18, 2 ^ (4 + 14) - 2 ^ 14] h
      (.cons (Sys2Proof.Laws.Wf.place hx1 22) (.cons (Sys2Proof.Laws.Wf.place hx2 18) (.cons (Sys2Proof.Laws.Wf.place hx3 14) (.nil)))) (by decide)

theorem Sys2Proof.Laws.Wf.laneSub (x0 : Nat) (x1 : Nat) (x2 : Nat) (x3 : Nat) : Sys2Proof.Laws.Wf.Statement (.laneSub x0 x1 x2 x3) := by
  intro hf w h
  replace hf : (fits [(x0, 3), (x1, 4), (x2, 4), (x3, 4)]) = true := hf
  replace h : placed 0x26 [(22, x1), (18, x2), (14, x3)] = some w := h
  simp only [fits, List.all_cons, List.all_nil, Bool.and_eq_true, decide_eq_true_eq] at hf
  obtain ⟨hx0, hx1, hx2, hx3, _⟩ := hf
  exact Sys2Proof.Laws.Wf.word_lt [2 ^ (4 + 22) - 2 ^ 22, 2 ^ (4 + 18) - 2 ^ 18, 2 ^ (4 + 14) - 2 ^ 14] h
      (.cons (Sys2Proof.Laws.Wf.place hx1 22) (.cons (Sys2Proof.Laws.Wf.place hx2 18) (.cons (Sys2Proof.Laws.Wf.place hx3 14) (.nil)))) (by decide)

theorem Sys2Proof.Laws.Wf.laneMinmax (x0 : Nat) (x1 : Nat) (x2 : Nat) (x3 : Nat) (x4 : Bool) : Sys2Proof.Laws.Wf.Statement (.laneMinmax x0 x1 x2 x3 x4) := by
  intro hf w h
  replace hf : (fits [(x0, 3), (x1, 4), (x2, 4), (x3, 4)]) = true := hf
  replace h : placed 0x27 [(22, x1), (18, x2), (14, x3), (0, b2n x4)] = some w := h
  simp only [fits, List.all_cons, List.all_nil, Bool.and_eq_true, decide_eq_true_eq] at hf
  obtain ⟨hx0, hx1, hx2, hx3, _⟩ := hf
  exact Sys2Proof.Laws.Wf.word_lt [2 ^ (4 + 22) - 2 ^ 22, 2 ^ (4 + 18) - 2 ^ 18, 2 ^ (4 + 14) - 2 ^ 14, 2 ^ (1 + 0) - 2 ^ 0] h
      (.cons (Sys2Proof.Laws.Wf.place hx1 22) (.cons (Sys2Proof.Laws.Wf.place hx2 18) (.cons (Sys2Proof.Laws.Wf.place hx3 14) (.cons (Sys2Proof.Laws.Wf.place (Sys2Proof.Laws.Wf.b2n_lt x4) 0) (.nil))))) (by decide)

theorem Sys2Proof.Laws.Wf.laneLog (x0 : Nat) (x1 : Nat) (x2 : Nat) (x3 : Nat) (x4 : Nat) : Sys2Proof.Laws.Wf.Statement (.laneLog x0 x1 x2 x3 x4) := by
  intro hf w h
  replace hf : (fits [(x0, 3), (x1, 4), (x2, 4), (x3, 4), (x4, 2)]) = true := hf
  replace h : placed 0x28 [(22, x1), (18, x2), (14, x3), (0, x4)] = some w := h
  simp only [fits, List.all_cons, List.all_nil, Bool.and_eq_true, decide_eq_true_eq] at hf
  obtain ⟨hx0, hx1, hx2, hx3, hx4, _⟩ := hf
  exact Sys2Proof.Laws.Wf.word_lt [2 ^ (4 + 22) - 2 ^ 22, 2 ^ (4 + 18) - 2 ^ 18, 2 ^ (4 + 14) - 2 ^ 14, 2 ^ (2 + 0) - 2 ^ 0] h
      (.cons (Sys2Proof.Laws.Wf.place hx1 22) (.cons (Sys2Proof.Laws.Wf.place hx2 18) (.cons (Sys2Proof.Laws.Wf.place hx3 14) (.cons (Sys2Proof.Laws.Wf.place hx4 0) (.nil))))) (by decide)

theorem Sys2Proof.Laws.Wf.laneShd (x0 : Nat) (x1 : Nat) (x2 : Nat) (x3 : Bool) (x4 : Nat) : Sys2Proof.Laws.Wf.Statement (.laneShd x0 x1 x2 x3 x4) := by
  intro hf w h
  replace hf : (fits [(x0, 3), (x1, 4), (x2, 4), (x4, 5)]) = true := hf
  replace h : placed 0x29 [(22, x1), (18, x2), (5, b2n x3), (0, x4)] = some w := h
  simp only [fits, List.all_cons, List.all_nil, Bool.and_eq_true, decide_eq_true_eq] at hf
  obtain ⟨hx0, hx1, hx2, hx4, _⟩ := hf
  exact Sys2Proof.Laws.Wf.word_lt [2 ^ (4 + 22) - 2 ^ 22, 2 ^ (4 + 18) - 2 ^ 18, 2 ^ (1 + 5) - 2 ^ 5, 2 ^ (5 + 0) - 2 ^ 0] h
      (.cons (Sys2Proof.Laws.Wf.place hx1 22) (.cons (Sys2Proof.Laws.Wf.place hx2 18) (.cons (Sys2Proof.Laws.Wf.place (Sys2Proof.Laws.Wf.b2n_lt x3) 5) (.cons (Sys2Proof.Laws.Wf.place hx4 0) (.nil))))) (by decide)

theorem Sys2Proof.Laws.Wf.laneCmp (x0 : Nat) (x1 : Nat) (x2 : Nat) : Sys2Proof.Laws.Wf.Statement (.laneCmp x0 x1 x2) := by
  intro hf w h
  replace hf : (fits [(x0, 3), (x1, 4), (x2, 4)]) = true := hf
  replace h : placed 0x2A [(18, x1), (14, x2)] = some w := h
  simp only [fits, List.all_cons, List.all_nil, Bool.and_eq_true, decide_eq_true_eq] at hf
  obtain ⟨hx0, hx1, hx2, _⟩ := hf
  exact Sys2Proof.Laws.Wf.word_lt [2 ^ (4 + 18) - 2 ^ 18, 2 ^ (4 + 14) - 2 ^ 14] h
      (.cons (Sys2Proof.Laws.Wf.place hx1 18) (.cons (Sys2Proof.Laws.Wf.place hx2 14) (.nil))) (by decide)

theorem Sys2Proof.Laws.Wf.laneAcc (x0 : Nat) (x1 : Bool) (x2 : Nat) : Sys2Proof.Laws.Wf.Statement (.laneAcc x0 x1 x2) := by
  intro hf w h
  replace hf : (fits [(x0, 3), (x2, 3)]) = true := hf
  replace h : placed 0x2B [(25, b2n x1), (0, x2)] = some w := h
  simp only [fits, List.all_cons, List.all_nil, Bool.and_eq_true, decide_eq_true_eq] at hf
  obtain ⟨hx0, hx2, _⟩ := hf
  exact Sys2Proof.Laws.Wf.word_lt [2 ^ (1 + 25) - 2 ^ 25, 2 ^ (3 + 0) - 2 ^ 0] h
      (.cons (Sys2Proof.Laws.Wf.place (Sys2Proof.Laws.Wf.b2n_lt x1) 25) (.cons (Sys2Proof.Laws.Wf.place hx2 0) (.nil))) (by decide)

theorem Sys2Proof.Laws.Wf.laneSha (x0 : Nat) (x1 : Bool) (x2 : Bool) (x3 : Nat) : Sys2Proof.Laws.Wf.Statement (.laneSha x0 x1 x2 x3) := by
  intro hf w h
  cases x2
  · replace hf : (fits [(x0, 3), (x3, 6)]) = true := hf
    replace h : placed 0x2C [(25, b2n x1), (6, b2n false), (0, x3)] = some w := h
    simp only [fits, List.all_cons, List.all_nil, Bool.and_eq_true, decide_eq_true_eq] at hf
    obtain ⟨hx0, hx3, _⟩ := hf
    exact Sys2Proof.Laws.Wf.word_lt [2 ^ (1 + 25) - 2 ^ 25, 2 ^ (1 + 6) - 2 ^ 6, 2 ^ (6 + 0) - 2 ^ 0] h
      (.cons (Sys2Proof.Laws.Wf.place (Sys2Proof.Laws.Wf.b2n_lt x1) 25) (.cons (Sys2Proof.Laws.Wf.place (Sys2Proof.Laws.Wf.b2n_lt false) 6) (.cons (Sys2Proof.Laws.Wf.place hx3 0) (.nil)))) (by decide)
  · replace hf : (fits [(x0, 3), (x3, 4)]) = true := hf
    replace h : placed 0x2C [(25, b2n x1), (6, b2n true), (8, x3)] = some w := h
    simp only [fits, List.all_cons, List.all_nil, Bool.and_eq_true, decide_eq_true_eq] at hf
    obtain ⟨hx0, hx3, _⟩ := hf
    exact Sys2Proof.Laws.Wf.word_lt [2 ^ (1 + 25) - 2 ^ 25, 2 ^ (1 + 6) - 2 ^ 6, 2 ^ (4 + 8) - 2 ^ 8] h
      (.cons (Sys2Proof.Laws.Wf.place (Sys2Proof.Laws.Wf.b2n_lt x1) 25) (.cons (Sys2Proof.Laws.Wf.place (Sys2Proof.Laws.Wf.b2n_lt true) 6) (.cons (Sys2Proof.Laws.Wf.place hx3 8) (.nil)))) (by decide)

theorem Sys2Proof.Laws.Wf.laneMva (x0 : Nat) (x1 : Bool) (x2 : Nat) (x3 : Bool) (x4 : Bool) (x5 : Nat) : Sys2Proof.Laws.Wf.Statement (.laneMva x0 x1 x2 x3 x4 x5) := by
  intro hf w h
  replace hf : (fits [(x0, 3), (x2, 4), (x5, 5)]) = true := hf
  replace h : placed 0x2D [(25, b2n x1), (18, x2), (7, b2n x3), (6, b2n x4), (0, x5)] = some w := h
  simp only [fits, List.all_cons, List.all_nil, Bool.and_eq_true, decide_eq_true_eq] at hf
  obtain ⟨hx0, hx2, hx5, _⟩ := hf
  exact Sys2Proof.Laws.Wf.word_lt [2 ^ (1 + 25) - 2 ^ 25, 2 ^ (4 + 18) - 2 ^ 18, 2 ^ (1 + 7) - 2 ^ 7, 2 ^ (1 + 6) - 2 ^ 6, 2 ^ (5 + 0) - 2 ^ 0] h
      (.cons (Sys2Proof.Laws.Wf.place (Sys2Proof.Laws.Wf.b2n_lt x1) 25) (.cons (Sys2Proof.Laws.Wf.place hx2 18) (.cons (Sys2Proof.Laws.Wf.place (Sys2Proof.Laws.Wf.b2n_lt x3) 7) (.cons (Sys2Proof.Laws.Wf.place (Sys2Proof.Laws.Wf.b2n_lt x4) 6) (.cons (Sys2Proof.Laws.Wf.place hx5 0) (.nil)))))) (by decide)

theorem Sys2Proof.Laws.Wf.laneMvd (x0 : Nat) (x1 : Bool) (x2 : Nat) (x3 : Bool) (x4 : Nat) : Sys2Proof.Laws.Wf.Statement (.laneMvd x0 x1 x2 x3 x4) := by
  intro hf w h
  replace hf : (fits [(x0, 3), (x2, 4), (x4, 5)]) = true := hf
  replace h : placed 0x2E [(25, b2n x1), (18, x2), (6, b2n x3), (0, x4)] = some w := h
  simp only [fits, List.all_cons, List.all_nil, Bool.and_eq_true, decide_eq_true_eq] at hf
  obtain ⟨hx0, hx2, hx4, _⟩ := hf
  exact Sys2Proof.Laws.Wf.word_lt [2 ^ (1 + 25) - 2 ^ 25, 2 ^ (4 + 18) - 2 ^ 18, 2 ^ (1 + 6) - 2 ^ 6, 2 ^ (5 + 0) - 2 ^ 0] h
      (.cons (Sys2Proof.Laws.Wf.place (Sys2Proof.Laws.Wf.b2n_lt x1) 25) (.cons (Sys2Proof.Laws.Wf.place hx2 18) (.cons (Sys2Proof.Laws.Wf.place (Sys2Proof.Laws.Wf.b2n_lt x3) 6) (.cons (Sys2Proof.Laws.Wf.place hx4 0) (.nil))))) (by decide)

theorem Sys2Proof.Laws.Wf.laneNorm (x0 : Nat) (x1 : Bool) (x2 : Nat) (x3 : Bool) : Sys2Proof.Laws.Wf.Statement (.laneNorm x0 x1 x2 x3) := by
  intro hf w h
  replace hf : (fits [(x0, 3), (x2, 4)]) = true := hf
  replace h : placed 0x2F [(25, b2n x1), (18, x2), (0, b2n x3)] = some w := h
  simp only [fits, List.all_cons, List.all_nil, Bool.and_eq_true, decide_eq_true_eq] at hf
  obtain ⟨hx0, hx2, _⟩ := hf
  exact Sys2Proof.Laws.Wf.word_lt [2 ^ (1 + 25) - 2 ^ 25, 2 ^ (4 + 18) - 2 ^ 18, 2 ^ (1 + 0) - 2 ^ 0] h
      (.cons (Sys2Proof.Laws.Wf.place (Sys2Proof.Laws.Wf.b2n_lt x1) 25) (.cons (Sys2Proof.Laws.Wf.place hx2 18) (.cons (Sys2Proof.Laws.Wf.place (Sys2Proof.Laws.Wf.b2n_lt x3) 0) (.nil)))) (by decide)

theorem Sys2Proof.Laws.Wf.laneDataError (x0 : Nat) : Sys2Proof.Laws.Wf.Statement (.laneDataError x0) := by
  intro _ w h; cases h

theorem Sys2Proof.Laws.Wf.streamSample (x0 : Nat) (x1 : Nat) : Sys2Proof.Laws.Wf.Statement (.streamSample x0 x1) := by
  intro _ w h; cases h

theorem Sys2Proof.Laws.Wf.laneMemAccess (x0 : Bool) (x1 : Nat) : Sys2Proof.Laws.Wf.Statement (.laneMemAccess x0 x1) := by
  intro _ w h; cases h

theorem Sys2Proof.Laws.Wf.laneClrCounts : Sys2Proof.Laws.Wf.Statement .laneClrCounts := by
  intro _ w h; cases h

theorem Sys2Proof.Laws.Wf.laneClrPeaks : Sys2Proof.Laws.Wf.Statement .laneClrPeaks := by
  intro _ w h; cases h

theorem Sys2Proof.Laws.Wf.cycleStart (x0 : Nat) (x1 : Bool) (x2 : Nat) : Sys2Proof.Laws.Wf.Statement (.cycleStart x0 x1 x2) := by
  intro _ w h; cases h

theorem Sys2Proof.Laws.Wf.cycleComplete (x0 : Nat) : Sys2Proof.Laws.Wf.Statement (.cycleComplete x0) := by
  intro _ w h; cases h

theorem Sys2Proof.Laws.Wf.logicNop (x0 : Nat) : Sys2Proof.Laws.Wf.Statement (.logicNop x0) := by
  intro hf w h
  replace hf : (fits [(x0, 2)]) = true := hf
  replace h : placed 0x00 [] = some w := h
  simp only [fits, List.all_cons, List.all_nil, Bool.and_eq_true, decide_eq_true_eq] at hf
  exact Sys2Proof.Laws.Wf.word_lt [] h
      (.nil) (by decide)

theorem Sys2Proof.Laws.Wf.logicEnd (x0 : Nat) : Sys2Proof.Laws.Wf.Statement (.logicEnd x0) := by
  intro hf w h
  replace hf : (fits [(x0, 2)]) = true := hf
  replace h : placed 0x01 [] = some w := h
  simp only [fits, List.all_cons, List.all_nil, Bool.and_eq_true, decide_eq_true_eq] at hf
  exact Sys2Proof.Laws.Wf.word_lt [] h
      (.nil) (by decide)

theorem Sys2Proof.Laws.Wf.logicJmp (x0 : Nat) (x1 : Nat) : Sys2Proof.Laws.Wf.Statement (.logicJmp x0 x1) := by
  intro hf w h
  replace hf : (fits [(x0, 2), (x1, 19)]) = true := hf
  replace h : placed 0x02 [(0, x1)] = some w := h
  simp only [fits, List.all_cons, List.all_nil, Bool.and_eq_true, decide_eq_true_eq] at hf
  obtain ⟨hx0, hx1, _⟩ := hf
  exact Sys2Proof.Laws.Wf.word_lt [2 ^ (19 + 0) - 2 ^ 0] h
      (.cons (Sys2Proof.Laws.Wf.place hx1 0) (.nil)) (by decide)

theorem Sys2Proof.Laws.Wf.logicBr (x0 : Nat) (x1 : Nat) (x2 : Nat) : Sys2Proof.Laws.Wf.Statement (.logicBr x0 x1 x2) := by
  intro hf w h
  replace hf : (fits [(x0, 2), (x1, 4), (x2, 19)]) = true := hf
  replace h : placed 0x03 [(22, x1), (0, x2)] = some w := h
  simp only [fits, List.all_cons, List.all_nil, Bool.and_eq_true, decide_eq_true_eq] at hf
  obtain ⟨hx0, hx1, hx2, _⟩ := hf
  exact Sys2Proof.Laws.Wf.word_lt [2 ^ (4 + 22) - 2 ^ 22, 2 ^ (19 + 0) - 2 ^ 0] h
      (.cons (Sys2Proof.Laws.Wf.place hx1 22) (.cons (Sys2Proof.Laws.Wf.place hx2 0) (.nil))) (by decide)

theorem Sys2Proof.Laws.Wf.logicCall (x0 : Nat) (x1 : Nat) : Sys2Proof.Laws.Wf.Statement (.logicCall x0 x1) := by
  intro hf w h
  replace hf : (fits [(x0, 2), (x1, 19)]) = true := hf
  replace h : placed 0x04 [(0, x1)] = some w := h
  simp only [fits, List.all_cons, List.all_nil, Bool.and_eq_true, decide_eq_true_eq] at hf
  obtain ⟨hx0, hx1, _⟩ := hf
  exact Sys2Proof.Laws.Wf.word_lt [2 ^ (19 + 0) - 2 ^ 0] h
      (.cons (Sys2Proof.Laws.Wf.place hx1 0) (.nil)) (by decide)

theorem Sys2Proof.Laws.Wf.logicRet (x0 : Nat) : Sys2Proof.Laws.Wf.Statement (.logicRet x0) := by
  intro hf w h
  replace hf : (fits [(x0, 2)]) = true := hf
  replace h : placed 0x05 [] = some w := h
  simp only [fits, List.all_cons, List.all_nil, Bool.and_eq_true, decide_eq_true_eq] at hf
  exact Sys2Proof.Laws.Wf.word_lt [] h
      (.nil) (by decide)

theorem Sys2Proof.Laws.Wf.logicBrb (x0 : Nat) (x1 : Nat) (x2 : Bool) (x3 : Nat) : Sys2Proof.Laws.Wf.Statement (.logicBrb x0 x1 x2 x3) := by
  intro hf w h
  replace hf : (fits [(x0, 2), (x1, 5), (x3, 19)]) = true := hf
  replace h : placed 0x06 [(21, x1), (19, b2n x2), (0, x3)] = some w := h
  simp only [fits, List.all_cons, List.all_nil, Bool.and_eq_true, decide_eq_true_eq] at hf
  obtain ⟨hx0, hx1, hx3, _⟩ := hf
  exact Sys2Proof.Laws.Wf.word_lt [2 ^ (5 + 21) - 2 ^ 21, 2 ^ (1 + 19) - 2 ^ 19, 2 ^ (19 + 0) - 2 ^ 0] h
      (.cons (Sys2Proof.Laws.Wf.place hx1 21) (.cons (Sys2Proof.Laws.Wf.place (Sys2Proof.Laws.Wf.b2n_lt x2) 19) (.cons (Sys2Proof.Laws.Wf.place hx3 0) (.nil)))) (by decide)

theorem Sys2Proof.Laws.Wf.logicLdw (x0 : Nat) (x1 : Nat) (x2 : Nat) (x3 : Nat) : Sys2Proof.Laws.Wf.Statement (.logicLdw x0 x1 x2 x3) := by
  intro hf w h
  replace hf : (fits [(x0, 2), (x1, 5), (x2, 5), (x3, 16)]) = true := hf
  replace h : placed 0x07 [(21, x1), (16, x2), (0, x3)] = some w := h
  simp only [fits, List.all_cons, List.all_nil, Bool.and_eq_true, decide_eq_true_eq] at hf
  obtain ⟨hx0, hx1, hx2, hx3, _⟩ := hf
  exact Sys2Proof.Laws.Wf.word_lt [2 ^ (5 + 21) - 2 ^ 21, 2 ^ (5 + 16) - 2 ^ 16, 2 ^ (16 + 0) - 2 ^ 0] h
      (.cons (Sys2Proof.Laws.Wf.place hx1 21) (.cons (Sys2Proof.Laws.Wf.place hx2 16) (.cons (Sys2Proof.Laws.Wf.place hx3 0) (.nil)))) (by decide)

theorem Sys2Proof.Laws.Wf.logicLdh (x0 : Nat) (x1 : Nat) (x2 : Nat) (x3 : Nat) : Sys2Proof.Laws.Wf.Statement (.logicLdh x0 x1 x2 x3) := by
  intro hf w h
  replace hf : (fits [(x0, 2), (x1, 5), (x2, 5), (x3, 16)]) = true := hf
  replace h : placed 0x08 [(21, x1), (16, x2), (0, x3)] = some w := h
  simp only [fits, List.all_cons, List.all_nil, Bool.and_eq_true, decide_eq_true_eq] at hf
  obtain ⟨hx0, hx1, hx2, hx3, _⟩ := hf
  exact Sys2Proof.Laws.Wf.word_lt [2 ^ (5 + 21) - 2 ^ 21, 2 ^ (5 + 16) - 2 ^ 16, 2 ^ (16 + 0) - 2 ^ 0] h
      (.cons (Sys2Proof.Laws.Wf.place hx1 21) (.cons (Sys2Proof.Laws.Wf.place hx2 16) (.cons (Sys2Proof.Laws.Wf.place hx3 0) (.nil)))) (by decide)

theorem Sys2Proof.Laws.Wf.logicLdb (x0 : Nat) (x1 : Nat) (x2 : Nat) (x3 : Nat) : Sys2Proof.Laws.Wf.Statement (.logicLdb x0 x1 x2 x3) := by
  intro hf w h
  replace hf : (fits [(x0, 2), (x1, 5), (x2, 5), (x3, 16)]) = true := hf
  replace h : placed 0x09 [(21, x1), (16, x2), (0, x3)] = some w := h
  simp only [fits, List.all_cons, List.all_nil, Bool.and_eq_true, decide_eq_true_eq] at hf
  obtain ⟨hx0, hx1, hx2, hx3, _⟩ := hf
  exact Sys2Proof.Laws.Wf.word_lt [2 ^ (5 + 21) - 2 ^ 21, 2 ^ (5 + 16) - 2 ^ 16, 2 ^ (16 + 0) - 2 ^ 0] h
      (.cons (Sys2Proof.Laws.Wf.place hx1 21) (.cons (Sys2Proof.Laws.Wf.place hx2 16) (.cons (Sys2Proof.Laws.Wf.place hx3 0) (.nil)))) (by decide)

theorem Sys2Proof.Laws.Wf.logicStw (x0 : Nat) (x1 : Nat) (x2 : Nat) (x3 : Nat) : Sys2Proof.Laws.Wf.Statement (.logicStw x0 x1 x2 x3) := by
  intro hf w h
  replace hf : (fits [(x0, 2), (x1, 5), (x2, 5), (x3, 16)]) = true := hf
  replace h : placed 0x0A [(21, x1), (16, x2), (0, x3)] = some w := h
  simp only [fits, List.all_cons, List.all_nil, Bool.and_eq_true, decide_eq_true_eq] at hf
  obtain ⟨hx0, hx1, hx2, hx3, _⟩ := hf
  exact Sys2Proof.Laws.Wf.word_lt [2 ^ (5 + 21) - 2 ^ 21, 2 ^ (5 + 16) - 2 ^ 16, 2 ^ (16 + 0) - 2 ^ 0] h
      (.cons (Sys2Proof.Laws.Wf.place hx1 21) (.cons (Sys2Proof.Laws.Wf.place hx2 16) (.cons (Sys2Proof.Laws.Wf.place hx3 0) (.nil)))) (by decide)

theorem Sys2Proof.Laws.Wf.logicSth (x0 : Nat) (x1 : Nat) (x2 : Nat) (x3 : Nat) : Sys2Proof.Laws.Wf.Statement (.logicSth x0 x1 x2 x3) := by
  intro hf w h
  replace hf : (fits [(x0, 2), (x1, 5), (x2, 5), (x3, 16)]) = true := hf
  replace h : placed 0x0B [(21, x1), (16, x2), (0, x3)] = some w := h
  simp only [fits, List.all_cons, List.all_nil, Bool.and_eq_true, decide_eq_true_eq] at hf
  obtain ⟨hx0, hx1, hx2, hx3, _⟩ := hf
  exact Sys2Proof.Laws.Wf.word_lt [2 ^ (5 + 21) - 2 ^ 21, 2 ^ (5 + 16) - 2 ^ 16, 2 ^ (16 + 0) - 2 ^ 0] h
      (.cons (Sys2Proof.Laws.Wf.place hx1 21) (.cons (Sys2Proof.Laws.Wf.place hx2 16) (.cons (Sys2Proof.Laws.Wf.place hx3 0) (.nil)))) (by decide)

theorem Sys2Proof.Laws.Wf.logicStb (x0 : Nat) (x1 : Nat) (x2 : Nat) (x3 : Nat) : Sys2Proof.Laws.Wf.Statement (.logicStb x0 x1 x2 x3) := by
  intro hf w h
  replace hf : (fits [(x0, 2), (x1, 5), (x2, 5), (x3, 16)]) = true := hf
  replace h : placed 0x0C [(21, x1), (16, x2), (0, x3)] = some w := h
  simp only [fits, List.all_cons, List.all_nil, Bool.and_eq_true, decide_eq_true_eq] at hf
  obtain ⟨hx0, hx1, hx2, hx3, _⟩ := hf
  exact Sys2Proof.Laws.Wf.word_lt [2 ^ (5 + 21) - 2 ^ 21, 2 ^ (5 + 16) - 2 ^ 16, 2 ^ (16 + 0) - 2 ^ 0] h
      (.cons (Sys2Proof.Laws.Wf.place hx1 21) (.cons (Sys2Proof.Laws.Wf.place hx2 16) (.cons (Sys2Proof.Laws.Wf.place hx3 0) (.nil)))) (by decide)

theorem Sys2Proof.Laws.Wf.logicLdx (x0 : Nat) (x1 : Nat) (x2 : Nat) (x3 : Nat) (x4 : Nat) : Sys2Proof.Laws.Wf.Statement (.logicLdx x0 x1 x2 x3 x4) := by
  intro hf w h
  replace hf : (fits [(x0, 2), (x1, 5), (x2, 5), (x3, 13), (x4, 3)]) = true := hf
  replace h : placed 0x0D [(21, x1), (16, x2), (3, x3), (0, x4)] = some w := h
  simp only [fits, List.all_cons, List.all_nil, Bool.and_eq_true, decide_eq_true_eq] at hf
  obtain ⟨hx0, hx1, hx2, hx3, hx4, _⟩ := hf
  exact Sys2Proof.Laws.Wf.word_lt [2 ^ (5 + 21) - 2 ^ 21, 2 ^ (5 + 16) - 2 ^ 16, 2 ^ (13 + 3) - 2 ^ 3, 2 ^ (3 + 0) - 2 ^ 0] h
      (.cons (Sys2Proof.Laws.Wf.place hx1 21) (.cons (Sys2Proof.Laws.Wf.place hx2 16) (.cons (Sys2Proof.Laws.Wf.place hx3 3) (.cons (Sys2Proof.Laws.Wf.place hx4 0) (.nil))))) (by decide)

theorem Sys2Proof.Laws.Wf.logicStx (x0 : Nat) (x1 : Nat) (x2 : Nat) (x3 : Nat) (x4 : Nat) : Sys2Proof.Laws.Wf.Statement (.logicStx x0 x1 x2 x3 x4) := by
  intro hf w h
  replace hf : (fits [(x0, 2), (x1, 5), (x2, 5), (x3, 13), (x4, 3)]) = true := hf
  replace h : placed 0x0E [(21, x1), (16, x2), (3, x3), (0, x4)] = some w := h
  simp only [fits, List.all_cons, List.all_nil, Bool.and_eq_true, decide_eq_true_eq] at hf
  obtain ⟨hx0, hx1, hx2, hx3, hx4, _⟩ := hf
  exact Sys2Proof.Laws.Wf.word_lt [2 ^ (5 + 21) - 2 ^ 21, 2 ^ (5 + 16) - 2 ^ 16, 2 ^ (13 + 3) - 2 ^ 3, 2 ^ (3 + 0) - 2 ^ 0] h
      (.cons (Sys2Proof.Laws.Wf.place hx1 21) (.cons (Sys2Proof.Laws.Wf.place hx2 16) (.cons (Sys2Proof.Laws.Wf.place hx3 3) (.cons (Sys2Proof.Laws.Wf.place hx4 0) (.nil))))) (by decide)

theorem Sys2Proof.Laws.Wf.logicLdi (x0 : Nat) (x1 : Nat) (x2 : Nat) : Sys2Proof.Laws.Wf.Statement (.logicLdi x0 x1 x2) := by
  intro hf w h
  replace hf : (fits [(x0, 2), (x1, 5), (x2, 16)]) = true := hf
  replace h : placed 0x0F [(21, x1), (0, x2)] = some w := h
  simp only [fits, List.all_cons, List.all_nil, Bool.and_eq_true, decide_eq_true_eq] at hf
  obtain ⟨hx0, hx1, hx2, _⟩ := hf
  exact Sys2Proof.Laws.Wf.word_lt [2 ^ (5 + 21) - 2 ^ 21, 2 ^ (16 + 0) - 2 ^ 0] h
      (.cons (Sys2Proof.Laws.Wf.place hx1 21) (.cons (Sys2Proof.Laws.Wf.place hx2 0) (.nil))) (by decide)

theorem Sys2Proof.Laws.Wf.logicLdih (x0 : Nat) (x1 : Nat) (x2 : Nat) : Sys2Proof.Laws.Wf.Statement (.logicLdih x0 x1 x2) := by
  intro hf w h
  replace hf : (fits [(x0, 2), (x1, 5), (x2, 16)]) = true := hf
  replace h : placed 0x10 [(21, x1), (0, x2)] = some w := h
  simp only [fits, List.all_cons, List.all_nil, Bool.and_eq_true, decide_eq_true_eq] at hf
  obtain ⟨hx0, hx1, hx2, _⟩ := hf
  exact Sys2Proof.Laws.Wf.word_lt [2 ^ (5 + 21) - 2 ^ 21, 2 ^ (16 + 0) - 2 ^ 0] h
      (.cons (Sys2Proof.Laws.Wf.place hx1 21) (.cons (Sys2Proof.Laws.Wf.place hx2 0) (.nil))) (by decide)

theorem Sys2Proof.Laws.Wf.logicMov (x0 : Nat) (x1 : Nat) (x2 : Nat) : Sys2Proof.Laws.Wf.Statement (.logicMov x0 x1 x2) := by
  intro hf w h
  replace hf : (fits [(x0, 2), (x1, 5), (x2, 5)]) = true := hf
  replace h : placed 0x11 [(21, x1), (16, x2)] = some w := h
  simp only [fits, List.all_cons, List.all_nil, Bool.and_eq_true, decide_eq_true_eq] at hf
  obtain ⟨hx0, hx1, hx2, _⟩ := hf
  exact Sys2Proof.Laws.Wf.word_lt [2 ^ (5 + 21) - 2 ^ 21, 2 ^ (5 + 16) - 2 ^ 16] h
      (.cons (Sys2Proof.Laws.Wf.place hx1 21) (.cons (Sys2Proof.Laws.Wf.place hx2 16) (.nil))) (by decide)

theorem Sys2Proof.Laws.Wf.logicAdd (x0 : Nat) (x1 : Nat) (x2 : Nat) (x3 : Nat) : Sys2Proof.Laws.Wf.Statement (.logicAdd x0 x1 x2 x3) := by
  intro hf w h
  replace hf : (fits [(x0, 2), (x1, 5), (x2, 5), (x3, 5)]) = true := hf
  replace h : placed 0x12 [(21, x1), (16, x2), (11, x3)] = some w := h
  simp only [fits, List.all_cons, List.all_nil, Bool.and_eq_true, decide_eq_true_eq] at hf
  obtain ⟨hx0, hx1, hx2, hx3, _⟩ := hf
  exact Sys2Proof.Laws.Wf.word_lt [2 ^ (5 + 21) - 2 ^ 21, 2 ^ (5 + 16) - 2 ^ 16, 2 ^ (5 + 11) - 2 ^ 11] h
      (.cons (Sys2Proof.Laws.Wf.place hx1 21) (.cons (Sys2Proof.Laws.Wf.place hx2 16) (.cons (Sys2Proof.Laws.Wf.place hx3 11) (.nil)))) (by decide)

theorem Sys2Proof.Laws.Wf.logicSub (x0 : Nat) (x1 : Nat) (x2 : Nat) (x3 : Nat) : Sys2Proof.Laws.Wf.Statement (.logicSub x0 x1 x2 x3) := by
  intro hf w h
  replace hf : (fits [(x0, 2), (x1, 5), (x2, 5), (x3, 5)]) = true := hf
  replace h : placed 0x13 [(21, x1), (16, x2), (11, x3)] = some w := h
  simp only [fits, List.all_cons, List.all_nil, Bool.and_eq_true, decide_eq_true_eq] at hf
  obtain ⟨hx0, hx1, hx2, hx3, _⟩ := hf
  exact Sys2Proof.Laws.Wf.word_lt [2 ^ (5 + 21) - 2 ^ 21, 2 ^ (5 + 16) - 2 ^ 16, 2 ^ (5 + 11) - 2 ^ 11] h
      (.cons (Sys2Proof.Laws.Wf.place hx1 21) (.cons (Sys2Proof.Laws.Wf.place hx2 16) (.cons (Sys2Proof.Laws.Wf.place hx3 11) (.nil)))) (by decide)

theorem Sys2Proof.Laws.Wf.logicMul (x0 : Nat) (x1 : Nat) (x2 : Nat) (x3 : Nat) : Sys2Proof.Laws.Wf.Statement (.logicMul x0 x1 x2 x3) := by
  intro hf w h
  replace hf : (fits [(x0, 2), (x1, 5), (x2, 5), (x3, 5)]) = true := hf
  replace h : placed 0x14 [(21, x1), (16, x2), (11, x3)] = some w := h
  simp only [fits, List.all_cons, List.all_nil, Bool.and_eq_true, decide_eq_true_eq] at hf
  obtain ⟨hx0, hx1, hx2, hx3, _⟩ := hf
  exact Sys2Proof.Laws.Wf.word_lt [2 ^ (5 + 21) - 2 ^ 21, 2 ^ (5 + 16) - 2 ^ 16, 2 ^ (5 + 11) - 2 ^ 11] h
      (.cons (Sys2Proof.Laws.Wf.place hx1 21) (.cons (Sys2Proof.Laws.Wf.place hx2 16) (.cons (Sys2Proof.Laws.Wf.place hx3 11) (.nil)))) (by decide)

theorem Sys2Proof.Laws.Wf.logicDiv (x0 : Nat) (x1 : Nat) (x2 : Nat) (x3 : Nat) : Sys2Proof.Laws.Wf.Statement (.logicDiv x0 x1 x2 x3) := by
  intro hf w h
  replace hf : (fits [(x0, 2), (x1, 5), (x2, 5), (x3, 5)]) = true := hf
  replace h : placed 0x15 [(21, x1), (16, x2), (11, x3)] = some w := h
  simp only [fits, List.all_cons, List.all_nil, Bool.and_eq_true, decide_eq_true_eq] at hf
  obtain ⟨hx0, hx1, hx2, hx3, _⟩ := hf
  exact Sys2Proof.Laws.Wf.word_lt [2 ^ (5 + 21) - 2 ^ 21, 2 ^ (5 + 16) - 2 ^ 16, 2 ^ (5 + 11) - 2 ^ 11] h
      (.cons (Sys2Proof.Laws.Wf.place hx1 21) (.cons (Sys2Proof.Laws.Wf.place hx2 16) (.cons (Sys2Proof.Laws.Wf.place hx3 11) (.nil)))) (by decide)

theorem Sys2Proof.Laws.Wf.logicMod (x0 : Nat) (x1 : Nat) (x2 : Nat) (x3 : Nat) : Sys2Proof.Laws.Wf.Statement (.logicMod x0 x1 x2 x3) := by
  intro hf w h
  replace hf : (fits [(x0, 2), (x1, 5), (x2, 5), (x3, 5)]) = true := hf
  replace h : placed 0x16 [(21, x1), (16, x2), (11, x3)] = some w := h
  simp only [fits, List.all_cons, List.all_nil, Bool.and_eq_true, decide_eq_true_eq] at hf
  obtain ⟨hx0, hx1, hx2, hx3, _⟩ := hf
  exact Sys2Proof.Laws.Wf.word_lt [2 ^ (5 + 21) - 2 ^ 21, 2 ^ (5 + 16) - 2 ^ 16, 2 ^ (5 + 11) - 2 ^ 11] h
      (.cons (Sys2Proof.Laws.Wf.place hx1 21) (.cons (Sys2Proof.Laws.Wf.place hx2 16) (.cons (Sys2Proof.Laws.Wf.place hx3 11) (.nil)))) (by decide)

theorem Sys2Proof.Laws.Wf.logicAddi (x0 : Nat) (x1 : Nat) (x2 : Nat) (x3 : Nat) : Sys2Proof.Laws.Wf.Statement (.logicAddi x0 x1 x2 x3) := by
  intro hf w h
  replace hf : (fits [(x0, 2), (x1, 5), (x2, 5), (x3, 16)]) = true := hf
  replace h : placed 0x17 [(21, x1), (16, x2), (0, x3)] = some w := h
  simp only [fits, List.all_cons, List.all_nil, Bool.and_eq_true, decide_eq_true_eq] at hf
  obtain ⟨hx0, hx1, hx2, hx3, _⟩ := hf
  exact Sys2Proof.Laws.Wf.word_lt [2 ^ (5 + 21) - 2 ^ 21, 2 ^ (5 + 16) - 2 ^ 16, 2 ^ (16 + 0) - 2 ^ 0] h
      (.cons (Sys2Proof.Laws.Wf.place hx1 21) (.cons (Sys2Proof.Laws.Wf.place hx2 16) (.cons (Sys2Proof.Laws.Wf.place hx3 0) (.nil)))) (by decide)

theorem Sys2Proof.Laws.Wf.logicAdds (x0 : Nat) (x1 : Nat) (x2 : Nat) (x3 : Nat) : Sys2Proof.Laws.Wf.Statement (.logicAdds x0 x1 x2 x3) := by
  intro hf w h
  replace hf : (fits [(x0, 2), (x1, 5), (x2, 5), (x3, 5)]) = true := hf
  replace h : placed 0x18 [(21, x1), (16, x2), (11, x3)] = some w := h
  simp only [fits, List.all_cons, List.all_nil, Bool.and_eq_true, decide_eq_true_eq] at hf
  obtain ⟨hx0, hx1, hx2, hx3, _⟩ := hf
  exact Sys2Proof.Laws.Wf.word_lt [2 ^ (5 + 21) - 2 ^ 21, 2 ^ (5 + 16) - 2 ^ 16, 2 ^ (5 + 11) - 2 ^ 11] h
      (.cons (Sys2Proof.Laws.Wf.place hx1 21) (.cons (Sys2Proof.Laws.Wf.place hx2 16) (.cons (Sys2Proof.Laws.Wf.place hx3 11) (.nil)))) (by decide)

theorem Sys2Proof.Laws.Wf.logicSubs (x0 : Nat) (x1 : Nat) (x2 : Nat) (x3 : Nat) : Sys2Proof.Laws.Wf.Statement (.logicSubs x0 x1 x2 x3) := by
  intro hf w h
  replace hf : (fits [(x0, 2), (x1, 5), (x2, 5), (x3, 5)]) = true := hf
  replace h : placed 0x19 [(21, x1), (16, x2), (11, x3)] = some w := h
  simp only [fits, List.all_cons, List.all_nil, Bool.and_eq_true, decide_eq_true_eq] at hf
  obtain ⟨hx0, hx1, hx2, hx3, _⟩ := hf
  exact Sys2Proof.Laws.Wf.word_lt [2 ^ (5 + 21) - 2 ^ 21, 2 ^ (5 + 16) - 2 ^ 16, 2 ^ (5 + 11) - 2 ^ 11] h
      (.cons (Sys2Proof.Laws.Wf.place hx1 21) (.cons (Sys2Proof.Laws.Wf.place hx2 16) (.cons (Sys2Proof.Laws.Wf.place hx3 11) (.nil)))) (by decide)

theorem Sys2Proof.Laws.Wf.logicLgc (x0 : Nat) (x1 : Nat) (x2 : Nat) (x3 : Nat) (x4 : Nat) : Sys2Proof.Laws.Wf.Statement (.logicLgc x0 x1 x2 x3 x4) := by
  intro hf w h
  replace hf : (fits [(x0, 2), (x1, 5), (x2, 5), (x3, 5), (x4, 2)]) = true := hf
  replace h : placed 0x1A [(21, x1), (16, x2), (11, x3), (0, x4)] = some w := h
  simp only [fits, List.all_cons, List.all_nil, Bool.and_eq_true, decide_eq_true_eq] at hf
  obtain ⟨hx0, hx1, hx2, hx3, hx4, _⟩ := hf
  exact Sys2Proof.Laws.Wf.word_lt [2 ^ (5 + 21) - 2 ^ 21, 2 ^ (5 + 16) - 2 ^ 16, 2 ^ (5 + 11) - 2 ^ 11, 2 ^ (2 + 0) - 2 ^ 0] h
      (.cons (Sys2Proof.Laws.Wf.place hx1 21) (.cons (Sys2Proof.Laws.Wf.place hx2 16) (.cons (Sys2Proof.Laws.Wf.place hx3 11) (.cons (Sys2Proof.Laws.Wf.place hx4 0) (.nil))))) (by decide)

theorem Sys2Proof.Laws.Wf.logicNot (x0 : Nat) (x1 : Nat) (x2 : Nat) : Sys2Proof.Laws.Wf.Statement (.logicNot x0 x1 x2) := by
  intro hf w h
  replace hf : (fits [(x0, 2), (x1, 5), (x2, 5)]) = true := hf
  replace h : placed 0x1B [(21, x1), (16, x2)] = some w := h
  simp only [fits, List.all_cons, List.all_nil, Bool.and_eq_true, decide_eq_true_eq] at hf
  obtain ⟨hx0, hx1, hx2, _⟩ := hf
  exact Sys2Proof.Laws.Wf.word_lt [2 ^ (5 + 21) - 2 ^ 21, 2 ^ (5 + 16) - 2 ^ 16] h
      (.cons (Sys2Proof.Laws.Wf.place hx1 21) (.cons (Sys2Proof.Laws.Wf.place hx2 16) (.nil))) (by decide)

theorem Sys2Proof.Laws.Wf.logicShf (x0 : Nat) (x1 : Nat) (x2 : Nat) (x3 : Nat) (x4 : Nat) : Sys2Proof.Laws.Wf.Statement (.logicShf x0 x1 x2 x3 x4) := by
  intro hf w h
  replace hf : (fits [(x0, 2), (x1, 5), (x2, 5), (x3, 5), (x4, 2)]) = true := hf
  replace h : placed 0x1C [(21, x1), (16, x2), (11, x3), (0, x4)] = some w := h
  simp only [fits, List.all_cons, List.all_nil, Bool.and_eq_true, decide_eq_true_eq] at hf
  obtain ⟨hx0, hx1, hx2, hx3, hx4, _⟩ := hf
  exact Sys2Proof.Laws.Wf.word_lt [2 ^ (5 + 21) - 2 ^ 21, 2 ^ (5 + 16) - 2 ^ 16, 2 ^ (5 + 11) - 2 ^ 11, 2 ^ (2 + 0) - 2 ^ 0] h
      (.cons (Sys2Proof.Laws.Wf.place hx1 21) (.cons (Sys2Proof.Laws.Wf.place hx2 16) (.cons (Sys2Proof.Laws.Wf.place hx3 11) (.cons (Sys2Proof.Laws.Wf.place hx4 0) (.nil))))) (by decide)

theorem Sys2Proof.Laws.Wf.logicShfi (x0 : Nat) (x1 : Nat) (x2 : Nat) (x3 : Nat) (x4 : Nat) : Sys2Proof.Laws.Wf.Statement (.logicShfi x0 x1 x2 x3 x4) := by
  intro hf w h
  replace hf : (fits [(x0, 2), (x1, 5), (x2, 5), (x3, 5), (x4, 2)]) = true := hf
  replace h : placed 0x1D [(21, x1), (16, x2), (0, x3), (5, x4)] = some w := h
  simp only [fits, List.all_cons, List.all_nil, Bool.and_eq_true, decide_eq_true_eq] at hf
  obtain ⟨hx0, hx1, hx2, hx3, hx4, _⟩ := hf
  exact Sys2Proof.Laws.Wf.word_lt [2 ^ (5 + 21) - 2 ^ 21, 2 ^ (5 + 16) - 2 ^ 16, 2 ^ (5 + 0) - 2 ^ 0, 2 ^ (2 + 5) - 2 ^ 5] h
      (.cons (Sys2Proof.Laws.Wf.place hx1 21) (.cons (Sys2Proof.Laws.Wf.place hx2 16) (.cons (Sys2Proof.Laws.Wf.place hx3 0) (.cons (Sys2Proof.Laws.Wf.place hx4 5) (.nil))))) (by decide)

theorem Sys2Proof.Laws.Wf.logicMinmax (x0 : Nat) (x1 : Nat) (x2 : Nat) (x3 : Nat) (x4 : Bool) : Sys2Proof.Laws.Wf.Statement (.logicMinmax x0 x1 x2 x3 x4) := by
  intro hf w h
  replace hf : (fits [(x0, 2), (x1, 5), (x2, 5), (x3, 5)]) = true := hf
  replace h : placed 0x1E [(21, x1), (16, x2), (11, x3), (0, b2n x4)] = some w := h
  simp only [fits, List.all_cons, List.all_nil, Bool.and_eq_true, decide_eq_true_eq] at hf
  obtain ⟨hx0, hx1, hx2, hx3, _⟩ := hf
  exact Sys2Proof.Laws.Wf.word_lt [2 ^ (5 + 21) - 2 ^ 21, 2 ^ (5 + 16) - 2 ^ 16, 2 ^ (5 + 11) - 2 ^ 11, 2 ^ (1 + 0) - 2 ^ 0] h
      (.cons (Sys2Proof.Laws.Wf.place hx1 21) (.cons (Sys2Proof.Laws.Wf.place hx2 16) (.cons (Sys2Proof.Laws.Wf.place hx3 11) (.cons (Sys2Proof.Laws.Wf.place (Sys2Proof.Laws.Wf.b2n_lt x4) 0) (.nil))))) (by decide)

theorem Sys2Proof.Laws.Wf.logicLimit (x0 : Nat) (x1 : Nat) (x2 : Nat) (x3 : Nat) : Sys2Proof.Laws.Wf.Statement (.logicLimit x0 x1 x2 x3) := by
  intro hf w h
  replace hf : (fits [(x0, 2), (x1, 5), (x2, 5), (x3, 5)]) = true := hf
  replace h : placed 0x1F [(21, x1), (16, x2), (11, x3)] = some w := h
  simp only [fits, List.all_cons, List.all_nil, Bool.and_eq_true, decide_eq_true_eq] at hf
  obtain ⟨hx0, hx1, hx2, hx3, _⟩ := hf
  exact Sys2Proof.Laws.Wf.word_lt [2 ^ (5 + 21) - 2 ^ 21, 2 ^ (5 + 16) - 2 ^ 16, 2 ^ (5 + 11) - 2 ^ 11] h
      (.cons (Sys2Proof.Laws.Wf.place hx1 21) (.cons (Sys2Proof.Laws.Wf.place hx2 16) (.cons (Sys2Proof.Laws.Wf.place hx3 11) (.nil)))) (by decide)

theorem Sys2Proof.Laws.Wf.logicAbsneg (x0 : Nat) (x1 : Nat) (x2 : Nat) (x3 : Bool) : Sys2Proof.Laws.Wf.Statement (.logicAbsneg x0 x1 x2 x3) := by
  intro hf w h
  replace hf : (fits [(x0, 2), (x1, 5), (x2, 5)]) = true := hf
  replace h : placed 0x20 [(21, x1), (16, x2), (0, b2n x3)] = some w := h
  simp only [fits, List.all_cons, List.all_nil, Bool.and_eq_true, decide_eq_true_eq] at hf
  obtain ⟨hx0, hx1, hx2, _⟩ := hf
  exact Sys2Proof.Laws.Wf.word_lt [2 ^ (5 + 21) - 2 ^ 21, 2 ^ (5 + 16) - 2 ^ 16, 2 ^ (1 + 0) - 2 ^ 0] h
      (.cons (Sys2Proof.Laws.Wf.place hx1 21) (.cons (Sys2Proof.Laws.Wf.place hx2 16) (.cons (Sys2Proof.Laws.Wf.place (Sys2Proof.Laws.Wf.b2n_lt x3) 0) (.nil)))) (by decide)

theorem Sys2Proof.Laws.Wf.logicCmp (x0 : Nat) (x1 : Nat) (x2 : Nat) : Sys2Proof.Laws.Wf.Statement (.logicCmp x0 x1 x2) := by
  intro hf w h
  replace hf : (fits [(x0, 2), (x1, 5), (x2, 5)]) = true := hf
  replace h : placed 0x21 [(16, x1), (11, x2)] = some w := h
  simp only [fits, List.all_cons, List.all_nil, Bool.and_eq_true, decide_eq_true_eq] at hf
  obtain ⟨hx0, hx1, hx2, _⟩ := hf
  exact Sys2Proof.Laws.Wf.word_lt [2 ^ (5 + 16) - 2 ^ 16, 2 ^ (5 + 11) - 2 ^ 11] h
      (.cons (Sys2Proof.Laws.Wf.place hx1 16) (.cons (Sys2Proof.Laws.Wf.place hx2 11) (.nil))) (by decide)

theorem Sys2Proof.Laws.Wf.logicCmpi (x0 : Nat) (x1 : Nat) (x2 : Nat) : Sys2Proof.Laws.Wf.Statement (.logicCmpi x0 x1 x2) := by
  intro hf w h
  replace hf : (fits [(x0, 2), (x1, 5), (x2, 16)]) = true := hf
  replace h : placed 0x22 [(16, x1), (0, x2)] = some w := h
  simp only [fits, List.all_cons, List.all_nil, Bool.and_eq_true, decide_eq_true_eq] at hf
  obtain ⟨hx0, hx1, hx2, _⟩ := hf
  exact Sys2Proof.Laws.Wf.word_lt [2 ^ (5 + 16) - 2 ^ 16, 2 ^ (16 + 0) - 2 ^ 0] h
      (.cons (Sys2Proof.Laws.Wf.place hx1 16) (.cons (Sys2Proof.Laws.Wf.place hx2 0) (.nil))) (by decide)

theorem Sys2Proof.Laws.Wf.logicSetc (x0 : Nat) (x1 : Nat) (x2 : Nat) : Sys2Proof.Laws.Wf.Statement (.logicSetc x0 x1 x2) := by
  intro hf w h
  replace hf : (fits [(x0, 2), (x1, 5), (x2, 4)]) = true := hf
  replace h : placed 0x23 [(21, x1), (17, x2)] = some w := h
  simp only [fits, List.all_cons, List.all_nil, Bool.and_eq_true, decide_eq_true_eq] at hf
  obtain ⟨hx0, hx1, hx2, _⟩ := hf
  exact Sys2Proof.Laws.Wf.word_lt [2 ^ (5 + 21) - 2 ^ 21, 2 ^ (4 + 17) - 2 ^ 17] h
      (.cons (Sys2Proof.Laws.Wf.place hx1 21) (.cons (Sys2Proof.Laws.Wf.place hx2 17) (.nil))) (by decide)

theorem Sys2Proof.Laws.Wf.logicSel (x0 : Nat) (x1 : Nat) (x2 : Nat) (x3 : Nat) : Sys2Proof.Laws.Wf.Statement (.logicSel x0 x1 x2 x3) := by
  intro hf w h
  replace hf : (fits [(x0, 2), (x1, 5), (x2, 5), (x3, 5)]) = true := hf
  replace h : placed 0x24 [(21, x1), (16, x2), (11, x3)] = some w := h
  simp only [fits, List.all_cons, List.all_nil, Bool.and_eq_true, decide_eq_true_eq] at hf
  obtain ⟨hx0, hx1, hx2, hx3, _⟩ := hf
  exact Sys2Proof.Laws.Wf.word_lt [2 ^ (5 + 21) - 2 ^ 21, 2 ^ (5 + 16) - 2 ^ 16, 2 ^ (5 + 11) - 2 ^ 11] h
      (.cons (Sys2Proof.Laws.Wf.place hx1 21) (.cons (Sys2Proof.Laws.Wf.place hx2 16) (.cons (Sys2Proof.Laws.Wf.place hx3 11) (.nil)))) (by decide)

theorem Sys2Proof.Laws.Wf.logicBop (x0 : Nat) (x1 : Nat) (x2 : Nat) (x3 : Nat) (x4 : Nat) (x5 : Bool) (x6 : Bool) : Sys2Proof.Laws.Wf.Statement (.logicBop x0 x1 x2 x3 x4 x5 x6) := by
  intro hf w h
  replace hf : (fits [(x0, 2), (x1, 5), (x2, 5), (x3, 5), (x4, 3)]) = true := hf
  replace h : placed 0x25 [(21, x1), (16, x2), (11, x3), (0, x4), (4, b2n x5), (3, b2n x6)] = some w := h
  simp only [fits, List.all_cons, List.all_nil, Bool.and_eq_true, decide_eq_true_eq] at hf
  obtain ⟨hx0, hx1, hx2, hx3, hx4, _⟩ := hf
  exact Sys2Proof.Laws.Wf.word_lt [2 ^ (5 + 21) - 2 ^ 21, 2 ^ (5 + 16) - 2 ^ 16, 2 ^ (5 + 11) - 2 ^ 11, 2 ^ (3 + 0) - 2 ^ 0, 2 ^ (1 + 4) - 2 ^ 4, 2 ^ (1 + 3) - 2 ^ 3] h
      (.cons (Sys2Proof.Laws.Wf.place hx1 21) (.cons (Sys2Proof.Laws.Wf.place hx2 16) (.cons (Sys2Proof.Laws.Wf.place hx3 11) (.cons (Sys2Proof.Laws.Wf.place hx4 0) (.cons (Sys2Proof.Laws.Wf.place (Sys2Proof.Laws.Wf.b2n_lt x5) 4) (.cons (Sys2Proof.Laws.Wf.place (Sys2Proof.Laws.Wf.b2n_lt x6) 3) (.nil))))))) (by decide)

theorem Sys2Proof.Laws.Wf.logicQmul (x0 : Nat) (x1 : Nat) (x2 : Nat) (x3 : Nat) : Sys2Proof.Laws.Wf.Statement (.logicQmul x0 x1 x2 x3) := by
  intro hf w h
  replace hf : (fits [(x0, 2), (x1, 5), (x2, 5), (x3, 5)]) = true := hf
  replace h : placed 0x26 [(21, x1), (16, x2), (11, x3)] = some w := h
  simp only [fits, List.all_cons, List.all_nil, Bool.and_eq_true, decide_eq_true_eq] at hf
  obtain ⟨hx0, hx1, hx2, hx3, _⟩ := hf
  exact Sys2Proof.Laws.Wf.word_lt [2 ^ (5 + 21) - 2 ^ 21, 2 ^ (5 + 16) - 2 ^ 16, 2 ^ (5 + 11) - 2 ^ 11] h
      (.cons (Sys2Proof.Laws.Wf.place hx1 21) (.cons (Sys2Proof.Laws.Wf.place hx2 16) (.cons (Sys2Proof.Laws.Wf.place hx3 11) (.nil)))) (by decide)

theorem Sys2Proof.Laws.Wf.logicFadd (x0 : Nat) (x1 : Nat) (x2 : Nat) (x3 : Nat) : Sys2Proof.Laws.Wf.Statement (.logicFadd x0 x1 x2 x3) := by
  intro hf w h
  replace hf : (fits [(x0, 2), (x1, 5), (x2, 5), (x3, 5)]) = true := hf
  replace h : placed 0x27 [(21, x1), (16, x2), (11, x3)] = some w := h
  simp only [fits, List.all_cons, List.all_nil, Bool.and_eq_true, decide_eq_true_eq] at hf
  obtain ⟨hx0, hx1, hx2, hx3, _⟩ := hf
  exact Sys2Proof.Laws.Wf.word_lt [2 ^ (5 + 21) - 2 ^ 21, 2 ^ (5 + 16) - 2 ^ 16, 2 ^ (5 + 11) - 2 ^ 11] h
      (.cons (Sys2Proof.Laws.Wf.place hx1 21) (.cons (Sys2Proof.Laws.Wf.place hx2 16) (.cons (Sys2Proof.Laws.Wf.place hx3 11) (.nil)))) (by decide)

theorem Sys2Proof.Laws.Wf.logicFsub (x0 : Nat) (x1 : Nat) (x2 : Nat) (x3 : Nat) : Sys2Proof.Laws.Wf.Statement (.logicFsub x0 x1 x2 x3) := by
  intro hf w h
  replace hf : (fits [(x0, 2), (x1, 5), (x2, 5), (x3, 5)]) = true := hf
  replace h : placed 0x28 [(21, x1), (16, x2), (11, x3)] = some w := h
  simp only [fits, List.all_cons, List.all_nil, Bool.and_eq_true, decide_eq_true_eq] at hf
  obtain ⟨hx0, hx1, hx2, hx3, _⟩ := hf
  exact Sys2Proof.Laws.Wf.word_lt [2 ^ (5 + 21) - 2 ^ 21, 2 ^ (5 + 16) - 2 ^ 16, 2 ^ (5 + 11) - 2 ^ 11] h
      (.cons (Sys2Proof.Laws.Wf.place hx1 21) (.cons (Sys2Proof.Laws.Wf.place hx2 16) (.cons (Sys2Proof.Laws.Wf.place hx3 11) (.nil)))) (by decide)

theorem Sys2Proof.Laws.Wf.logicFmul (x0 : Nat) (x1 : Nat) (x2 : Nat) (x3 : Nat) : Sys2Proof.Laws.Wf.Statement (.logicFmul x0 x1 x2 x3) := by
  intro hf w h
  replace hf : (fits [(x0, 2), (x1, 5), (x2, 5), (x3, 5)]) = true := hf
  replace h : placed 0x29 [(21, x1), (16, x2), (11, x3)] = some w := h
  simp only [fits, List.all_cons, List.all_nil, Bool.and_eq_true, decide_eq_true_eq] at hf
  obtain ⟨hx0, hx1, hx2, hx3, _⟩ := hf
  exact Sys2Proof.Laws.Wf.word_lt [2 ^ (5 + 21) - 2 ^ 21, 2 ^ (5 + 16) - 2 ^ 16, 2 ^ (5 + 11) - 2 ^ 11] h
      (.cons (Sys2Proof.Laws.Wf.place hx1 21) (.cons (Sys2Proof.Laws.Wf.place hx2 16) (.cons (Sys2Proof.Laws.Wf.place hx3 11) (.nil)))) (by decide)

theorem Sys2Proof.Laws.Wf.logicFdiv (x0 : Nat) (x1 : Nat) (x2 : Nat) (x3 : Nat) : Sys2Proof.Laws.Wf.Statement (.logicFdiv x0 x1 x2 x3) := by
  intro hf w h
  replace hf : (fits [(x0, 2), (x1, 5), (x2, 5), (x3, 5)]) = true := hf
  replace h : placed 0x2A [(21, x1), (16, x2), (11, x3)] = some w := h
  simp only [fits, List.all_cons, List.all_nil, Bool.and_eq_true, decide_eq_true_eq] at hf
  obtain ⟨hx0, hx1, hx2, hx3, _⟩ := hf
  exact Sys2Proof.Laws.Wf.word_lt [2 ^ (5 + 21) - 2 ^ 21, 2 ^ (5 + 16) - 2 ^ 16, 2 ^ (5 + 11) - 2 ^ 11] h
      (.cons (Sys2Proof.Laws.Wf.place hx1 21) (.cons (Sys2Proof.Laws.Wf.place hx2 16) (.cons (Sys2Proof.Laws.Wf.place hx3 11) (.nil)))) (by decide)

theorem Sys2Proof.Laws.Wf.logicFcmp (x0 : Nat) (x1 : Nat) (x2 : Nat) : Sys2Proof.Laws.Wf.Statement (.logicFcmp x0 x1 x2) := by
  intro hf w h
  replace hf : (fits [(x0, 2), (x1, 5), (x2, 5)]) = true := hf
  replace h : placed 0x2B [(16, x1), (11, x2)] = some w := h
  simp only [fits, List.all_cons, List.all_nil, Bool.and_eq_true, decide_eq_true_eq] at hf
  obtain ⟨hx0, hx1, hx2, _⟩ := hf
  exact Sys2Proof.Laws.Wf.word_lt [2 ^ (5 + 16) - 2 ^ 16, 2 ^ (5 + 11) - 2 ^ 11] h
      (.cons (Sys2Proof.Laws.Wf.place hx1 16) (.cons (Sys2Proof.Laws.Wf.place hx2 11) (.nil))) (by decide)

theorem Sys2Proof.Laws.Wf.logicFcvt (x0 : Nat) (x1 : Nat) (x2 : Nat) (x3 : Nat) : Sys2Proof.Laws.Wf.Statement (.logicFcvt x0 x1 x2 x3) := by
  intro hf w h
  replace hf : (fits [(x0, 2), (x1, 5), (x2, 5), (x3, 2)]) = true := hf
  replace h : placed 0x2C [(21, x1), (16, x2), (0, x3)] = some w := h
  simp only [fits, List.all_cons, List.all_nil, Bool.and_eq_true, decide_eq_true_eq] at hf
  obtain ⟨hx0, hx1, hx2, hx3, _⟩ := hf
  exact Sys2Proof.Laws.Wf.word_lt [2 ^ (5 + 21) - 2 ^ 21, 2 ^ (5 + 16) - 2 ^ 16, 2 ^ (2 + 0) - 2 ^ 0] h
      (.cons (Sys2Proof.Laws.Wf.place hx1 21) (.cons (Sys2Proof.Laws.Wf.place hx2 16) (.cons (Sys2Proof.Laws.Wf.place hx3 0) (.nil)))) (by decide)

theorem Sys2Proof.Laws.Wf.logicGetd (x0 : Nat) (x1 : Nat) (x2 : Bool) (x3 : Nat) : Sys2Proof.Laws.Wf.Statement (.logicGetd x0 x1 x2 x3) := by
  intro hf w h
  cases x2
  · replace hf : (fits [(x0, 2), (x1, 5), (x3, 14)] && (!false || bitOf x3 3)) = true := hf
    replace h : placed 0x2D [(21, x1), (0, x3)] = some w := h
    simp only [fits, List.all_cons, List.all_nil, Bool.and_eq_true, decide_eq_true_eq] at hf
    obtain ⟨⟨hx0, hx1, hx3, _⟩, _⟩ := hf
    exact Sys2Proof.Laws.Wf.word_lt [2 ^ (5 + 21) - 2 ^ 21, 2 ^ (14 + 0) - 2 ^ 0] h
      (.cons (Sys2Proof.Laws.Wf.place hx1 21) (.cons (Sys2Proof.Laws.Wf.place hx3 0) (.nil))) (by decide)
  · replace hf : (fits [(x0, 2), (x1, 5), (x3, 5)] && (!true || bitOf x3 3)) = true := hf
    replace h : placed 0x2D [(21, x1), (11, x3)] = some w := h
    simp only [fits, List.all_cons, List.all_nil, Bool.and_eq_true, decide_eq_true_eq] at hf
    obtain ⟨⟨hx0, hx1, hx3, _⟩, _⟩ := hf
    exact Sys2Proof.Laws.Wf.word_lt [2 ^ (5 + 21) - 2 ^ 21, 2 ^ (5 + 11) - 2 ^ 11] h
      (.cons (Sys2Proof.Laws.Wf.place hx1 21) (.cons (Sys2Proof.Laws.Wf.place hx3 11) (.nil))) (by decide)

theorem Sys2Proof.Laws.Wf.logicPutd (x0 : Nat) (x1 : Nat) (x2 : Bool) (x3 : Nat) : Sys2Proof.Laws.Wf.Statement (.logicPutd x0 x1 x2 x3) := by
  intro hf w h
  cases x2
  · replace hf : (fits [(x0, 2), (x1, 5), (x3, 14)] && (!false || bitOf x3 3)) = true := hf
    replace h : placed 0x2E [(21, x1), (0, x3)] = some w := h
    simp only [fits, List.all_cons, List.all_nil, Bool.and_eq_true, decide_eq_true_eq] at hf
    obtain ⟨⟨hx0, hx1, hx3, _⟩, _⟩ := hf
    exact Sys2Proof.Laws.Wf.word_lt [2 ^ (5 + 21) - 2 ^ 21, 2 ^ (14 + 0) - 2 ^ 0] h
      (.cons (Sys2Proof.Laws.Wf.place hx1 21) (.cons (Sys2Proof.Laws.Wf.place hx3 0) (.nil))) (by decide)
  · replace hf : (fits [(x0, 2), (x1, 5), (x3, 5)] && (!true || bitOf x3 3)) = true := hf
    replace h : placed 0x2E [(21, x1), (11, x3)] = some w := h
    simp only [fits, List.all_cons, List.all_nil, Bool.and_eq_true, decide_eq_true_eq] at hf
    obtain ⟨⟨hx0, hx1, hx3, _⟩, _⟩ := hf
    exact Sys2Proof.Laws.Wf.word_lt [2 ^ (5 + 21) - 2 ^ 21, 2 ^ (5 + 11) - 2 ^ 11] h
      (.cons (Sys2Proof.Laws.Wf.place hx1 21) (.cons (Sys2Proof.Laws.Wf.place hx3 11) (.nil))) (by decide)

theorem Sys2Proof.Laws.Wf.logicGrp (x0 : Nat) (x1 : Nat) (x2 : Nat) : Sys2Proof.Laws.Wf.Statement (.logicGrp x0 x1 x2) := by
  intro hf w h
  replace hf : (fits [(x0, 2), (x1, 5), (x2, 10)]) = true := hf
  replace h : placed 0x2F [(21, x1), (0, x2)] = some w := h
  simp only [fits, List.all_cons, List.all_nil, Bool.and_eq_true, decide_eq_true_eq] at hf
  obtain ⟨hx0, hx1, hx2, _⟩ := hf
  exact Sys2Proof.Laws.Wf.word_lt [2 ^ (5 + 21) - 2 ^ 21, 2 ^ (10 + 0) - 2 ^ 0] h
      (.cons (Sys2Proof.Laws.Wf.place hx1 21) (.cons (Sys2Proof.Laws.Wf.place hx2 0) (.nil))) (by decide)

theorem Sys2Proof.Laws.Wf.logicTmr (x0 : Nat) (x1 : Nat) (x2 : Nat) (x3 : Nat) (x4 : Nat) : Sys2Proof.Laws.Wf.Statement (.logicTmr x0 x1 x2 x3 x4) := by
  intro hf w h
  replace hf : (fits [(x0, 2), (x1, 5), (x2, 5), (x3, 2), (x4, 12)]) = true := hf
  replace h : placed 0x30 [(21, x1), (16, x2), (12, x3), (0, x4)] = some w := h
  simp only [fits, List.all_cons, List.all_nil, Bool.and_eq_true, decide_eq_true_eq] at hf
  obtain ⟨hx0, hx1, hx2, hx3, hx4, _⟩ := hf
  exact Sys2Proof.Laws.Wf.word_lt [2 ^ (5 + 21) - 2 ^ 21, 2 ^ (5 + 16) - 2 ^ 16, 2 ^ (2 + 12) - 2 ^ 12, 2 ^ (12 + 0) - 2 ^ 0] h
      (.cons (Sys2Proof.Laws.Wf.place hx1 21) (.cons (Sys2Proof.Laws.Wf.place hx2 16) (.cons (Sys2Proof.Laws.Wf.place hx3 12) (.cons (Sys2Proof.Laws.Wf.place hx4 0) (.nil))))) (by decide)

theorem Sys2Proof.Laws.Wf.logicTpt (x0 : Nat) (x1 : Nat) (x2 : Nat) : Sys2Proof.Laws.Wf.Statement (.logicTpt x0 x1 x2) := by
  intro hf w h
  replace hf : (fits [(x0, 2), (x1, 5), (x2, 12)]) = true := hf
  replace h : placed 0x31 [(16, x1), (0, x2)] = some w := h
  simp only [fits, List.all_cons, List.all_nil, Bool.and_eq_true, decide_eq_true_eq] at hf
  obtain ⟨hx0, hx1, hx2, _⟩ := hf
  exact Sys2Proof.Laws.Wf.word_lt [2 ^ (5 + 16) - 2 ^ 16, 2 ^ (12 + 0) - 2 ^ 0] h
      (.cons (Sys2Proof.Laws.Wf.place hx1 16) (.cons (Sys2Proof.Laws.Wf.place hx2 0) (.nil))) (by decide)

theorem Sys2Proof.Laws.Wf.logicTrd (x0 : Nat) (x1 : Nat) (x2 : Nat) : Sys2Proof.Laws.Wf.Statement (.logicTrd x0 x1 x2) := by
  intro hf w h
  replace hf : (fits [(x0, 2), (x1, 5), (x2, 12)]) = true := hf
  replace h : placed 0x32 [(21, x1), (0, x2)] = some w := h
  simp only [fits, List.all_cons, List.all_nil, Bool.and_eq_true, decide_eq_true_eq] at hf
  obtain ⟨hx0, hx1, hx2, _⟩ := hf
  exact Sys2Proof.Laws.Wf.word_lt [2 ^ (5 + 21) - 2 ^ 21, 2 ^ (12 + 0) - 2 ^ 0] h
      (.cons (Sys2Proof.Laws.Wf.place hx1 21) (.cons (Sys2Proof.Laws.Wf.place hx2 0) (.nil))) (by decide)

theorem Sys2Proof.Laws.Wf.logicCnt (x0 : Nat) (x1 : Nat) (x2 : Nat) (x3 : Nat) (x4 : Nat) : Sys2Proof.Laws.Wf.Statement (.logicCnt x0 x1 x2 x3 x4) := by
  intro hf w h
  replace hf : (fits [(x0, 2), (x1, 5), (x2, 5), (x3, 2), (x4, 12)]) = true := hf
  replace h : placed 0x33 [(21, x1), (16, x2), (12, x3), (0, x4)] = some w := h
  simp only [fits, List.all_cons, List.all_nil, Bool.and_eq_true, decide_eq_true_eq] at hf
  obtain ⟨hx0, hx1, hx2, hx3, hx4, _⟩ := hf
  exact Sys2Proof.Laws.Wf.word_lt [2 ^ (5 + 21) - 2 ^ 21, 2 ^ (5 + 16) - 2 ^ 16, 2 ^ (2 + 12) - 2 ^ 12, 2 ^ (12 + 0) - 2 ^ 0] h
      (.cons (Sys2Proof.Laws.Wf.place hx1 21) (.cons (Sys2Proof.Laws.Wf.place hx2 16) (.cons (Sys2Proof.Laws.Wf.place hx3 12) (.cons (Sys2Proof.Laws.Wf.place hx4 0) (.nil))))) (by decide)

theorem Sys2Proof.Laws.Wf.logicCpv (x0 : Nat) (x1 : Nat) (x2 : Nat) : Sys2Proof.Laws.Wf.Statement (.logicCpv x0 x1 x2) := by
  intro hf w h
  replace hf : (fits [(x0, 2), (x1, 5), (x2, 12)]) = true := hf
  replace h : placed 0x34 [(16, x1), (0, x2)] = some w := h
  simp only [fits, List.all_cons, List.all_nil, Bool.and_eq_true, decide_eq_true_eq] at hf
  obtain ⟨hx0, hx1, hx2, _⟩ := hf
  exact Sys2Proof.Laws.Wf.word_lt [2 ^ (5 + 16) - 2 ^ 16, 2 ^ (12 + 0) - 2 ^ 0] h
      (.cons (Sys2Proof.Laws.Wf.place hx1 16) (.cons (Sys2Proof.Laws.Wf.place hx2 0) (.nil))) (by decide)

theorem Sys2Proof.Laws.Wf.logicCrd (x0 : Nat) (x1 : Nat) (x2 : Nat) : Sys2Proof.Laws.Wf.Statement (.logicCrd x0 x1 x2) := by
  intro hf w h
  replace hf : (fits [(x0, 2), (x1, 5), (x2, 12)]) = true := hf
  replace h : placed 0x35 [(21, x1), (0, x2)] = some w := h
  simp only [fits, List.all_cons, List.all_nil, Bool.and_eq_true, decide_eq_true_eq] at hf
  obtain ⟨hx0, hx1, hx2, _⟩ := hf
  exact Sys2Proof.Laws.Wf.word_lt [2 ^ (5 + 21) - 2 ^ 21, 2 ^ (12 + 0) - 2 ^ 0] h
      (.cons (Sys2Proof.Laws.Wf.place hx1 21) (.cons (Sys2Proof.Laws.Wf.place hx2 0) (.nil))) (by decide)

theorem Sys2Proof.Laws.Wf.logicEdge (x0 : Nat) (x1 : Nat) (x2 : Nat) (x3 : Bool) (x4 : Nat) : Sys2Proof.Laws.Wf.Statement (.logicEdge x0 x1 x2 x3 x4) := by
  intro hf w h
  replace hf : (fits [(x0, 2), (x1, 5), (x2, 5), (x4, 13)]) = true := hf
  replace h : placed 0x36 [(21, x1), (16, x2), (13, b2n x3), (0, x4)] = some w := h
  simp only [fits, List.all_cons, List.all_nil, Bool.and_eq_true, decide_eq_true_eq] at hf
  obtain ⟨hx0, hx1, hx2, hx4, _⟩ := hf
  exact Sys2Proof.Laws.Wf.word_lt [2 ^ (5 + 21) - 2 ^ 21, 2 ^ (5 + 16) - 2 ^ 16, 2 ^ (1 + 13) - 2 ^ 13, 2 ^ (13 + 0) - 2 ^ 0] h
      (.cons (Sys2Proof.Laws.Wf.place hx1 21) (.cons (Sys2Proof.Laws.Wf.place hx2 16) (.cons (Sys2Proof.Laws.Wf.place (Sys2Proof.Laws.Wf.b2n_lt x3) 13) (.cons (Sys2Proof.Laws.Wf.place hx4 0) (.nil))))) (by decide)

theorem Sys2Proof.Laws.Wf.logicEvt (x0 : Nat) (x1 : Bool) (x2 : Nat) : Sys2Proof.Laws.Wf.Statement (.logicEvt x0 x1 x2) := by
  intro hf w h
  replace hf : (fits [(x0, 2), (x2, 16)]) = true := hf
  replace h : placed 0x37 [(16, b2n x1), (0, x2)] = some w := h
  simp only [fits, List.all_cons, List.all_nil, Bool.and_eq_true, decide_eq_true_eq] at hf
  obtain ⟨hx0, hx2, _⟩ := hf
  exact Sys2Proof.Laws.Wf.word_lt [2 ^ (1 + 16) - 2 ^ 16, 2 ^ (16 + 0) - 2 ^ 0] h
      (.cons (Sys2Proof.Laws.Wf.place (Sys2Proof.Laws.Wf.b2n_lt x1) 16) (.cons (Sys2Proof.Laws.Wf.place hx2 0) (.nil))) (by decide)

theorem Sys2Proof.Laws.Wf.exchRequest : Sys2Proof.Laws.Wf.Statement .exchRequest := by
  intro _ w h; cases h

theorem Sys2Proof.Laws.Wf.exchCheckDone : Sys2Proof.Laws.Wf.Statement .exchCheckDone := by
  intro _ w h; cases h

theorem Sys2Proof.Laws.Wf.exchWindowOpen : Sys2Proof.Laws.Wf.Statement .exchWindowOpen := by
  intro _ w h; cases h

theorem Sys2Proof.Laws.Wf.exchTimeout : Sys2Proof.Laws.Wf.Statement .exchTimeout := by
  intro _ w h; cases h

theorem Sys2Proof.Laws.Wf.exchCancel : Sys2Proof.Laws.Wf.Statement .exchCancel := by
  intro _ w h; cases h

theorem Sys2Proof.Laws.Wf.taskStart (x0 : Nat) : Sys2Proof.Laws.Wf.Statement (.taskStart x0) := by
  intro _ w h; cases h

theorem Sys2Proof.Laws.Wf.taskStop (x0 : Nat) : Sys2Proof.Laws.Wf.Statement (.taskStop x0) := by
  intro _ w h; cases h

theorem Sys2Proof.Laws.Wf.logClrCounts : Sys2Proof.Laws.Wf.Statement .logClrCounts := by
  intro _ w h; cases h

theorem Sys2Proof.Laws.Wf.logClrPeaks : Sys2Proof.Laws.Wf.Statement .logClrPeaks := by
  intro _ w h; cases h

theorem Sys2Proof.Laws.Wf.journalRecordDone (x0 : List Nat) : Sys2Proof.Laws.Wf.Statement (.journalRecordDone x0) := by
  intro _ w h; cases h

theorem Sys2Proof.Laws.Wf.holdupTestStart (x0 : List Nat) : Sys2Proof.Laws.Wf.Statement (.holdupTestStart x0) := by
  intro _ w h; cases h

theorem Sys2Proof.Laws.Wf.holdLoadOn : Sys2Proof.Laws.Wf.Statement .holdLoadOn := by
  intro _ w h; cases h

theorem Sys2Proof.Laws.Wf.holdupTestEnd (x0 : List Nat) : Sys2Proof.Laws.Wf.Statement (.holdupTestEnd x0) := by
  intro _ w h; cases h

theorem Sys2Proof.Laws.Wf.idleRetest : Sys2Proof.Laws.Wf.Statement .idleRetest := by
  intro _ w h; cases h

theorem Sys2Proof.Laws.Wf.jrnTest : Sys2Proof.Laws.Wf.Statement .jrnTest := by
  intro _ w h; cases h

theorem Sys2Proof.Laws.Wf.jrnSelect (x0 : Nat) : Sys2Proof.Laws.Wf.Statement (.jrnSelect x0) := by
  intro _ w h; cases h

theorem Sys2Proof.Laws.Wf.jrnDiscard : Sys2Proof.Laws.Wf.Statement .jrnDiscard := by
  intro _ w h; cases h

theorem Sys2Proof.Laws.Wf.pfailAccept : Sys2Proof.Laws.Wf.Statement .pfailAccept := by
  intro _ w h; cases h

theorem Sys2Proof.Laws.Wf.pfailRelease (x0 : Nat) (x1 : Nat) (x2 : Bool) : Sys2Proof.Laws.Wf.Statement (.pfailRelease x0 x1 x2) := by
  intro _ w h; cases h

theorem Sys2Proof.Laws.Wf.restoreEnd : Sys2Proof.Laws.Wf.Statement .restoreEnd := by
  intro _ w h; cases h

theorem Sys2Proof.Laws.Wf.autoResume : Sys2Proof.Laws.Wf.Statement .autoResume := by
  intro _ w h; cases h

theorem Sys2Proof.Laws.Wf.jrnClrCounts : Sys2Proof.Laws.Wf.Statement .jrnClrCounts := by
  intro _ w h; cases h

theorem Sys2Proof.Laws.Wf.jrnClrPeaks : Sys2Proof.Laws.Wf.Statement .jrnClrPeaks := by
  intro _ w h; cases h

theorem Sys2Proof.Laws.Wf.adcResult (x0 : Nat) (x1 : Nat) (x2 : Nat) : Sys2Proof.Laws.Wf.Statement (.adcResult x0 x1 x2) := by
  intro _ w h; cases h

theorem Sys2Proof.Laws.Wf.triggerTimer (x0 : Nat) (x1 : Nat) : Sys2Proof.Laws.Wf.Statement (.triggerTimer x0 x1) := by
  intro _ w h; cases h

theorem Sys2Proof.Laws.Wf.adcTrigger (x0 : Nat) (x1 : Nat) : Sys2Proof.Laws.Wf.Statement (.adcTrigger x0 x1) := by
  intro _ w h; cases h

theorem Sys2Proof.Laws.Wf.conversionDue (x0 : Nat) (x1 : Nat) (x2 : Bool) : Sys2Proof.Laws.Wf.Statement (.conversionDue x0 x1 x2) := by
  intro _ w h; cases h

theorem Sys2Proof.Laws.Wf.adcCalibrate (x0 : Nat) : Sys2Proof.Laws.Wf.Statement (.adcCalibrate x0) := by
  intro _ w h; cases h

theorem Sys2Proof.Laws.Wf.calibrationStart (x0 : Nat) : Sys2Proof.Laws.Wf.Statement (.calibrationStart x0) := by
  intro _ w h; cases h

theorem Sys2Proof.Laws.Wf.calibrationEnd (x0 : Nat) (x1 : List Nat) (x2 : List Nat) : Sys2Proof.Laws.Wf.Statement (.calibrationEnd x0 x1 x2) := by
  intro _ w h; cases h

theorem Sys2Proof.Laws.Wf.adcSupplyFault : Sys2Proof.Laws.Wf.Statement .adcSupplyFault := by
  intro _ w h; cases h

theorem Sys2Proof.Laws.Wf.adcClrCounts : Sys2Proof.Laws.Wf.Statement .adcClrCounts := by
  intro _ w h; cases h

theorem Sys2Proof.Laws.Wf.profileInterval (x0 : Nat) (x1 : List (Nat × Bool)) : Sys2Proof.Laws.Wf.Statement (.profileInterval x0 x1) := by
  intro _ w h; cases h

theorem Sys2Proof.Laws.Wf.moveAbs (x0 : Nat) (x1 : Nat) : Sys2Proof.Laws.Wf.Statement (.moveAbs x0 x1) := by
  intro _ w h; cases h

theorem Sys2Proof.Laws.Wf.moveRel (x0 : Nat) (x1 : Nat) : Sys2Proof.Laws.Wf.Statement (.moveRel x0 x1) := by
  intro _ w h; cases h

theorem Sys2Proof.Laws.Wf.stopRamped (x0 : Nat) : Sys2Proof.Laws.Wf.Statement (.stopRamped x0) := by
  intro _ w h; cases h

theorem Sys2Proof.Laws.Wf.stopHard (x0 : Nat) : Sys2Proof.Laws.Wf.Statement (.stopHard x0) := by
  intro _ w h; cases h

theorem Sys2Proof.Laws.Wf.motHome (x0 : Nat) : Sys2Proof.Laws.Wf.Statement (.motHome x0) := by
  intro _ w h; cases h

theorem Sys2Proof.Laws.Wf.motClearFault (x0 : Nat) : Sys2Proof.Laws.Wf.Statement (.motClearFault x0) := by
  intro _ w h; cases h

theorem Sys2Proof.Laws.Wf.pwmValley (x0 : Nat) : Sys2Proof.Laws.Wf.Statement (.pwmValley x0) := by
  intro _ w h; cases h

theorem Sys2Proof.Laws.Wf.pwmConverterTrigger (x0 : Nat) : Sys2Proof.Laws.Wf.Statement (.pwmConverterTrigger x0) := by
  intro _ w h; cases h

theorem Sys2Proof.Laws.Wf.pwmInhibit (x0 : Nat) : Sys2Proof.Laws.Wf.Statement (.pwmInhibit x0) := by
  intro _ w h; cases h

theorem Sys2Proof.Laws.Wf.standstillReduce (x0 : Nat) : Sys2Proof.Laws.Wf.Statement (.standstillReduce x0) := by
  intro _ w h; cases h

theorem Sys2Proof.Laws.Wf.motSignalWrite : Sys2Proof.Laws.Wf.Statement .motSignalWrite := by
  intro _ w h; cases h

theorem Sys2Proof.Laws.Wf.sdmOutput (x0 : Nat) (x1 : Int) : Sys2Proof.Laws.Wf.Statement (.sdmOutput x0 x1) := by
  intro _ w h; cases h

theorem Sys2Proof.Laws.Wf.overCurrent (x0 : Nat) (x1 : Int) : Sys2Proof.Laws.Wf.Statement (.overCurrent x0 x1) := by
  intro _ w h; cases h

theorem Sys2Proof.Laws.Wf.dataStuck (x0 : Nat) : Sys2Proof.Laws.Wf.Statement (.dataStuck x0) := by
  intro _ w h; cases h

theorem Sys2Proof.Laws.Wf.quadratureTransition (x0 : Nat) (x1 : Nat) : Sys2Proof.Laws.Wf.Statement (.quadratureTransition x0 x1) := by
  intro _ w h; cases h

theorem Sys2Proof.Laws.Wf.zCapture (x0 : Nat) : Sys2Proof.Laws.Wf.Statement (.zCapture x0) := by
  intro _ w h; cases h

theorem Sys2Proof.Laws.Wf.wireFault (x0 : Nat) (x1 : Nat) : Sys2Proof.Laws.Wf.Statement (.wireFault x0 x1) := by
  intro _ w h; cases h

theorem Sys2Proof.Laws.Wf.ssiFrame (x0 : Nat) (x1 : Bool) (x2 : Nat) (x3 : Bool) : Sys2Proof.Laws.Wf.Statement (.ssiFrame x0 x1 x2 x3) := by
  intro _ w h; cases h

theorem Sys2Proof.Laws.Wf.comparePulseEnd (x0 : Nat) : Sys2Proof.Laws.Wf.Statement (.comparePulseEnd x0) := by
  intro _ w h; cases h

theorem Sys2Proof.Laws.Wf.compareEntryWrite (x0 : Nat) (x1 : Nat) (x2 : Nat) : Sys2Proof.Laws.Wf.Statement (.compareEntryWrite x0 x1 x2) := by
  intro _ w h; cases h

theorem Sys2Proof.Laws.Wf.armZ (x0 : Nat) : Sys2Proof.Laws.Wf.Statement (.armZ x0) := by
  intro _ w h; cases h

theorem Sys2Proof.Laws.Wf.posClear (x0 : Nat) : Sys2Proof.Laws.Wf.Statement (.posClear x0) := by
  intro _ w h; cases h

theorem Sys2Proof.Laws.Wf.cmpArm (x0 : Nat) : Sys2Proof.Laws.Wf.Statement (.cmpArm x0) := by
  intro _ w h; cases h

theorem Sys2Proof.Laws.Wf.cmpDisarm (x0 : Nat) : Sys2Proof.Laws.Wf.Statement (.cmpDisarm x0) := by
  intro _ w h; cases h

theorem Sys2Proof.Laws.Wf.loadCount (x0 : Nat) (x1 : Nat) : Sys2Proof.Laws.Wf.Statement (.loadCount x0 x1) := by
  intro _ w h; cases h

theorem Sys2Proof.Laws.Wf.clearSsi (x0 : Nat) : Sys2Proof.Laws.Wf.Statement (.clearSsi x0) := by
  intro _ w h; cases h

theorem Sys2Proof.Laws.Wf.islandPor : Sys2Proof.Laws.Wf.Statement .islandPor := by
  intro _ w h; cases h

theorem Sys2Proof.Laws.Wf.selfTestDone : Sys2Proof.Laws.Wf.Statement .selfTestDone := by
  intro _ w h; cases h

theorem Sys2Proof.Laws.Wf.islandScan (x0 : Nat) (x1 : Nat) (x2 : Nat) (x3 : Bool) : Sys2Proof.Laws.Wf.Statement (.islandScan x0 x1 x2 x3) := by
  intro _ w h; cases h

theorem Sys2Proof.Laws.Wf.inputTestPulse (x0 : Nat) (x1 : Nat) : Sys2Proof.Laws.Wf.Statement (.inputTestPulse x0 x1) := by
  intro _ w h; cases h

theorem Sys2Proof.Laws.Wf.inputTestSample (x0 : Nat) (x1 : Nat) (x2 : Nat) : Sys2Proof.Laws.Wf.Statement (.inputTestSample x0 x1 x2) := by
  intro _ w h; cases h

theorem Sys2Proof.Laws.Wf.outputTestPulse (x0 : Nat) (x1 : Nat) : Sys2Proof.Laws.Wf.Statement (.outputTestPulse x0 x1) := by
  intro _ w h; cases h

theorem Sys2Proof.Laws.Wf.outputPulseCheck (x0 : Nat) (x1 : Bool) : Sys2Proof.Laws.Wf.Statement (.outputPulseCheck x0 x1) := by
  intro _ w h; cases h

theorem Sys2Proof.Laws.Wf.outputFault (x0 : Nat) (x1 : Bool) (x2 : Nat) : Sys2Proof.Laws.Wf.Statement (.outputFault x0 x1 x2) := by
  intro _ w h; cases h

theorem Sys2Proof.Laws.Wf.keepaliveExpiry (x0 : Nat) : Sys2Proof.Laws.Wf.Statement (.keepaliveExpiry x0) := by
  intro _ w h; cases h

theorem Sys2Proof.Laws.Wf.lockstepFault : Sys2Proof.Laws.Wf.Statement .lockstepFault := by
  intro _ w h; cases h

theorem Sys2Proof.Laws.Wf.memoryFault : Sys2Proof.Laws.Wf.Statement .memoryFault := by
  intro _ w h; cases h

theorem Sys2Proof.Laws.Wf.configCrcCheck (x0 : Nat) : Sys2Proof.Laws.Wf.Statement (.configCrcCheck x0) := by
  intro _ w h; cases h

theorem Sys2Proof.Laws.Wf.safeSupplyFault (x0 : Bool) : Sys2Proof.Laws.Wf.Statement (.safeSupplyFault x0) := by
  intro _ w h; cases h

theorem Sys2Proof.Laws.Wf.emoDiscrepancy : Sys2Proof.Laws.Wf.Statement .emoDiscrepancy := by
  intro _ w h; cases h

theorem Sys2Proof.Laws.Wf.discrepancy (x0 : Nat) : Sys2Proof.Laws.Wf.Statement (.discrepancy x0) := by
  intro _ w h; cases h

theorem Sys2Proof.Laws.Wf.functionDelayExpiry (x0 : Nat) : Sys2Proof.Laws.Wf.Statement (.functionDelayExpiry x0) := by
  intro _ w h; cases h

theorem Sys2Proof.Laws.Wf.safeFrameSend : Sys2Proof.Laws.Wf.Statement .safeFrameSend := by
  intro _ w h; cases h

theorem Sys2Proof.Laws.Wf.mailboxMessage (x0 : Nat) (x1 : MboxMsg) : Sys2Proof.Laws.Wf.Statement (.mailboxMessage x0 x1) := by
  intro _ w h; cases h

theorem Sys2Proof.Laws.Wf.pathSilent (x0 : Nat) (x1 : Nat) : Sys2Proof.Laws.Wf.Statement (.pathSilent x0 x1) := by
  intro _ w h; cases h

theorem Sys2Proof.Laws.Wf.frameMismatch (x0 : Nat) : Sys2Proof.Laws.Wf.Statement (.frameMismatch x0) := by
  intro _ w h; cases h

theorem Sys2Proof.Laws.Wf.configDropped : Sys2Proof.Laws.Wf.Statement .configDropped := by
  intro _ w h; cases h

theorem Sys2Proof.Laws.Wf.islandPfail : Sys2Proof.Laws.Wf.Statement .islandPfail := by
  intro _ w h; cases h

theorem Sys2Proof.Laws.Wf.islandPfailReturn : Sys2Proof.Laws.Wf.Statement .islandPfailReturn := by
  intro _ w h; cases h

theorem Sys2Proof.Laws.Wf.pairElection : Sys2Proof.Laws.Wf.Statement .pairElection := by
  intro _ w h; cases h

theorem Sys2Proof.Laws.Wf.tickRec (x0 : TickRec) : Sys2Proof.Laws.Wf.Statement (.tickRec x0) := by
  intro _ w h; cases h

theorem Sys2Proof.Laws.Wf.journalFrame (x0 : Option Nat) (x1 : List Byte) (x2 : StageSnap) : Sys2Proof.Laws.Wf.Statement (.journalFrame x0 x1 x2) := by
  intro _ w h; cases h

theorem Sys2Proof.Laws.Wf.pairCompare (x0 : List Nat) (x1 : Bool) : Sys2Proof.Laws.Wf.Statement (.pairCompare x0 x1) := by
  intro _ w h; cases h

theorem Sys2Proof.Laws.Wf.pairDecision (x0 : Bool) : Sys2Proof.Laws.Wf.Statement (.pairDecision x0) := by
  intro _ w h; cases h

theorem Sys2Proof.Laws.Wf.pairTakeover : Sys2Proof.Laws.Wf.Statement .pairTakeover := by
  intro _ w h; cases h

theorem Sys2Proof.Laws.Wf.pairSwitch (x0 : Bool) : Sys2Proof.Laws.Wf.Statement (.pairSwitch x0) := by
  intro _ w h; cases h

theorem Sys2Proof.Laws.Wf.pairResync : Sys2Proof.Laws.Wf.Statement .pairResync := by
  intro _ w h; cases h

theorem Sys2Proof.Laws.Wf.pairRelease : Sys2Proof.Laws.Wf.Statement .pairRelease := by
  intro _ w h; cases h

theorem Sys2Proof.Laws.Wf.pairClrCounts : Sys2Proof.Laws.Wf.Statement .pairClrCounts := by
  intro _ w h; cases h

theorem Sys2Proof.Laws.Wf.linkSignalDetect (x0 : Nat) : Sys2Proof.Laws.Wf.Statement (.linkSignalDetect x0) := by
  intro _ w h; cases h

theorem Sys2Proof.Laws.Wf.blockLock (x0 : Nat) : Sys2Proof.Laws.Wf.Statement (.blockLock x0) := by
  intro _ w h; cases h

theorem Sys2Proof.Laws.Wf.helloSend (x0 : Nat) : Sys2Proof.Laws.Wf.Statement (.helloSend x0) := by
  intro _ w h; cases h

theorem Sys2Proof.Laws.Wf.linkHello (x0 : Nat) (x1 : Nat) (x2 : Nat) (x3 : Nat) (x4 : Nat) (x5 : Nat) (x6 : Nat) (x7 : Bool) (x8 : List Byte) (x9 : Nat) : Sys2Proof.Laws.Wf.Statement (.linkHello x0 x1 x2 x3 x4 x5 x6 x7 x8 x9) := by
  intro _ w h; cases h

theorem Sys2Proof.Laws.Wf.blockLockLoss (x0 : Nat) : Sys2Proof.Laws.Wf.Statement (.blockLockLoss x0) := by
  intro _ w h; cases h

theorem Sys2Proof.Laws.Wf.creditFrame (x0 : Nat) (x1 : Nat) (x2 : Nat) (x3 : Nat) : Sys2Proof.Laws.Wf.Statement (.creditFrame x0 x1 x2 x3) := by
  intro _ w h; cases h

theorem Sys2Proof.Laws.Wf.linkTransmit (x0 : Nat) : Sys2Proof.Laws.Wf.Statement (.linkTransmit x0) := by
  intro _ w h; cases h

theorem Sys2Proof.Laws.Wf.casFrameTransit (x0 : Nat) (x1 : CasFrame) : Sys2Proof.Laws.Wf.Statement (.casFrameTransit x0 x1) := by
  intro _ w h; cases h

theorem Sys2Proof.Laws.Wf.casFrameBad (x0 : Nat) : Sys2Proof.Laws.Wf.Statement (.casFrameBad x0) := by
  intro _ w h; cases h

theorem Sys2Proof.Laws.Wf.beacon (x0 : Nat) : Sys2Proof.Laws.Wf.Statement (.beacon x0) := by
  intro _ w h; cases h

theorem Sys2Proof.Laws.Wf.masterLost : Sys2Proof.Laws.Wf.Statement .masterLost := by
  intro _ w h; cases h

theorem Sys2Proof.Laws.Wf.masterLostAbort : Sys2Proof.Laws.Wf.Statement .masterLostAbort := by
  intro _ w h; cases h

theorem Sys2Proof.Laws.Wf.safeFrame (x0 : Nat) (x1 : List Byte) : Sys2Proof.Laws.Wf.Statement (.safeFrame x0 x1) := by
  intro _ w h; cases h

theorem Sys2Proof.Laws.Wf.signalFrame (x0 : Nat) (x1 : List (Nat × Word)) : Sys2Proof.Laws.Wf.Statement (.signalFrame x0 x1) := by
  intro _ w h; cases h

theorem Sys2Proof.Laws.Wf.syncRec (x0 : List (List Byte)) (x1 : StageSnap) : Sys2Proof.Laws.Wf.Statement (.syncRec x0 x1) := by
  intro _ w h; cases h

theorem Sys2Proof.Laws.Wf.recordFrame (x0 : Nat) (x1 : RecMsg) : Sys2Proof.Laws.Wf.Statement (.recordFrame x0 x1) := by
  intro _ w h; cases h

theorem Sys2Proof.Laws.Wf.shpFwd (x0 : List Byte) : Sys2Proof.Laws.Wf.Statement (.shpFwd x0) := by
  intro _ w h; cases h

theorem Sys2Proof.Laws.Wf.resyncFrame (x0 : Nat) (x1 : Nat) (x2 : List Byte) (x3 : List (Nat × Word)) (x4 : Bool) : Sys2Proof.Laws.Wf.Statement (.resyncFrame x0 x1 x2 x3 x4) := by
  intro _ w h; cases h

theorem Sys2Proof.Laws.Wf.casClrCounts : Sys2Proof.Laws.Wf.Statement .casClrCounts := by
  intro _ w h; cases h

theorem Sys2Proof.Laws.Wf.timNowRead : Sys2Proof.Laws.Wf.Statement .timNowRead := by
  intro _ w h; cases h

theorem Sys2Proof.Laws.Wf.timeFrame (x0 : Nat) (x1 : Nat) (x2 : Nat) (x3 : Nat) (x4 : Bool) : Sys2Proof.Laws.Wf.Statement (.timeFrame x0 x1 x2 x3 x4) := by
  intro _ w h; cases h

theorem Sys2Proof.Laws.Wf.ptpMessage (x0 : Nat) (x1 : PtpMsg) : Sys2Proof.Laws.Wf.Statement (.ptpMessage x0 x1) := by
  intro _ w h; cases h

theorem Sys2Proof.Laws.Wf.ptpSend (x0 : Nat) (x1 : Nat) : Sys2Proof.Laws.Wf.Statement (.ptpSend x0 x1) := by
  intro _ w h; cases h

theorem Sys2Proof.Laws.Wf.servoUpdate : Sys2Proof.Laws.Wf.Statement .servoUpdate := by
  intro _ w h; cases h

theorem Sys2Proof.Laws.Wf.holdover : Sys2Proof.Laws.Wf.Statement .holdover := by
  intro _ w h; cases h

theorem Sys2Proof.Laws.Wf.stepApply : Sys2Proof.Laws.Wf.Statement .stepApply := by
  intro _ w h; cases h

theorem Sys2Proof.Laws.Wf.timeSet : Sys2Proof.Laws.Wf.Statement .timeSet := by
  intro _ w h; cases h

theorem Sys2Proof.Laws.Wf.frameIngress (x0 : Nat) (x1 : EthFrame) : Sys2Proof.Laws.Wf.Statement (.frameIngress x0 x1) := by
  intro _ w h; cases h

theorem Sys2Proof.Laws.Wf.frameEgress (x0 : Nat) : Sys2Proof.Laws.Wf.Statement (.frameEgress x0) := by
  intro _ w h; cases h

theorem Sys2Proof.Laws.Wf.frameAged (x0 : Nat) (x1 : Nat) : Sys2Proof.Laws.Wf.Statement (.frameAged x0 x1) := by
  intro _ w h; cases h

theorem Sys2Proof.Laws.Wf.gateListEntry (x0 : Nat) : Sys2Proof.Laws.Wf.Statement (.gateListEntry x0) := by
  intro _ w h; cases h

theorem Sys2Proof.Laws.Wf.gclSwap (x0 : Nat) : Sys2Proof.Laws.Wf.Statement (.gclSwap x0) := by
  intro _ w h; cases h

theorem Sys2Proof.Laws.Wf.gclEntryAccess (x0 : Option Word) : Sys2Proof.Laws.Wf.Statement (.gclEntryAccess x0) := by
  intro _ w h; cases h

theorem Sys2Proof.Laws.Wf.addressAge (x0 : Nat) (x1 : Nat) : Sys2Proof.Laws.Wf.Statement (.addressAge x0 x1) := by
  intro _ w h; cases h

theorem Sys2Proof.Laws.Wf.domainFrame (x0 : Nat) (x1 : Nat) (x2 : Nat) : Sys2Proof.Laws.Wf.Statement (.domainFrame x0 x1 x2) := by
  intro _ w h; cases h

theorem Sys2Proof.Laws.Wf.netClrCounts : Sys2Proof.Laws.Wf.Statement .netClrCounts := by
  intro _ w h; cases h

theorem Sys2Proof.Laws.Wf.ringCycleStart (x0 : Nat) : Sys2Proof.Laws.Wf.Statement (.ringCycleStart x0) := by
  intro _ w h; cases h

theorem Sys2Proof.Laws.Wf.rioCycle (x0 : Nat) (x1 : Nat) (x2 : Bool) (x3 : List RioSeg) : Sys2Proof.Laws.Wf.Statement (.rioCycle x0 x1 x2 x3) := by
  intro _ w h; cases h

theorem Sys2Proof.Laws.Wf.rioEnum (x0 : Nat) (x1 : Bool) (x2 : List RioId) : Sys2Proof.Laws.Wf.Statement (.rioEnum x0 x1 x2) := by
  intro _ w h; cases h

theorem Sys2Proof.Laws.Wf.rioProbe (x0 : Nat) (x1 : Nat) (x2 : Nat) : Sys2Proof.Laws.Wf.Statement (.rioProbe x0 x1 x2) := by
  intro _ w h; cases h

theorem Sys2Proof.Laws.Wf.rioConfig (x0 : Nat) (x1 : Nat) : Sys2Proof.Laws.Wf.Statement (.rioConfig x0 x1) := by
  intro _ w h; cases h

theorem Sys2Proof.Laws.Wf.rioDiag (x0 : Nat) (x1 : Nat) (x2 : List Byte) : Sys2Proof.Laws.Wf.Statement (.rioDiag x0 x1 x2) := by
  intro _ w h; cases h

theorem Sys2Proof.Laws.Wf.ringSyncLoss (x0 : Nat) : Sys2Proof.Laws.Wf.Statement (.ringSyncLoss x0) := by
  intro _ w h; cases h

theorem Sys2Proof.Laws.Wf.rioClrCounts : Sys2Proof.Laws.Wf.Statement .rioClrCounts := by
  intro _ w h; cases h

theorem Sys2Proof.Laws.Wf.canFrameReceive (x0 : Nat) (x1 : Nat) (x2 : Nat) (x3 : Bool) (x4 : Bool) (x5 : List Byte) (x6 : Nat) (x7 : Option Nat) : Sys2Proof.Laws.Wf.Statement (.canFrameReceive x0 x1 x2 x3 x4 x5 x6 x7) := by
  intro _ w h; cases h

theorem Sys2Proof.Laws.Wf.canFrameSent (x0 : Nat) (x1 : Nat) (x2 : Nat) : Sys2Proof.Laws.Wf.Statement (.canFrameSent x0 x1 x2) := by
  intro _ w h; cases h

theorem Sys2Proof.Laws.Wf.canError (x0 : Nat) (x1 : Option Nat) (x2 : CanErr) (x3 : Nat) (x4 : Nat) : Sys2Proof.Laws.Wf.Statement (.canError x0 x1 x2 x3 x4) := by
  intro _ w h; cases h

theorem Sys2Proof.Laws.Wf.busOffRecovery (x0 : Nat) : Sys2Proof.Laws.Wf.Statement (.busOffRecovery x0) := by
  intro _ w h; cases h

theorem Sys2Proof.Laws.Wf.canSend (x0 : Nat) (x1 : Nat) (x2 : Bool) : Sys2Proof.Laws.Wf.Statement (.canSend x0 x1 x2) := by
  intro _ w h; cases h

theorem Sys2Proof.Laws.Wf.canCancel (x0 : Nat) (x1 : Nat) (x2 : Bool) : Sys2Proof.Laws.Wf.Statement (.canCancel x0 x1 x2) := by
  intro _ w h; cases h

theorem Sys2Proof.Laws.Wf.canFifoReadAdvance (x0 : Nat) (x1 : Nat) (x2 : Nat) : Sys2Proof.Laws.Wf.Statement (.canFifoReadAdvance x0 x1 x2) := by
  intro _ w h; cases h

theorem Sys2Proof.Laws.Wf.canClrCounts : Sys2Proof.Laws.Wf.Statement .canClrCounts := by
  intro _ w h; cases h

theorem Sys2Proof.Laws.Wf.recordWrite : Sys2Proof.Laws.Wf.Statement .recordWrite := by
  intro _ w h; cases h

theorem Sys2Proof.Laws.Wf.mdwClearFault : Sys2Proof.Laws.Wf.Statement .mdwClearFault := by
  intro _ w h; cases h

theorem Sys2Proof.Laws.Wf.clearProcess : Sys2Proof.Laws.Wf.Statement .clearProcess := by
  intro _ w h; cases h

theorem Sys2Proof.Laws.Wf.closeFree : Sys2Proof.Laws.Wf.Statement .closeFree := by
  intro _ w h; cases h

theorem Sys2Proof.Laws.Wf.mdwRdSerialWrite (x0 : Nat) : Sys2Proof.Laws.Wf.Statement (.mdwRdSerialWrite x0) := by
  intro _ w h; cases h

theorem Sys2Proof.Laws.Wf.mdwAdv : Sys2Proof.Laws.Wf.Statement .mdwAdv := by
  intro _ w h; cases h

theorem Sys2Proof.Laws.Wf.mdwRdLoadDone : Sys2Proof.Laws.Wf.Statement .mdwRdLoadDone := by
  intro _ w h; cases h

theorem Sys2Proof.Laws.Wf.traceFrameSend (x0 : Nat) : Sys2Proof.Laws.Wf.Statement (.traceFrameSend x0) := by
  intro _ w h; cases h

theorem Sys2Proof.Laws.Wf.mdwClrCounts : Sys2Proof.Laws.Wf.Statement .mdwClrCounts := by
  intro _ w h; cases h

theorem Sys2Proof.Laws.Wf.mdwClrPeaks : Sys2Proof.Laws.Wf.Statement .mdwClrPeaks := by
  intro _ w h; cases h

theorem Sys2Proof.Laws.Wf.directoryRead (x0 : List Byte) (x1 : List Byte) : Sys2Proof.Laws.Wf.Statement (.directoryRead x0 x1) := by
  intro _ w h; cases h

theorem Sys2Proof.Laws.Wf.copyVerify (x0 : Nat) (x1 : CopyBytes) : Sys2Proof.Laws.Wf.Statement (.copyVerify x0 x1) := by
  intro _ w h; cases h

theorem Sys2Proof.Laws.Wf.loadPass (x0 : CopyBytes) (x1 : List ImgExtra) : Sys2Proof.Laws.Wf.Statement (.loadPass x0 x1) := by
  intro _ w h; cases h

theorem Sys2Proof.Laws.Wf.bootSelect (x0 : Nat) : Sys2Proof.Laws.Wf.Statement (.bootSelect x0) := by
  intro _ w h; cases h

theorem Sys2Proof.Laws.Wf.bootLoadHost : Sys2Proof.Laws.Wf.Statement .bootLoadHost := by
  intro _ w h; cases h

theorem Sys2Proof.Laws.Wf.bootRetry : Sys2Proof.Laws.Wf.Statement .bootRetry := by
  intro _ w h; cases h

theorem Sys2Proof.Laws.Wf.bootApply (x0 : ImgExtra) : Sys2Proof.Laws.Wf.Statement (.bootApply x0) := by
  intro _ w h; cases h

theorem Sys2Proof.Laws.Wf.changePersist (x0 : List (Nat × CopyBytes)) : Sys2Proof.Laws.Wf.Statement (.changePersist x0) := by
  intro _ w h; cases h

theorem Sys2Proof.Laws.Wf.shpHello (x0 : ShpReq) (x1 : List Byte) : Sys2Proof.Laws.Wf.Statement (.shpHello x0 x1) := by
  intro _ w h; cases h

theorem Sys2Proof.Laws.Wf.shpOpen (x0 : ShpReq) : Sys2Proof.Laws.Wf.Statement (.shpOpen x0) := by
  intro _ w h; cases h

theorem Sys2Proof.Laws.Wf.shpClose (x0 : ShpReq) : Sys2Proof.Laws.Wf.Statement (.shpClose x0) := by
  intro _ w h; cases h

theorem Sys2Proof.Laws.Wf.shpKeepalive (x0 : ShpReq) : Sys2Proof.Laws.Wf.Statement (.shpKeepalive x0) := by
  intro _ w h; cases h

theorem Sys2Proof.Laws.Wf.sessionIdle (x0 : Nat) : Sys2Proof.Laws.Wf.Statement (.sessionIdle x0) := by
  intro _ w h; cases h

theorem Sys2Proof.Laws.Wf.regRead (x0 : ShpReq) : Sys2Proof.Laws.Wf.Statement (.regRead x0) := by
  intro _ w h; cases h

theorem Sys2Proof.Laws.Wf.regWrite (x0 : ShpReq) : Sys2Proof.Laws.Wf.Statement (.regWrite x0) := by
  intro _ w h; cases h

theorem Sys2Proof.Laws.Wf.plainRead (x0 : ShpReq) : Sys2Proof.Laws.Wf.Statement (.plainRead x0) := by
  intro _ w h; cases h

theorem Sys2Proof.Laws.Wf.sigRead (x0 : ShpReq) (x1 : Option Nat) (x2 : List (Nat × Nat)) : Sys2Proof.Laws.Wf.Statement (.sigRead x0 x1 x2) := by
  intro _ w h; cases h

theorem Sys2Proof.Laws.Wf.sigWrite (x0 : ShpReq) : Sys2Proof.Laws.Wf.Statement (.sigWrite x0) := by
  intro _ w h; cases h

theorem Sys2Proof.Laws.Wf.shpForce (x0 : ShpReq) : Sys2Proof.Laws.Wf.Statement (.shpForce x0) := by
  intro _ w h; cases h

theorem Sys2Proof.Laws.Wf.shpSeq (x0 : ShpReq) : Sys2Proof.Laws.Wf.Statement (.shpSeq x0) := by
  intro _ w h; cases h

theorem Sys2Proof.Laws.Wf.shpLoop (x0 : ShpReq) : Sys2Proof.Laws.Wf.Statement (.shpLoop x0) := by
  intro _ w h; cases h

theorem Sys2Proof.Laws.Wf.shpAxis (x0 : ShpReq) : Sys2Proof.Laws.Wf.Statement (.shpAxis x0) := by
  intro _ w h; cases h

theorem Sys2Proof.Laws.Wf.recRead (x0 : ShpReq) : Sys2Proof.Laws.Wf.Statement (.recRead x0) := by
  intro _ w h; cases h

theorem Sys2Proof.Laws.Wf.shpTrace (x0 : ShpReq) : Sys2Proof.Laws.Wf.Statement (.shpTrace x0) := by
  intro _ w h; cases h

theorem Sys2Proof.Laws.Wf.shpSafety (x0 : ShpReq) (x1 : MboxMsg) : Sys2Proof.Laws.Wf.Statement (.shpSafety x0 x1) := by
  intro _ w h; cases h

theorem Sys2Proof.Laws.Wf.imagePut (x0 : ShpReq) : Sys2Proof.Laws.Wf.Statement (.imagePut x0) := by
  intro _ w h; cases h

theorem Sys2Proof.Laws.Wf.imageApply (x0 : ShpReq) (x1 : ImgExtra) : Sys2Proof.Laws.Wf.Statement (.imageApply x0 x1) := by
  intro _ w h; cases h

theorem Sys2Proof.Laws.Wf.copyWrite (x0 : ShpReq) : Sys2Proof.Laws.Wf.Statement (.copyWrite x0) := by
  intro _ w h; cases h

theorem Sys2Proof.Laws.Wf.testRecord (x0 : ShpReq) : Sys2Proof.Laws.Wf.Statement (.testRecord x0) := by
  intro _ w h; cases h

theorem Sys2Proof.Laws.Wf.shpTimeout (x0 : Nat) : Sys2Proof.Laws.Wf.Statement (.shpTimeout x0) := by
  intro _ w h; cases h

theorem Sys2Proof.Laws.Wf.mailboxTimeout (x0 : Nat) : Sys2Proof.Laws.Wf.Statement (.mailboxTimeout x0) := by
  intro _ w h; cases h

theorem Sys2Proof.Laws.Wf.bar0Access (x0 : Nat) (x1 : Nat) (x2 : Option Word) : Sys2Proof.Laws.Wf.Statement (.bar0Access x0 x1 x2) := by
  intro _ w h; cases h

theorem Sys2Proof.Laws.Wf.bar2Access (x0 : Nat) (x1 : Option (List Byte)) (x2 : Nat) : Sys2Proof.Laws.Wf.Statement (.bar2Access x0 x1 x2) := by
  intro _ w h; cases h

theorem Sys2Proof.Laws.Wf.secProvision (x0 : Bool) : Sys2Proof.Laws.Wf.Statement (.secProvision x0) := by
  intro _ w h; cases h

theorem Sys2Proof.Laws.Wf.secLock (x0 : Bool) : Sys2Proof.Laws.Wf.Statement (.secLock x0) := by
  intro _ w h; cases h

theorem Sys2Proof.Laws.Wf.secRetire (x0 : Bool) : Sys2Proof.Laws.Wf.Statement (.secRetire x0) := by
  intro _ w h; cases h

theorem Sys2Proof.Laws.Wf.secRaiseSvn (x0 : Bool) : Sys2Proof.Laws.Wf.Statement (.secRaiseSvn x0) := by
  intro _ w h; cases h

theorem Sys2Proof.Laws.Wf.secKeyWrite (x0 : Bool) : Sys2Proof.Laws.Wf.Statement (.secKeyWrite x0) := by
  intro _ w h; cases h

theorem Sys2Proof.Laws.Wf.keyDataWrite (x0 : Word) : Sys2Proof.Laws.Wf.Statement (.keyDataWrite x0) := by
  intro _ w h; cases h

theorem Sys2Proof.Laws.Wf.dbgChallenge : Sys2Proof.Laws.Wf.Statement .dbgChallenge := by
  intro _ w h; cases h

theorem Sys2Proof.Laws.Wf.challengeReady (x0 : List Byte) : Sys2Proof.Laws.Wf.Statement (.challengeReady x0) := by
  intro _ w h; cases h

theorem Sys2Proof.Laws.Wf.dbgVerify : Sys2Proof.Laws.Wf.Statement .dbgVerify := by
  intro _ w h; cases h

theorem Sys2Proof.Laws.Wf.verifyResult : Sys2Proof.Laws.Wf.Statement .verifyResult := by
  intro _ w h; cases h

theorem Sys2Proof.Laws.Wf.challengeExpiry : Sys2Proof.Laws.Wf.Statement .challengeExpiry := by
  intro _ w h; cases h

theorem Sys2Proof.Laws.Wf.dbgRequestFull : Sys2Proof.Laws.Wf.Statement .dbgRequestFull := by
  intro _ w h; cases h

theorem Sys2Proof.Laws.Wf.dbgHalt : Sys2Proof.Laws.Wf.Statement .dbgHalt := by
  intro _ w h; cases h

theorem Sys2Proof.Laws.Wf.dbgResume : Sys2Proof.Laws.Wf.Statement .dbgResume := by
  intro _ w h; cases h

theorem Sys2Proof.Laws.Wf.dbgDrop : Sys2Proof.Laws.Wf.Statement .dbgDrop := by
  intro _ w h; cases h

theorem Sys2Proof.Laws.Wf.wakeTimer : Sys2Proof.Laws.Wf.Statement .wakeTimer := by
  intro _ w h; cases h

theorem Sys2Proof.Laws.Wf.wakeLine (x0 : Nat) : Sys2Proof.Laws.Wf.Statement (.wakeLine x0) := by
  intro _ w h; cases h

theorem Sys2Proof.Laws.Wf.wakeComplete : Sys2Proof.Laws.Wf.Statement .wakeComplete := by
  intro _ w h; cases h

theorem Sys2Proof.Laws.Wf.hibWake (x0 : List ImgExtra) : Sys2Proof.Laws.Wf.Statement (.hibWake x0) := by
  intro _ w h; cases h

theorem Sys2Proof.Laws.Wf.pwrHold (x0 : Bool) : Sys2Proof.Laws.Wf.Statement (.pwrHold x0) := by
  intro _ w h; cases h

theorem Sys2Proof.Laws.Wf.pmcSnap : Sys2Proof.Laws.Wf.Statement .pmcSnap := by
  intro _ w h; cases h

theorem Sys2Proof.Laws.Wf.pmcClear : Sys2Proof.Laws.Wf.Statement .pmcClear := by
  intro _ w h; cases h

theorem Sys2Proof.Laws.Wf.debugReset : Sys2Proof.Laws.Wf.Statement .debugReset := by
  intro _ w h; cases h

theorem Sys2Proof.Laws.Wf.debugPortAccess (x0 : DebugAccess) : Sys2Proof.Laws.Wf.Statement (.debugPortAccess x0) := by
  intro _ w h; cases h

theorem Sys2Proof.Laws.Wf.spllLock (x0 : Nat) : Sys2Proof.Laws.Wf.Statement (.spllLock x0) := by
  intro _ w h; cases h

theorem Sys2Proof.Laws.Wf.islandPorRelease : Sys2Proof.Laws.Wf.Statement .islandPorRelease := by
  intro _ w h; cases h

theorem Sys2Proof.Laws.Wf.adcSupplyGood : Sys2Proof.Laws.Wf.Statement .adcSupplyGood := by
  intro _ w h; cases h

theorem Sys2Proof.Laws.Wf.sgmiiSynchronisation (x0 : Nat) : Sys2Proof.Laws.Wf.Statement (.sgmiiSynchronisation x0) := by
  intro _ w h; cases h

theorem Sys2Proof.Laws.Wf.pcieL1Exit : Sys2Proof.Laws.Wf.Statement .pcieL1Exit := by
  intro _ w h; cases h

theorem Sys2Proof.Laws.Wf.unknownType (x0 : Nat) (x1 : ShpReq) : Sys2Proof.Laws.Wf.Statement (.unknownType x0 x1) := by
  intro _ w h; cases h
end

