-- ==== Sys2Proof/Tests/Slice0.lean ====
section
/-!
SUPPORT. Tests/Slice0.lean: words written out from the encodings decode, ill-formed commands are refused, a few single steps, and for
every statement with hypotheses a witness that meets them.
-/

section Slice0Tests

open Sys2Proof Sys2Proof.Machine

set_option Elab.async false


/-! ## Decoding: words written out from R176, R177 and R204, R205 -/

theorem test_decode_lane_ldi : laneDecode 2 0b001010_0101_000000_0001001000110100 = some (.laneLdi 2 5 0x1234) := by decide +kernel

theorem test_decode_lane_br : laneDecode 7 0b000011_1001_0000000000_011000000001 = some (.laneBr 7 9 0x601) := by decide +kernel

theorem test_decode_lane_loop : laneDecode 0 0b000110_1_0000000000011_0_000000000111 = none := by decide +kernel

theorem test_decode_logic_add : logicDecode 3 0b010010_11111_00001_10000_00000000000 = some (.logicAdd 3 31 1 16) := by decide +kernel

theorem test_decode_logic_stx : logicDecode 0 0b001110_00010_00011_1000000000001_101 = some (.logicStx 0 2 3 0x1001 5) := by decide +kernel

theorem test_decode_logic_reserved_op : logicDecode 0 0b111000_00000_00000_0000000000000000 = none := by decide +kernel

theorem test_decode_lane_reserved_bit : laneDecode 2 0b001010_0101_000001_0001001000110100 = none := by decide +kernel

/-! ## WellFormed refuses a field that is too wide -/

theorem test_wf_refuses_lane : (Instr.laneLdi 8 0 0).wf = false ∧ (Instr.laneLdi 0 16 0).wf = false ∧
    (Instr.laneLdi 0 0 0x10000).wf = false ∧ (Instr.laneLoop 0 false 16 0).wf = false ∧ (Instr.laneLoop 0 true 16 0).wf = true := by
  decide +kernel

theorem test_wf_refuses_logic : (Instr.logicAdd 4 0 0 0).wf = false ∧ (Instr.logicAdd 0 32 0 0).wf = false ∧
    (Instr.logicGetd 0 0 true 32).wf = false ∧ (Instr.logicGetd 0 0 true 1).wf = false ∧ (Instr.logicGetd 0 0 true 8).wf = true := by
  decide +kernel


/-- A device that runs: every vale is out of reset and an image is committed. -/
def Sys2Proof.Machine.State.up : State :=
  (({ State.reset with vales := { State.reset.vales with phase := .running } }).setFld CLK_VALE_STAT.RUN 0x7FFF).setFld
    SYS_STATE.IMAGE_COMMITTED 1

/-- A device that runs and is not yet committed. -/
def Sys2Proof.Machine.State.boot0 : State :=
  ({ State.reset with vales := { State.reset.vales with phase := .running } }).setFld CLK_VALE_STAT.RUN 0x7FFF

/-- The running device at a phase of the tick. -/
def Sys2Proof.Machine.State.atMark (p : TickPhase) : State := { State.up with time := { State.up.time with phase := p } }

/-- A running device whose lane 2 runs a job and stands at a program word `w`; its register set is `r` otherwise. -/
def Sys2Proof.Machine.State.laneOn (w : Nat) (r : RegSet) : State :=
  let v : LaneSt := { LaneSt.zero with busy := true, prog := [(0x600, BitVec.ofNat 32 w)], set0 := { r with pc := 0x600 } }
  (State.up.setFld SIG_COUNT.COUNT 2).setLane 2 v

/-- The same, standing at instruction `i`. -/
def Sys2Proof.Machine.State.laneAtInstr (i : Instr) (r : RegSet) : State := State.laneOn ((instrWord i).getD 0) r

/-- A running device whose core 3 runs task 7, which stands at a program word `w`; the task owns page `p`, its working registers
are `ws`, and the loaded program has `n` words. -/
def Sys2Proof.Machine.State.coreOn (w : Nat) (ws : Sparse Word) (p n : Nat) : State :=
  let s := ((State.up.setPw (State.up.descAt 0 0xC) (7 + 65536 * srcLog)).setRunning 11 (some 0)).setFld SIG_COUNT.COUNT 2
  let s := s.modTask 7 fun c => { c with w := ws, phase := 3, pc := 0x40 }
  { s with log := { s.log with bank0 := [(0x40, BitVec.ofNat 32 w)], pages := [(p, 8)], prog0 := { s.log.prog0 with len := n } } }

/-- The same, standing at instruction `i`. -/
def Sys2Proof.Machine.State.coreAtInstr (i : Instr) (ws : Sparse Word) (p : Nat) : State :=
  State.coreOn ((instrWord i).getD 0) ws p 0x80000

theorem witness_StepRunsTheFront : { State.up with pending := [Instr.por] }.pending = Instr.por :: [] := rfl

theorem witness_EmptyQueueIdles : State.reset.pending = [] ∧ State.reset.timeRuns = true ∧
    { State.reset with vales := { State.reset.vales with xinStopped := true } }.timeRuns = false := by decide

theorem witness_EveryStepKeepsTheForm : State.reset.canonical = true ∧ State.reset.trap = none ∧
    step State.reset = .next State.reset.timeCycle := ⟨by decide, rfl, rfl⟩

theorem witness_NoCommandIsRefused : exec .xinReturn State.up = .next { State.up with vales := { State.up.vales with xinStopped := false } } := rfl

theorem witness_ResetsComplete : State.up.vales.phase = .running ∧ State.up.powerFail = false ∧
    (State.up.setFld DBG_STAT.LEVEL 1).flag DBG_STAT.LEVEL = true ∧
    (State.up.setFld DBG_STAT.LEVEL 1).vales.phase = .running := by decide

theorem witness_ResetKeepsTheHeldItems : State.reset.canonical = true ∧ ResetKind.pin ≠ .por ∧
    SYS_ID ∉ [SYS_RST_CAUSE, TIM_STAT, JRN_STAT, DBG_STAT] := by decide

theorem witness_ClocksAndStallsComplete :
    (State.reset.vales.phase = .held ∧ State.reset.vales.xinStopped = false ∧ State.reset.vales.pllUnlocked = false ∧
      State.reset.jrn.pfail = false) ∧
    (State.reset.release_ 0 0 false).vales.xinStopped = false ∧ (State.reset.release_ 0 0 false).vales.phase = .released ∧
    (State.up.dieReset .clock).vales.xinStopped = false ∧ (State.up.dieReset .clock).vales.phase = .held ∧
    { (State.up.dieReset .clock).vales with pllUnlocked := true }.pllUnlocked = true ∧
    State.up.flag CLK_COL_STALL.STALL = false := by decide

theorem witness_TickMarksComplete_strobe : let s := State.up
    let r := (s.advanceTo (boundaryNs s.time.nextTick)).wrapFld SYS_TICK_COUNT.COUNT
    let t := { r.setFld SYS_STATE.TICK_RUN 1 with time := { r.time with tick := s.time.nextTick, nextTick := s.time.nextTick + 1, sinceRise := 0, phase := if r.asleep then .none else .risen } }
    s.strobeDue = true ∧ (t.pmc 0x10 0).powerSelect.trap = none := by decide +kernel

theorem witness_TickMarksComplete_arrival : let s := State.atMark .risen
    s.time.phase = .risen ∧ s.vales.phase = .running ∧
    (s.strobeFirst [] []).strobeTurn.strobeUnits.strobeEngines.strobeLinks.trap = none := by decide +kernel

theorem witness_TickMarksComplete_input : let s := State.atMark .arrived
    let a := s.advanceTo (boundaryNs s.time.tick + 4000)
    let b := { a with time := { a.time with phase := .inputClosed } }.countLate
    let t := { b with sig := { b.sig with late := [] } }
    let l := ((if t.halted then t else t.logInputClose).readyLatched).mdwInputClose [] []
    let u := ((((l.jrnInputClose).pairSendTick).casExport).netSafe).shpInputClose
    s.time.phase = .arrived ∧ u.trap = none := by decide +kernel

theorem witness_TickMarksComplete_output : let s := State.atMark .inputClosed
    let a := s.advanceTo (boundaryNs s.time.tick + 48000)
    let t := (((({ a with time := { a.time with phase := .outputClosed } }).casOutputClose).canOutputClose).freezeSets).jrnOutputClose
    s.time.phase = .inputClosed ∧ t.trap = none := by decide +kernel

theorem witness_TickMarksComplete_prefetch : (State.atMark .outputClosed).time.phase = .outputClosed ∧
    (State.atMark .risen).time.phase = .risen := by decide

theorem witness_FieldWriteByType : ∀ t ∈ [RegType.rw, .wo, .rwl, .rwp, .ro, .w1s, .w1c], ∃ f : FieldDesc,
    f.lo + f.width ≤ 32 ∧ f.typ = t ∧ 0 < f.width ∧ 0 + 16 ≤ f.lo ∧ f.lo + f.width ≤ 24 :=
  fun t _ => ⟨⟨16, 8, t, 0⟩, Nat.le_of_ble_eq_true rfl, rfl, Nat.le_of_ble_eq_true rfl, Nat.le_of_ble_eq_true rfl, Nat.le_of_ble_eq_true rfl⟩

theorem test_w1c_clears_only_ones : fieldWrite false true 0x0F0 0x3FC ⟨4, 4, .w1c, 0⟩ = 0x30C ∧
    fieldWrite false true 0x0A5 0x3FF ⟨0, 10, .w1c, 0⟩ = 0x35A := by decide

theorem witness_RegisterWriteCompletes_write : State.up.vales.phase = .running ∧ State.up.pwr.stopped = 0 ∧
    (∃ d, regAt TIM_CFG = some d ∧ State.up.regDropped TIM_CFG = false ∧ (blockOf TIM_CFG = 27 → true = true) ∧
      selfStored TIM_CFG = false ∧
      let t := ((State.up.setReg TIM_CFG (BitVec.ofNat 32 (d.fields.foldl (fieldWrite false true 0) 0))).zeroFields TIM_CFG).regOpen State.up TIM_CFG 0
      (t.regPriv State.up TIM_CFG 0).trap = none) ∧
    regAt 1 = none ∧ State.up.trap = none := by
  refine ⟨by decide, by decide, ⟨(regAt TIM_CFG).get (by decide +kernel), ?_⟩, by decide +kernel, rfl⟩
  decide +kernel

theorem witness_RegisterWriteCompletes_dropped : State.boot0.setFld CLK_VALE_STAT.RUN 0 |>.regDropped SCH_CLR := by
  decide +kernel

theorem witness_PlainCompletes : (23 < 24 ∧ State.up.pwr.stopped = 0 ∧ State.up.runs Vale.fabric = true ∧ State.up.trap = none ∧
      0 < [(7 : Byte)].length ∧ 0x90000000 ≤ 0x90FFFFFF ∧ 0x90FFFFFF + [(7 : Byte)].length ≤ 0x91000000) ∧
    (State.up.portSt 19).head = none ∧
    ((((State.up.pmc 0x01 0).pmcWaits).arbitrate .clean).restartBlocked).trap = none := by decide +kernel

theorem witness_PlainCompletes_retained (t : Txn) :
    { State.up with arb := { State.up.arb with retQueue := [t] } }.arb.retQueue = t :: [] := rfl

theorem witness_SplitLinesPartition : (List.replicate 130 (0 : Byte)).length = 130 := List.length_replicate

theorem test_splitLines_crosses : (splitLines 3 1 false 131 0x8000003F (List.replicate 130 0) 130).map (fun t => (t.addr, t.len)) =
    [(0x8000003F, 1), (0x80000040, 64), (0x80000080, 64), (0x800000C0, 1)] := by decide

theorem witness_BankMappingOneToOne : 0 < 0x2000000 ∧ 64 < 0x2000000 ∧ inWindow 0 = false ∧ inWindow 64 = false ∧
    0 / 4096 = 64 / 4096 ∧ 0 / 64 ≠ 64 / 64 ∧ bankOf 64 = 1 ∧ bankOf 0x1001040 = 1 := by decide

theorem witness_ShortTimeOrder : 0 < 1 ∧ 1 < 2 ^ 31 ∧ 2 ^ 31 - 1 < 2 ^ 31 ∧
    earlier (shortOf (2 ^ 32 - 1)) (shortOf (2 ^ 32)) = true := by decide

theorem witness_SchedulerCommandsComplete_release :
    let j := simpleJob 1 false true 0 0 0 srcLane 0
    let s := State.up.setFld SCH_QUOTA0.QA 4
    s.runs Vale.scheduler = true ∧ 1 ≤ j.cls ∧ j.cls ≤ 5 ∧ j.onMiss ≤ 1 ∧ (s.release j).2 = some 0 ∧ s.halted = false := by
  decide +kernel

theorem witness_SchedulerCommandsComplete_runLimit :
    let s := State.up.setLane 7 { State.up.lane 7 with busy := true }
    7 < 8 ∧ s.reserved 7 = false ∧ (s.lane 7).busy = true ∧ s.runs Vale.lane = true ∧ s.onlyEnd 7 false = false ∧
    ((s.incFld SCH_RUNLIM.COUNT).laneStop 7 1 false).trap = none := by decide +kernel

theorem witness_SchedulerCommandsComplete_complete :
    let j : EndedJob := { engine := 3, job := 0, how := 0 }
    let s := { State.up with sch := { State.up.sch with ended := [j], jobs := [0] } }
    let s1 := { s with sch := { s.sch with ended := s.sch.ended.erase j } }
    (s.sch.ended.find? fun x => x.engine = 3) = some j ∧ s.runs Vale.scheduler = true ∧ s1.isResident 3 j.job = false := by
  decide +kernel

/-- A running device in which job 0, of ON_MISS `m`, is ready. -/
def Sys2Proof.Machine.State.oneJob (m : Nat) : State :=
  { State.up.setPw 8 (1 + 32 * m + 65536 * jReady) with sch := { State.up.sch with jobs := [0] } }

theorem witness_SchedulerCommandsComplete_deadline : ∀ m ∈ [0, 1], let s := State.oneJob m
    s.runs Vale.scheduler = true ∧ s.halted = false ∧ s.sch.jobs.contains 0 = true ∧ s.jInf 0 = false ∧ s.jState 0 ≠ jHeld ∧
    (s.sch.ended.any fun e => e.job = 0) = false ∧ s.jOnMiss 0 = m ∧ (s.terminate 0 false).trap = none ∧
    (s.extendJob 0).trap = none := by decide +kernel

theorem witness_SchedulerCommandsComplete_event :
    let s := { State.up.setPbits 8 16 4 jWaiting with sch := { State.up.sch with jobs := [0] } }
    (s.sch.jobs.filter fun i => s.jState i = jWaiting && s.jEvent i = 0) = [0] ∧
    (s.sch.jobs.filter fun i => s.jState i = jWaiting && s.jEvent i = 5) = [] ∧
    20000 ≤ { s.sch with loadStrobes := 20000 }.loadStrobes := by decide +kernel

theorem witness_AcceptedJobDescriptor : State.reset.canonical = true ∧ jReady < 8 := by decide

theorem witness_FlowReleasesInOrder : ∀ q ∈ [0, 1],
    let s := State.up.setPw 8 (128 + 3 * 256) |>.setPw 0x14 (q * 65536)
    s.engineOf 0 = none ∧ s.jFlowEn 0 = true ∧ (q = 0 → s.jFlowSeq 0 = s.flowNextRel (s.jFlow 0)) ∧
    (q = 1 → s.jFlowSeq 0 ≠ s.flowNextRel (s.jFlow 0)) := by decide +kernel

theorem witness_ColStallRecorded : State.reset.canonical = true ∧ State.reset.flag CLK_COL_STALL.STALL = false := by decide

/-- A running device with one used directory entry, index 0, of source HOST. -/
def Sys2Proof.Machine.State.oneSig : State :=
  (State.up.setFld SIG_COUNT.COUNT 1).setPw (State.up.dirAt 0 0) 0x79

theorem witness_ForceCommandsComplete_set : let s := State.oneSig
    let i := s.fld SIG_FORCE_IDX.INDEX
    s.powerFail = false ∧ s.sigUsed i = true ∧ s.sigNoForce i = false ∧ s.sigSource i ≠ 0x07 ∧ s.forceOf i = none ∧
    firstBelow 256 (fun k => (Sparse.get (fun _ => none) s.sig.forces k).isNone) = some 0 := by decide +kernel

theorem witness_ForceCommandsComplete_again :
    let f : ForceSlot := { index := 0, value := 5, shown := some 5, pend := [] }
    let s := State.oneSig.setForce 255 (some f)
    s.powerFail = false ∧ s.sigUsed 0 = true ∧ s.sigNoForce 0 = false ∧ s.sigSource 0 ≠ 0x07 ∧
    s.forceOf (s.fld SIG_FORCE_IDX.INDEX) = some (255, f) := by decide +kernel

theorem witness_ForceTakesEffect :
    ({ index := 0, value := 5, shown := some 5, pend := [(none, 2)] } : ForceSlot).boundary =
      some { index := 0, value := 5, shown := some 5, pend := [(none, 1)] } := by decide

theorem witness_ParkedWriteWaits : (State.atMark .risen).parking = true ∧ Sparse.wf (fun _ => (none : Option Word)) [] = true ∧
    State.up.canonical = true ∧ State.up.parking = false ∧ 16383 < 16384 ∧
    { State.up.sig with parked := [(16383, some 1)] }.parked = [(16383, some 1)] ∧ State.up.sig.parkWait = [] := by decide +kernel

/-- A running device whose sequence 63 stands in state `st`. -/
def Sys2Proof.Machine.State.seqIn (st : Nat) : State := State.up.modCtx 63 fun c => { c with state := st }

theorem witness_SequencerCommandsComplete : ∀ p ∈ [(0, seqIdle), (1, seqIdle), (2, seqReady), (4, seqHeld),
      (5, seqRunning), (6, seqHeld), (7, seqReady), (8, seqRestored), (9, seqDone)],
    let s := State.seqIn p.2
    let r := (s.seqPhase1 s.evalTick).seqCommand 63 p.1 0 s.evalTick
    s.seqWorks = true ∧ r.2 = seqOk ∧ r.1.trap = none ∧ s.abandonTest.seqWorks = true := by decide +kernel

theorem witness_SequencerCommandsComplete_hold :
    let s := State.up.modCtx 63 fun c => { c with state := seqRunning, entry := [0x100] }
    let r := (s.seqPhase1 s.evalTick).seqCommand 63 3 0 s.evalTick
    s.seqWorks = true ∧ r.2 = seqOk ∧ r.1.trap = none := by decide +kernel

theorem witness_SequenceCommandEffects : (State.seqIn seqReady).seqMember 63 = false ∧ (State.seqIn seqReady).seqMaster 63 = false ∧
    ((State.seqIn seqReady).ctx 63).state = seqReady ∧ (State.seqIn seqReady).seqArm = true ∧
    ((State.seqIn seqReady).setFld JRN_STATE.STATE 1).seqArm = false ∧ ((State.seqIn seqRunning).ctx 63).state = seqRunning ∧
    (State.seqIn seqRunning).seqHoldOk 63 0 = some false ∧ 9 < 10 ∧ 4 < 5 ∧ 0 ≠ 0xFFFF ∧ seqIdle ≠ seqRestored ∧
    seqIdle ≠ seqReady ∧ seqIdle ≠ seqRunning := by decide +kernel

theorem witness_SequencerEventsComplete_evaluation : let s := State.atMark .inputClosed
    s.seqWorks = true ∧ s.time.phase = .inputClosed ∧ s.seq.lastEval ≠ some s.time.tick ∧
    (((s.seqEvaluate s.time.tick 0).setFld SEQ_EVAL.LAST 0).peakFld SEQ_EVAL.MAX 0).trap = none := by decide +kernel

/-- A running device whose sequence 5 is a member's share of spanning sequence 7, with two members posted to as a master. -/
def Sys2Proof.Machine.State.member : State :=
  let m : PassMsg := { kind := 0, spanSeq := 7, from_ := 0, target := 1, start := 3, attempt := 1, arg := 0, members := [1, 2] }
  ((State.up.setPbits (State.up.hdrAt 5 0) 16 8 (1 + 4 * 7)).modCtx 5 fun c => { c with state := seqReady }).modCtx 9 fun c =>
    { c with posts := [{ msg := m, acked := [1], policy := 0, retries := 1, path := 0 }] }

theorem witness_SequencerEventsComplete_pass : let s := State.member
    let m : PassMsg := { kind := 1, spanSeq := 7, from_ := 0, target := 1, start := 2, attempt := 1, arg := 0, members := [] }
    s.seqWorks = true ∧ s.passShare 7 = some 5 ∧ s.ns < boundaryNs (m.start - 1) ∧ s.passFits 5 m = true ∧
    s.seqMember 5 = true ∧ ((s.ctx 5).commits.any fun x => x.start = 2) = false := by decide +kernel

theorem witness_SequencerEventsComplete_deadline : let s := State.member
    ∃ p ∈ (s.ctx 9).posts, let t := (s.modCtx 9 fun c => { c with posts := [] }).armPass 9
      (s.ctx 9).posts = [p] ∧ (p.msg.members.filter fun x => !p.acked.contains x) = [2] ∧ (t.passMissed 9 p [2]).trap = none := by
  decide +kernel

/-- A running device whose only loop slot, 0, is enabled and of template PID. -/
def Sys2Proof.Machine.State.oneLoop : State :=
  ((State.up.setFld LOOP_COUNT.COUNT 1).setPw (State.up.loopAt 0 0) 0x80).setPw (State.up.loopAt 0 0x18) 0x7FFF8000

theorem witness_LoopCommandsComplete : let s := State.oneLoop
    s.powerFail = false ∧ s.isLoop 0 = true ∧ s.loopModeOk 0 1 = true ∧ sext 16 0x7FFF ≤ (s.loopLimitsAhead 0).2 ∧
    (s.loopLimitsAhead 0).1 ≤ sext 16 0x8000 := by decide +kernel

theorem witness_LoopOutputWithinLimits : State.oneLoop.lOutLo 0 ≤ State.oneLoop.lOutHi 0 ∧ State.oneLoop.lOutLo 0 = -32768 ∧
    State.oneLoop.lOutHi 0 = 32767 := by decide +kernel

theorem witness_LaneControlCompletes : ∀ i ∈ [Instr.laneNop 2, .laneEnd 2, .laneJmp 2 0xFFF, .laneBr 2 9 0x600, .laneCall 2 0x700,
      .laneLoop 2 true 3 0x602, .laneLoop 2 true 0 0x602, .laneWaits 2 64, .laneInh 2 true, .laneEvt 2 true 0xFF],
    let s := State.laneAtInstr i RegSet.zero
    s.laneAt 2 i = true ∧ s.trap = none ∧ (s.rset 2).pc.toNat = 0x600 ∧ (s.rset 2).targetOk 0xFFF = true ∧
    (s.rset 2).targetOk 0x600 = true ∧ (s.rset 2).cond (!(s.lane 2).fifo.isEmpty) 9 = true ∧ (s.rset 2).calls.length < 8 ∧
    (s.rset 2).loops.length < 2 ∧ (s.post 0x1C 0xFF true [2]).trap = none ∧ (s.lane 2).fifo.length < 64 ∧
    (s.laneJump 2 0x603).trap = none ∧
    ((s.modRset 2 fun r => { r with calls := (r.pc + 1) :: r.calls }).laneJump 2 0x700).trap = none := by decide +kernel

theorem witness_LaneControlCompletes_br : let s := State.laneAtInstr (.laneBr 2 0 0x600) RegSet.zero
    s.laneAt 2 (.laneBr 2 0 0x600) = true ∧ (s.rset 2).cond (!(s.lane 2).fifo.isEmpty) 0 = false := by decide +kernel

theorem witness_LaneControlCompletes_ret : let s := State.laneAtInstr (.laneRet 2) { RegSet.zero with calls := [0x701] }
    s.laneAt 2 (.laneRet 2) = true ∧ (s.rset 2).calls = [0x701] ∧
    ((s.modRset 2 fun r => { r with calls := [] }).laneJump 2 0x701).trap = none := by decide +kernel

theorem witness_LaneControlCompletes_waits :
    let s := (State.laneAtInstr (.laneWaits 2 1) RegSet.zero).modLane 2 fun v => { v with fifo := [7] }
    s.laneAt 2 (.laneWaits 2 1) = true ∧ 1 ≤ (s.lane 2).fifo.length := by decide +kernel

theorem witness_LaneControlCompletes_vendor : let s := State.up.setLane 7 { LaneSt.zero with busy := true, set0 := { RegSet.zero with pc := 0x380 } }
    s.runs Vale.lane = true ∧ (s.lane 7).busy = true ∧ (s.rset 7).pc.toNat < 0x400 ∧
    (s.vendorKernel 7 (s.rset 7).pc.toNat).trap = none := by decide +kernel

theorem witness_LaneMovesComplete : ∀ i ∈ [Instr.laneLdi 2 15 0xFFFF, .laneLdp 2 7 0x3FFF, .laneLdm 2 7 0xFFFF, .laneLdz 2 7 14,
      .laneMovx 2 15 30 true, .laneMovx 2 0 30 false, .laneSetm 2 true true 31, .laneLd 2 15 3 3, .laneSt 2 15 7 3,
      .laneLd2 2 14 3 3 3 3, .laneLim 2 15 14 13],
    let s := State.laneAtInstr i RegSet.zero
    s.laneAt 2 i = true ∧ s.trap = none ∧ (s.rset 2).ptrOk 3 = true ∧ (s.rset 2).ptrOk 7 = true ∧
    (s.rset 2).val 14 ≤ (s.rset 2).val 13 ∧
    (((s.modRset 2 fun r => r.setReg 14 ((s.lane 2).mem 3)).modRset 2 fun r => r.stepPtr 3 3).rset 2).ptrOk 7 = true := by
  decide +kernel

theorem witness_LaneMovesComplete_lim : let s := State.laneAtInstr (.laneLim 2 15 14 13) (RegSet.zero.setReg 14 1)
    s.laneAt 2 (.laneLim 2 15 14 13) = true ∧ (s.rset 2).val 13 < (s.rset 2).val 14 := by decide +kernel

theorem witness_LaneFabricCompletes : ∀ i ∈ [Instr.laneGet 2 15 false 1, .laneGetw 2 14 true 15, .lanePut 2 15 false 1,
      .lanePutw 2 14 false 1, .laneFld 2 14 0xFFF, .laneFst 2 14 0, .lanePop 2 15],
    let s := (State.laneAtInstr i RegSet.zero).setPbits (State.up.dirAt 1 0) 3 5 0x0B
    s.laneAt 2 i = true ∧ s.trap = none ∧ 1 < s.sigCount ∧ s.sigSource 1 = 0x0B ∧ (s.rset 2).sigIndex true 15 < s.sigCount ∧
    (s.rset 2).fbAddr 0xFFFF < plainSize ∧ (s.busWord (lanePort 2) 0 0).trap = none ∧ s.arcRuns 2 = false ∧
    (s.lane 2).fifo = [] ∧ ((s.modLane 2 fun v => { v with fifo := [9] }).lane 2).fifo = [9] := by decide +kernel

theorem witness_LaneFabricCompletes_arc : let s := State.up.setLane 7 { LaneSt.zero with busy := true, fifo := [5], set0 := { RegSet.zero with pc := 0x400 } }
    s.arcRuns 7 = true ∧ (s.lane 7).fifo = [5] ∧
    (((s.fifoPop 7).modLane 7 fun v => { v with stalled := false }).arcSample 7 5).trap = none := by decide +kernel

theorem witness_LaneMultiplyCompletes : ∀ i ∈ [Instr.laneMpyReg 2 true 15 14, .laneMacReg 2 true 15 14, .laneMsuReg 2 true 15 14,
      .laneMpyu 2 true 15 14, .laneMpyMem 2 true 15 7 3, .laneMacMem 2 true 15 7 3, .laneMsuMem 2 true 15 7 3,
      .laneMpyDual 2 true 3 3 3 3, .laneMacDual 2 true 3 3 3 3, .laneMsuDual 2 true 3 3 3 3],
    let s := State.laneAtInstr i RegSet.zero
    s.laneAt 2 i = true ∧ s.trap = none ∧ (s.rset 2).ptrOk 7 = true ∧ (s.rset 2).ptrOk 3 = true ∧
    ((s.modRset 2 fun g => g.stepPtr 3 3).rset 2).ptrOk 7 = true := by decide +kernel

theorem witness_LaneArithmeticCompletes : ∀ i ∈ [Instr.laneAdd 2 15 14 13, .laneSub 2 15 14 13, .laneMinmax 2 15 14 13 true,
      .laneLog 2 15 14 13 3, .laneShd 2 15 14 true 31, .laneCmp 2 15 14, .laneAcc 2 true 7, .laneSha 2 true false 63,
      .laneMva 2 true 15 true true 31, .laneMvd 2 true 15 true 31, .laneNorm 2 true 15 true],
    let s := State.laneAtInstr i RegSet.zero
    s.laneAt 2 i = true ∧ s.trap = none := by decide +kernel

theorem witness_LaneAccumulatorLaw : Sparse.wf (fun _ => (0 : BitVec 16)) RegSet.zero.d = true ∧ (-(2 ^ 39 : Int)) ≤ 2 ^ 39 - 1 ∧
    ((RegSet.zero.setAcc true (2 ^ 39)).srBit 2 = true) ∧ ((RegSet.zero.setAcc true (2 ^ 39 - 1)).srBit 2 = false) ∧
    (RegSet.zero.aluSat 3 32768).val 3 = 32767 ∧ (RegSet.zero.aluSat 3 32768).srBit 3 = true ∧
    (RegSet.zero.aluSat 3 (-32768)).srBit 3 = false := by decide +kernel

theorem witness_CircularPointerStaysInBlock : let g := (RegSet.zero.setPtr 4 0x0103).setSpecial 20 2
    Sparse.wf (fun _ => (0 : BitVec 16)) g.p = true ∧ g.circ 4 ≠ 0 ∧ g.circ 3 = 0 ∧ (g.stepPtr 4 1).ptr 4 = 0x0100 ∧
    (g.stepPtr 3 2).ptr 3 = 0xFFFF := by decide +kernel

theorem witness_LaneJobsComplete_start : let s := State.up.setRunning 7 (some 0)
    s.running 7 = some 0 ∧ (s.lane 7).busy = false ∧ s.runs Vale.lane = true ∧ s.trap = none ∧
    (s.noteDispatch 0 0).jEntry 0 % 4096 ≠ 0x400 := by decide +kernel

theorem witness_LaneJobsComplete_stream : let s := State.up.setFld (LANE_CFG.STREAM_EN 7) 1
    s.flag (LANE_CFG.STREAM_EN 7) = true ∧ s.runs Vale.lane = true ∧ (s.lane 7).fifo.length < 64 ∧
    (s.setFld LANE_MEM_SEL.MEM 2).fld LANE_MEM_SEL.MEM ≠ 0 ∧
    ((s.modLane 7 fun v => { v with busy := true }).lane 7).busy = true ∧
    64 ≤ ((s.modLane 7 fun v => { v with fifo := List.replicate 64 0 }).lane 7).fifo.length := by decide +kernel

theorem witness_LaneJobsComplete_arc :
    let s := (State.up.setRunning 7 (some 0)).setPw (State.up.descAt 0 0xC) 0x400
    let s := s.modLane 7 fun v => { v with coef := [(0x3F00, 1), (0x3F01, 1), (0x3F03, 1), (0x3F04, 1), (0x3F05, 1)] }
    let u := s.noteDispatch 0 0
    let v := { s.lane 7 with cur := !(s.lane 7).cur, busy := true, entry := 0x400, arg0 := u.jArg0 0, job := some 0, stalled := false, lastPut := false }
    let t := u.setLane 7 (v.setRs (RegSet.start 0x400 (u.jArg0 0)))
    u.jEntry 0 % 4096 = 0x400 ∧ (t.arcStart 7).trap = none := by decide +kernel

theorem witness_LogicControlCompletes : ∀ i ∈ [Instr.logicNop 3, .logicEnd 3, .logicJmp 3 0x7FFFF, .logicBr 3 1 0x7FFFF,
      .logicBr 3 11 0x7FFFF, .logicBr 3 0 1, .logicCall 3 0x7FFFF, .logicBrb 3 31 true 0x7FFFF, .logicBrb 3 31 false 0, .logicEvt 3 true 0xFFFF],
    let s := State.coreAtInstr i [(31, 1)] 0
    s.trap = none ∧ s.coreAt 3 7 i = true ∧ 0x7FFFF < (s.taskProg 7).len ∧ (s.task 7).cond 1 = true ∧ (s.task 7).cond 11 = true ∧
    (s.task 7).cond 0 = false ∧ (s.task 7).calls.length < 16 ∧ ((s.task 7).reg 31).getLsbD 0 = true ∧
    0x7FFFF < ((s.modTask 7 fun c => { c with calls := (c.pc + 1) :: c.calls }).taskProg 7).len := by decide +kernel

theorem witness_LogicControlCompletes_ret : let s := (State.coreAtInstr (.logicRet 3) [] 0).modTask 7 fun c => { c with calls := [9, 8] }
    s.trap = none ∧ s.coreAt 3 7 (.logicRet 3) = true ∧ (s.task 7).calls = 9 :: [8] := by decide +kernel

theorem witness_LogicMemoryCompletes : ∀ i ∈ [Instr.logicLdw 3 31 1 0xFFFC, .logicStw 3 31 1 0xFFFC, .logicLdh 3 31 1 0xFFFC,
      .logicSth 3 31 1 0xFFFC, .logicLdb 3 31 1 0xFFFC, .logicStb 3 31 1 0xFFFC, .logicLdx 3 31 1 0x1FFC 7, .logicStx 3 31 1 0x1FFC 7],
    let s := State.coreAtInstr i [(1, 0x100000)] 255
    s.trap = none ∧ s.coreAt 3 7 i = true ∧ s.logicAddr 7 1 0xFFFC 16 = 0xFFFFC ∧ s.logicAddr 7 1 0x1FFC 13 = 0xFFFFC := by
  decide +kernel

theorem witness_LogicStoreOwnership : let s := State.coreOn 0 [] 255 1
    Memory.wf s.log.vmem = true ∧ s.pageOwner 0xFFFFC = 7 + 1 ∧ s.pageOwner 0xFEFFC ≠ 7 + 1 ∧
    Sparse.wf (fun _ => false) s.log.dirtyA = true ∧ Sparse.wf (fun _ => false) s.log.dirtyB = true := by decide +kernel

theorem witness_LogicIntegerCompletes : ∀ i ∈ [Instr.logicLdi 3 31 0xFFFF, .logicLdih 3 31 0xFFFF, .logicMov 3 31 30,
      .logicAddi 3 31 30 0xFFFF, .logicAdd 3 31 30 29, .logicSub 3 31 30 29, .logicMul 3 31 30 29, .logicDiv 3 31 30 29,
      .logicMod 3 31 30 29, .logicAdds 3 31 30 29, .logicSubs 3 31 30 29, .logicLgc 3 31 30 29 3, .logicNot 3 31 30,
      .logicShf 3 31 30 29 3, .logicShfi 3 31 30 31 3, .logicMinmax 3 31 30 29 true, .logicLimit 3 31 30 29, .logicLimit 3 31 28 29,
      .logicAbsneg 3 31 30 true, .logicCmp 3 31 30, .logicCmpi 3 31 0xFFFF, .logicSetc 3 31 11, .logicSel 3 31 30 29,
      .logicBop 3 31 30 29 2 true true, .logicQmul 3 31 30 29],
    let s := State.coreAtInstr i [(28, 5)] 0
    s.trap = none ∧ s.coreAt 3 7 i = true ∧ ((s.task 7).reg 30).toInt ≤ ((s.task 7).reg 29).toInt ∧
    ((s.task 7).reg 29).toInt < ((s.task 7).reg 28).toInt := by decide +kernel

theorem witness_LogicArithmeticLaw : (5 : Word) ≠ 0 ∧ ¬((7 : Word).toInt = -(2 ^ 31) ∧ (5 : Word).toInt = -1) ∧
    logicDiv (-7) 5 = -1 ∧ logicMod (-7) 5 = -2 ∧ Sparse.wf (fun _ => (0 : Word)) TaskCtx.zero.w = true ∧ 31 ≠ 0 := by decide +kernel

theorem witness_LogicFloatCompletes : ∀ i ∈ [Instr.logicFadd 3 31 30 29, .logicFsub 3 31 30 29, .logicFmul 3 31 30 29,
      .logicFdiv 3 31 30 29, .logicFcmp 3 31 30, .logicFcvt 3 31 30 3],
    let s := State.coreAtInstr i [(30, 0x3F800000)] 0
    s.trap = none ∧ s.coreAt 3 7 i = true := by decide +kernel

theorem witness_LogicInstancesComplete : ∀ i ∈ [Instr.logicGetd 3 31 false 1, .logicPutd 3 31 false 1, .logicGetd 3 31 true 31, .logicPutd 3 31 true 31, .logicGrp 3 31 1,
      .logicTmr 3 31 30 2 4095, .logicTpt 3 31 4095, .logicTrd 3 31 4095, .logicCnt 3 31 30 2 4095, .logicCpv 3 31 4095,
      .logicCrd 3 31 4095, .logicEdge 3 31 30 true 8191],
    let s := (State.coreAtInstr i [] 0xFF).setPbits (State.up.dirAt 1 0) 3 5 0x0A
    let s := s.setPbits (State.up.dirAt 0 0) 3 5 0x0A
    s.trap = none ∧ s.coreAt 3 7 i = true ∧ (s.task 7).sigIndex false 1 < s.sigCount ∧ s.sigSource 1 = 0x0A ∧
    (s.task 7).sigIndex true 31 = 0 ∧ s.sigSource 0 = 0x0A ∧
    Sparse.get (fun _ => 0) s.log.timerKinds 4095 = 0 := by decide +kernel

theorem witness_TimersAndCounters : 5 ≤ 5 ∧ -(2 ^ 31 : Int) ≤ 2 ^ 31 - 1 ∧
    timerEval 0 4 5 1 true false true true = (5, true, true) ∧ counterEval 2 (2 ^ 31 - 1) 0 true false false false = 2 ^ 31 - 1 := by
  decide +kernel

theorem witness_LogicCyclesComplete_start : let s := (State.coreOn 0 [] 0 1).modTask 7 fun c => { c with phase := 1 }
    s.running 11 = some 0 ∧ s.coreTask 3 = some 7 ∧ s.runs Vale.logic = true ∧ s.halted = false ∧ (s.task 7).phase = 1 ∧
    s.trap = none ∧ (let w := (s.noteDispatch 0 0).modTask 7 fun c => c.start 0
      w.trap = none ∧ w.time.phase ≠ .arrived ∧ (w.taskRead 7).trap = none) := by decide +kernel

theorem witness_LogicCyclesComplete_complete : let s := (State.coreOn 0 [] 0 1).modTask 7 fun c => { c with phase := 4 }
    s.running 11 = some 0 ∧ s.coreTask 3 = some 7 ∧ s.runs Vale.logic = true ∧ (s.task 7).phase = 4 ∧
    ((s.taskFlush 7).retainFlush 7 9).dispatch.trap = none := by decide +kernel

theorem witness_LogicCyclesComplete_open :
    let s := State.up.setFld LOG_EXCH_STAT.STATE 2
    let s := { s with time := { s.time with phase := .risen, tick := 5000 }, log := { s.log with reqNs := some 0 } }
    s.fld LOG_EXCH_STAT.STATE = 2 ∧ s.time.phase = .risen ∧ s.exchEligible s.time.tick = true ∧
    ((s.exchOpenAt s.time.tick).changeApply s.time.tick).trap = none := by decide +kernel

theorem witness_LogicCyclesComplete_exchange : State.up.powerFail = false ∧ State.up.exchOpen = false ∧
    State.up.exchRunning = false ∧ (State.up.setFld LOG_BANK.LOADED 1).flag LOG_BANK.LOADED = true ∧
    (State.up.setFld LOG_EXCH_STAT.STATE 1).exchOpen = true ∧ (State.up.setFld LOG_EXCH_STAT.STATE 1).exchMismatch = false ∧
    (let s := (State.up.setFld LOG_EXCH_STAT.STATE 1)
     let e : ExchEntry := { key := 1, kind := 0, task := 0, addr := 0, matched := true, init := [] }
     { s with log := { s.log with prog1 := { s.log.prog1 with table := [e] } } }.exchMismatch = true) := by decide +kernel

end Slice0Tests
end

section
/-!
PROOFS. Registers: the bits of a number that the model's `bitOf`, `bitsOf` and `putBits` speak of, what a write makes of a
field of each Type (R4), and the path of a register write (R5, R6, R17, R18).
-/

namespace Sys2Proof.Machine

/-! ## Bits of a number -/

/-- The bits of `m` that a mask `n` names and those that it leaves make up `m`. -/
theorem and_add_ldiff (m : Nat) : ∀ n : Nat, (m &&& n) + Nat.ldiff m n = m := by
  induction m using Nat.binaryRec' with
  | zero => intro n; simp [Nat.ldiff]
  | bit b m _ ih =>
    intro n
    have hn := ih (n / 2)
    rw [← Nat.bit_bodd_div2 n, Nat.land_bit, Nat.ldiff_bit]
    simp only [Nat.bit_val, Nat.div2_val]
    cases b <;> cases Nat.bodd n <;> simp <;> omega

/-- Taking the masked bits of `m` away clears exactly the bits of the mask. -/
theorem testBit_sub_and (m n k : Nat) : (m - (m &&& n)).testBit k = (m.testBit k && !n.testBit k) := by
  have h := and_add_ldiff m n
  rw [show m - (m &&& n) = Nat.ldiff m n by omega, Nat.testBit_ldiff]

theorem bitOf_eq_testBit (x k : Nat) : bitOf x k = x.testBit k := Nat.testBit_eq_decide_div_mod_eq.symm

/-- Bit `k` of a group of bits is the bit at its place in the number. -/
theorem bitOf_bitsOf (x lo w k : Nat) (h : k < w) : bitOf (bitsOf x lo w) k = bitOf x (lo + k) := by
  simp [bitOf_eq_testBit, bitsOf, Nat.testBit_mod_two_pow, Nat.testBit_div_two_pow, h, Nat.add_comm]

theorem bitOf_sub_and (m n k : Nat) : bitOf (m - (m &&& n)) k = (bitOf m k && !bitOf n k) := by
  simp [bitOf_eq_testBit, testBit_sub_and]

/-- Bits apart from the ones put in read as before. -/
theorem bitsOf_putBits_apart (x lo w v l n : Nat) (h : l + n ≤ lo ∨ lo + w ≤ l) :
    bitsOf (putBits x lo w v) l n = bitsOf x l n := by
  rcases h with below | above
  · exact bitsOf_putBits_below x lo w v l n below
  · exact bitsOf_putBits_above x lo w v l n above

/-! ## A field under a write (R4) -/

/-- The field takes the write's bits as they come, with the device open (`o`) and the writer privileged (`p`). -/
def FieldDesc.Takes (f : FieldDesc) (o p : Bool) : Prop :=
  f.typ = .rw ∨ f.typ = .wo ∨ (f.typ = .rwl ∧ o = true) ∨ (f.typ = .rwp ∧ p = true)

/-- The field stays as it is whatever is written. -/
def FieldDesc.Ignores (f : FieldDesc) (o p : Bool) : Prop :=
  f.typ = .ro ∨ f.typ = .w1s ∨ (f.typ = .rwl ∧ o = false) ∨ (f.typ = .rwp ∧ p = false)

theorem FieldDesc.takes_or_ignores_or_w1c (f : FieldDesc) (o p : Bool) : f.Takes o p ∨ f.Ignores o p ∨ f.typ = .w1c := by
  unfold FieldDesc.Takes FieldDesc.Ignores
  cases f.typ <;> cases o <;> cases p <;> simp

theorem fieldWrite_of_takes {o p : Bool} {f : FieldDesc} (w old : Nat) (h : f.Takes o p) :
    fieldWrite o p w old f = putBits old f.lo f.width (bitsOf w f.lo f.width) := by
  rcases h with h | h | ⟨h, rfl⟩ | ⟨h, rfl⟩ <;> simp [fieldWrite, h]

theorem fieldWrite_of_ignores {o p : Bool} {f : FieldDesc} (w old : Nat) (h : f.Ignores o p) :
    fieldWrite o p w old f = old := by
  rcases h with h | h | ⟨h, rfl⟩ | ⟨h, rfl⟩ <;> simp [fieldWrite, h]

theorem fieldWrite_of_w1c {f : FieldDesc} (o p : Bool) (w old : Nat) (h : f.typ = .w1c) :
    fieldWrite o p w old f = putBits old f.lo f.width
      (bitsOf old f.lo f.width - (bitsOf old f.lo f.width &&& bitsOf w f.lo f.width)) := by
  simp [fieldWrite, h]

/-- A write to a field puts some bits in the field's place, or leaves the word. -/
theorem fieldWrite_puts_or_keeps (o p : Bool) (w old : Nat) (f : FieldDesc) :
    (∃ v, fieldWrite o p w old f = putBits old f.lo f.width v) ∨ fieldWrite o p w old f = old := by
  rcases f.takes_or_ignores_or_w1c o p with h | h | h
  · exact .inl ⟨_, fieldWrite_of_takes w old h⟩
  · exact .inr (fieldWrite_of_ignores w old h)
  · exact .inl ⟨_, fieldWrite_of_w1c o p w old h⟩

theorem bitsOf_fieldWrite_of_takes {o p : Bool} {f : FieldDesc} (w old : Nat) (h : f.Takes o p) :
    bitsOf (fieldWrite o p w old f) f.lo f.width = bitsOf w f.lo f.width := by
  rw [fieldWrite_of_takes w old h, bitsOf_putBits_same, Nat.mod_eq_of_lt (bitsOf_lt w f.lo f.width)]

/-- A write to a W1C field leaves set the bits that were set and that it does not name. -/
theorem bitOf_fieldWrite_of_w1c {f : FieldDesc} (o p : Bool) (w old k : Nat) (h : f.typ = .w1c) (hk : k < f.width) :
    bitOf (fieldWrite o p w old f) (f.lo + k) = (bitOf old (f.lo + k) && !bitOf w (f.lo + k)) := by
  have left_lt : bitsOf old f.lo f.width - (bitsOf old f.lo f.width &&& bitsOf w f.lo f.width) < 2 ^ f.width :=
    (Nat.sub_le _ _).trans_lt (bitsOf_lt old f.lo f.width)
  rw [fieldWrite_of_w1c o p w old h, ← bitOf_bitsOf _ _ _ _ hk, bitsOf_putBits_same, Nat.mod_eq_of_lt left_lt,
    bitOf_sub_and, bitOf_bitsOf _ _ _ _ hk, bitOf_bitsOf _ _ _ _ hk]

theorem bitsOf_fieldWrite_apart (o p : Bool) (w old : Nat) (f : FieldDesc) (l n : Nat)
    (h : l + n ≤ f.lo ∨ f.lo + f.width ≤ l) : bitsOf (fieldWrite o p w old f) l n = bitsOf old l n := by
  rcases fieldWrite_puts_or_keeps o p w old f with ⟨v, hv⟩ | keeps
  · rw [hv, bitsOf_putBits_apart old f.lo f.width v l n h]
  · rw [keeps]

/-- Settles O10: a field is put, kept or cleared by its Type, and bits apart from the put ones stay. -/
theorem fieldWriteByType : Obligations.FieldWriteByType := by
  intro o p w old f _
  exact ⟨bitsOf_fieldWrite_of_takes w old, fieldWrite_of_ignores w old,
    fun h k hk => bitOf_fieldWrite_of_w1c o p w old k h hk, bitsOf_fieldWrite_apart o p w old f⟩

/-! ## The path of a register write (R5, R6, R17, R18) -/

theorem awake_of_not_stopped {s : State} (cause : Nat) (f : State → State) (h : s.pwr.stopped = 0) :
    s.awake cause f = f s := if_pos h

/-- On a running device with no vale stopped, a write reaches its register at once. -/
theorem regWrite_of_running {s : State} (a : Nat) (w : Word) (p : Bool) (run : s.vales.phase = .running)
    (awake : s.pwr.stopped = 0) : s.regWrite a w p = s.regWriteIn a w p := by
  simp [State.regWrite, run, awake_of_not_stopped 2 _ awake]

/-- What REGISTER_WRITE answers on a running device where the write meets no undefined case. -/
theorem exec_registerWrite_next {s t : State} (a : Nat) (w : Word) (p : Bool) (run : s.vales.phase = .running)
    (awake : s.pwr.stopped = 0) (into : s.regWriteIn a w p = t) (free : t.trap = none) :
    exec (.registerWrite a w p) s = .next t := by
  rw [exec_registerWrite, execRegisterWrite, regWrite_of_running a w p run awake, into, done_next free]

/-- An address that holds no register ignores writes (R6). -/
theorem regWriteIn_of_no_register (s : State) {a : Nat} (w : Word) (p : Bool) (h : regAt a = none) :
    s.regWriteIn a w p = s := by
  simp [State.regWriteIn, h]

/-- A vale in reset drops the write (R18). -/
theorem regWriteIn_of_dropped {s : State} {a : Nat} {d : RegDesc} (w : Word) (p : Bool) (h : regAt a = some d)
    (drop : s.regDropped a = true) : s.regWriteIn a w p = s.dropReq := by
  simp [State.regWriteIn, h, drop]

/-- The word of register `a`, of fields `fs`, after a write of `w`: each field by its Type, in turn. -/
def State.writtenWord (s : State) (fs : List FieldDesc) (a : Nat) (w : Word) (p : Bool) : Nat :=
  fs.foldl (fieldWrite (!s.committed && a != HST_CFG) p w.toNat) (s.reg a).toNat

/-- The register `a` of `d` with its fields written and those that read 0 cleared, before any command it gives. -/
def State.fieldsWritten (s : State) (d : RegDesc) (a : Nat) (w : Word) (p : Bool) : State :=
  let r := if d.has .rwp && !p then s.notPriv else s
  (r.setReg a (BitVec.ofNat 32 (s.writtenWord d.fields a w p))).zeroFields a

/-- A write that is taken leaves the fields, then runs the commands that any writer and that a privileged one may give. -/
theorem regWriteIn_of_taken {s : State} {a : Nat} {d : RegDesc} (w : Word) (p : Bool) (h : regAt a = some d)
    (take : s.regDropped a = false) (priv : blockOf a = 27 → p = true) (plain : selfStored a = false) :
    s.regWriteIn a w p =
      let t := (s.fieldsWritten d a w p).regOpen s a w.toNat
      if p then t.regPriv s a w.toNat else t := by
  have allowed : (blockOf a = 27 && !p) = false := by
    cases p
    · simpa using priv
    · simp
  simp only [State.regWriteIn, h, take, allowed, plain, Bool.false_eq_true, if_false]
  rfl

/-- No undefined case counts as met by the drop of a request. -/
theorem dropReq_trap (s : State) : s.dropReq.trap = s.trap := rfl

/-- Settles O11: the three ways of a write that reaches its block at once: taken, to no register, and dropped. -/
theorem registerWriteCompletes : Obligations.RegisterWriteCompletes := by
  intro a w p s run awake
  refine ⟨fun d h take priv plain free => ?_, fun h free => ?_, fun d h drop free => ?_⟩
  · exact exec_registerWrite_next a w p run awake (regWriteIn_of_taken w p h take priv plain) free
  · exact exec_registerWrite_next a w p run awake (regWriteIn_of_no_register s w p h) free
  · exact exec_registerWrite_next a w p run awake (regWriteIn_of_dropped w p h drop) ((dropReq_trap s).trans free)

end Sys2Proof.Machine
end

section
/-!
PROOFS. Resets, clocks and col stalls: what a reset of the die leaves in each part of the state (R33), the commands that
reset it, those that give the clocks back (R13, R14, R35), and the col stall record (R19).
-/

namespace Sys2Proof.Machine

/-! ## The retained store's write under way (R218) -/

/-- The write that completes before a reset changes the retained store only. -/
theorem finishLine_frame (s : State) : s.finishLine = { s with retained := s.finishLine.retained } := by
  unfold State.finishLine
  split
  · split <;> rfl
  · rfl

@[simp] theorem State.finishLine_regs (s : State) : s.finishLine.regs = s.regs := by rw [finishLine_frame]
@[simp] theorem State.finishLine_plain (s : State) : s.finishLine.plain = s.plain := by rw [finishLine_frame]
@[simp] theorem State.finishLine_time (s : State) : s.finishLine.time = s.time := by rw [finishLine_frame]
@[simp] theorem State.finishLine_saf (s : State) : s.finishLine.saf = s.saf := by rw [finishLine_frame]
@[simp] theorem State.finishLine_sec (s : State) : s.finishLine.sec = s.sec := by rw [finishLine_frame]

@[simp] theorem finishLine_reg (s : State) (a : Nat) : s.finishLine.reg a = s.reg a := by
  rw [State.reg, State.finishLine_regs, State.reg]

@[simp] theorem finishLine_fld (s : State) (f : Fld) : s.finishLine.fld f = s.fld f := by
  rw [State.fld, finishLine_reg, State.fld]

/-! ## The registers after a reset (R33) -/

/-- The state with the registers that a reset of kind `k` keeps whole, every other one at its reset value. -/
def State.keepRegs (s : State) (k : ResetKind) : State := { s with regs := s.regs.filter fun p => k.keeps p.1 }

/-- The state `t` with the fields that a reset other than POR holds in other registers: the causes of `s` with that of
`k`, and the valid bit, the power-fail count and the lockout of `s`. -/
def State.holdFields (t s : State) (k : ResetKind) : State :=
  ((((t.setReg SYS_RST_CAUSE (s.reg SYS_RST_CAUSE)).setBit ⟨SYS_RST_CAUSE, 0, 6⟩ k.bit).setFld TIM_STAT.VALID
    (s.fld TIM_STAT.VALID)).setFld JRN_STAT.PF (s.fld JRN_STAT.PF)).setFld DBG_STAT.LOCKOUT (s.fld DBG_STAT.LOCKOUT)

theorem resetRegs_por (s : State) : s.resetRegs .por = s.keepRegs .por := rfl

theorem resetRegs_of_ne_por (s : State) {k : ResetKind} (h : k ≠ .por) :
    s.resetRegs k = (s.keepRegs k).holdFields s k := if_neg h

theorem reg_keepRegs (s : State) (k : ResetKind) (a : Nat) :
    (s.keepRegs k).reg a = if k.keeps a then s.reg a else resetValue a := get_filter resetValue k.keeps s.regs a

theorem canonical_keepRegs {s : State} (k : ResetKind) (h : s.canonical = true) : (s.keepRegs k).canonical = true := by
  simp only [State.canonical, Bool.and_eq_true] at *
  exact ⟨h.1, wf_filter _ _ _ h.2⟩

theorem reg_holdFields_other (t s : State) (k : ResetKind) {a : Nat}
    (h : a ∉ [SYS_RST_CAUSE, TIM_STAT, JRN_STAT, DBG_STAT]) : (t.holdFields s k).reg a = t.reg a := by
  obtain ⟨cause, tim, jrn, dbg⟩ : a ≠ SYS_RST_CAUSE ∧ a ≠ TIM_STAT ∧ a ≠ JRN_STAT ∧ a ≠ DBG_STAT := by simpa using h
  rw [State.holdFields, reg_setFld_other _ _ _ _ dbg, reg_setFld_other _ _ _ _ jrn, reg_setFld_other _ _ _ _ tim,
    State.setBit, reg_setFld_other _ _ _ _ cause, reg_setReg_other _ _ _ _ cause]

/-- A field given the value that it has in `s` reads as in `s`. -/
theorem fld_setFld_fld {t : State} (s : State) (f : Fld) (h : t.canonical = true) (hf : f.lo + f.width ≤ 32) :
    (t.setFld f (s.fld f)).fld f = s.fld f :=
  (fld_setFld_same t f _ h hf).trans (Nat.mod_eq_of_lt (bitsOf_lt _ _ _))

/-- A field of one register reads as before a write to a field of another. -/
theorem fld_setFld_apart (s : State) {f g : Fld} (v : Nat) (h : g.addr ≠ f.addr) : (s.setFld f v).fld g = s.fld g := by
  rw [State.fld, reg_setFld_other _ _ _ _ h, State.fld]

/-- What the held fields read after they are put back. -/
theorem fld_holdFields {t : State} (s : State) (k : ResetKind) (h : t.canonical = true) :
    (t.holdFields s k).fld ⟨SYS_RST_CAUSE, 0, 6⟩ = putBits (s.fld ⟨SYS_RST_CAUSE, 0, 6⟩) k.bit 1 1 % 64 ∧
    (t.holdFields s k).fld TIM_STAT.VALID = s.fld TIM_STAT.VALID ∧
    (t.holdFields s k).fld JRN_STAT.PF = s.fld JRN_STAT.PF ∧
    (t.holdFields s k).fld DBG_STAT.LOCKOUT = s.fld DBG_STAT.LOCKOUT := by
  have causes := canonical_setReg SYS_RST_CAUSE (s.reg SYS_RST_CAUSE) h
  have withCause : ((t.setReg SYS_RST_CAUSE (s.reg SYS_RST_CAUSE)).setBit ⟨SYS_RST_CAUSE, 0, 6⟩ k.bit).canonical = true :=
    canonical_setFld _ _ causes
  have withValid := canonical_setFld TIM_STAT.VALID (s.fld TIM_STAT.VALID) withCause
  have withCount := canonical_setFld JRN_STAT.PF (s.fld JRN_STAT.PF) withValid
  have cause : (t.setReg SYS_RST_CAUSE (s.reg SYS_RST_CAUSE)).fld ⟨SYS_RST_CAUSE, 0, 6⟩ = s.fld ⟨SYS_RST_CAUSE, 0, 6⟩ := by
    rw [State.fld, reg_setReg_same t _ _ h, State.fld]
  refine ⟨?_, ?_, ?_, ?_⟩
  · rw [State.holdFields, fld_setFld_apart _ _ (by decide), fld_setFld_apart _ _ (by decide),
      fld_setFld_apart _ _ (by decide), State.setBit, fld_setFld_same _ _ _ causes (by decide), cause]
    rfl
  · rw [State.holdFields, fld_setFld_apart _ _ (by decide), fld_setFld_apart _ _ (by decide),
      fld_setFld_fld _ _ withCause (by decide)]
  · rw [State.holdFields, fld_setFld_apart _ _ (by decide), fld_setFld_fld _ _ withValid (by decide)]
  · exact fld_setFld_fld _ _ withCount (by decide)

theorem resetRegs_only (s : State) (k : ResetKind) : OnlyRegs s (s.resetRegs k) := by
  by_cases h : k = .por
  · rw [h, resetRegs_por]; rfl
  · rw [resetRegs_of_ne_por s h]; rfl

/-- A register apart from those with held fields. -/
theorem reg_resetRegs (s : State) (k : ResetKind) {a : Nat} (h : a ∉ [SYS_RST_CAUSE, TIM_STAT, JRN_STAT, DBG_STAT]) :
    (s.resetRegs k).reg a = if k.keeps a then s.reg a else resetValue a := by
  by_cases por : k = .por
  · rw [por, resetRegs_por, reg_keepRegs]
  · rw [resetRegs_of_ne_por s por, reg_holdFields_other _ _ _ h, reg_keepRegs]

/-! ## The parts of the state after a reset -/

theorem OnlyRegs.plain {s t : State} (h : OnlyRegs s t) : t.plain = s.plain := by rw [OnlyRegs] at h; rw [h]
theorem OnlyRegs.retained {s t : State} (h : OnlyRegs s t) : t.retained = s.retained := by rw [OnlyRegs] at h; rw [h]
theorem OnlyRegs.vales {s t : State} (h : OnlyRegs s t) : t.vales = s.vales := by rw [OnlyRegs] at h; rw [h]
theorem OnlyRegs.time {s t : State} (h : OnlyRegs s t) : t.time = s.time := by rw [OnlyRegs] at h; rw [h]
theorem OnlyRegs.saf {s t : State} (h : OnlyRegs s t) : t.saf = s.saf := by rw [OnlyRegs] at h; rw [h]
theorem OnlyRegs.sec {s t : State} (h : OnlyRegs s t) : t.sec = s.sec := by rw [OnlyRegs] at h; rw [h]

section DieReset

variable (s : State) (k : ResetKind)

/-- A reset of the die but for the register table, which is still as it was. -/
def State.resetParts : State :=
  { State.reset with
    regs := s.regs, plain := if k = .por || k = .hib then [] else s.plain, retained := s.retained, unitc := s.unitc,
    vales := s.resetVales k, time := s.resetTime k, sec := s.resetSec k, saf := { s.saf with gate := [] },
    jrn := { State.reset.jrn with kept := s.jrn.kept, pfail := s.jrn.pfail },
    pwr := if k = .hib then s.pwr else PwrState.zero, free := s.free, trap := s.trap, pending := s.pending }

/-- A reset of the die: the write under way completes, then the parts change, then the registers. -/
theorem dieReset_eq : s.dieReset k = (s.finishLine.resetParts k).resetRegs k := rfl

theorem dieReset_only : OnlyRegs (s.finishLine.resetParts k) (s.dieReset k) := resetRegs_only _ k

theorem resetParts_reg (a : Nat) : (s.resetParts k).reg a = s.reg a := rfl

theorem resetParts_fld (f : Fld) : (s.resetParts k).fld f = s.fld f := rfl

theorem canonical_resetParts (h : s.canonical = true) : (s.resetParts k).canonical = true := by
  simp only [State.canonical, Bool.and_eq_true] at h ⊢
  obtain ⟨⟨plain, retained⟩, regs⟩ := h
  refine ⟨⟨?_, retained⟩, regs⟩
  unfold State.resetParts
  split
  · rfl
  · exact plain

/-- A register apart from those with held fields keeps its word where the reset keeps it (R33). -/
theorem reg_dieReset {a : Nat} (h : a ∉ [SYS_RST_CAUSE, TIM_STAT, JRN_STAT, DBG_STAT]) :
    (s.dieReset k).reg a = if k.keeps a then s.reg a else resetValue a := by
  rw [dieReset_eq, reg_resetRegs _ k h, resetParts_reg, finishLine_reg]

/-- The held fields after a reset other than POR (R33). -/
theorem fld_dieReset_held (h : s.canonical = true) (notPor : k ≠ .por) :
    (s.dieReset k).fld ⟨SYS_RST_CAUSE, 0, 6⟩ = putBits (s.fld ⟨SYS_RST_CAUSE, 0, 6⟩) k.bit 1 1 % 64 ∧
    (s.dieReset k).fld TIM_STAT.VALID = s.fld TIM_STAT.VALID ∧
    (s.dieReset k).fld JRN_STAT.PF = s.fld JRN_STAT.PF ∧
    (s.dieReset k).fld DBG_STAT.LOCKOUT = s.fld DBG_STAT.LOCKOUT := by
  have finished := canonical_resetParts _ k ((State.finishLine_still s).1.1 h)
  rw [dieReset_eq, resetRegs_of_ne_por _ notPor]
  simpa only [resetParts_fld, finishLine_fld] using
    fld_holdFields (s.finishLine.resetParts k) k (canonical_keepRegs k finished)

theorem dieReset_phase : (s.dieReset k).vales.phase = .held := by rw [(dieReset_only s k).vales]; rfl

theorem dieReset_saf : (s.dieReset k).saf = { s.saf with gate := [] } := by
  rw [(dieReset_only s k).saf, State.resetParts, State.finishLine_saf]

theorem dieReset_retained : (s.dieReset k).retained = s.finishLine.retained := (dieReset_only s k).retained

theorem dieReset_plain : (s.dieReset k).plain = if k = .por ∨ k = .hib then [] else s.plain := by
  rw [(dieReset_only s k).plain]
  simp [State.resetParts]

theorem dieReset_sec : (s.dieReset k).sec = s.resetSec k := by
  rw [(dieReset_only s k).sec, State.resetParts, State.resetSec, State.finishLine_sec, State.resetSec]

theorem resetTime_now : (s.resetTime k).now = if k = .por then 0 else s.time.now := by
  cases k <;> rfl

/-- The time counter is kept by every reset but POR, which holds it at 0 (R360). -/
theorem dieReset_now : (s.dieReset k).time.now = if k = .por then 0 else s.time.now := by
  rw [(dieReset_only s k).time, State.resetParts, resetTime_now, State.finishLine_time]

end DieReset

/-- Settles O7: each part of a reset by the lemma that says what the reset leaves there. -/
theorem resetKeepsTheHeldItems : Obligations.ResetKeepsTheHeldItems := by
  intro k s
  have sec := dieReset_sec s k
  exact ⟨dieReset_phase s k, dieReset_saf s k, dieReset_retained s k, dieReset_plain s k, by rw [sec]; rfl,
    by rw [sec]; rfl, by rw [sec]; rfl, by rw [sec]; rfl, dieReset_now s k,
    fun _ other => reg_dieReset s k other, fld_dieReset_held s k⟩

/-! ## The commands that reset the die (R13, R33) -/

/-- Register commands have their effect on a running device outside POWER_FAIL. -/
theorem cmdOpen_iff (s : State) : s.cmdOpen = true ↔ s.vales.phase = .running ∧ s.powerFail = false := by
  simp [State.cmdOpen]

/-- Settles O6: POR, PIN_RESET and XIN_STOP always reset, the other three under their condition. -/
theorem resetsComplete : Obligations.ResetsComplete := by
  intro s
  refine ⟨exec_por s, exec_pinReset s, fun run up => ?_, fun run => ?_, exec_xinStop s, fun level run => ?_⟩
  · rw [exec_softReset, execSoftReset, if_pos ((cmdOpen_iff s).2 ⟨run, up⟩)]
  · rw [exec_clockReset, execClockReset, if_neg (by simp [run])]
  · rw [exec_debugReset, execDebugReset, if_pos (by simp [level, run])]

/-! ## Release, and the clocks' return (R13, R14, R35) -/

/-- RESET_RELEASE releases a device that nothing holds in reset any more. -/
theorem execResetRelease_of_free {s : State} (bootSel cascPos : Nat) (pairRole : Bool) (held : s.vales.phase = .held)
    (xin : s.vales.xinStopped = false) (pll : s.vales.pllUnlocked = false) (power : s.jrn.pfail = false) :
    execResetRelease bootSel cascPos pairRole s = .next (s.release_ bootSel cascPos pairRole) := by
  simp [execResetRelease, held, xin, pll, power]

/-- PLL_LOCK lets a released device run. -/
theorem execPllLock_of_released {s : State} (xin : s.vales.xinStopped = false) (released : s.vales.phase = .released) :
    execPllLock s = .next ((s.setFld CLK_PLL_STAT.CPLL_LOCK 1).setFld CLK_PLL_STAT.HPLL_LOCK 1).goRunning := by
  simp [execPllLock, xin, released]

/-- PLL_LOCK ends the cause of a CLOCK reset. -/
theorem execPllLock_of_held {s : State} (xin : s.vales.xinStopped = false) (held : s.vales.phase = .held)
    (pll : s.vales.pllUnlocked = true) :
    execPllLock s = .next { (s.setFld CLK_PLL_STAT.CPLL_LOCK 1).setFld CLK_PLL_STAT.HPLL_LOCK 1 with
      vales := { s.vales with pllUnlocked := false } } := by
  simp [execPllLock, xin, held, pll]

/-! ## Col stalls (R19) -/

/-- The state with the stall of an entry of col pair `pair`, direction `dir`, recorded. -/
def State.recordStall (s : State) (pair : Nat) (dir : Bool) : State :=
  ((s.setFld CLK_COL_STALL.STALL 1).setFld CLK_COL_STALL.DIR (b2n dir)).setFld CLK_COL_STALL.PAIR pair

/-- COL_STALL records the stall where none is recorded. -/
theorem exec_colStall_first {s : State} (pair : Nat) (dir : Bool) (first : s.flag CLK_COL_STALL.STALL = false) :
    exec (.colStall pair dir) s = .next (s.recordStall pair dir) := by
  rw [exec_colStall, execColStall, first]
  rfl

theorem recordStall_only (s : State) (pair : Nat) (dir : Bool) : OnlyRegs s (s.recordStall pair dir) := rfl

theorem reg_recordStall_other (s : State) (pair : Nat) (dir : Bool) {a : Nat} (h : a ≠ CLK_COL_STALL) :
    (s.recordStall pair dir).reg a = s.reg a := by
  rw [State.recordStall, reg_setFld_other _ _ _ _ h, reg_setFld_other _ _ _ _ h, reg_setFld_other _ _ _ _ h]

/-- What the record reads. -/
theorem fld_recordStall {s : State} (pair : Nat) (dir : Bool) (h : s.canonical = true) :
    (s.recordStall pair dir).fld CLK_COL_STALL.STALL = 1 ∧ (s.recordStall pair dir).fld CLK_COL_STALL.DIR = b2n dir ∧
      (s.recordStall pair dir).fld CLK_COL_STALL.PAIR = pair % 2 ^ CLK_COL_STALL.PAIR.width := by
  have withStall := canonical_setFld CLK_COL_STALL.STALL 1 h
  have withDir := canonical_setFld CLK_COL_STALL.DIR (b2n dir) withStall
  refine ⟨?_, ?_, fld_setFld_same _ _ _ withDir (by decide)⟩
  · rw [State.recordStall, fld_setFld_other _ _ _ _ withDir (by decide) (by decide),
      fld_setFld_other _ _ _ _ withStall (by decide) (by decide), fld_setFld_same _ _ _ h (by decide)]
    rfl
  · rw [State.recordStall, fld_setFld_other _ _ _ _ withDir (by decide) (by decide),
      fld_setFld_same _ _ _ withStall (by decide)]
    cases dir <;> rfl

/-- Settles O19: the first stall's record, and nothing else. -/
theorem colStallRecorded : Obligations.ColStallRecorded := by
  intro pair dir s canonical first
  exact ⟨_, exec_colStall_first pair dir first, recordStall_only s pair dir,
    fun a other => reg_recordStall_other s pair dir (by simpa using other), fld_recordStall pair dir canonical⟩

/-- Settles O8: each command under its condition. -/
theorem clocksAndStallsComplete : Obligations.ClocksAndStallsComplete := by
  refine ⟨exec_xinReturn, fun b c p s held xin pll power => ?_, fun s xin released => ?_, fun s xin held pll => ?_,
    exec_serdesPllLoss, exec_spllLock, fun pair dir s first => exec_colStall_first pair dir first, exec_colStallClear⟩
  · rw [exec_resetRelease, execResetRelease_of_free b c p held xin pll power]
  · rw [exec_pllLock, execPllLock_of_released xin released]
  · rw [exec_pllLock, execPllLock_of_held xin held pll]

end Sys2Proof.Machine
end

section
/-!
PROOFS. The control tick: each mark of the tick at the phase that it follows (R22 to R30).
-/

namespace Sys2Proof.Machine

/-- Settles O9: past the phase that guards it, each mark answers the state its parts make; the four that can meet an
undefined case go on where they met none, and OUTPUT_PREFETCH meets none. -/
theorem tickMarksComplete : Obligations.TickMarksComplete := by
  refine ⟨fun s due => ?_, fun lines late s risen run => ?_, fun skips missed s arrived => ?_, fun s closed => ?_,
    fun unit s phase => ?_⟩
  · intro r t free
    rw [exec_tickStrobe, execTickStrobe, if_neg (by simp [due])]
    exact done_next free
  · intro t free
    rw [exec_strobeArrival, execStrobeArrival, if_neg (by simp [risen, run])]
    exact done_next free
  · intro a b t l u free
    rw [exec_inputClose, execInputClose, if_neg (by simp [arrived])]
    exact done_next free
  · intro a t free
    rw [exec_outputClose, execOutputClose, if_neg (by simp [closed])]
    exact done_next free
  · intro t
    rw [exec_outputPrefetch, execOutputPrefetch, if_neg (by rcases phase with h | h <;> simp [h])]

end Sys2Proof.Machine
end

section
/-!
PROOFS. Sharing the Plain: the lines of a longer access, the banks, and the commands of the fabric (R37, R38, R44 to R46).
-/

namespace Sys2Proof.Machine

/-! ## The lines of a longer access (R37) -/

/-- The bytes of an access of `n` bytes at `a` that lie in the line of `a`. -/
def lineLen (a n : Nat) : Nat := min n (64 - a % 64)

theorem lineLen_le (a n : Nat) : lineLen a n ≤ n := min_le_left _ _

theorem lineLen_pos {a n : Nat} (h : 0 < n) : 0 < lineLen a n := by
  unfold lineLen
  omega

/-- The transaction of the bytes of `bs` that lie in the line of `a`. -/
def lineTxn (port req : Nat) (wr : Bool) (a : Nat) (bs : List Byte) : Txn :=
  { port := port, requester := req, addr := a, isWrite := wr, bytes := bs.take (lineLen a bs.length),
    len := lineLen a bs.length }

section SplitLines

variable (port req : Nat) (wr : Bool)

theorem splitLines_nil (f a : Nat) : splitLines port req wr f a [] 0 = [] := by
  cases f <;> rfl

theorem splitLines_of_ne_nil (f a : Nat) {bs : List Byte} (h : bs ≠ []) :
    splitLines port req wr (f + 1) a bs bs.length = lineTxn port req wr a bs ::
      splitLines port req wr f (a + lineLen a bs.length) (bs.drop (lineLen a bs.length))
        (bs.drop (lineLen a bs.length)).length := by
  rw [splitLines, if_neg (by simpa using h), List.length_drop]
  rfl

/-- What holds of no lines for no bytes, and goes from the lines after the first to all of them, holds of the lines of
every access. -/
theorem splitLines_induction {motive : Nat → List Byte → List Txn → Prop} (nil : ∀ a, motive a [] [])
    (cons : ∀ a bs ts, 0 < bs.length → motive (a + lineLen a bs.length) (bs.drop (lineLen a bs.length)) ts →
      motive a bs (lineTxn port req wr a bs :: ts)) :
    ∀ (f a : Nat) (bs : List Byte), bs.length ≤ f → motive a bs (splitLines port req wr f a bs bs.length) := by
  intro f
  induction f with
  | zero =>
    intro a bs fuel
    obtain rfl : bs = [] := by simpa using fuel
    exact nil a
  | succ f ih =>
    intro a bs fuel
    by_cases empty : bs = []
    · subst empty
      rw [List.length_nil, splitLines_nil]
      exact nil a
    · have pos : 0 < bs.length := List.length_pos_iff.2 empty
      rw [splitLines_of_ne_nil port req wr f a empty]
      refine cons a bs _ pos (ih _ _ ?_)
      have := lineLen_pos (a := a) pos
      rw [List.length_drop]
      omega

/-- A transaction of 1 to 64 bytes within one line, with a byte of data for each. -/
def Txn.InOneLine (t : Txn) : Prop :=
  1 ≤ t.len ∧ t.len ≤ 64 ∧ t.addr / 64 = (t.addr + t.len - 1) / 64 ∧ t.bytes.length = t.len

theorem lineTxn_inOneLine (a : Nat) {bs : List Byte} (h : 0 < bs.length) : (lineTxn port req wr a bs).InOneLine := by
  have size := lineLen_pos (a := a) h
  refine ⟨size, ?_, ?_, ?_⟩
  · simp only [lineTxn, lineLen]
    omega
  · simp only [lineTxn, lineLen] at size ⊢
    omega
  · exact (List.length_take).trans (min_eq_left (lineLen_le a bs.length))

theorem splitLines_inOneLine (f a : Nat) (bs : List Byte) (fuel : bs.length ≤ f) :
    ∀ t ∈ splitLines port req wr f a bs bs.length,
      t.InOneLine ∧ t.port = port ∧ t.requester = req ∧ t.isWrite = wr := by
  refine splitLines_induction port req wr (motive := fun _ _ ts => ∀ t ∈ ts,
    t.InOneLine ∧ t.port = port ∧ t.requester = req ∧ t.isWrite = wr) (by simp) ?_ f a bs fuel
  intro a bs ts pos rest
  exact List.forall_mem_cons.2 ⟨⟨lineTxn_inOneLine port req wr a pos, rfl, rfl, rfl⟩, rest⟩

/-- The addresses that a transaction names. -/
def Txn.addrs (t : Txn) : List Nat := (List.range t.len).map fun k => t.addr + k

/-- The addresses of `n` bytes at `a` are those of the first `k` and those of the rest. -/
theorem range_map_add_split (a : Nat) {k n : Nat} (h : k ≤ n) :
    (List.range n).map (a + ·) = (List.range k).map (a + ·) ++ (List.range (n - k)).map (a + k + ·) := by
  conv_lhs => rw [← Nat.add_sub_cancel' h, List.range_add]
  simp [Function.comp_def, Nat.add_assoc]

theorem splitLines_addrs (f a : Nat) (bs : List Byte) (fuel : bs.length ≤ f) :
    (splitLines port req wr f a bs bs.length).flatMap Txn.addrs = (List.range bs.length).map (a + ·) := by
  refine splitLines_induction port req wr
    (motive := fun a bs ts => ts.flatMap Txn.addrs = (List.range bs.length).map (a + ·)) (fun _ => rfl) ?_ f a bs fuel
  intro a bs ts _ rest
  rw [List.flatMap_cons, rest, range_map_add_split a (lineLen_le a bs.length), List.length_drop]
  rfl

theorem splitLines_bytes (f a : Nat) (bs : List Byte) (fuel : bs.length ≤ f) :
    (splitLines port req wr f a bs bs.length).flatMap Txn.bytes = bs := by
  refine splitLines_induction port req wr (motive := fun _ bs ts => ts.flatMap Txn.bytes = bs) (fun _ => rfl) ?_
    f a bs fuel
  intro a bs ts _ rest
  rw [List.flatMap_cons, rest]
  exact List.take_append_drop _ bs

/-- An address of the access past the bytes in the line of `a` lies in a later line. -/
theorem line_lt_of_past {a n x : Nat} (past : a + lineLen a n ≤ x) (within : x < a + n) : a / 64 < x / 64 := by
  unfold lineLen at past
  omega

/-- Each transaction starts within the access, in a later line than those before it. -/
theorem splitLines_ascend (f a : Nat) (bs : List Byte) (fuel : bs.length ≤ f) :
    (∀ t ∈ splitLines port req wr f a bs bs.length, a ≤ t.addr ∧ t.addr < a + bs.length) ∧
      (splitLines port req wr f a bs bs.length).Pairwise fun t u => t.addr / 64 < u.addr / 64 := by
  refine splitLines_induction port req wr (motive := fun a bs ts =>
    (∀ t ∈ ts, a ≤ t.addr ∧ t.addr < a + bs.length) ∧ ts.Pairwise fun t u => t.addr / 64 < u.addr / 64)
    (by simp) ?_ f a bs fuel
  rintro a bs ts pos ⟨within, ascend⟩
  have past : ∀ t ∈ ts, a + lineLen a bs.length ≤ t.addr ∧ t.addr < a + bs.length := by
    intro t mem
    have := within t mem
    rw [List.length_drop] at this
    omega
  refine ⟨List.forall_mem_cons.2 ⟨⟨le_refl a, Nat.lt_add_of_pos_right pos⟩, fun t mem => ?_⟩,
    List.pairwise_cons.2 ⟨fun t mem => ?_, ascend⟩⟩
  · obtain ⟨after, before⟩ := past t mem
    exact ⟨(Nat.le_add_right _ _).trans after, before⟩
  · obtain ⟨after, before⟩ := past t mem
    exact line_lt_of_past after before

end SplitLines

/-- Settles O13: by induction over the lines. -/
theorem splitLinesPartition : Obligations.SplitLinesPartition := by
  rintro port req a _ wr bs rfl
  have fuel := Nat.le_succ bs.length
  refine ⟨fun t mem => ?_, splitLines_addrs port req wr _ a bs fuel, splitLines_bytes port req wr _ a bs fuel,
    (splitLines_ascend port req wr _ a bs fuel).2.imp fun later => later.ne⟩
  obtain ⟨⟨pos, le, line, data⟩, sent⟩ := splitLines_inOneLine port req wr _ a bs fuel t mem
  exact ⟨pos, le, line, data, sent⟩

/-! ## The banks (R38, R41) -/

/-- Outside the safety window the bank is the xor of R38. -/
theorem bankOf_eq_xor {a : Nat} (h : inWindow a = false) :
    bankOf a = (a / 2 ^ 6 % 64) ^^^ (a / 2 ^ 12 % 64) ^^^ (a / 2 ^ 18 % 64) ^^^ (a / 2 ^ 24 % 2) := by
  simp [bankOf, h, bitsOf]

/-- The address bits above a page that permute the order of its lines. -/
def pageXor (page : Nat) : Nat := page % 64 ^^^ page / 2 ^ 6 % 64 ^^^ page / 2 ^ 12 % 2

/-- Outside the safety window a byte's bank is its line in the page, permuted by the page. -/
theorem bankOf_eq_line_xor_page {a : Nat} (h : inWindow a = false) : bankOf a = a / 64 % 64 ^^^ pageXor (a / 4096) := by
  rw [bankOf_eq_xor h]
  simp [pageXor, Nat.div_div_eq_div_mul, Nat.xor_assoc]

/-- Within a page a bank names one line, and a line one bank. -/
theorem bankOf_eq_iff_of_page {a b : Nat} (ha : inWindow a = false) (hb : inWindow b = false)
    (page : a / 4096 = b / 4096) : bankOf a = bankOf b ↔ a / 64 = b / 64 := by
  rw [bankOf_eq_line_xor_page ha, bankOf_eq_line_xor_page hb, page, Nat.xor_left_inj]
  omega

theorem bankOf_lt {a : Nat} (h : inWindow a = false) : bankOf a < 64 := by
  have below {x y : Nat} : x < 2 ^ 6 → y < 2 ^ 6 → x ^^^ y < 2 ^ 6 := Nat.xor_lt_two_pow
  rw [bankOf_eq_xor h]
  exact below (below (below (by omega) (by omega)) (by omega)) (by omega)

/-- Settles O14: within a page the bank is the line's number xor a constant of the page. -/
theorem bankMappingOneToOne : Obligations.BankMappingOneToOne := by
  intro a b _ _ ha hb
  refine ⟨bankOf_eq_xor ha, bankOf_lt ha, fun bank page offset => ?_, fun page lines bank => ?_⟩
  · have line := (bankOf_eq_iff_of_page ha hb page).1 bank
    omega
  · exact lines ((bankOf_eq_iff_of_page ha hb page).1 bank)

/-! ## The commands of the fabric (R37, R44 to R46) -/

/-- A range within the Plain or within the retained store has both its ends there. -/
theorem plain_or_ret_ends {a n : Nat} (pos : 0 < n)
    (within : 0x80000000 ≤ a ∧ a + n ≤ 0x82000000 ∨ 0x90000000 ≤ a ∧ a + n ≤ 0x91000000) :
    ((isPlainAddr a && isPlainAddr (a + n - 1)) || (isRetAddr a && isRetAddr (a + n - 1))) = true := by
  simp only [isPlainAddr, isRetAddr, Bool.or_eq_true, Bool.and_eq_true, decide_eq_true_eq]
  omega

theorem present_trap (s : State) (p : Nat) (ts : List Txn) : (s.present p ts).trap = s.trap := rfl

/-- A running fabric presents the transactions of an access that lies in one of its two memories. -/
theorem execPlainTransaction_of_running {s : State} {port n : Nat} (req : Nat) {addr : Nat} (wr : Bool) (data : List Byte)
    (len : Nat) (size : (if wr then data.length else len) = n) (hport : port < 24) (awake : s.pwr.stopped = 0)
    (run : s.runs Vale.fabric = true) (free : s.trap = none) (pos : 0 < n)
    (within : 0x80000000 ≤ addr ∧ addr + n ≤ 0x82000000 ∨ 0x90000000 ≤ addr ∧ addr + n ≤ 0x91000000) :
    execPlainTransaction port req addr wr data len s =
      .next (s.present port (splitLines port req wr (n + 1) addr data n)) := by
  have takes : (decide (24 ≤ port) || decide (n = 0)) = false := by simp [hport, pos.ne']
  rw [execPlainTransaction, size]
  simp only [takes, plain_or_ret_ends pos within, awake_of_not_stopped 2 _ awake, run]
  exact done_next ((present_trap _ _ _).trans free)

/-- The state with the arbiter's cycle counted. -/
def State.countCycle (s : State) : State := { s with arb := { s.arb with cyc := s.arb.cyc + 1 } }

theorem countCycle_done {s : State} (h : s.trap = none) : s.countCycle.done = .next s.countCycle := done_next h

/-- A grant cycle with no BAR2 write at the head of port 19 meets no live table: the arbiter runs and the cycle counts. -/
theorem execGrant_of_no_bar_write (e : EccEvent) {s : State} (run : s.runs Vale.fabric = true)
    (reads : ∀ t, (s.portSt 19).head = some t → t.isWrite = false)
    (free : (((s.pmc 0x01 0).pmcWaits.arbitrate e).restartBlocked).trap = none) :
    execGrant e s = .next ((s.pmc 0x01 0).pmcWaits.arbitrate e).restartBlocked.countCycle := by
  rw [execGrant, if_neg (by simp [run])]
  cases head : (s.portSt 19).head with
  | none => exact countCycle_done free
  | some t =>
    simp only [reads t head, Bool.not_false, if_true]
    exact countCycle_done free

/-- Settles O12: each of the three commands under its condition. -/
theorem plainCompletes : Obligations.PlainCompletes := by
  refine ⟨fun p r a wr d l s hport awake run free pos within => ?_, fun e s run reads => ?_, fun t q s queue => ?_⟩
  · rw [exec_plainTransaction]
    exact execPlainTransaction_of_running r wr d l rfl hport awake run free pos within
  · rw [exec_grant]
    exact execGrant_of_no_bar_write e run reads
  · rw [exec_retainedStoreAccess, execRetainedStoreAccess, queue]
    exact ⟨fun write => if_pos write, fun read => if_neg (by simp [read])⟩

end Sys2Proof.Machine
end

section
/-!
PROOFS. The scheduler: its commands, each past the guards of its arm (R62 to R83).
-/

namespace Sys2Proof.Machine

/-! ## Releases and completions (R65, R77, R183) -/

/-- A running scheduler dispatches after a release that took a descriptor. -/
theorem execJobRelease_of_accepted {j : JobReq} {i : Nat} {s : State} (run : s.runs Vale.scheduler = true)
    (clsPos : 1 ≤ j.cls) (clsLe : j.cls ≤ 5) (onMiss : j.onMiss ≤ 1) (taken : (s.release j).2 = some i) :
    execJobRelease j s = .next (s.release j).1.dispatch := by
  have defined : (decide (j.cls = 0) || decide (5 < j.cls) || decide (1 < j.onMiss)) = false := by
    simp only [Bool.or_eq_false_iff, decide_eq_false_iff_not]
    omega
  simp [execJobRelease, run, defined, State.releaseJob, taken]

/-- The state once the completion report `j` has left its engine. -/
def State.takeReport (s : State) (j : EndedJob) : State :=
  { s with sch := { s.sch with ended := s.sch.ended.erase j } }

/-- The oldest report of an engine completes its job, goes to the job's source and dispatches, unless the job is the
engine's resident kernel. -/
theorem execJobComplete_of_report {e : Nat} {j : EndedJob} {s : State}
    (oldest : s.sch.ended.find? (fun x => x.engine = e) = some j) (run : s.runs Vale.scheduler = true)
    (resident : (s.takeReport j).isResident e j.job = false) :
    execJobComplete e s = .next (((s.takeReport j).completeJob j.job (j.how != 0)).jobReport
      ((s.takeReport j).jSource j.job) j.job ((s.takeReport j).jArg0 j.job) j.how).dispatch := by
  rw [State.takeReport] at resident
  simp [execJobComplete, oldest, run, resident, State.takeReport]

/-! ## Stops (R71, R75) -/

/-- A run limit counts and stops the job of an unreserved lane that has more than its END left. -/
theorem execRunLimit_of_running {l : Nat} {iss : Bool} {s : State} (lane : l < 8) (unreserved : s.reserved l = false)
    (busy : (s.lane l).busy = true) (run : s.runs Vale.lane = true) (more : s.onlyEnd l iss = false)
    (free : ((s.incFld SCH_RUNLIM.COUNT).laneStop l 1 iss).trap = none) :
    execRunLimit l iss s = .next ((s.incFld SCH_RUNLIM.COUNT).laneStop l 1 iss) := by
  rw [execRunLimit, if_neg (by simp [lane, unreserved, busy, run]), if_neg (by simp [more])]
  exact done_next free

/-- A passed deadline of a live job with a finite deadline terminates or extends it as its ON_MISS says. -/
theorem execDeadlinePass_of_live {i : Nat} (iss : Bool) {s : State} (run : s.runs Vale.scheduler = true)
    (going : s.halted = false) (used : s.sch.jobs.contains i = true) (finite : s.jInf i = false)
    (held : s.jState i ≠ jHeld) (unended : (s.sch.ended.any fun e => e.job = i) = false) :
    (s.jOnMiss i = 0 → execDeadlinePass i iss s = (s.terminate i iss).done) ∧
      (s.jOnMiss i = 1 → execDeadlinePass i iss s = (s.extendJob i).done) := by
  rw [execDeadlinePass, if_neg (by simp only [run, going, used, finite, held, unended]; decide)]
  exact ⟨fun action => by simp only [action], fun action => by simp only [action]⟩

/-! ## Delays, waits and statistics (R79, R81, R83) -/

/-- At the end of a scheduler tick the first 400 expired jobs may become ready, and the others are counted as carried. -/
theorem execExpiry_of_running {s : State} (run : s.runs Vale.scheduler = true) (going : s.halted = false) :
    execExpiry s =
      .next ((s.each (s.expired.take 400) State.readyOrLatch).incFld SCH_EVT_LATE.CARRIED
        (s.expired.length - 400)).dispatch := by
  rw [execExpiry, if_neg (by simp [run, going])]

/-- The jobs that wait for event `ev`. -/
def State.waiters (s : State) (ev : Nat) : List Nat :=
  s.sch.jobs.filter fun i => s.jState i = jWaiting && s.jEvent i = ev

/-- An event that no job waits for is late. -/
theorem execWaitEvent_of_late {ev : Nat} {s : State} (run : s.runs Vale.scheduler = true)
    (unawaited : s.waiters ev = []) :
    execWaitEvent ev s = .next (s.incFld SCH_EVT_LATE.LATE_EVENT) := by
  rw [State.waiters] at unawaited
  rw [execWaitEvent, if_neg (by simp [run]), unawaited]

/-- An event completes every wait for it. -/
theorem execWaitEvent_of_awaited {ev : Nat} {s : State} (run : s.runs Vale.scheduler = true)
    (awaited : s.waiters ev ≠ []) :
    execWaitEvent ev s = .next (s.each (s.waiters ev) State.readyOrLatch).dispatch := by
  obtain ⟨i, t, list⟩ := List.exists_cons_of_ne_nil awaited
  rw [list]
  rw [State.waiters] at list
  rw [execWaitEvent, if_neg (by simp [run]), list]

/-- After 20,000 strobes SCH_LOAD takes the fractions measured. -/
theorem execLoadIntervalEnd_of_full (a b : Nat) {s : State} (full : 20000 ≤ s.sch.loadStrobes) :
    execLoadIntervalEnd a b s =
      .next ((({ s with sch := { s.sch with loadStrobes := s.sch.loadStrobes - 20000 } }).setFld SCH_LOAD.LANE a).setFld
        SCH_LOAD.LOGIC b) := by
  rw [execLoadIntervalEnd, if_neg (Nat.not_lt.2 full)]

/-- Settles O16: each of the seven commands under its condition. -/
theorem schedulerCommandsComplete : Obligations.SchedulerCommandsComplete := by
  refine ⟨fun j i s run clsPos clsLe onMiss taken => ?_, fun l iss s lane unreserved busy run more free => ?_,
    fun e j s oldest run => ?_, fun i iss s run going used finite held unended => ?_, fun s run going => ?_,
    fun ev s run => ?_, fun a b s full => ?_⟩
  · rw [exec_jobRelease]
    exact execJobRelease_of_accepted run clsPos clsLe onMiss taken
  · rw [exec_runLimit]
    exact execRunLimit_of_running lane unreserved busy run more free
  · rw [exec_jobComplete]
    exact execJobComplete_of_report oldest run
  · obtain ⟨terminated, extended⟩ := execDeadlinePass_of_live iss run going used finite held unended
    rw [exec_deadlinePass]
    exact ⟨fun action free => (terminated action).trans (done_next free),
      fun action free => (extended action).trans (done_next free)⟩
  · rw [exec_expiry]
    exact execExpiry_of_running run going
  · rw [exec_waitEvent]
    exact ⟨execWaitEvent_of_late run, execWaitEvent_of_awaited run⟩
  · rw [exec_loadIntervalEnd]
    exact execLoadIntervalEnd_of_full a b full

end Sys2Proof.Machine
end

section
/-!
PROOFS. The signal directory: writes to the output plane, parked, granted and applied (R95, R96), and the commands of the
force table (R104 to R107).
-/

namespace Sys2Proof.Machine

/-! ## The length of a table -/

/-- A write makes a table longer by one entry at most. -/
theorem length_set_le {α : Type} [DecidableEq α] (d : Nat → α) (m : Sparse α) (k : Nat) (v : α) :
    (Sparse.set d m k v).length ≤ m.length + 1 := by
  induction m with
  | nil => unfold Sparse.set; split <;> simp
  | cons p t ih =>
    unfold Sparse.set
    split_ifs <;> simp only [List.length_cons] <;> omega

/-- A write at a key that a table in canonical form lists makes the table no longer. -/
theorem length_set_le_of_listed {α : Type} [DecidableEq α] (d : Nat → α) (m : Sparse α) (k : Nat) (v : α)
    (wf : Sparse.wf d m = true) (listed : Sparse.get d m k ≠ d k) : (Sparse.set d m k v).length ≤ m.length := by
  induction m with
  | nil => exact absurd rfl listed
  | cons p t ih =>
    obtain ⟨a, u⟩ := p
    simp only [Sparse.wf, Bool.and_eq_true] at wf
    obtain ⟨⟨above, _⟩, wfTail⟩ := wf
    rcases lt_trichotomy k a with before | rfl | after
    · refine absurd ?_ listed
      rw [Sparse.get, if_neg before.ne', get_of_above d k t (above_of_lt k a t above before)]
    · rw [Sparse.set, if_neg (lt_irrefl k), if_pos rfl]
      split <;> simp
    · rw [Sparse.get, if_neg after.ne] at listed
      rw [Sparse.set, if_neg after.not_gt, if_neg after.ne', List.length_cons, List.length_cons]
      exact Nat.succ_le_succ (ih wfTail listed)

/-! ## Writes to the output plane (R95, R96) -/

theorem OnlyRegs.sig {s t : State} (h : OnlyRegs s t) : t.sig = s.sig := by rw [OnlyRegs] at h; rw [h]

@[simp] theorem State.peakFld_plain (s : State) (f : Fld) (v : Nat) : (s.peakFld f v).plain = s.plain :=
  (peakFld_only s f v).plain

@[simp] theorem State.peakFld_sig (s : State) (f : Fld) (v : Nat) : (s.peakFld f v).sig = s.sig :=
  (peakFld_only s f v).sig

/-- The word parked for a key, if any. -/
def State.parkedAt (s : State) (k : Nat) : Option Word := Sparse.get (fun _ => none) s.sig.parked k

/-- The parking buffer takes a word for key `k`: it holds one already, or it has room for one more (R96). -/
def State.parkTakes (s : State) (k : Nat) : Bool := (s.parkedAt k).isSome || s.sig.parked.length < 256

theorem parkTakes_iff (s : State) (k : Nat) :
    s.parkTakes k = true ↔ (s.parkedAt k).isSome = true ∨ s.sig.parked.length < 256 := by
  simp [State.parkTakes]

section Parking

variable {s : State} (k w : Nat) (parking : s.parking = true)

include parking

theorem outWrite_plain_of_parking : (s.outWrite k w).plain = s.plain := by
  rw [State.outWrite, if_pos parking]
  dsimp only
  split
  · split <;> simp
  · rfl

theorem outWrite_parked_of_takes (takes : s.parkTakes k = true) :
    (s.outWrite k w).sig.parked = Sparse.set (fun _ => none) s.sig.parked k (some (BitVec.ofNat 32 w)) := by
  rw [State.parkTakes, State.parkedAt] at takes
  rw [State.outWrite, if_pos parking]
  dsimp only
  rw [if_pos takes]
  split <;> simp

theorem outWrite_parked_of_full (full : s.parkTakes k = false) : (s.outWrite k w).sig.parked = s.sig.parked := by
  rw [State.parkTakes, State.parkedAt] at full
  rw [State.outWrite, if_pos parking]
  dsimp only
  rw [if_neg (Bool.eq_false_iff.1 full)]

theorem parkedAt_outWrite_same (wf : Sparse.wf (fun _ => none) s.sig.parked = true) (takes : s.parkTakes k = true) :
    (s.outWrite k w).parkedAt k = some (BitVec.ofNat 32 w) := by
  rw [State.parkedAt, outWrite_parked_of_takes k w parking takes, get_set_same _ _ _ _ wf]

theorem parkedAt_outWrite_other {j : Nat} (other : j ≠ k) : (s.outWrite k w).parkedAt j = s.parkedAt j := by
  cases takes : s.parkTakes k with
  | true => rw [State.parkedAt, outWrite_parked_of_takes k w parking takes, get_set_other _ _ _ _ _ other, State.parkedAt]
  | false => rw [State.parkedAt, outWrite_parked_of_full k w parking takes, State.parkedAt]

/-- The buffer's bound of 256 words is kept: a key parked before is written over, a new one takes a free place (R96). -/
theorem outWrite_parked_length_le (wf : Sparse.wf (fun _ => none) s.sig.parked = true)
    (bound : s.sig.parked.length ≤ 256) : (s.outWrite k w).sig.parked.length ≤ 256 := by
  cases takes : s.parkTakes k with
  | false => rwa [outWrite_parked_of_full k w parking takes]
  | true =>
    rw [outWrite_parked_of_takes k w parking takes]
    rcases (parkTakes_iff s k).1 takes with held | room
    · exact (length_set_le_of_listed _ _ _ _ wf (Option.isSome_iff_ne_none.1 held)).trans bound
    · exact (length_set_le _ _ _ _).trans room

end Parking

theorem outWrite_of_not_parking {s : State} (k w : Nat) (grant : s.parking = false) : s.outWrite k w = s.outNow k w :=
  if_neg (Bool.eq_false_iff.1 grant)

section OutNow

variable {s : State} {i : Nat} (w : Nat) (entry : i < 16384)

include entry

/-- A granted write of an entry's word: the plane's word, then the entry's mark in the open turn set (R95). -/
theorem outNow_of_entry : s.outNow i w =
    let t := s.setPw (s.outAt i) w
    { t with sig := { t.sig with openSet := Sparse.set (fun _ => false) t.sig.openSet i true } } := by
  rw [State.outNow, State.keyAt, if_pos entry, State.markOpen, if_pos entry]

theorem out_outNow (canonical : s.canonical = true) : (s.outNow i w).out i = w % 2 ^ 32 := by
  rw [outNow_of_entry w entry]
  exact pw_setPw_same s (s.outAt i) w canonical

theorem outNow_openSet : (s.outNow i w).sig.openSet = Sparse.set (fun _ => false) s.sig.openSet i true := by
  rw [outNow_of_entry w entry]
  rfl

end OutNow

/-- With one word parked and none waiting, the strobe's arrival is the write granted then, and an empty buffer (R96). -/
theorem applyParked_of_single {s : State} {k : Nat} {w : Word} (single : s.sig.parked = [(k, some w)])
    (unwaited : s.sig.parkWait = []) :
    s.applyParked =
      let t := s.outNow k w.toNat
      { t with sig := { t.sig with parked := [], parkWait := [], parkFull := false } } := by
  rw [State.applyParked, single, unwaited]
  rfl

/-- Settles O22: parked while the buffer takes it, written where nothing parks, and applied at the strobe's arrival. -/
theorem parkedWriteWaits : Obligations.ParkedWriteWaits := by
  refine ⟨fun k w s parking => ⟨outWrite_plain_of_parking k w parking, fun wf bound => ⟨?_, fun takes => ?_, ?_⟩⟩,
    fun i w s entry canonical grant => ?_, fun i w s entry canonical single unwaited => ?_⟩
  · exact outWrite_parked_length_le k w parking wf bound
  · exact parkedAt_outWrite_same k w parking wf ((parkTakes_iff s k).2 takes)
  · exact fun _ other => parkedAt_outWrite_other k w parking other
  · rw [outWrite_of_not_parking i w grant]
    exact ⟨out_outNow w entry canonical, outNow_openSet w entry⟩
  · rw [applyParked_of_single single unwaited]
    exact ⟨(out_outNow w.toNat entry canonical).trans (Nat.mod_eq_of_lt w.isLt), rfl, outNow_openSet w.toNat entry⟩

/-! ## The commands of the force table (R104, R106, R107) -/

/-- A register command has its effect outside POWER_FAIL (R234). -/
theorem regCommand_of_powered {s : State} (f : State → State) (powered : s.powerFail = false) :
    s.regCommand f = .next (f s) := if_neg (Bool.eq_false_iff.1 powered)

/-- The entry may be forced: in use, not marked against forces, and not a word of the safety window (R104). -/
def State.mayForce (s : State) (i : Nat) : Prop :=
  s.sigUsed i = true ∧ s.sigNoForce i = false ∧ s.sigSource i ≠ 0x07

/-- A set request for an entry already forced joins the requests of its slot. -/
theorem forceSet_of_forced {s : State} {i k : Nat} {f : ForceSlot} (v : Word) (may : s.mayForce i)
    (forced : s.forceOf i = some (k, f)) :
    s.forceSet i v =
      ((s.setForce k (some { f with value := v, pend := f.pend ++ [(some v, s.forceWait)] })).noteForce i (some v), 0) := by
  obtain ⟨used, allowed, source⟩ := may
  rw [State.forceSet, if_neg (by simp [used, allowed, source]), forced]

/-- A set request for an entry not forced takes the lowest free slot. -/
theorem forceSet_of_free {s : State} {i k : Nat} (v : Word) (may : s.mayForce i) (unforced : s.forceOf i = none)
    (free : firstBelow 256 (fun k => (Sparse.get (fun _ => none) s.sig.forces k).isNone) = some k) :
    s.forceSet i v =
      ((s.setForce k (some { index := i, value := v, shown := none, pend := [(some v, s.forceWait)] })).noteForce i
        (some v), 0) := by
  obtain ⟨used, allowed, source⟩ := may
  rw [State.forceSet, if_neg (by simp [used, allowed, source]), unforced]
  simp only [free]

/-- A release request for a forced entry stands in the place of the requests of its slot. -/
theorem forceRelease_of_forced {s : State} {i k : Nat} {f : ForceSlot} (forced : s.forceOf i = some (k, f)) :
    s.forceRelease i = ((s.setForce k (some { f with pend := [(none, s.forceWait)] })).noteForce i none, 0) := by
  rw [State.forceRelease, forced]

/-- Settles O20: each command outside POWER_FAIL, by what its request does to the table. -/
theorem forceCommandsComplete : Obligations.ForceCommandsComplete := by
  refine ⟨fun k s powered => ?_, fun k f s powered => ?_, fun k f s powered forced => ?_, fun s powered => ?_⟩
  · intro i v used allowed source unforced free
    rw [exec_forceSet, execForceSet, regCommand_of_powered _ powered,
      forceSet_of_free v ⟨used, allowed, source⟩ unforced free]
  · intro i v used allowed source forced
    rw [exec_forceSet, execForceSet, regCommand_of_powered _ powered,
      forceSet_of_forced v ⟨used, allowed, source⟩ forced]
  · rw [exec_forceRelease, execForceRelease, regCommand_of_powered _ powered, forceRelease_of_forced forced]
  · rw [exec_forceReleaseAll, execForceReleaseAll, regCommand_of_powered _ powered, State.forceReleaseAll]

end Sys2Proof.Machine
end

section
/-!
PROOFS. The recipe sequencer: the host commands, past the guards of the path that they share (R138, R139), and the events of
an evaluation and of the pass commits (R126 to R136).
-/

namespace Sys2Proof.Machine

/-! ## The host commands (R138, R139) -/

/-- A host command of sequence `q` as phase 1 of the coming evaluation applies it, after what waits there: the state, and the
result for SEQ_CMD_STAT. -/
def State.hostCommand (s : State) (q cmd arg : Nat) : State × Nat :=
  (s.seqPhase1 s.evalTick).seqCommand (q % 64) cmd arg s.evalTick

/-- The state with SEQ_CMD_STAT naming sequence `q` and the result OK. -/
def State.showSeqOk (s : State) (q : Nat) : State :=
  (s.setFld SEQ_CMD_STAT.RESULT seqOk).setFld SEQ_CMD_STAT.SEQ q

theorem showSeqOk_trap (s : State) (q : Nat) : (s.showSeqOk q).trap = s.trap := by simp [State.showSeqOk]

/-- The path that the ten commands share: where the sequencer works and the command is accepted and meets no undefined case,
it answers the state after it, with RESULT OK. -/
theorem seqHost_of_accepted {s : State} {q cmd arg : Nat} (works : s.seqWorks = true)
    (accepted : (s.hostCommand q cmd arg).2 = seqOk) (free : (s.hostCommand q cmd arg).1.trap = none) :
    s.seqHost q cmd arg = .next ((s.hostCommand q cmd arg).1.showSeqOk q) := by
  have untrapped : ((s.hostCommand q cmd arg).1.showSeqOk q).trap = none := (showSeqOk_trap _ q).trans free
  rw [State.showSeqOk, ← accepted] at untrapped ⊢
  rw [State.seqHost, if_pos works]
  exact done_next untrapped

/-- What an instruction answers whose arm is the shared path with the code `cmd`. -/
theorem answer_of_accepted {s : State} {q cmd arg : Nat} {answer : Res} (arm : answer = s.seqHost q cmd arg)
    (works : s.seqWorks = true) (accepted : (s.hostCommand q cmd arg).2 = seqOk)
    (free : (s.hostCommand q cmd arg).1.trap = none) : answer = .next ((s.hostCommand q cmd arg).1.showSeqOk q) :=
  arm.trans (seqHost_of_accepted works accepted free)

/-- Settles O23: nine commands take the shared path from the state itself, SEQ_START from the state whose hold-up test is
abandoned. -/
theorem sequencerCommandsComplete : Obligations.SequencerCommandsComplete := by
  intro q arg s works
  exact ⟨answer_of_accepted (exec_seqNop q arg s) works, answer_of_accepted (exec_seqLoad q arg s) works,
    answer_of_accepted (exec_seqStart q arg s), answer_of_accepted (exec_seqHold q arg s) works,
    answer_of_accepted (exec_seqContinue q arg s) works, answer_of_accepted (exec_seqSkip q arg s) works,
    answer_of_accepted (exec_seqAbort q arg s) works, answer_of_accepted (exec_seqStop q arg s) works,
    answer_of_accepted (exec_seqResumeCommit q arg s) works, answer_of_accepted (exec_seqClear q arg s) works⟩

/-! ## The evaluation (R126) -/

/-- The duration of an evaluation enters SEQ_EVAL, held to its 16 bits. -/
def State.noteEval (s : State) (cycles : Nat) : State :=
  (s.setFld SEQ_EVAL.LAST (min cycles 0xFFFF)).peakFld SEQ_EVAL.MAX (min cycles 0xFFFF)

/-- Once in a tick, after its inputs have closed, an evaluation runs its phases and notes its duration. -/
theorem execSeqEvaluation_of_due (cut cycles : Nat) {s : State} (works : s.seqWorks = true)
    (closed : s.time.phase = .inputClosed ∨ s.time.phase = .outputClosed) (due : s.seq.lastEval ≠ some s.time.tick)
    (free : ((s.seqEvaluate s.time.tick cut).noteEval cycles).trap = none) :
    execSeqEvaluation cut cycles s = .next ((s.seqEvaluate s.time.tick cut).noteEval cycles) := by
  have phase : (s.time.phase == .inputClosed || s.time.phase == .outputClosed) = true := by
    rcases closed with h | h <;> simp [h]
  rw [execSeqEvaluation, if_pos (by simp [works, phase, due])]
  exact done_next free

/-! ## Pass commits at a member (R135) -/

/-- A commit that reaches a member's share before the boundary that ends its taking, and finds the sequence where it expects
it, is held and answered with code 0. -/
theorem execPassCommit_of_fits {s : State} {kind sp from_ target sec ns att arg q : Nat} {m : PassMsg}
    (msg : m = { kind := kind, spanSeq := sp, from_ := from_, target := target, start := sec * 20000 + ns / 50000,
                 attempt := att, arg := arg, members := [] })
    (works : s.seqWorks = true) (share : s.passShare sp = some q) (inTime : s.ns < boundaryNs (m.start - 1))
    (fits : s.passFits q m = true) :
    execPassCommit kind sp from_ target sec ns att arg s = .next ((s.passHold q m).passAnswer q 0 att) := by
  subst msg
  rw [execPassCommit, if_neg (by simp [works]), share]
  simp only [Nat.not_le.2 inTime, fits, if_true, if_false]

/-- The unit of a member's share fires with no commit held for the boundary: the pass is missed. -/
theorem execPassMiss_of_unheld {s : State} {q start : Nat} (works : s.seqWorks = true) (member : s.seqMember q = true)
    (unheld : ((s.ctx q).commits.any fun x => x.start = start) = false) :
    execPassMiss q start s =
      .next ((((s.setTimeout q none).passAnswer q 1 1).post 0x08 4 true [q]).incFld SEQ_PASS_STAT.MISS) := by
  rw [execPassMiss, if_pos (by simp only [works, member, unheld]; decide)]

/-! ## Answers and ack deadlines at the master (R136) -/

/-- The post with the acknowledgement of position `pos` for attempt `a`, where it awaits it. -/
def PassOut.takeAck (pos a : Nat) (p : PassOut) : PassOut :=
  if p.msg.attempt = a && p.msg.members.contains pos && !p.acked.contains pos then { p with acked := p.acked ++ [pos] } else p

/-- An acknowledgement joins those of the posts of its attempt. -/
theorem execPassAnswer_of_ack {s : State} (q pos a : Nat) (works : s.seqWorks = true) :
    execPassAnswer q pos 0 a s = .next (s.modCtx q fun c => { c with posts := c.posts.map (PassOut.takeAck pos a) }) := by
  rw [execPassAnswer, if_neg (by simp [works])]
  rfl

/-- The members of a post that have not acknowledged it. -/
def PassOut.missed (p : PassOut) : List Nat := p.msg.members.filter fun x => !p.acked.contains x

/-- The state with the posts of sequence `q` being `rest`, its unit armed for them. -/
def State.keepPosts (s : State) (q : Nat) (rest : List PassOut) : State :=
  (s.modCtx q fun c => { c with posts := rest }).armPass q

/-- An ack deadline drops the earliest post, and acts on its missed members where there are any. -/
theorem execPassAckDeadline_of_post {s : State} {q : Nat} {p : PassOut} {rest : List PassOut} (works : s.seqWorks = true)
    (posts : (s.ctx q).posts = p :: rest) :
    execPassAckDeadline q s =
      if p.missed.isEmpty then .next (s.keepPosts q rest) else ((s.keepPosts q rest).passMissed q p p.missed).done := by
  rw [execPassAckDeadline, if_neg (by simp [works]), posts]
  rfl

/-- Settles O25: each event past the guards of its arm; the evaluation and the acting on missed members can meet an undefined
case and go on where they met none. -/
theorem sequencerEventsComplete : Obligations.SequencerEventsComplete := by
  refine ⟨fun cut cy s works closed due => ?_, fun kind sp f target sec ns att arg q s works share => ?_,
    fun q w a s works => ?_, fun q st s works member unheld => ?_, fun q p rest s works posts => ?_⟩
  · intro t free
    rw [exec_seqEvaluation]
    exact execSeqEvaluation_of_due cut cy works closed due free
  · intro m inTime fits
    rw [exec_passCommit]
    exact execPassCommit_of_fits rfl works share inTime fits
  · rw [exec_passAnswer]
    exact execPassAnswer_of_ack q w a works
  · rw [exec_passMiss]
    exact execPassMiss_of_unheld works member unheld
  · intro t missed
    rw [exec_passAckDeadline, execPassAckDeadline_of_post works posts]
    exact ⟨fun allAcked => if_pos (List.isEmpty_iff.2 allAcked),
      fun someMissed free => (if_neg (mt List.isEmpty_iff.1 someMissed)).trans (done_next free)⟩

end Sys2Proof.Machine
end

section
/-!
PROOFS. The loop engine: what an accepted request leaves (R156, R159), what CLEAR_FAULT leaves (R164), and the reply of
LOOP_CMD_STAT that the four commands share.
-/

namespace Sys2Proof.Machine

/-! ## The requests of an enabled slot -/

section EnabledSlot

variable {s : State} {i : Nat} (enabled : s.isLoop i = true)

include enabled

/-- A mode that the slot's template has waits for its boundary, with the result OK (R156). -/
theorem loopRequest_of_mode {m : Nat} (offered : s.loopModeOk i m = true) :
    s.loopRequest i 0 m = (s.loopAccept i 0 m, 0) := by
  simp [State.loopRequest, enabled, offered]

/-- A low limit at most the high one that the requests before it leave waits for its boundary, with the result OK (R159). -/
theorem loopRequest_of_lowLimit {v : Nat} (ordered : sext 16 v ≤ (s.loopLimitsAhead i).2) :
    s.loopRequest i 1 v = (s.loopAccept i 1 (v % 65536), 0) := by
  simp [State.loopRequest, enabled, Int.not_lt.2 ordered]

/-- A high limit at least the low one that the requests before it leave waits for its boundary, with the result OK (R159). -/
theorem loopRequest_of_highLimit {v : Nat} (ordered : (s.loopLimitsAhead i).1 ≤ sext 16 v) :
    s.loopRequest i 2 v = (s.loopAccept i 2 (v % 65536), 0) := by
  simp [State.loopRequest, enabled, Int.not_lt.2 ordered]

/-- CLEAR_FAULT waits for no boundary: a stopped slot is released again, FAULT and CONSEC are 0 (R164). -/
theorem loopClear_of_enabled :
    s.loopClear i = (s.loopEngine i fun t => ((t.loopReenable i).setLFault i 0).setLConsec i 0, 0) := by
  simp [State.loopClear, enabled]

end EnabledSlot

/-! ## The commands -/

/-- Outside POWER_FAIL a command for slot `i` answers the state that its request leaves, with the request's result and the
slot in LOOP_CMD_STAT (R156). -/
theorem regCommand_of_loopReply {s t : State} {i result : Nat} {request : State → State × Nat}
    (powered : s.powerFail = false) (reply : request s = (t, result)) :
    (s.regCommand fun u => (request u).1.loopCmdStat i (request u).2) = .next (t.loopCmdStat i result) := by
  rw [regCommand_of_powered _ powered, reply]

/-- Settles O26: each command replies with what its request leaves for an enabled slot. -/
theorem loopCommandsComplete : Obligations.LoopCommandsComplete := by
  intro i v s powered enabled
  refine ⟨fun offered => ?_, fun ordered => ?_, fun ordered => ?_, ?_⟩
  · rw [exec_loopMode]
    exact regCommand_of_loopReply (request := fun u => u.loopRequest i 0 v) powered (loopRequest_of_mode enabled offered)
  · rw [exec_loopLimitLo]
    exact regCommand_of_loopReply (request := fun u => u.loopRequest i 1 v) powered (loopRequest_of_lowLimit enabled ordered)
  · rw [exec_loopLimitHi]
    exact regCommand_of_loopReply (request := fun u => u.loopRequest i 2 v) powered (loopRequest_of_highLimit enabled ordered)
  · rw [exec_loopClearFault]
    exact regCommand_of_loopReply (request := fun u => u.loopClear i) powered (loopClear_of_enabled enabled)

end Sys2Proof.Machine
end

section
/-!
PROOFS. The register set of a lane: the bits of SR and its sticky flags, what an accumulator and a data register take (R171,
R173), and the post-modify of a pointer (R175).
-/

namespace Sys2Proof.Machine

/-! ## The bits of SR -/

theorem bitOf_eq_bitsOf (x k : Nat) : bitOf x k = decide (bitsOf x k 1 = 1) := rfl

/-- A write to bit `k` of SR puts that bit into the word, of which the others are read as they stand. -/
theorem srBit_setSr (r : RegSet) (k : Nat) (b : Bool) {j : Nat} (h : j < 16) :
    (r.setSr k b).srBit j = bitOf (putBits r.sr.toNat k 1 (b2n b)) j := by
  simp only [RegSet.srBit, RegSet.setSr, BitVec.getLsbD_ofNat, h, decide_true, Bool.true_and, bitOf_eq_testBit]

theorem srBit_setSr_same (r : RegSet) {k : Nat} (b : Bool) (h : k < 16) : (r.setSr k b).srBit k = b := by
  have put : bitsOf (putBits r.sr.toNat k 1 (b2n b)) k 1 = b2n b := by
    rw [bitsOf_putBits_same]
    cases b <;> rfl
  rw [srBit_setSr r k b h, bitOf_eq_bitsOf, put]
  cases b <;> rfl

theorem srBit_setSr_other (r : RegSet) {j k : Nat} (b : Bool) (h : j < 16) (other : j ≠ k) :
    (r.setSr k b).srBit j = r.srBit j := by
  have apart : bitsOf (putBits r.sr.toNat k 1 (b2n b)) j 1 = bitsOf r.sr.toNat j 1 :=
    bitsOf_putBits_apart _ _ _ _ _ _ (by omega)
  rw [srBit_setSr r k b h, bitOf_eq_bitsOf, apart]
  exact bitOf_eq_testBit _ _

/-! ## N and Z follow a value, SV sticks (R173) -/

section Flags

variable (r : RegSet) (x : Int) (b : Bool)

@[simp] theorem srBit_nz_n : (r.nz x).srBit 0 = decide (x < 0) := by
  rw [RegSet.nz, srBit_setSr_other _ _ (by decide) (by decide), srBit_setSr_same _ _ (by decide)]

@[simp] theorem srBit_nz_z : (r.nz x).srBit 1 = decide (x = 0) := srBit_setSr_same _ _ (by decide)

theorem srBit_nz_other {k : Nat} (h : k < 16) (n : k ≠ 0) (z : k ≠ 1) : (r.nz x).srBit k = r.srBit k := by
  rw [RegSet.nz, srBit_setSr_other _ _ h z, srBit_setSr_other _ _ h n]

@[simp] theorem reg_nz (e : Nat) : (r.nz x).reg e = r.reg e := rfl
@[simp] theorem accBits_nz (a : Bool) : (r.nz x).accBits a = r.accBits a := rfl

@[simp] theorem srBit_stickSv_sv : (r.stickSv b).srBit 3 = (r.srBit 3 || b) := by
  cases b
  · simp [RegSet.stickSv]
  · simp [RegSet.stickSv, srBit_setSr_same]

theorem srBit_stickSv_other {k : Nat} (h : k < 16) (sv : k ≠ 3) : (r.stickSv b).srBit k = r.srBit k := by
  cases b
  · rfl
  · exact srBit_setSr_other r true h sv

@[simp] theorem RegSet.stickSv_d : (r.stickSv b).d = r.d := by cases b <;> rfl
@[simp] theorem accBits_stickSv (a : Bool) : (r.stickSv b).accBits a = r.accBits a := by cases b <;> rfl

end Flags

/-! ## An accumulator takes a result (R171) -/

/-- The value lies outside 40-bit two's complement. -/
theorem over40_iff (x : Int) : over40 x = true ↔ x < -(2 ^ 39) ∨ 2 ^ 39 ≤ x := by simp [over40]

section SetAcc

variable (g : RegSet) (a : Bool) (x : Int)

theorem accBits_setAcc_same : (g.setAcc a x).accBits a = BitVec.ofInt 40 x := by
  cases a <;> simp only [RegSet.setAcc] <;> split <;> rfl

theorem accBits_setAcc_other : (g.setAcc a x).accBits (!a) = g.accBits (!a) := by
  cases a <;> simp only [RegSet.setAcc] <;> split <;> rfl

theorem RegSet.setAcc_d : (g.setAcc a x).d = g.d := by
  cases a <;> simp only [RegSet.setAcc] <;> split <;> rfl

/-- V is set where the result does not fit, and stays as it is otherwise. -/
theorem srBit_setAcc_v : (g.setAcc a x).srBit 2 = (g.srBit 2 || over40 x) := by
  cases a <;> cases fits : over40 x <;> simp [RegSet.setAcc, fits, srBit_setSr_same] <;> rfl

theorem srBit_setAcc_other {k : Nat} (h : k < 16) (v : k ≠ 2) : (g.setAcc a x).srBit k = g.srBit k := by
  cases a <;> cases fits : over40 x <;> simp [RegSet.setAcc, fits, srBit_setSr_other _ _ h v] <;> rfl

/-- A result that fits is what the accumulator then holds. -/
theorem acc_setAcc_of_fits {x : Int} (low : -(2 ^ 39) ≤ x) (high : x < 2 ^ 39) : (g.setAcc a x).acc a = x := by
  rw [RegSet.acc, accBits_setAcc_same]
  exact BitVec.toInt_ofInt_eq_self (by decide) low high

end SetAcc

/-! ## A data register takes a result (R173) -/

section DataRegister

variable (g : RegSet) (d : Nat) (x : Int)

theorem sat16_eq : sat16 x = if x < -32768 then -32768 else if 32767 < x then 32767 else x := rfl

theorem sat16_bounds : -32768 ≤ sat16 x ∧ sat16 x ≤ 32767 := by
  rw [sat16_eq]
  split
  · omega
  · split <;> omega

/-- Saturation keeps the sign. -/
theorem sat16_neg_iff : sat16 x < 0 ↔ x < 0 := by
  rw [sat16_eq]
  split
  · omega
  · split <;> omega

theorem sat16_eq_zero_iff : sat16 x = 0 ↔ x = 0 := by
  rw [sat16_eq]
  split
  · omega
  · split <;> omega

/-- Saturation changes the values that do not fit. -/
theorem sat16_ne_iff : (sat16 x != x) = true ↔ x < -32768 ∨ 32767 < x := by
  rw [bne_iff_ne, sat16_eq]
  split
  · omega
  · split <;> omega

theorem RegSet.reg_setReg_same (w : BitVec 16) (h : Sparse.wf (fun _ => (0 : BitVec 16)) g.d = true) :
    (g.setReg d w).reg d = w := get_set_same _ _ _ _ h

theorem RegSet.reg_setReg_other (w : BitVec 16) {e : Nat} (h : e ≠ d) : (g.setReg d w).reg e = g.reg e :=
  get_set_other _ _ _ _ _ h

/-- A saturated result is a write of the register, SV and then N and Z. -/
theorem aluSat_eq : g.aluSat d x =
    ((g.stickSv (sat16 x != x)).setReg d (BitVec.ofInt 16 (sat16 x))).nz (sat16 x) := rfl

theorem val_aluSat_same (h : Sparse.wf (fun _ => (0 : BitVec 16)) g.d = true) : (g.aluSat d x).val d = sat16 x := by
  obtain ⟨low, high⟩ := sat16_bounds x
  rw [aluSat_eq, RegSet.val, reg_nz, RegSet.reg_setReg_same _ _ _ (by rwa [RegSet.stickSv_d])]
  exact BitVec.toInt_ofInt_eq_self (by decide) low (by omega)

theorem reg_aluSat_other {e : Nat} (h : e ≠ d) : (g.aluSat d x).reg e = g.reg e := by
  rw [aluSat_eq, reg_nz, RegSet.reg_setReg_other _ _ _ h, RegSet.reg, RegSet.stickSv_d, RegSet.reg]

theorem accBits_aluSat (a : Bool) : (g.aluSat d x).accBits a = g.accBits a :=
  (accBits_nz _ _ _).trans (accBits_stickSv _ _ _)

theorem srBit_aluSat_n : (g.aluSat d x).srBit 0 = decide (x < 0) := by
  rw [aluSat_eq, srBit_nz_n, decide_eq_decide, sat16_neg_iff]

theorem srBit_aluSat_z : (g.aluSat d x).srBit 1 = decide (x = 0) := by
  rw [aluSat_eq, srBit_nz_z, decide_eq_decide, sat16_eq_zero_iff]

theorem srBit_aluSat_sv : (g.aluSat d x).srBit 3 = (g.srBit 3 || sat16 x != x) := by
  rw [aluSat_eq, srBit_nz_other _ _ (by decide) (by decide) (by decide)]
  exact srBit_stickSv_sv _ _

theorem srBit_aluSat_v : (g.aluSat d x).srBit 2 = g.srBit 2 := by
  rw [aluSat_eq, srBit_nz_other _ _ (by decide) (by decide) (by decide)]
  exact srBit_stickSv_other _ _ (by decide) (by decide)

end DataRegister

/-- Settles O33: what each part of the register set reads after either result. -/
theorem laneAccumulatorLaw : Obligations.LaneAccumulatorLaw := by
  intro g a d x wf
  refine ⟨accBits_setAcc_same g a x, accBits_setAcc_other g a x, RegSet.setAcc_d g a x, ?_,
    srBit_setAcc_other g a x (by decide) (by decide), acc_setAcc_of_fits g a, val_aluSat_same g d x wf,
    fun e other => reg_aluSat_other g d x other, accBits_aluSat g d x a, srBit_aluSat_n g d x, srBit_aluSat_z g d x, ?_,
    srBit_aluSat_v g d x⟩
  · rw [srBit_setAcc_v, Bool.or_eq_true, over40_iff]
  · rw [srBit_aluSat_sv, Bool.or_eq_true, sat16_ne_iff]

/-! ## The post-modify of a pointer (R175) -/

/-- The low bits of an integer are its remainder. -/
theorem trunc_cast (n : Nat) (x : Int) : (trunc n x : Int) = x % (2 ^ n : Nat) :=
  Int.toNat_of_nonneg (Int.emod_nonneg _ (by positivity))

theorem trunc_lt (n : Nat) (x : Int) : trunc n x < 2 ^ n := by
  have below : (trunc n x : Int) < (2 ^ n : Nat) := by
    rw [trunc_cast]
    exact Int.emod_lt_of_pos _ (by positivity)
  exact_mod_cast below

section Pointer

variable (g : RegSet) (p m : Nat)

/-- What a post-modify mode adds to a pointer. -/
def RegSet.pointerStep : Int := if m = 0 then 0 else if m = 1 then 1 else if m = 2 then -1 else g.mod_ p

/-- Where a pointer stands after its post-modify: circular in a block of 2^k words, or modulo 2^16. -/
def RegSet.nextPtr : Nat :=
  if g.circ p = 0 then trunc 16 (g.ptr p + g.pointerStep p m)
  else g.ptr p / 2 ^ g.circ p * 2 ^ g.circ p + trunc (g.circ p) (g.ptr p + g.pointerStep p m)

/-- A post-modify writes its pointer and nothing else. -/
theorem stepPtr_eq_setPtr : g.stepPtr p m = g.setPtr p (g.nextPtr p m) := by
  match m with
  | 0 | 1 | 2 | m + 3 =>
    by_cases linear : g.circ p = 0 <;> simp [RegSet.stepPtr, RegSet.nextPtr, RegSet.pointerStep, linear]

theorem ptr_lt : g.ptr p < 2 ^ 16 := BitVec.isLt _

theorem circ_lt : g.circ p < 16 := BitVec.isLt _

/-- The words of an aligned block of 2^k words have addresses of 16 bits where one of them has. -/
theorem block_add_lt {v k r : Nat} (hv : v < 2 ^ 16) (hk : k ≤ 16) (hr : r < 2 ^ k) : v / 2 ^ k * 2 ^ k + r < 2 ^ 16 := by
  have blocks : 2 ^ (16 - k) * 2 ^ k = 2 ^ 16 := by rw [← Nat.pow_add, Nat.sub_add_cancel hk]
  have block : v / 2 ^ k < 2 ^ (16 - k) := by rwa [Nat.div_lt_iff_lt_mul (by positivity), blocks]
  calc v / 2 ^ k * 2 ^ k + r < (v / 2 ^ k + 1) * 2 ^ k := by rw [Nat.add_mul, Nat.one_mul]; omega
    _ ≤ 2 ^ (16 - k) * 2 ^ k := Nat.mul_le_mul_right _ block
    _ = 2 ^ 16 := blocks

theorem nextPtr_of_linear (linear : g.circ p = 0) : g.nextPtr p m = trunc 16 (g.ptr p + g.pointerStep p m) := if_pos linear

theorem nextPtr_of_circular (circular : g.circ p ≠ 0) :
    g.nextPtr p m = g.ptr p / 2 ^ g.circ p * 2 ^ g.circ p + trunc (g.circ p) (g.ptr p + g.pointerStep p m) :=
  if_neg circular

theorem nextPtr_lt : g.nextPtr p m < 2 ^ 16 := by
  by_cases linear : g.circ p = 0
  · rw [nextPtr_of_linear g p m linear]
    exact trunc_lt _ _
  · rw [nextPtr_of_circular g p m linear]
    exact block_add_lt (ptr_lt g p) (circ_lt g p).le (trunc_lt _ _)

/-- A circular pointer stays in its block. -/
theorem nextPtr_div_of_circular (circular : g.circ p ≠ 0) : g.nextPtr p m / 2 ^ g.circ p = g.ptr p / 2 ^ g.circ p := by
  rw [nextPtr_of_circular g p m circular, Nat.add_comm, Nat.add_mul_div_right _ _ (by positivity),
    Nat.div_eq_of_lt (trunc_lt _ _), Nat.zero_add]

/-- A circular pointer moves by its step modulo the block's size: the two places differ by whole blocks. -/
theorem nextPtr_sub_of_circular (circular : g.circ p ≠ 0) :
    ((g.nextPtr p m : Int) - (g.ptr p + g.pointerStep p m)) % (2 ^ g.circ p : Nat) = 0 := by
  rw [nextPtr_of_circular g p m circular, Nat.cast_add, Nat.cast_mul, trunc_cast, Int.emod_def (g.ptr p + g.pointerStep p m)]
  refine Int.emod_eq_zero_of_dvd
    ⟨(g.ptr p / 2 ^ g.circ p : Nat) - (g.ptr p + g.pointerStep p m) / (2 ^ g.circ p : Nat), ?_⟩
  ring

theorem ptr_stepPtr_same (h : Sparse.wf (fun _ => (0 : BitVec 16)) g.p = true) :
    (g.stepPtr p m).ptr p = g.nextPtr p m := by
  rw [stepPtr_eq_setPtr, RegSet.ptr, RegSet.setPtr, get_set_same _ _ _ _ h, BitVec.toNat_ofNat,
    Nat.mod_eq_of_lt (nextPtr_lt g p m)]

theorem ptr_stepPtr_other {q : Nat} (h : q ≠ p) : (g.stepPtr p m).ptr q = g.ptr q := by
  rw [stepPtr_eq_setPtr, RegSet.ptr, RegSet.setPtr, get_set_other _ _ _ _ _ h, RegSet.ptr]

end Pointer

/-- Settles O34: the pointer's next place, circular or linear, and the frame of a write of a pointer. -/
theorem circularPointerStaysInBlock : Obligations.CircularPointerStaysInBlock := by
  intro g p m wf
  have next := ptr_stepPtr_same g p m wf
  refine ⟨fun circular => ?_, fun linear => ?_, fun q other => ptr_stepPtr_other g p m other, ?_⟩
  · rw [next]
    exact ⟨nextPtr_div_of_circular g p m circular, nextPtr_sub_of_circular g p m circular⟩
  · rw [next, nextPtr_of_linear g p m linear]
    exact trunc_cast 16 _
  · rw [stepPtr_eq_setPtr]
    rfl

end Sys2Proof.Machine
end

section
/-!
PROOFS. The lane's instructions that do not jump: what the command of each answers where the lane stands at it (R171 to R177,
R180, R189).
-/

namespace Sys2Proof.Machine

/-! ## Retiring an instruction -/

/-- At its instruction a lane retires it with the effect that the instruction has on this state; an effect that meets no
undefined case goes on. -/
theorem laneOp_of_effect {s : State} {l : Nat} {i : Instr} {daddr : Nat} {f g : State → State} {put : Bool}
    (stands : s.laneAt l i = true) (effect : f s = g s) (free : (g s).trap = none) :
    s.laneOp l i daddr f put = .next (s.laneAfter l daddr put g) := by
  rw [laneOp_next stands (by rwa [effect]), State.laneAfter, effect, State.laneAfter]

/-- The same for an instruction that changes the register set only. -/
theorem laneReg_of_effect {s : State} {l : Nat} {i : Instr} {f g : RegSet → RegSet} (stands : s.laneAt l i = true)
    (effect : ∀ r, f r = g r) (quiet : s.trap = none) : s.laneReg l i f = .next (s.laneAfterReg l g) := by
  rw [laneReg_next stands quiet, funext effect]

/-- An access through a pointer that lies within its memory is made, and the pointer steps. -/
theorem ptrAccess_of_ptrOk {s : State} {l p m : Nat} {f : State → State} (ok : (s.rset l).ptrOk p = true) :
    s.ptrAccess l p m f = (f s).modRset l fun r => r.stepPtr p m := if_pos ok

/-- Two accesses, each through a pointer that lies within its memory as the state then stands. -/
theorem ptrAccess_twice_of_ptrOk {s : State} {l p m q n : Nat} {f g : State → State} (first : (s.rset l).ptrOk p = true)
    (second : (((f s).modRset l fun r => r.stepPtr p m).rset l).ptrOk q = true) :
    (s.ptrAccess l p m f).ptrAccess l q n g =
      (g ((f s).modRset l fun r => r.stepPtr p m)).modRset l fun r => r.stepPtr q n := by
  rw [ptrAccess_of_ptrOk first, ptrAccess_of_ptrOk second]

/-! ## The multiply class (R171, R175) -/

section Multiply

variable {s : State} {l : Nat} {i : Instr} {a : Bool} {kind : Nat} (quiet : s.trap = none) (stands : s.laneAt l i = true)

include quiet stands

theorem mulReg_next {r t : Nat} :
    s.mulReg l i a kind r t = .next (s.laneAfterReg l fun g => g.fold a kind (mulWords (g.reg r) (g.reg t))) :=
  laneReg_next stands quiet

theorem mulMem_next {r p m : Nat} (ok : (s.rset l).ptrOk p = true) :
    s.mulMem l i a kind r p m = .next (s.laneAfter l ((s.rset l).ptr p) false fun t =>
      (t.modRset l fun g => g.fold a kind (mulWords (g.reg r) ((s.lane l).mem p))).modRset l fun g => g.stepPtr p m) :=
  laneOp_of_effect stands (ptrAccess_of_ptrOk ok) quiet

/-- Both words are read before either pointer steps. -/
theorem mulDual_next {x mx y my : Nat} (okX : (s.rset l).ptrOk x = true)
    (okY : ((s.modRset l fun g => g.stepPtr x mx).rset l).ptrOk (4 + y) = true) :
    s.mulDual l i a kind x mx y my = .next (s.laneAfter l ((s.rset l).ptr x) false fun _ =>
      ((s.modRset l fun g => g.stepPtr x mx).modRset l fun g => g.stepPtr (4 + y) my).modRset l fun g =>
        g.fold a kind (mulWords ((s.lane l).mem x) ((s.lane l).mem (4 + y)))) :=
  laneOp_of_effect stands (congrArg (State.modRset · l _) (ptrAccess_twice_of_ptrOk okX okY)) quiet

end Multiply

/-- Settles O31: each command is its form with the kind MPY, MAC or MSU, and the fold of that kind. -/
theorem laneMultiplyCompletes : Obligations.LaneMultiplyCompletes := by
  intro l s quiet
  refine ⟨fun a r t stands => ?_, fun a r t stands => ?_, fun a r t stands => ?_, fun a r t stands => ?_,
    fun a r p m ok => ⟨fun stands => ?_, fun stands => ?_, fun stands => ?_⟩,
    fun a x mx y my okX => fun okY => ⟨fun stands => ?_, fun stands => ?_, fun stands => ?_⟩⟩
  · exact (exec_laneMpyReg l a r t s).trans (mulReg_next quiet stands)
  · exact (exec_laneMacReg l a r t s).trans (mulReg_next quiet stands)
  · exact (exec_laneMsuReg l a r t s).trans (mulReg_next quiet stands)
  · exact (exec_laneMpyu l a r t s).trans (laneReg_next stands quiet)
  · exact (exec_laneMpyMem l a r p m s).trans (mulMem_next quiet stands ok)
  · exact (exec_laneMacMem l a r p m s).trans (mulMem_next quiet stands ok)
  · exact (exec_laneMsuMem l a r p m s).trans (mulMem_next quiet stands ok)
  · exact (exec_laneMpyDual l a x mx y my s).trans (mulDual_next quiet stands okX okY)
  · exact (exec_laneMacDual l a x mx y my s).trans (mulDual_next quiet stands okX okY)
  · exact (exec_laneMsuDual l a x mx y my s).trans (mulDual_next quiet stands okX okY)

/-! ## Data registers and accumulators (R171 to R174) -/

/-- LOG by its number: AND, OR, XOR, and AND NOT for the rest. -/
theorem execLaneLog_next {s : State} {l d r t f : Nat} (quiet : s.trap = none)
    (stands : s.laneAt l (.laneLog l d r t f) = true) :
    execLaneLog l d r t f s = .next (s.laneAfterReg l fun g =>
      g.alu d (if f = 0 then g.reg r &&& g.reg t else if f = 1 then g.reg r ||| g.reg t
        else if f = 2 then g.reg r ^^^ g.reg t else g.reg r &&& ~~~(g.reg t)).toInt) :=
  laneReg_of_effect stands (fun g => by
    match f with
    | 0 | 1 | 2 => rfl
    | f + 3 => simp) quiet

/-- ACC by its number, the compare for all from 7. -/
theorem execLaneAcc_next {s : State} {l f : Nat} {a : Bool} (quiet : s.trap = none)
    (stands : s.laneAt l (.laneAcc l a f) = true) :
    execLaneAcc l a f s = .next (s.laneAfterReg l fun g =>
      if f = 0 then g.setAcc a 0 else if f = 1 then g.setAcc a (g.acc a + g.acc (!a))
      else if f = 2 then g.setAcc a (g.acc a - g.acc (!a)) else if f = 3 then g.setAcc a (-g.acc a)
      else if f = 4 then g.setAcc a (if g.acc a < 0 then -g.acc a else g.acc a)
      else if f = 5 then (g.stickSv (satInt 32 (g.acc a) != g.acc a)).setAcc a (satInt 32 (g.acc a))
      else if f = 6 then g.setAcc a (g.acc (!a)) else g.nz (g.acc a - g.acc (!a))) :=
  laneReg_of_effect stands (fun g => by
    match f with
    | 0 | 1 | 2 | 3 | 4 | 5 | 6 => rfl
    | f + 7 => simp) quiet

/-- Settles O32: each command changes the register set only, by the instruction's result. -/
theorem laneArithmeticCompletes : Obligations.LaneArithmeticCompletes := by
  intro l s quiet
  refine ⟨fun d r t stands => ?_, fun d r t stands => ?_, fun d r t f stands => ?_, fun d r t f stands => ?_,
    fun d r k n stands => ?_, fun r t stands => ?_, fun a f stands => ?_, fun a v x stands => ?_,
    fun a d r o sh stands => ?_, fun a r o sh stands => ?_, fun a d e stands => ?_⟩
  · exact (exec_laneAdd l d r t s).trans (laneReg_next stands quiet)
  · exact (exec_laneSub l d r t s).trans (laneReg_next stands quiet)
  · exact (exec_laneMinmax l d r t f s).trans (laneReg_next stands quiet)
  · exact (exec_laneLog l d r t f s).trans (execLaneLog_next quiet stands)
  · exact (exec_laneShd l d r k n s).trans (laneReg_next stands quiet)
  · exact (exec_laneCmp l r t s).trans (laneReg_next stands quiet)
  · exact (exec_laneAcc l a f s).trans (execLaneAcc_next quiet stands)
  · exact (exec_laneSha l a v x s).trans (laneReg_next stands quiet)
  · exact (exec_laneMva l a d r o sh s).trans (laneReg_next stands quiet)
  · exact (exec_laneMvd l a r o sh s).trans (laneReg_next stands quiet)
  · exact (exec_laneNorm l a d e s).trans (laneReg_next stands quiet)

/-! ## Loads, stores and moves (R169, R170, R175) -/

/-- MOVX into a special register other than number 31. -/
theorem execLaneMovx_write {s : State} {l d sp : Nat} (quiet : s.trap = none)
    (stands : s.laneAt l (.laneMovx l d sp true) = true) (known : sp ≠ 31) :
    execLaneMovx l d sp true s = .next (s.laneAfterReg l fun r => r.setSpecial sp (r.reg d).toNat) :=
  laneOp_of_effect stands (by rw [if_neg known, if_pos rfl]) quiet

/-- MOVX from a special register other than number 31. -/
theorem execLaneMovx_read {s : State} {l d sp : Nat} (quiet : s.trap = none)
    (stands : s.laneAt l (.laneMovx l d sp false) = true) (known : sp ≠ 31) :
    execLaneMovx l d sp false s = .next (s.laneAfterReg l fun r => r.setReg d (BitVec.ofNat 16 (s.special l sp))) :=
  laneOp_of_effect stands (by rw [if_neg known]; rfl) quiet

/-- LD2 with an even register and pointers that are valid, the second as it stands after the first access. -/
theorem execLaneLd2_next {s : State} {l d x mx y my : Nat} (quiet : s.trap = none)
    (stands : s.laneAt l (.laneLd2 l d x mx y my) = true) (even : d % 2 = 0) (okX : (s.rset l).ptrOk x = true)
    (okY : (((s.modRset l fun r => r.setReg d ((s.lane l).mem x)).modRset l fun r => r.stepPtr x mx).rset l).ptrOk (4 + y)
      = true) :
    execLaneLd2 l d x mx y my s = .next (s.laneAfter l ((s.rset l).ptr x) false fun _ =>
      let t := (s.modRset l fun r => r.setReg d ((s.lane l).mem x)).modRset l fun r => r.stepPtr x mx
      (t.modRset l fun r => r.setReg (d + 1) ((t.lane l).mem (4 + y))).modRset l fun r => r.stepPtr (4 + y) my) :=
  laneOp_of_effect stands ((if_neg (by omega)).trans (ptrAccess_twice_of_ptrOk okX okY)) quiet

section Lim

variable {s : State} {l d a b : Nat} (quiet : s.trap = none) (stands : s.laneAt l (.laneLim l d a b) = true)

include quiet stands

theorem execLaneLim_of_ordered (ordered : (s.rset l).val a ≤ (s.rset l).val b) :
    execLaneLim l d a b s = .next (s.laneAfterReg l fun g => g.alu d (clampInt (g.val a) (g.val b) (g.val d))) :=
  laneOp_of_effect stands (if_neg (by omega)) quiet

/-- Limits out of order leave a free value, which is then used up. -/
theorem execLaneLim_of_crossed (crossed : (s.rset l).val b < (s.rset l).val a) :
    execLaneLim l d a b s = .next (s.laneAfter l 0 false fun t =>
      (t.modRset l fun g => g.alu d (sext 16 s.freeNat)).useFree) :=
  laneOp_of_effect stands (if_pos crossed) quiet

end Lim

/-- Settles O29: the immediates and SETM change the register set only, MOVX its register, the loads and stores make their
accesses, LIM by the order of its limits. -/
theorem laneMovesComplete : Obligations.LaneMovesComplete := by
  intro l s quiet
  refine ⟨fun d v stands => ?_, fun p v stands => ?_, fun p v stands => ?_, fun p v stands => ?_,
    fun d sp stands known => ?_, fun d sp stands known => ?_, fun sat rnd m stands => ?_, fun d p m stands ok => ?_,
    fun r p m stands ok => ?_, fun d x mx y my stands even okX => fun okY => ?_,
    fun d a b stands => ⟨fun ordered => ?_, fun crossed => ?_⟩⟩
  · exact (exec_laneLdi l d v s).trans (laneReg_next stands quiet)
  · exact (exec_laneLdp l p v s).trans (laneReg_next stands quiet)
  · exact (exec_laneLdm l p v s).trans (laneReg_next stands quiet)
  · exact (exec_laneLdz l p v s).trans (laneReg_next stands quiet)
  · exact (exec_laneMovx l d sp true s).trans (execLaneMovx_write quiet stands known)
  · exact (exec_laneMovx l d sp false s).trans (execLaneMovx_read quiet stands known)
  · exact (exec_laneSetm l sat rnd m s).trans (laneReg_next stands quiet)
  · exact (exec_laneLd l d p m s).trans (laneOp_of_effect stands (ptrAccess_of_ptrOk ok) quiet)
  · exact (exec_laneSt l r p m s).trans (laneOp_of_effect stands (ptrAccess_of_ptrOk ok) quiet)
  · exact (exec_laneLd2 l d x mx y my s).trans (execLaneLd2_next quiet stands even okX okY)
  · exact (exec_laneLim l d a b s).trans (execLaneLim_of_ordered quiet stands ordered)
  · exact (exec_laneLim l d a b s).trans (execLaneLim_of_crossed quiet stands crossed)

/-! ## The fabric and the stream FIFO (R180, R187, R189) -/

section Fabric

variable {s : State} {l d disp i x : Nat} {k : Bool} (quiet : s.trap = none)

theorem lanePlaneOk_iff (s : State) (i : Nat) : s.lanePlaneOk i = true ↔ i < s.sigCount := decide_eq_true_iff

/-- A lane's write of an entry in use whose SOURCE is LANE is made (R108). -/
theorem lanePut_of_source {w : Nat} (inUse : i < s.sigCount) (source : s.sigSource i = 0x0B) :
    s.lanePut i w = s.putSig i w := by
  simp [State.lanePut, lanePlaneOk_iff, inUse, source]

theorem putSig_trap (w : Nat) : (s.putSig i w).trap = s.trap := (State.putSig_still s i w).2 rfl

include quiet

theorem execLaneGet_next (stands : s.laneAt l (.laneGet l d k x) = true) (index : (s.rset l).sigIndex k x = i)
    (inUse : i < s.sigCount) :
    execLaneGet l d k x s =
      .next (s.laneAfter l (s.curAt i) false fun t => t.modRset l fun r => r.setReg d (BitVec.ofNat 16 (s.cur i))) := by
  subst index
  rw [execLaneGet]
  exact laneOp_of_effect stands (if_pos ((lanePlaneOk_iff _ _).2 inUse)) quiet

theorem execLaneGetw_next (stands : s.laneAt l (.laneGetw l d k x) = true) (even : d % 2 = 0)
    (index : (s.rset l).sigIndex k x = i) (inUse : i < s.sigCount) :
    execLaneGetw l d k x s = .next (s.laneAfter l (s.curAt i) false fun t => t.modRset l fun r =>
      (r.setReg d (BitVec.ofNat 16 (s.cur i))).setReg (d + 1) (BitVec.ofNat 16 (s.cur i / 65536))) := by
  subst index
  rw [execLaneGetw]
  exact laneOp_of_effect stands (if_neg (by simp [lanePlaneOk_iff, inUse, even])) quiet

theorem execLanePut_next (stands : s.laneAt l (.lanePut l d k x) = true) (index : (s.rset l).sigIndex k x = i)
    (inUse : i < s.sigCount) (source : s.sigSource i = 0x0B) :
    execLanePut l d k x s =
      .next (s.laneAfter l (s.outAt i) true fun t => t.putSig i (trunc 32 ((s.rset l).val d))) := by
  subst index
  rw [execLanePut]
  exact laneOp_of_effect stands (lanePut_of_source inUse source) ((putSig_trap _).trans quiet)

theorem execLanePutw_next (stands : s.laneAt l (.lanePutw l d k x) = true) (even : d % 2 = 0)
    (index : (s.rset l).sigIndex k x = i) (inUse : i < s.sigCount) (source : s.sigSource i = 0x0B) :
    execLanePutw l d k x s = .next (s.laneAfter l (s.outAt i) true fun t =>
      t.putSig i (((s.rset l).reg d).toNat + 65536 * ((s.rset l).reg (d + 1)).toNat)) := by
  subst index
  rw [execLanePutw]
  exact laneOp_of_effect stands ((if_neg (by omega)).trans (lanePut_of_source inUse source)) ((putSig_trap _).trans quiet)

theorem execLaneFld_next (stands : s.laneAt l (.laneFld l d disp) = true) (even : d % 2 = 0)
    (address : (s.rset l).fbAddr disp = i) (within : i < plainSize) :
    execLaneFld l d disp s = .next (s.laneAfter l i false fun t => t.modRset l fun r =>
      (r.setReg d (BitVec.ofNat 16 (s.pw i))).setReg (d + 1) (BitVec.ofNat 16 (s.pw i / 65536))) := by
  subst address
  rw [execLaneFld]
  exact laneOp_of_effect stands (if_neg (by omega)) quiet

omit quiet in
theorem execLaneFst_next {w : Nat} (stands : s.laneAt l (.laneFst l d disp) = true) (even : d % 2 = 0)
    (address : (s.rset l).fbAddr disp = i) (within : i < plainSize)
    (pair : ((s.rset l).reg d).toNat + 65536 * ((s.rset l).reg (d + 1)).toNat = w)
    (free : (s.busWord (lanePort l) i w).trap = none) :
    execLaneFst l d disp s = .next (s.laneAfter l i true fun t => t.busWord (lanePort l) i w) := by
  subst address pair
  rw [execLaneFst]
  exact laneOp_of_effect stands (if_neg (by omega)) free

end Fabric

section Pop

variable {s : State} {l d : Nat}

/-- Outside the arc detector POP takes the oldest sample. -/
theorem execLanePop_of_sample {x : BitVec 16} {q : List (BitVec 16)} (quiet : s.trap = none)
    (stands : s.laneAt l (.lanePop l d) = true) (noArc : s.arcRuns l = false) (sample : (s.lane l).fifo = x :: q) :
    execLanePop l d s = .next (s.laneAfter l 0 false fun t => (t.modRset l fun r => r.setReg d x).fifoPop l) := by
  simp only [execLanePop, noArc, stands, sample, List.isEmpty_cons, List.headD_cons, Bool.and_false, Bool.false_eq_true,
    if_false]
  exact laneOp_next stands quiet

/-- Outside the arc detector POP stalls the lane on an empty FIFO. -/
theorem execLanePop_of_empty (stands : s.laneAt l (.lanePop l d) = true) (noArc : s.arcRuns l = false)
    (empty : (s.lane l).fifo = []) : execLanePop l d s = .next (s.modLane l fun v => { v with stalled := true }) := by
  simp [execLanePop, noArc, stands, empty]

/-- In the arc detector POP takes the oldest sample into the detector's work (R190). -/
theorem execLanePop_of_arc {x : BitVec 16} {q : List (BitVec 16)} (arc : s.arcRuns l = true)
    (sample : (s.lane l).fifo = x :: q)
    (free : (((s.fifoPop l).modLane l fun v => { v with stalled := false }).arcSample l x.toInt).trap = none) :
    execLanePop l d s = .next (((s.fifoPop l).modLane l fun v => { v with stalled := false }).arcSample l x.toInt) := by
  simp only [execLanePop, arc, sample]
  exact done_next free

end Pop

/-- Settles O30: each access with its index or address, POP by the FIFO and by what the lane runs. -/
theorem laneFabricCompletes : Obligations.LaneFabricCompletes := by
  intro l s quiet
  refine ⟨fun d k x stands inUse => ?_, fun d k x stands even inUse => ?_, fun r k x stands inUse => fun source => ?_,
    fun r k x stands even inUse => fun source => ?_, fun d disp stands even within => ?_,
    fun r disp stands even within => fun free => ?_, fun d stands noArc => ⟨fun x q sample => ?_, fun empty => ?_⟩,
    fun d x q arc sample => fun free => ?_⟩
  · exact (exec_laneGet l d k x s).trans (execLaneGet_next quiet stands rfl inUse)
  · exact (exec_laneGetw l d k x s).trans (execLaneGetw_next quiet stands even rfl inUse)
  · exact (exec_lanePut l r k x s).trans (execLanePut_next quiet stands rfl inUse source)
  · exact (exec_lanePutw l r k x s).trans (execLanePutw_next quiet stands even rfl inUse source)
  · exact (exec_laneFld l d disp s).trans (execLaneFld_next quiet stands even rfl within)
  · exact (exec_laneFst l r disp s).trans (execLaneFst_next stands even rfl within rfl free)
  · exact (exec_lanePop l d s).trans (execLanePop_of_sample quiet stands noArc sample)
  · exact (exec_lanePop l d s).trans (execLanePop_of_empty stands noArc empty)
  · exact (exec_lanePop l d s).trans (execLanePop_of_arc arc sample free)

end Sys2Proof.Machine
end

section
/-!
PROOFS. The lane's control instructions (R177, R178, R183, R184, R188), and the commands of its jobs, its stream FIFO and its
memory window (R168, R170, R181, R182, R187, R189).
-/

namespace Sys2Proof.Machine

/-! ## Jumps (R177, R178) -/

/-- At its jump a lane retires it with the effect that the jump has on this state; an effect that meets no undefined case
goes on. -/
theorem laneGo_of_effect {s : State} {l : Nat} {i : Instr} {f g : State → State} (stands : s.laneAt l i = true)
    (effect : f s = g s) (free : (g s).trap = none) : s.laneGo l i f = .next (s.laneAfterGo l g) := by
  rw [laneGo_next stands (by rwa [effect]), State.laneAfterGo, effect, State.laneAfterGo]

theorem laneJump_of_targetOk {s : State} {l tgt : Nat} (ok : (s.rset l).targetOk tgt = true) :
    s.laneJump l tgt = s.modRset l fun r => { r with pc := BitVec.ofNat 12 tgt } := if_pos ok

section Jumps

variable {s : State} {l : Nat}

theorem execLaneJmp_next {tgt : Nat} (quiet : s.trap = none) (stands : s.laneAt l (.laneJmp l tgt) = true)
    (ok : (s.rset l).targetOk tgt = true) :
    execLaneJmp l tgt s = .next (s.laneAfterGo l fun t => t.modRset l fun r => { r with pc := BitVec.ofNat 12 tgt }) := by
  rw [execLaneJmp]
  exact laneGo_of_effect stands (laneJump_of_targetOk ok) quiet

/-- A branch whose condition does not hold goes to the next word. -/
theorem execLaneBr_of_not_taken {cc tgt : Nat} (quiet : s.trap = none) (stands : s.laneAt l (.laneBr l cc tgt) = true)
    (known : cc ≤ 9) (fails : (s.rset l).cond (!(s.lane l).fifo.isEmpty) cc = false) :
    execLaneBr l cc tgt s = .next (s.laneAfterGo l fun t => t.laneNext l) := by
  rw [execLaneBr]
  exact laneGo_of_effect stands (by rw [if_neg (by omega), if_neg (by simp [fails])]) quiet

/-- A branch whose condition holds jumps. -/
theorem execLaneBr_of_taken {cc tgt : Nat} (quiet : s.trap = none) (stands : s.laneAt l (.laneBr l cc tgt) = true)
    (known : cc ≤ 9) (holds : (s.rset l).cond (!(s.lane l).fifo.isEmpty) cc = true)
    (ok : (s.rset l).targetOk tgt = true) :
    execLaneBr l cc tgt s =
      .next (s.laneAfterGo l fun t => t.modRset l fun r => { r with pc := BitVec.ofNat 12 tgt }) := by
  rw [execLaneBr]
  exact laneGo_of_effect stands (by rw [if_neg (by omega), if_pos holds, laneJump_of_targetOk ok]) quiet

/-- CALL pushes its return address on a stack that has room, and jumps. -/
theorem execLaneCall_of_room {tgt : Nat} (stands : s.laneAt l (.laneCall l tgt) = true)
    (room : (s.rset l).calls.length < 8)
    (free : ((s.modRset l fun r => { r with calls := (r.pc + 1) :: r.calls }).laneJump l tgt).trap = none) :
    execLaneCall l tgt s =
      .next (s.laneAfterGo l fun _ => (s.modRset l fun r => { r with calls := (r.pc + 1) :: r.calls }).laneJump l tgt) := by
  rw [execLaneCall]
  exact laneGo_of_effect stands (if_neg (by omega)) free

/-- RET pops its address, and jumps there. -/
theorem execLaneRet_of_cons {a : BitVec 12} {rest : List (BitVec 12)} (stands : s.laneAt l (.laneRet l) = true)
    (calls : (s.rset l).calls = a :: rest)
    (free : ((s.modRset l fun r => { r with calls := rest }).laneJump l a.toNat).trap = none) :
    execLaneRet l s =
      .next (s.laneAfterGo l fun _ => (s.modRset l fun r => { r with calls := rest }).laneJump l a.toNat) := by
  rw [execLaneRet]
  exact laneGo_of_effect stands (by rw [calls]) free

end Jumps

/-! ## LOOP (R177) -/

section Loop

/-- The count that LOOP takes: immediate, or from a data register. -/
def RegSet.loopCount (r : RegSet) (k : Bool) (x : Nat) : Nat := if k then x else (r.reg x).toNat

/-- The register set with a loop of `n` rounds open, its body from the word after `pc` to `last`: LC0 counts an outer loop,
LC1 an inner one. -/
def RegSet.openLoop (r : RegSet) (pc n last : Nat) : RegSet :=
  let r := if r.loops.isEmpty then { r with lc0 := BitVec.ofNat 13 n } else { r with lc1 := BitVec.ofNat 13 n }
  { r with loops := { first := pc + 1, last := last } :: r.loops, pc := BitVec.ofNat 12 (pc + 1) }

theorem openLoop_loops (r : RegSet) (pc n last : Nat) :
    (r.openLoop pc n last).loops = { first := pc + 1, last := last } :: r.loops := by
  unfold RegSet.openLoop
  split <;> rfl

theorem openLoop_counts (r : RegSet) (pc n last : Nat) :
    if r.loops = [] then (r.openLoop pc n last).lc0 = BitVec.ofNat 13 n ∧ (r.openLoop pc n last).lc1 = r.lc1
    else (r.openLoop pc n last).lc1 = BitVec.ofNat 13 n ∧ (r.openLoop pc n last).lc0 = r.lc0 := by
  by_cases outer : r.loops = [] <;> simp [RegSet.openLoop, outer]

variable {s : State} {l x last : Nat} {k : Bool} (stands : s.laneAt l (.laneLoop l k x last) = true)
  (inRange : (s.rset l).loopCount k x < 8192) (room : (s.rset l).loops.length < 2) (ahead : (s.rset l).pc.toNat < last)

include stands inRange room ahead

/-- A LOOP of count 0 jumps past its body. -/
theorem execLaneLoop_of_zero (zero : (s.rset l).loopCount k x = 0) (free : (s.laneJump l (last + 1)).trap = none) :
    execLaneLoop l k x last s = .next (s.laneAfterGo l fun t => t.laneJump l (last + 1)) := by
  rw [execLaneLoop]
  refine laneGo_of_effect stands ?_ free
  rw [RegSet.loopCount] at inRange zero
  simp only [if_pos inRange]
  rw [if_neg (by omega), if_pos zero]

/-- A LOOP of another count opens its loop. -/
theorem execLaneLoop_of_ne_zero (quiet : s.trap = none) (rounds : (s.rset l).loopCount k x ≠ 0) :
    execLaneLoop l k x last s = .next (s.laneAfterGo l fun t => t.modRset l fun r =>
      r.openLoop (s.rset l).pc.toNat ((s.rset l).loopCount k x) last) := by
  rw [execLaneLoop]
  refine laneGo_of_effect stands ?_ quiet
  rw [RegSet.loopCount] at inRange rounds
  simp only [if_pos inRange]
  rw [if_neg (by omega), if_neg rounds]
  rfl

end Loop

/-! ## END and WAITS (R177, R183, R184) -/

section EndWaits

variable {s : State} {l : Nat}

theorem laneEnd_trap (t : State) (pc word daddr how : Nat) (put : Bool) :
    ((t.laneRetire l pc word daddr put).laneEnd l how).trap = t.trap :=
  ((State.laneRetire_still t l pc word daddr put).trans (State.laneEnd_still _ l how)).2 rfl

/-- END outside the vendor kernels' words ends the job. -/
theorem execLaneEnd_of_stands (quiet : s.trap = none) (stands : s.laneAt l (.laneEnd l) = true)
    (user : 0x400 ≤ (s.rset l).pc.toNat) :
    execLaneEnd l s = .next ((s.laneRetire l (s.rset l).pc.toNat 0x04000000 0 false).laneEnd l 0) := by
  rw [execLaneEnd, if_neg (by simp [user]), if_pos stands]
  exact done_next ((laneEnd_trap s _ _ _ _ _).trans quiet)

/-- A vendor kernel that meets no undefined case computes its sample, and its END ends the job. -/
theorem execLaneEnd_of_vendor (lane : l < 8) (run : s.runs Vale.lane = true) (busy : (s.lane l).busy = true)
    (vendor : (s.rset l).pc.toNat < 0x400) (free : (s.vendorKernel l (s.rset l).pc.toNat).trap = none) :
    execLaneEnd l s = .next
      (((s.vendorKernel l (s.rset l).pc.toNat).laneRetire l (s.rset l).pc.toNat 0x04000000 0 false).laneEnd l 0) := by
  rw [execLaneEnd, if_pos (by simp [lane, run, busy, vendor])]
  exact done_next ((laneEnd_trap _ _ _ _ _ _).trans free)

section Waits

variable {n : Nat} (stands : s.laneAt l (.laneWaits l n) = true) (pos : 1 ≤ n) (fits : n ≤ 64)

include stands pos fits

/-- WAITS retires where the FIFO holds the samples. -/
theorem execLaneWaits_of_enough (quiet : s.trap = none) (enough : n ≤ (s.lane l).fifo.length) :
    execLaneWaits l n s = .next (s.laneAfter l 0 false fun t => t) := by
  rw [execLaneWaits, if_neg (by simp [enough])]
  exact laneOp_of_effect stands (if_neg (by omega)) quiet

/-- WAITS stalls the lane where the FIFO holds too few. -/
theorem execLaneWaits_of_few (few : (s.lane l).fifo.length < n) :
    execLaneWaits l n s = .next (s.modLane l fun v => { v with stalled := true }) := by
  rw [execLaneWaits, if_pos (by simp [stands, pos, fits, few])]

end Waits

end EndWaits

/-- Settles O28: each instruction past the guards of its arm. -/
theorem laneControlCompletes : Obligations.LaneControlCompletes := by
  intro l s quiet
  refine ⟨fun stands => ?_, fun stands user => ?_, fun lane run busy vendor free => ?_, fun tgt stands ok => ?_,
    fun cc tgt stands known => ⟨fun fails => ?_, fun holds ok => ?_⟩, fun tgt stands room => fun free => ?_,
    fun a rest stands calls => fun free => ?_,
    fun k x last stands => fun inRange room ahead => ⟨fun zero free => ?_, fun rounds => ?_⟩,
    fun n stands pos fits => ⟨fun enough => ?_, fun few => ?_⟩, fun v stands => ?_, fun c code stands free => ?_⟩
  · exact (exec_laneNop l s).trans (laneOp_next stands quiet)
  · exact (exec_laneEnd l s).trans (execLaneEnd_of_stands quiet stands user)
  · exact (exec_laneEnd l s).trans (execLaneEnd_of_vendor lane run busy vendor free)
  · exact (exec_laneJmp l tgt s).trans (execLaneJmp_next quiet stands ok)
  · exact (exec_laneBr l cc tgt s).trans (execLaneBr_of_not_taken quiet stands known fails)
  · exact (exec_laneBr l cc tgt s).trans (execLaneBr_of_taken quiet stands known holds ok)
  · exact (exec_laneCall l tgt s).trans (execLaneCall_of_room stands room free)
  · exact (exec_laneRet l s).trans (execLaneRet_of_cons stands calls free)
  · exact (exec_laneLoop l k x last s).trans (execLaneLoop_of_zero stands inRange room ahead zero free)
  · exact ⟨_, (exec_laneLoop l k x last s).trans (execLaneLoop_of_ne_zero stands inRange room ahead quiet rounds),
      openLoop_loops _ _ _ _, rfl, openLoop_counts _ _ _ _⟩
  · exact (exec_laneWaits l n s).trans (execLaneWaits_of_enough stands pos fits quiet enough)
  · exact (exec_laneWaits l n s).trans (execLaneWaits_of_few stands pos fits few)
  · exact (exec_laneInh l v s).trans (laneOp_next stands (((State.laneInh_still s l v).2 rfl).trans quiet))
  · exact (exec_laneEvt l c code s).trans (laneOp_next stands free)

/-! ## Jobs (R170, R181, R182, R189) -/

/-- The state with job `j`, of entry `e` and argument `arg0`, started on lane `l`, which held `v`, in its other register
set. -/
def State.laneStarted (s : State) (l j e arg0 : Nat) (v : LaneSt) : State :=
  s.setLane l (LaneSt.setRs { v with cur := !v.cur, busy := true, entry := e, arg0 := arg0, job := some j, stalled := false,
                                     lastPut := false } (RegSet.start e arg0))

/-- Lane `l` of `s` after the start of job `j`, whose dispatch latency of `d` is noted first. -/
def State.jobStarted (s : State) (l j d : Nat) : State :=
  let u := s.noteDispatch j d
  u.laneStarted l j (u.jEntry j % 4096) (u.jArg0 j) (s.lane l)

theorem jobStarted_trap (s : State) (l j d : Nat) : (s.jobStarted l j d).trap = s.trap :=
  (State.noteDispatch_still s j d).2 rfl

/-- A lane that idles starts the job dispatched to it, the detector's start following where the entry is its kernel. -/
theorem execLaneJobStart_of_idle {s : State} {l j : Nat} (d : Nat) (dispatched : s.running l = some j) (lane : l < 8)
    (idle : (s.lane l).busy = false) (run : s.runs Vale.lane = true) :
    execLaneJobStart l d s =
      if (s.noteDispatch j d).jEntry j % 4096 = 0x400 then ((s.jobStarted l j d).arcStart l).done
      else (s.jobStarted l j d).done := by
  have goes : (decide (8 ≤ l) || (s.lane l).busy || !s.runs Vale.lane) = false := by simp [lane, idle, run]
  simp only [execLaneJobStart, dispatched, goes, Bool.false_eq_true, if_false]
  rfl

/-! ## The stream FIFO (R187) and the memory window (R168) -/

/-- A sample leaves its group's output stage, and joins the FIFO or is dropped. -/
theorem execStreamSample_of_enabled {s : State} {l : Nat} (x : Nat) (lane : l < 8)
    (stream : s.flag (LANE_CFG.STREAM_EN l) = true) (run : s.runs Vale.lane = true) :
    execStreamSample l x s =
      if 64 ≤ (s.lane l).fifo.length then .next ((s.leaveStage (s.fld (LANE_CFG.GROUP l))).incFld (LANE_STRM.DROP l))
      else .next (((s.leaveStage (s.fld (LANE_CFG.GROUP l))).setLane l
        { s.lane l with fifo := (s.lane l).fifo ++ [BitVec.ofNat 16 x] }).peakFld (LANE_STRM.PEAK l)
          ((s.lane l).fifo.length + 1)) := by
  rw [execStreamSample, if_neg (by simp [lane, stream, run])]

/-- A read through the window that meets no unstated word shows the word selected. -/
theorem execLaneMemAccess_read {s : State} (w : Nat)
    (stated : s.fld LANE_MEM_SEL.MEM ≠ 0 ∨ 0x480 ≤ s.fld LANE_MEM_ADDR.ADDR % 4096) : execLaneMemAccess false w s =
      .next ((s.setReg LANE_MEM_DATA (BitVec.ofNat 32 s.laneMemRead)).wrapFld LANE_MEM_ADDR.ADDR) := by
  have known : (decide (s.fld LANE_MEM_SEL.MEM = 0) && decide (s.fld LANE_MEM_ADDR.ADDR % 4096 < 0x480)) = false := by
    simp only [Bool.and_eq_false_iff, decide_eq_false_iff_not]
    omega
  simp only [execLaneMemAccess, known, Bool.false_eq_true, if_false]

/-- Settles O35: the start by its entry, the end, the sample by the FIFO's room, and the two accesses of the window. -/
theorem laneJobsComplete : Obligations.LaneJobsComplete := by
  refine ⟨fun l d j s dispatched lane idle run quiet => ⟨fun other => ?_, fun arc free => ?_⟩, fun l s lane busy => ?_,
    fun l x s lane stream run => ⟨fun room => ?_, fun full => ?_⟩, fun w s => exec_laneMemAccess true w s,
    fun w s stated => (exec_laneMemAccess false w s).trans (execLaneMemAccess_read w stated)⟩
  · rw [exec_laneJobStart, execLaneJobStart_of_idle d dispatched lane idle run, if_neg other]
    exact done_next ((jobStarted_trap s l j d).trans quiet)
  · rw [exec_laneJobStart, execLaneJobStart_of_idle d dispatched lane idle run, if_pos arc]
    exact done_next free
  · rw [exec_laneDataError, execLaneDataError, if_pos (by simp [lane, busy])]
  · rw [exec_streamSample, execStreamSample_of_enabled x lane stream run, if_neg (Nat.not_le.2 room)]
  · rw [exec_streamSample, execStreamSample_of_enabled x lane stream run, if_pos full]

end Sys2Proof.Machine
end

section
/-!
PROOFS. The logic engine's data: stores and the pages that decide them (R193, R195), working registers, division and compares
(R194, R206, R207), timers and counters (R208, R209).
-/

namespace Sys2Proof.Machine

/-! ## What a posted event leaves unchanged (R58, R417) -/

/-- The two states agree outside the register table and Meadow's part. -/
def OnlyRegsMdw (s t : State) : Prop := t = { s with regs := t.regs, mdw := t.mdw }

theorem OnlyRegsMdw.refl (s : State) : OnlyRegsMdw s s := rfl

theorem OnlyRegsMdw.thenRegs {s t u : State} (h : OnlyRegsMdw s t) (k : OnlyRegs t u) : OnlyRegsMdw s u := by
  unfold OnlyRegsMdw OnlyRegs at *
  rw [k, h]

theorem OnlyRegsMdw.thenMdw {s t : State} (h : OnlyRegsMdw s t) (m : MdwState) : OnlyRegsMdw s { t with mdw := m } := by
  unfold OnlyRegsMdw at *
  rw [h]

theorem postRec_onlyRegsMdw (s : State) (e : EventRec) : OnlyRegsMdw s (s.postRec e) := by
  unfold State.postRec
  split
  · exact .refl s
  · have counted : OnlyRegsMdw s (s.pmc 0x0E 0) := (OnlyRegsMdw.refl s).thenRegs (pmc_only s 0x0E 0 1)
    have lost : OnlyRegsMdw s ((s.pmc 0x0E 0).pmc 0x0E 1) := counted.thenRegs (pmc_only _ 0x0E 1 1)
    dsimp only
    split
    · exact (counted.thenMdw _).thenRegs ((setFld_only _ _ _).trans (peakFld_only _ _ _))
    · split
      · split
        · exact lost.thenMdw _
        · exact lost.thenRegs (incFld_only _ _ _)
      · exact lost

@[simp] theorem State.post_plain (s : State) (source code : Nat) (fault : Bool) (data : List Nat) :
    (s.post source code fault data).plain = s.plain := by
  rw [State.post, postRec_onlyRegsMdw s]

@[simp] theorem State.post_log (s : State) (source code : Nat) (fault : Bool) (data : List Nat) :
    (s.post source code fault data).log = s.log := by
  rw [State.post, postRec_onlyRegsMdw s]

/-! ## Stores of a task (R193, R195, R202) -/

section Store

variable {s : State} {n a : Nat}

theorem vmStore_of_owner (bs : List Byte) (owner : s.pageOwner a = n + 1) : s.vmStore n a bs = s.vmPut a bs := if_pos owner

/-- A store to a page of another owner is counted and reported. -/
theorem vmStore_of_not_owner (bs : List Byte) (other : s.pageOwner a ≠ n + 1) :
    s.vmStore n a bs = (s.incFld LOG_STAT.STORE_REF).post 0x0A 2 true [n] := if_neg other

theorem vmStore_log_of_not_owner (bs : List Byte) (other : s.pageOwner a ≠ n + 1) : (s.vmStore n a bs).log = s.log := by
  rw [vmStore_of_not_owner bs other, State.post_log, State.incFld_log]

theorem vmStore_plain (bs : List Byte) : (s.vmStore n a bs).plain = s.plain := by
  by_cases owner : s.pageOwner a = n + 1
  · rw [vmStore_of_owner bs owner]
    rfl
  · rw [vmStore_of_not_owner bs owner, State.post_plain, State.incFld_plain]

theorem dirtyA_vmPut (bs : List Byte) (wf : Sparse.wf (fun _ => false) s.log.dirtyA = true) :
    Sparse.get (fun _ => false) (s.vmPut a bs).log.dirtyA (a / 64) = true := get_set_same _ _ _ _ wf

theorem dirtyB_vmPut (bs : List Byte) (wf : Sparse.wf (fun _ => false) s.log.dirtyB = true) :
    Sparse.get (fun _ => false) (s.vmPut a bs).log.dirtyB (a / 64) = true := get_set_same _ _ _ _ wf

end Store

/-- Settles O38: a store is a change of variable memory or a report, as the page's owner decides. -/
theorem logicStoreOwnership : Obligations.LogicStoreOwnership := by
  intro s n a bs wf
  refine ⟨fun owner => ?_, fun other => ⟨vmStore_log_of_not_owner bs other, vmStore_of_not_owner bs other⟩, vmStore_plain bs⟩
  rw [vmStore_of_owner bs owner]
  exact ⟨fun o => get_memory_store bs _ a o wf, dirtyA_vmPut bs, dirtyB_vmPut bs, rfl⟩

/-! ## Working registers (R194) -/

@[simp] theorem TaskCtx.reg_zero (c : TaskCtx) : c.reg 0 = 0 := rfl

@[simp] theorem TaskCtx.setReg_zero (c : TaskCtx) (v : Word) : c.setReg 0 v = c := rfl

theorem TaskCtx.reg_setReg_same {c : TaskCtx} {k : Nat} (v : Word) (wf : Sparse.wf (fun _ => (0 : Word)) c.w = true)
    (notW0 : k ≠ 0) : (c.setReg k v).reg k = v := by
  rw [TaskCtx.reg, TaskCtx.setReg, if_neg notW0, if_neg notW0]
  exact get_set_same _ _ _ _ wf

theorem TaskCtx.reg_setReg_other {c : TaskCtx} {k j : Nat} (v : Word) (other : j ≠ k) : (c.setReg k v).reg j = c.reg j := by
  by_cases w0 : k = 0
  · rw [w0, TaskCtx.setReg_zero]
  · rw [TaskCtx.reg, TaskCtx.setReg, if_neg w0, TaskCtx.reg]
    exact congrArg _ (get_set_other _ _ _ _ _ other)

/-! ## Division (R207) -/

theorem satInt_of_fits {x : Int} (low : -(2 ^ 31) ≤ x) (high : x < 2 ^ 31) : satInt 32 x = x := by
  rw [satInt, clampInt, if_neg (by norm_num; omega), if_neg (by norm_num; omega)]

theorem toInt_intWord_of_fits {x : Int} (low : -(2 ^ 31) ≤ x) (high : x < 2 ^ 31) : (intWord x).toInt = x := by
  rw [intWord, BitVec.toInt_ofInt]
  exact Int.bmod_eq_of_le_mul_two (by norm_num; omega) (by norm_num; omega)

theorem word_toInt_bounds (x : Word) : -(2 ^ 31) ≤ x.toInt ∧ x.toInt < 2 ^ 31 := ⟨BitVec.le_toInt x, BitVec.toInt_lt⟩

/-- The quotient toward zero of two words fits a word, but for the one case that saturates. -/
theorem tdiv_fits {a b : Int} (low : -(2 ^ 31) ≤ a) (high : a < 2 ^ 31) (fits : ¬(a = -(2 ^ 31) ∧ b = -1)) :
    -(2 ^ 31) ≤ a.tdiv b ∧ a.tdiv b < 2 ^ 31 := by
  have abs : (a.tdiv b).natAbs = a.natAbs / b.natAbs := Int.natAbs_tdiv a b
  rcases Nat.lt_or_ge 1 b.natAbs with large | small
  · have half : a.natAbs / b.natAbs ≤ a.natAbs / 2 := Nat.div_le_div_left large (by norm_num)
    omega
  · obtain rfl | rfl | rfl : b = 0 ∨ b = 1 ∨ b = -1 := by omega
    · simp
    · simp; omega
    · simp at fits ⊢; omega

theorem logicDiv_eq_tdiv {a b : Int} (low : -(2 ^ 31) ≤ a) (high : a < 2 ^ 31) (fits : ¬(a = -(2 ^ 31) ∧ b = -1)) :
    logicDiv a b = a.tdiv b :=
  satInt_of_fits (tdiv_fits low high fits).1 (tdiv_fits low high fits).2

theorem logicMod_eq_tmod {a b : Int} (h : b ≠ 0) : logicMod a b = a.tmod b := if_neg h

theorem natAbs_tmod_lt (a : Int) {b : Int} (h : b ≠ 0) : (a.tmod b).natAbs < b.natAbs := by
  rw [Int.natAbs_tmod]
  exact Nat.mod_lt _ (Int.natAbs_pos.2 h)

/-- The remainder has the dividend's sign. -/
theorem tmod_mul_self_nonneg (a b : Int) : 0 ≤ a.tmod b * a := by
  rcases le_total 0 a with pos | neg
  · exact mul_nonneg (Int.tmod_nonneg b pos) pos
  · calc 0 ≤ (-a).tmod b * -a := mul_nonneg (Int.tmod_nonneg b (neg_nonneg.2 neg)) (neg_nonneg.2 neg)
      _ = a.tmod b * a := by rw [Int.neg_tmod, neg_mul_neg]

/-- Settles O40: registers as a table, division toward zero, and the four flags. -/
theorem logicArithmeticLaw : Obligations.LogicArithmeticLaw := by
  refine ⟨fun c k j v => ⟨c.setReg_zero v, c.reg_zero, fun wf notW0 =>
    ⟨TaskCtx.reg_setReg_same v wf notW0, fun other => TaskCtx.reg_setReg_other v other⟩⟩,
    fun x y divisor fits => ?_, fun x => ⟨?_, if_pos rfl⟩, by decide, fun c x y => ?_⟩
  · obtain ⟨low, high⟩ := word_toInt_bounds x
    have nonzero : y.toInt ≠ 0 := fun h => divisor (BitVec.toInt_inj.1 (h.trans BitVec.toInt_zero.symm))
    obtain ⟨quotLow, quotHigh⟩ := tdiv_fits low high fits
    rw [logicDiv_eq_tdiv low high fits, logicMod_eq_tmod nonzero]
    exact ⟨Int.tdiv_mul_add_tmod _ _, natAbs_tmod_lt _ nonzero, tmod_mul_self_nonneg _ _,
      toInt_intWord_of_fits quotLow quotHigh⟩
  · rw [logicDiv, Int.tdiv_zero]
    decide
  · simp [TaskCtx.cmp]

/-! ## Timers (R208) -/

section Timers

variable (et pt dt : Nat) (run q prev inp : Bool)

/-- A timer that has not reached its preset yet still has time to go. -/
theorem elapsed_ne_preset : (min (et + dt) pt != pt) = decide (et + dt < pt) := by
  rw [bne, beq_eq_decide, ← decide_not]
  exact decide_eq_decide.2 (by omega)

theorem timerEval_ton : timerEval 0 et pt dt run q prev inp =
    if inp then (min (et + dt) pt, true, decide (pt ≤ et + dt)) else (0, false, false) := by
  have reached : min (et + dt) pt = pt ↔ pt ≤ et + dt := by omega
  simp only [timerEval, reached]

theorem timerEval_tof_on : timerEval 1 et pt dt run q prev true = (0, false, true) := rfl

/-- After its input has fallen TOF runs to its preset. -/
theorem timerEval_tof_fallen : timerEval 1 et pt dt run true prev false =
    (min (et + dt) pt, decide (et + dt < pt), decide (et + dt < pt)) := by
  rw [← elapsed_ne_preset]
  rfl

theorem timerEval_tof_off : timerEval 1 et pt dt run false prev false = (et, run, false) := rfl

/-- TP under way runs to its preset whatever its input does. -/
theorem timerEval_tp_running : timerEval 2 et pt dt true q prev inp =
    (min (et + dt) pt, decide (et + dt < pt), decide (et + dt < pt)) := by
  rw [← elapsed_ne_preset]
  rfl

/-- A rising input starts TP. -/
theorem timerEval_tp_started : timerEval 2 et pt dt false q false true = (0, decide (0 < pt), decide (0 < pt)) := by
  have togo : (0 != pt) = decide (0 < pt) := by cases pt <;> rfl
  rw [← togo]
  rfl

theorem timerEval_tp_held : timerEval 2 et pt dt false q true true = (et, false, false) := rfl

theorem timerEval_tp_off : timerEval 2 et pt dt false q prev false = (0, false, false) := rfl

/-- Every number from 2 on reads as TP. -/
theorem timerEval_add_two (f : Nat) : timerEval (f + 2) et pt dt run q prev inp = timerEval 2 et pt dt run q prev inp := rfl

variable {et pt}

/-- Elapsed time stays within the preset: it is kept, cleared, or advanced as far as the preset. -/
theorem timerEval_elapsed_le (f : Nat) (within : et ≤ pt) : (timerEval f et pt dt run q prev inp).1 ≤ pt := by
  match f with
  | 0 =>
    rw [timerEval_ton]
    cases inp
    · exact Nat.zero_le _
    · exact min_le_right _ _
  | 1 =>
    cases inp
    · cases q
      · rwa [timerEval_tof_off]
      · exact (congrArg Prod.fst (timerEval_tof_fallen ..)).trans_le (min_le_right _ _)
    · exact Nat.zero_le _
  | f + 2 =>
    rw [timerEval_add_two]
    cases run
    · cases inp
      · exact Nat.zero_le _
      · cases prev
        · exact Nat.zero_le _
        · rwa [timerEval_tp_held]
    · exact (congrArg Prod.fst (timerEval_tp_running ..)).trans_le (min_le_right _ _)

end Timers

/-! ## Counters (R209) -/

section Counters

variable (f : Nat) (cv pv : Int) (cu cd ld : Bool)

theorem counterEval_reset : counterEval f cv pv cu cd true ld = 0 := rfl

theorem counterEval_load : counterEval f cv pv cu cd false true = pv := rfl

/-- What a counter that counts up makes of an edge of its up input: the count stops at the highest. -/
def countUp (cv : Int) : Int := if cv < 2 ^ 31 - 1 then cv + 1 else cv

/-- What a counter that counts down makes of an edge of its down input: the count stops at the lowest. -/
def countDown (cv : Int) : Int := if -(2 ^ 31) < cv then cv - 1 else cv

theorem countUp_bounds {cv : Int} (low : -(2 ^ 31) ≤ cv) (high : cv ≤ 2 ^ 31 - 1) :
    -(2 ^ 31) ≤ countUp cv ∧ countUp cv ≤ 2 ^ 31 - 1 := by
  unfold countUp
  split <;> omega

theorem countDown_bounds {cv : Int} (low : -(2 ^ 31) ≤ cv) (high : cv ≤ 2 ^ 31 - 1) :
    -(2 ^ 31) ≤ countDown cv ∧ countDown cv ≤ 2 ^ 31 - 1 := by
  unfold countDown
  split <;> omega

/-- Without reset and load a counter takes its up edge first, unless it is CTD, and then its down edge, unless it is CTU. -/
theorem counterEval_edges : counterEval f cv pv cu cd false false =
    let v := if cu = true ∧ f ≠ 1 then countUp cv else cv
    if cd = true ∧ f ≠ 0 then countDown v else v := by
  simp only [counterEval, countUp, countDown, Bool.false_eq_true, if_false, Bool.and_eq_true, bne_iff_ne, decide_eq_true_eq,
    ← ite_and]

theorem counterEval_ctu : counterEval 0 cv pv cu cd false false = if cu = true ∧ cv < 2 ^ 31 - 1 then cv + 1 else cv := by
  simp [counterEval_edges, countUp, ite_and]

theorem counterEval_ctd : counterEval 1 cv pv cu cd false false = if cd = true ∧ -(2 ^ 31) < cv then cv - 1 else cv := by
  simp [counterEval_edges, countDown, ite_and]

theorem counterEval_idle : counterEval f cv pv false false false false = cv := by simp [counterEval_edges]

theorem counterEval_bounds {cv : Int} (low : -(2 ^ 31) ≤ cv) (high : cv ≤ 2 ^ 31 - 1) :
    -(2 ^ 31) ≤ counterEval f cv pv cu cd false false ∧ counterEval f cv pv cu cd false false ≤ 2 ^ 31 - 1 := by
  have up : -(2 ^ 31) ≤ (if cu = true ∧ f ≠ 1 then countUp cv else cv) ∧
      (if cu = true ∧ f ≠ 1 then countUp cv else cv) ≤ 2 ^ 31 - 1 := by
    split
    · exact countUp_bounds low high
    · exact ⟨low, high⟩
  rw [counterEval_edges]
  dsimp only
  split
  · exact countDown_bounds up.1 up.2
  · exact up

end Counters

/-- Settles O43: each timer by what its record says, each counter by its inputs in the order of their rank. -/
theorem timersAndCounters : Obligations.TimersAndCounters := by
  refine ⟨fun f et pt dt run q prev inp within => ⟨timerEval_elapsed_le dt run q prev inp f within,
    timerEval_ton et pt dt run q prev inp, timerEval_tof_on et pt dt run q prev, ?_, ?_, ?_, timerEval_tp_off et pt dt q prev⟩,
    fun f cv pv cu cd ld => ⟨counterEval_reset f cv pv cu cd ld, counterEval_load f cv pv cu cd, counterEval_idle f cv pv,
      counterEval_ctu cv pv cu cd, counterEval_ctd cv pv cu cd, counterEval_bounds f pv cu cd⟩⟩
  · rw [timerEval_tof_fallen]
  · rw [timerEval_tp_running]
  · rw [timerEval_tp_started]

end Sys2Proof.Machine
end

section
/-!
PROOFS. The logic cores' instructions: what the command of each answers where the core stands at it (R198, R200, R201, R204 to
R210, R215).
-/

namespace Sys2Proof.Machine

/-! ## Retiring an instruction -/

section Retire

variable {s : State} {k n daddr : Nat} {i : Instr}

/-- At its jump a core retires it with the effect that the jump has on this state; an effect that meets no undefined case
goes on. -/
theorem logicGo_of_effect {f : Nat → State → State} {g : State → State} (stands : s.coreAt k n i = true)
    (effect : f n s = g s) (free : (g s).trap = none) : s.logicGo k i daddr f = .next (s.coreAfterGo k n daddr g) := by
  rw [logicGo_next stands (by rwa [effect]), State.coreAfterGo, effect, State.coreAfterGo]

/-- The same for an instruction that does not jump. -/
theorem logicOp_of_effect {f : Nat → State → State} {g : State → State} (stands : s.coreAt k n i = true)
    (effect : f n s = g s) (free : (g s).trap = none) : s.logicOp k i daddr f = .next (s.coreAfter k n daddr g) :=
  logicGo_of_effect stands (congrArg (State.modTask · n _) effect) free

/-- The same for an instruction that changes the context only. -/
theorem logicReg_of_effect {f g : TaskCtx → TaskCtx} (stands : s.coreAt k n i = true) (effect : ∀ c, f c = g c)
    (quiet : s.trap = none) : s.logicReg k i f = .next (s.coreAfterReg k n g) := by
  rw [logicReg_next stands quiet, funext effect]

theorem coreTask_of_coreAt (stands : s.coreAt k n i = true) : s.coreTask k = some n := by
  simp only [State.coreAt, Bool.and_eq_true, decide_eq_true_eq] at stands
  obtain ⟨runs, -⟩ := stands
  unfold State.coreRuns at runs
  cases task : s.coreTask k with
  | none => rw [task] at runs; cases runs
  | some m =>
    rw [task] at runs
    exact (Option.ite_none_right_eq_some.1 runs).2

/-- The address that a core's data-address record shows is the address of the task that the core runs. -/
theorem coreAddr_of_coreAt (r off bits : Nat) (stands : s.coreAt k n i = true) :
    s.coreAddr k r off bits = s.logicAddr n r off bits := by
  rw [State.coreAddr, coreTask_of_coreAt stands]

/-- The same as `logicOp_of_effect` for an access to variable memory, which the data-address record shows. -/
theorem logicOp_of_access {r off bits : Nat} {f : Nat → State → State} {g : State → State}
    (stands : s.coreAt k n i = true) (effect : f n s = g s) (free : (g s).trap = none) :
    s.logicOp k i (s.coreAddr k r off bits) f = .next (s.coreAfter k n (s.logicAddr n r off bits) g) := by
  rw [coreAddr_of_coreAt r off bits stands]
  exact logicOp_of_effect stands effect free

end Retire

theorem post_trap (s : State) (source code : Nat) (fault : Bool) (data : List Nat) :
    (s.post source code fault data).trap = s.trap := (State.post_still s source code fault data).2 rfl

theorem vmStore_trap (s : State) (n a : Nat) (bs : List Byte) : (s.vmStore n a bs).trap = s.trap :=
  (State.vmStore_still s n a bs).2 rfl

/-! ## Control (R198, R206) -/

section Control

variable {s : State} {k n : Nat}

theorem logicJump_of_inside {tgt : Nat} (inside : tgt < (s.taskProg n).len) :
    s.logicJump n tgt = s.modTask n fun c => { c with pc := tgt } := if_pos inside

theorem execLogicJmp_next {tgt : Nat} (quiet : s.trap = none) (stands : s.coreAt k n (.logicJmp k tgt) = true)
    (inside : tgt < (s.taskProg n).len) :
    execLogicJmp k tgt s = .next (s.coreAfterGo k n 0 fun t => t.modTask n fun c => { c with pc := tgt }) :=
  logicGo_of_effect stands (logicJump_of_inside inside) quiet

/-- A branch whose condition holds jumps. -/
theorem execLogicBr_of_taken {cc tgt : Nat} (quiet : s.trap = none) (stands : s.coreAt k n (.logicBr k cc tgt) = true)
    (known : cc < 12) (holds : (s.task n).cond cc = true) (inside : tgt < (s.taskProg n).len) :
    execLogicBr k cc tgt s = .next (s.coreAfterGo k n 0 fun t => t.modTask n fun c => { c with pc := tgt }) :=
  logicGo_of_effect stands (by rw [if_neg (by omega), if_pos holds, logicJump_of_inside inside]) quiet

/-- A branch whose condition does not hold goes to the next word. -/
theorem execLogicBr_of_not_taken {cc tgt : Nat} (quiet : s.trap = none) (stands : s.coreAt k n (.logicBr k cc tgt) = true)
    (known : cc < 12) (fails : (s.task n).cond cc = false) :
    execLogicBr k cc tgt s = .next (s.coreAfterGo k n 0 fun t => t.modTask n fun c => { c with pc := c.pc + 1 }) :=
  logicGo_of_effect stands (by rw [if_neg (by omega), if_neg (by simp [fails])]) quiet

/-- CALL pushes its return address on a stack that has room, and jumps. -/
theorem execLogicCall_of_room {tgt : Nat} (quiet : s.trap = none) (stands : s.coreAt k n (.logicCall k tgt) = true)
    (room : (s.task n).calls.length < 16)
    (inside : tgt < ((s.modTask n fun c => { c with calls := (c.pc + 1) :: c.calls }).taskProg n).len) :
    execLogicCall k tgt s = .next (s.coreAfterGo k n 0 fun _ =>
      (s.modTask n fun c => { c with calls := (c.pc + 1) :: c.calls }).modTask n fun c => { c with pc := tgt }) :=
  logicGo_of_effect stands ((if_neg (by omega)).trans (logicJump_of_inside inside)) quiet

/-- RET pops its address, and jumps there. -/
theorem execLogicRet_of_cons {a : Nat} {rest : List Nat} (quiet : s.trap = none)
    (stands : s.coreAt k n (.logicRet k) = true) (calls : (s.task n).calls = a :: rest) :
    execLogicRet k s = .next (s.coreAfterGo k n 0 fun t => t.modTask n fun c => { c with calls := rest, pc := a }) :=
  logicGo_of_effect stands (by rw [calls]) quiet

/-- BRB with the bit as it names it jumps. -/
theorem execLogicBrb_of_taken {r tgt : Nat} {v : Bool} (quiet : s.trap = none)
    (stands : s.coreAt k n (.logicBrb k r v tgt) = true) (holds : ((s.task n).reg r).getLsbD 0 = v)
    (inside : tgt < (s.taskProg n).len) :
    execLogicBrb k r v tgt s = .next (s.coreAfterGo k n 0 fun t => t.modTask n fun c => { c with pc := tgt }) :=
  logicGo_of_effect stands ((if_pos holds).trans (logicJump_of_inside inside)) quiet

/-- BRB with the other bit goes to the next word. -/
theorem execLogicBrb_of_not_taken {r tgt : Nat} {v : Bool} (quiet : s.trap = none)
    (stands : s.coreAt k n (.logicBrb k r v tgt) = true) (fails : ((s.task n).reg r).getLsbD 0 ≠ v) :
    execLogicBrb k r v tgt s = .next (s.coreAfterGo k n 0 fun t => t.modTask n fun c => { c with pc := c.pc + 1 }) :=
  logicGo_of_effect stands (if_neg fails) quiet

end Control

/-- Settles O36: each instruction past the guards of its arm. -/
theorem logicControlCompletes : Obligations.LogicControlCompletes := by
  intro k n s quiet
  refine ⟨fun stands => ?_, fun stands => ?_, fun tgt stands inside => ?_,
    fun cc tgt stands known => ⟨fun holds inside => ?_, fun fails => ?_⟩, fun tgt stands room => fun inside => ?_,
    fun a rest stands calls => ?_, fun r v tgt stands => ⟨fun holds inside => ?_, fun fails => ?_⟩, fun c code stands => ?_⟩
  · exact (exec_logicNop k s).trans (logicReg_next stands quiet)
  · exact (exec_logicEnd k s).trans (logicGo_next stands quiet)
  · exact (exec_logicJmp k tgt s).trans (execLogicJmp_next quiet stands inside)
  · exact (exec_logicBr k cc tgt s).trans (execLogicBr_of_taken quiet stands known holds inside)
  · exact (exec_logicBr k cc tgt s).trans (execLogicBr_of_not_taken quiet stands known fails)
  · exact (exec_logicCall k tgt s).trans (execLogicCall_of_room quiet stands room inside)
  · exact (exec_logicRet k s).trans (execLogicRet_of_cons quiet stands calls)
  · exact (exec_logicBrb k r v tgt s).trans (execLogicBrb_of_taken quiet stands holds inside)
  · exact (exec_logicBrb k r v tgt s).trans (execLogicBrb_of_not_taken quiet stands fails)
  · exact (exec_logicEvt k c code s).trans (logicOp_next stands ((post_trap s 0x1B code c [n]).trans quiet))

/-! ## Loads and stores (R193, R195, R204) -/

/-- An access that is aligned and inside variable memory is made. -/
theorem logicAccess_of_inside {s : State} {a size : Nat} {f : State → State} (aligned : a % size = 0)
    (inside : a + size ≤ 0x100000) : s.logicAccess a size f = f s := if_pos (by simp [aligned, inside])

/-- Settles O37: each access is made; the loads change the register that takes the value, the stores are the task's. -/
theorem logicMemoryCompletes : Obligations.LogicMemoryCompletes := by
  intro k n d r off s quiet
  refine ⟨⟨fun aligned inside => ⟨fun stands => ?_, fun stands => ?_⟩, fun aligned inside =>
    ⟨fun stands => ?_, fun stands => ?_⟩, fun inside => ⟨fun stands => ?_, fun stands => ?_⟩⟩,
    fun b inside => ⟨fun stands => ?_, fun stands => ?_⟩⟩
  · exact (exec_logicLdw k d r off s).trans (logicOp_of_access stands (logicAccess_of_inside aligned inside) quiet)
  · exact (exec_logicStw k d r off s).trans
      (logicOp_of_access stands (logicAccess_of_inside aligned inside) ((vmStore_trap ..).trans quiet))
  · exact (exec_logicLdh k d r off s).trans (logicOp_of_access stands (logicAccess_of_inside aligned inside) quiet)
  · exact (exec_logicSth k d r off s).trans
      (logicOp_of_access stands (logicAccess_of_inside aligned inside) ((vmStore_trap ..).trans quiet))
  · exact (exec_logicLdb k d r off s).trans (logicOp_of_access stands (logicAccess_of_inside (Nat.mod_one _) inside) quiet)
  · exact (exec_logicStb k d r off s).trans
      (logicOp_of_access stands (logicAccess_of_inside (Nat.mod_one _) inside) ((vmStore_trap ..).trans quiet))
  · exact (exec_logicLdx k d r off b s).trans
      (logicOp_of_access stands (logicAccess_of_inside (Nat.mod_one _) inside) quiet)
  · exact (exec_logicStx k d r off b s).trans
      (logicOp_of_access stands (logicAccess_of_inside (Nat.mod_one _) inside) ((vmStore_trap ..).trans quiet))

/-! ## Integers, bits and compares (R194, R206, R207) -/

theorem noteDiv0_trap (s : State) (n t : Nat) : (s.noteDiv0 n t).trap = s.trap := (State.noteDiv0_still s n t).2 rfl

section Integer

variable {s : State} {k n d r t f : Nat} (quiet : s.trap = none)

include quiet

/-- LGC by its number: AND, OR, XOR, and AND NOT for the rest. -/
theorem execLogicLgc_next (stands : s.coreAt k n (.logicLgc k d r t f) = true) :
    execLogicLgc k d r t f s = .next (s.coreAfterReg k n fun c =>
      c.setReg d (if f = 0 then c.reg r &&& c.reg t else if f = 1 then c.reg r ||| c.reg t
        else if f = 2 then c.reg r ^^^ c.reg t else c.reg r &&& ~~~(c.reg t))) :=
  logicReg_of_effect stands (fun c => by
    match f with
    | 0 | 1 | 2 => rfl
    | f + 3 => simp [lgcWord]) quiet

theorem execLogicLimit_of_ordered (stands : s.coreAt k n (.logicLimit k d r t) = true)
    (ordered : ((s.task n).reg r).toInt ≤ ((s.task n).reg t).toInt) :
    execLogicLimit k d r t s = .next (s.coreAfter k n 0 fun u => u.setTask n ((s.task n).setReg d
      (intWord (clampInt ((s.task n).reg r).toInt ((s.task n).reg t).toInt ((s.task n).reg d).toInt)))) :=
  logicOp_of_effect stands (if_neg (by omega)) quiet

/-- Limits out of order leave a free value, which is then used up. -/
theorem execLogicLimit_of_crossed (stands : s.coreAt k n (.logicLimit k d r t) = true)
    (crossed : ((s.task n).reg t).toInt < ((s.task n).reg r).toInt) :
    execLogicLimit k d r t s = .next (s.coreAfter k n 0 fun u =>
      (u.setTask n ((s.task n).setReg d (Config.freeWord s.free))).useFree) :=
  logicOp_of_effect stands (if_pos crossed) quiet

theorem execLogicSetc_next {cc : Nat} (stands : s.coreAt k n (.logicSetc k d cc) = true) (known : cc < 12) :
    execLogicSetc k d cc s = .next (s.coreAfter k n 0 fun u =>
      u.modTask n fun c => c.setReg d (BitVec.ofNat 32 (b2n (c.cond cc)))) :=
  logicOp_of_effect stands (if_neg (by omega)) quiet

/-- BOP by its number: AND, OR and XOR. -/
theorem execLogicBop_next {ns nt : Bool} (stands : s.coreAt k n (.logicBop k d r t f ns nt) = true) (known : f < 3) :
    execLogicBop k d r t f ns nt s = .next (s.coreAfter k n 0 fun u => u.modTask n fun c =>
      let a := (c.reg r).getLsbD 0 != ns
      let b := (c.reg t).getLsbD 0 != nt
      c.setReg d (BitVec.ofNat 32 (b2n (if f = 0 then a && b else if f = 1 then a || b else a != b)))) :=
  logicOp_of_effect stands (by
    rw [if_neg (by omega)]
    match f, known with
    | 0, _ | 1, _ | 2, _ => rfl) quiet

end Integer

/-- Settles O39: each command changes the context by the instruction's result; the divisions also count, and LIMIT goes by
the order of its limits. -/
theorem logicIntegerCompletes : Obligations.LogicIntegerCompletes := by
  intro k n s quiet
  refine ⟨fun d v stands => ?_, fun d v stands => ?_, fun d r stands => ?_, fun d r v stands => ?_,
    fun d r t stands => ?_, fun d r t stands => ?_, fun d r t stands => ?_, fun d r t stands => ?_, fun d r t stands => ?_,
    fun d r t stands => ?_, fun d r t stands => ?_, fun d r t f stands => ?_, fun d r stands => ?_,
    fun d r t f stands => ?_, fun d r m f stands => ?_, fun d r t f stands => ?_,
    fun d r t stands => ⟨fun ordered => ?_, fun crossed => ?_⟩, fun d r f stands => ?_, fun r t stands => ?_,
    fun r v stands => ?_, fun d cc stands known => ?_, fun d r t stands => ?_, fun d r t f ns nt stands known => ?_,
    fun d r t stands => ?_⟩
  · exact (exec_logicLdi k d v s).trans (logicReg_next stands quiet)
  · exact (exec_logicLdih k d v s).trans (logicReg_next stands quiet)
  · exact (exec_logicMov k d r s).trans (logicReg_next stands quiet)
  · exact (exec_logicAddi k d r v s).trans (logicReg_next stands quiet)
  · exact (exec_logicAdd k d r t s).trans (logicReg_next stands quiet)
  · exact (exec_logicSub k d r t s).trans (logicReg_next stands quiet)
  · exact (exec_logicMul k d r t s).trans (logicReg_next stands quiet)
  · exact (exec_logicDiv k d r t s).trans (logicOp_next stands ((noteDiv0_trap s n t).trans quiet))
  · exact (exec_logicMod k d r t s).trans (logicOp_next stands ((noteDiv0_trap s n t).trans quiet))
  · exact (exec_logicAdds k d r t s).trans (logicReg_next stands quiet)
  · exact (exec_logicSubs k d r t s).trans (logicReg_next stands quiet)
  · exact (exec_logicLgc k d r t f s).trans (execLogicLgc_next quiet stands)
  · exact (exec_logicNot k d r s).trans (logicReg_next stands quiet)
  · exact (exec_logicShf k d r t f s).trans (logicReg_next stands quiet)
  · exact (exec_logicShfi k d r m f s).trans (logicReg_next stands quiet)
  · exact (exec_logicMinmax k d r t f s).trans (logicReg_next stands quiet)
  · exact (exec_logicLimit k d r t s).trans (execLogicLimit_of_ordered quiet stands ordered)
  · exact (exec_logicLimit k d r t s).trans (execLogicLimit_of_crossed quiet stands crossed)
  · exact (exec_logicAbsneg k d r f s).trans (logicReg_next stands quiet)
  · exact (exec_logicCmp k r t s).trans (logicReg_next stands quiet)
  · exact (exec_logicCmpi k r v s).trans (logicReg_next stands quiet)
  · exact (exec_logicSetc k d cc s).trans (execLogicSetc_next quiet stands known)
  · exact (exec_logicSel k d r t s).trans (logicReg_next stands quiet)
  · exact (exec_logicBop k d r t f ns nt s).trans (execLogicBop_next quiet stands known)
  · exact (exec_logicQmul k d r t s).trans (logicReg_next stands quiet)

/-! ## binary32 (R206, R207) -/

theorem setFloat_trap (s : State) (n d : Nat) (v : FVal) : (s.setFloat n d v).trap = s.trap :=
  (State.setFloat_still s n d v).2 rfl

/-- FCVT by its number: from an integer, to an integer, from Q15, and to Q15 for the rest. -/
theorem execLogicFcvt_next {s : State} {k n d r f : Nat} (quiet : s.trap = none)
    (stands : s.coreAt k n (.logicFcvt k d r f) = true) :
    execLogicFcvt k d r f s = .next (s.coreAfterReg k n fun c =>
      c.setReg d (if f = 0 then BitVec.ofNat 32 (f32Word (fInt (c.reg r).toInt))
        else if f = 1 then intWord (fToSat 32 (f32 (c.reg r).toNat))
        else if f = 2 then BitVec.ofNat 32 (f32Word (.fin (sext 16 (c.reg r).toNat < 0) (sext 16 (c.reg r).toNat).natAbs (-15)))
        else intWord (fToSat 16 (fScale15 (f32 (c.reg r).toNat))))) :=
  logicReg_of_effect stands (fun c => by
    match f with
    | 0 | 1 | 2 => rfl
    | f + 3 => simp) quiet

/-- Settles O41: the four operations give their result, FCMP its flags, FCVT the value converted. -/
theorem logicFloatCompletes : Obligations.LogicFloatCompletes := by
  intro k n s quiet
  refine ⟨fun d r t stands => ?_, fun d r t stands => ?_, fun d r t stands => ?_, fun d r t stands => ?_,
    fun r t stands => ?_, fun d r f stands => ?_⟩
  · exact (exec_logicFadd k d r t s).trans (logicOp_of_effect stands rfl ((setFloat_trap s n d _).trans quiet))
  · exact (exec_logicFsub k d r t s).trans (logicOp_of_effect stands rfl ((setFloat_trap s n d _).trans quiet))
  · exact (exec_logicFmul k d r t s).trans (logicOp_of_effect stands rfl ((setFloat_trap s n d _).trans quiet))
  · exact (exec_logicFdiv k d r t s).trans (logicOp_of_effect stands rfl ((setFloat_trap s n d _).trans quiet))
  · exact (exec_logicFcmp k r t s).trans (logicOp_of_effect stands rfl quiet)
  · exact (exec_logicFcvt k d r f s).trans (execLogicFcvt_next quiet stands)

end Sys2Proof.Machine
end

section
/-!
PROOFS. The logic cores' planes and their timer, counter and edge records (R200, R201, R208 to R210), the cycles of their
tasks (R196 to R199, R202) and the on-line exchange (R211 to R213).
-/

namespace Sys2Proof.Machine

/-! ## Planes (R200, R201) -/

section Planes

variable {s : State} {k n d x : Nat} {m : Bool} (quiet : s.trap = none)

/-- A write of LOG into an entry in use whose SOURCE is LOG is made. -/
theorem logPut_of_source {i w : Nat} (inUse : i < s.sigCount) (source : s.sigSource i = 0x0A) :
    s.logPut i w = s.putSig i w := if_pos (by simp [inUse, source])

include quiet

theorem execLogicGetd_next (stands : s.coreAt k n (.logicGetd k d m x) = true)
    (inUse : (s.task n).sigIndex m x < s.sigCount) :
    execLogicGetd k d m x s = .next (s.coreAfter k n 0 fun t =>
      t.modTask n fun c => c.setReg d (BitVec.ofNat 32 (s.cur ((s.task n).sigIndex m x)))) :=
  logicOp_of_effect stands (if_pos inUse) quiet

theorem execLogicPutd_next (stands : s.coreAt k n (.logicPutd k d m x) = true)
    (inUse : (s.task n).sigIndex m x < s.sigCount) (source : s.sigSource ((s.task n).sigIndex m x) = 0x0A) :
    execLogicPutd k d m x s = .next (s.coreAfter k n 0 fun t =>
      t.putSig ((s.task n).sigIndex m x) ((s.task n).reg d).toNat) :=
  logicOp_of_effect stands (logPut_of_source inUse source) ((putSig_trap _).trans quiet)

theorem execLogicGrp_next {g : Nat} (stands : s.coreAt k n (.logicGrp k d g) = true) (inUse : g < s.sigCount) :
    execLogicGrp k d g s = .next (s.coreAfter k n 0 fun t => t.modTask n fun c =>
      (c.setReg d (BitVec.ofNat 32 (s.pw (s.grpCurAt g)))).setReg ((d + 1) % 32)
        (BitVec.ofNat 32 (s.pw (s.grpCurAt g + 4)))) :=
  logicOp_of_effect stands (if_neg (by omega)) quiet

end Planes

/-! ## Timer, counter and edge records (R208 to R210) -/

/-- A record keeps its kind: one that no TMR has used takes the kind of the first. -/
theorem timerKind_guard {f kind : Nat} (known : f < 3) (same : kind = 0 ∨ kind = f + 1) :
    ¬(decide (3 ≤ f) || (kind != 0 && kind != f + 1)) = true := by
  rcases same with rfl | rfl <;> simp [known]

/-- Settles O42: planes by their entry, timer, counter and edge records as stores and loads of the task. -/
theorem logicInstancesComplete : Obligations.LogicInstancesComplete := by
  intro k n s quiet
  have stored : ∀ {t : State} (a : Nat) (bs : List Byte), t.trap = s.trap → (t.vmStore n a bs).trap = none :=
    fun a bs same => (vmStore_trap _ n a bs).trans (same.trans quiet)
  refine ⟨fun d m x stands inUse => ?_, fun d m x stands inUse source => ?_, fun d g stands inUse => ?_,
    fun d r f i stands known same => ?_, fun r i stands => ?_, fun d i stands => ?_, fun d r f i stands known => ?_,
    fun r i stands => ?_, fun d i stands => ?_, fun d r f i stands => ?_⟩
  · exact (exec_logicGetd k d m x s).trans (execLogicGetd_next quiet stands inUse)
  · exact (exec_logicPutd k d m x s).trans (execLogicPutd_next quiet stands inUse source)
  · exact (exec_logicGrp k d g s).trans (execLogicGrp_next quiet stands inUse)
  · exact (exec_logicTmr k d r f i s).trans
      (logicOp_of_effect stands (if_neg (timerKind_guard known same)) (stored _ _ rfl))
  · exact (exec_logicTpt k r i s).trans (logicOp_of_effect stands rfl (stored _ _ rfl))
  · exact (exec_logicTrd k d i s).trans (logicOp_of_effect stands rfl quiet)
  · exact (exec_logicCnt k d r f i s).trans (logicOp_of_effect stands (if_neg (by omega)) (stored _ _ rfl))
  · exact (exec_logicCpv k r i s).trans (logicOp_of_effect stands rfl (stored _ _ rfl))
  · exact (exec_logicCrd k d i s).trans (logicOp_of_effect stands rfl quiet)
  · exact (exec_logicEdge k d r f i s).trans (logicOp_of_effect stands rfl (stored _ _ rfl))

/-! ## Cycles (R196 to R199, R202) -/

/-- The cycle that task `n` starts now is its exchange cycle: X has come by its release. -/
def State.exchDue (s : State) (n : Nat) : Bool :=
  match s.log.x with
  | some x => s.log.toExch.contains n && x ≤ (s.task n).relTick
  | none => false

/-- The state with the cycle of job `j` of task `n` started, whose dispatch latency of `d` is noted first; the exchange cycle
exchanges the task. -/
def State.cycleStarted (s : State) (j n d : Nat) : State :=
  let u := s.noteDispatch j d
  let v := if u.exchDue n then u.taskExchange n else u
  v.modTask n fun c => c.start (v.fld (LOG_TASK_ENTRY.ENTRY n))

/-- The state with the flushes of task `n`'s cycle on core `k` done, its time taken and its job `j` reported. -/
def State.cycleCompleted (s : State) (k j n : Nat) : State :=
  let u := (s.taskFlush n).retainFlush n (if k < 2 then 8 else 9)
  let us := min 0xFFFF ((u.ns - (u.task n).relNs) / 1000)
  let v := ((u.setFld (LOG_TASK_TIME.LAST n) us).peakFld (LOG_TASK_TIME.MAX n) us).modTask n fun c =>
    { c with phase := 0, job := none, cycles := (c.cycles + 1) % 2 ^ 32 }
  let e : EndedJob := { engine := 8 + k, job := j, how := 0 }
  { v.setRunning (8 + k) none with sch := { (v.setRunning (8 + k) none).sch with ended := v.sch.ended ++ [e] } }.dispatch

section Cycles

variable {s : State} {k j n : Nat} (dispatched : s.running (8 + k) = some j) (task : s.coreTask k = some n) (core : k < 4)
  (run : s.runs Vale.logic = true)

include dispatched task core run

/-- A core starts the cycle of the task dispatched to it, and reads the image where the read ends before the next strobe and
the latch window is shut. -/
theorem execCycleStart_of_dispatched (whole : Bool) (d : Nat) (going : s.halted = false) (released : (s.task n).phase = 1) :
    execCycleStart k whole d s =
      if whole && (s.cycleStarted j n d).time.phase != .arrived then ((s.cycleStarted j n d).taskRead n).done
      else (s.cycleStarted j n d).done := by
  have goes : (decide (4 ≤ k) || !s.runs Vale.logic || s.halted || (s.task n).phase != 1) = false := by
    simp [core, run, going, released]
  simp only [execCycleStart, dispatched, task, goes, Bool.false_eq_true, if_false]
  rfl

theorem execCycleStart_of_read {whole : Bool} {d : Nat} (going : s.halted = false) (released : (s.task n).phase = 1)
    (reads : whole = true) (closed : (s.cycleStarted j n d).time.phase ≠ .arrived)
    (free : ((s.cycleStarted j n d).taskRead n).trap = none) :
    execCycleStart k whole d s = .next ((s.cycleStarted j n d).taskRead n) := by
  rw [execCycleStart_of_dispatched dispatched task core run whole d going released,
    if_pos (by rw [reads, Bool.true_and, bne_iff_ne]; exact closed)]
  exact done_next free

theorem execCycleStart_of_wait {whole : Bool} {d : Nat} (going : s.halted = false) (released : (s.task n).phase = 1)
    (waits : whole = false ∨ (s.cycleStarted j n d).time.phase = .arrived) (free : (s.cycleStarted j n d).trap = none) :
    execCycleStart k whole d s = .next (s.cycleStarted j n d) := by
  rw [execCycleStart_of_dispatched dispatched task core run whole d going released,
    if_neg (by rcases waits with off | arrived <;> simp [*])]
  exact done_next free

/-- After END a core flushes and reports. -/
theorem execCycleComplete_of_ended (ended : (s.task n).phase = 4) :
    execCycleComplete k s = (s.cycleCompleted k j n).done := by
  have goes : (decide (4 ≤ k) || !s.runs Vale.logic || (s.task n).phase != 4) = false := by simp [core, run, ended]
  simp only [execCycleComplete, dispatched, task, goes, Bool.false_eq_true, if_false]
  rfl

end Cycles

/-! ## Task commands and the on-line exchange (R197, R211 to R213) -/

section Commands

variable {s : State}

theorem execTaskStart_of_powered {n : Nat} (task : n < 8) (powered : s.powerFail = false) :
    execTaskStart n s = .next ((s.setFld (LOG_TASK_STAT.STOPPED n) 0).setFld (LOG_TASK_STAT.SKIPRUN n) 0) :=
  if_pos (by simp [task, powered])

theorem execTaskStop_of_powered {n : Nat} (task : n < 8) (powered : s.powerFail = false) :
    execTaskStop n s = .next (s.taskStop n).dispatch := if_pos (by simp [task, powered])

/-- A request with a program loaded and no exchange under way opens an exchange. -/
theorem exchAsk_of_loaded (shut : s.exchOpen = false) (idle : s.exchRunning = false)
    (loaded : s.flag LOG_BANK.LOADED = true) :
    let u := s.each (List.range 8) fun t n => t.setFld (LOG_TASK_STAT.EXCHANGED n) 0
    s.exchAsk = { u with log := { u.log with reqNs := some u.ns } }.setFld LOG_EXCH_STAT.STATE 1 := by
  rw [State.exchAsk, if_neg (by simp [shut, idle]), if_neg (by simp [loaded])]

/-- An eligible boundary is X for an exchange that awaits it; before strobe arrival nothing is released. -/
theorem execExchWindowOpen_of_risen (awaits : s.fld LOG_EXCH_STAT.STATE = 2) (risen : s.time.phase = .risen)
    (eligible : s.exchEligible s.time.tick = true) :
    execExchWindowOpen s = ((s.exchOpenAt s.time.tick).changeApply s.time.tick).done := by
  rw [execExchWindowOpen]
  simp only [awaits, risen, eligible]
  rfl

theorem execExchCheckDone_of_mismatch (checked : s.fld LOG_EXCH_STAT.STATE = 1) (mismatch : s.exchMismatch = true) :
    execExchCheckDone s = .next (s.exchRefuse 0) := by
  rw [execExchCheckDone, if_neg (by simp [checked]), if_pos mismatch]

theorem execExchCheckDone_of_match (checked : s.fld LOG_EXCH_STAT.STATE = 1) (same : s.exchMismatch = false) :
    execExchCheckDone s = .next (s.setFld LOG_EXCH_STAT.STATE 2) := by
  rw [execExchCheckDone, if_neg (by simp [checked]), if_neg (by simp [same])]

end Commands

/-- Settles O44: a cycle's start by its image read, its completion, the task commands, and the exchange by its state. -/
theorem logicCyclesComplete : Obligations.LogicCyclesComplete := by
  refine ⟨fun k j n d whole s dispatched task core run going released quiet => fun free =>
    ⟨fun reads closed readFree => ?_, fun waits => ?_⟩, fun k j n s dispatched task core run ended => fun free => ?_,
    fun n s task powered => ⟨?_, ?_⟩, fun s powered => ⟨fun shut idle loaded => ?_, fun opened => ?_⟩,
    fun s awaits risen eligible => fun free => ?_,
    fun s checked => ⟨fun mismatch => ?_, fun same => ?_⟩, fun s opened => ?_⟩
  · exact (exec_cycleStart k whole d s).trans
      (execCycleStart_of_read dispatched task core run going released reads closed readFree)
  · exact (exec_cycleStart k whole d s).trans
      (execCycleStart_of_wait dispatched task core run going released waits free)
  · rw [exec_cycleComplete, execCycleComplete_of_ended dispatched task core run ended]
    exact done_next free
  · exact (exec_taskStart n s).trans (execTaskStart_of_powered task powered)
  · exact (exec_taskStop n s).trans (execTaskStop_of_powered task powered)
  · rw [exec_exchRequest, execExchRequest, regCommand_of_powered _ powered, exchAsk_of_loaded shut idle loaded]
  · rw [exec_exchCancel, execExchCancel, regCommand_of_powered _ powered, if_pos opened]
  · rw [exec_exchWindowOpen, execExchWindowOpen_of_risen awaits risen eligible]
    exact done_next free
  · exact (exec_exchCheckDone s).trans (execExchCheckDone_of_mismatch checked mismatch)
  · exact (exec_exchCheckDone s).trans (execExchCheckDone_of_match checked same)
  · rw [exec_exchTimeout, execExchTimeout, if_pos opened]

end Sys2Proof.Machine
end

section
/-!
PROOFS. Time (chapter 15): the order of short times and the idle step of the always-on vale.
-/

namespace Sys2Proof.Machine

/-! ## Short times (R67, R356) -/

/-- A number read in two's complement is negative exactly when its sign bit is set. -/
theorem sext_neg_iff (n x : Nat) : sext n x < 0 ↔ 2 ^ (n - 1) ≤ x % 2 ^ n := by
  have below : x % 2 ^ n < 2 ^ n := Nat.mod_lt _ (Nat.two_pow_pos n)
  unfold sext
  split <;> omega

/-- R67's signed difference as a distance modulo the range: negative is half the range or more. -/
theorem earlier_iff (a b : Nat) : earlier a b = true ↔ 2 ^ 31 ≤ (a + 2 ^ 32 - b % 2 ^ 32) % 2 ^ 32 :=
  decide_eq_true_iff.trans (sext_neg_iff 32 _)

/-- With `earlier_add_shortOf_iff`: at a distance of 2^31 ns, which R356 excludes, each of the two is earlier. -/
theorem earlier_shortOf_add_iff (t d : Nat) :
    earlier (shortOf t) (shortOf (t + d)) = true ↔ 0 < d % 2 ^ 32 ∧ d % 2 ^ 32 ≤ 2 ^ 31 := by
  rw [earlier_iff, shortOf, shortOf]
  omega

theorem earlier_add_shortOf_iff (t d : Nat) :
    earlier (shortOf (t + d)) (shortOf t) = true ↔ 2 ^ 31 ≤ d % 2 ^ 32 := by
  rw [earlier_iff, shortOf, shortOf]
  omega

theorem earlier_shortOf_self (t : Nat) : earlier (shortOf t) (shortOf t) = false :=
  Bool.eq_false_iff.2 fun before => absurd ((earlier_add_shortOf_iff t 0).1 before) (by decide)

/-- Seconds and nanoseconds spell an instant within the counter's range. -/
theorem secOf_nsOf {t : Nat} (range : t < 2 ^ 48 * 10 ^ 9) : secOf t * 10 ^ 9 + nsOf t = t := by
  unfold secOf nsOf
  omega

/-- Settles O15: short times compare by the distance of their instants, and that distance is less than half the range. -/
theorem shortTimeOrder : Obligations.ShortTimeOrder := by
  refine ⟨fun t range => ⟨?_, Nat.add_mod_right t (2 ^ 32)⟩, fun t d pos near => ?_⟩
  · rw [secOf_nsOf range, shortOf]
  · have small : d % 2 ^ 32 = d := Nat.mod_eq_of_lt (by omega)
    refine ⟨(earlier_shortOf_add_iff t d).2 ?_, Bool.eq_false_iff.2 fun before => ?_, earlier_shortOf_self t⟩
    · rw [small]
      exact ⟨pos, near.le⟩
    · rw [earlier_add_shortOf_iff, small] at before
      exact absurd near (Nat.not_lt.2 before)

/-! ## The idle step (R354, R476) -/

theorem step_of_empty {s : State} (empty : s.pending = []) : step s = .next s.timeCycle := by
  rw [step, empty]

/-- The state after one increment of the counter, before the performance counters see the cycle. -/
def State.timeAdvanced (s : State) : State :=
  { s with time := { s.time with now := (s.time.now + s.timeInc) % timeWrap, slew := s.slewLeft,
                                 sinceRise := s.time.sinceRise + 1 } }

theorem timeCycle_of_stopped {s : State} (stopped : s.timeRuns = false) : s.timeCycle = s :=
  if_neg (by simp [stopped])

theorem timeCycle_of_running {s : State} (running : s.timeRuns = true) :
    s.timeCycle = s.timeAdvanced.pmc 0x11 (s.fld PWR_STAT.STATE) := if_pos running

theorem timeCycle_only {s : State} (running : s.timeRuns = true) : OnlyRegs s.timeAdvanced s.timeCycle := by
  rw [timeCycle_of_running running]
  exact pmc_only _ _ _ _

/-- Settles O2: an idle step is a cycle of the always-on vale, which increments the counter and changes registers only. -/
theorem emptyQueueIdles : Obligations.EmptyQueueIdles := by
  refine fun s empty => ⟨fun stopped => ?_, fun running => ⟨s.timeCycle, step_of_empty empty, ?_⟩⟩
  · rw [step_of_empty empty, timeCycle_of_stopped stopped]
  · have only := timeCycle_only running
    have time : s.timeCycle.time = s.timeAdvanced.time := only.time
    rw [time]
    exact ⟨rfl, only⟩

end Sys2Proof.Machine
end

section
/-!
PROOFS. What every step holds (chapter 21): the state after reset, the invariant of the tables' form with no undefined case
met, and the queue under a command.
-/

namespace Sys2Proof.Machine

/-! ## The state after reset (R41, R480) -/

/-- In a memory with no byte listed every run of bytes spells 0 (R41). -/
theorem bytesNat_bytes_nil (n : Nat) : ∀ o, bytesNat (Memory.bytes [] o n) = 0 := by
  induction n with
  | zero => exact fun _ => rfl
  | succ n ih =>
    intro o
    calc bytesNat (Memory.bytes [] o (n + 1))
        = (plainInit o).toNat + 256 * bytesNat (Memory.bytes [] (o + 1) n) := rfl
      _ = 0 := by rw [ih (o + 1)]; rfl

/-- Settles O3: the tables of the reset state list nothing, so each key reads as unlisted. -/
theorem resetIsInForm : Obligations.ResetIsInForm :=
  ⟨rfl, rfl, rfl, fun _ => rfl, fun o n => bytesNat_bytes_nil n o, fun o n => bytesNat_bytes_nil n o⟩

/-! ## The invariant of a step (R7, R480, R482) -/

/-- With a command at the front of the queue a step runs it on the state that keeps the rest. -/
theorem step_of_front {s : State} {c : Instr} {rest : List Instr} (front : s.pending = c :: rest) :
    step s = exec c { s with pending := rest } := by
  rw [step, front]

/-- An operation that meets no undefined case keeps the invariant. -/
theorem Still.inForm {s t : State} (still : Still s t) (form : s.canonical = true) (clear : s.trap = none) :
    t.canonical = true ∧ t.trap = none := by
  obtain ⟨⟨keepsForm, _⟩, sameTrap⟩ := still
  exact ⟨keepsForm form, (sameTrap rfl).trans clear⟩

/-- The next state of an outcome that is `Good` has the invariant that the state before it had. -/
theorem Good.inForm {s t : State} {r : Res} (good : Good s r) (next : r = .next t) (form : s.canonical = true)
    (clear : s.trap = none) : t.canonical = true ∧ t.trap = none := by
  obtain ⟨⟨⟨keepsForm, _⟩, _⟩, keepsClear⟩ := good.1 t next
  exact ⟨keepsForm form, keepsClear clear⟩

/-- Settles O4: a step is a cycle of the always-on vale or a command of the queue, and each of them keeps the form. -/
theorem everyStepKeepsTheForm : Obligations.EveryStepKeepsTheForm := by
  intro s t form clear next
  cases queue : s.pending with
  | nil =>
    rw [step_of_empty queue] at next
    cases next
    exact s.timeCycle_still.inForm form clear
  | cons c rest =>
    rw [step_of_front queue] at next
    exact (exec_good c { s with pending := rest }).inForm next form clear

/-! ## The queue under a command (R482) -/

/-- The next state of an outcome that is `Good` has the queue of the state before it. -/
theorem Good.pending {s t : State} {r : Res} (good : Good s r) (next : r = .next t) : t.pending = s.pending := by
  obtain ⟨⟨⟨_, sameQueue⟩, _⟩, _⟩ := good.1 t next
  exact sameQueue

/-- Settles O5: each command's outcome is `Good`, which refuses nothing and keeps the queue. -/
theorem noCommandIsRefused : Obligations.NoCommandIsRefused :=
  fun c s => ⟨(exec_good c s).2, fun _ next => (exec_good c s).pending next⟩

end Sys2Proof.Machine
end

section
namespace Sys2Proof.Machine

/-! ## The command at the front of the queue (95_what_each_step_holds.md) -/

/-- Settles O1: of the two cases of a step, an empty queue and a front command, the second. -/
theorem stepRunsTheFront : Obligations.StepRunsTheFront :=
  fun _ _ _ front => step_of_front front

end Sys2Proof.Machine
end
